-- ==== Sys2Proof/Word.lean ====
section
/-!
DEFINITION. Sys2Proof/Word.lean: the word types of the block and the plain units it names.
-/
namespace Sys2Proof

/-- One byte. -/
abbrev Byte := BitVec 8
/-- A 16-bit field. -/
abbrev W16 := BitVec 16
/-- A 32-bit field. -/
abbrev W32 := BitVec 32
/-- A 64-bit field. -/
abbrev W64 := BitVec 64
/-- A 128-bit digest (R251). -/
abbrev W128 := BitVec 128

/-- A sparse map: keys rising, absent keys hold the default that its reader names. -/
abbrev Store (α : Type) := List (Nat × α)

end Sys2Proof
end

