-- ==== Sys2Proof/Syntax.lean ====
section
/-!
DEFINITION. Sys2Proof/Syntax.lean: the commands of the block, one constructor for each row of the
operation table, with the operands that each one carries.
-/
namespace Sys2Proof

/-- A vector engine: a cell of compute die `die + 1`, or that die's Inflector (R135). -/
inductive Engine where
  | cell (die : Fin 4) (cell : Fin 96)
  | inflector (die : Fin 4)
deriving DecidableEq, Repr

/-- The fields of an instruction word but for OPCODE, which the row fixes (Table 6.2). -/
structure VFields where
  vd : BitVec 5
  va : BitVec 5
  vb : BitVec 5
  vc : BitVec 5
  pred : BitVec 3
  pneg : Bool
  fmt : BitVec 4
  mode : BitVec 4
  imm : BitVec 24
deriving DecidableEq, Repr

/-- A mailbox (Table 14.5). -/
inductive Mailbox where
  | host (m : Fin 32)
  | guest (port : Fin 2) (m : Fin 2)
  | mgmt (m : Fin 2)
deriving DecidableEq, Repr

/-- A command as it reaches the Parser: its 64-byte entry (Table 14.6), the payload bytes read at
PAYLOAD_ADDR, and whether that read completed with an error or poisoned data (R361). -/
structure Cmd where
  mb : Mailbox
  entry : BitVec 512
  payload : List Byte
  payloadErr : Bool
deriving DecidableEq, Repr

/-- An address range: base and length in bytes, and whether it may be written. -/
structure Grant where
  base : Nat
  len : Nat
  write : Bool
deriving DecidableEq, Repr

/-- A parameter group that a stage image declares (R225): its length in elements, the offsets of its
elements, block scales and tensor scale in the working-copy image, its rows, and the coefficients (B1, B2, WD, BASE)
and curve that a basic RULE_LOAD takes from the image, where the image has them. -/
structure ParamGroup where
  len : Nat
  workOff : Nat
  scaleOff : Nat
  tsOff : Nat
  rows : Nat
  coeffs : Option (W32 × W32 × W32 × W32 × List Byte)
deriving DecidableEq, Repr

/-- A predictor declaration (R130). -/
structure PredDecl where
  group : Nat
  addr : Nat
  limit : W32
deriving DecidableEq, Repr

/-- A stage image by its contents (R171, R173, R194, R228; its binary form is Phocon's, R1), with the
places that firmware chose for the areas it keeps outside the grants. -/
structure StageImage where
  stage : Nat
  position : Nat
  vstage : Nat
  die : Nat
  grade : Nat
  /-- cell numbers in ascending order -/
  cells : List Nat
  code : List W64
  /-- declarations of Table 5.2 -/
  groups : List (BitVec 256)
  preds : List PredDecl
  grants : List Grant
  /-- the parameter block of Table 7.2 -/
  block : BitVec 1024
  blockAddr : Nat
  imageSize : Nat
  /-- compute format of the working copy, Table 2.1 -/
  fmt : Nat
  forwardView : Nat
  backwardView : Nat
  /-- two full image buffers -/
  buffers : List Nat
  paramGroups : List ParamGroup
  gradSlots : List Nat
  /-- two buffers each: heads, remainders, moments; moment bytes of one buffer -/
  heads : List Nat
  rems : List Nat
  moments : List Nat
  momentLen : Nat
  /-- areas outside every grant: shard digest tables, deltas, rule block, curves, masks, reduced shard -/
  sdigArea : Nat
  deltaArea : Nat
  ruleArea : Nat
  curveArea : Nat
  maskArea : Nat
  voteArea : Nat
  scratchArea : Nat
deriving DecidableEq, Repr

/-- A Conjunction frame as it arrives: header of Table 13.4 and 480 payload bytes. -/
structure Frame where
  header : BitVec 256
  payload : List Byte
deriving DecidableEq, Repr

/-- An Apposition message as it arrives: header beat of Table 12.10 and its data beats. -/
structure AppMsg where
  header : BitVec 512
  data : List Byte
deriving DecidableEq, Repr

/-- A Phrase message as it arrives (R304, R307): its header flit, its data, and the CRC-24 of each of its groups. -/
structure PhraseFlits where
  header : BitVec 256
  data : List Byte
  crcs : List (BitVec 24)
deriving DecidableEq, Repr

/-- What a clip's Reads have given (R276, R293): the bytes of its object, and how many bytes were read for it. -/
structure ClipRead where
  object : List Byte
  bytesRead : Nat
deriving DecidableEq, Repr

/-- What one test of Table 10.3 gave for a unit (R262): unit address and class, the test (0 logic BIST, 1 memory BIST, 2
known-answer tile suite), the index of the suite's tile, and the unit's 64-bit signature or the tile's PD, at first and in
the repeat that follows a difference. -/
structure TestResult where
  unit : W16
  cls : BitVec 4
  test : Fin 3
  index : W32
  first : W128
  again : W128
deriving DecidableEq, Repr

/-- A die's answer to DISCOVER or a guest's identity (R317, R318): type, serial number, fused grade. -/
structure DieAnswer where
  die : Fin 8
  type : Byte
  serial : W64
  grade : Byte
deriving DecidableEq, Repr

/-- What goes wrong while a captured tile is repeated (R265): masks on the accumulator values of the home, partner and
arbiter gangs' repeats and of a suspect's second run, the array that reproduces the fault where one alone does, and whether
the full suite at cell scope passes. -/
structure RepeatResult where
  home : List W32
  partner : List W32
  arbiter : List W32
  homeAgain : List W32
  partnerAgain : List W32
  failArray : Option (Fin 64)
  suitePassed : Bool
deriving DecidableEq, Repr

/-- The commands of the block: the rows of the operation table, in its order. -/
inductive Instr where
  /-- NOP (R140). -/
  | nop (e : Engine) (w : VFields)
  /-- END (R137). -/
  | endRun (e : Engine) (w : VFields)
  /-- BR (R141). -/
  | br (e : Engine) (w : VFields)
  /-- BRC (R141). -/
  | brc (e : Engine) (w : VFields)
  /-- LOOP (R162). -/
  | loop (e : Engine) (w : VFields)
  /-- SYNC (R165). -/
  | sync (e : Engine) (w : VFields)
  /-- WAIT (R164). -/
  | wait (e : Engine) (w : VFields)
  /-- TILE_GO (R163). -/
  | tileGo (e : Engine) (w : VFields)
  /-- DMA_GO (R163). -/
  | dmaGo (e : Engine) (w : VFields)
  /-- CLS_TAKE (R183). -/
  | clsTake (e : Engine) (w : VFields)
  /-- CLS_PUT (R177). -/
  | clsPut (e : Engine) (w : VFields)
  /-- VLD (R145). -/
  | vld (e : Engine) (w : VFields)
  /-- VST (R145). -/
  | vst (e : Engine) (w : VFields)
  /-- VLDS (R145). -/
  | vlds (e : Engine) (w : VFields)
  /-- VSTS (R145). -/
  | vsts (e : Engine) (w : VFields)
  /-- SLD (R145). -/
  | sld (e : Engine) (w : VFields)
  /-- SST (R145). -/
  | sst (e : Engine) (w : VFields)
  /-- PLD (R145). -/
  | pld (e : Engine) (w : VFields)
  /-- PST (R145). -/
  | pst (e : Engine) (w : VFields)
  /-- FADD (R142). -/
  | fadd (e : Engine) (w : VFields)
  /-- FSUB (R142). -/
  | fsub (e : Engine) (w : VFields)
  /-- FMUL (R142). -/
  | fmul (e : Engine) (w : VFields)
  /-- FMA (R142). -/
  | fma (e : Engine) (w : VFields)
  /-- FMIN (R143). -/
  | fmin (e : Engine) (w : VFields)
  /-- FMAX (R143). -/
  | fmax (e : Engine) (w : VFields)
  /-- FDIV (R142). -/
  | fdiv (e : Engine) (w : VFields)
  /-- FSQRT (R142). -/
  | fsqrt (e : Engine) (w : VFields)
  /-- FRSQ (R142). -/
  | frsq (e : Engine) (w : VFields)
  /-- FEXP2 (R142). -/
  | fexp2 (e : Engine) (w : VFields)
  /-- FLOG2 (R142). -/
  | flog2 (e : Engine) (w : VFields)
  /-- FCOSPI (R142). -/
  | fcospi (e : Engine) (w : VFields)
  /-- FABS (R142). -/
  | fabs (e : Engine) (w : VFields)
  /-- FNEG (R142). -/
  | fneg (e : Engine) (w : VFields)
  /-- FCMP (R143). -/
  | fcmp (e : Engine) (w : VFields)
  /-- FSEL (R139). -/
  | fsel (e : Engine) (w : VFields)
  /-- IADD (R144). -/
  | iadd (e : Engine) (w : VFields)
  /-- ISUB (R144). -/
  | isub (e : Engine) (w : VFields)
  /-- IMUL (R144). -/
  | imul (e : Engine) (w : VFields)
  /-- IAND (R144). -/
  | iand (e : Engine) (w : VFields)
  /-- IOR (R144). -/
  | ior (e : Engine) (w : VFields)
  /-- IXOR (R144). -/
  | ixor (e : Engine) (w : VFields)
  /-- ISHL (R144). -/
  | ishl (e : Engine) (w : VFields)
  /-- ISHR (R144). -/
  | ishr (e : Engine) (w : VFields)
  /-- ISRA (R144). -/
  | isra (e : Engine) (w : VFields)
  /-- IMIN (R144). -/
  | imin (e : Engine) (w : VFields)
  /-- IMAX (R144). -/
  | imax (e : Engine) (w : VFields)
  /-- ICMP (R141). -/
  | icmp (e : Engine) (w : VFields)
  /-- IPACK (R152). -/
  | ipack (e : Engine) (w : VFields)
  /-- IUNPK (R152). -/
  | iunpk (e : Engine) (w : VFields)
  /-- VPERM (R141). -/
  | vperm (e : Engine) (w : VFields)
  /-- SADD (R144). -/
  | sadd (e : Engine) (w : VFields)
  /-- SSUB (R144). -/
  | ssub (e : Engine) (w : VFields)
  /-- SMUL (R144). -/
  | smul (e : Engine) (w : VFields)
  /-- SAND (R144). -/
  | sand (e : Engine) (w : VFields)
  /-- SOR (R144). -/
  | sor (e : Engine) (w : VFields)
  /-- SXOR (R144). -/
  | sxor (e : Engine) (w : VFields)
  /-- SSHL (R144). -/
  | sshl (e : Engine) (w : VFields)
  /-- SSHR (R144). -/
  | sshr (e : Engine) (w : VFields)
  /-- SSRA (R144). -/
  | ssra (e : Engine) (w : VFields)
  /-- SLI (R141). -/
  | sli (e : Engine) (w : VFields)
  /-- SLUI (R141). -/
  | slui (e : Engine) (w : VFields)
  /-- VBCS (R141). -/
  | vbcs (e : Engine) (w : VFields)
  /-- VEXT (R141). -/
  | vext (e : Engine) (w : VFields)
  /-- CVT (R150). -/
  | cvt (e : Engine) (w : VFields)
  /-- AMAXB (R155). -/
  | amaxb (e : Engine) (w : VFields)
  /-- AMAXT (R156). -/
  | amaxt (e : Engine) (w : VFields)
  /-- SUM (R157). -/
  | sum (e : Engine) (w : VFields)
  /-- SGN (R159). -/
  | sgn (e : Engine) (w : VFields)
  /-- TSGN (R160). -/
  | tsgn (e : Engine) (w : VFields)
  /-- SRND (R161). -/
  | srnd (e : Engine) (w : VFields)
  /-- XRED (R158). -/
  | xred (e : Engine) (w : VFields)
  /-- FLAGS (R166). -/
  | flags (e : Engine) (w : VFields)
  /-- PAND (R141). -/
  | pand (e : Engine) (w : VFields)
  /-- POR (R141). -/
  | por (e : Engine) (w : VFields)
  /-- PXOR (R141). -/
  | pxor (e : Engine) (w : VFields)
  /-- PANDN (R141). -/
  | pandn (e : Engine) (w : VFields)
  /-- PSET (R141). -/
  | pset (e : Engine) (w : VFields)
  /-- PEXP (R141). -/
  | pexp (e : Engine) (w : VFields)
  /-- PCNT (R141). -/
  | pcnt (e : Engine) (w : VFields)
  /-- GMAX (R168). -/
  | gmax (e : Engine) (w : VFields)
  /-- DIGEST_INIT (R169). -/
  | digestInit (e : Engine) (w : VFields)
  /-- DIGEST_ADD (R169). -/
  | digestAdd (e : Engine) (w : VFields)
  /-- DIGEST_FINAL (R169). -/
  | digestFinal (e : Engine) (w : VFields)
  /-- COMMIT (R170). -/
  | commit (e : Engine) (w : VFields)
  /-- STAGE_BARRIER_RELEASE (R165). -/
  | stageBarrierRelease (v : Fin 16)
  /-- TILE_ACCEPT (R85). -/
  | tileAccept (e : Engine)
  /-- SUBTILE_DRAIN (R256). -/
  | subtileDrain (e : Engine) (k : Nat) (homeErr partnerErr : List W32)
  /-- TILE_COMPLETE (R81). -/
  | tileComplete (e : Engine) (k : Nat)
  /-- CAPTURE_COMPLETE (R258). -/
  | captureComplete (e : Engine) (k : Nat)
  /-- DMA_TRANSFER_COMPLETE (R163). -/
  | dmaTransferComplete (e : Engine)
  /-- LAYER_GROUP_ENTRY (R121). -/
  | layerGroupEntry (v : Fin 16)
  /-- LAYER_GROUP_END (R121). -/
  | layerGroupEnd (v : Fin 16)
  /-- REPLAY_START (R123). -/
  | replayStart (v : Fin 16) (lostCycles : W32)
  /-- CLAUSE_DELIVERY (R179). -/
  | clauseDelivery (v : Fin 16) (backward : Bool)
  /-- VIEW_FILL (R203). -/
  | viewFill (v : Fin 16) (backward : Bool) (glitch : Option (Fin 32))
  /-- PAST_ENCODE (R205). -/
  | pastEncode (v : Fin 16)
  /-- REBASE (R205). -/
  | rebase (v : Fin 16) (slot : Fin 8)
  /-- SPILL (R209). -/
  | spill (v : Fin 16) (slot : Fin 8)
  /-- SHARD_SEND (R214). -/
  | shardSend (v : Fin 16)
  /-- REDUCED_SHARD_COMPLETE (R233). -/
  | reducedShardComplete (v : Fin 16)
  /-- UPDATE_START (R234). -/
  | updateStart (v : Fin 16)
  /-- COMMIT_FINAL_PHASE (R242). -/
  | commitFinalPhase (v : Fin 16)
  /-- DATA_FRAME (R338). -/
  | dataFrame (p : Fin 8) (f : Frame)
  /-- CLAUSE_FRAME (R338). -/
  | clauseFrame (p : Fin 8) (f : Frame)
  /-- ACK_FRAME (R341). -/
  | ackFrame (p : Fin 8) (f : Frame)
  /-- NAK_FRAME (R341). -/
  | nakFrame (p : Fin 8) (f : Frame)
  /-- HELLO_FRAME (R349). -/
  | helloFrame (p : Fin 8) (f : Frame)
  /-- TENSE_REQ_FRAME (R214). -/
  | tenseReqFrame (p : Fin 8) (f : Frame)
  /-- TENSE_DATA_FRAME (R214). -/
  | tenseDataFrame (p : Fin 8) (f : Frame)
  /-- VOTE_FRAME (R233). -/
  | voteFrame (p : Fin 8) (f : Frame)
  /-- DIGEST_FRAME (R260). -/
  | digestFrame (p : Fin 8) (f : Frame)
  /-- CREDIT_FRAME (R344). -/
  | creditFrame (p : Fin 8) (f : Frame)
  /-- RESEND_TIMEOUT (R341). -/
  | resendTimeout (p : Fin 8)
  /-- RETRY_WINDOW_EXPIRY (R342). -/
  | retryWindowExpiry (p : Fin 8)
  /-- RETRAINING_ATTEMPT_END (R342). -/
  | retrainingAttemptEnd (p : Fin 8) (ok signal : Bool)
  /-- PORT_TRAINING_ATTEMPT (R333). -/
  | portTrainingAttempt (p : Fin 8) (signal ok : Bool)
  /-- HELLO_TIMER (R348). -/
  | helloTimer (p : Fin 8)
  /-- ACK_TIMER (R341). -/
  | ackTimer (p : Fin 8)
  /-- CREDIT_REPEAT_TIMER (R344). -/
  | creditRepeatTimer (p : Fin 8)
  /-- DELIVERY_TIMEOUT (R346). -/
  | deliveryTimeout (p : Fin 8) (k : Nat)
  /-- ANSWER_TIMEOUT (R346). -/
  | answerTimeout (v : Fin 16) (backward : Bool)
  /-- PHRASE_MESSAGE (R307). -/
  | phraseMessage (src dst : Fin 8) (role : Fin 5) (addr : BitVec 48) (data : PhraseFlits)
  /-- PHRASE_FLOW_CONTROL (R305). -/
  | phraseFlowControl (die peer : Fin 8) (idx : Fin 64) (word : W32)
  /-- PHRASE_RETRAIN (R306). -/
  | phraseRetrain (die peer : Fin 8) (idx : Fin 64)
  /-- PHRASE_RETRAIN_END (R306). -/
  | phraseRetrainEnd (die peer : Fin 8) (idx : Fin 64) (ok : Bool) (resends : W32)
  /-- DIE_LOST (R320). -/
  | dieLost (d : Fin 8) (mask : Byte)
  /-- DIE_REJOIN (R321). -/
  | dieRejoin (a : DieAnswer) (tests : List TestResult)
  /-- APPOSITION_READ_REQ (R329). -/
  | appositionReadReq (p : Fin 2) (m : AppMsg)
  /-- APPOSITION_WRITE (R329). -/
  | appositionWrite (p : Fin 2) (m : AppMsg)
  /-- APPOSITION_READ_DATA (R325). -/
  | appositionReadData (p : Fin 2) (m : AppMsg)
  /-- APPOSITION_WRITE_ACK (R325). -/
  | appositionWriteAck (p : Fin 2) (m : AppMsg)
  /-- APPOSITION_MAILBOX (R331). -/
  | appositionMailbox (p : Fin 2) (m : AppMsg)
  /-- APPOSITION_EVENT (R331). -/
  | appositionEvent (p : Fin 2) (m : AppMsg)
  /-- APPOSITION_NAK (R326). -/
  | appositionNak (p : Fin 2) (m : AppMsg)
  /-- APPOSITION_ACK (R326). -/
  | appositionAck (p : Fin 2) (m : AppMsg)
  /-- APPOSITION_ACK_TIMER (R326). -/
  | appositionAckTimer (p : Fin 2)
  /-- APPOSITION_RETRAIN (R326). -/
  | appositionRetrain (p : Fin 2) (ok : Bool)
  /-- GUEST_DOWN (R324). -/
  | guestDown (p : Fin 2)
  /-- GUEST_UP (R324). -/
  | guestUp (p : Fin 2) (identity : W64) (rate : BitVec 2)
  /-- NVME_READ_COMPLETION (R276): a Read that succeeds gives the descriptor of the clip it is for. -/
  | nvmeReadCompletion (ns : Fin 32) (place : Nat) (ok : Option (BitVec 256)) (fatal : Bool)
  /-- NVME_READ_TIMEOUT (R276). -/
  | nvmeReadTimeout (ns : Fin 32) (place : Nat)
  /-- CLIP_DECODE (R293). -/
  | clipDecode (place : Nat) (desc : BitVec 256) (r : ClipRead)
  /-- INGEST_PLACE (R294). -/
  | ingestPlace
  /-- INGEST_REJOIN (R300). -/
  | ingestRejoin
  /-- DEV_INFO (R376). -/
  | devInfo (c : Cmd)
  /-- BRINGUP_ADVANCE (R408). -/
  | bringupAdvance (c : Cmd)
  /-- LANE_PLAN_SET (R314). -/
  | lanePlanSet (c : Cmd)
  /-- JOB_CREATE (R377). -/
  | jobCreate (c : Cmd)
  /-- STAGE_LOAD (R378). -/
  | stageLoad (c : Cmd) (img : StageImage)
  /-- PORT_ROLE_SET (R335). -/
  | portRoleSet (c : Cmd)
  /-- JOB_START (R379). -/
  | jobStart (c : Cmd)
  /-- JOB_PAUSE (R380). -/
  | jobPause (c : Cmd)
  /-- PAUSE_COMPLETE (R373). -/
  | pauseComplete
  /-- JOB_RESUME (R374). -/
  | jobResume (c : Cmd)
  /-- HALT (R381). -/
  | halt (c : Cmd)
  /-- TENSE_CONFIG (R221). -/
  | tenseConfig (c : Cmd)
  /-- TENSE_EXPORT (R353). -/
  | tenseExport (c : Cmd)
  /-- CHECKPOINT (R382). -/
  | checkpoint (c : Cmd)
  /-- RESTORE (R383). -/
  | restore (c : Cmd)
  /-- SCHED_TABLE_LOAD (R240). -/
  | schedTableLoad (c : Cmd)
  /-- FREEZE_MASK_LOAD (R240). -/
  | freezeMaskLoad (c : Cmd)
  /-- RULE_LOAD (R225). -/
  | ruleLoad (c : Cmd)
  /-- INGEST_OPEN (R301). -/
  | ingestOpen (c : Cmd)
  /-- INGEST_EPOCH (R301). -/
  | ingestEpoch (c : Cmd)
  /-- INGEST_POSITION (R296). -/
  | ingestPosition (c : Cmd)
  /-- CHECK_FRACTION_SET (R272). -/
  | checkFractionSet (c : Cmd)
  /-- AGREE_INTERVAL_SET (R272). -/
  | agreeIntervalSet (c : Cmd)
  /-- FIELD_TEST (R262). -/
  | fieldTest (c : Cmd)
  /-- BIST_RUN (R272). -/
  | bistRun (c : Cmd)
  /-- FAULT_HISTORY_READ (R272). -/
  | faultHistoryRead (c : Cmd)
  /-- STAGE_FLAGS (R384). -/
  | stageFlags (c : Cmd)
  /-- NUMLOG_READ (R385). -/
  | numlogRead (c : Cmd)
  /-- CAPTURE_REPEAT (R265). -/
  | captureRepeat (k : Fin 16) (r : RepeatResult)
  /-- FAULT_RECORD_WRITE (R270). -/
  | faultRecordWrite
  /-- FENCE_GO (R375). -/
  | fenceGo
  /-- FENCE_COMPLETE (R375). -/
  | fenceComplete
  /-- THERMAL_SEEN_CLEAR (R357). -/
  | thermalSeenClear
  /-- BAR2_WINDOW_WRITE (R358). -/
  | bar2WindowWrite (x : W64)
  /-- MAILBOX_ENABLE (R363). -/
  | mailboxEnable (m : Fin 32) (ctrl : W32)
  /-- MAILBOX_DISABLE (R363). -/
  | mailboxDisable (m : Fin 32) (ctrl : W32)
  /-- CMD_TAIL (R364). -/
  | cmdTail (m : Fin 32) (x : W32) (wrote : List (W64 × List Byte))
  /-- CMP_HEAD (R363). -/
  | cmpHead (m : Fin 32) (x : W32)
  /-- FW_CTRL_WRITE (R328). -/
  | fwCtrlWrite (p : Fin 2) (x : W32)
  /-- REGISTER_WRITE (R16). -/
  | registerWrite (off : W16) (x : W32)
  /-- RC_REGISTER_READ (R16). -/
  | rcRegisterRead (off : W16)
  /-- BAR2_READ (R361). -/
  | bar2Read (off : BitVec 36) (len : Nat)
  /-- BAR2_WRITE (R361). -/
  | bar2Write (off : BitVec 36) (data : List Byte) (poisoned : Bool)
  /-- HOST_DMA_CHUNK (R448). -/
  | hostDmaChunk (engine : Fin 8) (waited : Bool)
  /-- MSI_X_COALESCE_TIMEOUT (R365). -/
  | msiXCoalesceTimeout (m : Fin 32)
  /-- FUNCTION_LEVEL_RESET (R360). -/
  | functionLevelReset
  /-- HOST_RESET (R416). -/
  | hostReset (perst : Bool)
  /-- PERST_RELEASE (R416). -/
  | perstRelease
  /-- MODULE_RESET (R415). -/
  | moduleReset
  /-- MODULE_RESET_RELEASE (R409). -/
  | moduleResetRelease
  /-- POWER_ON (R409). -/
  | powerOn
  /-- POWER_OFF (R431). -/
  | powerOff
  /-- REFCLK_LOSS (R419). -/
  | refclkLoss
  /-- REFCLK_RETURN (R419). -/
  | refclkReturn
  /-- ROM_ENTRY (R406). -/
  | romEntry (slotId : BitVec 3)
  /-- FIRMWARE_BOOT (R401). -/
  | firmwareBoot
  /-- DISCOVERY (R318). -/
  | discovery (answers : List DieAnswer) (badPhrases : List W16)
  /-- REDUCED_ENTRY (R409). -/
  | reducedEntry (tests : List TestResult)
  /-- FULL_ENTRY (R409). -/
  | fullEntry (tests : List TestResult)
  /-- PARSER_WATCHDOG_EXPIRY (R418). -/
  | parserWatchdogExpiry
  /-- THERMAL_SENSOR_SCAN (R436). -/
  | thermalSensorScan (dies : List W16) (hbms : List W16)
  /-- THERM_L_RELEASE (R437). -/
  | thermLRelease
  /-- THERMAL_CLEAR (R439). -/
  | thermalClear
  /-- REGULATOR_OVERTEMP (R441). -/
  | regulatorOvertemp
  /-- PARK (R433). -/
  | park
  /-- MCTP_CONTROL_MESSAGE (R389). -/
  | mctpControlMessage (code : Byte) (data : List Byte)
  /-- I3C_ADDRESS_ASSIGNMENT (R388). -/
  | i3cAddressAssignment (entdaa : Bool) (static addr : BitVec 7)
  /-- MANAGEMENT_MAILBOX_MESSAGE (R392). -/
  | managementMailboxMessage (c : Cmd)
  /-- GET_PDR (R390). -/
  | getPdr
  /-- PLATFORM_EVENT_RESPONSE (R391). -/
  | platformEventResponse (ok : Bool)
  /-- PLATFORM_EVENT_RESEND_TIMEOUT (R391). -/
  | platformEventResendTimeout
  /-- REQUEST_UPDATE (R402). -/
  | requestUpdate
  /-- FIRMWARE_DATA_TRANSFER (R402). -/
  | firmwareDataTransfer (component : W16) (off : Nat) (data : List Byte)
  /-- VERIFY_COMPLETE (R402). -/
  | verifyComplete
  /-- ACTIVATE_FIRMWARE (R403). -/
  | activateFirmware (component : W16)
  /-- GET_VERSION (R396). -/
  | getVersion (doe : Bool)
  /-- GET_CAPABILITIES (R396). -/
  | getCapabilities (doe : Bool) (caps : W32)
  /-- NEGOTIATE_ALGORITHMS (R396). -/
  | negotiateAlgorithms (doe : Bool) (sig hash : W32)
  /-- GET_DIGESTS (R396). -/
  | getDigests (doe : Bool)
  /-- GET_CERTIFICATE (R396). -/
  | getCertificate (doe : Bool) (slot : Fin 8) (off len : W16)
  /-- CHALLENGE (R396). -/
  | challenge (doe : Bool) (slot : Fin 8) (nonce : List Byte)
  /-- GET_MEASUREMENTS (R397). -/
  | getMeasurements (doe : Bool) (index : Byte) (slot : Fin 8) (nonce : List Byte)
  /-- EVENT_STREAM_DATAGRAM (R393). -/
  | eventStreamDatagram
  /-- HUB_RESET (R415). -/
  | hubReset
  /-- FIELD_TEST_DONE (R262). -/
  | fieldTestDone (tests : List TestResult)
  /-- REDUCED_SERVICE_RESTORED (R411). -/
  | reducedServiceRestored
  /-- PLDM_BASE_REQUEST (R389). -/
  | pldmBaseRequest (code : Byte) (data : List Byte)
  /-- MCTP_MESSAGE_DROP (R389). -/
  | mctpMessageDrop (type : Byte)
  /-- SPDM_UNSUPPORTED_REQUEST (R396). -/
  | spdmUnsupportedRequest (doe : Bool) (code : Byte)
  /-- DOE_DISCOVERY (R356). -/
  | doeDiscovery (index : Byte)
  /-- ARP_REQUEST (R393). -/
  | arpRequest (target sender : W32) (mac : List Byte)
  /-- POWER_STATE_CHANGE (R356). -/
  | powerStateChange (d3 : Bool)
  /-- MSI_X_UNMASK (R365). -/
  | msiXUnmask (v : Fin 64)
deriving DecidableEq, Repr

end Sys2Proof
end

