-- ==== Sys2Proof/Decode.lean ====
section
/-!
DEFINITION. Sys2Proof/Decode.lean: the words that the operation table gives its rows. It gives none any bits, so
no word spells a command (log 1).
-/
namespace Sys2Proof

/-- The command that a word of the operation table spells. -/
def decodeTableWord (_nbits _w : Nat) : Option Instr := none

end Sys2Proof
end

