-- ==== Sys2Proof/Machine/Store.lean ====
section
/-!
DEFINITION. Sys2Proof/Machine/Store.lean: sparse maps in one canonical form (keys strictly rising,
no entry equal to the default), and the byte memory built from them.
-/
namespace Sys2Proof.Machine

/-- The value at key `k`; `d` where the map lists none. -/
def sget {α : Type} (d : α) : Store α → Nat → α
  | [], _ => d
  | (k', v) :: t, k => if k = k' then v else sget d t k

/-- The map without key `k`. -/
def sdrop {α : Type} (k : Nat) (m : Store α) : Store α := m.filter fun x => x.1 != k

/-- Insert an entry before the first larger key. -/
def sput {α : Type} (k : Nat) (v : α) : Store α → Store α
  | [] => [(k, v)]
  | x :: t => if k < x.1 then (k, v) :: x :: t else x :: sput k v t

/-- Put `v` at key `k`; an entry equal to the default is not kept. -/
def sset {α : Type} [DecidableEq α] (d : α) (k : Nat) (v : α) (m : Store α) : Store α :=
  if v = d then sdrop k m else sput k v (sdrop k m)

/-- Change the value at one key. -/
def supd {α : Type} [DecidableEq α] (d : α) (k : Nat) (f : α → α) (m : Store α) : Store α :=
  sset d k (f (sget d m k)) m

/-- Every key of `m` is above `b`. -/
def skeysAbove {α : Type} (b : Nat) : Store α → Bool
  | [] => true
  | (k, _) :: t => decide (b < k) && skeysAbove b t

/-- The canonical form: keys strictly rising and no entry equal to the default. -/
def swf {α : Type} [DecidableEq α] (d : α) : Store α → Bool
  | [] => true
  | (k, v) :: t => decide (v ≠ d) && skeysAbove k t && swf d t

/-- Byte memory: an unlisted address reads as 0 (R415, step 9 of Table 16.2). -/
abbrev Memory := Store Byte

/-- One byte of memory. -/
def memRead (m : Memory) (a : Nat) : Byte := sget 0 m a

/-- Write one byte. -/
def memWrite (m : Memory) (a : Nat) (b : Byte) : Memory := sset 0 a b m

/-- The canonical form of a memory. -/
abbrev Memory.wf (m : Memory) : Bool := swf (0 : Byte) m

/-- `n` bytes from `a` upward, lowest address first. -/
def memBytes (m : Memory) (a : Nat) : Nat → List Byte
  | 0 => []
  | n + 1 => memRead m a :: memBytes m (a + 1) n

/-- Write a run of bytes from `a` upward. -/
def memWriteBytes (m : Memory) (a : Nat) : List Byte → Memory
  | [] => m
  | b :: bs => memWriteBytes (memWrite m a b) (a + 1) bs

/-- The little-endian number that a run of bytes spells (R15). -/
def leNat : List Byte → Nat
  | [] => 0
  | b :: bs => b.toNat + 256 * leNat bs

/-- The `n` little-endian bytes of a number (R15). -/
def leBytes : Nat → Nat → List Byte
  | 0, _ => []
  | n + 1, x => BitVec.ofNat 8 (x % 256) :: leBytes n (x / 256)

/-- The number that bytes spell with the most significant first. -/
def beNat (bs : List Byte) : Nat := bs.foldl (fun a b => a * 256 + b.toNat) 0

/-- Bytes of a number with the most significant first. -/
def beBytes (n x : Nat) : List Byte := (leBytes n x).reverse

/-- The little-endian number of `n` bytes at `a`. -/
def memNat (m : Memory) (a n : Nat) : Nat := leNat (memBytes m a n)

/-- Store the low `n` bytes of a number at `a`, little-endian. -/
def memPutNat (m : Memory) (a n x : Nat) : Memory := memWriteBytes m a (leBytes n x)

/-- Bits `[hi:lo]` of a number. -/
def bits (x hi lo : Nat) : Nat := (x >>> lo) % 2 ^ (hi + 1 - lo)

/-- Bit `i` of a number. -/
def bitAt (x i : Nat) : Bool := x.testBit i

/-- The signed value of the low `w` bits of a number. -/
def signed (w x : Nat) : Int :=
  let y := x % 2 ^ w
  if y < 2 ^ (w - 1) then (y : Int) else (y : Int) - (2 ^ w : Nat)

/-- The low `w` bits of an integer. -/
def lowBits (w : Nat) (x : Int) : Nat := (x % (2 ^ w : Nat)).toNat

/-- Ceiling division. -/
def cdiv (a b : Nat) : Nat := (a + b - 1) / b

/-- The next multiple of `n` at or above `a`. -/
def alignUp (a n : Nat) : Nat := cdiv a n * n

/-- Add to a counter that saturates at the largest value of its width (R446). -/
def satAdd {w : Nat} (c : BitVec w) (n : Nat) : BitVec w :=
  if c.toNat + n < 2 ^ w then BitVec.ofNat w (c.toNat + n) else BitVec.allOnes w

/-- Elements `f 0 … f (n - 1)` of width `w`, packed from the lowest bits up (R49). -/
def packElems (w : Nat) (f : Nat → Nat) : Nat → Nat
  | 0 => 0
  | n + 1 => packElems w f n + ((f n) % 2 ^ w) <<< (w * n)

/-- Element `i` of width `w` of a packed number. -/
def elemAt (w x i : Nat) : Nat := (x >>> (w * i)) % 2 ^ w

/-- Number the elements of a list from `i`. -/
def number {α : Type} : Nat → List α → List (Nat × α)
  | _, [] => []
  | i, x :: t => (i, x) :: number (i + 1) t

/-! ### CRC-32C (R251, R339) -/

/-- One step of the reflected CRC-32C register (the Castagnoli polynomial). -/
def crcBit (c : Nat) : Nat := if c % 2 = 1 then (c / 2) ^^^ 0x82F63B78 else c / 2

/-- CRC-32C register after the bytes. -/
def crcGo : Nat → List Byte → Nat
  | c, [] => c
  | c, b :: t =>
    let c := c ^^^ b.toNat
    crcGo (crcBit (crcBit (crcBit (crcBit (crcBit (crcBit (crcBit (crcBit c)))))))) t

/-- CRC-32C of a byte string. -/
def crc32c (bs : List Byte) : Nat := crcGo 0xFFFFFFFF bs ^^^ 0xFFFFFFFF

end Sys2Proof.Machine
end

