-- ==== Sys2Proof/Machine/Float.lean ====
section
/-!
DEFINITION. Sys2Proof/Machine/Float.lean: the floating-point formats of Table 2.2, exact values, the
one rounding every narrowing uses, and the arithmetic of R142 and R143.
-/
namespace Sys2Proof.Machine

/-- Which codes of a format are special (Table 2.2). -/
inductive Specials where
  | ieee    -- exponent all ones: infinity and NaN
  | e4m3    -- only the code of all ones is NaN
  | finite  -- no infinity and no NaN
deriving DecidableEq, Repr

/-- A binary floating-point element format (Table 2.2). -/
structure FloatFmt where
  /-- exponent bits -/
  eb : Nat
  /-- mantissa bits -/
  mb : Nat
  /-- exponent bias -/
  bias : Nat
  /-- special codes -/
  sp : Specials
deriving DecidableEq, Repr

/-- The rows of Table 2.2. -/
def fFP64 : FloatFmt := ⟨11, 52, 1023, .ieee⟩
/-- FP32. -/
def fFP32 : FloatFmt := ⟨8, 23, 127, .ieee⟩
/-- BF16. -/
def fBF16 : FloatFmt := ⟨8, 7, 127, .ieee⟩
/-- FP16. -/
def fFP16 : FloatFmt := ⟨5, 10, 15, .ieee⟩
/-- E5M2. -/
def fE5M2 : FloatFmt := ⟨5, 2, 15, .ieee⟩
/-- E4M3. -/
def fE4M3 : FloatFmt := ⟨4, 3, 7, .e4m3⟩
/-- E3M2. -/
def fE3M2 : FloatFmt := ⟨3, 2, 3, .finite⟩
/-- E2M3. -/
def fE2M3 : FloatFmt := ⟨2, 3, 1, .finite⟩
/-- E2M1. -/
def fE2M1 : FloatFmt := ⟨2, 1, 1, .finite⟩

/-- Width of one code in bits. -/
def FloatFmt.width (F : FloatFmt) : Nat := 1 + F.eb + F.mb

/-- A decoded value: `fin neg m e` is `± m × 2^e`, a signed zero when `m = 0`. -/
inductive FV where
  | nan
  | inf (neg : Bool)
  | fin (neg : Bool) (m : Nat) (e : Int)
deriving DecidableEq, Repr

/-- The exponent of the smallest subnormal's unit. -/
def FloatFmt.emin (F : FloatFmt) : Int := 1 - (F.bias : Int) - F.mb

/-- The value a code holds (R42, R43, Table 2.2). -/
def decodeF (F : FloatFmt) (c : Nat) : FV :=
  let neg := bitAt c (F.eb + F.mb)
  let ex := bits c (F.eb + F.mb - 1) F.mb
  let man := c % 2 ^ F.mb
  let isTop := ex == 2 ^ F.eb - 1
  match F.sp with
  | .ieee =>
    if isTop then (if man = 0 then .inf neg else .nan)
    else if ex = 0 then .fin neg man F.emin
    else .fin neg (man + 2 ^ F.mb) (F.emin + ((ex : Int) - 1))
  | .e4m3 =>
    if isTop && man == 2 ^ F.mb - 1 then .nan
    else if ex = 0 then .fin neg man F.emin
    else .fin neg (man + 2 ^ F.mb) (F.emin + ((ex : Int) - 1))
  | .finite =>
    if ex = 0 then .fin neg man F.emin
    else .fin neg (man + 2 ^ F.mb) (F.emin + ((ex : Int) - 1))

/-- The code of the largest finite magnitude. -/
def FloatFmt.maxCode (F : FloatFmt) : Nat :=
  match F.sp with
  | .ieee => 2 ^ (F.eb + F.mb) - 1 - 2 ^ F.mb
  | .e4m3 => 2 ^ (F.eb + F.mb) - 2
  | .finite => 2 ^ (F.eb + F.mb) - 1

/-- The sign bit of a code, placed. -/
def FloatFmt.signBit (F : FloatFmt) (neg : Bool) : Nat := if neg then 2 ^ (F.eb + F.mb) else 0

/-- The canonical quiet NaN with sign 0 (R42); 0x7F in E4M3. -/
def FloatFmt.qnan (F : FloatFmt) : Nat :=
  match F.sp with
  | .ieee => 2 ^ (F.eb + F.mb) - 2 ^ F.mb + 2 ^ (F.mb - 1)
  | .e4m3 => 2 ^ (F.eb + F.mb) - 1
  | .finite => 0

/-- The code of an infinity. -/
def FloatFmt.infCode (F : FloatFmt) (neg : Bool) : Nat :=
  F.signBit neg + (2 ^ (F.eb + F.mb) - 2 ^ F.mb)

/-- The code of a magnitude `m × 2^t` that the rounding below produced: `m < 2^(mb+1)` or a power of two above. -/
def FloatFmt.encMag (F : FloatFmt) (m : Nat) (t : Int) : Nat :=
  if m < 2 ^ F.mb then m
  else
    let (m1, t1) := if m ≥ 2 ^ (F.mb + 1) then (m / 2, t + 1) else (m, t)
    let ex := (t1 - F.emin + 1).toNat
    ex * 2 ^ F.mb + (m1 - 2 ^ F.mb)

/-- How a quotient is rounded: to nearest even, stochastically with a 16-bit offset (R53, R100), toward
zero, or away from zero in magnitude (the scales of Table 2.7). -/
inductive Rnd where
  | rne
  | sr (k : Nat)
  | down
  | up
deriving DecidableEq, Repr

/-- `n × 2^s` for a shift of either sign, as a fraction `(num, den)`. -/
def scaleFrac (num den : Nat) (s : Int) : Nat × Nat :=
  if s ≥ 0 then (num <<< s.toNat, den) else (num, den <<< (-s).toNat)

/-- `floor (log2 (num / den))` of a positive fraction. -/
def flog2 (num den : Nat) : Int :=
  let l : Int := (Nat.log2 num : Int) - (Nat.log2 den : Int)
  let (n, d) := scaleFrac num den (-l)
  if n ≥ d then l else l - 1

/-- Round the positive fraction `N / D` to an integer. The second result says whether it was inexact. -/
def roundFrac (rm : Rnd) (N D : Nat) : Nat × Bool :=
  let q := N / D
  let r := N % D
  let q' := match rm with
    | .rne => if 2 * r > D then q + 1 else if 2 * r = D then q + q % 2 else q
    | .sr k => (65536 * N + k * D) / (65536 * D)
    | .down => q
    | .up => if r = 0 then q else q + 1
  (q', r != 0)

/-- Round `num / den × 2^e` (positive) to `mb + 1` significant bits with the subnormal unit `2^emin` as the
finest spacing and an unbounded exponent above: the result is `m × 2^t`. -/
def roundMag (mb : Nat) (emin : Int) (rm : Rnd) (num den : Nat) (e : Int) : Nat × Int × Bool :=
  let t := max (flog2 num den + e - mb) emin
  let (N, D) := scaleFrac num den (e - t)
  let (m, inex) := roundFrac rm N D
  (m, t, inex)

/-- Sticky flags as four bits: bit 0 OV, bit 1 UF, bit 2 NX, bit 3 NV (Table 2.12). -/
abbrev Fl := Nat
/-- overflow -/
def flOV : Fl := 1
/-- underflow -/
def flUF : Fl := 2
/-- inexact -/
def flNX : Fl := 4
/-- invalid -/
def flNV : Fl := 8

/-- Is `m × 2^t` beyond the largest finite value of `F`? -/
def FloatFmt.beyond (F : FloatFmt) (m : Nat) (t : Int) : Bool :=
  match decodeF F F.maxCode with
  | .fin _ mm me =>
    let (a, b) := scaleFrac m 1 (t - me)
    decide (a > mm * b)
  | _ => false

/-- Round an exact nonzero value to a code of `F` and its flags: overflow gives an infinity, or the largest
finite value where `sat` or the format has no infinity (Table 2.8); a nonzero value that rounds to zero keeps
its sign and sets UF (Table 2.11). -/
def roundTo (F : FloatFmt) (rm : Rnd) (sat : Bool) (neg : Bool) (num den : Nat) (e : Int) : Nat × Fl :=
  if num = 0 then (F.signBit neg, 0)
  else
    let (m, t, inex) := roundMag F.mb F.emin rm num den e
    if F.beyond m t then
      if sat || F.sp != .ieee then (F.signBit neg + F.maxCode, flOV + flNX)
      else (F.infCode neg, flOV + flNX)
    else if m = 0 then (F.signBit neg, flUF + flNX)
    else (F.signBit neg + F.encMag m t, if inex then flNX else 0)

/-- The exact sum of two signed magnitudes, on a common exponent: sign, magnitude, exponent. -/
def addExact (n1 : Bool) (m1 : Nat) (e1 : Int) (n2 : Bool) (m2 : Nat) (e2 : Int) : Bool × Nat × Int :=
  let e := min e1 e2
  let a := m1 <<< (e1 - e).toNat
  let b := m2 <<< (e2 - e).toNat
  if n1 = n2 then (n1, a + b, e)
  else if a ≥ b then (n1, a - b, e) else (n2, b - a, e)

/-- Sign of an exact zero sum: negative only when both operands are negative (R97, Table 4.2; IEEE 754). -/
def zeroSign (n1 n2 : Bool) : Bool := n1 && n2

/-- FADD of two codes (R142). -/
def fpAdd (F : FloatFmt) (a b : Nat) : Nat × Fl :=
  match decodeF F a, decodeF F b with
  | .nan, _ => (F.qnan, 0)
  | _, .nan => (F.qnan, 0)
  | .inf x, .inf y => if x = y then (F.infCode x, 0) else (F.qnan, flNV)
  | .inf x, _ => (F.infCode x, 0)
  | _, .inf y => (F.infCode y, 0)
  | .fin n1 m1 e1, .fin n2 m2 e2 =>
    let (n, m, e) := addExact n1 m1 e1 n2 m2 e2
    if m = 0 then (F.signBit (if m1 = 0 && m2 = 0 then zeroSign n1 n2 else false), 0)
    else roundTo F .rne false n m 1 e

/-- The code with its sign inverted: FNEG (R42). -/
def fpNeg (F : FloatFmt) (a : Nat) : Nat := a ^^^ 2 ^ (F.eb + F.mb)
/-- The code with its sign cleared: FABS (R42). -/
def fpAbs (F : FloatFmt) (a : Nat) : Nat := a % 2 ^ (F.eb + F.mb)

/-- FSUB of two codes (R142). -/
def fpSub (F : FloatFmt) (a b : Nat) : Nat × Fl := fpAdd F a (fpNeg F b)

/-- FMUL of two codes (R142). -/
def fpMul (F : FloatFmt) (a b : Nat) : Nat × Fl :=
  match decodeF F a, decodeF F b with
  | .nan, _ => (F.qnan, 0)
  | _, .nan => (F.qnan, 0)
  | .inf x, .inf y => (F.infCode (x != y), 0)
  | .inf x, .fin n m _ => if m = 0 then (F.qnan, flNV) else (F.infCode (x != n), 0)
  | .fin n m _, .inf x => if m = 0 then (F.qnan, flNV) else (F.infCode (x != n), 0)
  | .fin n1 m1 e1, .fin n2 m2 e2 => roundTo F .rne false (n1 != n2) (m1 * m2) 1 (e1 + e2)

/-- FMA of three codes: VA × VB + VC with one rounding (R142). -/
def fpFma (F : FloatFmt) (a b c : Nat) : Nat × Fl :=
  match decodeF F a, decodeF F b, decodeF F c with
  | .nan, _, _ => (F.qnan, 0)
  | _, .nan, _ => (F.qnan, 0)
  | _, _, .nan => (F.qnan, 0)
  | .inf x, .inf y, z =>
    let n := x != y
    (match z with
     | .inf w => if w = n then (F.infCode n, 0) else (F.qnan, flNV)
     | _ => (F.infCode n, 0))
  | .inf x, .fin n2 m2 _, z =>
    if m2 = 0 then (F.qnan, flNV)
    else
      let n := x != n2
      (match z with
       | .inf w => if w = n then (F.infCode n, 0) else (F.qnan, flNV)
       | _ => (F.infCode n, 0))
  | .fin n1 m1 _, .inf y, z =>
    if m1 = 0 then (F.qnan, flNV)
    else
      let n := n1 != y
      (match z with
       | .inf w => if w = n then (F.infCode n, 0) else (F.qnan, flNV)
       | _ => (F.infCode n, 0))
  | .fin _ _ _, .fin _ _ _, .inf w => (F.infCode w, 0)
  | .fin n1 m1 e1, .fin n2 m2 e2, .fin n3 m3 e3 =>
    let np := n1 != n2
    let (n, m, e) := addExact np (m1 * m2) (e1 + e2) n3 m3 e3
    if m = 0 then (F.signBit (if m1 * m2 = 0 && m3 = 0 then zeroSign np n3 else false), 0)
    else roundTo F .rne false n m 1 e

/-- FDIV of two codes (R142): a nonzero value over zero is a signed infinity and sets no flag. -/
def fpDiv (F : FloatFmt) (a b : Nat) : Nat × Fl :=
  match decodeF F a, decodeF F b with
  | .nan, _ => (F.qnan, 0)
  | _, .nan => (F.qnan, 0)
  | .inf _, .inf _ => (F.qnan, flNV)
  | .inf x, .fin n _ _ => (F.infCode (x != n), 0)
  | .fin n _ _, .inf x => (F.signBit (n != x), 0)
  | .fin n1 m1 e1, .fin n2 m2 e2 =>
    if m2 = 0 then (if m1 = 0 then (F.qnan, flNV) else (F.infCode (n1 != n2), 0))
    else roundTo F .rne false (n1 != n2) m1 m2 (e1 - e2)

/-- Integer square root, bit by bit from bit `b` downward. -/
def isqrtGo (n : Nat) : Nat → Nat → Nat
  | 0, r => if (r + 1) * (r + 1) ≤ n then r + 1 else r
  | b + 1, r =>
    let c := r + 2 ^ (b + 1)
    isqrtGo n b (if c * c ≤ n then c else r)

/-- `floor (sqrt n)`. -/
def isqrt (n : Nat) : Nat := isqrtGo n (Nat.log2 n / 2 + 1) 0

/-- A root kept to a half unit: exact roots stay exact, every other lies strictly between two integers. -/
def stickyHalf (q : Nat) (exact : Bool) : Nat := if exact then 2 * q else 2 * q + 1

/-- FSQRT (R142). -/
def fpSqrt (F : FloatFmt) (a : Nat) : Nat × Fl :=
  match decodeF F a with
  | .nan => (F.qnan, 0)
  | .inf neg => if neg then (F.qnan, flNV) else (F.infCode false, 0)
  | .fin neg m e =>
    if m = 0 then (F.signBit neg, 0)
    else if neg then (F.qnan, flNV)
    else
      -- an even exponent and at least 2 (mb + 4) bits under the root
      let sh := 2 * (F.mb + 4) + (if e % 2 = 0 then 0 else 1)
      let n := m <<< sh
      let q := isqrt n
      roundTo F .rne false false (stickyHalf q (q * q == n)) 1 ((e - sh) / 2 - 1)

/-- FRSQ (R142): one over the square root. -/
def fpRsqrt (F : FloatFmt) (a : Nat) : Nat × Fl :=
  match decodeF F a with
  | .nan => (F.qnan, 0)
  | .inf neg => if neg then (F.qnan, flNV) else (0, 0)
  | .fin neg m e =>
    if m = 0 then (F.infCode neg, 0)
    else if neg then (F.qnan, flNV)
    else
      -- 1 / sqrt (m 2^e) = sqrt (2^K / m) × 2^(-(e + K)/2), with e + K even
      let K0 := Nat.log2 m + 2 * (F.mb + 6)
      let K := if (e + K0) % 2 = 0 then K0 else K0 + 1
      let n := 2 ^ K / m
      let q := isqrt n
      roundTo F .rne false false (stickyHalf q (q * q * m == 2 ^ K)) 1 (-((e + K) / 2) - 1)

/-! ### Correctly rounded FEXP2, FLOG2 and FCOSPI (R142)

Each is evaluated in fixed point with `transBits` fraction bits and then rounded once. The arguments whose
result is rational are taken out first, so the remaining results are irrational: they never equal a rounding
boundary, and the half unit added below keeps them inexact. PRESUMED (log 6): `transBits` decides the
rounding of every operand. -/

/-- Fraction bits of the fixed-point evaluations. -/
def transBits : Nat := 320

/-- `2 × atanh (p / q)` at scale `2^P`, by its power series. -/
def atanhSeries (P p q : Nat) : Nat → Nat → Nat → Nat
  | 0, _, _ => 0
  | n + 1, k, pw => 2 * pw / (2 * k + 1) + atanhSeries P p q n (k + 1) (pw * (p * p) / (q * q))

/-- `ln (x)` for `x = a / b` in `[1, 2)`, at scale `2^P`. -/
def lnFix (P a b : Nat) : Nat :=
  atanhSeries P (a - b) (a + b) (P / 3 + 8) 0 ((a - b) * 2 ^ P / (a + b))

/-- `ln 2` at scale `2^P`: `ln 2 = ln (4/3) + ln (3/2)`. -/
def ln2Fix (P : Nat) : Nat := lnFix P 4 3 + lnFix P 3 2

/-- `exp (y)` at scale `2^P`, by its power series. -/
def expSeries (P y : Nat) : Nat → Nat → Nat → Nat
  | 0, _, _ => 0
  | n + 1, k, term => term + expSeries P y n (k + 1) (term * y / 2 ^ P / (k + 1))

/-- `atan (1 / q)` at scale `2^P`, alternating. -/
def atanSeries (P q : Nat) : Nat → Nat → Int → Int
  | 0, _, _ => 0
  | n + 1, k, pw => pw / (2 * k + 1 : Nat) + atanSeries P q n (k + 1) (-(pw / (q * q : Nat)))

/-- `π` at scale `2^P`: `16 atan (1/5) - 4 atan (1/239)`. -/
def piFix (P : Nat) : Nat :=
  (16 * atanSeries P 5 (P / 4 + 8) 0 ((2 ^ P / 5 : Nat) : Int)
    - 4 * atanSeries P 239 (P / 14 + 8) 0 ((2 ^ P / 239 : Nat) : Int)).toNat

/-- The alternating series shared by sine and cosine: terms step by `y^2 / ((k+1)(k+2))`. -/
def trigSeries (P : Nat) (y2 : Nat) : Nat → Nat → Int → Int
  | 0, _, _ => 0
  | n + 1, k, term =>
    term + trigSeries P y2 n (k + 2) (-(term * (y2 : Int) / (2 ^ P : Nat) / ((k + 1) * (k + 2) : Nat)))

/-- FEXP2 (R142). -/
def fpExp2 (F : FloatFmt) (a : Nat) : Nat × Fl :=
  match decodeF F a with
  | .nan => (F.qnan, 0)
  | .inf neg => if neg then (0, 0) else (F.infCode false, 0)
  | .fin neg m e =>
    let P := transBits
    -- the integer and the fraction of ± m 2^e, the fraction at scale 2^P
    let big : Bool := decide (flog2 (max m 1) 1 + e > 12)
    if m = 0 then roundTo F .rne false false 1 1 0
    else if big then
      (if neg then roundTo F .rne false false 3 2 (-5000) else roundTo F .rne false false 3 2 5000)
    else
      let isInt := decide (e ≥ 0) || m % 2 ^ (-e).toNat == 0
      let mag : Nat := if e ≥ 0 then m <<< e.toNat else m >>> (-e).toNat
      if isInt then roundTo F .rne false false 1 1 (if neg then -(mag : Int) else mag)
      else
        let fr := (m % 2 ^ (-e).toNat) <<< P >>> (-e).toNat
        let (n, f) : Int × Nat := if neg then (-(mag : Int) - 1, 2 ^ P - 1 - fr) else (mag, fr)
        let y := f * ln2Fix P / 2 ^ P
        let v := expSeries P y 90 0 (2 ^ P)
        roundTo F .rne false false (2 * v + 1) 1 (n - P - 1)

/-- FLOG2 (R142). -/
def fpLog2 (F : FloatFmt) (a : Nat) : Nat × Fl :=
  match decodeF F a with
  | .nan => (F.qnan, 0)
  | .inf neg => if neg then (F.qnan, flNV) else (F.infCode false, 0)
  | .fin neg m e =>
    if m = 0 then (F.infCode true, 0)
    else if neg then (F.qnan, flNV)
    else
      let P := transBits
      let l := Nat.log2 m
      let n : Int := l + e
      if m = 2 ^ l then
        (if n = 0 then (0, 0) else roundTo F .rne false (decide (n < 0)) n.natAbs 1 0)
      else
        let frac : Nat := lnFix P m (2 ^ l) * 2 ^ P / ln2Fix P
        let v : Int := n * (2 ^ P : Nat) + frac
        -- the true value lies just above the truncated one
        let w : Int := 2 * v + 1
        roundTo F .rne false (decide (w < 0)) w.natAbs 1 (-(P : Int) - 1)

/-- FCOSPI (R142): `cos (π x)`. -/
def fpCospi (F : FloatFmt) (a : Nat) : Nat × Fl :=
  match decodeF F a with
  | .nan => (F.qnan, 0)
  | .inf _ => (F.qnan, flNV)
  | .fin _ m e =>
    let P := transBits
    if m = 0 || decide (e ≥ 1) then roundTo F .rne false false 1 1 0
    else
      -- x mod 2 as r / 2^s
      let s := (-e).toNat
      let r0 := m % 2 ^ (s + 1)
      let r := if r0 > 2 ^ s then 2 ^ (s + 1) - r0 else r0
      if r = 0 then roundTo F .rne false false 1 1 0
      else if r = 2 ^ s then roundTo F .rne false true 1 1 0
      else if 2 * r = 2 ^ s then (0, 0)
      else
        let neg := decide (2 * r > 2 ^ s)
        let q := if neg then 2 ^ s - r else r          -- q / 2^s in (0, 1/2)
        let pi := piFix P
        if 4 * q ≤ 2 ^ s then
          let y := q * pi / 2 ^ s
          let v := trigSeries P (y * y / 2 ^ P) 60 0 ((2 ^ P : Nat) : Int)
          roundTo F .rne false neg (2 * v.toNat + 1) 1 (-(P : Int) - 1)
        else
          -- cos (π q) = sin (π (1/2 - q))
          let y := (2 ^ s - 2 * q) * pi / 2 ^ (s + 1)
          let v := trigSeries P (y * y / 2 ^ P) 60 1 (y : Int)
          roundTo F .rne false neg (2 * v.toNat + 1) 1 (-(P : Int) - 1)

/-! ### Comparisons (R143) -/

/-- Signed order of two finite or infinite values; `none` when either is NaN. -/
def fvCmp : FV → FV → Option Ordering
  | .nan, _ => none
  | _, .nan => none
  | .inf x, .inf y => some (if x = y then .eq else if x then .lt else .gt)
  | .inf x, _ => some (if x then .lt else .gt)
  | _, .inf y => some (if y then .gt else .lt)
  | .fin n1 m1 e1, .fin n2 m2 e2 =>
    let (n, m, _) := addExact n1 m1 e1 (!n2) m2 e2
    some (if m = 0 then .eq else if n then .lt else .gt)

/-- FMIN and FMAX (R143): −0 orders below +0; a NaN gives the canonical NaN and no flag. -/
def fpMinMax (F : FloatFmt) (wantMax : Bool) (a b : Nat) : Nat :=
  match fvCmp (decodeF F a) (decodeF F b) with
  | none => F.qnan
  | some .lt => if wantMax then b else a
  | some .gt => if wantMax then a else b
  | some .eq =>
    -- equal values differ only as −0 and +0
    if bitAt a (F.eb + F.mb) then (if wantMax then b else a) else (if wantMax then a else b)

/-- FCMP conditions (R143): 0 EQ, 1 NE, 2 LT, 3 LE, 4 unordered. -/
def fpCompare (F : FloatFmt) (cond a b : Nat) : Bool :=
  match fvCmp (decodeF F a) (decodeF F b) with
  | none => cond == 1 || cond == 4
  | some o =>
    match cond with
    | 0 => o == .eq
    | 1 => o != .eq
    | 2 => o == .lt
    | 3 => o != .gt
    | _ => false

/-- SGN of an element (R159). -/
def fpSgn (F : FloatFmt) (a : Nat) : Nat :=
  match decodeF F a with
  | .nan => F.qnan
  | .inf neg => F.signBit neg + (F.bias * 2 ^ F.mb)
  | .fin neg m _ => if m = 0 then 0 else F.signBit neg + F.bias * 2 ^ F.mb

/-- The larger of a value and a magnitude, under the NaN and infinity rules of R55; an existing NaN is kept (R156). -/
def fpMaxWith (F : FloatFmt) (a b : Nat) : Nat :=
  match decodeF F a, decodeF F b with
  | .nan, _ => a
  | _, .nan => F.qnan
  | _, _ => if fpAbs F a = a && a ≥ b then a else b

/-- The larger of two magnitudes, under the NaN and infinity rules of R55. -/
def fpMaxMag (F : FloatFmt) (a b : Nat) : Nat :=
  match decodeF F a, decodeF F b with
  | .nan, _ => F.qnan
  | _, .nan => F.qnan
  | _, _ => if fpAbs F a ≥ fpAbs F b then fpAbs F a else fpAbs F b

end Sys2Proof.Machine
end

