-- ==== Sys2Proof/Machine/Convert.lean ====
section
/-!
DEFINITION. Sys2Proof/Machine/Convert.lean: the format codes of Table 2.1, element and scale decoding
(R42 to R50), scale derivation (Table 2.7), conversion (R52 to R62), the generator of R101 and the amax
of R55.
-/
namespace Sys2Proof.Machine

/-! ### Format codes (R39, Table 2.1) -/

/-- Element width in bits of a format code. -/
def fmtWidth (c : Nat) : Nat :=
  match c with
  | 0x0 => 32 | 0x1 => 16 | 0x2 => 16 | 0x3 => 8 | 0x4 => 8 | 0x5 => 8 | 0x6 => 8 | 0x7 => 8
  | 0x8 => 6 | 0x9 => 6 | 0xA => 4 | 0xB => 8 | 0xC => 4 | 0xD => 2 | 0xE => 64 | _ => 32

/-- Block length; 1 where a format has no blocks (R69). -/
def fmtBlock (c : Nat) : Nat :=
  match c with
  | 0x6 => 32 | 0x7 => 32 | 0x8 => 32 | 0x9 => 32 | 0xA => 32 | 0xB => 32 | 0xC => 16 | 0xD => 64 | _ => 1

/-- The MX formats. -/
def fmtIsMx (c : Nat) : Bool := decide (6 ≤ c) && decide (c ≤ 0xB)

/-- Formats with an FP32 tensor scale. -/
def fmtHasTensorScale (c : Nat) : Bool := c == 3 || c == 4 || c == 5 || c == 0xC || c == 0xD

/-- Formats that can form the register side of CVT (R150). -/
def fmtIsLane (c : Nat) : Bool := c == 0 || c == 1 || c == 0xE || c == 0xF

/-- The floating-point element of a format code, where it has one. -/
def fmtFloat (c : Nat) : Option FloatFmt :=
  match c with
  | 0x0 => some fFP32 | 0x1 => some fBF16 | 0x2 => some fFP16 | 0x3 => some fE4M3 | 0x4 => some fE5M2
  | 0x6 => some fE4M3 | 0x7 => some fE5M2 | 0x8 => some fE2M3 | 0x9 => some fE3M2 | 0xA => some fE2M1
  | 0xC => some fE2M1 | 0xE => some fFP64 | _ => none

/-- A signed integer as an exact value times `2^e`. -/
def fvOfInt (x : Int) (e : Int) : FV := .fin (decide (x < 0)) x.natAbs e

/-- The value of one element code (R42 to R44, R47; the T2 code 0b10 reads as NaN, R48). -/
def decodeElem (c code : Nat) : FV :=
  match fmtFloat c with
  | some F => decodeF F code
  | none =>
    match c with
    | 0x5 => fvOfInt (signed 8 code) 0
    | 0xB => fvOfInt (signed 8 code) (-6)
    | 0xD => match code % 4 with
      | 0 => .fin false 0 0 | 1 => .fin false 1 0 | 3 => .fin true 1 0 | _ => .nan
    | _ => fvOfInt (signed 32 code) 0

/-- A block scale byte (R45 to R48): invalid codes are NaN. -/
def decodeBlockScale (c sc : Nat) : FV :=
  if fmtIsMx c then (if sc = 0xFF then .nan else .fin false 1 ((sc : Int) - 127))
  else if sc ≤ 0x7E then decodeF fE4M3 sc else .nan

/-- A tensor scale (R48): NaN or infinite makes every value NaN. -/
def decodeTensorScale (b : Nat) : FV :=
  match decodeF fFP32 b with
  | .fin n m e => .fin n m e
  | _ => .nan

/-- Exact product of two values; an infinity times zero is NaN (R48). -/
def fvMul : FV → FV → FV
  | .nan, _ => .nan
  | _, .nan => .nan
  | .inf x, .inf y => .inf (x != y)
  | .inf x, .fin n m _ => if m = 0 then .nan else .inf (x != n)
  | .fin n m _, .inf x => if m = 0 then .nan else .inf (x != n)
  | .fin n1 m1 e1, .fin n2 m2 e2 => .fin (n1 != n2) (m1 * m2) (e1 + e2)

/-- The exact value of an element with its scales (R52); `bs` and `ts` are ignored where the format has none, and
one that is no number makes it NaN (log 112). -/
def decodeScaled (c code bs ts : Nat) : FV :=
  let v := decodeElem c code
  let v := if fmtBlock c > 1 then fvMul v (decodeBlockScale c bs) else v
  if fmtHasTensorScale c then fvMul v (decodeTensorScale ts) else v

/-- Is a value finite? -/
def FV.isFin : FV → Bool
  | .fin _ _ _ => true
  | _ => false

/-- Is a value NaN? -/
def FV.isNan : FV → Bool
  | .nan => true
  | _ => false

/-- Is it an infinity? -/
def FV.isInf : FV → Bool
  | .inf _ => true
  | _ => false

/-- Is a value a zero? -/
def FV.isZero : FV → Bool
  | .fin _ m _ => m == 0
  | _ => false

/-- Magnitude of a value. -/
def FV.abs : FV → FV
  | .fin _ m e => .fin false m e
  | .inf _ => .inf false
  | .nan => .nan

/-- The larger of two magnitudes under R55. -/
def fvMaxMag (a b : FV) : FV :=
  match a.abs, b.abs with
  | .nan, _ => .nan
  | _, .nan => .nan
  | x, y => if fvCmp x y == some .lt then y else x

/-- The amax of R55 over values; `none` stands for an inactive element. -/
def amaxOf : List (Option FV) → FV
  | [] => .fin false 0 0
  | none :: t => amaxOf t
  | some v :: t => fvMaxMag v (amaxOf t)

/-- A magnitude rounded toward +∞ to a code of `F` (R155): exact where it fits; +Inf beyond. -/
def amaxCode (F : FloatFmt) (v : FV) : Nat × Fl :=
  match v with
  | .nan => (F.qnan, 0)
  | .inf _ => (F.infCode false, 0)
  | .fin _ m e =>
    if m = 0 then (0, 0)
    else
      let (r, t, inex) := roundMag F.mb F.emin .up m 1 e
      if F.beyond r t then (F.infCode false, flNX)
      else (F.encMag r t, if inex then flNX else 0)

/-! ### The generator CG (R101) -/

/-- One mixing round of the generator. -/
def mix64 (z0 : W64) : W64 :=
  let z := z0 ^^^ (z0 >>> 30)
  let z := z * 0xBF58476D1CE4E5B9#64
  let z := z ^^^ (z >>> 27)
  let z := z * 0x94D049BB133111EB#64
  z ^^^ (z >>> 31)

/-- The counter-based generator CG (R101). -/
def cg (key0 key1 ctr0 ctr1 : W64) : W64 :=
  let x := mix64 (key0 ^^^ ctr0)
  let x := mix64 (x ^^^ key1 ^^^ ctr1)
  mix64 (x ^^^ 0x9E3779B97F4A7C15#64)

/-- The 16-bit offset of a stochastic rounding. -/
def cg16 (key0 key1 ctr0 ctr1 : W64) : Nat := (cg key0 key1 ctr0 ctr1).toNat % 65536

/-! ### Scales from the amax (R56, Table 2.7) -/

/-- M of Table 2.7 as `(num, den)`: the element's largest finite value. -/
def fmtMax (c : Nat) : Nat × Nat :=
  match c with
  | 0x3 => (448, 1) | 0x4 => (57344, 1) | 0x5 => (127, 1) | 0x6 => (448, 1) | 0x7 => (57344, 1)
  | 0x8 => (15, 2) | 0x9 => (28, 1) | 0xA => (6, 1) | 0xB => (127, 64) | 0xC => (6, 1) | _ => (1, 1)

/-- E_max of Table 2.7. -/
def fmtEmax (c : Nat) : Int :=
  match c with
  | 0x6 => 8 | 0x7 => 15 | 0x8 => 2 | 0x9 => 4 | 0xA => 2 | _ => 0

/-- The divisor of A_t in Table 2.7. -/
def tensorDiv (c : Nat) : Nat :=
  match c with
  | 0xC => 2688 | 0xD => 448 | 0x3 => 448 | 0x4 => 57344 | _ => 127

/-- The smallest code of `F` at or above a positive value; the largest finite code where none is (R56). -/
def roundUpCode (F : FloatFmt) (num den : Nat) (e : Int) : Nat :=
  let (m, t, _) := roundMag F.mb F.emin .up num den e
  if F.beyond m t then F.maxCode else F.encMag m t

/-- The tensor scale code of a positive A_t. -/
def tensorScaleCode (c m : Nat) (e : Int) : Nat := roundUpCode fFP32 m (tensorDiv c) e

/-- The exponent of an MX block scale (Table 2.7, UP and FLOOR), limited to −127 to 127. -/
def mxExp (c : Nat) (floor : Bool) (m : Nat) (e : Int) : Int :=
  let raw : Int :=
    if floor then flog2 m 1 + e - fmtEmax c
    else
      let (mn, md) := fmtMax c
      -- the smallest x with A_b ≤ M 2^x
      let l := flog2 (m * md) mn
      let (a, b) := scaleFrac (m * md) mn (-l)
      (if a = b then l else l + 1) + e
  max (-127) (min 127 raw)

/-! ### Rounding one element -/

/-- Round the exact quotient `± num / den × 2^e` to an integer code `± 1 … ± lim`; beyond it saturates with OV
and NX. The result is the signed integer. -/
def roundIntElem (lim : Nat) (rm : Rnd) (neg : Bool) (num den : Nat) (e : Int) : Int × Fl :=
  let (N, D) := scaleFrac num den e
  let (q, inex) := roundFrac rm N D
  if q > lim then ((if neg then -(lim : Int) else lim), flOV + flNX)
  else ((if neg then -(q : Int) else q),
    if q = 0 then (if num = 0 then 0 else flUF + flNX) else if inex then flNX else 0)

/-- The result of converting one element: its code and its flags. A zero of a scaled format is +0 (R54). -/
def roundElem (c : Nat) (rm : Rnd) (sat : Bool) (neg : Bool) (num den : Nat) (e : Int) : Nat × Fl :=
  if num = 0 then (0, 0)
  else
    match fmtFloat c with
    | some F =>
      let (code, fl) := roundTo F rm sat neg num den e
      -- a zero written in a scaled format is +0
      (if (fmtBlock c > 1 || fmtHasTensorScale c) && code == F.signBit neg then 0 else code, fl)
    | none =>
      match c with
      | 0x5 => let (x, fl) := roundIntElem 127 rm neg num den e; (lowBits 8 x, fl)
      | 0xB => let (x, fl) := roundIntElem 127 rm neg num den (e + 6); (lowBits 8 x, fl)
      | _ => let (x, fl) := roundIntElem 1 rm neg num den e; (lowBits 2 x, fl)

/-- Table 2.9, a NaN or Inf element with a finite A_t: targets FP8 and INT8. -/
def nonFiniteCode (c : Nat) (v : FV) : Nat :=
  match c, v with
  | 0x3, _ => 0x7F
  | 0x4, .inf neg => if neg then 0xFC else 0x7C
  | 0x4, _ => 0x7E
  | _, .inf neg => if neg then 0x81 else 0x7F
  | _, _ => 0

/-- Float or integer to INT32 (Tables 2.8, 2.9): out of range and an infinity saturate with NV (log 111), NaN
gives 0 with NV. -/
def toInt32 (rm : Rnd) (v : FV) : Nat × Fl :=
  match v with
  | .nan => (0, flNV)
  | .inf neg => (if neg then 0x80000000 else 0x7FFFFFFF, flNV)
  | .fin neg m e =>
    if m = 0 then (0, 0)
    else if e + Nat.log2 m > 40 then (if neg then 0x80000000 else 0x7FFFFFFF, flNV)
    else
      let (N, D) := scaleFrac m 1 e
      let (q, inex) := roundFrac rm N D
      if (neg && q > 2 ^ 31) || (!neg && q > 2 ^ 31 - 1) then
        (if neg then 0x80000000 else 0x7FFFFFFF, flNV)
      else (lowBits 32 (if neg then -(q : Int) else q),
        if q = 0 then flUF + flNX else if inex then flNX else 0)

/-- An unscaled target (FP64, FP32, BF16, FP16, INT32): code and flags of one element. -/
def convUnscaled (c : Nat) (rm : Rnd) (sat : Bool) (v : FV) : Nat × Fl :=
  match fmtFloat c with
  | none => toInt32 rm v
  | some F =>
    match v with
    | .nan => (F.qnan, flNV)
    | .inf neg => (F.infCode neg, 0)
    | .fin neg m e => if m = 0 then (F.signBit neg, 0) else roundTo F rm sat neg m 1 e

/-- What a conversion of a run of elements produces. -/
structure ConvOut where
  /-- element codes; `none` for an inactive element -/
  codes : List (Option Nat)
  /-- block scale bytes -/
  scales : List Nat
  /-- tensor scale, where the target has one -/
  tscale : Option Nat
  flags : Fl
  lost : Nat
deriving DecidableEq, Repr

/-- The options of Table 2.6 that CVT's MODE selects. -/
structure ConvMode where
  sr : Bool
  sat : Bool
  floor : Bool
deriving DecidableEq, Repr

/-- A lost element (R59): finite, nonzero, converted to zero. -/
def isLost (v : FV) (code : Nat) : Bool :=
  match v with
  | .fin _ m _ => m != 0 && code == 0
  | _ => false

/-- The same for a signed-zero result of an unscaled format. -/
def isLostUnscaled (c : Nat) (v : FV) (code : Nat) : Bool :=
  match v, fmtFloat c with
  | .fin _ m _, some F => m != 0 && fpAbs F code == 0
  | .fin _ m _, none => m != 0 && code == 0
  | _, _ => false

/-- Fold element results into code list, flags and lost count. -/
def foldElems (f : Nat → FV → Nat × Fl × Bool) : Nat → List (Option FV) → List (Option Nat) × Fl × Nat
  | _, [] => ([], 0, 0)
  | i, none :: t =>
    let (cs, fl, n) := foldElems f (i + 1) t
    (none :: cs, fl, n)
  | i, some v :: t =>
    let (c, fl1, l) := f i v
    let (cs, fl, n) := foldElems f (i + 1) t
    (some c :: cs, fl1 ||| fl, n + if l then 1 else 0)

/-- Elements all written +0; finite nonzero ones are lost where `loses` (R57, R58). -/
def zeroElems (loses : Bool) (vs : List (Option FV)) : List (Option Nat) × Fl × Nat :=
  foldElems (fun _ v =>
    let l := loses && isLost v 0
    (0, if l then flUF ||| flNX else 0, l)) 0 vs

/-- Convert one block of a block-scaled target (Tables 2.7 to 2.9, R57, R58): `ab` is the block's amax
operand, `s` the tensor scale code (EQ4, T2), `tz` says A_t is 0; an operand that is not finite goes before that (log 113).
A scale that the conversion rounds up sets no NX of its own (log 23). -/
def convBlock (c : Nat) (md : ConvMode) (kf : Nat → Nat) (base : Nat) (ab : FV) (s : Nat) (tz : Bool)
    (vs : List (Option FV)) : List (Option Nat) × Nat × Fl × Nat :=
  let nanScale := if fmtIsMx c then 0xFF else 0x7F
  let bad := !ab.isFin || vs.any (fun v => match v with | some x => !x.isFin | none => false)
  if bad then
    let (cs, _, _) := zeroElems false vs
    (cs, nanScale, flNV, 0)
  else
    match ab with
    | .fin _ abm abe =>
      if abm = 0 || tz then
        let (cs, fl, n) := zeroElems true vs
        (cs, 0, fl, n)
      else
        let rnd (i : Nat) : Rnd := if md.sr then .sr (kf (base + i)) else .rne
        if fmtIsMx c then
          let e := mxExp c md.floor abm abe
          let within := md.floor && vs.all (fun v => match v with
            | some x => fvCmp x.abs (.fin false abm abe) != some .gt | none => true)
          let f := fun i v => match v with
            | .fin neg m x =>
              let (code, fl) := roundElem c (rnd i) md.sat neg m 1 (x - e)
              if within && fl &&& flOV != 0 then
                -- the FLOOR row of Table 2.8: the largest finite value, NX only
                ((roundElem c (rnd i) true neg m 1 (x - e)).1, flNX, false)
              else (code, fl, isLost v code)
            | _ => (0, 0, false)
          let (cs, fl, n) := foldElems f 0 vs
          (cs, (e + 127).toNat, fl, n)
        else
          match decodeF fFP32 s with
          | .fin _ sm se =>
            let mult := if c = 0xC then 6 else 1
            let b := roundUpCode fE4M3 abm (mult * sm) (abe - se)
            (match decodeF fE4M3 b with
             | .fin _ bm be =>
               let f := fun i v => match v with
                 | .fin neg m x =>
                   let (code, fl) := roundElem c (rnd i) false neg m (bm * sm) (x - be - se)
                   (code, fl, isLost v code)
                 | _ => (0, 0, false)
               let (cs, fl, n) := foldElems f 0 vs
               (cs, b, fl, n)
             | _ => (vs.map (fun _ => none), 0, 0, 0))
          | _ => (vs.map (fun _ => none), 0, 0, 0)
    | _ => (vs.map (fun _ => none), 0, 0, 0)

/-- Convert the blocks of a run in order. -/
def convBlocks (c : Nat) (md : ConvMode) (kf : Nat → Nat) (s : Nat) (tz : Bool) :
    Nat → Nat → List FV → List (Option FV) → List (Option Nat) × List Nat × Fl × Nat
  | 0, _, _, _ => ([], [], 0, 0)
  | n + 1, base, abs, vs =>
    let blk := vs.take (fmtBlock c)
    let (cs, sc, fl, l) := convBlock c md kf base (abs.headD (.fin false 0 0)) s tz blk
    let (cs', scs, fl', l') := convBlocks c md kf s tz n (base + fmtBlock c) abs.tail (vs.drop (fmtBlock c))
    (cs ++ cs', sc :: scs, fl ||| fl', l + l')

/-- A conversion of a run of elements into format `c` (R52 to R62). `at` is A_t, `abs` the block amax operands,
`kf` gives the 16-bit offset of an element under SR. -/
def convert (c : Nat) (md : ConvMode) (kf : Nat → Nat) (at' : FV) (abs : List FV) (vs : List (Option FV)) :
    ConvOut :=
  let rnd (i : Nat) : Rnd := if md.sr then .sr (kf i) else .rne
  if fmtBlock c = 1 && !fmtHasTensorScale c then
    let (cs, fl, n) := foldElems (fun i v =>
      let (code, fl) := convUnscaled c (rnd i) md.sat v
      (code, fl, isLostUnscaled c v code)) 0 vs
    ⟨cs, [], none, fl, n⟩
  else if fmtHasTensorScale c && !at'.isFin then
    -- A_t NaN or Inf (Table 2.9)
    let (cs, _, _) := zeroElems false vs
    ⟨cs, if fmtBlock c > 1 then List.replicate (cdiv vs.length (fmtBlock c)) 0x7F else [],
     some 0x7FC00000, flNV, 0⟩
  else
    let tz := fmtHasTensorScale c && at'.isZero
    let s := match at' with
      | .fin _ m e => if m = 0 then 0x3F800000 else tensorScaleCode c m e
      | _ => 0x3F800000
    if fmtBlock c = 1 then
      let (cs, fl, n) := foldElems (fun i v =>
        match v, decodeF fFP32 s with
        | .fin neg m e, .fin _ sm se =>
          if tz then
            let l := isLost v 0
            (0, if l then flUF ||| flNX else 0, l)
          else
            let (code, fl) := roundElem c (rnd i) md.sat neg m sm (e - se)
            (code, fl, isLost v code)
        | _, _ => (nonFiniteCode c v, flNV, false)) 0 vs
      ⟨cs, [], some s, fl, n⟩
    else
      let (cs, scs, fl, n) := convBlocks c md kf s tz (cdiv vs.length (fmtBlock c)) 0 abs vs
      ⟨cs, scs, if fmtHasTensorScale c then some s else none, fl, n⟩

end Sys2Proof.Machine
end

