-- ==== Sys2Proof/Machine/Accum.lean ====
section
/-!
DEFINITION. Sys2Proof/Machine/Accum.lean: the accumulator add (R97 to R100), the index tree (R103), group terms
(R93 to R96), the sums of a tile (R104, R105, R107), and the digest PD with CRC-32C (R251, R339).
-/
namespace Sys2Proof.Machine

/-- Positive zero. -/
def fvZero : FV := .fin false 0 0

/-- The accumulator add of R97, in format `F` (FP32, or FP64 for an FP64 tile). -/
def accAdd (F : FloatFmt) (rm : Rnd) (sat : Bool) (a t : FV) : FV × Fl :=
  match a, t with
  | .nan, _ => (.nan, flNV)
  | _, .nan => (.nan, flNV)
  | .inf x, .inf y => if x = y then (.inf x, 0) else (.nan, flNV)
  | .inf x, _ => (.inf x, 0)
  | _, .inf y => (.inf y, 0)
  | .fin n1 m1 e1, .fin n2 m2 e2 =>
    let (n, m, e) := addExact n1 m1 e1 n2 m2 e2
    if m = 0 then (.fin (m1 == 0 && m2 == 0 && zeroSign n1 n2) 0 0, 0)
    else if flog2 m 1 + e < F.emin then (.fin n 0 0, flUF + flNX)
    else
      let (c, fl) := roundTo F rm sat n m 1 e
      (decodeF F c, fl)

/-- TREE over partials in index order (R103); every add is RNE. `fuel` bounds the depth. -/
def treeGo (F : FloatFmt) (sat : Bool) : Nat → List FV → FV × Fl
  | 0, xs => (xs.headD fvZero, 0)
  | fuel + 1, xs =>
    if xs.length ≤ 1 then (xs.headD fvZero, 0)
    else
      let h := (xs.length + 1) / 2
      let (l, f1) := treeGo F sat fuel (xs.take h)
      let (r, f2) := treeGo F sat fuel (xs.drop h)
      let (x, f3) := accAdd F .rne sat l r
      (x, f1 ||| f2 ||| f3)

/-- TREE (R103). -/
def tree (F : FloatFmt) (sat : Bool) (xs : List FV) : FV × Fl := treeGo F sat xs.length xs

/-- The code of a value that an accumulator of `F` holds. -/
def codeOf (F : FloatFmt) (v : FV) : Nat :=
  match v with
  | .nan => F.qnan
  | .inf n => F.infCode n
  | .fin n m e => if m = 0 then F.signBit n else (roundTo F .rne false n m 1 e).1

/-! ### Group terms -/

/-- Group length of an operand pair (Table 4.1). -/
def groupLen (a b : Nat) : Nat :=
  if fmtBlock a = 1 && !fmtHasTensorScale a && fmtBlock b = 1 && !fmtHasTensorScale b then 1
  else if a = 0xC || b = 0xC then 16 else 32

/-- Exact sum of products; infinities of both signs, or any NaN, give NaN (R96). -/
def sumExact : List FV → FV
  | [] => fvZero
  | x :: t =>
    match x, sumExact t with
    | .nan, _ => .nan
    | _, .nan => .nan
    | .inf p, .inf q => if p = q then .inf p else .nan
    | .inf p, _ => .inf p
    | _, .inf q => .inf q
    | .fin n1 m1 e1, .fin n2 m2 e2 =>
      let (n, m, e) := addExact n1 m1 e1 n2 m2 e2
      .fin (n && m != 0) m e

/-- The term of one group (R94, R96): products of its positions that are not padding, and its scale product. A zero
term of a scaled pair is +0, also where the scale is zero (DEDUCED, log 20). -/
def groupTerm (len : Nat) (ps : List (FV × FV)) (scale : FV) : FV :=
  match len, ps with
  | 1, [(a, b)] => fvMul a b
  | _, _ =>
    match sumExact (ps.map fun p => fvMul p.1 p.2) with
    | .fin _ 0 _ => if scale.isNan then .nan else fvZero
    | s =>
      match fvMul s scale with
      | .fin _ 0 _ => fvZero
      | t => t

/-- Terms of an output element, in order of position; `scale g` is the scale product of group `g`. -/
def groupTerms (len : Nat) (scale : Nat → FV) : Nat → Nat → List (FV × FV) → List FV
  | 0, _, _ => []
  | n + 1, g, ps =>
    if ps.isEmpty then []
    else groupTerm len (ps.take len) (scale g) :: groupTerms len scale n (g + 1) (ps.drop len)

/-- What fixes the rounding of a term add (R99, R101). -/
structure SumKey where
  jobSeed : W64
  srSeed : W64
  m : Nat
  n : Nat
  /-- stochastic rounding of term adds -/
  sr : Bool
deriving DecidableEq, Repr

/-- The rounding of the term add of group `g` in segment `seg` (R101). -/
def SumKey.rnd (key : SumKey) (seg g : Nat) : Rnd :=
  if key.sr then
    let ctr0 := (key.m % 2 ^ 20) * 2 ^ 44 + (key.n % 2 ^ 20) * 2 ^ 24 + 2 ^ 16
    let ctr1 := seg * 2 ^ 32 + g
    .sr (cg16 key.jobSeed key.srSeed (BitVec.ofNat 64 ctr0) (BitVec.ofNat 64 ctr1))
  else .rne

/-- Add terms to an accumulator in order; each carries its group index. -/
def addTerms (F : FloatFmt) (key : SumKey) (sat : Bool) (seg : Nat) : FV → List (Nat × FV) → FV × Fl
  | a, [] => (a, 0)
  | a, (g, t) :: ts =>
    let (a', f1) := accAdd F (key.rnd seg g) sat a t
    let (r, f2) := addTerms F key sat seg a' ts
    (r, f1 ||| f2)

/-- One segment in fast mode at depth `D` (R104): member `d` takes the chunks `c` with `c mod D = d`. -/
def fastSegment (F : FloatFmt) (key : SumKey) (sat : Bool) (D len seg : Nat) (start : FV) (ts : List FV) : FV × Fl :=
  let ns := number 0 ts
  let ms := (List.range D).map fun d =>
    addTerms F key sat seg (if d = 0 then start else fvZero) (ns.filter fun x => x.1 * len / 128 % D == d)
  let (r, fl) := tree F sat (ms.map (·.1))
  (r, ms.foldl (fun a x => a ||| x.2) fl)

/-- Cut a list into runs of `n`. -/
def chunksOf {α : Type} (n : Nat) : Nat → List α → List (List α)
  | 0, _ => []
  | fuel + 1, xs => if xs.isEmpty then [] else xs.take n :: chunksOf n fuel (xs.drop n)

/-- Positions of a long-sum segment (R105). -/
def longLen : Nat := 16777216

/-- The final accumulator value of an output element, its flags, and the carries of a long sum (R104, R105, R107). -/
def reduceElem (F : FloatFmt) (key : SumKey) (sat canonical : Bool) (D len : Nat) (start : FV) (ts : List FV) :
    FV × Fl × List FV :=
  let combine (segs : List (FV × Fl)) : FV × Fl :=
    let (r, fl) := tree F sat (segs.map (·.1))
    (r, segs.foldl (fun a x => a ||| x.2) fl)
  if canonical then
    let segs := number 0 (chunksOf (2048 / len) ts.length ts)
    let (r, fl) := combine (segs.map fun s =>
      addTerms F { key with sr := false } sat s.1 (if s.1 = 0 then start else fvZero) (number 0 s.2))
    (r, fl, [])
  else if ts.length * len ≤ longLen then
    let (r, fl) := fastSegment F key sat D len 0 start ts
    (r, fl, [])
  else
    let segs := (number 0 (chunksOf (longLen / len) ts.length ts)).map fun s =>
      fastSegment F key sat D len s.1 (if s.1 = 0 then start else fvZero) s.2
    let (r, fl) := combine segs
    (r, fl, segs.map (·.1))

/-! ### The digest PD (R251) and CRC-32C -/

/-- The fixed key H. -/
def pdKey : Nat := 0x2F6B0C4193D87A5E1C3085F26E94B7A3

/-- Product in GF(2^128), from bit `i - 1` of `b` downward. -/
def gmulGo (a b : Nat) : Nat → Nat → Nat
  | 0, p => p
  | i + 1, p =>
    let q := (p * 2) % 2 ^ 128
    let q := if p.testBit 127 then q ^^^ 0x87 else q
    gmulGo a b i (if b.testBit i then q ^^^ a else q)

/-- Product in GF(2^128). -/
def gmul (a b : Nat) : Nat := gmulGo a b 128 0

/-- Fold one 16-byte block. -/
def pdBlock (y x : Nat) : Nat := gmul (y ^^^ x) pdKey

/-- Fold the bytes of one range, padded with zeros to a multiple of 16. -/
def pdRange : Nat → Nat → List Byte → Nat
  | 0, y, _ => y
  | fuel + 1, y, bs => if bs.isEmpty then y else pdRange fuel (pdBlock y (leNat (bs.take 16))) (bs.drop 16)

/-- PD over byte ranges. -/
def pd (ranges : List (List Byte)) : Nat :=
  let y := ranges.foldl (fun y bs => pdRange bs.length y bs) 0
  pdBlock y ((ranges.map (·.length)).foldl (· + ·) 0)

end Sys2Proof.Machine
end

