-- ==== Sys2Proof/Config.lean ====
section
/-!
DEFINITION. Sys2Proof/Config.lean: what one part fixes (fuses, keys, calibration, firmware images) and the
free values. Each is a constant without a body, so that no proof can see its value.
-/
namespace Sys2Proof

/-! ### What the published video and audio standards say of a stream (R280 to R285) -/

/-- A piece of an elementary stream: where it begins in its object, its packet or sample index, its presentation and decoding
times where it has them, and its bytes. -/
structure EsPart where
  offset : Nat
  index : Nat
  pts : Option Nat
  dts : Option Nat
  bytes : List Byte
deriving DecidableEq, Repr

/-- A track of an ISO base media file: its samples' times stand in its timescale. -/
structure FileTrack where
  id : Nat
  video : Bool
  audio : Bool
  encrypted : Bool
  /-- code of CODEC or AUDIO (Table 11.1), where the type is supported -/
  codec : Option Nat
  timescale : Nat
  samples : List EsPart
deriving DecidableEq, Repr

/-- What a sequence says of itself: the profile and level as coded, the chroma format (0 4:2:0, 1 4:2:2, 2 another), the luma
depth, the tier of HEVC (false the Main tier), and whether a range-extension profile of HEVC is Main 4:2:2 10. -/
structure StreamInfo where
  profile : Nat
  level : Nat
  chroma : Nat
  depth : Nat
  highTier : Bool
  main422 : Bool
deriving DecidableEq, Repr

/-- A coded picture in decoding order: its place, its presentation time, what R283 asks of a random-access point, and
whether it depends on a reference before the random-access point that precedes it. -/
structure CodedPicture where
  offset : Nat
  index : Nat
  pts : Nat
  seqHeader : Bool
  intra : Bool
  idr : Bool
  /-- recovery_frame_cnt of a recovery point SEI before it -/
  recovery : Option Nat
  irap : Bool
  shownKey : Bool
  leading : Bool
  info : StreamInfo
  bytes : List Byte
deriving DecidableEq, Repr

/-- A plane of samples, by row; its siting is the offset of its first sample, in halves of a luma sample. -/
structure Plane where
  width : Nat
  height : Nat
  siteX : Nat
  siteY : Nat
  rows : List (List Nat)
deriving DecidableEq, Repr

/-- A decoded picture: Y, Cb and Cr of its first field or whole frame, the same of its second field, whether the first field
holds the top lines, the depth, the colour matrix that the stream names (0 BT.601, 1 BT.709, 2 BT.2020), its range, and its
sample aspect ratio. -/
structure DecodedPicture where
  first : List Plane
  second : List Plane
  topFirst : Bool
  depth : Nat
  matrix : Option Nat
  fullRange : Bool
  sarX : Nat
  sarY : Nat
deriving DecidableEq, Repr

/-- A decoded audio frame: its presentation time, its rate, and its FP32 samples by channel; none where it is damaged. -/
structure AudioFrame where
  pts : Nat
  rate : Nat
  length : Nat
  pcm : Option (List (List W32))
deriving DecidableEq, Repr

namespace Config

/-- A value the specification leaves undefined, fresh for each count (log 3). -/
opaque freeByte : Nat → Byte
/-- Module serial number, fused (R395, Table 14.12). -/
opaque serial : W64
/-- Fused grade: 0 for T56, 1 for T60, 2 for T64 (R8). -/
opaque gradeCode : Fin 3
/-- The guest suffix of the part number: how many guest sites are populated, G6 first (R7). -/
opaque guestSuffix : Fin 3
/-- TYPE of a site in the package manifest (Tables 1.2 and 12.6, R7); its SERIAL, GUEST_ID, ID_ADDR and RATE_CAP follow. -/
def siteType (d : Nat) : Byte :=
  if 1 ≤ d ∧ d ≤ 4 then 0x02 else if d = 5 then 0x03
  else if 6 ≤ d ∧ d < 6 + guestSuffix.val then 0xF0 else 0
/-- SERIAL of a site. -/
opaque siteSerial : Nat → W64
/-- GUEST_ID of a guest site. -/
opaque guestId : Nat → W64
/-- RATE_CAP of a guest site as a PORT_STATUS.RATE code. -/
opaque rateCap : Nat → BitVec 2
/-- ID_ADDR of a guest site. -/
opaque idAddr : Nat → W32
/-- Firmware slot A, slot B and the recovery image as manufactured (R399, R400). -/
opaque slotImage : Nat → List Byte
/-- Fused security version at manufacture: the thermometer code of 63 bits counts 0 to 63 (R401). -/
opaque fusedSvn : Fin 64
/-- ROM version of measurement block 1 (Table 15.7). -/
opaque romVersion : W32
/-- Modulus and public exponent of the Eonuel firmware key, the public key as its SHA-256 is taken, and the SHA-256 in the ROM
fuses (R401, Table 15.6). -/
opaque firmwareKey : Nat × Nat
/-- The encoded public key of the firmware key. -/
opaque firmwareKeyBytes : List Byte
/-- The fused SHA-256. -/
opaque firmwareKeyHash : List Byte
/-- Modulus and private exponent of key 0 (device identity) or 1 (device export): nothing but a signature shows them (R395). -/
opaque deviceKey : Nat → Nat × Nat
/-- Certificate chain of SPDM slot 0 or 1 (Table 15.6). -/
opaque certificate : Nat → List Byte
/-- Code of the shipped rules ORTHO and PRECOND, section kind 4 of the firmware, by RULE code and compute format (R212,
R236, R237, R400). -/
opaque shippedRule : Nat → Nat → List W64
/-- Bytes of a group's scratch area under a matrix rule, by RULE code, elements and rows: the rule defines it (Table 9.2). -/
opaque matrixScratch : Nat → Nat → Nat → Nat
/-- Where firmware places a virtual stage's numeric log, predictor slots and Tense slot records, in the HBM of its die outside
every grant (R36, R127, Table 5.6, log 130). -/
opaque stageTables : Nat → Nat
/-- MAC address of the calibration partition (Table 15.5). -/
opaque macAddress : List Byte
/-- A field of a PDR that neither R390 nor Table 15.2 states, by record and field: identifiers, entities, tolerances and
thresholds (DSP0248). -/
opaque pdrField : Nat → Nat → Nat

/-- Version entries that Get MCTP Version Support answers for a message type (DSP0236). -/
opaque mctpVersion : Byte → List Byte
/-- The vendor-defined set value of Get Vendor Defined Message Support (DSP0236). -/
opaque vendorSet : W16
/-- Version data that GetPLDMVersion answers for a PLDM type (DSP0240). -/
opaque pldmVersion : Byte → List Byte
/-- Command bits that GetPLDMCommands answers for a PLDM type (DSP0240). -/
opaque pldmCommands : Byte → List Byte
/-- CTExponent, DataTransferSize and MaxSPDMmsgSize of the SPDM responder (DSP0274). -/
opaque spdmLimits : Byte × W32 × W32
/-- CTExponent, DataTransferSize and MaxSPDMmsgSize that a requester sends in GET_CAPABILITIES (DSP0274). -/
opaque spdmRequester : Byte × W32 × W32

/-- Vendor ID of the host function, and of the vendor messages of MCTP (Table 14.1, R389). -/
def vendorId : Nat := 0x1E0A
/-- Device ID, of every grade and guest variant (Table 14.1). -/
def deviceId : Nat := 0x5500
/-- Class code: a processing accelerator (Table 14.1). -/
def classCode : Nat := 0x120000

/-- Does a storage port hold this namespace, and is it formatted with metadata or protection information (R274)? Devices
are those attached at DISCOVERY (R273). -/
opaque nsKnown : Nat → Nat → Bool
/-- Is a namespace formatted with metadata or protection information? -/
opaque nsMetadata : Nat → Nat → Bool
/-- Bytes of a logical block of a namespace. -/
opaque nsBlock : Nat → Nat → Nat
/-- The NVMe controller that serves a namespace, by storage port (R273: a port can have a switch below it). -/
opaque nsController : Nat → Nat → Nat
/-- The coded pictures of an elementary stream by its standard, in decoding order, by CODEC. -/
opaque codedPictures : Nat → List EsPart → List CodedPicture
/-- The pictures that a standard's decoder makes of coded pictures that begin at a random-access point, by CODEC: none where
one fails to decode. MPEG-2 has Eonuel's fixed integer inverse DCT (R282). -/
opaque decodePictures : Nat → List CodedPicture → List (Option DecodedPicture)
/-- The frames of an audio stream by its standard, by AUDIO code (R285). -/
opaque decodeAudio : Nat → List EsPart → List AudioFrame
/-- FP32 coefficients of the polyphase filter: rate in, rate out, phase and tap (R285). -/
opaque audioTap : Nat → Nat → Nat → Nat → W32
/-- The HBM address of the sample index that a context caches (Table 11.2). -/
opaque sampleIndexAddr : Nat → BitVec 48
/-- Where firmware takes the reservoir area for a basic INGEST_OPEN, by die and length (R293). -/
opaque reservoirPlace : Nat → Nat → Nat

/-- The word address that EV_MEM_UNCORRECTABLE reports for a vector register, by engine and register: the
specification gives registers none (log 3). -/
opaque regWordAddr : Nat → Nat → Nat

/-- The word address that EV_MEM_UNCORRECTABLE reports for an entry of a tile queue (false) or a DMA queue (true), by
engine (log 3). -/
opaque queueWordAddr : Nat → Bool → Nat

/-- A cell's quads in the order in which its faulty ones were fused off at manufacture: the key of a quad by cell (R75). -/
opaque fuseKey : Nat → Nat → Nat
/-- The reference signature fused in a die for a test of Table 10.3 and a type of unit (R262). -/
opaque testSignature : Nat → Nat → Nat → W64
/-- The reference PD that the signed firmware holds for a tile of the known-answer suite (R262). -/
opaque suiteReference : Nat → W128

/-- The order in which firmware disables the good quads of a cell at a demotion that no fault of the cell asks for: the
key of a quad by cell (R9). -/
opaque demoteKey : Nat → Nat → Nat
/-- The order in which a cell's enabled quads back its logical quads, and the arrays of a quad its logical arrays: the key
of a physical array by cell (R24, R75). -/
opaque mapKey : Nat → Nat → Nat

/-- The fused grade as an array count. -/
def fusedGrade : Nat := 56 + 4 * gradeCode.val

end Config
end Sys2Proof
end

