-- ==== Sys2Proof/Machine/State.lean ====
section
/-!
DEFINITION. Sys2Proof/Machine/State.lean: everything the specification gives the block to hold, as plain
data, and the state right after reset. Where a field's reset value is the model's own choice the assumption
log says so (log 2).
-/
namespace Sys2Proof.Machine

/-- Why the machine stops with a fault. The specification describes every fault of the block as an event, a
status or a halt of a stage, after which the block goes on; no meaning raises this. Safe. -/
inductive Fault where
  /-- never raised -/
  | none
deriving DecidableEq, Repr

/-- Why a command is not run. -/
inductive Refusal where
  /-- The command has no meaning in this model yet. Safe: nothing is claimed about it. -/
  | notModelled (mnemonic : String)
deriving DecidableEq, Repr

/-! ### Engines -/

/-- What a vector engine is doing (R137, R121, R123, R165, R170). -/
inductive EStat where
  | idle
  | running
  | waitSync
  | waitXred (value : W64) (mode vd : Nat)
  | waitEnd
  | waitEntry (group : Nat)
  | waitExit (group : Nat)
  | aborted
  | commit (vstage vd : Nat)
  | halted
deriving DecidableEq, Repr

/-- An active loop (R162): the first and last instruction of its body and the iterations left. -/
structure LoopFrame where
  first : Nat
  last : Nat
  left : Nat
deriving DecidableEq, Repr

/-- A queued descriptor (R80): its address, its 1 024 bits, the group whose code issued it (R122) and its ordinal
(R254). -/
structure TileReq where
  addr : Nat
  desc : BitVec 1024
  group : Nat
  ordinal : Nat
  /-- the queue entry's parity is in error (Table 1.7) -/
  bad : Bool
deriving DecidableEq, Repr

/-- The finished sum of one output element in an accumulator bank (R68): its row and column, the accumulator's code, the
events of its adds (Table 2.12's bit places) and its carries (R105). -/
structure AccElem where
  row : Nat
  col : Nat
  code : Nat
  events : Nat
  carries : List Nat
deriving DecidableEq, Repr

/-- A tile that a sequencer has taken (R80, R254 to R257). -/
structure TileRun where
  addr : Nat
  desc : BitVec 1024
  group : Nat
  ordinal : Nat
  /-- the virtual stage that it works for -/
  stage : Option Nat
  /-- selected for a shadow on the partner cell's gang -/
  shadow : Bool
  /-- it has started: its passes stream -/
  started : Bool := false
  /-- subtiles drained -/
  next : Nat := 0
  /-- the two accumulator banks of the gang's multiply-accumulate cells (R68): subtile `i` streams into bank `i` mod 2 -/
  bank0 : List AccElem := []
  bank1 : List AccElem := []
  /-- running row maxima and sums of the band (R88, R89) -/
  rowMax : List W32 := []
  rowSum : List W32 := []
  /-- held for a capture (R257) -/
  hold : Option Nat := none
  /-- its stage has halted: the subtile whose passes have ended is still drained, and nothing more (R82) -/
  ending : Bool := false
deriving DecidableEq, Repr

/-- A queued DMA transfer (R163). -/
structure DmaReq where
  src : Nat
  dst : Nat
  len : Nat
  tag : Nat
  /-- how many of its requests to a guest die have been sent -/
  issued : Nat
  /-- the queue entry's parity is in error (Table 1.7) -/
  bad : Bool
deriving DecidableEq, Repr

/-- One vector engine with its array group, tile sequencer and DMA engine. -/
structure EngineState where
  /-- v0 to v31; a cell uses the low 2 048 bits (Table 6.1) -/
  vregs : Store (BitVec 8192) := []
  /-- s0 to s31 -/
  sregs : Store W64 := []
  /-- p0 to p7; a cell uses the low 64 bits -/
  pregs : Store (BitVec 256) := []
  /-- index of the next instruction -/
  pc : Nat := 0
  /-- active loops, innermost first -/
  loops : List LoopFrame := []
  /-- how many of them were active when the cell entered its layer group (R121, R162) -/
  outerLoops : Nat := 0
  stat : EStat := .idle
  /-- V_OV, V_UF, V_NX, V_NV in bits 0 to 3 (Table 2.12) -/
  vflags : BitVec 4 := 0
  /-- A_OV, A_UF, A_NX, A_NV in bits 0 to 3 -/
  aflags : BitVec 4 := 0
  /-- the lost-element counter of Table 2.13 -/
  lost : W32 := 0
  tileQ : List TileReq := []
  inFlight : List TileRun := []
  dmaQ : List DmaReq := []
  /-- tiles issued in the current execution of a layer group, or since the last group end (R254), and the same count at
  the place where a resume of null-group code starts -/
  ordinal : Nat := 0
  restartOrdinal : Nat := 0
  /-- a CLS.TAKE of this engine waits on forward-in (R185) -/
  taking : Bool := false
  /-- vector registers whose parity is in error (Table 1.7) -/
  badRegs : List Nat := []
  /-- Inflector: the virtual stage whose rule runs -/
  ruleStage : Option Nat := none
  /-- Inflector: ready updates in the order in which they became ready (R227) -/
  ready : List Nat := []
  /-- Inflector: the run has issued COMMIT (R226) -/
  committed : Bool := false
  /-- Inflector: a rule was put in place while an update ran, and the registers become 0 before the next one (R136) -/
  clearDue : Bool := false
deriving DecidableEq, Repr

/-! ### Stages -/

/-- The four queues of a stage (R175 to R186). -/
structure InQueue where
  /-- Clauses delivered and not yet taken -/
  items : List (BitVec 512) := []
  /-- Clauses written into receive slots: the next expected SEQ and the ACCEPTED count -/
  delivered : Nat := 0
  /-- slots freed: the FREED count -/
  freed : Nat := 0
  /-- taken Clauses whose slots are not free yet, oldest first, as they were returned -/
  held : List (BitVec 512) := []
  /-- the newest of `held` that were taken since the stage's restart point and that a replay or resume rewinds (R457) -/
  rewindable : Nat := 0
  /-- how many of `held` a replay has yet to return again -/
  replay : Nat := 0
  /-- duplicates discarded (R181) -/
  dups : W32 := 0
  /-- SEQ of a Clause whose payload ran beyond its slot and that is refused (R338) -/
  refused : Option Nat := none
deriving DecidableEq, Repr

/-- An out-queue. -/
structure OutQueue where
  /-- Clauses as placed, with their SEQ -/
  items : List (BitVec 512) := []
  /-- Clauses held until the group's end (R125, R186), and whether each used a reservation -/
  heldBack : List (BitVec 512 × Bool) := []
  /-- SEQ of the next placement (R181) -/
  seq : Nat := 0
  /-- reservations of R184 -/
  reserved : Nat := 0
deriving DecidableEq, Repr

/-- A running execution of a layer group (R121 to R126). -/
structure Exec where
  group : Nat
  rung : Nat
  recomp : Bool
  /-- the group overflow bit, with the first and the lowest cell unit that set it -/
  ovf : Option (Nat × Nat)
deriving DecidableEq, Repr

/-- A micro-batch record (R183, R456): the bound tag's COMMIT and the rung recorded per forward group. -/
structure MbRecord where
  mb : Nat
  commit : Nat
  rungs : Store Nat
  /-- its place among the 4 096 of its virtual stage in the Clause store (Table 7.6) -/
  slot : Nat := 0
deriving DecidableEq, Repr

/-- A predictor slot (Table 5.6) and its open window. -/
structure PredSlot where
  group : Nat
  addr : Nat
  limit : W32
  amax : List W32
  widen : Bool
  skipped : W32
  /-- largest value of the window, absent when the group has not executed in it -/
  window : Option W32
  nonFinite : Bool
deriving DecidableEq, Repr

/-- A Tense slot record (Table 8.1). -/
structure TenseSlot where
  /-- state code of Table 8.2 -/
  state : Nat := 0
  commit : Nat := 0
  base : Nat := 0
  addr : Nat := 0
  dsize : Nat := 0
  sdigAddr : Nat := 0
  refs : Nat := 0
  shards : Nat := 0
  pin : Bool := false
  adig : W128 := 0
deriving DecidableEq, Repr

/-- The work that follows a flip (R205): the old present's count, its full buffer, whether its own encoding is
still due and the slots still to be rebased. -/
structure FlipJob where
  oldCommit : Nat
  oldBuffer : Nat
  encoded : Bool
  rebases : List Nat
  /-- the old present's slot, absent once it has retired -/
  slot : Option Nat
  /-- size of its delta once encoded, in units of 16 bytes -/
  dsize : Nat
deriving DecidableEq, Repr

/-- An installed rule (R222 to R225). -/
structure Rule where
  code : List W64
  /-- RULE code, FAMILY, WIRE (Table 9.1) -/
  kind : Nat
  matrix : Bool
  wire : Nat
deriving DecidableEq, Repr

/-- A rule or a table that waits for its AT (R240): the rule, with the ROWS of its groups where it is a matrix rule, and
what firmware writes. -/
structure LoadWait where
  commit : Nat
  rule : Option (Rule × List Nat)
  writes : List (Nat × List Byte)
deriving DecidableEq, Repr

/-- One rank's contribution to the reduction of an update (R233). -/
structure Contribution where
  update : Nat
  rank : Nat
  nonFinite : Bool
  /-- wire bytes received so far, in order -/
  data : List Byte
  whole : Bool
deriving DecidableEq, Repr

/-- The reduced shard of an update, complete at the owner (R233). -/
structure Reduced where
  update : Nat
  nonFinite : Bool
  /-- VOTE bytes of every group in order -/
  data : List Byte
deriving DecidableEq, Repr

/-- A GMAX value (R168): the update, the ordinal of the GMAX in it, the owner's rank, and the value. -/
structure GmaxValue where
  update : Nat
  ordinal : Nat
  rank : Nat
  value : W64
deriving DecidableEq, Repr

/-- An update of a stage (R228 to R247). -/
structure Update where
  /-- completed updates, ι -/
  done : Nat := 0
  /-- backward completions -/
  completions : Nat := 0
  /-- updates whose submit has run -/
  submitted : Nat := 0
  /-- the family and the wire format in which an update was submitted (Table 9.1): update, matrix rule, WIRE -/
  forms : List (Nat × Bool × Nat) := []
  contributions : List Contribution := []
  /-- a complete reduced shard not yet written into VOTE -/
  reduced : Option Reduced := none
  /-- the update whose reduced shard VOTE holds, and its reduced bit -/
  vote : Option (Nat × Bool) := none
  /-- the rule has been started for `done + 1` and has not ended -/
  building : Option Nat := none
  /-- the present COMMIT of the latest update that has started (R240) -/
  startedAt : Option Nat := none
  /-- the final verdict of the step, synchronous mode (R244) -/
  verdict : Option Bool := none
  /-- the update of the newest VERDICT_BACK and of the newest VERDICT_FWD placed, 0 for none (R244) -/
  placedBack : Nat := 0
  placedFwd : Nat := 0
  /-- the update whose verdict the stage has taken and is to pass on as VERDICT_FWD, 0 for none (R244) -/
  answering : Nat := 0
  /-- the reduced bit of the update that ended last -/
  lastBit : Option (Nat × Bool) := none
  /-- updates whose reduced shard has become complete here and whose gradient slot has been cleared (R229, R233) -/
  reductions : Nat := 0
  /-- GMAX instructions completed in this update, and the values of every owner, own ones among them -/
  gmax : Nat := 0
  gmaxVals : List GmaxValue := []
  /-- shards of the BUILDING image being received: (COMMIT, shard, bytes) and shards asked for again -/
  gather : List (Nat × Nat × List Byte) := []
  asked : List Nat := []
  /-- shards of the BUILDING image that have passed their digest check (R215) -/
  verified : List Nat := []
  /-- this owner's shard of the BUILDING image has been sent (R214) -/
  shardSent : Bool := false
deriving DecidableEq, Repr

/-- The digest accumulator of a stage (R169): idle, open or closed. -/
inductive DigState where
  | idle
  | opened
  | closed
deriving DecidableEq, Repr

/-- An Agreement record (R259). -/
structure AgreeRecord where
  commit : Nat
  d : Nat
  rank : Nat
  g : Nat
  z : Nat
  shard : Nat
  adig : W128
  c : W128
deriving DecidableEq, Repr

/-- What the image asks of the stage's own configuration, empty before STAGE_LOAD. -/
def emptyImage : StageImage :=
  ⟨0, 0, 0, 0, 0, [], [], [], [], [], 0, 0, 0, 0, 0, 0, [], [], [], [], [], [], 0, 0, 0, 0, 0, 0, 0, 0⟩

/-- One virtual stage. -/
structure Stage where
  loaded : Bool := false
  image : StageImage := emptyImage
  /-- event code of the halt, 0 while running, and whether it is final (R374) -/
  haltCode : Nat := 0
  haltFinal : Bool := false
  /-- event code of the halt of the stage's update, 0 while none has halted (R149) -/
  updateHalt : Nat := 0
  /-- the stage's final phase has come due in a pause for a check, and is held (R266) -/
  held : Bool := false
  /-- the stage has been started by JOB_START -/
  started : Bool := false
  /-- the stage stops at its next group end or after its update (R380) -/
  pauseAt : Nat := 0
  exec : Option Exec := none
  /-- null-group overflow since the last log entry: the first cell's unit (R129) -/
  nullOvf : Option Nat := none
  /-- the instruction after the last group end passed, where a resume of null-group code starts (R374) -/
  restart : Nat := 0
  /-- rung of the latest ordinary execution per group in the window, and executions in the window -/
  windowRungs : Store Nat := []
  windowExecs : Store Nat := []
  preds : List PredSlot := []
  prewidened : List Nat := []
  log : Store (BitVec 256) := []
  logSeq : Nat := 0
  logRead : Nat := 0
  replayR1 : W32 := 0
  replayR2 : W32 := 0
  propagated : W32 := 0
  prewidenedCount : W32 := 0
  logOverrun : W32 := 0
  forwardIn : InQueue := {}
  backwardIn : InQueue := {}
  forwardOut : OutQueue := {}
  backwardOut : OutQueue := {}
  /-- FORWARD takes since JOB_START, k -/
  takes : Nat := 0
  records : List MbRecord := []
  /-- KIND, MB_ID and COMMIT of the current take (R456) -/
  current : Option (Nat × Nat × Nat) := none
  /-- position 0: an MB_ID whose record the next backward take releases (R183) -/
  releaseNext : Option Nat := none
  /-- class counters of Table 14.13 -/
  takenV : W64 := 0
  takenS : W64 := 0
  lenV : W64 := 0
  lenS : W64 := 0
  tenses : List TenseSlot := []
  viewForward : Option Nat := none
  viewBackward : Option Nat := none
  /-- a take that waits for a fill of its view: backward, COMMIT (R203) -/
  wantForward : Option Nat := none
  wantBackward : Option Nat := none
  pastBudget : Nat := 0
  spillSize : Nat := 0
  /-- full buffer of the present Tense, and which master and moment pair is present (R241) -/
  fullBuffer : Nat := 0
  masterRole : Nat := 0
  flip : Option FlipJob := none
  rule : Option Rule := none
  /-- rules and tables that wait for their AT, oldest first (R240) -/
  loads : List LoadWait := []
  update : Update := {}
  dig : DigState := .idle
  digValue : W128 := 0
  digLen : Nat := 0
  /-- a COMMIT that waits for its final phase (R170): the engine's VD when it is held -/
  committing : Option (Option Nat) := none
  /-- the digest that its FINAL gave (R169) -/
  commitDig : W128 := 0
  skips : W32 := 0
  longsum : Bool := false
  /-- code of Table 10.1, the key, and a setting that waits for the next layer-group entry -/
  shadowCode : Nat := 2
  shadowKey : W64 := 0
  shadowNext : Option (Nat × W64 × Option Bool) := none
  exchanges : List (Nat × List AgreeRecord) := []
deriving DecidableEq, Repr

/-! ### Job, host interface, links -/

/-- The job (R373, R377). -/
structure Job where
  /-- state code of Table 14.8 -/
  state : Nat := 0
  id : W32 := 0
  seed : W64 := 0
  g : Nat := 1
  rank : Nat := 0
  z : Nat := 1
  timeout : Nat := 500
  offloadMib : Nat := 40
  exportMib : Nat := 16
  bar2Mib : Nat := 8
  agreeD : Nat := 16
  /-- response LOG instead of PAUSE to a shadow and to an Agreement mismatch (R266) -/
  respLog : Bool := false
  agreeLog : Bool := false
  /-- a field test has overwritten HBM of the job (R262) -/
  overwritten : Bool := false
  restores : W32 := 0
  exports : W32 := 0
  /-- why the job is stopping: reason code of R454 -/
  pauseReason : Nat := 0
  /-- exports in progress: port, number, stage, COMMIT -/
  exporting : List (Nat × Nat × Nat × Nat) := []
  /-- numbers of those that another export of the same command follows (R376) -/
  exportMore : List Nat := []
  /-- the loader's next OFFSET of a stage image in parts (R378) -/
  loadOffset : Nat := 0
deriving DecidableEq, Repr

/-- A command that has started and has not completed. -/
structure Running where
  mb : Mailbox
  cmdId : W32
  opcode : W16
deriving DecidableEq, Repr

/-- Registers and indexes of one host mailbox (Table 14.4). -/
structure MailboxRegs where
  cmdBase : W64 := 0
  cmpBase : W64 := 0
  ctrl : W32 := 0
  cfgStatus : W16 := 0
  cmdTail : W32 := 0
  cmpHead : W32 := 0
  cmdHead : W32 := 0
  cmpTail : W32 := 0
  phase : Bool := false
  /-- entries read and not yet started; CMD_HEAD stands after the last of them (R364) -/
  waiting : Nat := 0
  /-- the coalescing timer runs (R365) -/
  timer : Bool := false
deriving DecidableEq, Repr

/-- A transfer chunk that waits for a host DMA engine (R448): class 0 OFFLOAD, 1 BAR2, 2 EXPORT. -/
structure Chunk where
  cls : Nat
  /-- write into package memory, or read from it -/
  write : Bool
  addr : Nat
  len : Nat
  data : List Byte
deriving DecidableEq, Repr

/-- One firewall block (Table 12.12). -/
structure Firewall where
  ctrl : W32 := 0
  cls : W32 := 0
  denied : W32 := 0
  protoErrors : W32 := 0
  lastDenied : W64 := 0
  /-- WIN_BASE, WIN_SIZE, WIN_CTRL, WIN_RATE of window w at keys 4w to 4w + 3 -/
  windows : Store W64 := []
deriving DecidableEq, Repr

/-- The host interface. -/
structure HostIf where
  bar2Base : BitVec 18 := 0
  bar2En : Bool := false
  bar2Invalid : Bool := false
  bar2Errors : W32 := 0
  eventDrops : W32 := 0
  mailboxes : Store MailboxRegs := []
  /-- MSI-X table dwords, and pending bits (R356, R365) -/
  msixTable : Store W32 := []
  msixPending : W64 := 0
  /-- MSI-X Enable and Function Mask of the function's MSI-X capability (R356, R365) -/
  msixOn : Bool := true
  msixMasked : Bool := false
  /-- lower half of a 64-bit register awaiting its upper half, by offset (R357) -/
  halves : Store W32 := []
  d3 : Bool := false
  chunks : List Chunk := []
  firewalls : Store Firewall := []
deriving DecidableEq, Repr

/-- A frame that waits for acknowledgement: its header, and its payload as bytes or as a source address (R340). -/
structure TxFrame where
  header : BitVec 256
  src : Option Nat
  data : List Byte
  /-- the virtual stage that sends it, or 16 -/
  owner : Nat := 16
  /-- times that it has been sent again in its retry window; 0 while no window is open (R342) -/
  resends : Nat := 0
deriving DecidableEq, Repr

/-- A message that a port has to send or has sent and that is not yet accepted (R338, R344 to R346). -/
structure OutMsg where
  /-- the virtual stage that sends it, or 16 -/
  owner : Nat
  /-- frame type and SUB of its frames -/
  type : Nat
  sub : Nat
  stage : Nat
  tag : Nat
  dstRank : Nat
  /-- stream class of Table 13.6a, or 5 for frames that need no stream credit -/
  cls : Nat
  /-- source address of the payload, or bytes -/
  src : Option Nat
  data : List Byte
  len : Nat
  /-- OFFSET of its first frame: a GMAX ordinal -/
  base : Nat
  /-- the Clause that follows a payload -/
  clause : Option (BitVec 512)
  /-- payload bytes already cut into frames -/
  sent : Nat
  started : Bool
  finished : Bool
  /-- frames forwarded for another module -/
  forward : Option (BitVec 256)
deriving DecidableEq, Repr

/-- Stream credit of one stream (Table 13.6). -/
structure Credit where
  freed : W32 := 0
  accepted : W32 := 0
  aux : W32 := 0
deriving DecidableEq, Repr

/-- A Conjunction port. -/
structure Port where
  /-- code of Table 13.2 and role of Table 13.3 -/
  state : Nat := 0
  role : Nat := 0
  partnerSerial : W64 := 0
  partnerPort : Nat := 0
  partnerRole : Nat := 0
  partnerRank : Nat := 0
  /-- a partner accepted since JOB_START -/
  accepted : Bool := false
  helloSent : Bool := false
  helloOk : Bool := false
  txSeq : W32 := 0
  unacked : List TxFrame := []
  rxSeq : W32 := 0
  rxAny : Bool := false
  nakOut : Bool := false
  sinceAck : Nat := 0
  attempts : Nat := 0
  signalLost : Bool := false
  /-- frame buffers freed, as the partner reports and as this port reports (R343) -/
  linkCredit : W32 := 0
  linkFreed : W32 := 0
  credits : Store Credit := []
  out : List OutMsg := []
  /-- CREDIT entries as last sent, with the rank that each is for (R344) -/
  creditSent : List (Nat × BitVec 128) := []
  /-- stage entries of the partner's HELLO (Table 13.7) -/
  partnerStages : List (BitVec 128) := []
  /-- the twelve counters of Table 13.9 -/
  counters : Store W64 := []
  /-- uptime at the last EV_CJ_PROTOCOL (R339) -/
  protoAt : Option Nat := none
deriving DecidableEq, Repr

/-- One Phrase direction at its sender (R304 to R306). -/
structure Phrase where
  /-- 0 up, 1 retraining, 2 down, 3 requests a retrain -/
  state : Nat := 0
  attempts : Nat := 0
  fails : Nat := 0
  /-- next group to send, last group acknowledged, modulo 256 -/
  group : Byte := 0
  acked : Byte := 255
  /-- flits sent, and flit buffers freed, modulo 1024 -/
  flits : BitVec 10 := 0
  credits : BitVec 10 := 0
  /-- a CRC failure has been counted whose NAK has not come yet (R306) -/
  failed : Bool := false
deriving DecidableEq, Repr

/-- A message of one channel that is not performed yet (R308): whether a Phrase carries it, which one, the number of its last
group there, whether the CRC of its groups matches when it is sent, whether its flits have been accepted, and its write. -/
structure PhraseMsg where
  sent : Bool
  idx : Nat
  last : Byte
  crcOk : Bool
  accepted : Bool
  addr : Nat
  data : List Byte
deriving DecidableEq, Repr

/-- A request that the hub has sent to a guest: its TAG, whether it writes, where the answer goes, and the engine that
waits for it, or 0. -/
structure GuestReq where
  tag : Nat
  write : Bool
  /-- package address in the guest's window -/
  addr : Nat
  place : Nat
  len : Nat
  engine : Nat
deriving DecidableEq, Repr

/-- An Apposition port and its guest (R323 to R331). -/
structure Appo where
  /-- code of PORT_STATUS.STATE, RATE and IDENT_OK -/
  state : Nat := 0
  rate : BitVec 2 := 0
  identOk : Bool := false
  attempts : Nat := 0
  txSeq : W16 := 0
  rxSeq : W16 := 0
  unacked : List (BitVec 512 × List Byte) := []
  /-- messages that wait while 1 024 are unacknowledged -/
  out : List (BitVec 512 × List Byte) := []
  /-- resends of the oldest message, and whether the link has been retrained for it -/
  fails : Nat := 0
  retrained : Bool := false
  /-- failures of the message that is expected next (R326) -/
  rxFails : Nat := 0
  /-- messages accepted since the last acknowledgement -/
  sinceAck : Nat := 0
  requests : List GuestReq := []
  /-- commands of the port's guest mailboxes that wait to be taken, oldest first (R331) -/
  waiting : List Cmd := []
  /-- EVENT messages forwarded in the second of uptime `eventSecond` -/
  events : Nat := 0
  eventSecond : Nat := 0
  /-- uptime in µs at the last EV_GUEST_PROTOCOL and EV_GUEST_DENIED -/
  protoAt : Option Nat := none
  deniedAt : Option Nat := none
deriving DecidableEq, Repr

/-! ### Ingest -/

/-- A reservoir slot (R293): its place in the reservoir area, the emission place whose clip it holds, the clip, its drop
reason, the pictures replaced, and its tensor scale. The clip's bytes lie in the area. -/
structure ReservoirSlot where
  index : Nat
  place : Nat
  clip : Nat
  reason : Nat
  concealed : Nat
  tscale : Nat
deriving DecidableEq, Repr

/-- A bound ingest namespace (R275): its number, the storage port and namespace identifier behind it, or the host
region's base. -/
structure IngestNs where
  num : Nat
  host : Bool
  port : Nat
  nsid : Nat
  base : Nat
deriving DecidableEq, Repr

/-- The ingest parameters of R301 (R274, R284 to R291). -/
structure IngestParams where
  tableNs : Nat := 0
  tableBase : Nat := 0
  n : Nat := 1
  c : Nat := 4
  w : Nat := 1024
  seed : W64 := 0
  fp8 : Bool := false
  random : Bool := false
  field : Bool := false
  ycbcr : Bool := false
  aspect : Bool := false
  outW : Nat := 256
  outH : Nat := 256
  fps : Nat := 12
  tOut : Nat := 24
  pt : Nat := 2
  ph : Nat := 16
  pw : Nat := 16
  clsS : Bool := false
  conceal : Bool := false
  concealMax : Nat := 12
  offlineDrop : Bool := false
  audioRate : Nat := 0
  audioChannels : Nat := 1
  /-- a_c and b_c as FP32 codes -/
  a : List W32 := [0x3F800000, 0x3F800000, 0x3F800000]
  b : List W32 := [0, 0, 0]
  reservoir : Nat := 0
  reservoirLen : Nat := 0
  namespaces : List IngestNs := []
deriving DecidableEq, Repr

/-- The ingest die and the positions that the hub keeps for it (11). -/
structure Ingest where
  isOpen : Bool := false
  params : IngestParams := {}
  offline : List Nat := []
  /-- failed attempts of a Read, by place; failed Reads in a row, by controller -/
  retries : Store Nat := []
  failRow : Store Nat := []
  e0 : Nat := 0
  n0 : Nat := 0
  epochBase : W64 := 0
  eLim : Option Nat := none
  placed : Nat := 0
  consumed : Nat := 0
  slots : List ReservoirSlot := []
  /-- places whose clip is to be dropped for a failed Read -/
  failedReads : List Nat := []
  contexts : Store (BitVec 512) := []
  lru : W64 := 0
  /-- clips in progress: the place of each and the context that it has pinned (R279) -/
  pins : List (Nat × Nat) := []
  /-- bifurcation of ST0 to ST3, one bit a port, as latched at DISCOVERY (R273) -/
  bifurcation : BitVec 4 := 0
  /-- the counters of Table 11.9, in order -/
  counters : Store W64 := []
  /-- placement has stopped, or stops when PLACED reaches a number (R299, R380) -/
  stopped : Bool := false
  stopAt : Option Nat := none
  /-- the die has come back and EV_INGEST_REJOIN is due; it waits for INGEST_POSITION (R300) -/
  rejoinPending : Bool := false
  awaitPosition : Bool := false
  endRaised : Bool := false
deriving DecidableEq, Repr

/-! ### Faults, flash, management -/

/-- A fault record's contents (R270): every field of Table 10.6 but SEQ, POH_MIN and CRC. -/
structure RecordReq where
  unit : Nat
  cls : Nat
  phys : Nat
  kind : Nat
  verdict : Nat
  stage : Nat
  capture : Nat
  detail0 : Nat
  detail1 : Nat
deriving DecidableEq, Repr

/-- A capture entry (R258). -/
structure Capture where
  engine : Nat
  desc : BitVec 1024
  row : Nat
  col : Nat
  seed : W64
  operands : List Byte
  homeDig : W128
  partnerDig : W128
  /-- 0 unclassified, 1 kept as PATTERN -/
  kept : Bool
  mbId : Nat
  stage : Nat
  /-- repeated in the present pause or test without a verdict (R265) -/
  tried : Bool
deriving DecidableEq, Repr

/-- A field test under way (R262, R453): its scope, unit address and test mask, the PARTIAL flag, and its command. -/
structure FieldTest where
  scope : Nat
  unit : Nat
  mask : Nat
  part : Bool
  cmd : Running
deriving DecidableEq, Repr

/-- Faults and their history (10). -/
structure Faults where
  /-- the flash ring, oldest first (R270) -/
  records : List (BitVec 256) := []
  seq : W32 := 0
  poh : W32 := 0
  /-- records that firmware has still to write, with POH_MIN of each -/
  toWrite : List (RecordReq × W32) := []
  captures : Store (Option Capture) := []
  captureFull : W32 := 0
  shadowCancelled : W32 := 0
  /-- corrected errors of the hour by unit -/
  corrected : Store Nat := []
  /-- demotions since manufacture (R9) -/
  demotions : Nat := 0
  /-- physical quads that demotions have disabled, by cell (R25, R75) -/
  quadsOff : Store (List Nat) := []
  /-- retired units: unit address, class and PHYS (R268) -/
  retired : List (Nat × Nat × Nat) := []
  /-- unit address and class of those that were retired since the job was created -/
  retiredInJob : List (Nat × Nat) := []
  /-- SEQ of a record whose verdict is on another unit than the one it names, with that unit and class
  (R264, R265) -/
  suspects : List (Nat × Nat × Nat) := []
  /-- a field test under way -/
  test : Option FieldTest := none
deriving DecidableEq, Repr

/-- The flash but for the fault history (R394, R399 to R401), and the fused SVN. -/
structure Flash where
  slotA : List Byte := Config.slotImage 0
  slotB : List Byte := Config.slotImage 1
  recovery : List Byte := Config.slotImage 2
  activeB : Bool := false
  trial : Bool := false
  /-- a boot of the trial slot has been made and has not committed -/
  trialBooted : Bool := false
  svn : Nat := Config.fusedSvn.val
  /-- the network settings; empty while the record is absent (R394) -/
  net : List Byte := []
  /-- the boot record is torn: its page fails its CRC-32C (R417) -/
  bootTorn : Bool := false
  plan : List W64 := []
  bifurcation : BitVec 4 := 0
deriving DecidableEq, Repr

/-- SPDM connection state of one transport (R396). -/
structure Spdm where
  version : Bool := false
  caps : Bool := false
  algs : Bool := false
  /-- what signatures cover (DSP0274): the messages of version, capabilities and algorithms; those about certificates since the
  last CHALLENGE; and those of unsigned measurements -/
  vca : List Byte := []
  certs : List Byte := []
  measured : List Byte := []
deriving DecidableEq, Repr

/-- A firmware update in progress (R402). -/
structure FwUpdate where
  component : Nat
  slotB : Bool
  data : Store Byte
  size : Nat
  verified : Bool
deriving DecidableEq, Repr

/-- The management interfaces (15). -/
structure Mgmt where
  i3cAddr : Option (BitVec 7) := none
  eid : Byte := 0
  /-- terminus ID of PLDM base -/
  tid : Byte := 0
  mctpDrops : W32 := 0
  eventDrops : W32 := 0
  /-- PLDM event queue: records with the sends made -/
  plq : List (List Byte × Nat) := []
  streamQ : List (List Byte) := []
  streamSeq : W32 := 0
  /-- settings in force -/
  net : List Byte := []
  spdm0 : Spdm := {}
  spdm1 : Spdm := {}
  measurements : Store (List Byte) := []
  update : Option FwUpdate := none
  /-- commands of the management mailboxes that wait to be taken, oldest first (R392) -/
  waiting : List Cmd := []
deriving DecidableEq, Repr

/-- A BRINGUP_ADVANCE in progress (R408, R411). -/
structure Advance where
  target : Nat
  cmd : Option Running
  /-- steps 12 to 18 have begun -/
  begun : Bool
  /-- it was stopped and reduced service is being restored -/
  restoring : Bool
deriving DecidableEq, Repr

/-- Bring-up, resets, clocks, pins and cooling (16, 17), and the status registers of BAR0. -/
structure Chip where
  bringup : Nat := 0
  service : Nat := 0
  fwSlot : Nat := 0
  /-- VERSION and SVN of the running firmware -/
  fwVersion : W32 := 0
  fwSvn : Nat := 0
  thermalTrip : Bool := false
  outOfService : Bool := false
  parserFault : Bool := false
  bootFail : Bool := false
  thermalSeen : Bool := false
  uptime : W64 := 0
  fenceDone : Bool := false
  /-- a fence under way, and the basic HALTs that wait for its DONE, oldest first (R452) -/
  fencing : Bool := false
  haltWaits : List Running := []
  statusIrqEn : Bool := false
  powered : Bool := true
  regulatorLatched : Bool := false
  moduleReset : Bool := false
  perst : Bool := false
  refclk : Bool := true
  slotId : BitVec 3 := 0
  resetCause : Byte := 1
  resetCount : W32 := 0
  /-- the root PLL divider of the ARITH domain -/
  arithDiv : Nat := 16
  clocksGated : Bool := false
  selfRefresh : Bool := false
  decodeOn : Bool := false
  hbmRate : Nat := 0
  advance : Option Advance := none
  /-- the manifest check failed: BRINGUP_ADVANCE is refused (R319) -/
  manifestBad : Bool := false
  /-- bring-up cannot go on in this state (R407) -/
  stopped : Bool := false
  /-- where automatic progress stops (R408) -/
  autoTo : Nat := 4
  parked : Bool := false
  /-- microseconds idle toward the next power-on minute -/
  minuteUs : Nat := 0
  sensors : Store W16 := []
  thermL : Bool := false
  hottest : Option (W16 × W16) := none
  parserHeld : Bool := false
  lost : Byte := 0
  lanePlan : List W64 := []
  planInForce : Bool := false
  /-- the boot record is being written (R417) -/
  bootWriting : Bool := false
  /-- root ports that step 15 of Table 16.2 has trained since the package reset (R425) -/
  storageUp : BitVec 4 := 0
deriving DecidableEq, Repr

/-- What the block has sent outward, newest first: the model's own record. -/
inductive Sent where
  | frame (port : Nat) (header : BitVec 256) (src : Option Nat) (data : List Byte)
  | apposition (port : Nat) (header : BitVec 512) (data : List Byte)
  | msix (vector : Nat) (addr data : Nat)
  | read (data : List Byte)
  | completerAbort
  /-- one MCTP packet to the controller: first of its message, last of it, packet number, and at most 64 bytes (R389) -/
  | mctp (som eom : Bool) (seq : Nat) (data : List Byte)
  /-- an in-band interrupt on I3C (R388) -/
  | inBandInterrupt
  /-- a UDP datagram: IPv4 addresses of the module, of the collector and of the next hop, both ports (Table 15.5), and its
  payload -/
  | datagram (src dst hop : List Byte) (srcPort dstPort : Nat) (data : List Byte)
  | ethernet (data : List Byte)
  | doe (data : List Byte)
  | flowControl (die peer idx : Nat) (resendFrom : Nat)
deriving DecidableEq, Repr

/-- The state of the block. -/
structure State where
  /-- the commands that wait, first in, first out -/
  pending : List Instr := []
  /-- the model's counter behind the free values (log 3) -/
  freeCount : Nat := 0
  chip : Chip := {}
  /-- package memory (Table 1.6): an unlisted byte reads 0 -/
  mem : Memory := []
  /-- 64-bit words that cannot be corrected (R36), by address -/
  badWords : List Nat := []
  /-- host memory as far as the device has touched it (log 4) -/
  hostMem : Memory := []
  engines : Store EngineState := []
  stages : Store Stage := []
  job : Job := {}
  host : HostIf := {}
  ports : Store Port := []
  routes : List Nat := []
  /-- frames that wait in the Conjunction transit area (R352) -/
  transit : List OutMsg := []
  phrases : Store Phrase := []
  channels : Store Nat := []
  /-- messages of each channel that wait for one before them, or for their own resend -/
  inFlight : Store (List PhraseMsg) := []
  appo : Store Appo := []
  ingest : Ingest := {}
  faults : Faults := {}
  flash : Flash := {}
  mgmt : Mgmt := {}
  /-- sequence number of each event source (R271), by unit address and class -/
  evSeq : Store W32 := []
  /-- commands started and not completed -/
  running : List Running := []
  sent : List Sent := []
deriving DecidableEq, Repr

/-- The machine right after reset: RESET, with the supply present and nothing run yet. -/
def State.reset : State := {}

end Sys2Proof.Machine
end

