-- ==== Sys2Proof/Machine/Ops.lean ====
section
/-!
DEFINITION. Sys2Proof/Machine/Ops.lean: the shared operations: reading and changing one part of the state, unit
addresses, events on their three paths, completions, halting a stage, and the address map.
-/
namespace Sys2Proof.Machine

/-! ### Parts of the state -/

/-- Engine number `k` (its unit address divided by 64). -/
def State.eng (s : State) (k : Nat) : EngineState := sget {} s.engines k
/-- Virtual stage `v`. -/
def State.stage (s : State) (v : Nat) : Stage := sget {} s.stages v
/-- Conjunction port `p`. -/
def State.port (s : State) (p : Nat) : Port := sget {} s.ports p
/-- Host mailbox `m`. -/
def State.mailbox (s : State) (m : Nat) : MailboxRegs := sget {} s.host.mailboxes m
/-- Apposition port `p`. -/
def State.ap (s : State) (p : Nat) : Appo := sget {} s.appo p

/-- Change one engine. -/
def State.updEng (s : State) (k : Nat) (f : EngineState → EngineState) : State :=
  { s with engines := supd {} k f s.engines }
/-- Change one stage. -/
def State.updStage (s : State) (v : Nat) (f : Stage → Stage) : State :=
  { s with stages := supd {} v f s.stages }
/-- Change one Conjunction port. -/
def State.updPort (s : State) (p : Nat) (f : Port → Port) : State :=
  { s with ports := supd {} p f s.ports }
/-- Change one host mailbox. -/
def State.updMailbox (s : State) (m : Nat) (f : MailboxRegs → MailboxRegs) : State :=
  { s with host := { s.host with mailboxes := supd {} m f s.host.mailboxes } }
/-- Change one Apposition port. -/
def State.updAp (s : State) (p : Nat) (f : Appo → Appo) : State :=
  { s with appo := supd {} p f s.appo }
/-- Change the chip. -/
def State.updChip (s : State) (f : Chip → Chip) : State := { s with chip := f s.chip }
/-- Change the job. -/
def State.updJob (s : State) (f : Job → Job) : State := { s with job := f s.job }
/-- Change the ingest die. -/
def State.updIngest (s : State) (f : Ingest → Ingest) : State := { s with ingest := f s.ingest }
/-- Change faults and history. -/
def State.updFaults (s : State) (f : Faults → Faults) : State := { s with faults := f s.faults }
/-- Change the management interfaces. -/
def State.updMgmt (s : State) (f : Mgmt → Mgmt) : State := { s with mgmt := f s.mgmt }
/-- Note what leaves the block. -/
def State.send (s : State) (x : Sent) : State := { s with sent := x :: s.sent }
/-- Write a run of bytes into package memory. -/
def State.store (s : State) (a : Nat) (bs : List Byte) : State := { s with mem := memWriteBytes s.mem a bs }
/-- Bytes of package memory. -/
def State.load (s : State) (a n : Nat) : List Byte := memBytes s.mem a n

/-- Bytes that an address range holds, in package memory or in host memory (R31). -/
def State.fetch (s : State) (a n : Nat) : List Byte := if a ≥ 2 ^ 47 then memBytes s.hostMem (a - 2 ^ 47) n else s.load a n

/-- Apply `f` to every element of a list, left to right. -/
def forEach {α : Type} (xs : List α) (f : α → State → State) (s : State) : State :=
  xs.foldl (fun s x => f x s) s

/-- Bit of a Boolean. -/
def bit (b : Bool) : Nat := if b then 1 else 0

/-- 1 added to a saturating counter (R446). -/
def satInc {w : Nat} (c : BitVec w) : BitVec w := satAdd c 1

/-! ### Unit addresses (Table 1.3) -/

/-- A unit address. -/
def unitAddr (die cell array : Nat) : Nat := die * 8192 + cell * 64 + array

/-- Number of an engine. -/
def engKey : Engine → Nat
  | .cell d c => (d.val + 1) * 128 + c.val
  | .inflector d => (d.val + 1) * 128 + 97

/-- Is engine `k` an Inflector's? -/
def isInflector (k : Nat) : Bool := k % 128 == 97
/-- Die of engine `k`. -/
def dieOf (k : Nat) : Nat := k / 128
/-- Unit address and class of a vector engine (R149). -/
def engUnit (k : Nat) : Nat × Nat := (k * 64, if isInflector k then 0 else 1)
/-- The Parser (0, 96, 0). -/
def parserUnit : Nat := unitAddr 0 96 0
/-- A Conjunction port (0, 98, n). -/
def portUnit (n : Nat) : Nat := unitAddr 0 98 n
/-- The Inflector vector engine, Tense logic and gradient port (k, 97, 0). -/
def tenseUnit (die : Nat) : Nat := unitAddr die 97 0

/-- Is a unit address one that Tables 1.3 and 1.4 list (R27)? A guest site counts where it is populated. -/
def unitValid (u : Nat) : Bool :=
  let d := u / 8192
  let c := u / 64 % 128
  let a := u % 64
  let compute := decide (1 ≤ d ∧ d ≤ 4)
  let limit : Option Nat :=
    if c < 96 then (if compute then some 63 else none)
    else match c with
    | 96 => if compute then some 63 else if d = 0 ∨ d = 5 then some 3 else none
    | 97 => if d ≤ 5 then some 0 else none
    | 98 => if d = 0 ∨ d = 5 then some 7 else none
    | 99 => if d = 0 then some 1 else if d = 5 then some 31 else none
    | 100 => if compute then some 0 else if d = 0 then some 1 else if d = 5 then some 15 else none
    | 101 => if compute then some 0 else if d = 0 then some 1 else if d = 5 then some 15 else none
    | 102 => if d ≤ 5 then some 0 else none
    | 103 => if d = 0 ∨ d = 5 then some 0 else none
    | 112 => if d ≤ 5 then some 0 else none
    | 113 => if d ≤ 5 then some 0 else none
    | 118 => if d = 0 then some 7 else none
    | 119 => if d ≤ 5 then some 0 else none
    | 120 => if d ≤ 5 then some 0 else none
    | 127 => if d = 6 ∨ d = 7 then (if Config.siteType d = 0xF0 then some 0 else none) else none
    | _ =>
      if 114 ≤ c ∧ c ≤ 117 then (if d = 0 then some 0 else none)
      else if 104 ≤ c ∧ c ≤ 111 then
        let peer := c - 104
        if d = 0 then (if 1 ≤ peer ∧ peer ≤ 4 then some 63 else if peer = 5 then some 15 else none)
        else if d = 5 then (if peer = 0 then some 15 else none)
        else if compute then
          (if peer = 0 then some 63
           else if 1 ≤ peer ∧ peer ≤ 4 ∧ peer % 2 ≠ d % 2 then some 31 else none)
        else none
      else none
  match limit with
  | some n => decide (a ≤ n)
  | none => false

/-- Is a unit class one of Table 1.5 that fits its unit address: classes 1 to 6 name units of a cell, with ARRAY 0 (R29)? -/
def unitClassOk (u cls : Nat) : Bool :=
  unitValid u && (cls == 0 || (decide (cls ≤ 6) && decide (u / 64 % 128 < 96) && u % 64 == 0))

/-! ### Events (R271, R371, R391, R393, R455) -/

/-- Lay out items as (width, value), each at the next multiple of its width (R371). -/
def bodyGo : Nat → List (Nat × Nat) → List Byte
  | _, [] => []
  | off, (w, x) :: t =>
    let pad := alignUp off w - off
    List.replicate pad 0 ++ leBytes w x ++ bodyGo (off + pad + w) t
/-- An event body. -/
def body (items : List (Nat × Nat)) : List Byte := bodyGo 0 items

/-- A byte list cut or padded with zeros to `n` bytes. -/
def fit (n : Nat) (bs : List Byte) : List Byte := bs.take n ++ List.replicate (n - bs.length) 0

/-- The 128-byte event record of Table 15.3. -/
def eventRecord (uptime seq code unit cls : Nat) (bs : List Byte) : List Byte :=
  leBytes 8 Config.serial.toNat ++ leBytes 8 uptime ++ leBytes 4 seq ++ leBytes 2 code ++ leBytes 2 unit ++
    leBytes 1 cls ++ leBytes 1 bs.length ++ List.replicate 6 0 ++ fit 88 bs ++ List.replicate 8 0

/-- MSI-X table dword `i`; a vector control dword resets to masked, as PCI Express has it (log 2). -/
def msixDword (s : State) (i : Nat) : W32 := sget (if i % 4 = 3 then 1 else 0) s.host.msixTable i

/-- Send the message of vector `v`, or set its pending bit while it or the function is masked; with MSI-X not enabled no
message is sent (R365). -/
def sendMsix (v : Nat) (s : State) : State :=
  if !s.host.msixOn then s
  else if s.host.msixMasked || (msixDword s (4 * v + 3)).getLsbD 0 then
    { s with host := { s.host with msixPending := s.host.msixPending ||| (1#64 <<< v) } }
  else
    s.send (.msix v ((msixDword s (4 * v)).toNat + 2 ^ 32 * (msixDword s (4 * v + 1)).toNat)
      (msixDword s (4 * v + 2)).toNat)

/-- Vector 63 while STATUS_IRQ.EN is 1 (R365). -/
def statusIrq (s : State) : State := if s.chip.statusIrqEn then sendMsix 63 s else s

/-- Ring size of a mailbox (R362). -/
def MailboxRegs.size (m : MailboxRegs) : Nat := 2 ^ bits m.ctrl.toNat 11 8
/-- MB_CTRL.ENABLE. -/
def MailboxRegs.enabled (m : MailboxRegs) : Bool := m.ctrl.getLsbD 0
/-- MiB of a class's partition of the transfer SRAM: 0 OFFLOAD, 1 BAR2, 2 EXPORT; while no job exists the default applies
(R447). -/
def State.partition (s : State) (cls : Nat) : Nat :=
  if s.job.state = 0 then [40, 8, 16].getD cls 0 else [s.job.offloadMib, s.job.bar2Mib, s.job.exportMib].getD cls 0
/-- An OFFLOAD partition with no space is full: its class waits (R447, R448). -/
def State.offloadWaits (s : State) : Bool := s.partition 0 == 0

/-- Entries made available and not yet started: those that the device has read, and those up to CMD_TAIL (R364). -/
def MailboxRegs.held (m : MailboxRegs) : Nat := m.waiting + (m.cmdTail.toNat + m.size - m.cmdHead.toNat) % m.size
/-- Index of the entry that starts next. -/
def MailboxRegs.nextCmd (m : MailboxRegs) : Nat := (m.cmdHead.toNat + m.size * (m.waiting + 1) - m.waiting) % m.size
/-- The device reads the entries from CMD_HEAD up to CMD_TAIL, advancing CMD_HEAD past each (R364). -/
def MailboxRegs.readEntries (m : MailboxRegs) : MailboxRegs := { m with waiting := m.held, cmdHead := m.cmdTail }
/-- Completion entries that can still be written while one stays free (R364, R372). -/
def MailboxRegs.room (m : MailboxRegs) : Nat :=
  (m.cmpHead.toNat + 2 * m.size - m.cmpTail.toNat - 1) % m.size

/-- Write one completion entry with the current phase and advance CMP_TAIL (R364); `low` holds the entry's bytes
4 to 63 and `flags` its CONT and EVENT bits. -/
def putEntry (m : Nat) (flags : Nat) (rest : List Byte) (s : State) : State :=
  let r := s.mailbox m
  let a := r.cmpBase.toNat + 64 * r.cmpTail.toNat
  let t := (r.cmpTail.toNat + 1) % r.size
  let s := { s with hostMem := memWriteBytes s.hostMem a (leBytes 4 (flags + bit r.phase) ++ rest) }
  s.updMailbox m fun r => { r with cmpTail := BitVec.ofNat 32 t, phase := if t = 0 then !r.phase else r.phase }

/-- Signal a mailbox's vector, at once or through its coalescing timer (R365). -/
def signalMailbox (m : Nat) (s : State) : State :=
  let r := s.mailbox m
  if r.ctrl.getLsbD 1 then
    if bits r.ctrl.toNat 31 24 = 0 then sendMsix (bits r.ctrl.toNat 21 16) s
    else s.updMailbox m fun r => { r with timer := true }
  else s

/-- The host copy of an event: one or two entries in mailbox 0's ring, or a drop that is counted (R372). -/
def hostEvent (code unit cls seq : Nat) (bs : List Byte) (s : State) : State :=
  let r := s.mailbox 0
  let two := decide (bs.length > 32)
  if r.enabled && decide (r.room ≥ (if two then 3 else 2)) then
    let hd := leBytes 4 0 ++ leBytes 8 s.chip.uptime.toNat ++ leBytes 2 0 ++ leBytes 2 code ++
      leBytes 2 (cls * 4096) ++ leBytes 2 unit ++ leBytes 4 seq ++ leBytes 4 0 ++ fit 32 bs
    let s := putEntry 0 2 hd s
    let s := if two then putEntry 0 6 (leBytes 4 0 ++ fit 56 (bs.drop 32)) s else s
    signalMailbox 0 s
  else { s with host := { s.host with eventDrops := satInc s.host.eventDrops } }

/-- An Apposition header beat but for its SEQ and CRC (Table 12.10). -/
def appoHeader (cls tag len status mbox addr : Nat) : BitVec 512 :=
  BitVec.ofNat 512 (cls + mbox * 2 ^ 8 + status * 2 ^ 32 + len * 2 ^ 40 + tag % 2 ^ 16 * 2 ^ 48 + addr * 2 ^ 80)

/-- CRC-32C of a message with its CRC field taken as 0. -/
def appoCrc (h : BitVec 512) (data : List Byte) : Nat := crc32c (leBytes 64 (h.toNat % 2 ^ 480) ++ data)

/-- A header with its SEQ and CRC. -/
def appoSeal (h : BitVec 512) (seq : W16) (data : List Byte) : BitVec 512 :=
  let h := h ||| BitVec.ofNat 512 (seq.toNat * 2 ^ 64)
  h ||| BitVec.ofNat 512 (appoCrc h data * 2 ^ 480)

/-- Send what waits, in order, while fewer than 1 024 messages are unacknowledged (R326). -/
def appoFlush (p : Nat) : List (BitVec 512 × List Byte) → State → State
  | [], s => s.updAp p fun a => { a with out := [] }
  | (h, d) :: t, s =>
    if (s.ap p).unacked.length ≥ 1024 then s.updAp p fun a => { a with out := (h, d) :: t }
    else
      let h' := appoSeal h (s.ap p).txSeq d
      appoFlush p t ((s.updAp p fun a => { a with txSeq := a.txSeq + 1, unacked := a.unacked ++ [(h', d)] }).send
        (.apposition p h' d))

/-- Send an Apposition message from the hub while the port is UP; it is kept until it is acknowledged. While the link
retrains it waits. -/
def appoSend (p cls tag len status mbox addr : Nat) (data : List Byte) (s : State) : State :=
  let m := (appoHeader cls tag len status mbox addr, data)
  match (s.ap p).state with
  | 3 => appoFlush p ((s.ap p).out ++ [m]) s
  | 2 => s.updAp p fun a => { a with out := a.out ++ [m] }
  | _ => s

/-- A TAG that no outstanding request of a port carries; 65 536 at once are the most (log 104). -/
def Appo.freeTag (a : Appo) : Nat :=
  ((List.range (a.requests.length + 1)).find? fun t => !(a.requests.any fun r => r.tag == t)).getD 0 % 65536

/-- `n` free bytes for what the spec leaves open (log 3). -/
def State.freeBytes (s : State) (n : Nat) : List Byte := (List.range n).map fun i => Config.freeByte (s.freeCount + i)

/-- Send one hub request of at most 4 KiB to the guest window address `a`, and note where its answer goes. Data fill whole
beats; the bytes of a last beat beyond the data are free (log 104). -/
def guestRequest (a n : Nat) (write : Bool) (place engine : Nat) (data : List Byte) (s : State) : State :=
  let p := a / 2 ^ 40 - 6
  let tag := (s.ap p).freeTag
  let pad := if write then alignUp n 64 - n else 0
  let data := if write then fit n data ++ s.freeBytes pad else []
  let s := { s with freeCount := s.freeCount + pad }
  let s := s.updAp p fun x => { x with requests := x.requests ++ [⟨tag, write, a, place, n, engine⟩] }
  appoSend p (if write then 2 else 1) tag (cdiv n 64) 0 0 (a % 2 ^ 40) data s

/-- Is an address in the host range (R26)? -/
def isHost (a : Nat) : Bool := decide (2 ^ 47 ≤ a)

/-- Is an address in a guest's window? -/
def isGuest (a : Nat) : Bool := decide (6 * 2 ^ 40 ≤ a) && decide (a < 2 ^ 47)

/-- Events that guest mailbox 0 of an UP port also receives: EV_GUEST_UP of its own port and the job events (R331). -/
def guestEvent (code unit cls seq : Nat) (bs : List Byte) (s : State) : State :=
  let entry := leBytes 4 2 ++ leBytes 4 0 ++ leBytes 8 s.chip.uptime.toNat ++ leBytes 2 0 ++ leBytes 2 code ++
    leBytes 2 (cls * 4096) ++ leBytes 2 unit ++ leBytes 4 seq ++ leBytes 4 0 ++ fit 32 bs
  let copy (p : Nat) (s : State) : State := appoSend p 5 0 1 0 0 0 entry s
  if code = 0x0506 then copy (unit / 8192 - 6) s
  else if 0x0701 ≤ code ∧ code ≤ 0x0704 then copy 1 (copy 0 s)
  else s

/-- Raise an event: the PLDM queue, the event stream, the host copy (R271), numbered by its source. -/
def raise (code unit cls : Nat) (items : List (Nat × Nat)) (s : State) : State :=
  if s.chip.parserHeld then s
  else
    let bs := body items
    let src := unit * 16 + cls
    let seq := (sget 0 s.evSeq src).toNat
    let rec' := eventRecord s.chip.uptime.toNat seq code unit cls bs
    let s := { s with evSeq := supd 0 src (· + 1) s.evSeq }
    let s := s.updMgmt fun m =>
      let m := if m.plq.length < 1024 then { m with plq := m.plq ++ [(rec', 0)] }
        else { m with eventDrops := satInc m.eventDrops }
      if m.net.headD 0 = 1 then { m with streamQ := m.streamQ ++ [rec'] } else m
    guestEvent code unit cls seq bs (hostEvent code unit cls seq bs s)

/-- An event of the Parser itself (R455). -/
def raiseParser (code : Nat) (items : List (Nat × Nat)) (s : State) : State := raise code parserUnit 0 items s

/-- Note a fault record for firmware to write (R270). -/
def noteRecord (r : RecordReq) (s : State) : State :=
  s.updFaults fun f => { f with toWrite := f.toWrite ++ [(r, f.poh)] }

/-! ### The current grade -/

/-- The current grade (R8). -/
def State.grade (s : State) : Nat := Config.fusedGrade - 4 * s.faults.demotions

/-- Put `x` into a list in ascending order of a key; equal keys keep their order. -/
def insertBy (key : Nat → Nat) (x : Nat) : List Nat → List Nat
  | [] => [x]
  | y :: t => if key x < key y then x :: y :: t else y :: insertBy key x t

/-- A list in ascending order of a key. -/
def sortBy (key : Nat → Nat) (xs : List Nat) : List Nat := xs.foldl (fun acc x => insertBy key x acc) []

/-- Physical quads of a cell that were fused off at manufacture: none at T64, one at T60, two at T56 (R75). -/
def fusedQuads (k : Nat) : List Nat := (sortBy (Config.fuseKey k) (List.range 16)).take (2 - Config.gradeCode.val)

/-- Enabled physical quads of a cell (R6, R75). -/
def Faults.quads (f : Faults) (k : Nat) : List Nat :=
  (List.range 16).filter fun q => !(fusedQuads k).contains q && !(sget [] f.quadsOff k).contains q

/-- The physical array behind logical array `n` of a cell, by the map that firmware builds from the fuses and the fault
history: a logical quad is backed by one whole enabled quad (R24, R25, R75, R270). -/
def Faults.phys (f : Faults) (k n : Nat) : Nat :=
  let q := (sortBy (fun q => Config.mapKey k (4 * q)) (f.quads k)).getD (n / 4) 0
  (sortBy (Config.mapKey k) ((List.range 4).map (4 * q + ·))).getD (n % 4) 0

/-- Is the module in reduced service? -/
def State.reduced (s : State) : Bool := s.chip.service == 1

/-! ### Stages and their engines -/

/-- The virtual stages. -/
def allStages : List Nat := List.range 16

/-- Virtual stages that hold a loaded stage. -/
def State.loadedStages (s : State) : List Nat := allStages.filter fun v => (s.stage v).loaded

/-- The virtual stage of a stage number, where one is loaded. -/
def State.findStage (s : State) (num : Nat) : Option Nat :=
  s.loadedStages.find? fun v => (s.stage v).image.stage == num

/-- Engine numbers of a stage's cells, in ascending cell number. -/
def Stage.cellKeys (g : Stage) : List Nat := g.image.cells.map fun c => g.image.die * 128 + c

/-- The virtual stage that a cell engine belongs to. -/
def State.stageOfCell (s : State) (k : Nat) : Option Nat :=
  s.loadedStages.find? fun v => (s.stage v).cellKeys.contains k

/-- The virtual stage an engine works for: a cell's stage, or the one whose rule the Inflector runs. -/
def State.stageOf (s : State) (k : Nat) : Option Nat :=
  if isInflector k then (s.eng k).ruleStage else s.stageOfCell k

/-- The stage number, or 0xFFFF. -/
def State.stageNum (s : State) (v : Option Nat) : Nat :=
  match v with
  | some v => (s.stage v).image.stage
  | none => 0xFFFF

/-- Fields of the parameter block (Table 7.2). -/
def Stage.blk (g : Stage) (hi lo : Nat) : Nat := bits g.image.block.toNat hi lo
/-- HOST_SIZE -/
def Stage.hostSize (g : Stage) : Nat := g.blk 575 512
/-- HOST_BASE -/
def Stage.hostBase (g : Stage) : Nat := g.blk 495 448
/-- Λ -/
def Stage.lag (g : Stage) : Nat := g.blk 431 416
/-- FOUT_DEPTH -/
def Stage.foutDepth (g : Stage) : Nat := g.blk 392 384
/-- BOUT_DEPTH -/
def Stage.boutDepth (g : Stage) : Nat := g.blk 408 400
/-- FOUT_MAXLEN -/
def Stage.foutMax (g : Stage) : Nat := g.blk 343 320
/-- BOUT_MAXLEN -/
def Stage.boutMax (g : Stage) : Nat := g.blk 375 352
/-- BIN_DEPTH -/
def Stage.binDepth (g : Stage) : Nat := g.blk 312 304
/-- BIN_BASE -/
def Stage.binBase (g : Stage) : Nat := g.blk 303 256
/-- BIN_SLOT -/
def Stage.binSlot (g : Stage) : Nat := g.blk 255 224
/-- FIN_SLOT -/
def Stage.finSlot (g : Stage) : Nat := g.blk 223 192
/-- FIN_DEPTH -/
def Stage.finDepth (g : Stage) : Nat := g.blk 184 176
/-- FIN_BASE -/
def Stage.finBase (g : Stage) : Nat := g.blk 175 128
/-- SUCC_STAGE -/
def Stage.succ (g : Stage) : Nat := g.blk 127 112
/-- PRED_STAGE -/
def Stage.predecessor (g : Stage) : Nat := g.blk 111 96
/-- U -/
def Stage.u (g : Stage) : Nat := g.blk 95 64
/-- ASYNC -/
def Stage.async (g : Stage) : Bool := g.blk 41 41 == 1
/-- Is this the last position (R171)? -/
def Stage.isLast (g : Stage) : Bool := g.succ == 0xFFFF
/-- Is this position 0? -/
def Stage.isFirst (g : Stage) : Bool := g.predecessor == 0xFFFF
/-- Pages of an image (R194). -/
def Stage.pages (g : Stage) : Nat := cdiv g.image.imageSize 4096

/-- A layer-group declaration's fields (Table 5.2): ID, BACKWARD, RUNGS, ENTRY and END of rung `r`. -/
def declId (d : BitVec 256) : Nat := bits d.toNat 31 16
/-- BACKWARD -/
def declBackward (d : BitVec 256) : Bool := bitAt d.toNat 3
/-- RUNGS -/
def declRungs (d : BitVec 256) : Nat := bits d.toNat 1 0
/-- ENTRY of a rung -/
def declEntry (d : BitVec 256) (r : Nat) : Nat := bits d.toNat (47 + 32 * r) (32 + 32 * r)
/-- END of a rung -/
def declEnd (d : BitVec 256) (r : Nat) : Nat := bits d.toNat (63 + 32 * r) (48 + 32 * r)

/-- The declaration of a group. -/
def Stage.decl (g : Stage) (id : Nat) : Option (BitVec 256) := g.image.groups.find? fun d => declId d == id

/-- Is an instruction index inside a variant of some group? -/
def Stage.inAnyRange (g : Stage) (pc : Nat) : Bool :=
  g.image.groups.any fun d => (List.range (declRungs d)).any fun r =>
    decide (declEntry d r ≤ pc ∧ pc ≤ declEnd d r)

/-- The group whose ENTRY0 is this index. -/
def Stage.entryAt (g : Stage) (pc : Nat) : Option Nat :=
  (g.image.groups.find? fun d => declEntry d 0 == pc).map declId

/-! ### Tense helpers used by a halt -/

/-- Change one Tense slot of a stage. -/
def Stage.updTense (g : Stage) (i : Nat) (f : TenseSlot → TenseSlot) : Stage :=
  { g with tenses := g.tenses.mapIdx fun j t => if j = i then f t else t }

/-- The index of the first slot that `p` admits. -/
def Stage.findTense (g : Stage) (p : TenseSlot → Bool) : Option Nat := g.tenses.findIdx? p

/-- The present Tense's COMMIT. -/
def Stage.presentCommit (g : Stage) : Nat :=
  match g.tenses.find? fun t => t.state == 2 with
  | some t => t.commit
  | none => 0

/-- Abandon the update that is being built: its BUILDING slot and buffer are released, the accumulator is idle
(R169, R216, R217). -/
def Stage.abandon (g : Stage) : Stage :=
  { g with
    tenses := g.tenses.map fun t => if t.state == 1 then {} else t
    dig := .idle, digLen := 0, digValue := 0
    committing := none
    update := { g.update with building := none, gmax := 0, gather := [], asked := [], verified := [], shardSent := false } }

/-- Does a halt leave the update waiting in COMMIT (Table 9.6), its gather being complete? -/
def Stage.commitKept (g : Stage) (z : Nat) : Bool :=
  g.committing.isSome && (g.tenses.any fun t => t.state == 1 && t.shards == z)

/-! ### Halting (R82, R374) -/

/-- What a halt leaves of the tiles that a sequencer has taken: a subtile whose passes have streamed may still be drained,
until its stage goes on, and everything else is discarded (R82). -/
def endTiles (ts : List TileRun) : List TileRun :=
  (ts.filter (·.started)).map fun t => { t with ending := true, hold := none }

/-- Stop one engine and discard what its sequencer and DMA engine hold (R82). -/
def EngineState.halt (e : EngineState) : EngineState :=
  { e with stat := .halted, taking := false, tileQ := [], inFlight := endTiles e.inFlight, dmaQ := [], loops := []
           outerLoops := 0 }

/-- Free the Inflector from a run that is abandoned. -/
def EngineState.dropRun (v : Nat) (e : EngineState) : EngineState :=
  if e.ruleStage = some v then
    { e with stat := .idle, ruleStage := none, tileQ := [], inFlight := endTiles e.inFlight, dmaQ := [], loops := []
             outerLoops := 0, committed := false }
  else e

/-- Halt a stage with the code of its cause. The first cause is kept; a final one replaces a resumable one. -/
def haltStage (v code : Nat) (final : Bool) (s : State) : State :=
  let g := s.stage v
  if !g.loaded then s
  else if g.haltCode ≠ 0 then
    if final && !g.haltFinal then s.updStage v fun g => { g with haltCode := code, haltFinal := true } else s
  else
    let keep := g.commitKept s.job.z
    let s := s.updStage v fun g =>
      let g := { g with haltCode := code, haltFinal := final, pauseAt := 0, wantForward := none, wantBackward := none }
      if keep then g else g.abandon
    let s := forEach g.cellKeys (fun k s => s.updEng k EngineState.halt) s
    if keep then s else s.updEng (g.image.die * 128 + 97) (EngineState.dropRun v)

/-- Halt the stage an engine works for, where there is one. -/
def haltOf (v : Option Nat) (code : Nat) (s : State) : State :=
  match v with
  | some v => haltStage v code true s
  | none => s

/-- The update of a stage halts: its run is dropped, what it was building is abandoned (R217), and no update of the stage
starts again (R149). -/
def haltUpdate (v code : Nat) (s : State) : State :=
  let s := s.updStage v fun g =>
    { g.abandon with updateHalt := if g.updateHalt = 0 then code else g.updateHalt }
  s.updEng ((s.stage v).image.die * 128 + 97) (EngineState.dropRun v)

/-- EV_VEC_FAULT of an engine: its stage halts, or for an Inflector the update of its stage (R149). -/
def vecFault (k reason : Nat) (s : State) : State :=
  let v := s.stageOf k
  let (u, c) := engUnit k
  let s := raise 0x0107 u c [(4, (s.eng k).pc), (1, reason)] s
  if isInflector k then
    match v with
    | some v => haltUpdate v 0x0107 s
    | none => s
  else haltOf v 0x0107 s

/-- EV_ADDR_FAULT of an issuer (R32, Table 14.17). -/
def addrFault (unit cls : Nat) (v : Option Nat) (addr : Nat) (s : State) : State :=
  haltOf v 0x0101 (raise 0x0101 unit cls [(2, s.stageNum v), (8, addr)] s)

/-- EV_DIE_ABSENT of an issuer (R33). -/
def dieAbsent (unit cls : Nat) (v : Option Nat) (die addr : Nat) (s : State) : State :=
  haltOf v 0x0102 (raise 0x0102 unit cls [(2, s.stageNum v), (1, die), (8, addr)] s)

/-! ### The address map (Table 1.6) -/

/-- What an address names. -/
inductive Region where
  | hbm (die stack : Nat)
  | cellStore (die cell : Nat)
  | instrMem (die cell : Nat)
  | inflSram (die : Nat)
  | transfer
  | clauseStore
  | parser
  | contexts
  | guest (port : Nat)
  | host
  | reserved
deriving DecidableEq, Repr

/-- The region of one address. -/
def regionOf (a : Nat) : Region :=
  if a ≥ 2 ^ 48 then .reserved
  else if a ≥ 2 ^ 47 then .host
  else
    let d := a / 2 ^ 40
    let o := a % 2 ^ 40
    if d = 0 then
      if o < 64 * 2 ^ 20 then .transfer
      else if 2 ^ 32 ≤ o ∧ o < 2 ^ 32 + 8 * 2 ^ 20 then .clauseStore
      else if 2 ^ 33 ≤ o ∧ o < 2 ^ 33 + 256 * 2 ^ 20 then .parser
      else .reserved
    else if d ≤ 4 then
      if o < 3 * (48 * 2 ^ 30) then .hbm d (o / (48 * 2 ^ 30))
      else if 2 ^ 39 ≤ o ∧ o < 2 ^ 39 + 96 * 2 ^ 21 then .cellStore d ((o - 2 ^ 39) / 2 ^ 21)
      else if 0x8100000000 ≤ o ∧ o < 0x8100000000 + 96 * 2 ^ 16 then .instrMem d ((o - 0x8100000000) / 2 ^ 16)
      else if 0x8200000000 ≤ o ∧ o < 0x8200000000 + 2 ^ 24 then .inflSram d
      else .reserved
    else if d = 5 then (if o < 2 ^ 24 then .contexts else .reserved)
    else if d ≤ 7 then .guest (d - 6)
    else .reserved

/-- Base address of a cell store. -/
def cellBase (die cell : Nat) : Nat := die * 2 ^ 40 + 2 ^ 39 + cell * 2 ^ 21
/-- Base address of an Inflector SRAM. -/
def sramBase (die : Nat) : Nat := die * 2 ^ 40 + 0x8200000000

/-- Unit and class of the memory that holds a word (Table 14.17). -/
def memUnit (a : Nat) : Nat × Nat :=
  match regionOf a with
  | .hbm d st => (unitAddr d (100 + st) 0, 0)
  | .cellStore d c => (unitAddr d c 0, 4)
  | .instrMem d c => (unitAddr d c 0, 5)
  | .inflSram d => (unitAddr d 97 0, 0)
  | .transfer => (unitAddr 0 116 0, 0)
  | .clauseStore => (unitAddr 0 117 0, 0)
  | .contexts => (unitAddr 5 103 0, 0)
  | _ => (parserUnit, 0)

/-- Is die `d` absent: a guest site that is empty or whose port is DOWN (R320, R324), or a die marked lost (R33)? A port
that trains again is not. -/
def State.absent (s : State) (d : Nat) : Bool :=
  if d ≥ 6 then decide ((s.ap (d - 6)).state ≤ 1) else s.chip.lost.getLsbD d

/-- The first uncorrectable word that a range touches. -/
def State.badIn (s : State) (a n : Nat) : Option Nat :=
  s.badWords.find? fun w => decide (w < a + n ∧ a < w + 8)

/-- Words that a write of `[a, a + n)` covers whole become good again (R36). -/
def State.mend (s : State) (a n : Nat) : State :=
  { s with badWords := s.badWords.filter fun w => !(decide (a ≤ w) && decide (w + 8 ≤ a + n)) }

/-- The first uncorrectable word that a write covers only in part (R36). -/
def State.badPart (s : State) (a n : Nat) : Option Nat :=
  s.badWords.find? fun w => decide (w < a + n ∧ a < w + 8) && !(decide (a ≤ w) && decide (w + 8 ≤ a + n))

/-- EV_MEM_UNCORRECTABLE for a word of memory, and the record of R267. -/
def memBadNoHalt (v : Option Nat) (w issuer issuerCls : Nat) (s : State) : State :=
  let (u, c) := memUnit w
  let s := raise 0x0103 u c [(2, s.stageNum v), (8, w), (2, issuer), (1, issuerCls)] s
  noteRecord ⟨u, c, 0, 9, 1, s.stageNum v, 0xFFFF, bits w 37 6, 0⟩ s

/-- The same, with the halt of the stage that meets the word. -/
def memBad (v : Option Nat) (w issuer issuerCls : Nat) (s : State) : State :=
  haltOf v 0x0103 (memBadNoHalt v w issuer issuerCls s)

/-- Is `[a, a + n)` inside `[b, b + l)`? -/
def inRange (a n b l : Nat) : Bool := decide (b ≤ a ∧ a + n ≤ b + l)
/-- Do two ranges overlap? -/
def overlaps (a n b l : Nat) : Bool := decide (a < b + l ∧ b < a + n)

/-- Is every byte from `a` to `e` in some range of a list of bases and lengths? Each round moves past a range, so the
fuel is their number. -/
def coverGo (rs : List (Nat × Nat)) : Nat → Nat → Nat → Bool
  | 0, a, e => decide (e ≤ a)
  | fuel + 1, a, e =>
    decide (e ≤ a) || match rs.find? fun r => decide (r.1 ≤ a ∧ a < r.1 + r.2) with
      | some r => coverGo rs fuel (r.1 + r.2) e
      | none => false

/-- Does `[a, a + n)` lie wholly inside a set of ranges (R32)? -/
def covers (rs : List (Nat × Nat)) (a n : Nat) : Bool := coverGo rs rs.length a (a + n)

/-- Is a range inside a stage's grants for this kind of access? Its views are granted for reading only (R202). -/
def Stage.granted (g : Stage) (a n : Nat) (write : Bool) : Bool :=
  let view := g.pages * 4096
  if write then
    covers ((g.image.grants.filter (·.write)).map fun r => (r.base, r.len)) a n &&
      !overlaps a n g.image.forwardView view && !overlaps a n g.image.backwardView view
  else
    covers ((g.image.grants.map fun r => (r.base, r.len)) ++ [(g.image.forwardView, view), (g.image.backwardView, view)]) a n

/-- Elements of this owner's shard of the stage (R213, R224). -/
def Stage.shardLen (g : Stage) (z : Nat) : Nat := (g.image.paramGroups.map fun p => p.len / z).foldl (· + ·) 0

/-- Bytes of the rule block and its group records (R223). -/
def Stage.ruleLen (g : Stage) : Nat := 64 + 128 * g.image.paramGroups.length

/-- The granted part of an Inflector SRAM: all but the code regions, which the model places in its top 2 MiB
(log 12). -/
def sramGrant (die : Nat) : Nat × Nat := (sramBase die, 14 * 2 ^ 20)

/-- Code region of a virtual stage in its Inflector's SRAM (R222, log 12). -/
def codeRegion (die v : Nat) : Nat := sramBase die + 14 * 2 ^ 20 + v * 2 ^ 17

/-- Bytes of one group's moments in a moment buffer (R235 to R237); a custom rule's are taken as SIGNMOM's (log 15). -/
def momentBytes (kind n rows : Nat) : Nat :=
  if kind = 3 then 4 * n + 8 * (rows * rows + (n / rows) * (n / rows)) else 4 * n

/-- Bytes of one group's part of VOTE (R224). -/
def voteBytes (matrix : Bool) (n : Nat) : Nat := if matrix then 4 * n else n / 4

/-- Bytes of one group's scratch area (Table 9.2). -/
def scratchBytes (matrix : Bool) (kind n rows : Nat) : Nat := if matrix then Config.matrixScratch kind n rows else 4 * n

/-- Address of group record `i` (R223). -/
def Stage.recordAddr (g : Stage) (i : Nat) : Nat := g.image.ruleArea + 64 + 128 * i

/-- The address field at byte `o` of group record `i` (Table 9.2). -/
def State.recordField (s : State) (g : Stage) (i o : Nat) : Nat := memNat s.mem (g.recordAddr i + o) 8

/-- The ranges that the fields of the group records name, by `f` from a record's number, group and fields (R226). -/
def State.recordRanges (s : State) (g : Stage)
    (f : ParamGroup → Nat → Rule → (Nat → Nat) → List (Nat × Nat)) : List (Nat × Nat) :=
  match g.rule with
  | none => []
  | some r => (number 0 g.image.paramGroups).flatMap fun x => f x.2 (x.2.len / s.job.z) r (s.recordField g x.1)

/-- The buffers that a rule's run may write (R226): what its records name to be built, its scratch areas, and the granted
SRAM. -/
def State.ruleWrites (s : State) (g : Stage) : List (Nat × Nat) :=
  let fmt := g.image.fmt
  sramGrant g.image.die :: s.recordRanges g fun p n r at' =>
    [(at' 24, momentBytes r.kind n p.rows), (at' 48, 2 * n), (at' 56, n), (at' 64, n * fmtWidth fmt / 8),
     (at' 72, if fmtBlock fmt > 1 then n / fmtBlock fmt else 0), (at' 80, if fmtHasTensorScale fmt then 4 else 0),
     (at' 104, scratchBytes r.matrix r.kind n p.rows)]

/-- What it may read besides: the present buffers, the reduced gradient, mask and curve of its records, the rule block and
records, and the images. -/
def State.ruleReads (s : State) (g : Stage) : List (Nat × Nat) :=
  s.ruleWrites g ++ (g.image.ruleArea, g.ruleLen) :: (g.image.buffers.map fun a => (a, g.pages * 4096)) ++
  s.recordRanges g fun p n r at' =>
    [(at' 8, voteBytes r.matrix n), (at' 16, momentBytes r.kind n p.rows), (at' 32, 2 * n), (at' 40, n),
     (at' 88, n / 128), (at' 96, 1040)]

/-- Bytes of one gradient slot (R228). -/
def Stage.gradBytes (g : Stage) : Nat := 4 * (g.image.paramGroups.map (·.len)).foldl (· + ·) 0

/-- The gradient slot of update `j` (R228). -/
def Stage.gradSlot (g : Stage) (j : Nat) : Nat := g.image.gradSlots.getD ((j - 1) % g.image.gradSlots.length) 0

/-- Updates that are ready: their U completions are released (R229). -/
def Stage.readyUpdates (g : Stage) : Nat := g.update.completions / g.u

/-- Does a write fall in the slot of an update that is ready and that the gradient port has not yet read (R228)? -/
def Stage.gradBusy (g : Stage) (a n : Nat) : Bool :=
  (List.range (g.readyUpdates - g.update.submitted)).any fun i =>
    overlaps a n (g.gradSlot (g.update.submitted + 1 + i)) g.gradBytes

/-- Is a range of a guest die's window open to the package through an outbound window (R330)? -/
def State.outbound (s : State) (a n : Nat) (write : Bool) : Bool :=
  let p := a / 2 ^ 40 - 6
  let fw := sget {} s.host.firewalls p
  let off := a % 2 ^ 40
  fw.ctrl.getLsbD 0 && (List.range 32).any fun w =>
    let base := (sget 0 fw.windows (4 * w)).toNat
    let size := (sget 0 fw.windows (4 * w + 1)).toNat
    let c := (sget 0 fw.windows (4 * w + 2)).toNat
    bitAt c 0 && !bitAt c 8 && bitAt c 3 && bitAt c (if write then 2 else 1) && inRange off n base size

/-- The outcome of checking an access. -/
inductive Access where
  | ok
  | addr
  | location
  | grad
  | absent (die : Nat)
  | bad (word : Nat)
deriving DecidableEq, Repr

/-- Check an access of engine `k` for a virtual stage: grants first, then the memory the unit reaches, then the die, then
the words (R32, R33, R36, R145, R228). `reach` says whether the unit may use a region. -/
def checkFor (v : Option Nat) (s : State) (k : Nat) (reach : Region → Bool) (a n : Nat) (write : Bool) : Access :=
  let granted := match v with
    | none => false
    | some v =>
      let g := s.stage v
      if isInflector k then
        covers (if write then s.ruleWrites g else s.ruleReads g) a n
      else g.granted a n write
  let r := regionOf a
  let elsewhere := isInflector k && !write && !reach r && (match v with
    | some v => (s.stage v).granted a n false
    | none => false)
  if elsewhere then .location
  else if a + n > 2 ^ 48 || !granted || r == .reserved then .addr
  else if !reach r || !reach (regionOf (a + n - 1)) then .location
  else
    let guest := match r with
      | .guest _ => !s.outbound a n write
      | _ => false
    if guest then (if s.absent (a / 2 ^ 40) then .absent (a / 2 ^ 40) else .addr)
    else if r != .host && s.absent (a / 2 ^ 40) then .absent (a / 2 ^ 40)
    else if write && !isInflector k && (match v with | some v => (s.stage v).gradBusy a n | none => false) then .grad
    else
      match (if write then s.badPart a n else s.badIn a n) with
      | some w => .bad w
      | none => .ok

/-- Check an access of an engine for the stage that it works for. -/
def checkAccess (s : State) (k : Nat) (reach : Region → Bool) (a n : Nat) (write : Bool) : Access :=
  checkFor (s.stageOf k) s k reach a n write

/-- What follows a failed check: the event and the halt. -/
def accessFault (k unit cls a : Nat) (r : Access) (s : State) : State :=
  let v := s.stageOf k
  match r with
  | .ok => s
  | .addr => addrFault unit cls v a s
  | .location => vecFault k 2 s
  | .grad =>
    haltOf v 0x0208 (raise 0x0208 unit cls [(2, s.stageNum v), (8, a)] s)
  | .absent d => dieAbsent unit cls v d a s
  | .bad w => memBad v w unit cls s

/-- Regions a vector engine's own loads and stores reach (Table 6.1). -/
def engReach (k : Nat) : Region → Bool
  | .cellStore d c => !isInflector k && d == dieOf k && c == k % 128
  | .inflSram d => isInflector k && d == dieOf k
  | .hbm d _ => isInflector k && d == dieOf k
  | _ => false

/-- Regions a tile's operands and outputs reach (R77, and the Inflector's list). -/
def tileReach (k : Nat) : Region → Bool
  | .cellStore d c => !isInflector k && d == dieOf k && c == k % 128
  | .inflSram d => isInflector k && d == dieOf k
  | .hbm d _ => !isInflector k || d == dieOf k
  | _ => false

/-- Regions the DMA engine of engine `k` reaches: an Inflector's SRAM only from that Inflector (Table 1.6). -/
def dmaReach (k : Nat) : Region → Bool
  | .cellStore _ _ => true
  | .hbm _ _ => true
  | .inflSram d => isInflector k && d == dieOf k
  | .host => true
  | .guest _ => true
  | _ => false

/-! ### Time on an empty queue (log 5) -/

/-- A power-on hour ends: one MEM_CORRECTED record for each unit with corrected errors, carrying the hour's count (Tables
10.4 and 10.7). -/
def hourEnd (s : State) : State :=
  let s' := forEach s.faults.corrected
    (fun x s => noteRecord ⟨x.1 / 16, x.1 % 16, 0, 8, 5, 0xFFFF, 0xFFFF, x.2, 0⟩ s) s
  s'.updFaults fun f => { f with corrected := [] }

/-- One microsecond passes: the uptime counter counts from the end of RESET (R38), and power-on minutes count (R270). -/
def idleTick (s : State) : State :=
  let s := s.updChip fun c =>
    { c with bootWriting := false
             uptime := if c.bringup = 0 then c.uptime else c.uptime + 1
             minuteUs := if c.powered then (c.minuteUs + 1) % 60000000 else c.minuteUs }
  if s.chip.powered && s.chip.minuteUs == 0 then
    let s := s.updFaults fun f => { f with poh := f.poh + 1 }
    if s.faults.poh.toNat % 60 = 0 then hourEnd s else s
  else s

end Sys2Proof.Machine
end

