-- ==== Sys2Proof/Machine/Operands.lean ====
section
/-!
DEFINITION. Sys2Proof/Machine/Operands.lean: the instruction word (Table 6.2), what Table 6.4 admits for each
opcode (R138 to R141), the registers of a vector engine (R136) and its active lanes (R139).
-/
namespace Sys2Proof.Machine

/-! ### The instruction word -/

/-- OPCODE of a word. -/
def opOf (x : W64) : Nat := bits x.toNat 63 56

/-- The other fields of a word (Table 6.2). -/
def fieldsOf (x : W64) : VFields :=
  { vd := x.extractLsb' 51 5, va := x.extractLsb' 46 5, vb := x.extractLsb' 41 5, vc := x.extractLsb' 36 5
    pred := x.extractLsb' 33 3, pneg := x.getLsbD 32, fmt := x.extractLsb' 28 4, mode := x.extractLsb' 24 4
    imm := x.extractLsb' 0 24 }

/-- The word that an opcode and fields spell. -/
def wordOf (op : Nat) (w : VFields) : W64 :=
  BitVec.ofNat 64 (op * 2 ^ 56 + w.vd.toNat * 2 ^ 51 + w.va.toNat * 2 ^ 46 + w.vb.toNat * 2 ^ 41 +
    w.vc.toNat * 2 ^ 36 + w.pred.toNat * 2 ^ 33 + (if w.pneg then 2 ^ 32 else 0) + w.fmt.toNat * 2 ^ 28 +
    w.mode.toNat * 2 ^ 24 + w.imm.toNat)

/-! ### What Table 6.4 admits -/

/-- The use of a register field: V vector, S scalar, P predicate, or unused. -/
inductive RegKind where
  | V | S | P | U
deriving DecidableEq, Repr

/-- How an opcode uses IMM. -/
inductive ImmUse where
  /-- bits under a mask, the others 0 -/
  | mask (m : Nat)
  /-- a branch or loop target -/
  | target
  /-- the fields of CVT, AMAXB and AMAXT -/
  | conv
deriving DecidableEq, Repr

/-- One row of Table 6.4. -/
structure OpRow where
  vd : RegKind
  va : RegKind
  vb : RegKind
  vc : RegKind
  /-- format codes allowed -/
  fmts : List Nat
  /-- values of MODE allowed -/
  modes : List Nat
  imm : ImmUse
  /-- the instruction has lanes, so PRED and PNEG may be nonzero (R139) -/
  lanes : Bool
  /-- engines that have it: cell, Inflector (Table 6.1) -/
  cell : Bool
  infl : Bool
deriving DecidableEq, Repr

/-- A row with FORMAT 0, MODE 0 and no lanes, on both engines. -/
def plainRow (vd va vb vc : RegKind) (imm : Nat) : OpRow :=
  ⟨vd, va, vb, vc, [0], [0], .mask imm, false, true, true⟩
/-- A row of lane-wise floating-point operands. -/
def floatRow (vd va vb vc : RegKind) (fmts : List Nat) : OpRow :=
  ⟨vd, va, vb, vc, fmts, [0], .mask 0, true, true, true⟩

/-- FP32, BF16 and FP64. -/
def fpCodes : List Nat := [0, 1, 0xE]

/-- The rows of Table 6.4 but for what MODE changes in a row. -/
def opRow (op : Nat) : Option OpRow :=
  match op with
  | 0x00 => some (plainRow .U .U .U .U 0)
  | 0x01 => some (plainRow .U .U .U .U 0)
  | 0x02 => some { plainRow .U .U .U .U 0 with imm := .target }
  | 0x03 => some { plainRow .U .S .U .U 0 with imm := .target, modes := [0, 1, 2, 3] }
  | 0x04 => some { plainRow .U .S .U .U 0 with imm := .target }
  | 0x05 => some { plainRow .U .U .U .U 0 with infl := false }
  | 0x06 => some { plainRow .U .U .U .U 0xFF with modes := [0, 1] }
  | 0x07 => some (plainRow .U .S .U .U 0)
  | 0x08 => some (plainRow .U .S .S .S 0xFF)
  | 0x09 => some { plainRow .V .U .U .U 0 with modes := [0, 1], infl := false }
  | 0x0A => some { plainRow .U .V .U .U 0 with modes := [0, 1], infl := false }
  | 0x10 => some { plainRow .V .S .U .U 0xFFFFFF with modes := [0, 1, 2, 3, 4, 5, 6], lanes := true }
  | 0x11 => some { plainRow .U .V .S .U 0xFFFFFF with modes := [0, 1, 2, 3, 4, 5, 6], lanes := true }
  | 0x12 => some { plainRow .V .S .S .U 0xFFFFFF with lanes := true }
  | 0x13 => some { plainRow .U .V .S .S 0xFFFFFF with lanes := true }
  | 0x14 => some { plainRow .S .S .U .U 0xFFFFFF with modes := [0, 1, 2, 3, 4, 5, 6, 7] }
  | 0x15 => some { plainRow .U .S .S .U 0xFFFFFF with modes := [0, 1, 2, 3] }
  | 0x16 => some (plainRow .P .S .U .U 0xFFFFFF)
  | 0x17 => some (plainRow .U .P .S .U 0xFFFFFF)
  | 0x23 => some (floatRow .V .V .V .V fpCodes)
  | 0x2E => some { floatRow .P .V .V .U fpCodes with modes := [0, 1, 2, 3, 4] }
  | 0x2F => some (floatRow .V .V .V .U [0, 1, 0xE, 0xF])
  | 0x3B => some { floatRow .P .V .V .U [0xF] with modes := [0, 1, 2, 3, 4, 5, 6, 7, 8, 9, 10, 11] }
  | 0x3C => some { floatRow .V .V .U .U [0xF] with modes := [0, 1], imm := .mask 0xF00000 }
  | 0x3D => some { floatRow .V .V .U .U [0xF] with modes := [0, 1, 2, 3], imm := .mask 0xF00000 }
  | 0x3E => some (floatRow .V .V .V .U [0xF])
  | 0x49 => some (plainRow .S .U .U .U 0xFFFFFF)
  | 0x4A => some (plainRow .S .U .U .U 0xFFFFFF)
  | 0x4B => some (floatRow .V .S .U .U [0, 0xE, 0xF])
  | 0x4C => some (plainRow .S .V .U .U 0xFF)
  | 0x50 => some { floatRow .V .V .V .V (List.range 16) with modes := List.range 8, imm := .conv }
  | 0x51 => some { floatRow .V .V .U .U (List.range 16) with imm := .conv }
  | 0x52 => some { floatRow .S .V .U .U (List.range 16) with imm := .conv }
  | 0x53 => some (floatRow .S .V .U .U [0, 1, 0xE, 0xF])
  | 0x54 => some (floatRow .V .V .U .U fpCodes)
  | 0x55 => some { floatRow .V .V .U .U [0, 1] with modes := [0, 1], imm := .mask 0xF00000 }
  | 0x56 => some { floatRow .V .V .S .U [0, 0xE, 0xF] with modes := [0, 1], imm := .mask 0x3FF }
  | 0x57 => some { plainRow .S .S .U .U 0 with modes := [0, 1, 2], infl := false }
  | 0x58 => some (plainRow .S .U .U .U 0x1FF)
  | 0x64 => some (plainRow .P .U .U .U 0xFFFFFF)
  | 0x65 => some (plainRow .P .S .U .U 7)
  | 0x66 => some (plainRow .S .P .U .U 0)
  | 0x70 => some { plainRow .S .S .U .U 0 with cell := false }
  | 0x71 => some { plainRow .U .S .U .U 0 with modes := [0, 1, 2], cell := false }
  | 0x72 => some { plainRow .S .S .U .U 0 with cell := false }
  | _ =>
    if 0x20 ≤ op ∧ op ≤ 0x26 then some (floatRow .V .V .V .U fpCodes)
    else if 0x27 ≤ op ∧ op ≤ 0x2D then some (floatRow .V .V .U .U fpCodes)
    else if 0x30 ≤ op ∧ op ≤ 0x3A then some { floatRow .V .V .V .U [0xF] with modes := [0, 1] }
    else if 0x40 ≤ op ∧ op ≤ 0x48 then some { plainRow .S .S .S .U 0 with modes := [0, 1] }
    else if 0x60 ≤ op ∧ op ≤ 0x63 then some (plainRow .P .P .P .U 0)
    else none

/-- Opcodes with an immediate form, MODE[0] = 1 (R141). -/
def hasImmForm (op : Nat) : Bool := decide (0x30 ≤ op ∧ op ≤ 0x3B) || decide (0x40 ≤ op ∧ op ≤ 0x48)

/-- The row that governs a word: the immediate form drops VB, DIGEST's modes name other fields (R169), and
SRND in DRAW mode reads neither VA nor VB (R161). -/
def rowFor (op : Nat) (mode : Nat) : Option OpRow :=
  match opRow op with
  | none => none
  | some r =>
    if hasImmForm op && mode % 2 == 1 then some { r with vb := .U, imm := .mask 0xFFFFFF }
    else if op = 0x71 && mode = 1 then some { r with va := .V, vb := .S, imm := .mask 0x7FF }
    else if op = 0x71 && mode = 2 then some { r with vd := .S }
    else if op = 0x56 && mode = 1 then some { r with va := .U, vb := .U }
    else some r

/-- Is a register field of this kind well formed: unused fields are 0, predicate fields below 8 (R138, R140)? -/
def regOk (k : RegKind) (r : BitVec 5) : Bool :=
  match k with
  | .U => r == 0
  | .P => decide (r.toNat < 8)
  | _ => true

/-- Lanes of an engine (Table 6.1). -/
def laneCount (infl : Bool) : Nat := if infl then 256 else 64

/-- PART (R150). -/
def fPart (w : VFields) : Nat := bits w.imm.toNat 23 20
/-- SRC (R150). -/
def fSrc (w : VFields) : Nat := bits w.imm.toNat 19 16
/-- SA (R150). -/
def fSa (w : VFields) : Nat := bits w.imm.toNat 15 11
/-- SS (R150). -/
def fSs (w : VFields) : Nat := bits w.imm.toNat 10 6
/-- ST (R150). -/
def fSt (w : VFields) : Nat := bits w.imm.toNat 5 1

/-- The register side of a conversion between two formats (R150): the wider lane format, where there is one. -/
def regSide (src dst : Nat) : Option Nat :=
  if fmtIsLane src && fmtIsLane dst then (if fmtWidth src ≥ fmtWidth dst then some src else some dst)
  else if fmtIsLane src then some src
  else if fmtIsLane dst then some dst
  else none

/-- Does a format stand on the register side? FP32 with INT32 have two register sides. -/
def onRegSide (f src dst : Nat) : Bool :=
  match regSide src dst with
  | some r => fmtIsLane f && fmtWidth f == fmtWidth r
  | none => false

/-- Element count E (R150). -/
def elemCount (lanes src dst : Nat) : Nat :=
  match regSide src dst with
  | some r => lanes * 32 / fmtWidth r
  | none => lanes

/-- Does packed data of E elements of width `w` at PART end inside the register (R152)? -/
def partFits (part e w lanes : Nat) : Bool := decide ((part + 1) * e * w ≤ 32 * lanes)

/-- Targets of Table 2.6 that SAT applies to. -/
def satTarget (c : Nat) : Bool := [0xE, 0, 1, 2, 4, 7].contains c

/-- The checks of R62, R151 to R156 on CVT (0x50), AMAXB (0x51) and AMAXT (0x52). CVT places a packed target's elements by
PART, AMAXB its block operands, and AMAXT nothing (R155, R156), so that AMAXT has no PART where its source is on the
register side (R140). -/
def convOk (infl : Bool) (op : Nat) (w : VFields) : Bool :=
  let lanes := laneCount infl
  let dst := w.fmt.toNat
  let src := fSrc w
  let e := elemCount lanes src dst
  let intOk := !(src == 0xF || dst == 0xF) ||
    (let o := if src = 0xF then dst else src; o == 0xE || o == 0 || o == 1)
  w.imm.toNat % 2 == 0 && (infl || !(src == 0xE || dst == 0xE)) && intOk &&
  (op != 0x51 || decide (fmtBlock dst > 1)) &&
  (if op = 0x50 then
    (decide (fmtBlock dst > 1) || (w.vb == 0 && w.vc == 0)) &&
    (!bitAt w.mode.toNat 1 || satTarget dst) && (!bitAt w.mode.toNat 2 || fmtIsMx dst) &&
    (fmtHasTensorScale dst || (fSa w == 0 && fSs w == 0))
   else fSa w == 0 && fSs w == 0) &&
  (fSt w == 0 || fmtHasTensorScale src) &&
  (decide (fmtBlock src ≤ 1) || w.va != 31) &&
  (onRegSide src src dst || partFits (fPart w) e (fmtWidth src) lanes) &&
  (op != 0x50 || onRegSide dst src dst || partFits (fPart w) e (fmtWidth dst) lanes) &&
  (op != 0x51 || partFits (fPart w) (e / fmtBlock dst) (if src = 0xE then 64 else 32) lanes) &&
  (!(onRegSide src src dst && (op == 0x52 || onRegSide dst src dst)) || fPart w == 0)

/-- The checks of R140 on one instruction of code `len` instructions long; those that need its place are in
`loopOk`. -/
def wordOk (infl : Bool) (len op : Nat) (w : VFields) : Bool :=
  match rowFor op w.mode.toNat with
  | none => false
  | some r =>
    let lanes := laneCount infl
    (if infl then r.infl else r.cell) &&
    r.fmts.contains w.fmt.toNat && (infl || w.fmt.toNat != 0xE || op == 0x50 || op == 0x51 || op == 0x52) &&
    r.modes.contains w.mode.toNat &&
    (infl || !(op == 0x10 || op == 0x11) || decide (w.mode.toNat ≤ 4)) &&
    regOk r.vd w.vd && regOk r.va w.va && regOk r.vb w.vb && regOk r.vc w.vc &&
    (r.lanes || (w.pred == 0 && !w.pneg)) &&
    (match r.imm with
     | .target => decide (w.imm.toNat < len) && decide (w.imm.toNat < (if infl then 2 ^ 14 else 2 ^ 13))
     | .mask m => (w.imm.toNat &&& m) == w.imm.toNat
     | .conv => convOk infl op w) &&
    (op != 0x4C || decide (w.imm.toNat < lanes)) &&
    (op != 0x06 || w.mode != 1 || w.imm == 0) &&
    (op != 0x71 || w.mode != 1 || (decide (16 ≤ w.imm.toNat ∧ w.imm.toNat ≤ 1024) && w.imm.toNat % 16 == 0)) &&
    (op != 0x71 || w.mode != 2 || w.vd != 31) &&
    (!(op == 0x3C || op == 0x3D) || partFits (fPart w) lanes (if bitAt w.mode.toNat 0 then 16 else 8) lanes) &&
    (op != 0x55 || partFits (fPart w) (lanes * 32 / fmtWidth w.fmt.toNat) 2 lanes)

/-- A LOOP at index `i` with target `t` inside the loops whose ends are listed, innermost first (R140). -/
def loopOk (i t : Nat) (ends : List Nat) : Bool :=
  decide (i < t) && ends.all fun e => decide (t ≤ e)

/-- The checks of R140 on a whole code; the result is the index of the first instruction that fails. -/
def checkCode (infl : Bool) (len : Nat) : Nat → List Nat → List W64 → Option Nat
  | _, _, [] => none
  | i, ends, x :: t =>
    let op := opOf x
    let w := fieldsOf x
    let ends := ends.filter fun e => decide (i ≤ e)
    if !wordOk infl len op w then some i
    else if op = 0x04 then
      if loopOk i w.imm.toNat ends then checkCode infl len (i + 1) (w.imm.toNat :: ends) t else some i
    else checkCode infl len (i + 1) ends t

/-- Does a code pass R140 and fit its store (Table 6.1)? -/
def codeOk (infl : Bool) (code : List W64) : Bool :=
  decide (code.length ≤ (if infl then 16384 else 8192)) && (checkCode infl code.length 0 [] code).isNone

/-! ### Registers (R136) -/

/-- Lanes of engine `k`. -/
def lanesOf (k : Nat) : Nat := laneCount (isInflector k)
/-- Bits of a vector register of engine `k`. -/
def vbits (k : Nat) : Nat := 32 * lanesOf k

/-- Read a scalar register: s0 reads 0. -/
def EngineState.rs (e : EngineState) (i : Nat) : W64 := if i = 0 then 0 else sget 0 e.sregs i
/-- Write a scalar register: a write to s0 is discarded. -/
def EngineState.ws (e : EngineState) (i : Nat) (x : W64) : EngineState :=
  if i = 0 then e else { e with sregs := sset 0 i x e.sregs }
/-- Read a vector register. -/
def EngineState.rv (e : EngineState) (i : Nat) : Nat := (sget 0 e.vregs i).toNat
/-- Write a vector register, as wide as the engine has it. -/
def EngineState.wv (e : EngineState) (k i x : Nat) : EngineState :=
  { e with vregs := sset 0 i (BitVec.ofNat 8192 (x % 2 ^ vbits k)) e.vregs
           badRegs := e.badRegs.filter (· != i) }
/-- Read a predicate register: p0 reads all ones. -/
def EngineState.rp (e : EngineState) (k i : Nat) : Nat :=
  if i = 0 then 2 ^ lanesOf k - 1 else (sget 0 e.pregs i).toNat
/-- Write a predicate register: a write to p0 is discarded. -/
def EngineState.wp (e : EngineState) (k i x : Nat) : EngineState :=
  if i = 0 then e else { e with pregs := sset 0 i (BitVec.ofNat 256 (x % 2 ^ lanesOf k)) e.pregs }

/-- Every register is 0; p0 reads as always (R136). -/
def EngineState.clearRegs (e : EngineState) : EngineState := { e with vregs := [], sregs := [], pregs := [], badRegs := [] }

/-- The active lanes as a mask, after PNEG (R139). -/
def EngineState.mask (e : EngineState) (k : Nat) (w : VFields) : Nat :=
  let m := e.rp k w.pred.toNat
  if w.pneg then (2 ^ lanesOf k - 1) ^^^ m else m

/-- Does element `j` of width `w` follow an active lane (R139)? -/
def onElem (mask w j : Nat) : Bool := mask.testBit (j * w / 32)

/-- IMM as a signed number. -/
def fSimm (w : VFields) : Int := w.imm.toInt

/-- `s[i] + IMM` as a 64-bit address. -/
def EngineState.addr (e : EngineState) (i : Nat) (w : VFields) : Nat :=
  lowBits 64 ((e.rs i).toNat + fSimm w)

/-- Pack a list of codes of width `w`, first code lowest (R49). -/
def packList (w : Nat) : List Nat → Nat
  | [] => 0
  | x :: t => x % 2 ^ w + (packList w t) <<< w

/-- The elements of width `w` of a packed number. -/
def unpackList (w x n : Nat) : List Nat := (List.range n).map (elemAt w x)

/-- Replace bits `[lo + n - 1 : lo]` of a number. -/
def setBits (x lo n y : Nat) : Nat :=
  (x >>> (lo + n)) <<< (lo + n) + (y % 2 ^ n) <<< lo + x % 2 ^ lo

end Sys2Proof.Machine
end

