-- ==== Sys2Proof/Machine/Issue.lean ====
section
/-!
DEFINITION. Sys2Proof/Machine/Issue.lean: issuing one instruction of a vector engine and moving its instruction index
on, through loops (R162) and layer groups (R121).
-/
namespace Sys2Proof.Machine

/-- The code that an engine runs: the rule of its stage on an Inflector, the stage's image on a cell (R1, R137). -/
def State.code (s : State) (k : Nat) : List W64 :=
  match s.stageOf k with
  | none => []
  | some v =>
    if isInflector k then
      match (s.stage v).rule with
      | some r => r.code
      | none => []
    else (s.stage v).image.code

/-- Where instruction `i` of an engine's code lies: in the cell's instruction memory, or in the stage's code region of the
Inflector SRAM (Tables 1.6 and 6.1). -/
def State.instrAddr (s : State) (k i : Nat) : Nat :=
  if isInflector k then codeRegion (dieOf k) ((s.stageOf k).getD 0) + 8 * i
  else dieOf k * 2 ^ 40 + 0x8100000000 + k % 128 * 2 ^ 16 + 8 * i

/-- An instruction word that cannot be corrected: the event, the record and the halt of R36 and R267; firmware reloads a
cell's instruction memory (Table 1.7, log 99). -/
def instrFault (k a : Nat) (s : State) : State :=
  let (u, c) := engUnit k
  let s := memBad (s.stageOf k) a u c s
  if isInflector k then s else s.mend a 8

/-- EV_MEM_UNCORRECTABLE for a parity error inside an engine's unit (Table 14.17), with its record and the halt (R36,
R267). -/
def unitFault (k : Nat) (x : Nat × Nat) (w : Nat) (s : State) : State :=
  let v := s.stageOf k
  let (u, c) := x
  let s := raise 0x0103 u c [(2, s.stageNum v), (8, w), (2, u), (1, c)] s
  let s := noteRecord ⟨u, c, 0, 9, 1, s.stageNum v, 0xFFFF, bits w 37 6, 0⟩ s
  haltOf v 0x0103 s

/-- A parity error in a vector register (R149). -/
def regFault (k reg : Nat) (s : State) : State := unitFault k (engUnit k) (Config.regWordAddr k reg) s

/-- A parity error in the tile queue, or in the DMA queue (Table 1.7). -/
def queueFault (k : Nat) (dma : Bool) (s : State) : State :=
  unitFault k (k * 64, if isInflector k then 0 else if dma then 3 else 2) (Config.queueWordAddr k dma) s

/-- EV_LG_BRANCH of a cell (R121). -/
def lgBranch (k : Nat) (s : State) : State :=
  let (u, c) := engUnit k
  haltOf (s.stageOf k) 0x0105 (raise 0x0105 u c [] s)

/-- The layer group whose code a cell is executing, with its variant's range: the stage's execution, unless the cell
still waits at an entry (R121). -/
def State.inGroup (s : State) (k : Nat) : Option (Nat × Nat × Nat) :=
  if isInflector k then none
  else
    match s.stageOfCell k with
    | none => none
    | some v =>
      match (s.stage v).exec, (s.eng k).stat with
      | _, .waitEntry _ => none
      | none, _ => none
      | some x, _ =>
        match (s.stage v).decl x.group with
        | some d => some (x.group, declEntry d x.rung, declEnd d x.rung)
        | none => none

/-- A cell whose null-group code reaches instruction `t`: it runs on, waits at ENTRY0, or has entered a group's range
elsewhere (R121, log 115). -/
def landNull (k t : Nat) (s : State) : State :=
  if isInflector k then s.updEng k fun e => { e with pc := t }
  else
    match s.stageOfCell k with
    | none => s
    | some v =>
      match (s.stage v).entryAt t with
      | some g => s.updEng k fun e => { e with pc := t, stat := .waitEntry g }
      | none =>
        if (s.stage v).inAnyRange t then lgBranch k s
        else s.updEng k fun e => { e with pc := t }

/-- Loops that the cell started inside its layer group: those around the group lie beneath them (R121, R162). -/
def EngineState.innerLoops (e : EngineState) : List LoopFrame := e.loops.take (e.loops.length - e.outerLoops)

/-- The cell completes its variant's END, instruction `hi`: it waits at END0 + 1 for the group's end (R121). A loop of a
variant that lies elsewhere has no place there. -/
def exitGroup (k g hi : Nat) (s : State) : State :=
  let end0 := match s.stageOfCell k with
    | some v => match (s.stage v).decl g with
      | some d => declEnd d 0
      | none => 0
    | none => 0
  s.updEng k fun e =>
    { e with pc := end0 + 1, stat := .waitExit g
             loops := if hi = end0 then e.loops else e.loops.drop e.innerLoops.length }

/-- Control of a running engine passes to instruction `t`, by a branch or in sequence. -/
def land (k t : Nat) (branch : Bool) (s : State) : State :=
  match s.inGroup k with
  | none => landNull k t s
  | some (g, lo, hi) =>
    if lo ≤ t && t ≤ hi then s.updEng k fun e => { e with pc := t }
    else if branch then lgBranch k s
    else exitGroup k g hi s

/-- Loops after instruction `last` has run in sequence: the next instruction and the loops left (R162). -/
def loopNext (last : Nat) : List LoopFrame → Nat × List LoopFrame
  | [] => (last + 1, [])
  | f :: t =>
    if f.last = last then
      if f.left > 1 then (f.first, { f with left := f.left - 1 } :: t) else loopNext last t
    else (last + 1, f :: t)

/-- Go on after instruction `last`. Inside a group only the group's own loops act; a loop around the group acts at the
group's end (R121, R162). -/
def advanceFrom (k last : Nat) (s : State) : State :=
  let e := s.eng k
  let inner := match s.inGroup k with
    | none => e.loops
    | some _ => e.innerLoops
  let (n, left) := loopNext last inner
  land k n false (s.updEng k fun e => { e with loops := left ++ e.loops.drop inner.length })

/-- Go on after the present instruction. -/
def advance (k : Nat) (s : State) : State := advanceFrom k (s.eng k).pc s

/-- Loops that a branch to `t` leaves active: it ends every loop whose body does not hold `t`, and all inside it. -/
def loopsAfterBranch (t : Nat) (ls : List LoopFrame) : List LoopFrame :=
  ((ls.reverse).takeWhile fun f => decide (f.first ≤ t ∧ t ≤ f.last)).reverse

/-- Take a branch. Inside a group only the group's own loops can end by it (R121, R162). -/
def branchTo (k t : Nat) (s : State) : State :=
  let n := match s.inGroup k with
    | none => (s.eng k).loops.length
    | some _ => (s.eng k).innerLoops.length
  land k t true (s.updEng k fun e => { e with loops := loopsAfterBranch t (e.loops.take n) ++ e.loops.drop n })

/-- The vector registers that an instruction reads: VA; VB, which CVT reads only for a target with blocks; FMA's VC; and
v(VA + 1), which holds the block scales of a packed source (R150, R151). -/
def vectorSources (op : Nat) (w : VFields) : List Nat :=
  match rowFor op w.mode.toNat with
  | none => []
  | some r =>
    let conv := op == 0x50 || op == 0x51 || op == 0x52
    let packed := conv && decide (fmtBlock (fSrc w) > 1) && !onRegSide (fSrc w) (fSrc w) w.fmt.toNat
    (if r.va == .V then [w.va.toNat] else []) ++ (if packed then [w.va.toNat + 1] else []) ++
      (if r.vb == .V && (op != 0x50 || decide (fmtBlock w.fmt.toNat > 1)) then [w.vb.toNat] else []) ++
      (if r.vc == .V && op == 0x23 then [w.vc.toNat] else [])

/-- Is the engine able to issue: running, for a stage that is loaded? -/
def State.issuing (s : State) (k : Nat) : Bool := (s.eng k).stat == .running && (s.stageOf k).isSome

/-- Is this the instruction that an engine fetches: its word stands at the instruction index of the code that the engine
runs (R1), and is one that R140 lets be loaded? -/
def State.fetches (s : State) (k op : Nat) (w : VFields) : Bool :=
  (s.code k)[(s.eng k).pc]? == some (wordOf op w) && wordOk (isInflector k) (s.code k).length op w

/-- Issue one instruction on an engine. An engine that is not running issues nothing; a run past the last instruction is
RUNOFF (R140); an instruction other than the one fetched does not happen; a source register with a parity error raises
EV_MEM_UNCORRECTABLE (R149). -/
def issue (e : Engine) (op : Nat) (w : VFields) (go : State → State) (s : State) :
    Host.Outcome State Fault Refusal :=
  let k := (engKey e)
  let pc := (s.eng k).pc
  .next (
    if !s.issuing k then s
    else if pc ≥ (s.code k).length then vecFault k 8 s
    else if s.badWords.contains (s.instrAddr k pc) then instrFault k (s.instrAddr k pc) s
    else if !s.fetches k op w then s
    else
      match (vectorSources op w).find? fun r => (s.eng k).badRegs.contains r with
      | some r => regFault k r s
      | none => go s)

/-- Issue an instruction that changes only its engine. -/
def issueRegs (e : Engine) (op : Nat) (w : VFields) (f : EngineState → EngineState) (s : State) :
    Host.Outcome State Fault Refusal :=
  issue e op w (fun s => advance (engKey e) (s.updEng (engKey e) f)) s

/-- Set vector flags (Table 2.12). -/
def EngineState.orV (e : EngineState) (fl : Fl) : EngineState := { e with vflags := e.vflags ||| BitVec.ofNat 4 fl }
/-- Set array flags. -/
def EngineState.orA (e : EngineState) (fl : Fl) : EngineState := { e with aflags := e.aflags ||| BitVec.ofNat 4 fl }

end Sys2Proof.Machine
end

