-- ==== Sys2Proof/Machine/StageOps.lean ====
section
/-!
DEFINITION. Sys2Proof/Machine/StageOps.lean: what the stage control logic does for a stage's cells: starting runs
(R137), rewinding and settling takes (R457), the numeric log and its counters (R127 to R129), and the predictor
(R131, R132).
-/
namespace Sys2Proof.Machine

/-! ### What firmware keeps for a stage in HBM (R36, R127, Tables 5.6 and 8.1; log 130) -/

/-- Numeric log entry `i`. -/
def logAddr (v i : Nat) : Nat × Nat := (Config.stageTables v + 32 * i, 32)
/-- Predictor slot `i`. -/
def predAddr (v i : Nat) : Nat × Nat := (Config.stageTables v + 2 ^ 17 + 128 * i, 128)
/-- Tense slot record `i`. -/
def tenseAddr (v i : Nat) : Nat × Nat := (Config.stageTables v + 2 ^ 17 + 2 ^ 19 + 64 * i, 64)

/-- Every cell of a stage satisfies `p`. -/
def State.cellsAll (s : State) (v : Nat) (p : EngineState → Bool) : Bool :=
  !(s.stage v).cellKeys.isEmpty && (s.stage v).cellKeys.all fun k => p (s.eng k)

/-- Change every cell of a stage. -/
def State.updCells (s : State) (v : Nat) (f : EngineState → EngineState) : State :=
  forEach (s.stage v).cellKeys (fun k s => s.updEng k f) s

/-- A stage that runs: loaded, started and not halted. -/
def Stage.live (g : Stage) : Bool := g.loaded && g.started && g.haltCode == 0

/-! ### Blocks that are not written back (R63, R82, R123, R129) -/

/-- The events of the adds whose sums stand in a tile's banks (R68). -/
def TileRun.events (t : TileRun) : Fl := ((t.bank0 ++ t.bank1).map (·.events)).foldl (fun a x => a ||| x) 0

/-- A null-group overflow of a cell is kept for R129; the first cell's stands. -/
def nullOverflow (k : Nat) (s : State) : State :=
  match s.stageOfCell k with
  | none => s
  | some v => s.updStage v fun g => { g with nullOvf := match g.nullOvf with
      | some u => some u
      | none => some (k * 64) }

/-- Tiles of engine `k` are gone, and what their adds have raised stands: the sticky flags, and a null group's overflow. -/
def keepEvents (k : Nat) (ts : List TileRun) (s : State) : State :=
  let s := s.updEng k fun e => e.orA ((ts.map TileRun.events).foldl (fun a x => a ||| x) 0)
  if !isInflector k && ts.any fun t => t.group == 0 && t.events % 2 == 1 then nullOverflow k s else s

/-- Discard the tiles that `p` names, with the sums in their banks. -/
def discardTiles (k : Nat) (p : TileRun → Bool) (s : State) : State :=
  keepEvents k ((s.eng k).inFlight.filter p) (s.updEng k fun e => { e with inFlight := e.inFlight.filter fun t => !p t })

/-- What a halt has left in the accumulators is discarded when the stage goes on (R82). -/
def discardEnded (k : Nat) (s : State) : State := discardTiles k (·.ending) s

/-! ### Runs of the stage code (R137, R374) -/

/-- The registers that the device sets each time the stage code starts in a cell. -/
def startRegs (v rank count blockAddr : Nat) (e : EngineState) : EngineState :=
  let e := e.ws 1 (BitVec.ofNat 64 rank)
  let e := e.ws 2 (BitVec.ofNat 64 count)
  let e := e.ws 3 (BitVec.ofNat 64 v)
  e.ws 4 (BitVec.ofNat 64 blockAddr)

/-- Start the stage code in every cell at instruction `pc`; an ENTRY0 is a place to wait at (R121). -/
def startAt (v pc : Nat) (s : State) : State :=
  let g := s.stage v
  forEach (number 0 g.cellKeys) (fun (rank, k) s =>
    landNull k pc (s.updEng k fun e =>
      { startRegs v rank g.cellKeys.length g.image.blockAddr e with stat := .running, loops := [], outerLoops := 0 })) s

/-- Takes can no longer be rewound: every slot but the last take's becomes free, and takes that a resume has still to return
again stay (R179, R457). -/
def InQueue.settle (q : InQueue) : InQueue :=
  let n := q.held.length - (q.replay + 1)
  { q with rewindable := q.replay, freed := q.freed + n, held := q.held.drop n }

/-- A layer group starts: the takes before it can be rewound no longer, but for those still to be returned again. -/
def InQueue.enter (q : InQueue) : InQueue := { q with rewindable := q.replay }

/-- Takes since the restart point are returned again (R457). -/
def InQueue.rewind (q : InQueue) : InQueue := { q with replay := q.rewindable }

/-- The stage passes a layer-group end or starts a new run: earlier takes are settled. -/
def Stage.settle (g : Stage) : Stage :=
  { g with forwardIn := g.forwardIn.settle, backwardIn := g.backwardIn.settle }

/-- Rewind the takes of both in-queues. -/
def Stage.rewind (g : Stage) : Stage :=
  { g with forwardIn := g.forwardIn.rewind, backwardIn := g.backwardIn.rewind }

/-- An out-queue without the Clauses held until a group's end: the reservations that they used are held again (R125,
R457). -/
def OutQueue.dropHeld (q : OutQueue) : OutQueue :=
  { q with heldBack := [], reserved := q.reserved + (q.heldBack.filter (·.2)).length }

/-- KIND of a Clause (Table 7.3). -/
def clauseKind (c : BitVec 512) : Nat := bits c.toNat 3 0

/-- Clauses held until a group's end are discarded (R125). -/
def Stage.dropHeld (g : Stage) : Stage :=
  { g with
    forwardOut := g.forwardOut.dropHeld, backwardOut := g.backwardOut.dropHeld
    update := { g.update with
      placedFwd := g.update.placedFwd - bit (g.forwardOut.heldBack.any fun h => clauseKind h.1 == 4)
      placedBack := g.update.placedBack - bit (g.backwardOut.heldBack.any fun h => clauseKind h.1 == 3) } }

/-- The engine's tile ordinals count from 0 again (R254). -/
def EngineState.zeroOrdinal (e : EngineState) : EngineState := { e with ordinal := 0, restartOrdinal := 0 }
/-- They count on from here when null-group code is resumed. -/
def EngineState.keepOrdinal (e : EngineState) : EngineState := { e with restartOrdinal := e.ordinal }
/-- Null-group code is resumed: the tiles issued since the restart point are issued again. -/
def EngineState.resumeOrdinal (e : EngineState) : EngineState := { e with ordinal := e.restartOrdinal }

/-- A new run of the stage code after its END barrier. -/
def newRun (v : Nat) (s : State) : State :=
  let s := s.updStage v fun g => { (g.dropHeld).settle with exec := none, restart := 0 }
  startAt v 0 (s.updCells v EngineState.keepOrdinal)

/-! ### The numeric log (R127 to R129) -/

/-- What an entry says (Table 5.4): KIND, rungs, group, DIR, RECOMP, the cell's unit address and LOST_CYCLES. -/
structure LogArgs where
  kind : Nat
  fromRung : Nat
  toRung : Nat
  group : Nat
  dir : Bool
  recomp : Bool
  unit : Nat
  lostCycles : Nat
deriving DecidableEq, Repr

/-- An entry of Table 5.4. -/
def logWord (uptime mb commit seq v : Nat) (a : LogArgs) : BitVec 256 :=
  BitVec.ofNat 256 (1 + a.kind * 2 ^ 12 + bit a.recomp * 2 ^ 14 + bit a.dir * 2 ^ 15 + a.toRung * 2 ^ 16 +
    a.fromRung * 2 ^ 18 + v * 2 ^ 20 + (if a.unit = 0 then 0 else 6) * 2 ^ 24 + a.lostCycles % 2 ^ 32 * 2 ^ 32 +
    a.unit * 2 ^ 64 + a.group * 2 ^ 80 + seq % 2 ^ 32 * 2 ^ 96 + commit % 2 ^ 32 * 2 ^ 128 + mb % 2 ^ 32 * 2 ^ 160 +
    uptime * 2 ^ 192)

/-- Write one entry at ring index SEQ mod 4 096. -/
def logEntry (v : Nat) (a : LogArgs) (s : State) : State :=
  let at' := logAddr v ((s.stage v).logSeq % 4096)
  (s.mend at'.1 at'.2).updStage v fun g =>
    let (mb, commit) := match g.current with
      | some (_, mb, c) => (mb, c)
      | none => (0, 0)
    { g with
      log := sset 0 (g.logSeq % 4096) (logWord s.chip.uptime.toNat mb commit g.logSeq v a) g.log
      logSeq := g.logSeq + 1
      logOverrun := if g.logRead + 4096 ≤ g.logSeq then satInc g.logOverrun else g.logOverrun }

/-- The PROPAGATE entry of a null-group overflow (R129). -/
def nullPropagate (v : Nat) (s : State) : State :=
  match (s.stage v).nullOvf with
  | none => s
  | some u =>
    let s := logEntry v ⟨2, 0, 0, 0, false, false, u, 0⟩ s
    s.updStage v fun g => { g with nullOvf := none, propagated := satInc g.propagated }

/-! ### The predictor (R130 to R132) -/

/-- WIDEN in FP32 (R132). -/
def growthGo : List Nat → Nat → Nat
  | a :: b :: t, r =>
    let r' :=
      if fpAbs fFP32 a = 0 then (if fpCompare fFP32 2 a b then fFP32.infCode false else r)
      else
        let q := (fpDiv fFP32 b a).1
        if fpCompare fFP32 2 r q then q else r
    growthGo (b :: t) r'
  | _, r => r

/-- Does a full history of maxima project past half of the limit? -/
def widenOf (amax : List W32) (limit : W32) : Bool :=
  let a := amax.map (·.toNat)
  let last := a.getLastD 0
  if a.length < 16 then false
  else if fpAbs fFP32 last = 0 then false
  else
    let p := (fpMul fFP32 last (growthGo a 0x3F800000)).1
    fpCompare fFP32 2 (fpMul fFP32 limit.toNat 0x3F000000).1 p

/-- Close a slot's window: enter its largest value when the window is finite and `ok` (R131). -/
def PredSlot.close (p : PredSlot) (ok : Bool) : PredSlot :=
  let p' := { p with window := none, nonFinite := false }
  match p.window, p.nonFinite with
  | none, false => p'
  | w, nf =>
    match ok && !nf, w with
    | true, some x =>
      let amax := (p.amax ++ [x]).drop ((p.amax.length + 1) - 16)
      { p' with amax := amax, widen := widenOf amax p.limit }
    | _, _ => { p' with skipped := satInc p.skipped }

/-- Close the windows of every slot of a stage: the end of a synchronous update (R131). -/
def Stage.closeWindows (g : Stage) (ok : Bool) : Stage :=
  { g with preds := g.preds.map fun p => p.close ok, windowRungs := [], windowExecs := [], prewidened := [] }

/-- Close the windows of one group's slots: U executions in asynchronous mode. -/
def Stage.closeGroup (g : Stage) (id : Nat) : Stage :=
  { g with
    preds := g.preds.map fun p => if p.group = id then p.close true else p
    windowRungs := sset 0 id 0 g.windowRungs, windowExecs := sset 0 id 0 g.windowExecs
    prewidened := g.prewidened.filter (· != id) }

/-- Take one value into a slot's window. -/
def PredSlot.take (p : PredSlot) (c : Nat) : PredSlot :=
  match decodeF fFP32 c with
  | .fin _ _ _ =>
    { p with window := some (match p.window with
        | none => BitVec.ofNat 32 c
        | some x => if fpCompare fFP32 2 x.toNat c then BitVec.ofNat 32 c else x) }
  | _ => { p with nonFinite := true }

/-- Read one slot's value at its group's end; a bad word or an absent die marks the window non-finite and halts nothing
(R131). Table 1.4 names no stage control logic; the die's mesh, its domain in Table 5.3, is the issuer; a value that a guest
die holds is free (log 13). -/
def readPred (v i : Nat) (s : State) : State :=
  let g := s.stage v
  let unit := unitAddr g.image.die 112 0
  match g.preds[i]? with
  | none => s
  | some p =>
    let setP (f : PredSlot → PredSlot) (s : State) : State :=
      s.updStage v fun g => { g with preds := g.preds.mapIdx fun j q => if j = i then f q else q }
    let die := p.addr / 2 ^ 40
    if p.addr < 2 ^ 47 && s.absent die then
      setP (fun p => { p with nonFinite := true })
        (raise 0x0102 unit 0 [(2, g.image.stage), (1, die), (8, p.addr)] s)
    else
      match (s.badIn (predAddr v i).1 128).or (s.badIn p.addr 4) with
      | some w => setP (fun p => { p with nonFinite := true }) (memBadNoHalt (some v) w unit 0 s)
      | none =>
        if isGuest p.addr then
          setP (fun p => p.take (leNat (s.freeBytes 4))) { s with freeCount := s.freeCount + 4 }
        else setP (fun p => p.take (leNat (s.fetch p.addr 4))) s

end Sys2Proof.Machine
end

