-- ==== Sys2Proof/Machine/VecControl.lean ====
section
/-!
DEFINITION. Sys2Proof/Machine/VecControl.lean: control flow, waits, tiles and transfers of the vector engine (0x00 to
0x08, 0x57, 0x58 of Table 6.4) and the stage barrier (R137, R158, R162 to R166).
-/
namespace Sys2Proof.Machine

/-- NOP. -/
def execNop (e : Engine) (w : VFields) (s : State) : Host.Outcome State Fault Refusal :=
  issue e 0x00 w (advance (engKey e)) s

/-- COMPLETION_TAG of a descriptor. -/
def descTag (d : BitVec 1024) : Nat := bits d.toNat 167 160

/-- Tags of the outstanding tiles and transfers of an engine (R164). -/
def EngineState.tags (e : EngineState) : List Nat :=
  e.tileQ.map (fun t => descTag t.desc) ++ (e.inFlight.filter (!·.ending)).map (fun t => descTag t.desc) ++
    e.dmaQ.map (·.tag)

/-- The end of a rule's run: without a COMMIT it raises EV_RULE_INCOMPLETE and its update is abandoned (R226). -/
def ruleEnd (k : Nat) (s : State) : State :=
  let r := s.eng k
  if !r.tags.isEmpty then s
  else
    let v := r.ruleStage
    let s' := s.updEng k fun e => { e with stat := .idle, ruleStage := none, committed := false, loops := [], outerLoops := 0 }
    if r.committed then s'
    else haltOf v 0x0207 (raise 0x0207 (engUnit k).1 (engUnit k).2 [(2, s.stageNum v)] s)

/-- END in a cell: it waits at the stage's barrier; the last one reaches the end of the code (R129, R137). -/
def cellEnd (k : Nat) (s : State) : State :=
  let s := s.updEng k fun e => { e with stat := .waitEnd }
  match s.stageOfCell k with
  | none => s
  | some v => if s.cellsAll v (fun e => e.stat == .waitEnd) then nullPropagate v s else s

/-- END (R137, R226). -/
def execEnd (e : Engine) (w : VFields) (s : State) : Host.Outcome State Fault Refusal :=
  issue e 0x01 w (fun s => if isInflector (engKey e) then ruleEnd (engKey e) s else cellEnd (engKey e) s) s

/-- BR (R141). -/
def execBr (e : Engine) (w : VFields) (s : State) : Host.Outcome State Fault Refusal :=
  issue e 0x02 w (branchTo (engKey e) w.imm.toNat) s

/-- Does BRC's condition hold? -/
def brcTaken (mode : Nat) (x : W64) : Bool :=
  match mode with
  | 0 => x == 0
  | 1 => x != 0
  | 2 => x.msb
  | _ => !x.msb

/-- BRC (R141). -/
def execBrc (e : Engine) (w : VFields) (s : State) : Host.Outcome State Fault Refusal :=
  issue e 0x03 w (fun s =>
    let k := engKey e
    if brcTaken w.mode.toNat ((s.eng k).rs w.va.toNat) then branchTo k w.imm.toNat s else advance k s) s

/-- The operation of LOOP (R162); the depth is checked before the count (log 126). -/
def loopOp (k : Nat) (w : VFields) (s : State) : State :=
  let r := s.eng k
  let n := (r.rs w.va.toNat).toNat % 2 ^ 32
  if r.loops.length ≥ 4 then vecFault k 4 s
  else if n = 0 then advanceFrom k w.imm.toNat s
  else
    land k (r.pc + 1) false (s.updEng k fun e => { e with loops := ⟨r.pc + 1, w.imm.toNat, n⟩ :: e.loops })

/-- LOOP. -/
def execLoop (e : Engine) (w : VFields) (s : State) : Host.Outcome State Fault Refusal :=
  issue e 0x04 w (loopOp (engKey e) w) s

/-- SYNC: the cell waits for the others (R165). -/
def execSync (e : Engine) (w : VFields) (s : State) : Host.Outcome State Fault Refusal :=
  issue e 0x05 w (fun s => s.updEng (engKey e) fun e => { e with stat := .waitSync }) s

/-- WAIT: it goes on when nothing that it names is outstanding (R164). -/
def execWait (e : Engine) (w : VFields) (s : State) : Host.Outcome State Fault Refusal :=
  issue e 0x06 w (fun s =>
    let ts := (s.eng (engKey e)).tags
    let busy := if w.mode = 1 then !ts.isEmpty else ts.contains (bits w.imm.toNat 7 0)
    if busy then s else advance (engKey e) s) s

/-- Where a TILE.GO descriptor may lie (R163). -/
def descReach (k : Nat) : Region → Bool
  | .cellStore d c => !isInflector k && d == dieOf k && c == k % 128
  | .inflSram d => isInflector k && d == dieOf k
  | _ => false

/-- The operation of TILE.GO (R163). -/
def tileGo (k : Nat) (w : VFields) (s : State) : State :=
  let r := s.eng k
  let a := (r.rs w.va.toNat).toNat
  if a % 128 ≠ 0 then vecFault k 1 s
  else
    match checkAccess s k (descReach k) a 128 false with
    | .ok =>
      if r.tileQ.length ≥ 64 then s
      else
        let group := match s.inGroup k with
          | some (g, _, _) => g
          | none => 0
        let d := BitVec.ofNat 1024 (memNat s.mem a 128)
        advance k (s.updEng k fun e =>
          { e with tileQ := e.tileQ ++ [⟨a, d, group, e.ordinal, false⟩], ordinal := e.ordinal + 1 })
    | f => accessFault k (engUnit k).1 (engUnit k).2 a f s

/-- TILE.GO. -/
def execTileGo (e : Engine) (w : VFields) (s : State) : Host.Outcome State Fault Refusal :=
  issue e 0x07 w (tileGo (engKey e) w) s

/-- The operation of DMA.GO: its operands are checked before it waits or queues (R163). -/
def dmaGo (k : Nat) (w : VFields) (s : State) : State :=
  let r := s.eng k
  let src := (r.rs w.va.toNat).toNat
  let dst := (r.rs w.vb.toNat).toNat
  let len := (r.rs w.vc.toNat).toNat
  if src % 64 ≠ 0 || dst % 64 ≠ 0 then vecFault k 1 s
  else if len % 64 ≠ 0 || len < 64 || len > 16777216 then vecFault k 3 s
  else if r.dmaQ.length ≥ 16 then s
  else advance k (s.updEng k fun e => { e with dmaQ := e.dmaQ ++ [⟨src, dst, len, bits w.imm.toNat 7 0, 0, false⟩] })

/-- DMA.GO. -/
def execDmaGo (e : Engine) (w : VFields) (s : State) : Host.Outcome State Fault Refusal :=
  issue e 0x08 w (dmaGo (engKey e) w) s

/-- XRED: the cell offers its value and waits for the others (R158). -/
def execXred (e : Engine) (w : VFields) (s : State) : Host.Outcome State Fault Refusal :=
  issue e 0x57 w (fun s =>
    s.updEng (engKey e) fun r => { r with stat := .waitXred (r.rs w.va.toNat) w.mode.toNat w.vd.toNat }) s

/-- The flag word of Table 2.12 above the counter word of Table 2.13 (R66, R166). -/
def EngineState.flagWords (e : EngineState) : W64 :=
  BitVec.ofNat 64 (e.vflags.toNat + 16 * e.aflags.toNat + 2 ^ 32 * e.lost.toNat)

/-- A write to the flag word: bits 7 to 0 clear flags, bit 8 the counter. -/
def EngineState.clearFlags (e : EngineState) (m : Nat) : EngineState :=
  { e with vflags := e.vflags &&& ~~~(BitVec.ofNat 4 (bits m 3 0)), aflags := e.aflags &&& ~~~(BitVec.ofNat 4 (bits m 7 4))
           lost := if bitAt m 8 then 0 else e.lost }

/-- FLAGS. -/
def execFlags (e : Engine) (w : VFields) (s : State) : Host.Outcome State Fault Refusal :=
  issueRegs e 0x58 w (fun r => (r.ws w.vd.toNat r.flagWords).clearFlags w.imm.toNat) s

/-! ### The stage barrier (R137, R158, R165) -/

/-- The value of XRED over the cells' offers, by rank, and the flags that its adds set (R158); MAX takes magnitudes
(log 126). -/
def xredValue (mode : Nat) (xs : List W64) : W64 × Fl :=
  match mode with
  | 0 => (BitVec.ofNat 64 ((xs.map fun x => x.toNat % 2 ^ 32).foldl (fpMaxMag fFP32) 0), 0)
  | 1 =>
    let (r, fl) := tree fFP32 false (xs.map fun x => decodeF fFP32 (x.toNat % 2 ^ 32))
    (BitVec.ofNat 64 (codeOf fFP32 r), fl)
  | _ => (xs.foldl (· ||| ·) 0, 0)

/-- What a cell offers to an XRED of a mode. -/
def xredOffer (mode : Nat) (e : EngineState) : Option W64 :=
  match e.stat with
  | .waitXred x m _ => if m = mode then some x else none
  | _ => none

/-- Complete an XRED in one cell. -/
def xredFinish (k : Nat) (r : W64 × Fl) (s : State) : State :=
  let vd := match (s.eng k).stat with
    | .waitXred _ _ vd => vd
    | _ => 0
  advance k (s.updEng k fun e => { (e.ws vd r.1).orV r.2 with stat := .running })

/-- Release the barrier that every cell of a stage has reached. -/
def releaseBarrier (v : Nat) (s : State) : State :=
  let ks := (s.stage v).cellKeys
  let es := ks.map s.eng
  if !(s.stage v).live || ks.isEmpty then s
  else if es.all fun e => e.stat == .waitSync && e.dmaQ.isEmpty then
    forEach ks (fun k s => advance k (s.updEng k fun e => { e with stat := .running })) s
  else if es.all fun e => e.stat == .waitEnd then newRun v s
  else
    let mode := match (es.headD {}).stat with
      | .waitXred _ m _ => m
      | _ => 0
    let offers := es.filterMap (xredOffer mode)
    if offers.length = ks.length then forEach ks (fun k s => xredFinish k (xredValue mode offers) s) s
    else s

/-- STAGE_BARRIER_RELEASE. -/
def execStageBarrierRelease (v : Fin 16) (s : State) : Host.Outcome State Fault Refusal :=
  .next (releaseBarrier v.val s)

end Sys2Proof.Machine
end

