-- ==== Sys2Proof/Machine/TileDesc.lean ====
section
/-!
DEFINITION. Sys2Proof/Machine/TileDesc.lean: the tile descriptor (R83, R84), its checks (R74, R77, R85, R122), the ranges
that it reads and writes (R80) and the selection of shadow tiles (R253, R254).
-/
namespace Sys2Proof.Machine

/-! ### Fields (Table 3.7) -/

/-- Bits of a descriptor. -/
def dField (d : BitVec 1024) (hi lo : Nat) : Nat := bits d.toNat hi lo
/-- PRELOAD_STRIDE -/
def dPreStride (d : BitVec 1024) : Nat := dField d 959 928
/-- OUT_STRIDE -/
def dOutStride (d : BitVec 1024) : Nat := dField d 927 896
/-- B_STRIDE -/
def dBStride (d : BitVec 1024) : Nat := dField d 895 864
/-- A_STRIDE -/
def dAStride (d : BitVec 1024) : Nat := dField d 863 832
/-- AUX_ADDR -/
def dAux (d : BitVec 1024) : Nat := dField d 815 768
/-- PRELOAD_ADDR -/
def dPreAddr (d : BitVec 1024) : Nat := dField d 751 704
/-- OUT_ADDR -/
def dOut (d : BitVec 1024) : Nat := dField d 687 640
/-- B_TS_ADDR -/
def dBTs (d : BitVec 1024) : Nat := dField d 623 576
/-- B_SCALE_ADDR -/
def dBScale (d : BitVec 1024) : Nat := dField d 559 512
/-- B_ADDR -/
def dB (d : BitVec 1024) : Nat := dField d 495 448
/-- A_TS_ADDR -/
def dATs (d : BitVec 1024) : Nat := dField d 431 384
/-- A_SCALE_ADDR -/
def dAScale (d : BitVec 1024) : Nat := dField d 367 320
/-- A_ADDR -/
def dA (d : BitVec 1024) : Nat := dField d 303 256
/-- SR_SEED -/
def dSeed (d : BitVec 1024) : Nat := dField d 255 192
/-- ROWSUM -/
def dRowSum (d : BitVec 1024) : Bool := d.getLsbD 152
/-- ROWMAX -/
def dRowMax (d : BitVec 1024) : Bool := d.getLsbD 151
/-- PRELOAD -/
def dPre (d : BitVec 1024) : Nat := dField d 150 148
/-- N -/
def dN (d : BitVec 1024) : Nat := dField d 147 128
/-- M -/
def dM (d : BitVec 1024) : Nat := dField d 115 96
/-- K -/
def dK (d : BitVec 1024) : Nat := dField d 95 64
/-- LAYER_GROUP -/
def dGroup (d : BitVec 1024) : Nat := dField d 63 48
/-- SAT -/
def dSat (d : BitVec 1024) : Bool := d.getLsbD 31
/-- ORDER -/
def dOrder (d : BitVec 1024) : Bool := d.getLsbD 30
/-- FMT_OUT -/
def dFmtOut (d : BitVec 1024) : Nat := dField d 29 26
/-- FMT_B -/
def dFmtB (d : BitVec 1024) : Nat := dField d 25 22
/-- FMT_A -/
def dFmtA (d : BitVec 1024) : Nat := dField d 21 18
/-- GANG_BASE -/
def dBase (d : BitVec 1024) : Nat := dField d 17 12
/-- D, from DEPTH -/
def dDepth (d : BitVec 1024) : Nat := 2 ^ dField d 10 8
/-- S, from SHAPE -/
def dShape (d : BitVec 1024) : Nat := 16 * 2 ^ dField d 7 6
/-- Arrays n of the gang (R73). -/
def dArrays (d : BitVec 1024) : Nat := (dShape d / 16) * (dShape d / 16) * dDepth d

/-- Bytes of one row of K elements, stored up to whole blocks (R49, R50). -/
def rowBytes (fmt k : Nat) : Nat := cdiv (alignUp k (fmtBlock fmt) * fmtWidth fmt) 8
/-- Scale bytes of one row. -/
def scaleBytes (fmt k : Nat) : Nat := cdiv k (fmtBlock fmt)
/-- Width in bytes of a preload value. -/
def preWidth (d : BitVec 1024) : Nat := if dPre d = 1 || dPre d = 3 then 4 else 2
/-- Is the preload a residual? -/
def preResidual (d : BitVec 1024) : Bool := dPre d == 3 || dPre d == 4

/-- Segments of a long sum (R105); 1 for any other tile. -/
def longCount (d : BitVec 1024) : Nat := if dOrder d then 1 else cdiv (dK d) longLen
/-- Width in bytes of an accumulator and of a partial sum of the carry tensor: FP32, or FP64 for an FP64 tile (log 28). -/
def accBytes (d : BitVec 1024) : Nat := if dFmtA d = 0xE then 8 else 4
/-- Offset of the row maxima in the auxiliary area (R90). -/
def maxOff (d : BitVec 1024) : Nat :=
  if longCount d > 1 then alignUp (longCount d * dM d * dN d * accBytes d) 64 else 0
/-- Offset of the row sums. -/
def sumOff (d : BitVec 1024) : Nat := if dRowMax d then alignUp (maxOff d + dM d * 4) 64 else maxOff d
/-- Is the auxiliary area needed (R90)? -/
def auxNeeded (d : BitVec 1024) : Bool := dRowSum d || dRowMax d || decide (longCount d > 1)
/-- Bytes of the auxiliary area; 0 where it is not needed. -/
def auxLen (d : BitVec 1024) : Nat :=
  if dRowSum d then sumOff d + dM d * 4
  else if dRowMax d then maxOff d + dM d * 4
  else if longCount d > 1 then longCount d * dM d * dN d * accBytes d else 0

/-! ### The checks of Table 3.8a -/

/-- The reserved bit ranges of Table 3.7. -/
def descReserved : List (Nat × Nat) :=
  [(1023, 960), (831, 816), (767, 752), (703, 688), (639, 624), (575, 560), (511, 496), (447, 432), (383, 368),
   (319, 304), (191, 168), (159, 153), (127, 116), (47, 32), (11, 11), (5, 4)]

/-- A reserved field or code, or a field that the tile does not use, is nonzero. -/
def descReservedBad (d : BitVec 1024) : Bool :=
  (descReserved.any fun r => dField d r.1 r.2 != 0) || dField d 3 0 != 1 || decide (dField d 10 8 > 4) ||
  decide (dPre d > 4) ||
  (fmtBlock (dFmtA d) == 1 && dAScale d != 0) || (!fmtHasTensorScale (dFmtA d) && dATs d != 0) ||
  (fmtBlock (dFmtB d) == 1 && dBScale d != 0) || (!fmtHasTensorScale (dFmtB d) && dBTs d != 0) ||
  (dPre d == 0 && dPreAddr d != 0) || (!preResidual d && dPreStride d != 0) || (!auxNeeded d && dAux d != 0)

/-- Operand pairs of Table 2.5. -/
def pairOk (a b : Nat) : Bool :=
  let mx (c : Nat) := decide (6 ≤ c ∧ c ≤ 9)
  if a = 0xD || b = 0xD then (a == 0xD && (b == 0xC || b == 0xA)) || (b == 0xD && (a == 0xC || a == 0xA))
  else if mx a || mx b then (mx a || a == 0xA) && (mx b || b == 0xA)
  else if a = 3 || a = 4 then b == 3 || b == 4
  else a == b && [0, 1, 2, 5, 0xA, 0xB, 0xC].contains a

/-- R84's alignments and strides. -/
def descAligned (d : BitVec 1024) : Bool :=
  ([dA d, dB d, dOut d, dPreAddr d, dAux d, dAScale d, dBScale d, dPreStride d, dOutStride d, dBStride d,
    dAStride d].all fun x => x % 64 == 0) && dATs d % 4 == 0 && dBTs d % 4 == 0 &&
  (decide (dM d ≤ 1) || (decide (rowBytes (dFmtA d) (dK d) ≤ dAStride d) &&
    decide (cdiv (dN d * fmtWidth (dFmtOut d)) 8 ≤ dOutStride d) &&
    (!preResidual d || decide (dN d * preWidth d ≤ dPreStride d)))) &&
  (decide (dN d ≤ 1) || decide (rowBytes (dFmtB d) (dK d) ≤ dBStride d))

/-- Length from an address over rows that are a stride apart; one row steps over nothing (R84). -/
def spanLen (stride rows rowLen : Nat) : Nat := stride * (rows - 1) + rowLen

/-- Read ranges of a tile: address and length (R80). -/
def tileReads (d : BitVec 1024) : List (Nat × Nat) :=
  [(dA d, spanLen (dAStride d) (dM d) (rowBytes (dFmtA d) (dK d))),
   (dB d, spanLen (dBStride d) (dN d) (rowBytes (dFmtB d) (dK d)))] ++
  (if fmtBlock (dFmtA d) > 1 then [(dAScale d, dM d * scaleBytes (dFmtA d) (dK d))] else []) ++
  (if fmtBlock (dFmtB d) > 1 then [(dBScale d, dN d * scaleBytes (dFmtB d) (dK d))] else []) ++
  (if fmtHasTensorScale (dFmtA d) then [(dATs d, 4)] else []) ++
  (if fmtHasTensorScale (dFmtB d) then [(dBTs d, 4)] else []) ++
  (if dPre d = 0 then []
   else if preResidual d then [(dPreAddr d, spanLen (dPreStride d) (dM d) (dN d * preWidth d))]
   else [(dPreAddr d, dN d * preWidth d)])

/-- Write ranges of a tile. -/
def tileWrites (d : BitVec 1024) : List (Nat × Nat) :=
  (dOut d, spanLen (dOutStride d) (dM d) (cdiv (dN d * fmtWidth (dFmtOut d)) 8)) ::
    (if auxLen d > 0 && dAux d != 0 then [(dAux d, auxLen d)] else [])

/-- The kind of memory of an address, the stacks of one die counting as one. -/
def regionKind (a : Nat) : Region :=
  match regionOf a with
  | .hbm d _ => .hbm d 0
  | r => r

/-- Does a range lie where R77 allows? -/
def rangeLocated (k : Nat) (r : Nat × Nat) : Bool :=
  tileReach k (regionOf r.1) && regionKind r.1 == regionKind (r.1 + (r.2 - 1))

/-- The first reason of Table 3.8a that a descriptor meets, issued on engine `k`; `grade` arrays are enabled. -/
def descReason (k grade : Nat) (reduced : Bool) (d : BitVec 1024) : Option Nat :=
  let a := dFmtA d
  let b := dFmtB d
  let infl := isInflector k
  if descReservedBad d then some 1
  else if reduced && !((a == 0 || a == 1) && (b == 0 || b == 1)) then some 2
  else if dArrays d > 64 then some 3
  else if dBase d % dArrays d ≠ 0 || dBase d + dArrays d > (if infl then 64 else grade) then some 4
  else if !(if infl then a == b && (a == 0 || a == 1 || a == 0xE) else pairOk a b) then some 5
  else if !((if infl then [0, 1, 0xE] else [0, 1, 2]).contains (dFmtOut d)) then some 6
  else if dM d = 0 || dN d = 0 || dK d = 0 then some 7
  else if !descAligned d then some 8
  else if !((tileReads d ++ tileWrites d).all (rangeLocated k)) then some 9
  else if auxNeeded d && dAux d = 0 then some 10
  else none

/-- The source of a tile's events: the tile sequencer of a cell, or the Inflector's array at GANG_BASE (R85). -/
def tileUnit (k : Nat) (d : BitVec 1024) : Nat × Nat :=
  if isInflector k then (unitAddr (dieOf k) 96 (dBase d), 0) else (k * 64, 2)

/-- Do two gangs share an array? -/
def gangsMeet (d d' : BitVec 1024) : Bool := overlaps (dBase d) (dArrays d) (dBase d') (dArrays d')

/-- Subtiles of a tile (R78). -/
def subtileCount (d : BitVec 1024) : Nat := cdiv (dM d) (dShape d) * cdiv (dN d) (dShape d)

/-- May a tile start beside an older one in flight, as far as memory goes (R80)? -/
def rangesClear (d old : BitVec 1024) : Bool :=
  let any2 (xs ys : List (Nat × Nat)) := xs.any fun x => ys.any fun y => overlaps x.1 x.2 y.1 y.2
  !any2 (tileWrites old) (tileReads d ++ tileWrites d) && !any2 (tileReads old) (tileWrites d)

/-! ### Shadow tiles (R253, R254) -/

/-- The partner of a cell engine. -/
def partnerOf (k : Nat) : Nat :=
  let c := k % 128
  (dieOf k) * 128 + (if c / 12 % 2 = 0 then c + 12 else c - 12)
/-- The arbiter of a cell engine. -/
def arbiterOf (k : Nat) : Nat := (dieOf k) * 128 + (k % 128 + 24) % 96

/-- Threshold of a shadow fraction code (Table 10.1). -/
def shadowThreshold (code : Nat) : Nat :=
  match code with
  | 1 => 0x01000000 | 2 => 0x04000000 | 3 => 0x10000000 | 4 => 0x40000000 | _ => 0

/-- Is the tile of a cell selected for shadowing (R254)? -/
def State.selected (s : State) (k : Nat) (d : BitVec 1024) (ordinal : Nat) : Bool :=
  match s.stageOfCell k with
  | none => false
  | some v =>
    if isInflector k then false
    else
      let g := s.stage v
      let mb := match g.current with
        | some (_, mb, _) => mb
        | none => 0
      let (rung, recomp) := match g.exec with
        | some x => (x.rung, x.recomp)
        | none => (0, false)
      let ctr0 := mb % 2 ^ 32 * 2 ^ 32 + rung * 2 ^ 24 + 4 * 2 ^ 16 + bit recomp * 2 ^ 12 + dGroup d % 2 ^ 12
      let ctr1 := g.image.stage * 2 ^ 48 + (k % 128) * 2 ^ 40 + ordinal
      let h := cg s.job.seed g.shadowKey (BitVec.ofNat 64 ctr0) (BitVec.ofNat 64 ctr1)
      decide (h.toNat / 2 ^ 32 < shadowThreshold g.shadowCode)

/-! ### Acceptance (R80, R85, R255) -/

/-- Refuse a descriptor: the event and the halt. -/
def refuseTile (k : Nat) (t : TileReq) (reason : Nat) (s : State) : State :=
  let (u, c) := tileUnit k t.desc
  haltOf (s.stageOf k) 0x0104 (raise 0x0104 u c [(8, t.addr), (1, reason)] s)

/-- EV_LG_MISMATCH (R122). -/
def groupMismatch (k : Nat) (t : TileReq) (s : State) : State :=
  let (u, c) := tileUnit k t.desc
  haltOf (s.stageOf k) 0x0106 (raise 0x0106 u c [] s)

/-- Has a tile that its sequencer holds finished streaming: has it started, and do the sums of its last subtile stand in
their bank? -/
def TileRun.streamed (t : TileRun) : Bool := t.ending || (t.started && decide (t.next + 1 ≥ subtileCount t.desc))

/-- Does a finished block of a tile wait in a bank of its arrays (R68)? -/
def TileRun.undrained (t : TileRun) : Bool := t.started && decide (t.next < subtileCount t.desc)

/-- Banks of logical array `a` that hold a block of one of these tiles. -/
def banksHeld (ts : List TileRun) (a : Nat) : Nat :=
  (ts.filter fun o => o.undrained && decide (dBase o.desc ≤ a ∧ a < dBase o.desc + dArrays o.desc)).length

/-- Has each array of a tile's gang a free bank, on the partner's cell too where the tile is selected (R79)? -/
def State.bankFree (s : State) (k : Nat) (t : TileRun) : Bool :=
  let own := (s.eng k).inFlight
  let partner := if isInflector k then [] else (s.eng (partnerOf k)).inFlight
  (List.range (dArrays t.desc)).all fun j =>
    let a := dBase t.desc + j
    decide (banksHeld own a + banksHeld (partner.filter (·.shadow)) a < 2) &&
      (!t.shadow || decide (banksHeld partner a + banksHeld (own.filter (·.shadow)) a < 2))

/-- Tiles of an engine whose passes stream. -/
def EngineState.streaming (e : EngineState) : List TileRun := e.inFlight.filter fun t => t.started && !t.streamed

/-- Do the conditions of R80 hold for the tile at place `i` among the tiles that its sequencer holds, oldest first: it has
not started, every older tile that uses one of its arrays has finished streaming, and no range of an older one is in its
way? -/
def ownReady (ts : List TileRun) (i : Nat) : Bool :=
  match ts[i]? with
  | none => false
  | some t => !t.started && !t.ending &&
    (ts.take i).all fun o => (o.streamed || !gangsMeet t.desc o.desc) && rangesClear t.desc o.desc

/-- Selected tiles that R80 lets start and that wait for both gangs (R255). -/
def EngineState.shadowRequests (e : EngineState) : List TileRun :=
  (number 0 e.inFlight).filterMap fun x => if x.2.shadow && ownReady e.inFlight x.1 then some x.2 else none

/-- May the tile at place `i` start (R79, R80, R255)? A bank of its arrays is free. The partner's shadows occupy this cell's arrays while they stream; a
selected tile waits for the partner's own tiles too; and a selected tile of the partner that waits bars the gang's arrays,
but for a selected tile of the lower-numbered cell. -/
def State.mayStart (s : State) (k i : Nat) : Bool :=
  let ts := (s.eng k).inFlight
  let partner := if isInflector k then {} else s.eng (partnerOf k)
  ownReady ts i && match ts[i]? with
    | none => false
    | some t =>
      s.bankFree k t && (partner.streaming.all fun o => !(o.shadow || t.shadow) || !gangsMeet t.desc o.desc) &&
      (partner.shadowRequests.all fun o => !gangsMeet t.desc o.desc || (t.shadow && decide (k < partnerOf k)))

end Sys2Proof.Machine
end

