-- ==== Sys2Proof/Machine/TileRun.lean ====
section
/-!
DEFINITION. Sys2Proof/Machine/TileRun.lean: streaming a subtile into its accumulator bank (R68, R78, R93 to R107), taking
and starting tiles (R80, R85, R255), draining a subtile (R86 to R90, R256), overflow and abort (R122, R123), shadow
mismatches and their capture (R257, R258), completion (R81), and DMA transfers (R163).
-/
namespace Sys2Proof.Machine

/-! ### Overflow and abort (R122 to R124) -/

/-- Stop one cell at the abort barrier: queued descriptors are discarded, transfers complete. -/
def EngineState.abort (e : EngineState) : EngineState := { e with stat := .aborted, taking := false, tileQ := [] }

/-- Selected tiles in flight, whose shadows an abort cancels (R257). -/
def EngineState.shadows (e : EngineState) : Nat := (e.inFlight.filter (·.shadow)).length

/-- Abort the execution of a stage. -/
def abortStage (v : Nat) (s : State) : State :=
  let n := ((s.stage v).cellKeys.map fun k => (s.eng k).shadows).foldl (· + ·) 0
  let s := s.updFaults fun f => { f with shadowCancelled := satAdd f.shadowCancelled n }
  forEach (s.stage v).cellKeys (fun k s => (discardTiles k (fun _ => true) s).updEng k EngineState.abort) s

/-- A tile of a cell sets A_OV under R98 (a ROWSUM add is an add, R99) or R87: the bit of its group, with the abort that
follows where the group has a higher rung; a null-group overflow is kept for R129; an Inflector's sets no bit (R122). -/
def groupOverflow (k group : Nat) (s : State) : State :=
  if isInflector k then s
  else
    match s.stageOfCell k with
    | none => s
    | some v =>
      let g := s.stage v
      if group = 0 then nullOverflow k s
      else
        match g.exec, g.decl group with
        | some x, some d =>
          if x.group ≠ group then s
          else
            let ovf := match x.ovf with
              | some (f, m) => (f, min m (k * 64))
              | none => (k * 64, k * 64)
            let s := s.updStage v fun g => { g with exec := some { x with ovf := some ovf } }
            if x.recomp || x.rung + 1 ≥ declRungs d then s else abortStage v s
        | _, _ => s

/-! ### One subtile -/

/-- Rows and columns of subtile `i`, in row-band order (R78). -/
def subRows (d : BitVec 1024) (i : Nat) : List Nat :=
  let m0 := i / cdiv (dN d) (dShape d) * dShape d
  (List.range (min (dShape d) (dM d - m0))).map (m0 + ·)
/-- Columns of subtile `i`. -/
def subCols (d : BitVec 1024) (i : Nat) : List Nat :=
  let n0 := i % cdiv (dN d) (dShape d) * dShape d
  (List.range (min (dShape d) (dN d - n0))).map (n0 + ·)

/-- What a subtile reads: tensor scales, preload, rows of A with their scales, columns of B with theirs. -/
structure SubReads where
  ats : List (Nat × Nat)
  bts : List (Nat × Nat)
  pre : List (Nat × Nat)
  aRow : List (Nat × Nat)
  aScale : List (Nat × Nat)
  bCol : List (Nat × Nat)
  bScale : List (Nat × Nat)
deriving DecidableEq, Repr

/-- The reads of subtile `i`. -/
def subReads (d : BitVec 1024) (i : Nat) : SubReads :=
  let rows := subRows d i
  let cols := subCols d i
  let n0 := cols.headD 0
  let pw := preWidth d
  let a := dFmtA d
  let b := dFmtB d
  { ats := if fmtHasTensorScale a then [(dATs d, 4)] else []
    bts := if fmtHasTensorScale b then [(dBTs d, 4)] else []
    pre := if dPre d = 0 then []
      else if preResidual d then rows.map fun m => (dPreAddr d + m * dPreStride d + n0 * pw, cols.length * pw)
      else [(dPreAddr d + n0 * pw, cols.length * pw)]
    aRow := rows.map fun m => (dA d + m * dAStride d, rowBytes a (dK d))
    aScale := if fmtBlock a > 1 then rows.map fun m => (dAScale d + m * scaleBytes a (dK d), scaleBytes a (dK d)) else []
    bCol := cols.map fun n => (dB d + n * dBStride d, rowBytes b (dK d))
    bScale := if fmtBlock b > 1 then cols.map fun n => (dBScale d + n * scaleBytes b (dK d), scaleBytes b (dK d)) else [] }

/-- All of them in order. -/
def SubReads.all (r : SubReads) : List (Nat × Nat) := r.ats ++ r.bts ++ r.pre ++ r.aRow ++ r.aScale ++ r.bCol ++ r.bScale

/-- The first access of a tile that fails. R85 does not say which address EV_ADDR_FAULT names where several fail, nor which
byte of a row: the accesses count in the order of `SubReads.all`, and the start of a row names it (log 127). -/
def tileFault (v : Option Nat) (s : State) (k : Nat) (write : Bool) : List (Nat × Nat) → Option (Nat × Access)
  | [] => none
  | (a, n) :: t =>
    match checkFor v s k (tileReach k) a n write with
    | .ok => tileFault v s k write t
    | r => some (a, r)

/-- What follows: a tile has no LOCATION fault of its own here (R85). -/
def tileAccessFault (k : Nat) (d : BitVec 1024) (f : Nat × Access) (s : State) : State :=
  let (u, c) := tileUnit k d
  match f.2 with
  | .location => addrFault u c (s.stageOf k) f.1 s
  | r => accessFault k u c f.1 r s

/-- The accumulator format of a tile. -/
def accFmt (d : BitVec 1024) : FloatFmt := if dFmtA d = 0xE then fFP64 else fFP32

/-- Elements of a row or column as values. -/
def rowValues (fmt k : Nat) (bs : List Byte) : List FV :=
  let x := leNat bs
  (List.range k).map fun i => decodeElem fmt (elemAt (fmtWidth fmt) x i)

/-- Scale factor of each group of one operand: its block scale and its tensor scale (R93). -/
def groupScale (fmt len : Nat) (scales : List Byte) (ts : FV) (g : Nat) : FV :=
  let b := if fmtBlock fmt > 1 then decodeBlockScale fmt (scales.getD (g * len / fmtBlock fmt) 0).toNat else .fin false 1 0
  fvMul b ts

/-- An E5M2 infinity among the elements of a scaled pair sets A_NV, whatever its product (R48). -/
def infiniteElements (len : Nat) (ps : List (FV × FV)) : Fl :=
  if len > 1 && ps.any fun p => p.1.isInf || p.2.isInf then flNV else 0

/-- A row or column streamed as zeros meets an infinity of an unscaled format: 0 × Inf is a NaN term, and it sets A_NV (R95,
R96). -/
def zeroStreamed (len : Nat) (edge : Bool) (xs : List FV) : Fl := if len = 1 && edge && xs.any (·.isInf) then flNV else 0

/-- The sums of a subtile from memory as it stands (R93 to R107): the accumulators start at +0 or at the preload value
(Table 3.8, R104); the rows and columns streamed as zeros form terms that set A_NV only (R95, log 20, log 103). -/
def subtileSums (mem : Memory) (seed : W64) (d : BitVec 1024) (i : Nat) : List AccElem :=
  let r := subReads d i
  let a := dFmtA d
  let b := dFmtB d
  let F := accFmt d
  let len := groupLen a b
  let one : FV := .fin false 1 0
  let ts (xs : List (Nat × Nat)) : FV :=
    match xs with
    | [] => one
    | x :: _ => decodeTensorScale (memNat mem x.1 4)
  let ats := ts r.ats
  let bts := ts r.bts
  let rd (x : Nat × Nat) := memBytes mem x.1 x.2
  let pres := r.pre.map rd
  let pw := preWidth d
  let preF := if pw = 4 then fFP32 else fBF16
  let rows := number 0 ((subRows d i).zip (r.aRow.map fun x => rowValues a (dK d) (rd x)))
  let cols := number 0 ((subCols d i).zip (r.bCol.map fun x => rowValues b (dK d) (rd x)))
  let asc := r.aScale.map rd
  let bsc := r.bScale.map rd
  let padCols := decide (cols.length < dShape d)
  let padRows := decide (rows.length < dShape d)
  rows.flatMap fun (ri, m, av) => cols.map fun (ci, n, bv) =>
    let start : FV :=
      if dPre d = 0 then fvZero
      else decodeF preF (leNat (((pres.getD (if preResidual d then ri else 0) []).drop (ci * pw)).take pw))
    let scale (g : Nat) : FV :=
      fvMul (groupScale a len (asc.getD ri []) ats g) (groupScale b len (bsc.getD ci []) bts g)
    let terms := groupTerms len scale (dK d) 0 (av.zip bv)
    let key : SumKey := ⟨seed, BitVec.ofNat 64 (dSeed d), m, n, !dOrder d && decide (dK d > 65536)⟩
    let (v, fl, cs) := reduceElem F key (dSat d) (dOrder d) (dDepth d) len start terms
    ⟨m, n, codeOf F v, fl ||| infiniteElements len (av.zip bv) ||| zeroStreamed len padCols av |||
      zeroStreamed len padRows bv, cs.map (codeOf F)⟩

/-- XOR a list of error masks into accumulator codes. -/
def xorCodes (codes : List Nat) (errs : List W32) : List Nat :=
  (number 0 codes).map fun (i, c) => c ^^^ (errs.getD i 0).toNat

/-- The digest of a subtile (R256). -/
def subtileDigest (w : Nat) (codes : List Nat) (events : Fl) : Nat :=
  pd [codes.flatMap (leBytes w), leBytes 16 events]

/-- An accumulator value as the FP32 value that the row results take (R88 to R90); one of an FP64 tile is rounded to nearest
even (log 28). -/
def rowValue (d : BitVec 1024) (c : Nat) : Nat :=
  if accBytes d = 8 then (convUnscaled 0 .rne false (decodeF fFP64 c)).1 else c

/-- The larger FP32 value under R88. -/
def rowMaxStep (a b : Nat) : Nat :=
  match decodeF fFP32 a, decodeF fFP32 b with
  | .nan, _ => fFP32.qnan
  | _, .nan => fFP32.qnan
  | x, y => if fvCmp x y == some .lt then b else a

/-- The maximum of a run of values, continuing `prev` (R88). -/
def rowMaxFold (prev : Option Nat) (cs : List Nat) : Nat :=
  match prev, cs with
  | some p, cs => cs.foldl rowMaxStep p
  | none, c :: t => t.foldl rowMaxStep (match decodeF fFP32 c with | .nan => fFP32.qnan | _ => c)
  | none, [] => 0

/-- The sum of a run of values in FP32, continuing `prev`; an overflow gives an infinity, as R89 has it, whatever SAT is
(log 90). -/
def rowSumFold (prev : Option Nat) (cs : List Nat) : Nat × Fl :=
  let step (x : Nat × Fl) (c : Nat) : Nat × Fl :=
    let (r, fl) := accAdd fFP32 .rne false (decodeF fFP32 x.1) (decodeF fFP32 c)
    (codeOf fFP32 r, x.2 ||| fl)
  match prev, cs with
  | some p, cs => cs.foldl step (p, 0)
  | none, c :: t => t.foldl step (c, 0)
  | none, [] => (0, 0)

/-- What a drained subtile writes, with the flags of its adds, of its output rounding and of its row sums, and the
running row results. -/
structure SubOut where
  writes : List (Nat × List Byte)
  addFlags : Fl
  outFlags : Fl
  sumFlags : Fl
  rowMax : List W32
  rowSum : List W32
deriving DecidableEq, Repr

/-- The epilogue of a tile's next subtile on the accumulator codes of its elements, row by row (R87 to R90, R105). -/
def epilogue (t : TileRun) (es : List AccElem) (codes : List Nat) : SubOut :=
  let d := t.desc
  let i := t.next
  let F := accFmt d
  let aw := accBytes d
  let fo := dFmtOut d
  let ow := fmtWidth fo / 8
  let rows := subRows d i
  let nc := (subCols d i).length
  let n0 := (subCols d i).headD 0
  let firstCol := decide (i % cdiv (dN d) (dShape d) = 0)
  let lastCol := decide (i % cdiv (dN d) (dShape d) + 1 = cdiv (dN d) (dShape d))
  let rowCodes := chunksOf nc codes.length codes
  let same := (fo == 0 && aw == 4) || (fo == 0xE && aw == 8)
  let conv (c : Nat) : Nat × Fl := if same then (c, 0) else convUnscaled fo .rne (dSat d) (decodeF F c)
  let outs := rowCodes.map fun r => r.map conv
  let outW := (rows.zip outs).map fun (m, r) => (dOut d + m * dOutStride d + n0 * ow, r.flatMap fun c => leBytes ow c.1)
  let carryW := es.flatMap fun e => (number 0 e.carries).map fun (j, v) =>
    (dAux d + aw * ((j * dM d + e.row) * dN d + e.col), leBytes aw v)
  let prevMax (j : Nat) : Option Nat := if firstCol then none else some (t.rowMax.getD j 0).toNat
  let prevSum (j : Nat) : Option Nat := if firstCol then none else some (t.rowSum.getD j 0).toNat
  let rowVals := rowCodes.map fun r => r.map (rowValue d)
  let maxs := (number 0 rowVals).map fun (j, r) => rowMaxFold (prevMax j) r
  let sums := (number 0 rowVals).map fun (j, r) => rowSumFold (prevSum j) r
  let plus0 (c : Nat) : Nat := if fpAbs fFP32 c = 0 then 0 else c
  let maxW := if dRowMax d && lastCol then
    (rows.zip maxs).map fun (m, c) => (dAux d + maxOff d + 4 * m, leBytes 4 (plus0 c)) else []
  let sumW := if dRowSum d && lastCol then
    (rows.zip sums).map fun (m, c) => (dAux d + sumOff d + 4 * m, leBytes 4 c.1) else []
  let orAll (xs : List Fl) : Fl := xs.foldl (fun a x => a ||| x) 0
  { writes := carryW ++ outW ++ maxW ++ sumW
    addFlags := orAll (es.map (·.events))
    outFlags := orAll (outs.flatMap fun r => r.map (·.2))
    sumFlags := if dRowSum d then orAll (sums.map (·.2)) else 0
    rowMax := maxs.map (BitVec.ofNat 32 ·)
    rowSum := sums.map fun x => BitVec.ofNat 32 x.1 }

/-! ### Shadow mismatch and capture (R257, R258, R266) -/

/-- The PAUSE response of R266: the job pauses with reason CHECK, each stage at its next final phase, or as a JOB_PAUSE has
it; it is RUNNING until it is PAUSED, unless a JOB_PAUSE makes it PAUSING (Table 14.8). -/
def checkResponse (log : Bool) (s : State) : State :=
  if !log && (s.job.state == 2 || s.job.state == 3) then s.updJob fun j => { j with pauseReason := 2 } else s

/-- Does the job pause for a check (R266)? -/
def State.checking (s : State) : Bool := (s.job.state == 2 || s.job.state == 3) && s.job.pauseReason == 2

/-- Address of capture entry `i` in the capture buffer of Parser memory (log 106). -/
def captureAddr (i : Nat) : Nat := 2 ^ 33 + i * 2 ^ 23

/-- A free capture entry. -/
def Faults.freeCapture (f : Faults) : Option Nat := (List.range 16).find? fun i => (sget none f.captures i).isNone

/-- The operand bytes of a subtile (R258). -/
def captureBytes (s : State) (d : BitVec 1024) (i : Nat) : List Byte := (subReads d i).all.flatMap fun x => s.load x.1 x.2

/-- Bytes of them. -/
def captureSize (d : BitVec 1024) (i : Nat) : Nat := ((subReads d i).all.map (·.2)).foldl (· + ·) 0

/-- A shadow mismatch on subtile `t.next` of a cell's tile: the capture, the event, the record and the response. The
result says which entry holds the tile. -/
def shadowMismatch (k : Nat) (t : TileRun) (home partner : Nat) (s : State) : State × Option Nat :=
  let d := t.desc
  let i := t.next
  let v := s.stageOfCell k
  let mb := match v with
    | some v => match (s.stage v).current with
      | some (_, mb, _) => mb
      | none => 0
    | none => 0
  let small := decide (captureSize d i ≤ 4 * 2 ^ 20)
  let entry := if small then s.faults.freeCapture else none
  let full := small && entry.isNone
  let idx := entry.getD 0xFFFF
  let u := k * 64 + dBase d
  let seq := s.faults.seq.toNat + s.faults.toWrite.length
  let ncol := cdiv (dN d) (dShape d)
  let s := s.updFaults fun f =>
    { f with
      captureFull := if full then satInc f.captureFull else f.captureFull
      captures := match entry with
        | some j => sset none j (some ⟨k, d, i / ncol, i % ncol, s.job.seed, captureBytes s d i, BitVec.ofNat 128 home,
            BitVec.ofNat 128 partner, false, mb, s.stageNum v, false⟩) f.captures
        | none => f.captures }
  let s := match entry with
    | some j => s.mend (captureAddr j) (2 ^ 23)
    | none => s
  let s := raise 0x0301 u 0 [(2, s.stageNum v), (4, mb), (2, dGroup d), (2, partnerOf k * 64), (2, idx), (4, seq)] s
  let s := noteRecord ⟨u, 0, s.faults.phys k (dBase d), 1, 0, s.stageNum v, idx, partnerOf k * 64 + arbiterOf k * 64 * 2 ^ 16, mb⟩ s
  (checkResponse s.job.respLog s, entry)

/-! ### The drain (R256) -/

/-- Replace tile `i` in flight. -/
def setTile (k i : Nat) (t : TileRun) (s : State) : State :=
  s.updEng k fun e => { e with inFlight := e.inFlight.set i t }

/-- The bank that holds the sums of the next subtile to drain (R68). -/
def TileRun.bank (t : TileRun) : List AccElem := if t.next % 2 = 0 then t.bank0 else t.bank1

/-- The sums of subtile `i` stand in its bank. -/
def TileRun.fill (t : TileRun) (i : Nat) (xs : List AccElem) : TileRun :=
  if i % 2 = 0 then { t with bank0 := xs } else { t with bank1 := xs }

/-- A tile after its next subtile has been drained. -/
def TileRun.drained (t : TileRun) (out : SubOut) (hold : Option Nat) : TileRun :=
  { t.fill t.next [] with next := t.next + 1, rowMax := out.rowMax, rowSum := out.rowSum, hold := hold }

/-- Take a tile off the list that its sequencer holds; the events of the adds in its banks stand (R63). -/
def dropTile (k i : Nat) (s : State) : State :=
  match (s.eng k).inFlight[i]? with
  | none => s
  | some t => keepEvents k [t] (s.updEng k fun e => { e with inFlight := e.inFlight.eraseIdx i })

/-- The next subtile of tile `i` reaches the epilogue and is written, with errors of the home and the partner gang given as
masks on their accumulator values. -/
def writeBack (k i : Nat) (t : TileRun) (homeErr partnerErr : List W32) (s : State) : State :=
  let d := t.desc
  let codes := t.bank.map (·.code)
  let home := xorCodes codes homeErr
  let out := epilogue t t.bank home
  match tileFault t.stage s k true (out.writes.map fun w => (w.1, w.2.length)) with
  | some f => tileAccessFault k d f (dropTile k i (setTile k i t s))
  | none =>
    let hd := subtileDigest (accBytes d) home out.addFlags
    let pdg := subtileDigest (accBytes d) (xorCodes codes partnerErr) out.addFlags
    let (s, hold) := if t.shadow && hd != pdg then shadowMismatch k t hd pdg s else (s, none)
    let s := forEach out.writes (fun w s => (s.store w.1 w.2).mend w.1 w.2.length) s
    let s := s.updEng k fun e => e.orA (out.addFlags ||| out.outFlags ||| out.sumFlags)
    let s := if t.ending then dropTile k i s else setTile k i (t.drained out hold) s
    let s := match t.stage with
      | some v => if longCount d > 1 then s.updStage v fun g => { g with longsum := true } else s
      | none => s
    if (out.addFlags ||| out.outFlags ||| out.sumFlags) % 2 = 1 && (!t.ending || dGroup d = 0) then
      groupOverflow k (dGroup d) s
    else s

/-- Drain the next subtile of a tile: the passes of the subtile after it stream into the other bank meanwhile (R68, R79),
and read memory before this one is written. -/
def drain (k i : Nat) (t : TileRun) (homeErr partnerErr : List W32) (s : State) : State :=
  let n := t.next + 1
  if t.ending || n ≥ subtileCount t.desc then writeBack k i t homeErr partnerErr s
  else
    match tileFault t.stage s k false (subReads t.desc n).all with
    | some f => tileAccessFault k t.desc f s
    | none => writeBack k i (t.fill n (subtileSums s.mem s.job.seed t.desc n)) homeErr partnerErr s

/-- May the next subtile of tile `i` reach the epilogue: do no older blocks stand in the banks of its arrays, and where its next
passes stream meanwhile, none of a partner's shadow (R68, R79)? -/
def State.mayDrain (s : State) (k i : Nat) (t : TileRun) : Bool :=
  let e := s.eng k
  let partner := if isInflector k then [] else (s.eng (partnerOf k)).inFlight
  (e.inFlight.take i).all (fun o => !o.undrained || !gangsMeet t.desc o.desc) &&
  (t.ending || decide (t.next + 1 ≥ subtileCount t.desc) ||
    partner.all fun o => !(o.shadow || t.shadow) || !o.undrained || !gangsMeet t.desc o.desc)

/-- SUBTILE_DRAIN: the next subtile of tile `i` in flight. -/
def execSubtileDrain (e : Engine) (i : Nat) (homeErr partnerErr : List W32) (s : State) :
    Host.Outcome State Fault Refusal :=
  let k := engKey e
  .next (match (s.eng k).inFlight[i]? with
    | none => s
    | some t =>
      if !t.undrained || t.hold.isSome || !s.mayDrain k i t then s else drain k i t homeErr partnerErr s)

/-- TILE_COMPLETE: a tile whose subtiles are all written frees its slot and its tag (R81). -/
def execTileComplete (e : Engine) (i : Nat) (s : State) : Host.Outcome State Fault Refusal :=
  let k := engKey e
  .next (match (s.eng k).inFlight[i]? with
    | none => s
    | some t =>
      if t.hold.isSome || t.next < subtileCount t.desc then s else dropTile k i s)

/-! ### Taking and starting tiles (R80, R85, R255) -/

/-- The sequencer takes descriptors in queue order while it holds fewer than 16 tiles, and checks each as it is taken. A gang
counts against the current grade (Table 3.8a, reason 4), also where it names arrays beyond the target that its stage's
image was compiled for (log 127). -/
def takeTiles (k : Nat) : Nat → State → State
  | 0, s => s
  | n + 1, s =>
    match (s.eng k).tileQ with
    | [] => s
    | t :: rest =>
      if (s.eng k).inFlight.length ≥ 16 then s
      else if t.bad then queueFault k false s
      else
        match descReason k s.grade s.reduced t.desc with
        | some r => refuseTile k t r s
        | none =>
          if dGroup t.desc ≠ t.group then groupMismatch k t s
          else
            let x : TileRun :=
              { addr := t.addr, desc := t.desc, group := t.group, ordinal := t.ordinal, stage := s.stageOf k
                shadow := s.selected k t.desc t.ordinal }
            takeTiles k n (s.updEng k fun e => { e with tileQ := rest, inFlight := e.inFlight ++ [x] })

/-- Start the tile at place `i`, where it may: the passes of its first subtile stream into a free bank. -/
def startTile (k i : Nat) (s : State) : State :=
  match (s.eng k).inFlight[i]? with
  | none => s
  | some t =>
    if !s.mayStart k i then s
    else
      match tileFault t.stage s k false (subReads t.desc 0).all with
      | some f => tileAccessFault k t.desc f (dropTile k i s)
      | none => setTile k i { t with started := true, bank0 := subtileSums s.mem s.job.seed t.desc 0 } s

/-- TILE_ACCEPT: take what may be taken, then start, oldest first, what may start. -/
def execTileAccept (e : Engine) (s : State) : Host.Outcome State Fault Refusal :=
  let k := engKey e
  .next (forEach (List.range 16) (startTile k) (takeTiles k 64 s))

/-- CAPTURE_COMPLETE: the copy of a held tile's operands ends, and the tile goes on (R257). -/
def execCaptureComplete (e : Engine) (i : Nat) (s : State) : Host.Outcome State Fault Refusal :=
  let k := engKey e
  .next (match (s.eng k).inFlight[i]? with
    | none => s
    | some t => if t.hold.isSome then setTile k i { t with hold := none } s else s)

/-! ### DMA transfers (R163) -/

/-- Unit and class of an engine's DMA transfers (Table 14.17). -/
def dmaUnit (k : Nat) : Nat × Nat := (k * 64, if isInflector k then 0 else 3)

/-- Put bytes at a package address; the host range goes to host memory. -/
def State.put (s : State) (a : Nat) (bs : List Byte) : State :=
  if a ≥ 2 ^ 47 then { s with hostMem := memWriteBytes s.hostMem (a - 2 ^ 47) bs }
  else (s.store a bs).mend a bs.length

/-- A write that meets an uncorrectable word which it covers only in part is not performed, and EV_MEM_UNCORRECTABLE names the
word, stage `v` and the issuer (R36). -/
def State.putWhole (v : Option Nat) (issuer issuerCls a : Nat) (bs : List Byte) (s : State) : State :=
  match s.badPart a bs.length with
  | some w => memBad v w issuer issuerCls s
  | none => s.put a bs

/-- Requests of at most 4 KiB for a transfer that meets a guest die, from number `i0` to before `i1`: reads of its window, or
writes of it. -/
def guestRequests (k : Nat) (q : DmaReq) (i0 i1 : Nat) (s : State) : State :=
  let one (i : Nat) (s : State) : State :=
    let o := 4096 * i
    let n := min 4096 (q.len - o)
    if isGuest q.src then guestRequest (q.src + o) n false (q.dst + o) k [] s
    else guestRequest (q.dst + o) n true 0 k (s.fetch (q.src + o) n) s
  forEach ((List.range (i1 - i0)).map (i0 + ·)) one s

/-- Has every request of engine `k` been answered? -/
def State.guestQuiet (s : State) (k : Nat) : Bool :=
  !((s.ap 0).requests.any fun r => r.engine == k) && !((s.ap 1).requests.any fun r => r.engine == k)

/-- The oldest transfer of an engine, done. -/
def EngineState.dmaDone (e : EngineState) : EngineState := { e with dmaQ := e.dmaQ.drop 1 }

/-- A transfer that meets a guest die: its requests go out, as far as the port has TAGs for them, and it is done when all are
answered (R325). -/
def guestMove (k : Nat) (q : DmaReq) (s : State) : State :=
  let total := cdiv q.len 4096
  let port := (if isGuest q.src then q.src else q.dst) / 2 ^ 40 - 6
  let i := min total (q.issued + (65536 - (s.ap port).requests.length))
  if q.issued < i then
    guestRequests k q q.issued i (s.updEng k fun e => { e with dmaQ := { q with issued := i } :: e.dmaQ.drop 1 })
  else if i < total then s
  else if s.guestQuiet k then s.updEng k EngineState.dmaDone
  else s

/-- Perform a transfer: nothing moves unless both ranges are granted, present and good. -/
def dmaMove (k : Nat) (q : DmaReq) (s : State) : State :=
  let fault (a : Nat) (r : Access) : State :=
    let (u, c) := dmaUnit k
    match r with
    | .location => addrFault u c (s.stageOf k) a s
    | r => accessFault k u c a r s
  match checkAccess s k (dmaReach k) q.src q.len false with
  | .ok =>
    match checkAccess s k (dmaReach k) q.dst q.len true with
    | .ok =>
      if isGuest q.src || isGuest q.dst then guestMove k q s
      else if (isHost q.src || isHost q.dst) && s.offloadWaits then s
      else (s.put q.dst (s.fetch q.src q.len)).updEng k EngineState.dmaDone
    | r => fault q.dst r
  | r => fault q.src r

/-- DMA_TRANSFER_COMPLETE: the oldest queued transfer is performed. -/
def execDmaTransferComplete (e : Engine) (s : State) : Host.Outcome State Fault Refusal :=
  .next (match (s.eng (engKey e)).dmaQ with
    | [] => s
    | q :: _ => if q.bad then queueFault (engKey e) true s else dmaMove (engKey e) q s)

end Sys2Proof.Machine
end

