-- ==== Sys2Proof/Machine/Net.lean ====
section
/-!
DEFINITION. Sys2Proof/Machine/Net.lean: messages for the Conjunction ports: building them, choosing their port (R172,
R352) and queueing them. The ports send their frames in Links.lean.
-/
namespace Sys2Proof.Machine

/-- Role codes of Table 13.3. -/
def roleUp : Nat := 1
/-- STAGE_DOWN -/
def roleDown : Nat := 2
/-- COLLECTIVE -/
def roleColl : Nat := 3
/-- EXPORT -/
def roleExport : Nat := 4

/-- Ports that hold a role, in ascending number. -/
def State.rolePorts (s : State) (role : Nat) : List Nat := (List.range 8).filter fun p => (s.port p).role == role

/-- The port that all Clauses for a destination stage use (R172). -/
def State.stagePort (s : State) (role dst : Nat) : Option Nat :=
  let ps := s.rolePorts role
  if ps.isEmpty then none else ps[dst % ps.length]?

/-- Ring distance of two ranks (R352). -/
def ringDist (g d p : Nat) : Nat := min ((d + g - p % g) % g) ((p + g - d % g) % g)

/-- The COLLECTIVE port toward a rank: the expert table, or the port whose partner is nearest, lower number first; a port
that brings the frame no closer than this module is none (R352). -/
def State.collPort (s : State) (d : Nat) : Option Nat :=
  if s.routes.length = 256 then
    let p := s.routes.getD d 15
    if p < 8 then some p else none
  else
    let ps := (s.rolePorts roleColl).filter fun p => (s.port p).accepted
    let dist (p : Nat) := ringDist s.job.g d (s.port p).partnerRank
    let best := ps.foldl (fun b p => match b with
      | none => some p
      | some q => if dist p < dist q then some p else some q) none
    match best with
    | none => none
    | some p => if dist p < ringDist s.job.g d s.job.rank then some p else none

/-- A message of one type with no payload yet. -/
def msgOf (owner type sub stage tag dstRank cls : Nat) : OutMsg :=
  { owner := owner, type := type, sub := sub, stage := stage, tag := tag, dstRank := dstRank, cls := cls, src := none,
    data := [], len := 0, base := 0, clause := none, sent := 0, started := false, finished := false, forward := none }

/-- Queue a message on a port. -/
def queueOn (p : Nat) (m : OutMsg) (s : State) : State := s.updPort p fun q => { q with out := q.out ++ [m] }

/-- The port that a message takes: a Clause by its role, anything else toward its rank. -/
def State.msgPort (s : State) (m : OutMsg) : Option Nat :=
  if m.clause.isSome then s.stagePort (if m.cls = 1 then roleUp else roleDown) m.stage else s.collPort m.dstRank

/-- A partner's slot for the Clauses of a stage, in units of 256 bytes, from its HELLO entry (Table 13.7). -/
def Port.partnerSlot (q : Port) (stage : Nat) (backward : Bool) : Option Nat :=
  (q.partnerStages.find? fun e => bits e.toNat 15 0 == stage).map fun e =>
    if backward then bits e.toNat 127 96 else bits e.toNat 95 64

/-- The largest LEN of a Clause that a stage may send on an out-queue: MAXLEN, and the slot of a partner that has said it
(R177, R338). -/
def State.lenLimit (s : State) (g : Stage) (backward : Bool) : Nat :=
  let own := if backward then g.boutMax else g.foutMax
  let dst := if backward then g.predecessor else g.succ
  if (s.findStage dst).isSome then own
  else match s.stagePort (if backward then roleUp else roleDown) dst with
    | none => own
    | some p => match (s.port p).partnerSlot dst backward with
      | some n => min own n
      | none => own

/-- Queue a message on its port, or in the transit area while no port serves (R352). -/
def queueColl (m : OutMsg) (s : State) : State :=
  match s.msgPort m with
  | some p => queueOn p m s
  | none => { s with transit := s.transit ++ [m] }

/-- A message whose payload is given as bytes. -/
def withData (m : OutMsg) (bs : List Byte) : OutMsg := { m with data := bs, len := bs.length }

/-- Queue the transport of a Clause to a stage on another module: payload, then the Clause (R338). -/
def queueClause (v : Nat) (backward : Bool) (dst : Nat) (c : BitVec 512) (s : State) : State :=
  queueColl { msgOf v 1 (bit backward) dst (bits c.toNat 127 96) 0 (bit backward) with
    src := if bits c.toNat 215 192 = 0 then none else some (bits c.toNat 175 128)
    len := bits c.toNat 215 192 * 256, clause := some c } s

/-- The other members of this module's subgroup (R213). -/
def State.subgroup (s : State) : List Nat :=
  let z := s.job.z
  ((List.range z).map (s.job.rank / z * z + ·)).filter (· != s.job.rank)

/-- Ranks other than this module's. -/
def State.others (s : State) : List Nat := (List.range s.job.g).filter (· != s.job.rank)

/-- Shard that this module owns (R213). -/
def State.shard (s : State) : Nat := s.job.rank % s.job.z

end Sys2Proof.Machine
end

