-- ==== Sys2Proof/Machine/Tense.lean ====
section
/-!
DEFINITION. Sys2Proof/Machine/Tense.lean: Tense slots (R193 to R209): shards and their digests, deltas, retirement, view
fills, encodings, rebases, spills, and the sending of a shard (R214).
-/
namespace Sys2Proof.Machine

/-! ### Shards of an image (R213, R252) -/

/-- Ranges of one shard's elements and block scales in the image, offset and length. -/
def Stage.shardParts (g : Stage) (z r : Nat) : List (Nat × Nat) :=
  let f := g.image.fmt
  g.image.paramGroups.flatMap fun p =>
    let n := p.len / z
    let eb := n * fmtWidth f / 8
    let sb := n / fmtBlock f
    (p.workOff + r * eb, eb) :: (if fmtBlock f > 1 then [(p.scaleOff + r * sb, sb)] else [])

/-- Insert a range in order of offset. -/
def insertRange (x : Nat × Nat) : List (Nat × Nat) → List (Nat × Nat)
  | [] => [x]
  | y :: t => if x.1 ≤ y.1 then x :: y :: t else y :: insertRange x t

/-- Ranges in ascending order. -/
def sortRanges (xs : List (Nat × Nat)) : List (Nat × Nat) := xs.foldl (fun acc x => insertRange x acc) []

/-- The gaps between sorted ranges, up to `n`. -/
def gapsFrom (n : Nat) : Nat → List (Nat × Nat) → List (Nat × Nat)
  | pos, [] => if pos < n then [(pos, n - pos)] else []
  | pos, (a, l) :: t => (if pos < a then [(pos, a - pos)] else []) ++ gapsFrom n (max pos (a + l)) t

/-- Bytes of the image that belong to no group's elements or block scales. -/
def Stage.otherParts (g : Stage) (z : Nat) : List (Nat × Nat) :=
  gapsFrom g.image.imageSize 0 (sortRanges ((List.range z).flatMap (g.shardParts z)))

/-- Ranges of shard `r`, ascending; shard 0 has every other byte of the image too (R252). -/
def Stage.shardRanges (g : Stage) (z r : Nat) : List (Nat × Nat) :=
  sortRanges (g.shardParts z r ++ (if r = 0 then g.otherParts z else []))

/-- Bytes of a shard in an image given as a list. -/
def shardBytes (rs : List (Nat × Nat)) (img : List Byte) : List Byte := rs.flatMap fun x => (img.drop x.1).take x.2

/-- The shard digest (R252). -/
def shardDigest (bs : List Byte) : Nat := pd [bs]

/-- Address of the shard digest table of a slot. -/
def Stage.sdigAddr (g : Stage) (slot : Nat) : Nat := g.image.sdigArea + 512 * slot

/-- The digest that a slot's table holds for shard `r`. -/
def State.sdig (s : State) (t : TenseSlot) (r : Nat) : Nat := memNat s.mem (t.sdigAddr + 16 * r) 16

/-! ### Deltas (R205, R206) -/

/-- XOR of two byte lists of one length. -/
def xorBytes (a b : List Byte) : List Byte := (a.zip b).map fun x => x.1 ^^^ x.2

/-- A bit map of the nonzero entries of a list. -/
def bitMap (xs : List Bool) : Nat := (number 0 xs).foldl (fun a x => if x.2 then a + 2 ^ x.1 else a) 0

/-- A byte list padded with zeros to a multiple of 16. -/
def pad16 (bs : List Byte) : List Byte := bs ++ List.replicate (alignUp bs.length 16 - bs.length) 0

/-- SPARSE record of a page's XOR bytes, padded (Table 8.4). -/
def sparseRecord (page : List Byte) : List Byte :=
  let lines := chunksOf 64 64 page
  let set := lines.filter fun l => l.any (· != 0)
  pad16 (leBytes 8 (bitMap (lines.map fun l => l.any (· != 0))) ++
    set.flatMap (fun l => leBytes 8 (bitMap (l.map (· != 0)))) ++ set.flatMap fun l => l.filter (· != 0))

/-- METHOD and record of a page (R206). -/
def pageRecord (page : List Byte) : Nat × List Byte :=
  if page.all (· == 0) then (0, [])
  else
    let r := sparseRecord page
    if r.length < 4096 then (1, r) else (2, page)

/-- Page table entries and records, records starting at unit `off`. -/
def deltaGo : Nat → List (Nat × List Byte) → List Nat × List Byte
  | _, [] => ([], [])
  | off, (m, r) :: t =>
    let (es, bs) := deltaGo (off + r.length / 16) t
    ((if m = 0 then 0 else m * 2 ^ 30 + off) :: es, r ++ bs)

/-- The delta of an image against another (R206). -/
def encodeDelta (pages : Nat) (img base : List Byte) : List Byte :=
  let ps := (chunksOf 4096 pages (xorBytes img base)).map pageRecord
  let table := alignUp (4 * pages) 16
  let (es, bs) := deltaGo (table / 16) ps
  fit table (es.flatMap (leBytes 4)) ++ bs

/-- The bytes of one line of a SPARSE page: its byte map, and the nonzero bytes left. -/
def sparseLine (map : Nat) : Nat → List Byte → List Byte × List Byte
  | 0, bs => ([], bs)
  | n + 1, bs =>
    let i := 63 - n
    if map.testBit i then
      let (l, rest) := sparseLine map n (bs.drop 1)
      (bs.headD 0 :: l, rest)
    else
      let (l, rest) := sparseLine map n bs
      (0 :: l, rest)

/-- The lines of a SPARSE page: which are set, and the byte maps and bytes left. -/
def sparseLines (lineMap : Nat) : Nat → List Byte → List Byte → List Byte
  | 0, _, _ => []
  | n + 1, maps, bs =>
    let i := 63 - n
    if lineMap.testBit i then
      let (l, rest) := sparseLine (leNat (maps.take 8)) 64 bs
      l ++ sparseLines lineMap n (maps.drop 8) rest
    else List.replicate 64 0 ++ sparseLines lineMap n maps bs

/-- XOR bytes of page `p` of a delta that starts at `addr`. -/
def deltaPage (s : State) (addr p : Nat) : List Byte :=
  let e := memNat s.mem (addr + 4 * p) 4
  let at' := addr + 16 * (e % 2 ^ 30)
  match e / 2 ^ 30 with
  | 1 =>
    let lm := memNat s.mem at' 8
    let n := ((List.range 64).filter fun i => lm.testBit i).length
    sparseLines lm 64 (s.load (at' + 8) (8 * n)) (s.load (at' + 8 + 8 * n) 4096)
  | 2 => s.load at' 4096
  | _ => List.replicate 4096 0

/-- Bytes of a full image buffer. -/
def State.imageAt (s : State) (g : Stage) (addr : Nat) : List Byte := s.load addr (g.pages * 4096)

/-- The full buffer of the Tense that a delta is based on: the present or the PAST_FULL slot's, or the buffer that stays
reserved when the PAST_FULL slot has retired before its rebases (R205). -/
def Stage.baseBuffer (g : Stage) (t : TenseSlot) : Option Nat :=
  match g.tenses.find? fun b => (b.state == 2 || b.state == 3) && b.commit == t.base with
  | some b => some b.addr
  | none => match g.flip with
    | some j => if j.oldCommit = t.base then g.image.buffers[j.oldBuffer]? else none
    | none => none

/-- The image of a slot: its buffer, its delta on its base, or its host copy (R203, R205, R209). -/
def State.materialise (s : State) (g : Stage) (t : TenseSlot) : List Byte :=
  match t.state with
  | 4 =>
    let base := match g.baseBuffer t with
      | some a => s.imageAt g a
      | none => List.replicate (g.pages * 4096) 0
    xorBytes base ((List.range g.pages).flatMap (deltaPage s t.addr))
  | 5 => memBytes s.hostMem (t.addr - 2 ^ 47) (g.pages * 4096)
  | _ => s.imageAt g t.addr

/-- Ranges of package memory that materialising a slot reads. -/
def Stage.sourceRanges (g : Stage) (t : TenseSlot) : List (Nat × Nat) :=
  match t.state with
  | 4 => (t.addr, 16 * t.dsize) :: (match g.baseBuffer t with
    | some a => [(a, g.pages * 4096)]
    | none => [])
  | 5 => []
  | _ => [(t.addr, g.pages * 4096)]

/-- The first uncorrectable word among ranges. -/
def State.badAmong (s : State) (rs : List (Nat × Nat)) : Option Nat := rs.findSome? fun r => s.badIn r.1 r.2

/-- The record of the slot that holds a tag, as a range (R36). -/
def Stage.slotRecord (g : Stage) (v commit : Nat) : List (Nat × Nat) :=
  match g.findTense fun t => decide (1 ≤ t.state) && t.commit == commit with
  | some i => [tenseAddr v i]
  | none => []

/-- Is a fence under way, or has the job been stopped by one? The Tense logic then stands until JOB_RESUME (R451). -/
def State.fenced (s : State) : Bool := s.chip.fencing || s.job.pauseReason == 3

/-- Place of a slot's delta. -/
def Stage.deltaAddr (g : Stage) (slot : Nat) : Nat := g.image.deltaArea + slot * alignUp (g.pages * 4100 + 16) 16

/-! ### Retirement and the work after a flip (R199, R205) -/

/-- Settle the work that follows a flip: what has retired drops out, and when nothing is left the old present becomes
PAST_DELTA and its full buffer is free. -/
def Stage.flipSettle (g : Stage) : Stage :=
  match g.flip with
  | none => g
  | some j =>
    let reb := j.rebases.filter fun i => match g.tenses[i]? with
      | some t => t.state == 4 && t.base == j.oldCommit
      | none => false
    let slot := match j.slot with
      | some i => match g.tenses[i]? with
        | some t => if t.state == 3 && t.commit == j.oldCommit then some i else none
        | none => none
      | none => none
    let job := { j with rebases := reb, slot := slot }
    if !reb.isEmpty then { g with flip := some job }
    else
      match slot with
      | none => { g with flip := none }
      | some i =>
        if j.encoded then
          { g.updTense i (fun t => { t with state := 4, base := g.presentCommit, addr := g.deltaAddr i, dsize := j.dsize })
            with flip := none }
        else { g with flip := some job }

/-- Retire every past slot with no reference and no pin (R199). -/
def Stage.retire (g : Stage) : Stage :=
  Stage.flipSettle { g with
    tenses := g.tenses.map fun t => if t.state ≥ 3 && t.state ≤ 5 && t.refs == 0 && !t.pin then {} else t }

/-- One reference of the slot with a tag is released (R198, R201). -/
def Stage.unref (g : Stage) (commit : Nat) : Stage :=
  Stage.retire { g with
    tenses := g.tenses.map fun t => if t.state ≥ 2 && t.state ≤ 5 && t.commit == commit then { t with refs := t.refs - 1 } else t }

/-! ### Operations of the Tense logic (R207) -/

/-- The Tense logic meets an uncorrectable word: the stage halts and nothing is installed. -/
def tenseBad (v w : Nat) (s : State) : State := memBad (some v) w (tenseUnit (s.stage v).image.die) 0 s

/-- EV_AGREEMENT_FAULT (R204, R214): reason, tag and shard, with the halt. -/
def agreementFault (v reason commit shard : Nat) (s : State) : State :=
  let g := s.stage v
  haltStage v 0x0303 true
    (raise 0x0303 (tenseUnit g.image.die) 0 [(1, reason), (2, g.image.stage), (4, commit), (1, shard)] s)

/-- A record against the Tense logic (R267). -/
def tenseRecord (v kind verdict commit shard : Nat) (s : State) : State :=
  noteRecord ⟨tenseUnit (s.stage v).image.die, 0, 0, kind, verdict, (s.stage v).image.stage, 0xFFFF, commit, shard⟩ s

/-- Slots that hold a Tense. -/
def TenseSlot.holds (t : TenseSlot) : Bool := decide (2 ≤ t.state ∧ t.state ≤ 5)

/-- Fill a view with the Tense of a commit count (R203, R204); `glitch` names the shard in which the first fill alone
mismatched. The digest table is read like the image. -/
def fillView (v : Nat) (backward : Bool) (commit : Nat) (glitch : Option Nat) (s : State) : State :=
  let g := s.stage v
  match g.tenses.find? fun t => t.holds && t.commit == commit with
  | none => s
  | some t =>
    if t.state == 5 && s.offloadWaits then s
    else match s.badAmong (g.slotRecord v commit ++ (t.sdigAddr, 16 * s.job.z) :: g.sourceRanges t) with
    | some w => tenseBad v w s
    | none =>
      let img := s.materialise g t
      let a := if backward then g.image.backwardView else g.image.forwardView
      let s := (s.store a img).mend a img.length
      let wrong := (List.range s.job.z).find? fun r => shardDigest (shardBytes (g.shardRanges s.job.z r) img) != s.sdig t r
      match wrong with
      | some r =>
        let s := s.updStage v fun g => if backward then { g with viewBackward := none } else { g with viewForward := none }
        agreementFault v 1 commit r (tenseRecord v 3 4 commit r s)
      | none =>
        let s := match glitch with
          | some r => if r < s.job.z then tenseRecord v 3 1 commit r s else s
          | none => s
        s.updStage v fun g =>
          if backward then { g with viewBackward := some commit, wantBackward := none }
          else { g with viewForward := some commit, wantForward := none }

/-- VIEW_FILL: the fill that a take of the stage waits for. -/
def execViewFill (v : Fin 16) (backward : Bool) (glitch : Option (Fin 32)) (s : State) : Host.Outcome State Fault Refusal :=
  let g := s.stage v.val
  .next (if !g.live then s
    else match (if backward then g.wantBackward else g.wantForward) with
    | none => s
    | some c => fillView v.val backward c (glitch.map (·.val)) s)

/-- Bytes that a stage's deltas hold. -/
def Stage.deltaBytes (g : Stage) : Nat := (g.tenses.map fun t => if t.state = 4 then 16 * t.dsize else 0).foldl (· + ·) 0

/-- Host copies in use, and room for one more in the spill area (R209). -/
def Stage.spillRoom (g : Stage) : Bool :=
  decide ((g.tenses.filter fun t => t.state == 5).length < g.spillSize / (g.pages * 4096))

/-- PAST_ENCODE: form the commit delta; where it does not fit PAST_BUDGET, spills come first, and without room for a host
copy the slot stays PAST_FULL (R205, R208). -/
def pastEncode (v : Nat) (s : State) : State :=
  let g := s.stage v
  match g.flip, g.tenses.find? fun t => t.state == 2 with
  | some j, some p =>
    if j.encoded || !g.loaded || s.fenced || (g.haltCode != 0 && g.haltFinal) then s
    else
      match s.badAmong <| g.slotRecord v p.commit ++ [(g.image.buffers.getD j.oldBuffer 0, g.pages * 4096), (p.addr, g.pages * 4096)] with
      | some w => tenseBad v w s
      | none =>
        let d := encodeDelta g.pages (s.imageAt g (g.image.buffers.getD j.oldBuffer 0)) (s.imageAt g p.addr)
        match j.slot with
        | none => s.updStage v fun g => Stage.flipSettle { g with flip := some { j with encoded := true } }
        | some i =>
          let fits := decide (g.deltaBytes + d.length ≤ g.pastBudget) ||
            (!(g.tenses.any fun t => t.state == 4) && g.spillRoom)
          if !fits then s
          else
            let s := (s.store (g.deltaAddr i) d).mend (g.deltaAddr i) d.length
            s.updStage v fun g => Stage.flipSettle { g with flip := some { j with encoded := true, dsize := d.length / 16 } }
  | _, _ => s

/-- PAST_ENCODE. -/
def execPastEncode (v : Fin 16) (s : State) : Host.Outcome State Fault Refusal := .next (pastEncode v.val s)

/-- REBASE one delta onto the new present: the bytes are those of the image's delta against it (R205, R206). -/
def rebase (v i : Nat) (s : State) : State :=
  let g := s.stage v
  match g.flip, g.tenses[i]?, g.tenses.find? fun t => t.state == 2 with
  | some j, some t, some p =>
    if !j.encoded || !j.rebases.contains i || t.state != 4 || s.fenced || (g.haltCode != 0 && g.haltFinal) then s
    else
      match s.badAmong (tenseAddr v i :: (p.addr, g.pages * 4096) :: g.sourceRanges t) with
      | some w =>
        -- the delta's contents are not defined: free bytes (log 3)
        let n := 16 * t.dsize
        let s := s.store t.addr ((List.range n).map fun i => Config.freeByte (s.freeCount + i))
        tenseBad v w { s with freeCount := s.freeCount + n }
      | none =>
        let d := encodeDelta g.pages (s.materialise g t) (s.imageAt g p.addr)
        let s := (s.store t.addr d).mend t.addr d.length
        s.updStage v fun g => Stage.flipSettle
          { g.updTense i (fun t => { t with base := p.commit, dsize := d.length / 16 }) with
            flip := some { j with rebases := j.rebases.filter (· != i) } }
  | _, _, _ => s

/-- REBASE. -/
def execRebase (v : Fin 16) (i : Fin 8) (s : State) : Host.Outcome State Fault Refusal := .next (rebase v.val i.val s)

/-- Host copy places in use. -/
def Stage.spillPlace (g : Stage) : Nat :=
  let n := g.spillSize / (g.pages * 4096)
  let at' (i : Nat) := g.hostBase + g.hostSize - g.spillSize + i * (g.pages * 4096)
  match (List.range n).find? fun i => !(g.tenses.any fun t => t.state == 5 && t.addr == at' i) with
  | some i => at' i
  | none => 0

/-- Is a spill due: an encoding waits for room, or the deltas exceed their budget (R208)? -/
def Stage.spillDue (s : State) (g : Stage) : Bool :=
  decide (g.deltaBytes > g.pastBudget) ||
  (match g.flip, g.tenses.find? fun t => t.state == 2 with
   | some j, some p =>
     !j.encoded && decide (g.deltaBytes + (encodeDelta g.pages (s.imageAt g (g.image.buffers.getD j.oldBuffer 0))
       (s.imageAt g p.addr)).length > g.pastBudget)
   | _, _ => false)

/-- SPILL the PAST_DELTA slot of the highest COMMIT into a host copy (R208, R209). -/
def spill (v i : Nat) (s : State) : State :=
  let g := s.stage v
  match g.tenses[i]? with
  | none => s
  | some t =>
    let newest := g.tenses.all fun u => u.state != 4 || decide (u.commit ≤ t.commit)
    if t.state != 4 || !newest || !g.spillRoom || !Stage.spillDue s g || s.fenced || (g.haltCode != 0 && g.haltFinal) || s.offloadWaits then s
    else
      match s.badAmong (tenseAddr v i :: g.sourceRanges t) with
      | some w => tenseBad v w s
      | none =>
        let a := g.spillPlace
        let s := s.put a (s.materialise g t)
        s.updStage v fun g => Stage.flipSettle
          (g.updTense i fun t => { t with state := 5, addr := a, dsize := 0, base := 0 })

/-- SPILL. -/
def execSpill (v : Fin 16) (i : Fin 8) (s : State) : Host.Outcome State Fault Refusal := .next (spill v.val i.val s)

/-! ### Sending a shard (R214) -/

/-- A Tense shard as a message: its bytes, padded to 16, then its digest. -/
def shardMessage (v stage commit r rank : Nat) (bs : List Byte) (dig : Nat) : OutMsg :=
  withData (msgOf v 7 r stage commit rank 2) (pad16 bs ++ leBytes 16 dig)

/-- SHARD_SEND: after FINAL, the owner sends its shard of the BUILDING image to the others of its subgroup, once. -/
def shardSend (v : Nat) (s : State) : State :=
  let g := s.stage v
  match g.tenses.find? fun t => t.state == 1 with
  | none => s
  | some t =>
    if !g.live || (g.dig != .closed && g.committing.isNone) || s.job.z ≤ 1 || g.update.shardSent then s
    else
      let rs := g.shardRanges s.job.z s.shard
      match s.badAmong (g.slotRecord v t.commit ++ rs.map fun x => (t.addr + x.1, x.2)) with
      | some w => tenseBad v w s
      | none =>
        let bs := shardBytes rs (s.imageAt g t.addr)
        let s := forEach s.subgroup (fun q => queueColl (shardMessage v g.image.stage t.commit s.shard q bs (shardDigest bs))) s
        s.updStage v fun g => { g with update := { g.update with shardSent := true } }

/-- SHARD_SEND. -/
def execShardSend (v : Fin 16) (s : State) : Host.Outcome State Fault Refusal := .next (shardSend v.val s)

end Sys2Proof.Machine
end

