-- ==== Sys2Proof/Machine/Reduce.lean ====
section
/-!
DEFINITION. Sys2Proof/Machine/Reduce.lean: the gradient port (R228 to R230), contributions and their reduction (R231 to
R233), and the release of a micro-batch (R183).
-/
namespace Sys2Proof.Machine

/-- The rule that an update runs which starts at a present COMMIT: the newest whose AT is reached, else the one in place
(R240). -/
def Stage.ruleAt (g : Stage) (commit : Nat) : Option Rule :=
  ((g.loads.filter fun x => decide (x.commit ≤ commit)).filterMap fun x => x.rule.map (·.1)).getLast?.or g.rule

/-- The family and the wire format of update `j` (Table 9.1): those it was submitted in, else those of the rule that it will
run when every update before it commits (log 133). -/
def Stage.form (g : Stage) (j : Nat) : Bool × Nat :=
  match g.update.forms.find? fun x => x.1 == j with
  | some x => x.2
  | none => match g.ruleAt (g.presentCommit + (j - 1 - g.update.done)) with
    | some r => (r.matrix, r.wire)
    | none => (false, 0xD)

/-- The wire format of update `j`. -/
def Stage.wire (g : Stage) (j : Nat) : Nat := (g.form j).2

/-- Is the rule of update `j` settled, whatever becomes of the updates before it (R240)? -/
def Stage.ruleSettled (g : Stage) (j : Nat) : Bool :=
  !(g.loads.any fun x => x.rule.isSome && decide (g.presentCommit < x.commit) &&
    decide (x.commit ≤ g.presentCommit + (j - 1 - g.update.done)))

/-- The wire value of one gradient element and whether it is non-finite (R230 to R232). -/
def wireElem (wire c : Nat) : Nat × Bool :=
  match wire, decodeF fFP32 c with
  | 0xD, .fin neg m _ => (if m = 0 then 0 else if neg then 3 else 1, false)
  | 0xD, _ => (0, true)
  | 1, .fin neg m e =>
    let (x, fl) := convUnscaled 1 .rne false (.fin neg m e)
    (x, fl % 2 == 1)
  | 1, v => ((convUnscaled 1 .rne false v).1, true)
  | _, .fin _ _ _ => (c, false)
  | _, _ => (c, true)

/-- Width of a wire value in bits. -/
def wireWidth (wire : Nat) : Nat := if wire = 0xD then 2 else if wire = 1 then 16 else 32

/-- Pack codes of a width of at most 8 bytes into bytes; their count fills whole bytes. -/
def packBytes (w : Nat) (cs : List Nat) : List Byte := leBytes (cs.length * w / 8) (packList w cs)

/-- Offsets of the groups' elements in a gradient area. -/
def groupOffsets : Nat → List ParamGroup → List (Nat × Nat)
  | _, [] => []
  | o, p :: t => (o, p.len) :: groupOffsets (o + p.len) t

/-- The wire bytes of shard `r` in a wire format, group by group. -/
def wireShard (s : State) (g : Stage) (wire area r : Nat) : List Byte :=
  let z := s.job.z
  (groupOffsets 0 g.image.paramGroups).flatMap fun (o, len) =>
    let n := len / z
    packBytes (wireWidth wire) ((List.range n).map fun i =>
      (wireElem wire (memNat s.mem (area + 4 * (o + r * n + i)) 4)).1)

/-- The stage's non-finite bit over a whole gradient slot (R230). -/
def slotNonFinite (s : State) (g : Stage) (wire area : Nat) : Bool :=
  (List.range (g.gradBytes / 4)).any fun i => (wireElem wire (memNat s.mem (area + 4 * i) 4)).2

/-- A contribution as a message: its wire bytes, then 16 bytes whose bit 0 is the sender's non-finite bit (log 14). -/
def contribMessage (v stage j rank shard : Nat) (matrix : Bool) (bs : List Byte) (nf : Bool) : OutMsg :=
  withData (if matrix then msgOf v 1 (64 + shard) stage j rank 3 else msgOf v 8 (4 * shard) stage j rank 3)
    (pad16 bs ++ leBytes 16 (bit nf))

/-- Take a contribution that is not yet held (R233). -/
def Stage.addContribution (g : Stage) (c : Contribution) : Stage :=
  if g.update.contributions.any fun x => x.update == c.update && x.rank == c.rank then g
  else { g with update := { g.update with contributions := g.update.contributions ++ [c] } }

/-- Submit update `j`: read the slot, convert it and send every owner its shard (R229). -/
def submit (v j : Nat) (s : State) : State :=
  let g := s.stage v
  let area := g.gradSlot j
  let die := area / 2 ^ 40
  let unit := tenseUnit g.image.die
  if s.absent die then dieAbsent unit 0 (some v) die area s
  else
    match s.badIn area g.gradBytes with
    | some w => memBad (some v) w unit 0 s
    | none =>
      let f := g.form j
      let nf := slotNonFinite s g f.2 area
      let me := s.job.rank
      let own : Contribution := ⟨j, me, nf, wireShard s g f.2 area s.shard, true⟩
      let s := s.updStage v fun g =>
        Stage.addContribution { g with update :=
          { g.update with submitted := j, forms := g.update.forms.filter (fun x => x.1 != j) ++ [(j, f)] } } own
      forEach s.others (fun q => queueColl
        (contribMessage v g.image.stage j q (q % s.job.z) f.1 (wireShard s g f.2 area (q % s.job.z)) nf)) s

/-- Is a message one of stage `v`'s contributions to update `j`? -/
def OutMsg.contributes (m : OutMsg) (v j : Nat) : Bool :=
  m.owner == v && m.tag == j && m.cls == 3 && (m.type == 1 || m.sub % 4 == 0)

/-- A submit that a halt cut off restarts from its first byte (Table 9.6): what is still to be sent of it is sent anew, and
receivers discard what they hold. -/
def resubmit (v : Nat) (s : State) : State :=
  let u := (s.stage v).update
  forEach ((List.range (u.submitted - u.reductions)).map (u.reductions + 1 + ·)) (fun j s =>
    let keep (m : OutMsg) : Bool := !m.contributes v j
    let s := forEach (List.range 8) (fun p s => s.updPort p fun q => { q with out := q.out.filter keep }) s
    if (s.stage v).live then submit v j { s with transit := s.transit.filter keep } else s) s

/-- Submit what is ready: an update waits for its gradient slot to have been cleared, and for its rule to be settled. -/
def trySubmit (v : Nat) : Nat → State → State
  | 0, s => s
  | fuel + 1, s =>
    let g := s.stage v
    let j := g.update.submitted + 1
    if g.live && decide (j ≤ g.readyUpdates) && decide (j ≤ g.update.reductions + g.image.gradSlots.length) &&
        g.ruleSettled j then
      trySubmit v fuel (submit v j s)
    else s

/-- Release a micro-batch: its record and one reference go, and the completion counts (R183, R198, R229). -/
def releaseMb (v mb : Nat) (s : State) : State :=
  match (s.stage v).records.find? fun r => r.mb == mb with
  | none => s
  | some r =>
    let s := s.updStage v fun g =>
      Stage.unref { g with records := g.records.filter fun r => r.mb != mb
                           update := { g.update with completions := g.update.completions + 1 } } r.commit
    let g := s.stage v
    let s := if g.u > 0 && g.update.completions % g.u == 0 then
      s.updEng (g.image.die * 128 + 97) fun e => { e with ready := e.ready ++ [v] } else s
    trySubmit v 2 s

/-! ### The reduction (R231 to R233) -/

/-- Contributions to an update, by rank. -/
def Stage.contribsOf (g : Stage) (j : Nat) (ranks : Nat) : List Contribution :=
  (List.range ranks).filterMap fun q => g.update.contributions.find? fun c => c.update == j && c.rank == q && c.whole

/-- The sign of a sum of votes as a T2 code (R231). -/
def voteCode (cs : List Nat) : Nat :=
  let sum := (cs.map fun c => if c = 1 then (1 : Int) else if c = 3 then -1 else 0).foldl (· + ·) 0
  if sum > 0 then 1 else if sum < 0 then 3 else 0

/-- The reduced shard: votes counted, or sums added by TREE in the wire format and widened (R231, R232). -/
def reduceShard (wire : Nat) (cs : List Contribution) : List Byte × Bool :=
  let w := wireWidth wire
  let xs := cs.map fun c => leNat c.data
  let n := ((cs.map fun c => c.data.length).headD 0) * 8 / w
  if wire = 0xD then (packBytes 2 ((List.range n).map fun i => voteCode (xs.map fun x => elemAt 2 x i)), false)
  else
    let F := if wire = 1 then fBF16 else fFP32
    let rs := (List.range n).map fun i => tree F false (xs.map fun x => decodeF F (elemAt w x i))
    (rs.flatMap fun r => leBytes 4 (codeOf fFP32 r.1), rs.any fun r => r.2 % 2 == 1)

/-- REDUCED_SHARD_COMPLETE: every contribution is present; the reduced shard and bit are held, and the gradient slot is
written to +0 (R229, R233). -/
def reducedComplete (v : Nat) (s : State) : State :=
  let g := s.stage v
  let j := g.update.reductions + 1
  let cs := g.contribsOf j s.job.g
  if !g.live || g.update.reduced.isSome || cs.length != s.job.g || g.update.submitted < j then s
  else
    let (bs, ov) := reduceShard (g.wire j) cs
    let nf := ov || cs.any (·.nonFinite)
    let area := g.gradSlot j
    let s := (s.store area (List.replicate g.gradBytes 0)).mend area g.gradBytes
    let s := s.updStage v fun g => { g with
      update := { g.update with reductions := j, reduced := some ⟨j, nf, bs⟩
                                forms := g.update.forms.filter fun x => x.1 != j
                                contributions := g.update.contributions.filter fun c => c.update != j } }
    trySubmit v 2 s

/-- REDUCED_SHARD_COMPLETE. -/
def execReducedShardComplete (v : Fin 16) (s : State) : Host.Outcome State Fault Refusal :=
  .next (reducedComplete v.val s)

/-- The reduced bit of update `j`, once known (R233). -/
def Stage.reducedBit (g : Stage) (j : Nat) : Option Bool :=
  match g.update.reduced, g.update.vote with
  | some r, x => if r.update = j then some r.nonFinite else match x with
    | some (i, b) => if i = j then some b else none
    | none => none
  | none, some (i, b) => if i = j then some b else none
  | none, none => none

/-- The reduced bit that a verdict Clause of update `j` carries: it stays known when the update has ended (R244). -/
def Stage.verdictBit (g : Stage) (j : Nat) : Option Bool :=
  match g.reducedBit j, g.update.lastBit with
  | some b, _ => some b
  | none, some (i, b) => if i = j then some b else none
  | none, none => none

/-- The verdict of update `j`: the final one of the step, or in asynchronous mode the reduced bit (R244, R246). -/
def Stage.verdictOf (g : Stage) (j : Nat) : Option Bool := if g.async then g.reducedBit j else g.update.verdict

end Sys2Proof.Machine
end

