-- ==== Sys2Proof/Machine/Clauses.lean ====
section
/-!
DEFINITION. Sys2Proof/Machine/Clauses.lean: Clauses and their queues: CLS.TAKE and CLS.PUT (R175 to R187, R203, R244,
R457) and the delivery of a Clause on the module (R178, R179, R181).
-/
namespace Sys2Proof.Machine

/-! ### Fields of a Clause (Table 7.3) -/

/-- LEN, in units of 256 bytes -/
def clauseLen (c : BitVec 512) : Nat := bits c.toNat 215 192
/-- PAYLOAD_ADDR -/
def clauseAddr (c : BitVec 512) : Nat := bits c.toNat 175 128
/-- SEQ -/
def clauseSeq (c : BitVec 512) : Nat := bits c.toNat 127 96
/-- MB_ID -/
def clauseMb (c : BitVec 512) : Nat := bits c.toNat 95 64
/-- SRC_STAGE -/
def clauseSrc (c : BitVec 512) : Nat := bits c.toNat 31 16
/-- DST_STAGE -/
def clauseDst (c : BitVec 512) : Nat := bits c.toNat 47 32
/-- NONFINITE -/
def clauseNf (c : BitVec 512) : Bool := c.getLsbD 8
/-- CLASS S -/
def clauseS (c : BitVec 512) : Bool := c.getLsbD 4
/-- TENSE_COMMIT -/
def clauseCommit (c : BitVec 512) : Nat := bits c.toNat 287 256

/-- Replace bits `[hi:lo]` of a Clause. -/
def setClause (c : BitVec 512) (hi lo x : Nat) : BitVec 512 := BitVec.ofNat 512 (setBits c.toNat lo (hi + 1 - lo) x)

/-! ### Queues -/

/-- An in-queue of a stage. -/
def Stage.inQ (g : Stage) (backward : Bool) : InQueue := if backward then g.backwardIn else g.forwardIn
/-- An out-queue of a stage. -/
def Stage.outQ (g : Stage) (backward : Bool) : OutQueue := if backward then g.backwardOut else g.forwardOut
/-- Change an in-queue. -/
def Stage.updIn (g : Stage) (backward : Bool) (f : InQueue → InQueue) : Stage :=
  if backward then { g with backwardIn := f g.backwardIn } else { g with forwardIn := f g.forwardIn }
/-- Change an out-queue. -/
def Stage.updOut (g : Stage) (backward : Bool) (f : OutQueue → OutQueue) : Stage :=
  if backward then { g with backwardOut := f g.backwardOut } else { g with forwardOut := f g.forwardOut }

/-- Entries of an out-queue in use, reservations among them (R178, R184). -/
def OutQueue.used (q : OutQueue) : Nat := q.items.length + q.heldBack.length + q.reserved
/-- Depth of an out-queue. -/
def Stage.outDepth (g : Stage) (backward : Bool) : Nat := if backward then g.boutDepth else g.foutDepth
/-- Has an out-queue an entry to give? -/
def Stage.outFree (g : Stage) (backward : Bool) : Bool := decide ((g.outQ backward).used < g.outDepth backward)
/-- Depth of an in-queue. -/
def Stage.inDepth (g : Stage) (backward : Bool) : Nat := if backward then g.binDepth else g.finDepth
/-- Receive slot of an in-queue entry (R179). -/
def Stage.slotAddr (g : Stage) (backward : Bool) (seq : Nat) : Nat :=
  if backward then g.binBase + seq % g.binDepth * g.binSlot else g.finBase + seq % g.finDepth * g.finSlot
/-- Bytes of a receive slot. -/
def Stage.slotLen (g : Stage) (backward : Bool) : Nat := if backward then g.binSlot else g.finSlot
/-- Is a receive slot free (R182)? -/
def Stage.credit (g : Stage) (backward : Bool) : Bool :=
  decide ((g.inQ backward).delivered - (g.inQ backward).freed < g.inDepth backward)

/-- The out-queue in which a taken Clause continues: backward or forward, or none (R184). -/
def Stage.continuing (g : Stage) (kind : Nat) : Option Bool :=
  match kind with
  | 1 => some g.isLast
  | 2 => if g.isFirst then none else some true
  | 3 => if g.isFirst then some false else some true
  | 4 => if g.isLast then none else some false
  | _ => none

/-! ### The Clause store (Table 7.6) -/

/-- The hub's Clause store, the source of a local delivery's faults. -/
def clauseStoreUnit : Nat := unitAddr 0 117 0

/-- Address of entry `e` of a stage's queue: 0 forward-in, 1 backward-in, 2 forward-out, 3 backward-out. -/
def entryAddr (v queue e : Nat) : Nat := 2 ^ 32 + 0x4000 * (4 * v + queue) + 64 * e

/-- The entry of an in-queue that holds SEQ (R179). -/
def inEntry (g : Stage) (v : Nat) (backward : Bool) (seq : Nat) : Nat :=
  entryAddr v (bit backward) (seq % g.inDepth backward)
/-- The entry of an out-queue that holds SEQ. -/
def outEntry (g : Stage) (v : Nat) (backward : Bool) (seq : Nat) : Nat :=
  entryAddr v (2 + bit backward) (seq % g.outDepth backward)

/-- Address of the state of a stage's queue (Table 7.6); the table gives the region, and the model gives each of the 64 queues
1 KiB of it (log 129). -/
def queueState (v queue : Nat) : Nat × Nat := (2 ^ 32 + 0x10_0000 + 0x400 * (4 * v + queue), 64)
/-- Address of a micro-batch record (Table 7.6). -/
def mbAddr (v slot : Nat) : Nat × Nat := (2 ^ 32 + 0x11_0000 + 0x4_0000 * v + 64 * slot, 64)
/-- The first place of a micro-batch record that no record of the stage takes. -/
def Stage.freeRecord (g : Stage) : Nat :=
  ((List.range 4096).find? fun i => !(g.records.any fun r => r.slot == i)).getD 0
/-- The record of a micro-batch, as a range of the Clause store. -/
def Stage.mbRange (g : Stage) (v mb : Nat) : List (Nat × Nat) :=
  ((g.records.filter fun r => r.mb == mb).take 1).map fun r => mbAddr v r.slot

/-- Write a Clause into an entry. -/
def writeClause (a : Nat) (c : BitVec 512) (s : State) : State := (s.store a (leBytes 64 c.toNat)).mend a 64

/-! ### Placing (R176 to R178, R183, R244) -/

/-- EV_CLAUSE_INVALID of an engine, with the halt. -/
def clauseInvalid (k reason : Nat) (s : State) : State :=
  let v := s.stageOfCell k
  haltOf v 0x0201 (raise 0x0201 (engUnit k).1 (engUnit k).2 [(2, s.stageNum v), (1, reason)] s)

/-- A Clause enters its out-queue: SRC_STAGE, DST_STAGE and SEQ are written, the releases and the verdict that go with
its placement happen, and a Clause for another module is handed to its port. -/
def placeClause (v : Nat) (backward : Bool) (c : BitVec 512) (s : State) : State :=
  let g := s.stage v
  let dst := if backward then g.predecessor else g.succ
  let seq := (g.outQ backward).seq
  let c := setClause (setClause (setClause c 31 16 g.image.stage) 47 32 dst) 127 96 seq
  let s := writeClause (outEntry g v backward seq) c s
  let s := s.updStage v fun g =>
    let g := g.updOut backward fun q => { q with items := q.items ++ [c], seq := q.seq + 1 }
    if clauseS c then { g with lenS := satAdd g.lenS (clauseLen c) } else { g with lenV := satAdd g.lenV (clauseLen c) }
  let s := if backward && clauseKind c == 2 then releaseMb v (clauseMb c) s else s
  let s := if clauseKind c == 4 && g.isFirst then
    s.updStage v fun g => { g with update := { g.update with verdict := some (clauseNf c) } } else s
  if (s.findStage dst).isNone then queueClause v backward dst c s else s

/-- Reserved bits of a Clause, and the fields that the placing stage writes as 0 (R176). -/
def clauseZero : List (Nat × Nat) :=
  [(511, 448), (319, 304), (303, 288), (287, 256), (255, 216), (191, 176), (127, 96), (63, 48), (47, 32), (31, 16),
   (15, 9), (7, 5)]

/-- The update whose verdict a verdict Clause carries (R244): the one that the stage is answering, or that of the step that
its takes have reached (R188). -/
def Stage.verdictFor (g : Stage) (fwd : Bool) : Nat :=
  if fwd && decide (g.update.placedFwd < g.update.answering) then g.update.answering else max 1 (cdiv g.takes g.u)

/-- The first reason of Table 7.5 that a Clause meets at CLS.PUT. -/
def putReason (g : Stage) (backward : Bool) (c : BitVec 512) : Option Nat :=
  let k := clauseKind c
  let verdict := k == 3 || k == 4
  if (clauseZero.any fun r => bits c.toNat r.1 r.2 != 0) || (clauseNf c && (k == 1 || k == 2)) then some 1
  else if !(if backward then k == 2 || k == 3 else k == 1 || k == 4) || (verdict && g.async) ||
      (if backward then g.isFirst else g.isLast) || (k == 3 && decide (g.verdictFor false ≤ g.update.placedBack)) ||
      (k == 4 && decide (g.verdictFor true ≤ g.update.placedFwd)) then
    some 2
  else if clauseLen c = 0xFFFFFF then some 3
  else if (clauseLen c = 0 && clauseAddr c ≠ 0) || (clauseLen c ≠ 0 && clauseAddr c = 0) || clauseAddr c % 256 ≠ 0 then
    some 4
  else none

/-- Is a payload range granted to the stage, in HBM (R177)? -/
def Stage.payloadOk (g : Stage) (c : BitVec 512) : Bool :=
  let a := clauseAddr c
  let n := clauseLen c * 256
  let hbm (x : Nat) : Bool := match regionOf x with
    | .hbm _ _ => true
    | _ => false
  n == 0 || (g.granted a n false && hbm a && hbm (a + n - 1))

/-- EV_CLAUSE_OVERSIZE (R177, Table 14.17): source unit and class, halted stage number, source, destination, LEN, limit. -/
def oversize (unit cls halted src dst len limit : Nat) (s : State) : State :=
  let s := raise 0x0202 unit cls [(2, halted), (2, src), (2, dst), (4, len), (4, limit)] s
  haltOf (s.findStage halted) 0x0202 s

/-- The operation of CLS.PUT. -/
def clsPut (k : Nat) (w : VFields) (s : State) : State :=
  match s.stageOfCell k with
  | none => s
  | some v =>
    let g := s.stage v
    let backward := w.mode == 1
    let c := BitVec.ofNat 512 ((s.eng k).rv w.va.toNat % 2 ^ 512)
    let limit := s.lenLimit g backward
    let verdict := clauseKind c == 3 || clauseKind c == 4
    match putReason g backward c with
    | some r => clauseInvalid k r s
    | none =>
      if clauseLen c > limit then
        oversize (engUnit k).1 (engUnit k).2 g.image.stage g.image.stage (if backward then g.predecessor else g.succ)
          (clauseLen c) limit s
      else if !g.payloadOk c then addrFault (engUnit k).1 (engUnit k).2 (some v) (clauseAddr c) s
      else
        let j := g.verdictFor (clauseKind c == 4)
        let bit' := g.verdictBit j
        let reserved := decide ((g.outQ backward).reserved > 0)
        match s.badAmong [queueState v (2 + bit backward)] with
        | some w => memBad (some v) w clauseStoreUnit 0 s
        | none =>
        if (verdict && bit'.isNone) || (!reserved && !g.outFree backward) then s
        else
          let c := if verdict then setClause c 8 8 (bit (clauseNf c || bit'.getD false)) else c
          let s := s.updStage v fun g =>
            let g := if reserved then g.updOut backward fun q => { q with reserved := q.reserved - 1 } else g
            { g with update := { g.update with
                placedBack := if clauseKind c = 3 then j else g.update.placedBack
                placedFwd := if clauseKind c = 4 then j else g.update.placedFwd } }
          let s := if (s.inGroup k).isSome then
              s.updStage v fun g => g.updOut backward fun q => { q with heldBack := q.heldBack ++ [(c, reserved)] }
            else placeClause v backward c s
          advance k s

/-- CLS.PUT. -/
def execClsPut (e : Engine) (w : VFields) (s : State) : Host.Outcome State Fault Refusal :=
  issue e 0x0A w (clsPut (engKey e) w) s

/-- Held Clauses of a queue enter it in order (R125, R186). -/
def placeHeld (v : Nat) (backward : Bool) (s : State) : State :=
  let cs := ((s.stage v).outQ backward).heldBack
  let s := s.updStage v fun g => g.updOut backward fun q => { q with heldBack := [] }
  forEach cs (fun c s => placeClause v backward c.1 s) s

/-! ### Taking (R183 to R187, R203, R456, R457) -/

/-- The update gate (R187). -/
def Stage.gateOpen (g : Stage) : Bool := decide ((g.takes - g.lag) / g.u ≤ g.update.done)

/-- Is a stage's new take of Clause `c` free to go on, apart from its view (R183, R184)? -/
def Stage.takeReady (g : Stage) (c : BitVec 512) : Bool :=
  let kind := clauseKind c
  (match g.continuing kind with
   | some b => g.outFree b
   | none => true) &&
  (kind != 1 || (g.gateOpen && decide (g.records.length < 4096) && g.tenses.any fun t => t.state == 0))

/-- The commit count whose Tense a take needs in its view. -/
def Stage.takeCommit (g : Stage) (c : BitVec 512) : Option Nat :=
  match clauseKind c with
  | 1 => some g.presentCommit
  | 2 => (g.records.find? fun r => r.mb == clauseMb c).map (·.commit)
  | _ => none

/-- Hand a Clause to the taking cell: bytes 0 to 63 of VD, the stage's current take, and on. -/
def takeReturn (k v : Nat) (w : VFields) (c : BitVec 512) (s : State) : State :=
  let s := s.updStage v fun g => { g with
    current := some (clauseKind c, clauseMb c, clauseCommit c), wantForward := none, wantBackward := none }
  let s := s.updEng k fun e =>
    { e.wv k w.vd.toNat (setBits (e.rv w.vd.toNat) 0 512 c.toNat) with taking := false }
  advance k s

/-- EMPTY is returned and nothing is taken (R185). -/
def takeEmpty (k v : Nat) (w : VFields) (s : State) : State :=
  let s := s.updStage v fun g => { g with wantForward := none }
  let s := s.updEng k fun e => { e.wv k w.vd.toNat (setBits (e.rv w.vd.toNat) 0 512 0) with taking := false }
  advance k s

/-- Ask the Tense logic to fill a view. -/
def wantView (v : Nat) (backward : Bool) (commit : Nat) (s : State) : State :=
  s.updStage v fun g => if backward then { g with wantBackward := some commit } else { g with wantForward := some commit }

/-- The effects of a new take on the stage (R183, R184, R191, R198, R244): what it binds, reserves and counts. -/
def Stage.takeEffects (g : Stage) (c : BitVec 512) : Stage :=
  let kind := clauseKind c
  let g := match g.continuing kind with
    | some b => g.updOut b fun q => { q with reserved := q.reserved + 1 }
    | none => g
  match kind with
  | 1 =>
    let commit := g.presentCommit
    { g with
      records := g.records ++ [⟨clauseMb c, commit, [], g.freeRecord⟩]
      tenses := g.tenses.map fun t => if t.state = 2 then { t with refs := t.refs + 1 } else t
      takes := g.takes + 1
      takenV := if clauseS c then g.takenV else satInc g.takenV
      takenS := if clauseS c then satInc g.takenS else g.takenS }
  | 2 => if g.isFirst then { g with releaseNext := some (clauseMb c) } else g
  | 3 => if g.isFirst then { g with update := { g.update with answering := g.update.done + 1 } } else g
  | 4 => { g with update := { g.update with verdict := some (clauseNf c), answering := g.update.done + 1 } }
  | _ => g

/-- Position 0 releases a micro-batch at its next take on backward-in (R183). -/
def releaseAtTake (v : Nat) (s : State) : State :=
  match (s.stage v).releaseNext with
  | none => s
  | some mb => releaseMb v mb (s.updStage v fun g => { g with releaseNext := none })

/-- A new take completes. -/
def takeNew (k v : Nat) (backward : Bool) (w : VFields) (c : BitVec 512) (s : State) : State :=
  let s := if backward then releaseAtTake v s else s
  let g := s.stage v
  let tagged := match g.takeCommit c with
    | some n => setClause (setClause c 303 288 g.image.stage) 287 256 n
    | none => c
  let s := writeClause (inEntry g v backward (clauseSeq c)) tagged s
  let s := if clauseKind c = 1 then s.mend (mbAddr v g.freeRecord).1 64 else s
  let s := s.updStage v fun g =>
    (g.takeEffects c).updIn backward fun q =>
      { q with items := q.items.drop 1, held := q.held ++ [tagged], rewindable := q.rewindable + 1 }
  let s := if clauseKind c = 1 && g.isFirst then s.updIngest fun i => { i with consumed := i.consumed + 1 } else s
  takeReturn k v w tagged s

/-- A rewound take returns its Clause again (R457). -/
def takeAgain (k v : Nat) (backward : Bool) (w : VFields) (s : State) : State :=
  let g := s.stage v
  let q := g.inQ backward
  match q.held[q.held.length - q.replay]? with
  | none => s
  | some c =>
    let kind := clauseKind c
    let here := if backward then g.viewBackward else g.viewForward
    match s.badAmong [queueState v (bit backward), (inEntry g v backward (clauseSeq c), 64)] with
    | some w => memBad (some v) w clauseStoreUnit 0 s
    | none =>
    if (kind == 1 || kind == 2) && here != some (clauseCommit c) then wantView v backward (clauseCommit c) s
    else takeReturn k v w c (s.updStage v fun g => g.updIn backward fun q => { q with replay := q.replay - 1 })

/-- The operation of CLS.TAKE. While it waits on forward-in, for a Clause, for what R183 asks, or for its view, a Clause in
backward-in makes it return EMPTY (R185). -/
def clsTake (k : Nat) (w : VFields) (s : State) : State :=
  match s.stageOfCell k with
  | none => s
  | some v =>
    let backward := w.mode == 1
    if ((s.stage v).inQ backward).replay > 0 then takeAgain k v backward w s
    else
      let g := s.stage v
      let other := !backward && (!g.backwardIn.items.isEmpty || decide (g.backwardIn.replay > 0))
      let wait (s : State) : State :=
        if other then takeEmpty k v w s else s.updEng k fun e => { e with taking := !backward }
      match (g.inQ backward).items with
      | [] => wait s
      | c :: _ =>
        let kind := clauseKind c
        let known := g.records.any fun r => r.mb == clauseMb c
        if other && (s.eng k).taking then wait s
        else if kind == 1 && known then clauseInvalid k 5 s
        else if kind == 2 && !known then clauseInvalid k 6 s
        else if !g.takeReady c then wait s
        else match s.badAmong (queueState v (bit backward) :: (inEntry g v backward (clauseSeq c), 64) ::
            (if kind = 2 then g.mbRange v (clauseMb c) else []) ++ (match g.takeCommit c with
              | some n => g.slotRecord v n
              | none => [])) with
        | some w => memBad (some v) w clauseStoreUnit 0 s
        | none =>
          match g.takeCommit c with
          | none => takeNew k v backward w c s
          | some n =>
            if (if backward then g.viewBackward else g.viewForward) = some n then takeNew k v backward w c s
            else if other then takeEmpty k v w s
            else wantView v backward n (s.updEng k fun e => { e with taking := !backward })

/-- CLS.TAKE. -/
def execClsTake (e : Engine) (w : VFields) (s : State) : Host.Outcome State Fault Refusal :=
  issue e 0x09 w (clsTake (engKey e) w) s

/-! ### Delivery on the module (R178, R179, R181) -/

/-- Put a Clause and its payload into the receive slot of in-queue entry SEQ (R176, R179). -/
def deliver (v : Nat) (backward : Bool) (c : BitVec 512) (payload : List Byte) (s : State) : State :=
  let g := s.stage v
  let a := g.slotAddr backward ((g.inQ backward).delivered % 2 ^ 32)
  let s := if payload.isEmpty then s else (s.store a payload).mend a payload.length
  let c := setClause c 175 128 (if clauseLen c = 0 then 0 else a)
  let s := writeClause (inEntry g v backward (clauseSeq c)) c s
  s.updStage v fun g => g.updIn backward fun q => { q with items := q.items ++ [c], delivered := q.delivered + 1 }

/-- The loaded source of a stage's in-queue, where it lies on this module and can send. -/
def State.localSource (s : State) (v : Nat) (backward : Bool) : Option Nat :=
  let g := s.stage v
  (s.findStage (if backward then g.succ else g.predecessor)).filter fun u => (s.stage u).live

/-- Does a backward Clause with credit wait on the hub path from one die to another (R182)? -/
def State.backwardWaits (s : State) (src dst : Nat) : Bool :=
  s.loadedStages.any fun v =>
    (s.stage v).image.die == dst && (s.stage v).credit true && match s.localSource v true with
      | some u => (s.stage u).image.die == src && !(s.stage u).backwardOut.items.isEmpty
      | none => false

/-- The absent die that a delivery to a stage meets: the one of the receive slot, or the stage's own (R33, R179). -/
def State.deliveryDie (s : State) (g : Stage) (slot : Nat) : Option Nat := [slot / 2 ^ 40, g.image.die].find? s.absent

/-- Deliver the head of a local source's out-queue into stage `v`. A backward Clause with credit on the same path goes
first. -/
def deliverLocal (v : Nat) (backward : Bool) (s : State) : State :=
  let g := s.stage v
  match s.findStage (if backward then g.succ else g.predecessor) with
  | none => s
  | some u =>
    match ((s.stage u).outQ backward).items with
    | [] => s
    | c :: _ =>
      let a := clauseAddr c
      let n := clauseLen c * 256
      let dst := g.slotAddr backward ((g.inQ backward).delivered % 2 ^ 32)
      if !(s.stage u).live || !g.loaded || !g.credit backward then s
      else if !backward && s.backwardWaits (s.stage u).image.die g.image.die then s
      else if let some d := s.deliveryDie g dst then dieAbsent clauseStoreUnit 0 (some v) d dst s
      else if n > 0 && s.absent (a / 2 ^ 40) then dieAbsent clauseStoreUnit 0 (some u) (a / 2 ^ 40) a s
      else
        match s.badAmong [queueState u (2 + bit backward), (outEntry (s.stage u) u backward (clauseSeq c), 64), (a, n)],
          s.badAmong [queueState v (bit backward)] with
        | some w, _ => memBad (some u) w clauseStoreUnit 0 s
        | none, some w => memBad (some v) w clauseStoreUnit 0 s
        | none, none =>
          let s := s.updStage u fun g => g.updOut backward fun q => { q with items := q.items.drop 1 }
          deliver v backward c (s.load a n) s

/-- CLAUSE_DELIVERY. -/
def execClauseDelivery (v : Fin 16) (backward : Bool) (s : State) : Host.Outcome State Fault Refusal :=
  .next (deliverLocal v.val backward s)

end Sys2Proof.Machine
end

