-- ==== Sys2Proof/Machine/Groups.lean ====
section
/-!
DEFINITION. Sys2Proof/Machine/Groups.lean: entry, end and replay of a layer group (R121 to R126, R456, R457).
-/
namespace Sys2Proof.Machine

/-- The group at whose entry every cell of a stage waits (R121). -/
def State.entryGroup (s : State) (v : Nat) : Option Nat :=
  match ((s.stage v).cellKeys.map fun k => (s.eng k).stat) with
  | .waitEntry g :: t => if t.all (· == .waitEntry g) then some g else none
  | _ => none

/-- Is an execution of a group that starts now a recomputation (R456)? -/
def Stage.recomputes (g : Stage) (d : BitVec 256) : Bool :=
  !declBackward d && (match g.current with
    | some (2, _, _) => true
    | _ => false)

/-- The rung that a micro-batch's record gives for a group, 0 where it gives none (R456). -/
def Stage.recordedRung (g : Stage) (id : Nat) : Nat :=
  match g.current with
  | none => 0
  | some (_, mb, _) => match g.records.find? fun r => r.mb == mb with
    | some r => sget 0 r.rungs id
    | none => 0

/-- Does a predictor slot of the group ask for widening? -/
def Stage.widens (g : Stage) (d : BitVec 256) : Bool :=
  decide (declRungs d ≥ 2) && g.preds.any fun p => p.group == declId d && p.widen

/-- The starting rung of an ordinary execution (R126), and whether the predictor's choice puts it above 0. -/
def Stage.ordinaryRung (g : Stage) (d : BitVec 256) : Nat × Bool :=
  (max (sget 0 g.windowRungs (declId d)) (if g.widens d then 1 else 0), g.widens d)

/-- Count an execution that the predictor starts above rung 0, and log the first of the window (R126, R128). -/
def prewiden (v : Nat) (d : BitVec 256) (s : State) : State :=
  let id := declId d
  let s := if (s.stage v).prewidened.contains id then s
    else (logEntry v ⟨1, 0, 1, id, declBackward d, false, 0, 0⟩ s).updStage v fun g =>
      { g with prewidened := g.prewidened ++ [id] }
  s.updStage v fun g => { g with prewidenedCount := satInc g.prewidenedCount }

/-- A setting of CHECK_FRACTION_SET that waits takes effect: the fraction and the key of the stage, and the response to a
shadow mismatch, which is the job's (R266, R272). -/
def applyShadow (v : Nat) (s : State) : State :=
  match (s.stage v).shadowNext with
  | some (c, k, log) =>
    let s := s.updStage v fun g => { g with shadowCode := c, shadowKey := k, shadowNext := none }
    match log with
    | some l => s.updJob fun j => { j with respLog := l }
    | none => s
  | none => s

/-- Start a group in every cell; a recomputation reads its rung from the micro-batch's record (R36, R456). -/
def groupEntry (v : Nat) (d : BitVec 256) (s : State) : State :=
  let s := applyShadow v (nullPropagate v s)
  let g := s.stage v
  let recomp := g.recomputes d
  match (if recomp then match g.current with
      | some (_, mb, _) => s.badAmong (g.mbRange v mb)
      | none => none else none) with
  | some w => memBad (some v) w clauseStoreUnit 0 s
  | none =>
  let (rung, pre) := if recomp then (g.recordedRung (declId d), false) else g.ordinaryRung d
  let s := if pre then prewiden v d s else s
  let s := s.updStage v fun g =>
    { g with exec := some ⟨declId d, rung, recomp, none⟩
             forwardIn := g.forwardIn.enter, backwardIn := g.backwardIn.enter }
  s.updCells v fun e =>
    { e with stat := .running, pc := declEntry d rung, ordinal := 0, outerLoops := e.loops.length }

/-- LAYER_GROUP_ENTRY. -/
def execLayerGroupEntry (v : Fin 16) (s : State) : Host.Outcome State Fault Refusal :=
  let g := s.stage v.val
  .next (if !g.live || g.exec.isSome then s
    else match s.entryGroup v.val with
    | none => s
    | some id => match g.decl id with
      | none => s
      | some d => groupEntry v.val d s)

/-! ### The end -/

/-- Has every cell left the group's variant, with every tile that the group issued complete (R121)? -/
def State.groupDone (s : State) (v id : Nat) : Bool :=
  s.cellsAll v fun e => e.stat == .waitExit id && e.tileQ.all (·.group != id) &&
    e.inFlight.all fun t => t.ending || t.group != id

/-- The rung of an ordinary forward execution goes beside the record of the stage's current take as it is at the group's end,
also where a CLS.TAKE inside the group has changed it since the entry (R456, log 127). -/
def Stage.recordRung (g : Stage) (id rung : Nat) : Stage :=
  match g.current with
  | none => g
  | some (_, mb, _) =>
    { g with records := g.records.map fun r => if r.mb = mb then { r with rungs := sset 0 id rung r.rungs } else r }

/-- What an ordinary execution that ends at a rung leaves in the window (R126, R131). -/
def Stage.windowEnd (g : Stage) (d : BitVec 256) (rung : Nat) : Stage :=
  let id := declId d
  let n := sget 0 g.windowExecs id + 1
  let g := { g with windowRungs := sset 0 id rung g.windowRungs, windowExecs := sset 0 id n g.windowExecs }
  let g := if declBackward d then g else g.recordRung id rung
  if g.async && n ≥ g.u then g.closeGroup id else g

/-- The overflow of an execution's last rung is logged, and counted in PROPAGATED: the highest of an ordinary execution, the
recorded one of a recomputation, which never replays (R124, R125, log 127). Otherwise an ordinary execution reads its
slots (R131). -/
def groupOutcome (v : Nat) (d : BitVec 256) (x : Exec) (s : State) : State :=
  match x.ovf with
  | some (first, _) =>
    let s := logEntry v ⟨2, 0, x.rung, x.group, declBackward d, x.recomp, first, 0⟩ s
    s.updStage v fun g => { g with propagated := satInc g.propagated }
  | none =>
    if x.recomp then s
    else
      let ps := (s.stage v).preds
      forEach ((List.range ps.length).filter fun i => match ps[i]? with
        | some p => p.group == x.group
        | none => false) (readPred v) s

/-- The group's end: its outcome, its window, its Clauses, and every cell goes on after END0. -/
def groupEnd (v : Nat) (d : BitVec 256) (x : Exec) (s : State) : State :=
  let s := groupOutcome v d x s
  let s := if x.recomp then s else s.updStage v fun g => g.windowEnd d x.rung
  let s := placeHeld v true (placeHeld v false s)
  let s := s.updStage v fun g => { g.settle with exec := none, restart := declEnd d 0 + 1 }
  if (s.stage v).pauseAt = 1 then haltStage v 0x0702 false (s.updCells v EngineState.zeroOrdinal)
  else
    forEach (s.stage v).cellKeys (fun k s =>
      advanceFrom k (declEnd d 0) (s.updEng k fun e => { e.zeroOrdinal with stat := .running, outerLoops := 0 })) s

/-- LAYER_GROUP_END. -/
def execLayerGroupEnd (v : Fin 16) (s : State) : Host.Outcome State Fault Refusal :=
  let g := s.stage v.val
  .next (match g.exec with
    | none => s
    | some x => match g.decl x.group with
      | none => s
      | some d => if g.live && s.groupDone v.val x.group then groupEnd v.val d x s else s)

/-! ### Replay (R123) -/

/-- Steps 5 and 6 of Table 5.3 at the abort barrier. -/
def replayStart (v : Nat) (d : BitVec 256) (x : Exec) (lost : Nat) (s : State) : State :=
  let r := x.rung
  let low := match x.ovf with
    | some (_, m) => m
    | none => 0
  let s := logEntry v ⟨0, r, r + 1, x.group, declBackward d, x.recomp, low, lost⟩ s
  let s := s.updStage v fun g =>
    let g := if r = 0 then { g with replayR1 := satInc g.replayR1 } else { g with replayR2 := satInc g.replayR2 }
    { (g.dropHeld).rewind with exec := some { x with rung := r + 1, ovf := none }, wantForward := none, wantBackward := none }
  s.updCells v fun e =>
    { e with stat := .running, pc := declEntry d (r + 1), ordinal := 0, taking := false
             loops := e.loops.drop e.innerLoops.length }

/-- REPLAY_START, once every cell has stopped and its transfers have completed. -/
def execReplayStart (v : Fin 16) (lost : W32) (s : State) : Host.Outcome State Fault Refusal :=
  let g := s.stage v.val
  .next (match g.exec with
    | none => s
    | some x => match g.decl x.group with
      | none => s
      | some d =>
        if g.live && s.cellsAll v.val (fun e => e.stat == .aborted && e.dmaQ.isEmpty) then
          replayStart v.val d x lost.toNat s
        else s)

end Sys2Proof.Machine
end

