-- ==== Sys2Proof/Machine/Inflector.lean ====
section
/-!
DEFINITION. Sys2Proof/Machine/Inflector.lean: the start of an update (R214, R234), the Inflector's own instructions (R167
to R170), the Agreement exchange (R259, R260) and the final phase of a COMMIT (R241 to R247).
-/
namespace Sys2Proof.Machine

/-! ### The start of an update -/

/-- The running offset of each group under a size. -/
def offsetsFrom (f : ParamGroup → Nat) : Nat → List ParamGroup → List Nat
  | _, [] => []
  | o, p :: t => o :: offsetsFrom f (o + f p) t

/-- Write one 64-bit field of a record. -/
def putField (a x : Nat) (s : State) : State := (s.store a (leBytes 8 x)).mend a 8

/-- The R214 fields of group `i`: byte offset in the record and address. -/
def recordFields (g : Stage) (z shard kind building i : Nat) (p : ParamGroup) : List (Nat × Nat) :=
  let n := p.len / z
  let me := g.masterRole
  let other := 1 - me
  let before := (g.image.paramGroups.take i).map fun q => q.len / z
  let cum := before.foldl (· + ·) 0
  let mom := ((g.image.paramGroups.take i).map fun q => momentBytes kind (q.len / z) q.rows).foldl (· + ·) 0
  [(16, g.image.moments.getD me 0 + mom), (24, g.image.moments.getD other 0 + mom),
   (32, g.image.heads.getD me 0 + 2 * cum), (40, g.image.rems.getD me 0 + cum),
   (48, g.image.heads.getD other 0 + 2 * cum), (56, g.image.rems.getD other 0 + cum),
   (64, building + p.workOff + shard * (n * fmtWidth g.image.fmt / 8)),
   (72, building + p.scaleOff + shard * (n / fmtBlock g.image.fmt)), (80, building + p.tsOff)]

/-- Write the R214 fields of every record. -/
def writeRecords (v building : Nat) (s : State) : State :=
  let g := s.stage v
  let kind := match g.rule with
    | some r => r.kind
    | none => 0
  forEach (number 0 g.image.paramGroups) (fun (i, p) s =>
    forEach (recordFields g s.job.z s.shard kind building i p) (fun x s => putField (g.recordAddr i + x.1) x.2 s) s) s

/-- Ranges of the image that belong to no group's elements, scales or tensor scale (R214). -/
def Stage.plainParts (g : Stage) (z : Nat) : List (Nat × Nat) :=
  let ts := if fmtHasTensorScale g.image.fmt then g.image.paramGroups.map fun p => (p.tsOff, 4) else []
  gapsFrom g.image.imageSize 0 (sortRanges ((List.range z).flatMap (g.shardParts z) ++ ts))

/-- Does no update run on this Inflector? -/
def EngineState.atRest (e : EngineState) : Bool := e.stat == .idle

/-- Write what firmware writes for a rule or a table, but what would meet an uncorrectable word in part (R36). -/
def firmwareWrites (xs : List (Nat × List Byte)) (s : State) : State :=
  forEach xs (fun x s => match s.badPart x.1 x.2.length with
    | some w => memBadNoHalt none w parserUnit 0 s
    | none => (s.store x.1 x.2).mend x.1 x.2.length) s

/-- A rule is put in place: the idle accumulator (R169), and registers of 0, at once or, where an
update runs on the engine, before the next (R136, log 102). -/
def placeRule (v : Nat) (r : Rule) (rows : List Nat) (s : State) : State :=
  let s := s.updStage v fun g =>
    { g with
      image := { g.image with paramGroups := if r.matrix then
        (g.image.paramGroups.zip rows).map fun y => { y.1 with rows := y.2 } else g.image.paramGroups }
      rule := some r, dig := .idle, digValue := 0, digLen := 0 }
  s.updEng ((s.stage v).image.die * 128 + 97) fun e => if e.atRest then e.clearRegs else { e with clearDue := true }

/-- A waiting rule or table is put in place. -/
def placeLoad (v : Nat) (x : LoadWait) (s : State) : State :=
  firmwareWrites x.writes (match x.rule with
    | some (r, rows) => placeRule v r rows s
    | none => s)

/-- Rules and tables whose commit count is reached are put in place, oldest first (R240). -/
def applyLoads (v commit : Nat) (s : State) : State :=
  let (now, later) := (s.stage v).loads.partition fun x => decide (x.commit ≤ commit)
  forEach now (placeLoad v) (s.updStage v fun g => { g with loads := later })

/-- Rules and tables loaded for a stage wait for the first update whose present COMMIT is their AT or higher; what is due
while no update is being built is put in place at once. -/
def queueLoads (v : Nat) (xs : List LoadWait) (s : State) : State :=
  let s := s.updStage v fun g => { g with loads := g.loads ++ xs }
  if (s.stage v).update.building.isNone then applyLoads v (s.stage v).presentCommit s else s

/-- Has a stage a rule for its next update: one that is installed, or one whose AT is reached (R240)? -/
def Stage.hasRule (g : Stage) : Bool := g.rule.isSome || g.loads.any fun x => x.rule.isSome && decide (x.commit ≤ g.presentCommit)

/-- May update `done + 1` of a stage start, apart from the engine (R234)? -/
def Stage.startable (g : Stage) : Bool :=
  g.live && g.updateHalt == 0 && g.hasRule && g.update.building.isNone && g.flip.isNone && g.committing.isNone &&
  (g.tenses.any fun t => t.state == 0) && (g.reducedBit (g.update.done + 1)).isSome

/-- The next update that an Inflector starts (R227). -/
def State.nextUpdate (s : State) (k : Nat) : Option Nat :=
  (s.eng k).ready.find? fun v => (s.stage v).startable

/-- The reduced shard goes to the VOTE buffers of the group records, in group order (R233). -/
def voteGo (s : State) (g : Stage) (r : Rule) : List (Nat × ParamGroup) → List Byte → List (Nat × List Byte)
  | [], _ => []
  | (i, p) :: t, bs =>
    let n := voteBytes r.matrix (p.len / s.job.z)
    (s.recordField g i 8, bs.take n) :: voteGo s g r t (bs.drop n)

/-- The reduced shard goes into VOTE, if it is not there yet (R233). -/
def writeVote (v : Nat) (s : State) : State :=
  let g := s.stage v
  match g.update.reduced with
  | some r =>
    if r.update = g.update.done + 1 then
      let s := match g.rule with
        | some q => firmwareWrites (voteGo s g q (number 0 g.image.paramGroups) r.data) s
        | none => s
      s.updStage v fun g => { g with update := { g.update with vote := some (r.update, r.nonFinite), reduced := none } }
    else s
  | none => s

/-- Claim the BUILDING slot, prepare its image and the records, and start the rule (R137, R214, R234). -/
def startUpdate (v k slot : Nat) (s : State) : State :=
  let g := s.stage v
  let z := s.job.z
  let building := g.image.buffers.getD (1 - g.fullBuffer) 0
  let present := g.image.buffers.getD g.fullBuffer 0
  let parts := g.plainParts z
  match (s.badAmong (parts.map fun x => (present + x.1, x.2))).or (parts.findSome? fun x => s.badPart (building + x.1) x.2) with
  | some w => tenseBad v w s
  | none =>
    let s := writeVote v (applyLoads v g.presentCommit (discardEnded k s))
    let s := forEach parts (fun x s => (s.store (building + x.1) (s.load (present + x.1) x.2)).mend (building + x.1) x.2) s
    let tail := g.pages * 4096 - g.image.imageSize
    let s := (s.store (building + g.image.imageSize) (List.replicate tail 0)).mend (building + g.image.imageSize) tail
    let s := writeRecords v building s
    let s := s.updStage v fun g =>
      { g.updTense slot (fun _ => { state := 1, commit := g.presentCommit + 1, addr := building, sdigAddr := g.sdigAddr slot })
        with update := { g.update with building := some (g.update.done + 1), startedAt := some g.presentCommit, gmax := 0
                                       gather := [], asked := [], verified := [], shardSent := false } }
    s.updEng k fun e =>
      let e := if e.clearDue then { e.clearRegs with clearDue := false } else e
      let e := ((e.ws 1 (BitVec.ofNat 64 v)).ws 2 (BitVec.ofNat 64 g.image.ruleArea)).ws 3 (BitVec.ofNat 64 g.presentCommit)
      { e with stat := .running, pc := 0, loops := [], outerLoops := 0, ruleStage := some v, committed := false }

/-- EV_TENSE_LIMIT at the start of an update (R195). -/
def tenseLimit (v : Nat) (s : State) : State :=
  let g := s.stage v
  haltStage v 0x0206 true (raise 0x0206 (tenseUnit g.image.die) 0 [(2, g.image.stage)] s)

/-- UPDATE_START. -/
def execUpdateStart (v : Fin 16) (s : State) : Host.Outcome State Fault Refusal :=
  let g := s.stage v.val
  let k := g.image.die * 128 + 97
  .next (if (s.eng k).stat != .idle || s.nextUpdate k != some v.val then s
    else if g.presentCommit = 0xFFFFFFFF then tenseLimit v.val s
    else match g.findTense fun t => t.state == 0 with
      | none => s
      | some i => startUpdate v.val k i s)

/-! ### The Inflector's own instructions (R167 to R170) -/

/-- The largest of the owners' values, each by its magnitude (R168, log 126). -/
def gmaxOf (xs : List W64) : W64 := BitVec.ofNat 64 ((xs.map fun x => x.toNat % 2 ^ 32).foldl (fpMaxMag fFP32) 0)

/-- A GMAX value as a message (Table 13.5). -/
def gmaxMessage (v stage j rank n : Nat) (x : W64) : OutMsg :=
  { withData (msgOf v 8 1 stage j rank 3) (leBytes 16 x.toNat) with base := n }

/-- The operation of GMAX: with Z above 1 the owners exchange their n-th values and each waits for all (R168). -/
def gmaxOp (k v : Nat) (w : VFields) (s : State) : State :=
  let g := s.stage v
  let x := (s.eng k).rs w.va.toNat
  if s.job.z ≤ 1 then advance k (s.updEng k fun e => e.ws w.vd.toNat x)
  else
    let j := g.update.done + 1
    let n := g.update.gmax
    let held := g.update.gmaxVals.any fun y => y.update == j && y.ordinal == n && y.rank == s.job.rank
    let s := if held then s
      else forEach s.subgroup (fun q => queueColl (gmaxMessage v g.image.stage j q n x))
        (s.updStage v fun g => { g with update := { g.update with gmaxVals := g.update.gmaxVals ++ [⟨j, n, s.job.rank, x⟩] } })
    let vals := (s.stage v).update.gmaxVals.filter fun y => y.update == j && y.ordinal == n
    if vals.length < s.job.z then s
    else
      let s := s.updStage v fun g => { g with update := { g.update with gmax := n + 1 } }
      advance k (s.updEng k fun e => e.ws w.vd.toNat (gmaxOf (vals.map (·.value))))

/-- GMAX. -/
def execGmax (e : Engine) (w : VFields) (s : State) : Host.Outcome State Fault Refusal :=
  let k := engKey e
  issue e 0x70 w (fun s => match s.stageOf k with
    | none => s
    | some v => gmaxOp k v w s) s

/-- Does an Inflector's die host this virtual stage (R167)? -/
def State.hostsStage (s : State) (k v : Nat) : Bool :=
  decide (v < 16) && (s.stage v).loaded && (s.stage v).image.die == dieOf k

/-- DIGEST INIT: the row fixes MODE 0 (R169). -/
def digestInit (k : Nat) (w : VFields) (s : State) : State :=
  let u := ((s.eng k).rs w.va.toNat).toNat
  if !s.hostsStage k u then vecFault k 7 s
  else advance k (s.updStage u fun g => { g with dig := .opened, digValue := 0, digLen := 0 })

/-- DIGEST_INIT. -/
def execDigestInit (e : Engine) (w : VFields) (s : State) : Host.Outcome State Fault Refusal :=
  let w := { w with mode := 0 }
  issue e 0x71 w (digestInit (engKey e) w) s

/-- DIGEST ADD: fold the low IMM bytes of VA (R169, R251). -/
def digestAdd (k : Nat) (w : VFields) (s : State) : State :=
  let u := ((s.eng k).rs w.vb.toNat).toNat
  let n := w.imm.toNat
  if !s.hostsStage k u then vecFault k 7 s
  else if (s.stage u).dig != .opened then vecFault k 6 s
  else
    let bs := leBytes n ((s.eng k).rv w.va.toNat)
    advance k (s.updStage u fun g =>
      { g with digValue := BitVec.ofNat 128 (pdRange n g.digValue.toNat bs), digLen := g.digLen + n })

/-- DIGEST_ADD. -/
def execDigestAdd (e : Engine) (w : VFields) (s : State) : Host.Outcome State Fault Refusal :=
  let w := { w with mode := 1 }
  issue e 0x71 w (digestAdd (engKey e) w) s

/-- A shard of the BUILDING image is held and verified: its digest enters the slot's table (R215). -/
def verifyShard (v r dig : Nat) (s : State) : State :=
  let g := s.stage v
  match g.findTense fun t => t.state == 1 with
  | none => s
  | some i =>
    if g.update.verified.contains r then s
    else
      let s := (s.store (g.sdigAddr i + 16 * r) (leBytes 16 dig)).mend (g.sdigAddr i + 16 * r) 16
      s.updStage v fun g =>
        { g.updTense i (fun t => { t with shards := t.shards + 1 }) with
          update := { g.update with verified := g.update.verified ++ [r] } }

/-- The owner's own shard counts when FINAL completes (R215). -/
def verifyOwn (v : Nat) (s : State) : State :=
  let g := s.stage v
  match g.tenses.find? fun t => t.state == 1 with
  | none => s
  | some t =>
    if g.update.verified.contains s.shard then s
    else
      let rs := g.shardRanges s.job.z s.shard
      match s.badAmong (rs.map fun x => (t.addr + x.1, x.2)) with
      | some w => tenseBad v w s
      | none => verifyShard v s.shard (shardDigest (shardBytes rs (s.imageAt g t.addr))) s

/-- DIGEST FINAL (R169). -/
def digestFinal (k : Nat) (w : VFields) (s : State) : State :=
  let u := ((s.eng k).rs w.va.toNat).toNat
  if !s.hostsStage k u then vecFault k 7 s
  else if (s.stage u).dig != .opened then vecFault k 6 s
  else
    let d := pdBlock (s.stage u).digValue.toNat (s.stage u).digLen
    let s := s.updStage u fun g => { g with dig := .closed, digValue := BitVec.ofNat 128 d }
    let s := s.updEng k fun e =>
      (e.ws w.vd.toNat (BitVec.ofNat 64 d)).ws (w.vd.toNat + 1) (BitVec.ofNat 64 (d / 2 ^ 64))
    verifyOwn u (advance k s)

/-- DIGEST_FINAL. -/
def execDigestFinal (e : Engine) (w : VFields) (s : State) : Host.Outcome State Fault Refusal :=
  let w := { w with mode := 2 }
  issue e 0x71 w (digestFinal (engKey e) w) s

/-- Is the instruction after this one END, which makes a COMMIT a detached one (R227)? -/
def State.endsNext (s : State) (k : Nat) : Bool :=
  match (match s.stageOf k with
    | some v => (s.stage v).rule
    | none => none) with
  | some r => match r.code[(s.eng k).pc + 1]? with
    | some x => opOf x == 1
    | none => false
  | none => false

/-- The operation of COMMIT (R170): it waits for the engine's tiles and transfers; a detached one goes on. -/
def commitOp (k : Nat) (w : VFields) (s : State) : State :=
  let u := ((s.eng k).rs w.va.toNat).toNat
  if !s.hostsStage k u then vecFault k 7 s
  else if (s.stage u).dig != .closed then vecFault k 6 s
  else if !(s.eng k).tags.isEmpty then s
  else
    let own := (s.eng k).ruleStage == some u
    let detached := s.endsNext k
    let s := s.updStage u fun g =>
      { g with dig := .idle, commitDig := g.digValue, committing := some (if detached then none else some w.vd.toNat) }
    let s := s.updEng k fun e => { e with committed := e.committed || own }
    if detached then
      advance k (s.updEng k fun e => e.ws w.vd.toNat (BitVec.ofNat 64 ((s.stage u).presentCommit + 2 ^ 62)))
    else s.updEng k fun e => { e with stat := .commit u w.vd.toNat }

/-- COMMIT. -/
def execCommit (e : Engine) (w : VFields) (s : State) : Host.Outcome State Fault Refusal :=
  issue e 0x72 w (commitOp (engKey e) w) s

/-! ### The Agreement exchange (R259, R260) -/

/-- EV_AGREEMENT_MISMATCH (R260) and the response of R266; the record is written for a difference that names this
rank. -/
def agreeMismatch (v reason commit kind mask : Nat) (s : State) : State :=
  let g := s.stage v
  let u := tenseUnit g.image.die
  let s := raise 0x0302 u 0 [(1, reason), (2, g.image.stage), (4, commit), (1, kind), (4, mask)] s
  let s := if reason = 1 && mask.testBit s.job.rank then
      noteRecord ⟨u, 0, 0, 2, 0, g.image.stage, 0xFFFF, commit, mask⟩ s
    else s
  checkResponse s.job.agreeLog s

/-- Mask of ranks. -/
def rankMask (rs : List Nat) : Nat := rs.foldl (fun a r => a ||| 2 ^ r) 0

/-- How often a value occurs. -/
def occurs (x : W128) (xs : List (Nat × W128)) : Nat := (xs.filter fun y => y.2 == x).length

/-- The ranks outside the majority, or every rank where there is none; 0 where all agree (R260). -/
def suspects (xs : List (Nat × W128)) : Nat :=
  match xs with
  | [] => 0
  | (_, x) :: _ =>
    if xs.all fun y => y.2 == x then 0
    else
      match xs.find? fun y => decide (xs.length ≥ 3) && decide (2 * occurs y.2 xs > xs.length) with
      | some m => rankMask ((xs.filter fun y => y.2 != m.2).map (·.1))
      | none => rankMask (xs.map (·.1))

/-- Compare a complete exchange. -/
def compareExchange (v commit : Nat) (rs : List AgreeRecord) (s : State) : State :=
  let mc := suspects (rs.map fun r => (r.rank, r.c))
  let s := if mc ≠ 0 then agreeMismatch v 1 commit 1 mc s else s
  forEach (List.range s.job.z) (fun sh s =>
    let own := (rs.filter fun r => r.shard == sh).map fun r => (r.rank, r.adig)
    let m := if own.length ≥ 2 then suspects own else 0
    if m ≠ 0 then agreeMismatch v 1 commit 2 m s else s) s

/-- Drop the oldest of four exchanges when a fifth begins. -/
def dropOldest (v : Nat) (s : State) : State :=
  let xs := (s.stage v).exchanges
  match xs with
  | (c, rs) :: t =>
    if xs.length ≥ 4 then
      let missing := (List.range s.job.g).filter fun q => !(rs.any fun r => r.rank == q)
      agreeMismatch v 3 c 0 (rankMask missing) (s.updStage v fun g => { g with exchanges := t })
    else s
  | [] => s

/-- A record of an exchange arrives, this module's own among them. -/
def addRecord (v : Nat) (r : AgreeRecord) (s : State) : State :=
  if r.d ≠ s.job.agreeD then agreeMismatch v 2 r.commit 0 (2 ^ r.rank) s
  else
    let known := (s.stage v).exchanges.any fun x => x.1 == r.commit
    let s := if known then s else
      (dropOldest v s).updStage v fun g => { g with exchanges := g.exchanges ++ [(r.commit, [])] }
    let s := s.updStage v fun g => { g with
      exchanges := g.exchanges.map fun x =>
        if x.1 = r.commit && !(x.2.any fun y => y.rank == r.rank) then (x.1, x.2 ++ [r]) else x }
    match (s.stage v).exchanges.find? fun x => x.1 == r.commit with
    | none => s
    | some (_, rs) =>
      if rs.length < s.job.g then s
      else compareExchange v r.commit rs
        (s.updStage v fun g => { g with exchanges := g.exchanges.filter fun x => x.1 != r.commit })

/-- The bytes of a record in a DIGEST frame; the specification gives the items and no layout (log 16). -/
def recordBytes (stage : Nat) (r : AgreeRecord) : List Byte :=
  pad16 (body [(2, stage), (4, r.commit), (4, r.d), (1, r.rank), (1, r.g), (1, r.z), (1, r.shard)] ++
    leBytes 16 r.adig.toNat ++ leBytes 16 r.c.toNat)

/-- A record from its bytes. -/
def recordOf (bs : List Byte) : AgreeRecord :=
  let f (o n : Nat) := leNat ((bs.drop o).take n)
  ⟨f 4 4, f 8 4, f 12 1, f 13 1, f 14 1, f 15 1, BitVec.ofNat 128 (f 16 16), BitVec.ofNat 128 (f 32 16)⟩

/-- Send the Agreement record of a new present Tense (R259): due at every D-th commit; C is PD of the shard digests. -/
def sendAgreement (v : Nat) (s : State) : State :=
  let g := s.stage v
  match g.tenses.find? fun t => t.state == 2 with
  | none => s
  | some t =>
    if s.job.agreeD = 0 || t.commit % s.job.agreeD ≠ 0 then s
    else if let some w := s.badAmong [(t.sdigAddr, 16 * s.job.z)] then tenseBad v w s
    else
      let c := pd [s.load t.sdigAddr (16 * s.job.z)]
      let r : AgreeRecord := ⟨t.commit, s.job.agreeD, s.job.rank, s.job.g, s.job.z, s.shard, t.adig, BitVec.ofNat 128 c⟩
      addRecord v r (forEach s.others (fun q =>
        queueColl (withData (msgOf v 9 0 g.image.stage t.commit q 5) (recordBytes g.image.stage r))) s)

/-! ### The final phase (R242 to R247) -/

/-- What an update leaves when it has flipped or been skipped. -/
def Update.ended (u : Update) (j : Nat) : Update :=
  { u with done := j, vote := none, lastBit := u.vote, verdict := none, building := none, gmax := 0
           gmaxVals := u.gmaxVals.filter fun y => decide (y.update > j), gather := [], asked := [], verified := []
           shardSent := false }

/-- The flip (R170, R241): the BUILDING Tense becomes present in the same cycle in which the roles of the buffers swap,
then retirements (R201). -/
def Stage.flipTo (g : Stage) (j : Nat) : Stage :=
  let old := g.presentCommit
  let slot := g.findTense fun t => t.state == 2
  let rebases := (List.range g.tenses.length).filter fun i => match g.tenses[i]? with
    | some t => t.state == 4 && t.base == old
    | none => false
  let tenses := g.tenses.map fun t =>
    if t.state = 1 then { t with state := 2, adig := g.commitDig }
    else if t.state = 2 then { t with state := 3 } else t
  Stage.retire { g with
    tenses := tenses, flip := some ⟨old, g.fullBuffer, false, rebases, slot, 0⟩
    fullBuffer := 1 - g.fullBuffer, masterRole := 1 - g.masterRole, committing := none, commitDig := 0
    update := g.update.ended j }

/-- The skip (R216): the BUILDING slot and its buffer are released. -/
def Stage.skipTo (g : Stage) (j : Nat) : Stage :=
  { g with
    tenses := g.tenses.map fun t => if t.state = 1 then {} else t
    committing := none, commitDig := 0, skips := satInc g.skips, update := g.update.ended j }

/-- Tense shards of a skipped count that still wait for credit are discarded (R216). -/
def dropShards (stage commit : Nat) (s : State) : State :=
  let keep (m : OutMsg) : Bool := !(m.type == 7 && m.stage == stage && m.tag == commit && !m.started && m.owner < 16)
  let s := forEach (List.range 8) (fun p s => s.updPort p fun q => { q with out := q.out.filter keep }) s
  { s with transit := s.transit.filter keep }

/-- EV_UPDATE_SKIPPED (R247). -/
def skipEvent (v j : Nat) (s : State) : State :=
  let g := s.stage v
  raise 0x0209 (tenseUnit g.image.die) 0 [(2, g.image.stage), (4, g.presentCommit), (4, j)] s

/-- Release an engine that a COMMIT holds, with its result. -/
def releaseCommit (k : Nat) (vd : Option Nat) (x : Nat) (s : State) : State :=
  match vd with
  | none => s
  | some d => advance k (s.updEng k fun e => { (e.ws d (BitVec.ofNat 64 x)) with stat := .running })

/-- Erase the first entry of a stage in a ready list. -/
def EngineState.doneUpdate (v : Nat) (e : EngineState) : EngineState := { e with ready := e.ready.erase v }

/-- The verdict's consequence for the Tenses, the predictor and the log of events. -/
def settleUpdate (v j : Nat) (skip : Bool) (s : State) : State :=
  let g := s.stage v
  if skip then
    let s := dropShards g.image.stage (g.presentCommit + 1) s
    skipEvent v j (s.updStage v fun g => let g := g.skipTo j; if g.async then g else g.closeWindows false)
  else
    sendAgreement v (s.updStage v fun g => let g := g.flipTo j; if g.async then g else g.closeWindows true)

/-- The final phase, which a halt cannot interrupt. -/
def finalPhase (v j : Nat) (vd : Option Nat) (skip : Bool) (s : State) : State :=
  let k := (s.stage v).image.die * 128 + 97
  let s := trySubmit v 2 ((settleUpdate v j skip s).updEng k (EngineState.doneUpdate v))
  let c := (s.stage v).presentCommit
  let s := releaseCommit k vd (if skip then c + 2 ^ 63 else c) s
  let g := s.stage v
  if g.pauseAt ≥ 2 && g.update.done + 2 ≥ g.pauseAt then haltStage v 0x0702 false s else s

/-- The stages of a job that pauses for a check stop when each holds its final phase or has halted: one that holds it still
passes on the verdicts that others wait for (R244, R266). -/
def settleHold (s : State) : State :=
  if s.checking && s.loadedStages.all fun v => (s.stage v).held || (s.stage v).haltCode != 0
  then forEach s.loadedStages (fun v => haltStage v 0x0702 false) s
  else s

/-- The PAUSE response of R266: a stage's final phase that comes due is held. -/
def holdForCheck (v : Nat) (s : State) : State := settleHold (s.updStage v fun g => { g with held := true })

/-- COMMIT_FINAL_PHASE: it begins when FINAL, the shards, the takes and the verdict are all in (R242). -/
def execCommitFinalPhase (v : Fin 16) (s : State) : Host.Outcome State Fault Refusal :=
  let g := s.stage v.val
  .next (match g.committing, g.update.building with
    | some vd, some j =>
      let whole := g.tenses.any fun t => t.state == 1 && t.shards == s.job.z
      match g.verdictOf j with
      | some skip =>
        if !g.live || !whole || g.takes < j * g.u + g.lag then s
        else if s.checking then holdForCheck v.val s
        else finalPhase v.val j vd skip s
      | none => s
    | _, _ => s)

end Sys2Proof.Machine
end

