-- ==== Sys2Proof/Machine/Mailbox.lean ====
section
/-!
DEFINITION. Sys2Proof/Machine/Mailbox.lean: command entries, the checks of R369 in their order, refusals, completions
(R364 to R370), and the job's events.
-/
namespace Sys2Proof
open Sys2Proof.Machine

/-! ### Fields of a command entry (Table 14.6) -/

/-- OPCODE -/
def Cmd.opcode (c : Cmd) : Nat := bits c.entry.toNat 15 0
/-- EXPERT -/
def Cmd.expert (c : Cmd) : Bool := c.entry.getLsbD 16
/-- CMD_ID -/
def Cmd.id (c : Cmd) : Nat := bits c.entry.toNat 63 32
/-- PAYLOAD_ADDR -/
def Cmd.payAddr (c : Cmd) : Nat := bits c.entry.toNat 127 64
/-- RESP_ADDR -/
def Cmd.respAddr (c : Cmd) : Nat := bits c.entry.toNat 191 128
/-- LENGTH -/
def Cmd.len (c : Cmd) : Nat := bits c.entry.toNat 223 192
/-- RESP_LENGTH -/
def Cmd.respLen (c : Cmd) : Nat := bits c.entry.toNat 255 224
/-- `n` bytes of ARGS from byte `o`. -/
def Cmd.arg (c : Cmd) (o n : Nat) : Nat := bits c.entry.toNat (255 + 8 * (o + n)) (256 + 8 * o)
/-- The payload, as long as LENGTH says. -/
def Cmd.pay (c : Cmd) : List Byte := fit c.len c.payload
/-- A field of the payload. -/
def Cmd.payNat (c : Cmd) (o n : Nat) : Nat := leNat ((c.pay.drop o).take n)

end Sys2Proof

namespace Sys2Proof.Machine

/-! ### Status codes (Table 14.10) -/

/-- ST_OK -/
def stOk : Nat := 0
/-- ST_OPCODE -/
def stOpcode : Nat := 1
/-- ST_RESERVED -/
def stReserved : Nat := 2
/-- ST_LENGTH -/
def stLength : Nat := 3
/-- ST_RING -/
def stRing : Nat := 4
/-- ST_STATE -/
def stState : Nat := 5
/-- ST_RANGE -/
def stRange : Nat := 6
/-- ST_UNIT -/
def stUnit : Nat := 7
/-- ST_IMAGE -/
def stImage : Nat := 8
/-- ST_GRADE -/
def stGrade : Nat := 9
/-- ST_RULE -/
def stRule : Nat := 10
/-- ST_MASK -/
def stMask : Nat := 11
/-- ST_RETIRED -/
def stRetired : Nat := 12
/-- ST_OUT_OF_SERVICE -/
def stOutOfService : Nat := 13
/-- ST_NO_TENSE -/
def stNoTense : Nat := 14
/-- ST_UNSUPPORTED -/
def stUnsupported : Nat := 15
/-- ST_DENIED -/
def stDenied : Nat := 16
/-- ST_NO_PARTNER -/
def stNoPartner : Nat := 17
/-- ST_ADDRESS -/
def stAddress : Nat := 18
/-- ST_ABORTED -/
def stAborted : Nat := 19
/-- ST_FAULTED -/
def stFaulted : Nat := 20
/-- ST_INTEGRITY -/
def stIntegrity : Nat := 21

/-! ### Completions (R364, R370, R331, R392) -/

/-- The refusal detail of RESULT. -/
structure Refuse where
  status : Nat
  stage : Nat := 0xFFFF
  offset : Nat := 0xFFFFFFFF
  reason : Nat := 0
  size : Nat := 0
deriving DecidableEq, Repr

/-- RESULT of a refusal: its items stand at bytes 0, 2, 6 and 8. -/
def Refuse.result (r : Refuse) : List Byte :=
  leBytes 2 r.stage ++ leBytes 4 r.offset ++ leBytes 2 r.reason ++ leBytes 8 r.size

/-- Bytes 4 to 63 of a command's completion entry. -/
def completionRest (uptime opcode id status respBytes : Nat) (result : List Byte) : List Byte :=
  leBytes 4 id ++ leBytes 8 uptime ++ leBytes 2 opcode ++ leBytes 2 status ++ leBytes 4 0 ++ leBytes 4 0 ++
    leBytes 4 respBytes ++ fit 32 result

/-- Send an MCTP message in packets of at most 64 bytes; the module raises an in-band interrupt for each packet that it holds
for the controller (R388, R389). -/
def mctpMessage (bs : List Byte) (s : State) : State :=
  let ps := chunksOf 64 bs.length bs
  forEach (number 0 ps) (fun p s =>
    (s.send .inBandInterrupt).send (.mctp (p.1 == 0) (p.1 + 1 == ps.length) (p.1 % 4) p.2)) s

/-- Write the response bytes, then the completion entry, then signal it. -/
def complete (mb : Mailbox) (opcode id respAddr status : Nat) (result resp : List Byte) (s : State) : State :=
  let rest := completionRest s.chip.uptime.toNat opcode id status resp.length result
  match mb with
  | .host m =>
    let s := { s with hostMem := memWriteBytes s.hostMem respAddr resp }
    signalMailbox m.val (putEntry m.val 0 rest s)
  | .guest p m =>
    let part (i : Nat) (s : State) : State :=
      let bs := (resp.drop (4096 * i)).take 4096
      guestRequest ((6 + p.val) * 2 ^ 40 + respAddr + 4096 * i) bs.length true 0 0 bs s
    let s := forEach (List.range (cdiv resp.length 4096)) part s
    appoSend p.val 5 0 1 0 m.val 0 (leBytes 4 0 ++ rest) s
  | .mgmt m => mctpMessage (0x7E :: beBytes 2 Config.vendorId ++ BitVec.ofNat 8 (m.val + 2) :: leBytes 4 0 ++ rest ++ resp) s

/-- Complete a command that has been running. -/
def completeRunning (r : Running) (status : Nat) (result : List Byte) (s : State) : State :=
  let s := { s with running := s.running.erase r }
  complete r.mb r.opcode.toNat r.cmdId.toNat 0 status result [] s

/-- The command that runs with an opcode. -/
def State.runningOp (s : State) (op : Nat) : Option Running := s.running.find? fun r => r.opcode.toNat == op

/-- Complete the command that runs with this opcode, if there is one. -/
def completeOp (op status : Nat) (result : List Byte) (s : State) : State :=
  match s.runningOp op with
  | some r => completeRunning r status result s
  | none => s

/-! ### The checks of R369 -/

/-- What a command's row of Table 14.9 fixes: its class, the job states it is accepted in, the ARGS bytes that each level
names, the payload lengths, and its smallest response. -/
structure CmdSpec where
  opcode : Nat
  control : Bool
  states : List Nat
  basicArgs : List (Nat × Nat)
  expertArgs : List (Nat × Nat)
  lenLo : Nat
  lenHi : Nat
  /-- LENGTH is a multiple of this -/
  lenStep : Nat := 1
  respMin : Nat
  /-- the bring-up states and pins that the command needs -/
  early : State → Option Nat := fun _ => none
  /-- the offset of an argument whose reserved bits are nonzero -/
  resv : Cmd → Option Nat := fun _ => none
  /-- the command is refused for a job that uses a retired unit (R268) -/
  retired : State → Bool := fun _ => false

/-- Every job state. -/
def anyJob : List Nat := [0, 1, 2, 3, 4]

/-- Opcodes of Table 14.9. -/
def allOpcodes : List Nat :=
  [0x01, 0x02, 0x03, 0x10, 0x11, 0x12, 0x13, 0x14, 0x15, 0x16, 0x20, 0x21, 0x22, 0x23, 0x30, 0x31, 0x32, 0x40, 0x41,
   0x42, 0x50, 0x51, 0x52, 0x53, 0x54, 0x60, 0x61]

/-- READ commands; INGEST_POSITION's class depends on its form. -/
def readOpcodes : List Nat := [0x01, 0x21, 0x54, 0x60, 0x61]

/-- Is this command a READ command? -/
def isRead (op : Nat) (expert : Bool) : Bool := readOpcodes.contains op || (op == 0x42 && !expert)

/-- Commands that the management mailboxes accept (Table 14.5). -/
def mgmtOpcodes : List Nat := [0x01, 0x16, 0x52, 0x53, 0x54, 0x60, 0x61]

/-- Does a mailbox accept a command, in this bring-up state (R331, R366, R401, R406)? -/
def mailboxStatus (s : State) (c : Cmd) (op : Nat) : Option Nat :=
  let recovery := s.chip.fwSlot == 2 && op != 0x01 && op != 0x54
  match c.mb with
  | .host m =>
    if m.val ≠ 0 && (op == 0x02 || op == 0x03) then some stDenied
    else if s.chip.bringup = 2 && !([0x01, 0x02, 0x03, 0x54].contains op) then some stState
    else if s.chip.bringup = 3 && !isRead op c.expert && op != 0x02 && op != 0x16 then some stState
    else if recovery then some stState
    else none
  | .guest _ _ =>
    if !([0x01, 0x42, 0x54, 0x60, 0x61].contains op) || c.expert then some stDenied else none
  | .mgmt _ =>
    if !mgmtOpcodes.contains op then some stDenied
    else if recovery then some stState
    else none

/-- The first ARGS byte that is nonzero and not named. -/
def badArg (c : Cmd) (used : List (Nat × Nat)) : Option Nat :=
  (List.range 32).find? fun i => c.arg i 1 != 0 && !(used.any fun u => decide (u.1 ≤ i ∧ i < u.1 + u.2))

/-- The largest payload or response of a mailbox (R368, R392). -/
def lengthLimit (c : Cmd) : Nat :=
  match c.mb with
  | .mgmt _ => 65536
  | _ => 16777216

/-- Is an address of an entry in order for its length (R368, R331, R392)? -/
def addrStatus (s : State) (c : Cmd) (a n : Nat) : Option Nat :=
  match c.mb with
  | .mgmt _ => if a ≠ 0 then some stAddress else none
  | .host _ => if a % 64 ≠ 0 || (a == 0 && n != 0) then some stAddress else none
  | .guest p _ =>
    if a % 64 ≠ 0 then some stAddress
    else if n != 0 && (decide (a + n > 2 ^ 40) || !s.outbound ((6 + p.val) * 2 ^ 40 + a) n true) then some stDenied
    else none

/-- Commands refused while THERMAL_TRIP is 1 (R438). -/
def tripRefuses (s : State) (op : Nat) : Bool :=
  [0x02, 0x13, 0x15, 0x52, 0x53].contains op || (op == 0x10 && (s.reduced || s.chip.parked))

/-- The first check of R369 that fails, but for the command's own. A module out of service accepts the commands that the
management mailboxes list (R269). -/
def commonCheck (s : State) (c : Cmd) (p : CmdSpec) : Option Refuse :=
  let used := if c.expert then p.expertArgs else p.basicArgs
  match (mailboxStatus s c p.opcode).orElse fun _ => p.early s with
  | some st => some { status := st }
  | none =>
    if bits c.entry.toNat 31 17 ≠ 0 then some { status := stReserved, offset := 2 }
    else match (badArg c used).orElse fun _ => p.resv c with
    | some i => some { status := stReserved, offset := 32 + i }
    | none =>
      if c.len > lengthLimit c || c.len < p.lenLo || c.len > p.lenHi || c.len % p.lenStep ≠ 0 then some { status := stLength, offset := 24 }
      else if c.respLen > lengthLimit c then some { status := stLength, offset := 28 }
      else if c.respLen < p.respMin then some { status := stLength, offset := 28, size := p.respMin }
      else match addrStatus s c c.payAddr c.len with
      | some st => some { status := st, offset := 8 }
      | none => match addrStatus s c c.respAddr c.respLen with
        | some st => some { status := st, offset := 16 }
        | none =>
          if c.payloadErr && c.len != 0 then some { status := stAddress, offset := 8 }
          else if !p.states.contains s.job.state then some { status := stState }
          else if s.chip.outOfService && !mgmtOpcodes.contains p.opcode then
            some { status := if p.retired s then stRetired else stOutOfService }
          else if s.chip.thermalTrip && tripRefuses s p.opcode then some { status := stState }
          else none

/-! ### Running a command -/

/-- The running record of a command. -/
def runningOf (c : Cmd) : Running := ⟨c.mb, BitVec.ofNat 32 c.id, BitVec.ofNat 16 c.opcode⟩

/-- What a command answers. -/
inductive Reply where
  | refuse (r : Refuse)
  | done (result resp : List Byte) (s : State)
  /-- it fails with a status after something has happened -/
  | failed (r : Refuse) (s : State)
  /-- it goes on, and completes later -/
  | goesOn (s : State)

/-- Refuse with a status alone. -/
def Reply.no (status : Nat) : Reply := .refuse { status := status }
/-- Refuse with a status and a stage. -/
def Reply.noStage (status stage : Nat) : Reply := .refuse { status := status, stage := stage }
/-- Refuse with a status and the offset of the field. -/
def Reply.noAt (status offset : Nat) : Reply := .refuse { status := status, offset := offset }
/-- Complete with nothing to report. -/
def Reply.ok (s : State) : Reply := .done [] [] s

/-- Is the previous command of this command's mailbox complete (R364)? A HALT goes ahead of a BRINGUP_ADVANCE that is in
progress on its own mailbox (R411). -/
def mailboxFree (s : State) (c : Cmd) : Bool :=
  !(s.running.any fun x => x.mb == c.mb && !(c.opcode == 0x16 && x.opcode == 0x02))

/-- Captures that this pause, test or job end has still to repeat (R266). -/
def State.toRepeat (s : State) : Bool := s.faults.captures.any fun (_, c) => match c with
  | some c => !c.kept && !c.tried
  | none => false

/-- Is the job lock free: no CONTROL command, no bring-up whose command was discarded, and no repeat that firmware makes at a
job's end holds it (R266, R367, R408, R411; log 135)? -/
def State.lockFree (s : State) : Bool :=
  !(s.running.any fun x => !readOpcodes.contains x.opcode.toNat) && s.chip.advance.isNone &&
    !(s.job.state == 0 && s.toRepeat)

/-- Does a host mailbox hold a command that its ring lets be taken (R364)? -/
def State.holds (s : State) (m : Fin 32) : Bool :=
  let r := s.mailbox m.val
  r.enabled && r.held != 0 && decide (r.room ≥ 1) && !(s.running.any fun x => x.mb == .host m)

/-- Is the next command of a host mailbox, as host memory holds its entry, a CONTROL command that waits for the job lock? -/
def State.headControl (s : State) (m : Fin 32) : Bool :=
  let r := s.mailbox m.val
  let e := memNat s.hostMem (r.cmdBase.toNat + 64 * r.nextCmd) 8
  let op := bits e 15 0
  allOpcodes.contains op && !isRead op (bitAt e 16) && op != 0x16

/-- CONTROL commands of the management mailboxes that wait for the job lock: FIELD_TEST and BIST_RUN. -/
def testOpcodes : List Nat := [0x52, 0x53]

/-- Must a command of this mailbox let others go first: a command of mailbox 0 that can be taken, and, for a CONTROL
command, a waiting one of a lower mailbox (R367)? -/
def State.yields (s : State) (mb : Mailbox) (control : Bool) : Bool :=
  let n := match mb with
    | .host m => m.val
    | _ => 32
  let first := (s.mgmt.waiting.find? fun c => c.mb == .mgmt 0).any fun c => testOpcodes.contains c.opcode
  (control && mb == .mgmt 1 && first) ||
  n != 0 && ((s.holds 0 && (!s.headControl 0 || s.lockFree)) ||
    (control && (List.finRange 32).any fun m => decide (m.val < n) && s.holds m && s.headControl m))

/-- Can the Parser take this command now: the mailbox is open and holds it, its previous command is complete, its ring
has room, the job lock is free, and its turn has come (R364, R366, R367)? -/
def canTake (s : State) (c : Cmd) (control : Bool) : Bool :=
  !s.chip.parserHeld && decide (s.chip.bringup ≥ 2) &&
  (match c.mb with
   | .host m =>
     let r := s.mailbox m.val
     r.enabled && r.held != 0 && decide (r.room ≥ 1) && mailboxFree s c
   | .guest p _ => (s.ap p.val).state == 3
   | .mgmt _ => mailboxFree s c) &&
  !s.yields c.mb (control && c.opcode != 0x16) && (!control || c.opcode == 0x16 || s.lockFree)

/-- The device has read every entry up to CMD_TAIL, and the first of those that it holds starts (R364). -/
def takeEntry (c : Cmd) (s : State) : State :=
  match c.mb with
  | .host m => s.updMailbox m.val fun r => let r := r.readEntries; { r with waiting := r.waiting - 1 }
  | _ => s

/-- Run one command: the entry is checked in the order of R369 and refused without effect at its first failure. An entry
whose opcode is another command's is not this row's; one whose opcode is no command's is refused with ST_OPCODE. -/
def serve (c : Cmd) (p : CmdSpec) (go : State → Reply) (s : State) : State :=
  let op := c.opcode
  let known := allOpcodes.contains op
  if (known && op != p.opcode) || !canTake s c p.control then s
  else
    let s := takeEntry c s
    let refuse (r : Refuse) : State := complete c.mb op c.id c.respAddr r.status r.result [] s
    if !known then refuse { status := stOpcode, offset := 0 }
    else match commonCheck s c p with
    | some r => refuse r
    | none => match go s with
      | .refuse r => refuse r
      | .done result resp s => complete c.mb op c.id c.respAddr stOk result resp s
      | .failed r s => complete c.mb op c.id c.respAddr r.status r.result [] s
      | .goesOn s => { s with running := s.running ++ [runningOf c] }

/-- A command's row: one entry served. -/
def runCmd (c : Cmd) (p : CmdSpec) (go : State → Reply) (s : State) : Host.Outcome State Fault Refusal :=
  .next (serve c p go s)

/-! ### Job events (R373, R387) -/

/-- A job event: 0x0701 to 0x0704, with state, reason and JOB. -/
def jobEvent (code reason : Nat) (s : State) : State :=
  raiseParser code [(1, s.job.state), (1, reason), (4, s.job.id.toNat)] s

/-- The stages that a stage argument names; 0xFFFF names every stage (R376). -/
def State.named (s : State) (arg : Nat) : List Nat :=
  if arg = 0xFFFF then s.loadedStages
  else match s.findStage arg with
    | some v => [v]
    | none => []

/-- Does an argument name no loaded stage? -/
def State.unknownStage (s : State) (arg : Nat) : Bool := arg != 0xFFFF && (s.findStage arg).isNone

/-! ### BAR2 writes received (R359, R447, R448) -/

/-- Change the host interface. -/
def State.updHost (s : State) (f : HostIf → HostIf) : State := { s with host := f s.host }

/-- The unit that issues BAR2 accesses: the host endpoint (0, 97, 0). -/
def endpointUnit : Nat := unitAddr 0 97 0

/-- One more BAR2 access refused. -/
def bar2Refused (s : State) : State := s.updHost fun h => { h with bar2Errors := satInc h.bar2Errors }

/-- A host DMA engine moves a chunk of a BAR2 write. -/
def moveChunk (c : Chunk) (s : State) : State :=
  if s.absent (c.addr / 2 ^ 40) then bar2Refused s
  else s.putWhole none endpointUnit 0 c.addr c.data

/-- Every BAR2 write received so far is performed, in order. -/
def drainBar2 (s : State) : State :=
  let cs := s.host.chunks
  forEach cs moveChunk (s.updHost fun h => { h with chunks := [] })

end Sys2Proof.Machine
end

