-- ==== Sys2Proof/Machine/Links.lean ====
section
/-!
DEFINITION. Sys2Proof/Machine/Links.lean: Conjunction ports as senders (R336 to R345): headers, link frames, new frames,
resends and CREDIT entries, and a port's way up and down (R342, R348 to R351).
-/
namespace Sys2Proof.Machine

/-! ### The header (Table 13.4) -/

/-- TYPE -/
def hType (h : BitVec 256) : Nat := bits h.toNat 3 0
/-- LAST -/
def hLast (h : BitVec 256) : Bool := h.getLsbD 9
/-- PLEN -/
def hPlen (h : BitVec 256) : Nat := bits h.toNat 20 16
/-- SUB -/
def hSub (h : BitVec 256) : Nat := bits h.toNat 31 24
/-- DST_RANK -/
def hDst (h : BitVec 256) : Nat := bits h.toNat 39 32
/-- SRC_RANK -/
def hSrc (h : BitVec 256) : Nat := bits h.toNat 47 40
/-- STAGE -/
def hStage (h : BitVec 256) : Nat := bits h.toNat 63 48
/-- TAG -/
def hTag (h : BitVec 256) : Nat := bits h.toNat 95 64
/-- OFFSET -/
def hOffset (h : BitVec 256) : Nat := bits h.toNat 127 96
/-- JOB -/
def hJob (h : BitVec 256) : Nat := bits h.toNat 159 128
/-- SEQ -/
def hSeq (h : BitVec 256) : Nat := bits h.toNat 191 160
/-- ACK -/
def hAck (h : BitVec 256) : Nat := bits h.toNat 223 192
/-- CRC -/
def hCrc (h : BitVec 256) : Nat := bits h.toNat 255 224

/-- Is a type sequenced (R337)? -/
def sequenced (t : Nat) : Bool := t == 1 || t == 2 || (decide (6 ≤ t) && decide (t ≤ 9))

/-- Replace bits `[hi:lo]` of a header. -/
def setHeader (h : BitVec 256) (hi lo x : Nat) : BitVec 256 := BitVec.ofNat 256 (setBits h.toNat lo (hi + 1 - lo) x)

/-- CRC-32C of a frame with its CRC field taken as 0. -/
def frameCrc (h : BitVec 256) (payload : List Byte) : Nat :=
  crc32c (leBytes 32 (setHeader h 255 224 0).toNat ++ fit 480 payload)

/-- ACK as a port fills it in every frame that it sends. -/
def Port.ackField (q : Port) : Nat := if q.rxAny then q.rxSeq.toNat else 0xFFFFFFFF

/-- JOB of a port's frames: 0 to and from an export sink. -/
def State.portJob (s : State) (p : Nat) : Nat := if (s.port p).role = roleExport then 0 else s.job.id.toNat

/-- A counter of Table 13.9, by its place, increased. -/
def Port.count (q : Port) (i n : Nat) : Port := { q with counters := supd 0 i (fun c => satAdd c n) q.counters }

/-- Send one frame with its ACK and CRC; it acknowledges what has been received so far. -/
def transmit (p : Nat) (h : BitVec 256) (src : Option Nat) (data : List Byte) (s : State) : State :=
  let h := setHeader h 223 192 (s.port p).ackField
  let h := setHeader h 255 224 (frameCrc h data)
  s.send (.frame p h src (fit 480 data))

/-- A header without SEQ, ACK and CRC. -/
def header (s : State) (p type sub stage tag dst plen offset : Nat) (last : Bool) : BitVec 256 :=
  BitVec.ofNat 256 (type + bit last * 2 ^ 9 + plen * 2 ^ 16 + sub * 2 ^ 24 + dst * 2 ^ 32 + s.job.rank * 2 ^ 40 +
    stage * 2 ^ 48 + tag % 2 ^ 32 * 2 ^ 64 + offset % 2 ^ 32 * 2 ^ 96 + s.portJob p * 2 ^ 128)

/-- DST_RANK of a link frame: the partner's rank. -/
def linkHeader (s : State) (p type tag dst plen : Nat) : BitVec 256 :=
  header s p type 0 0xFFFF tag dst plen 0 true

/-- Send an ACK (3) or NAK (4) with the cumulative link credit (R341, R343). -/
def sendAck (p type : Nat) (s : State) : State :=
  let q := s.port p
  let s := transmit p (linkHeader s p type q.linkFreed.toNat q.partnerRank 0) none [] s
  if type = 3 then s.updPort p fun q => { q with sinceAck := 0 } else s

/-- Ask for a resend, at most once per round trip, which ends with a frame in order or with the 2 µs of ACK_TIMER (R341, log
128). -/
def nak (p : Nat) (s : State) : State :=
  if (s.port p).nakOut then s else (sendAck p 4 s).updPort p fun q => { q with nakOut := true }

/-! ### Payloads -/

/-- What a port's read of a range meets: an absent die or an uncorrectable word, each with the halt of the owner (R33,
R36). -/
def sourceFault (p owner : Nat) (s : State) : List (Nat × Nat) → Option State
  | [] => none
  | (a, n) :: t =>
    let v := if owner < 16 then some owner else none
    if s.absent (a / 2 ^ 40) then some (dieAbsent (portUnit p) 0 v (a / 2 ^ 40) a s)
    else match s.badIn a n with
    | some w => some (memBad v w (portUnit p) 0 s)
    | none => sourceFault p owner s t

/-- The payload of a frame, read from its source, or the failure that the read meets, there or in `first` (R33, R36, R179,
R340). -/
def framePayload (p owner : Nat) (first : List (Nat × Nat)) (src : Option Nat) (data : List Byte) (n : Nat) (s : State) :
    Except State (List Byte) :=
  match sourceFault p owner s (first ++ match src with
    | none => []
    | some a => [(a, n)]) with
  | some t => .error t
  | none => .ok (match src with
    | none => data
    | some a => s.load a n)

/-! ### New frames (R338, R345) -/

/-- Is a count below another, modulo 2^32? -/
def below (a b : Nat) : Bool :=
  let d := (b + 2 ^ 32 - a % 2 ^ 32) % 2 ^ 32
  decide (1 ≤ d) && decide (d ≤ 2 ^ 31)

/-- Key of a stream's credit: class, stage and rank. -/
def creditKey (cls stage rank : Nat) : Nat := (cls * 65536 + stage) * 256 + rank

/-- Stream credit of a message: a STAGE or EXPORT port's own, or, from a rank, whichever port brought it last. -/
def State.credit (s : State) (p cls stage rank : Nat) : Credit :=
  if (s.port p).role = roleColl then
    let key := creditKey cls stage rank
    ((List.range 8).foldl (fun (c : Option Credit) q =>
      match (s.port q).credits.find? fun x => x.1 == key, c with
      | none, c => c
      | some d, none => some d.2
      | some d, some c => if below c.freed.toNat d.2.freed.toNat then some d.2 else some c) none).getD {}
  else sget {} (s.port p).credits (creditKey cls stage 0)

/-- The depth of a partner's in-queue, from its HELLO entry (Table 13.7). -/
def Port.partnerDepth (q : Port) (stage : Nat) (backward : Bool) : Nat :=
  match q.partnerStages.find? fun e => bits e.toNat 15 0 == stage with
  | some e => if backward then bits e.toNat 47 32 else bits e.toNat 31 16
  | none => 0

/-- May a message start, or an export's next frame go (Table 13.6a)? An export's message has the number of its first
frame in `dstRank`. -/
def creditOk (s : State) (p : Nat) (m : OutMsg) : Bool :=
  if m.forward.isSome || m.cls = 5 then true
  else
    let c := s.credit p m.cls (if m.cls = 4 then 0 else m.stage) m.dstRank
    match m.cls with
    | 0 => m.started || below m.tag (c.freed.toNat + (s.port p).partnerDepth m.stage false)
    | 1 => m.started || below m.tag (c.freed.toNat + (s.port p).partnerDepth m.stage true)
    | 4 => below (m.dstRank + m.sent / 480) c.freed.toNat
    | _ => m.started || below m.tag (c.freed.toNat + 1)

/-- Rank of a message in the choice of the next frame (R345). -/
def msgClass (role : Nat) (m : OutMsg) : Nat :=
  if role = roleUp || role = roleDown then (if m.cls = 1 then 0 else 1)
  else if m.forward.isSome then 0
  else if m.cls = 3 then 1
  else if m.cls = 2 then 2
  else if m.type = 9 then 3
  else 4

/-- Does a port start frames for the sender of a message (R354)? -/
def senderRuns (s : State) (m : OutMsg) : Bool := decide (m.owner ≥ 16) || (s.stage m.owner).haltCode == 0

/-- Index of the next message to serve: classes in order, then order of issue. -/
def nextMsg (s : State) (p : Nat) : Option Nat :=
  let q := s.port p
  let ready (m : OutMsg) : Bool := !m.finished && senderRuns s m && creditOk s p m
  (List.range 5).findSome? fun c => q.out.findIdx? fun m => ready m && msgClass q.role m == c

/-- The out-queue entry that holds the Clause of a message. -/
def State.clauseEntry (s : State) (m : OutMsg) : Nat := outEntry (s.stage m.owner) m.owner (m.cls == 1) m.tag

/-- What the port reads before it sends the first frame of a Clause: its entry and its whole payload, so that nothing of a Clause
with an uncorrectable word is sent (R179, R180). -/
def clauseSource (s : State) (m : OutMsg) : List (Nat × Nat) :=
  if m.started || m.clause.isNone then []
  else (s.clauseEntry m, 64) :: match m.src with
    | some a => [(a, m.len)]
    | none => []

/-- The next frame of a message: its header, source, bytes and payload length, and the message after it. -/
def cutFrame (s : State) (p : Nat) (m : OutMsg) : BitVec 256 × Option Nat × List Byte × Nat × OutMsg :=
  let dst := if (s.port p).role = roleColl then m.dstRank else (s.port p).partnerRank
  match m.forward with
  | some h => (h, none, m.data, 16 * hPlen h, { m with started := true, finished := true })
  | none =>
    if m.sent < m.len || (m.len = 0 && m.clause.isNone) then
      let n := min 480 (m.len - m.sent)
      let done := decide (m.sent + n ≥ m.len)
      let h := header s p m.type m.sub m.stage m.tag dst (cdiv n 16) (m.base + m.sent / 16) done
      (h, m.src.map (· + m.sent), (m.data.drop m.sent).take n, n,
        { m with sent := m.sent + n, started := true, finished := done && m.clause.isNone })
    else (header s p 2 m.sub m.stage m.tag dst 4 0 true, some (s.clauseEntry m), [], 64,
      { m with started := true, finished := true })

/-- Messages that leave the port once their frames are sent: no destination accepts them by count. -/
def untracked (m : OutMsg) : Bool := m.forward.isSome || m.cls == 5

/-- Send the next new frame of message `i`. -/
def sendNew (p i : Nat) (s : State) : State :=
  match (s.port p).out[i]? with
  | none => s
  | some m =>
    let (h, src, data, n, m') := cutFrame s p m
    let h := setHeader h 191 160 (s.port p).txSeq.toNat
    match framePayload p m.owner (clauseSource s m) src data n s with
    | .error s => s
    | .ok bs =>
      let s := transmit p h src bs s
      s.updPort p fun q =>
        { q.count 0 1 with
          txSeq := q.txSeq + 1
          unacked := q.unacked ++ [⟨h, src, if src.isSome then [] else data, m.owner, 0⟩]
          out := if m'.finished && untracked m then q.out.eraseIdx i else q.out.set i m' }

/-- May the port send one more new frame (R340, R343)? -/
def frameRoom (q : Port) : Bool :=
  q.state == 2 && decide (q.unacked.length < 4096) && decide ((q.txSeq - q.linkCredit).toNat < 1024)

/-- Send new frames while there are any to send. -/
def pumpPort (p : Nat) : Nat → State → State
  | 0, s => s
  | fuel + 1, s =>
    if frameRoom (s.port p) then
      match nextMsg s p with
      | some i => pumpPort p fuel (sendNew p i s)
      | none => s
    else s

/-! ### CREDIT entries (R344) -/

/-- An entry of Table 13.6. -/
def creditEntry (cls id freed accepted aux : Nat) : BitVec 128 :=
  BitVec.ofNat 128 (id + cls * 2 ^ 16 + accepted % 2 ^ 32 * 2 ^ 32 + freed % 2 ^ 32 * 2 ^ 64 + aux * 2 ^ 96)

/-- Is a neighbour on another module? -/
def State.remote (s : State) (stage : Nat) : Bool := stage != 0xFFFF && (s.findStage stage).isNone

/-- The COMMIT that an owner's BUILDING slot is claimed for, or the present one. -/
def Stage.claimed (g : Stage) : Nat :=
  match g.tenses.find? fun t => t.state == 1 with
  | some t => t.commit
  | none => g.presentCommit

/-- Entries of one stage for a rank on a COLLECTIVE port. -/
def collEntries (s : State) (g : Stage) (q : Nat) : List (Nat × BitVec 128) :=
  let shard := q % s.job.z
  let held := if g.update.verified.contains shard then g.claimed else g.presentCommit
  let votes := match g.update.vote with
    | some (j, _) => j
    | none => g.update.done
  (if s.subgroup.contains q then [(q, creditEntry 2 g.image.stage g.claimed held 0)] else []) ++
  [(q, creditEntry 3 g.image.stage (votes + 1) g.update.reductions
    ((g.update.done + 1) % 65536 * 65536 + g.update.gmax % 65536))]

/-- Every entry that a port reports, with the rank that it is for. -/
def State.creditEntries (s : State) (p : Nat) : List (Nat × BitVec 128) :=
  let q := s.port p
  let gs := s.loadedStages.map s.stage
  if q.role = roleUp then
    (gs.filter fun g => s.remote g.predecessor).map fun g =>
      (q.partnerRank, creditEntry 0 g.image.stage g.forwardIn.freed g.forwardIn.delivered 0)
  else if q.role = roleDown then
    (gs.filter fun g => s.remote g.succ).map fun g =>
      (q.partnerRank, creditEntry 1 g.image.stage g.backwardIn.freed g.backwardIn.delivered 0)
  else if q.role = roleColl then
    (s.others.filter fun r => s.collPort r == some p).flatMap fun r => gs.flatMap fun g => collEntries s g r
  else []

/-- Send entries for one rank, up to 30 a frame. -/
def sendCredits (p rank : Nat) : Nat → List (BitVec 128) → State → State
  | 0, _, s => s
  | fuel + 1, es, s =>
    if es.isEmpty then s
    else
      let now := es.take 30
      let s := transmit p (linkHeader s p 10 0 rank now.length) none (now.flatMap fun e => leBytes 16 e.toNat) s
      sendCredits p rank fuel (es.drop 30) s

/-- Send the entries that `which` picks, by rank. -/
def creditsOut (p : Nat) (es : List (Nat × BitVec 128)) (s : State) : State :=
  let ranks := (es.map (·.1)).eraseDups
  forEach ranks (fun r s =>
    let mine := (es.filter fun e => e.1 == r).map (·.2)
    sendCredits p r mine.length mine s) s

/-- Report what has changed since the last report. -/
def reportCredits (p : Nat) (s : State) : State :=
  if (s.port p).state ≠ 2 then s
  else
    let es := s.creditEntries p
    let new := es.filter fun e => !((s.port p).creditSent.contains e)
    (creditsOut p new s).updPort p fun q => { q with creditSent := es }

/-- Pass on another module's CREDIT frame: a link frame goes at once where the port toward its rank is UP, and waits in the
transit area otherwise (R352). -/
def passCredit (m : OutMsg) (s : State) : State :=
  match m.forward, s.collPort m.dstRank with
  | some h, some q =>
    if (s.port q).state = 2 then transmit q h none m.data s else { s with transit := s.transit ++ [m] }
  | _, _ => { s with transit := s.transit ++ [m] }

/-- Frames that wait in the transit area go to a port that now serves (R352). -/
def drainTransit (s : State) : State :=
  forEach s.transit (fun m s => if m.type = 10 then passCredit m s else queueColl m s) { s with transit := [] }

/-- All ports send what they can: transit, then credits, which are link frames, and new frames (R341). -/
def pump (s : State) : State :=
  let s := drainTransit s
  forEach (List.range 8) (fun p s => pumpPort p 4096 (reportCredits p s)) s

/-! ### Acknowledgement and retry (R341, R342) -/

/-- A cumulative acknowledgement. -/
def takeAck (p ack : Nat) (s : State) : State :=
  match (s.port p).unacked.findIdx? fun t => hSeq t.header == ack with
  | some i => s.updPort p fun q => { q with unacked := q.unacked.drop (i + 1) }
  | none => s

/-- Resends of the oldest unacknowledged frame in its retry window (R342). -/
def Port.resends (q : Port) : Nat :=
  match q.unacked with
  | [] => 0
  | t :: _ => t.resends

/-- Enter RETRAINING: its first attempt starts. -/
def enterRetraining (p : Nat) (s : State) : State :=
  s.updPort p fun q => { q.count 4 1 with state := 3, attempts := 0, signalLost := false }

/-- Send unacknowledged frames again, oldest first, until one cannot be read. -/
def resendAll (p : Nat) : List TxFrame → State → State
  | [], s => s
  | t :: ts, s =>
    match framePayload p t.owner [] t.src t.data (16 * hPlen t.header) s with
    | .error s => s
    | .ok bs => resendAll p ts ((transmit p t.header t.src bs s).updPort p fun q => q.count 2 1)

/-- Go-back-N: resend, or retrain when the 16th resend of a frame went unacknowledged. Each frame's retry window counts for
itself, and the oldest frame's is the longest (R342). -/
def goBack (p : Nat) (s : State) : State :=
  let q := s.port p
  if q.unacked.isEmpty then s
  else if q.resends ≥ 16 then enterRetraining p s
  else resendAll p q.unacked
    (s.updPort p fun q => { q with unacked := q.unacked.map fun t => { t with resends := t.resends + 1 } })

/-! ### Exports (R219, R353) -/

/-- Clear PIN on the slot of a tag; it may then retire. -/
def unpin (stage commit : Nat) (s : State) : State :=
  match s.findStage stage with
  | none => s
  | some v => s.updStage v fun g => Stage.retire
      { g with tenses := g.tenses.map fun t => if t.holds && t.commit == commit then { t with pin := false } else t }

/-- Frames of an export on a port. -/
def isExport (m : OutMsg) : Bool := m.cls == 4

/-- An export on a port ends: PIN clears and its command completes. -/
def endExport (p status : Nat) (s : State) : State :=
  match s.job.exporting.findIdx? fun e => e.1 == p with
  | none => s
  | some i =>
    let no := (s.job.exporting.map (·.2.1)).getD i 0
    let more := s.job.exportMore.contains no
    let place := ((s.job.exporting.take i).filter fun e => !s.job.exportMore.contains e.2.1).length
    let s := match s.job.exporting[i]? with
      | some (_, _, stage, commit) => unpin stage commit s
      | none => s
    let s := s.updJob fun j => { j with exporting := j.exporting.eraseIdx i, exportMore := j.exportMore.filter (· != no) }
    let s := s.updPort p fun q => { q with out := q.out.filter fun m => !(isExport m && m.tag == no) }
    match (if more then none else (s.running.filter fun r => r.opcode.toNat == 0x21)[place]?) with
    | some r => completeRunning r status [] s
    | none => s

/-- Abandon a port's export (R350, R383). -/
def abandonExport (p : Nat) (s : State) : State :=
  let es := s.job.exporting.filter fun e => e.1 == p
  forEach es (fun _ s => endExport p stAborted (raise 0x0605 (portUnit p) 0 [] s)) s

/-! ### Down and up (R342, R349 to R351) -/

/-- Untracked frames not yet acknowledged go back to their queue, to be sent again after the rejoin: forwarded ones as they
came, and a stage's own DIGEST and TENSE_REQ frames as its messages (R345, R351, R354). -/
def Port.requeue (s : State) (q : Port) : List OutMsg :=
  (q.unacked.filter fun t => hSrc t.header != s.job.rank || hType t.header == 6 || hType t.header == 9).map fun t =>
    let h := t.header
    { msgOf t.owner (hType h) (hSub h) (hStage h) (hTag h) (hDst h) 5 with
      forward := if hSrc h = s.job.rank then none else some h, data := t.data, len := 16 * hPlen h }

/-- The link layer of a port as a join starts it: every message not yet accepted starts from its first frame. -/
def Port.fresh (s : State) (q : Port) : Port :=
  { q with
    txSeq := 0, unacked := [], rxSeq := 0, rxAny := false, nakOut := false, sinceAck := 0, attempts := 0
    signalLost := false, linkCredit := 0, linkFreed := 0, credits := [], creditSent := []
    out := (if q.role = roleColl then q.requeue s else []) ++
      q.out.map fun m => { m with sent := 0, started := false, finished := false } }

/-- Stages whose neighbour is reached through a STAGE role. -/
def State.servedBy (s : State) (role : Nat) : List Nat :=
  s.loadedStages.filter fun v =>
    s.remote (if role = roleUp then (s.stage v).predecessor else (s.stage v).succ)

/-- What the departure of a port does to stages and exports (R350). -/
def downEffect (p : Nat) (s : State) : State :=
  let role := (s.port p).role
  if role = roleUp || role = roleDown then forEach (s.servedBy role) (fun v => haltStage v 0x0601 false) s
  else if role = roleColl then forEach s.loadedStages (fun v => haltStage v 0x0601 false) s
  else if role = roleExport then abandonExport p s
  else s

/-- The record of R342. -/
def downRecord (p reason attempts : Nat) (s : State) : State :=
  if reason = 1 || reason = 2 then
    noteRecord ⟨portUnit p, 0, 0, 15, if reason = 1 then 1 else 6, 0xFFFF, 0xFFFF, reason + attempts * 256,
      (sget 0 (s.port p).counters 7).toNat % 2 ^ 32⟩ s
  else s

/-- A port goes DOWN for a reason of R350; one that is not UP or RETRAINING leaves without an event. -/
def portDown (p reason : Nat) (s : State) : State :=
  let q := s.port p
  let was := q.state == 2 || q.state == 3
  let s := s.updPort p fun q => { q with state := 0, helloSent := false, helloOk := false }
  if was then
    downEffect p (downRecord p reason q.attempts (raise 0x0601 (portUnit p) 0 [(1, reason)] s))
  else s

/-- The partner is accepted and the port enters UP; it counts as accepted since JOB_START only where the job has started
(Table 13.8). -/
def enterUp (p : Nat) (s : State) : State :=
  let s := s.updPort p fun q => { Port.fresh s q with state := 2, accepted := q.accepted || decide (s.job.state ≥ 2) }
  let q := s.port p
  raise 0x0602 (portUnit p) 0 [(8, q.partnerSerial.toNat), (1, q.partnerPort), (1, q.partnerRole), (1, q.partnerRank)] s

/-! ### HELLO (R348) -/

/-- A stage entry of Table 13.7. -/
def helloEntry (g : Stage) : List Byte :=
  leBytes 2 g.image.stage ++ leBytes 2 g.finDepth ++ leBytes 2 g.binDepth ++ leBytes 2 0 ++
    leBytes 4 (g.finSlot / 256) ++ leBytes 4 (g.binSlot / 256)

/-- The HELLO payload of a port. -/
def helloPayload (s : State) (p : Nat) : List Byte :=
  let gs := s.loadedStages.map s.stage
  leBytes 8 Config.serial.toNat ++ leBytes 4 s.job.id.toNat ++ leBytes 1 p ++ leBytes 1 (s.port p).role ++
    leBytes 1 s.job.rank ++ leBytes 1 (s.job.g - 1) ++ leBytes 1 s.job.z ++ leBytes 1 gs.length ++
    leBytes 4 s.job.restores.toNat ++ leBytes 10 0 ++ gs.flatMap helloEntry

/-- Send a HELLO. -/
def sendHello (p : Nat) (s : State) : State :=
  let bs := helloPayload s p
  transmit p (linkHeader s p 5 0 (s.port p).partnerRank (bs.length / 16)) none bs s

/-- HELLO_TIMER: every 100 µs in JOINING and every 100 ms in UP. -/
def execHelloTimer (p : Fin 8) (s : State) : Host.Outcome State Fault Refusal :=
  let q := s.port p.val
  .next (if q.state = 1 then
      let s := (sendHello p.val s).updPort p.val fun q => { q with helloSent := true }
      if q.helloOk then enterUp p.val s else s
    else if q.state = 2 then sendHello p.val s
    else s)

/-! ### Timers of the retry machinery -/

/-- RESEND_TIMEOUT: the oldest unacknowledged frame has waited 2.5 µs. -/
def execResendTimeout (p : Fin 8) (s : State) : Host.Outcome State Fault Refusal :=
  .next (if (s.port p.val).state = 2 then goBack p.val s else s)

/-- RETRY_WINDOW_EXPIRY: 40 µs after the first resend. -/
def execRetryWindowExpiry (p : Fin 8) (s : State) : Host.Outcome State Fault Refusal :=
  let q := s.port p.val
  .next (if q.state = 2 && decide (q.resends > 0) then enterRetraining p.val s else s)

/-- RETRAINING_ATTEMPT_END: UP again, a further attempt, or DOWN after the third (Table 13.5b). -/
def execRetrainingAttemptEnd (p : Fin 8) (ok signal : Bool) (s : State) : Host.Outcome State Fault Refusal :=
  let q := s.port p.val
  .next (if q.state ≠ 3 then s
    else if ok then
      let us := q.unacked.map fun t => { t with resends := 0 }
      resendAll p.val us (s.updPort p.val fun q => { q with state := 2, attempts := 0, unacked := us, signalLost := false })
    else
      let s := s.updPort p.val fun q =>
        { q.count 5 1 with attempts := q.attempts + 1, signalLost := q.signalLost || !signal }
      let q := s.port p.val
      if q.attempts ≥ 3 then portDown p.val (if q.signalLost then 2 else 1) s
      else s.updPort p.val fun q => q.count 4 1)

/-- PORT_TRAINING_ATTEMPT: every 100 ms a DOWN port with a role tries where it detects a signal (R333). -/
def execPortTrainingAttempt (p : Fin 8) (signal ok : Bool) (s : State) : Host.Outcome State Fault Refusal :=
  let q := s.port p.val
  .next (if q.state = 0 && q.role ≠ 0 && signal && ok then
      s.updPort p.val fun q => { q with state := 1, helloSent := false, helloOk := false }
    else s)

/-- ACK_TIMER: an ACK frame goes at least every 2 µs while frames arrive, and the next discarded frame may cause a NAK again
(log 128). -/
def execAckTimer (p : Fin 8) (s : State) : Host.Outcome State Fault Refusal :=
  let q := s.port p.val
  .next (if q.state = 2 then
      let s := s.updPort p.val fun q => { q with nakOut := false }
      if q.sinceAck > 0 then sendAck p.val 3 s else s
    else s)

/-- CREDIT_REPEAT_TIMER: every entry is repeated every 100 µs. -/
def execCreditRepeatTimer (p : Fin 8) (s : State) : Host.Outcome State Fault Refusal :=
  .next (if (s.port p.val).state = 2 then creditsOut p.val (s.creditEntries p.val) s else s)

/-! ### The Clause timeout (R346, R347) -/

/-- DELIVERY_TIMEOUT of message `k` of a port: its timer runs from its first frame until it is accepted, and stands still
while the port retrains or the stage is halted. -/
def execDeliveryTimeout (p : Fin 8) (k : Nat) (s : State) : Host.Outcome State Fault Refusal :=
  let q := s.port p.val
  .next (match q.out[k]? with
    | none => s
    | some m =>
      if q.state ≠ 2 || !m.started || m.cls > 3 || m.owner ≥ 16 || !(s.stage m.owner).live then s
      else
        let dst := if m.cls ≤ 1 then m.stage else m.dstRank
        haltStage m.owner 0x0205 false
          (raise 0x0205 (portUnit p.val) 0 [(1, 1), (2, (s.stage m.owner).image.stage), (2, dst), (4, m.tag)] s))

/-- ANSWER_TIMEOUT: a reservation has been held for T while no port of the job retrained. -/
def execAnswerTimeout (v : Fin 16) (backward : Bool) (s : State) : Host.Outcome State Fault Refusal :=
  let g := s.stage v.val
  let retrains := (List.range 8).any fun p => (s.port p).state == 3 && (s.port p).role != 0
  .next (if !g.live || (g.outQ backward).reserved = 0 || retrains then s
    else haltStage v.val 0x0205 false (raise 0x0205 clauseStoreUnit 0 [(1, 2), (2, g.image.stage)] s))

end Sys2Proof.Machine
end

