-- ==== Sys2Proof/Machine/Frames.lean ====
section
/-!
DEFINITION. Sys2Proof/Machine/Frames.lean: the arrival of a Conjunction frame: the checks of Table 13.5a in order, and
what each type does at its destination (R172, R177, R181, R214, R233, R260, R344, R349).
-/
namespace Sys2Proof.Machine

/-! ### Checks (Table 13.5a) -/

/-- Types that a role admits (Table 13.3); DATA by its SUB. -/
def admits (role : Nat) (h : BitVec 256) : Bool :=
  let t := hType h
  let kind := hSub h / 64
  let link := t == 3 || t == 4 || t == 5 || t == 10
  if link then true
  else if role = roleUp || role = roleDown then (t == 1 && kind == 0) || t == 2
  else if role = roleColl then (t == 1 && kind == 1) || t == 8 || t == 6 || t == 7 || t == 9
  else if role = roleExport then t == 1 && decide (kind ≥ 2)
  else false

/-- Reserved bits of SUB by type (Table 13.5). -/
def subReserved (h : BitVec 256) : Bool :=
  let sub := hSub h
  match hType h with
  | 1 => match sub / 64 with
    | 0 => sub % 64 > 1
    | 1 => false
    | _ => sub % 64 != 0
  | 2 => sub > 1
  | 6 => false
  | 7 => false
  | 8 => sub % 4 > 1 || (sub % 4 = 1 && sub ≠ 1)
  | _ => sub != 0

/-- The protocol check: reserved type, a type the role does not admit, a nonzero reserved field, PLEN above 30, or a CREDIT
frame without an entry (Table 18.1). -/
def protoBad (role : Nat) (h : BitVec 256) : Bool :=
  !(admits role h) || bits h.toNat 23 21 != 0 || bits h.toNat 15 10 != 0 || bits h.toNat 8 4 != 0 || subReserved h ||
    decide (hPlen h > 30) || (hType h == 10 && hPlen h == 0)

/-- PROTO_ERRORS, and EV_CJ_PROTOCOL at most once per millisecond and port. -/
def protoError (p : Nat) (s : State) : State :=
  let now := s.chip.uptime.toNat
  let s := s.updPort p fun q => q.count 9 1
  let due := match (s.port p).protoAt with
    | some t => decide (now ≥ t + 1000)
    | none => true
  if due then raise 0x0604 (portUnit p) 0 [] (s.updPort p fun q => { q with protoAt := some now }) else s

/-- The frame is received in order: it is acknowledged and its buffer freed. -/
def acceptSeq (p : Nat) (h : BitVec 256) (s : State) : State :=
  s.updPort p fun q =>
    { q with rxSeq := BitVec.ofNat 32 (hSeq h), rxAny := true, nakOut := false, linkFreed := q.linkFreed + 1,
             sinceAck := q.sinceAck + 1 }

/-- SEQ that a port expects. -/
def Port.expected (q : Port) : Nat := if q.rxAny then (q.rxSeq + 1).toNat else 0

/-- An ACK frame goes at least every 64 accepted frames (R341). -/
def ackDue (p : Nat) (s : State) : State := if (s.port p).sinceAck ≥ 64 then sendAck p 3 s else s

/-- Does a frame on a STAGE port name no stage of the module (Table 13.5a)? -/
def State.strayStage (s : State) (p : Nat) (h : BitVec 256) : Bool :=
  ((s.port p).role == roleUp || (s.port p).role == roleDown) && (s.findStage (hStage h)).isNone

/-- Receive a frame on an UP port: the checks in order, then `go`. -/
def receive (p : Nat) (f : Frame) (go : State → State) (s : State) : State :=
  let h := f.header
  let sq := sequenced (hType h)
  if (s.port p).state ≠ 2 then s
  else if frameCrc h f.payload ≠ hCrc h then
    let s := s.updPort p fun q => q.count 8 1
    if sq then nak p s else s
  else
    let s := takeAck p (hAck h) s
    if sq && hSeq h != (s.port p).expected then nak p s
    else
      let s := if sq then acceptSeq p h s else s
      let s :=
        if hJob h ≠ s.portJob p then s.updPort p fun q => q.count 10 1
        else if protoBad (s.port p).role h then protoError p s
        else go (if sq && !s.strayStage p h then s.updPort p fun q => q.count 1 1 else s)
      ackDue p s

/-- The payload that carries meaning. -/
def Frame.meaning (f : Sys2Proof.Frame) : List Byte := fit (16 * hPlen f.header) f.payload

/-! ### Forwarding (R352) -/

/-- Is a COLLECTIVE frame for this module? -/
def State.forMe (s : State) (h : BitVec 256) : Bool := hDst h == s.job.rank

/-- Pass a frame on toward its rank. -/
def forwardFrame (p : Nat) (f : Frame) (s : State) : State :=
  let h := f.header
  let m := { msgOf 16 (hType h) 0 (hStage h) (hTag h) (hDst h) 5 with
    forward := some h, data := Frame.meaning f, len := 16 * hPlen h }
  let s := s.updPort p fun q => q.count 11 1
  if hType h = 10 then passCredit m s else queueColl m s

/-- Consume a COLLECTIVE frame here or pass it on. -/
def collective (p : Nat) (f : Frame) (go : State → State) (s : State) : State :=
  if s.forMe f.header then go s else forwardFrame p f s

/-! ### Clauses on STAGE ports (R172, R177, R179, R181) -/

/-- EV_CLAUSE_ROUTE (R172). -/
def clauseRoute (src dst : Nat) (s : State) : State := raise 0x0204 clauseStoreUnit 0 [(2, src), (2, dst)] s

/-- EV_CLAUSE_SEQ with the halt of the destination (R181). -/
def clauseGap (v src dst expected found : Nat) (s : State) : State :=
  haltStage v 0x0203 true (raise 0x0203 clauseStoreUnit 0 [(2, src), (2, dst), (4, expected), (4, found)] s)

/-- The source of an in-queue. -/
def Stage.sourceOf (g : Stage) (backward : Bool) : Nat := if backward then g.succ else g.predecessor

/-- Count a duplicate. -/
def countDup (v : Nat) (backward : Bool) (s : State) : State :=
  s.updStage v fun g => g.updIn backward fun q => { q with dups := satInc q.dups }

/-- A payload frame beyond its slot refuses its Clause: EV_CLAUSE_OVERSIZE, once a Clause, with the length that the frame
reaches as LEN, and the halt of the destination (R177, R338; log 110). -/
def refusePayload (p v : Nat) (backward : Bool) (seq ends : Nat) (s : State) : State :=
  let g := s.stage v
  if (g.inQ backward).refused = some seq then s
  else
    oversize (portUnit p) 0 g.image.stage (g.sourceOf backward) g.image.stage (cdiv ends 256) (g.slotLen backward / 256)
      (s.updStage v fun g => g.updIn backward fun q => { q with refused := some seq })

/-- A payload frame goes into the receive slot of its Clause; one beyond the slot refuses the Clause (R177, R338). -/
def payloadFrame (p v : Nat) (f : Frame) (s : State) : State :=
  let h := f.header
  let backward := hSub h % 2 == 1
  let g := s.stage v
  let a := g.slotAddr backward (hTag h) + 16 * hOffset h
  let ends := 16 * hOffset h + 16 * hPlen h
  if below (hTag h) ((g.inQ backward).delivered % 2 ^ 32) then s
  else if ends > g.slotLen backward then refusePayload p v backward (hTag h) ends s
  else if s.absent (a / 2 ^ 40) then dieAbsent (portUnit p) 0 (some v) (a / 2 ^ 40) a s
  else (s.store a (Frame.meaning f)).mend a (16 * hPlen h)

/-- A Clause arrives: a duplicate is discarded, a gap or an oversized Clause halts, one whose payload was refused is discarded,
and the expected one is delivered. -/
def clauseArrives (p v : Nat) (backward : Bool) (c : BitVec 512) (s : State) : State :=
  let g := s.stage v
  let expected := (g.inQ backward).delivered % 2 ^ 32
  if below (clauseSeq c) expected then countDup v backward s
  else if clauseSeq c ≠ expected then clauseGap v (clauseSrc c) g.image.stage expected (clauseSeq c) s
  else if (g.inQ backward).refused = some expected then s
  else if clauseLen c * 256 > g.slotLen backward then
    oversize (portUnit p) 0 g.image.stage (clauseSrc c) g.image.stage (clauseLen c) (g.slotLen backward / 256) s
  else
    let a := g.slotAddr backward expected
    match s.deliveryDie g a with
    | some d => dieAbsent (portUnit p) 0 (some v) d a s
    | none => deliver v backward c [] s

/-! ### Contributions (R168, R233) -/

/-- Wire bytes of one contribution to update `j` of a stage's shard here. -/
def Stage.contribLen (g : Stage) (z j : Nat) : Nat := g.shardLen z * wireWidth (g.wire j) / 8

/-- A piece of a contribution: one that is not the next of its message, or of a whole one, is discarded. -/
def contribFrame (v : Nat) (f : Frame) (s : State) : State :=
  let h := f.header
  let j := hTag h
  let q := hSrc h
  let g := s.stage v
  let old := (g.update.contributions.find? fun c => c.update == j && c.rank == q).getD ⟨j, q, false, [], false⟩
  let data := if hOffset h = 0 then [] else old.data
  if old.whole || !below (g.update.reductions % 2 ^ 32) j || data.length ≠ 16 * hOffset h then s
  else
    let bs := data ++ Frame.meaning f
    let n := g.contribLen s.job.z j
    let new : Contribution :=
      if hLast h then ⟨j, q, (leNat (bs.drop (bs.length - 16))).testBit 0, fit n bs, true⟩ else ⟨j, q, false, bs, false⟩
    s.updStage v fun g => { g with update := { g.update with
      contributions := (g.update.contributions.filter fun c => !(c.update == j && c.rank == q)) ++ [new] } }

/-- A GMAX value (R168). -/
def gmaxFrame (v : Nat) (f : Frame) (s : State) : State :=
  let h := f.header
  let y : GmaxValue := ⟨hTag h, hOffset h, hSrc h, BitVec.ofNat 64 (leNat (f.payload.take 8))⟩
  s.updStage v fun g =>
    if g.update.gmaxVals.any fun x => x.update == y.update && x.ordinal == y.ordinal && x.rank == y.rank then g
    else if !below (g.update.done % 2 ^ 32) y.update then g
    else { g with update := { g.update with gmaxVals := g.update.gmaxVals ++ [y] } }

/-! ### Tense shards (R214) -/

/-- Write a shard's bytes into its ranges of an image at `a`. -/
def writeRanges (a : Nat) : List (Nat × Nat) → List Byte → State → State
  | [], _, s => s
  | (o, n) :: t, bs, s => writeRanges a t (bs.drop n) ((s.store (a + o) (bs.take n)).mend (a + o) n)

/-- A whole shard has arrived: it is written and checked against its digest; one mismatch asks again, a second halts. -/
def shardArrives (v owner r commit addr : Nat) (bs : List Byte) (s : State) : State :=
  let g := s.stage v
  let rs := g.shardRanges s.job.z r
  let n := (rs.map (·.2)).foldl (· + ·) 0
  let data := fit n bs
  if let some w := rs.findSome? fun x => s.badPart (addr + x.1) x.2 then tenseBad v w s else
  let s := writeRanges addr rs data s
  if shardDigest data = leNat (bs.drop (bs.length - 16)) then verifyShard v r (shardDigest data) s
  else if g.update.asked.contains r then agreementFault v 2 commit r (tenseRecord v 4 4 commit r s)
  else
    let s := tenseRecord v 4 1 commit r s
    queueColl (msgOf v 6 r g.image.stage commit owner 5)
      (s.updStage v fun g => { g with update := { g.update with asked := g.update.asked ++ [r] } })

/-- A TENSE_DATA frame: pieces are kept in order until the last. -/
def tenseFrame (v : Nat) (f : Frame) (s : State) : State :=
  let h := f.header
  let r := hSub h
  let g := s.stage v
  match g.tenses.find? fun t => t.state == 1 && t.commit == hTag h with
  | none => s
  | some t =>
    let old := match g.update.gather.find? fun x => x.2.1 == r with
      | some x => x.2.2
      | none => []
    let data := if hOffset h = 0 then [] else old
    if g.update.verified.contains r || data.length ≠ 16 * hOffset h then s
    else
      let bs := data ++ Frame.meaning f
      let rest := g.update.gather.filter fun x => x.2.1 != r
      let s := s.updStage v fun g => { g with
        update := { g.update with gather := if hLast h then rest else rest ++ [(hTag h, r, bs)] } }
      if hLast h then shardArrives v (hSrc h) r (hTag h) t.addr bs s else s

/-- TENSE_REQ: the owner sends its shard again from the slot that holds the tag, or its stage halts. -/
def tenseReq (v : Nat) (h : BitVec 256) (s : State) : State :=
  let g := s.stage v
  let commit := hTag h
  let r := hSub h
  match g.tenses.find? fun t => decide (1 ≤ t.state ∧ t.state ≤ 5) && t.commit == commit with
  | none => agreementFault v 2 commit r s
  | some t =>
    match s.badAmong (g.sourceRanges t) with
    | some w => tenseBad v w s
    | none =>
      let bs := shardBytes (g.shardRanges s.job.z r) (s.materialise g t)
      queueColl (shardMessage v g.image.stage commit r (hSrc h) bs (shardDigest bs)) s

/-! ### CREDIT (R344) -/

/-- Is a count of 16 bits below another, modulo 2^16 (R446)? -/
def below16 (a b : Nat) : Bool :=
  let d := (b + 2 ^ 16 - a % 2 ^ 16) % 2 ^ 16
  decide (1 ≤ d) && decide (d ≤ 2 ^ 15)

/-- Does a credit entry from `rank` accept this message? -/
def acceptedBy (coll : Bool) (rank cls id accepted aux : Nat) (m : OutMsg) : Bool :=
  m.cls == cls && (cls == 4 || m.stage == id) && (!coll || m.dstRank == rank) && m.forward.isNone &&
  (match cls with
   | 0 => below m.tag accepted
   | 1 => below m.tag accepted
   | 4 => below m.tag accepted
   | _ =>
     if m.type = 8 && m.sub = 1 then
       let j := aux / 65536
       below16 m.tag j || (m.tag % 65536 == j && decide (m.base < aux % 65536))
     else below m.tag (accepted + 1))

/-- Out-queue entries of Clauses that a destination has accepted become free (R178). -/
def freeEntries (cls id accepted : Nat) (s : State) : State :=
  forEach s.loadedStages (fun v s =>
    let g := s.stage v
    let backward := cls == 1
    if (if backward then g.predecessor else g.succ) = id && s.remote id then
      s.updStage v fun g => g.updOut backward fun q => { q with items := q.items.filter fun c => !below (clauseSeq c) accepted }
    else s) s

/-- One entry. -/
def takeCredit (p rank : Nat) (e : BitVec 128) (s : State) : State :=
  let x := e.toNat
  let cls := bits x 19 16
  let id := bits x 15 0
  let accepted := bits x 63 32
  let aux := bits x 127 96
  let coll := (s.port p).role == roleColl
  let c : Credit := ⟨BitVec.ofNat 32 (bits x 95 64), BitVec.ofNat 32 accepted, BitVec.ofNat 32 aux⟩
  let s := s.updPort p fun q => { q with credits := sset {} (creditKey cls id (if coll then rank else 0)) c q.credits }
  let s := forEach (List.range 8) (fun i s =>
    if i = p || (coll && (s.port i).role == roleColl) then
      s.updPort i fun q => { q with out := q.out.filter fun m => !acceptedBy coll rank cls id accepted aux m }
    else s) s
  if cls ≤ 1 then freeEntries cls id accepted s
  else if cls = 4 then
    forEach (s.job.exporting.filter fun x => x.1 == p && below x.2.1 accepted) (fun _ s => endExport p stOk s) s
  else s

/-- Every entry of a CREDIT frame. -/
def creditEntriesIn (p : Nat) (f : Frame) (s : State) : State :=
  forEach (List.range (hPlen f.header)) (fun i s =>
    takeCredit p (hSrc f.header) (BitVec.ofNat 128 (leNat ((f.payload.drop (16 * i)).take 16))) s) s

/-! ### The rows -/

/-- A frame of another type than the row's is not this row's. -/
def ofType (ts : List Nat) (f : Frame) (go : State → State) (s : State) : Host.Outcome State Fault Refusal :=
  .next (if ts.contains (hType f.header) then go s else s)

/-- DATA_FRAME; a frame of a reserved type, which no row names, is received by the same checks. -/
def execDataFrame (p : Fin 8) (f : Frame) (s : State) : Host.Outcome State Fault Refusal :=
  ofType [1, 0, 11, 12, 13, 14, 15] f (receive p.val f fun s =>
    let h := f.header
    let role := (s.port p.val).role
    if role = roleColl then
      collective p.val f (fun s => match s.findStage (hStage h) with
        | some v => contribFrame v f s
        | none => s) s
    else if role = roleExport then s
    else match s.findStage (hStage h) with
      | some v => payloadFrame p.val v f s
      | none => s) s

/-- CLAUSE_FRAME. -/
def execClauseFrame (p : Fin 8) (f : Frame) (s : State) : Host.Outcome State Fault Refusal :=
  ofType [2] f (receive p.val f fun s =>
    let c := BitVec.ofNat 512 (leNat (f.payload.take 64))
    match s.findStage (hStage f.header) with
    | some v => clauseArrives p.val v (hSub f.header % 2 == 1) c s
    | none => clauseRoute (clauseSrc c) (clauseDst c) s) s

/-- ACK_FRAME. -/
def execAckFrame (p : Fin 8) (f : Frame) (s : State) : Host.Outcome State Fault Refusal :=
  ofType [3] f (receive p.val f fun s =>
    s.updPort p.val fun q => { q with linkCredit := BitVec.ofNat 32 (hTag f.header) }) s

/-- NAK_FRAME. -/
def execNakFrame (p : Fin 8) (f : Frame) (s : State) : Host.Outcome State Fault Refusal :=
  ofType [4] f (receive p.val f fun s =>
    goBack p.val (s.updPort p.val fun q => { q.count 3 1 with linkCredit := BitVec.ofNat 32 (hTag f.header) })) s

/-- TENSE_REQ_FRAME. -/
def execTenseReqFrame (p : Fin 8) (f : Frame) (s : State) : Host.Outcome State Fault Refusal :=
  ofType [6] f (receive p.val f (collective p.val f fun s => match s.findStage (hStage f.header) with
    | some v => tenseReq v f.header s
    | none => s)) s

/-- TENSE_DATA_FRAME. -/
def execTenseDataFrame (p : Fin 8) (f : Frame) (s : State) : Host.Outcome State Fault Refusal :=
  ofType [7] f (receive p.val f (collective p.val f fun s => match s.findStage (hStage f.header) with
    | some v => tenseFrame v f s
    | none => s)) s

/-- VOTE_FRAME. -/
def execVoteFrame (p : Fin 8) (f : Frame) (s : State) : Host.Outcome State Fault Refusal :=
  ofType [8] f (receive p.val f (collective p.val f fun s => match s.findStage (hStage f.header) with
    | some v => if hSub f.header = 1 then gmaxFrame v f s else contribFrame v f s
    | none => s)) s

/-- DIGEST_FRAME. -/
def execDigestFrame (p : Fin 8) (f : Frame) (s : State) : Host.Outcome State Fault Refusal :=
  ofType [9] f (receive p.val f (collective p.val f fun s => match s.findStage (hStage f.header) with
    | some v => addRecord v (recordOf f.payload) s
    | none => s)) s

/-- CREDIT_FRAME; on a COLLECTIVE port it may be another rank's. -/
def execCreditFrame (p : Fin 8) (f : Frame) (s : State) : Host.Outcome State Fault Refusal :=
  ofType [10] f (receive p.val f fun s =>
    if (s.port p.val).role = roleColl then collective p.val f (creditEntriesIn p.val f) s else creditEntriesIn p.val f s) s

/-! ### HELLO (R349, R350) -/

/-- What a HELLO says. -/
structure Hello where
  serial : Nat
  job : Nat
  port : Nat
  role : Nat
  rank : Nat
  g1 : Nat
  z : Nat
  restores : Nat
  stages : List (BitVec 128)

/-- A HELLO from its payload. -/
def helloOf (bs : List Byte) : Hello :=
  let f (o n : Nat) := leNat ((bs.drop o).take n)
  ⟨f 0 8, f 8 4, f 12 1, f 13 1, f 14 1, f 15 1, f 16 1, f 18 4,
    (List.range (f 17 1)).map fun i => BitVec.ofNat 128 (f (32 + 16 * i) 16)⟩

/-- Is NST above its largest value, or are there fewer entries than it says (R19, Table 13.7)? -/
def helloBad (f : Frame) : Bool :=
  let n := (f.payload.getD 17 0).toNat
  decide (n > 16) || decide (16 * hPlen f.header < 32 + 16 * n)

/-- The role that pairs with a role (Table 13.3). -/
def pairRole (role : Nat) : Nat := if role = 1 then 2 else if role = 2 then 1 else if role = 3 then 3 else 5

/-- The STAGE (5) or SLOT (6) reason of one stage with a remote neighbour. -/
def joinStage (role : Nat) (x : Hello) (g : Stage) : Option Nat :=
  let n := if role = roleUp then g.predecessor else g.succ
  match x.stages.find? fun e => bits e.toNat 15 0 == n with
  | none => some 5
  | some e =>
    let fin := bits e.toNat 95 64
    let bin := bits e.toNat 127 96
    if role = roleDown && fin != g.foutMax then some 6
    else if role = roleUp && bin != g.boutMax then some 6
    else none

/-- The first join check that fails (Table 13.8). -/
def joinReason (s : State) (p : Nat) (x : Hello) : Option Nat :=
  let q := s.port p
  let gs := (s.servedBy q.role).map s.stage
  let staged := q.role = roleUp || q.role = roleDown
  if x.role ≠ pairRole q.role then some 1
  else if q.role ≠ roleExport && x.job ≠ s.job.id.toNat then some 2
  else if q.accepted && x.serial ≠ q.partnerSerial.toNat then some 3
  else if q.role = roleColl && (x.g1 + 1 ≠ s.job.g || x.z ≠ s.job.z || x.rank = s.job.rank) then some 4
  else if staged && (gs.any fun g => joinStage q.role x g == some 5) then some 5
  else if staged && (gs.any fun g => joinStage q.role x g == some 6) then some 6
  else if q.role ≠ roleExport && x.restores ≠ s.job.restores.toNat then some 7
  else none

/-- A HELLO in JOINING: refused with its reason, or the partner is noted and, once this port's own HELLO is out, UP. -/
def helloJoin (p : Nat) (x : Hello) (s : State) : State :=
  match joinReason s p x with
  | some r => raise 0x0603 (portUnit p) 0 [(1, r)] s
  | none =>
    let s := s.updPort p fun q =>
      { q with helloOk := true, partnerSerial := BitVec.ofNat 64 x.serial, partnerPort := x.port, partnerRole := x.role
               partnerRank := x.rank, partnerStages := x.stages }
    if (s.port p).helloSent then enterUp p s else s

/-- HELLO_FRAME: its JOB is checked by Table 13.8 and R350, not by Table 13.5a. A HELLO with NST out of range is refused as a
protocol error (R19, log 128). A later copy replaces the one before it (R337). -/
def execHelloFrame (p : Fin 8) (f : Frame) (s : State) : Host.Outcome State Fault Refusal :=
  ofType [5] f (fun s =>
    let q := s.port p.val
    let x := helloOf f.payload
    if q.state ≠ 1 && q.state ≠ 2 then s
    else if frameCrc f.header f.payload ≠ hCrc f.header then s.updPort p.val fun q => q.count 8 1
    else if protoBad q.role f.header || helloBad f then protoError p.val s
    else if q.state = 1 then helloJoin p.val x s
    else
      let s := takeAck p.val (hAck f.header) s
      if x.serial ≠ q.partnerSerial.toNat || (q.role ≠ roleExport && x.job ≠ s.job.id.toNat) then portDown p.val 3 s
      else s.updPort p.val fun q =>
        { q with partnerPort := x.port, partnerRole := x.role, partnerRank := x.rank, partnerStages := x.stages
                 accepted := q.accepted || decide (s.job.state ≥ 2) }) s

end Sys2Proof.Machine
end

