-- ==== Sys2Proof/Machine/Faults.lean ====
section
/-!
DEFINITION. Sys2Proof/Machine/Faults.lean: fault records and their ring, classification by history and by repetition,
retirement, demotion and out of service, field tests, and the commands of Table 10.9 (R258 to R272, R453).
-/
namespace Sys2Proof.Machine

/-! ### Records (R270) -/

/-- The record of Table 10.6. -/
def faultRecord (r : RecordReq) (seq poh : Nat) : BitVec 256 :=
  let x := 1 + r.capture % 2 ^ 16 * 2 ^ 16 + r.stage % 2 ^ 16 * 2 ^ 32 + r.verdict % 16 * 2 ^ 52 + r.kind % 256 * 2 ^ 56 +
    r.phys % 64 * 2 ^ 70 + r.cls % 16 * 2 ^ 76 + r.unit % 2 ^ 16 * 2 ^ 80 + seq % 2 ^ 32 * 2 ^ 96 +
    poh % 2 ^ 32 * 2 ^ 128 + r.detail0 % 2 ^ 32 * 2 ^ 160 + r.detail1 % 2 ^ 32 * 2 ^ 192
  BitVec.ofNat 256 (x + crc32c (leBytes 28 x) * 2 ^ 224)

/-- KIND -/
def recKind (r : BitVec 256) : Nat := bits r.toNat 63 56
/-- VERDICT -/
def recVerdict (r : BitVec 256) : Nat := bits r.toNat 55 52
/-- UNIT -/
def recUnit (r : BitVec 256) : Nat := bits r.toNat 95 80
/-- UNIT_CLASS -/
def recClass (r : BitVec 256) : Nat := bits r.toNat 79 76
/-- SEQ -/
def recSeq (r : BitVec 256) : Nat := bits r.toNat 127 96
/-- POH_MIN -/
def recPoh (r : BitVec 256) : Nat := bits r.toNat 159 128
/-- PHYS -/
def recPhys (r : BitVec 256) : Nat := bits r.toNat 75 70

/-- SEQ that the next noted record will carry. -/
def State.nextSeq (s : State) : Nat := (s.faults.seq.toNat + s.faults.toWrite.length) % 2 ^ 32

/-- Records the ring holds, and records of one sector. -/
def ringSize : Nat := 524288
/-- Records of one sector. -/
def sectorSize : Nat := 2048

/-- While the ring is full its oldest sector is erased, and the PERMANENT and PATTERN records of that sector are written again
at the head (R270); a sector that holds no other record gives no room, and the next one is erased. -/
def makeRoom : Nat → List (BitVec 256) → List (BitVec 256)
  | 0, rs => rs
  | n + 1, rs =>
    if rs.length < ringSize then rs
    else makeRoom n (rs.drop sectorSize ++ (rs.take sectorSize).filter fun x => recVerdict x == 2 || recVerdict x == 3)

/-- Put a record at the head of the ring. A ring full of PERMANENT and PATTERN records takes no more (log 136). -/
def ringPut (rs : List (BitVec 256)) (r : BitVec 256) : List (BitVec 256) :=
  let rs := makeRoom 256 rs
  if rs.length < ringSize then rs ++ [r] else rs

/-! ### Verdicts and consequences (R264, R268, R269) -/

/-- The module goes out of service, for the record with this SEQ (R269). -/
def goOutOfService (seq : Nat) (s : State) : State :=
  if s.chip.outOfService then s
  else
    let s := s.updChip fun c => { c with outOfService := true, service := 3 }
    let s := raiseParser 0x0306 [(4, seq)] s
    statusIrq (noteRecord ⟨parserUnit, 0, 0, 12, 6, 0xFFFF, 0xFFFF, seq, 0⟩ s)

/-- Is this the address of a cell array? -/
def isCellArray (unit cls : Nat) : Bool :=
  cls == 0 && decide (1 ≤ unit / 8192) && decide (unit / 8192 ≤ 4) && decide (unit / 64 % 128 < 96)

/-- Enabled physical quads of a cell that hold a retired array (R75). -/
def Faults.badQuads (f : Faults) (k : Nat) : List Nat :=
  (((f.retired.filter fun r => isCellArray r.1 r.2.1 && r.1 / 64 == k).map fun r => r.2.2 / 4).eraseDups).filter
    (f.quads k).contains

/-- How many times four arrays of every cell the retired arrays call for: a cell gives up whole quads, and the grade stays
the same in every cell (R6, R9; log 100). -/
def Faults.steps (f : Faults) : Nat :=
  (f.retired.map fun r => if isCellArray r.1 r.2.1 then (f.badQuads (r.1 / 64)).length else 0).foldl max 0

/-- The grade that the next job start will set. -/
def State.nextGrade (s : State) : Nat := Config.fusedGrade - 4 * (s.faults.demotions + s.faults.steps)

/-- The quads that a cell gives up when every cell gives up `n`: those that hold a retired array, then good ones. -/
def Faults.giveUp (f : Faults) (n k : Nat) : List Nat :=
  let bad := f.badQuads k
  (bad ++ sortBy (Config.demoteKey k) ((f.quads k).filter fun q => !bad.contains q)).take n

/-- The cells of the package, by engine number. -/
def allCells : List Nat := (List.range 4).flatMap fun d => (List.range 96).map fun c => (d + 1) * 128 + c

/-- Disable `n` quads in every cell. -/
def Faults.demoteBy (f : Faults) (n : Nat) : Faults :=
  { f with demotions := f.demotions + n
           quadsOff := allCells.foldl (fun q k => supd [] k (· ++ f.giveUp n k) q) f.quadsOff }

/-- Is a unit a Conjunction port or a storage root port? -/
def isCjPort (unit cls : Nat) : Bool := cls == 0 && unit / 64 == 98
/-- Is a unit a storage root port? -/
def isStoragePort (unit cls : Nat) : Bool := cls == 0 && unit / 64 == 5 * 128 + 96

/-- The consequence of a PERMANENT or PATTERN verdict (Table 10.5), for the record with this SEQ. A fault that the grades
below cannot absorb puts the module out of service at once (R10, log 100). -/
def consequence (unit cls phys seq : Nat) (s : State) : State :=
  let lowest := s.grade ≤ 56
  let s := s.updFaults fun f =>
    { f with retired := f.retired ++ [(unit, cls, phys)], retiredInJob := f.retiredInJob ++ [(unit, cls)] }
  let array := isCellArray unit cls
  let out := if array then lowest || decide (s.nextGrade < 56) else !(isCjPort unit cls || isStoragePort unit cls)
  let code := if out then 4 else if array then 1 else if isCjPort unit cls then 2 else 3
  let s := raise 0x0305 unit cls [(1, phys), (1, code)] s
  let s := noteRecord ⟨unit, cls, phys, 10, 2, 0xFFFF, 0xFFFF, unit % 64, if out then s.grade else s.nextGrade⟩ s
  if out then goOutOfService seq s else s

/-- A verdict on a unit: its event, the record that bears it, and what it brings. A record that resolves an earlier one
repeats that one's unit (R270); where that is not the unit, the record is still this unit's (log 134). -/
def classifyAs (r : RecordReq) (unit cls phys : Nat) (s : State) : State :=
  let seq := s.nextSeq
  let s := raise 0x0304 unit cls [(1, phys), (1, r.verdict), (4, seq)] s
  let s := if 1 ≤ r.verdict && r.verdict ≤ 3 && (r.unit != unit || r.cls != cls) then
      s.updFaults fun f => { f with suspects := f.suspects ++ [(seq, unit, cls)] }
    else s
  let s := noteRecord r s
  if r.verdict = 2 || r.verdict = 3 then consequence unit cls phys seq s else s

/-- A verdict whose record names the unit. -/
def classify (r : RecordReq) (s : State) : State := classifyAs r r.unit r.cls r.phys s

/-- The unit and class on which a record gives its verdict: the suspect of a capture, else the unit that the record names
(R265). -/
def Faults.eventUnit (f : Faults) (r : BitVec 256) : Nat × Nat :=
  match f.suspects.find? fun x => x.1 == recSeq r with
  | some x => x.2
  | none => (recUnit r, recClass r)

/-- Does a record retire a unit, which its PHYS names more closely where it names the unit at all? -/
def Faults.retires (f : Faults) (r : BitVec 256) (x : Nat × Nat × Nat) : Bool :=
  (recVerdict r == 2 || recVerdict r == 3) && f.eventUnit r == (x.1, x.2.1) &&
    (recPhys r == x.2.2 || f.suspects.any fun y => y.1 == recSeq r)

/-- Events of a unit in its running window, and the window's start (R264). -/
def Faults.eventWindow (f : Faults) (unit : Nat × Nat) : Nat × Nat :=
  (f.records.filter fun r => recVerdict r == 1 && f.eventUnit r == unit).foldl
    (fun w r => if w.1 = 0 || recPoh r > w.2 + 15360 then (1, recPoh r) else (w.1 + 1, w.2)) (0, 0)

/-- Firmware writes the oldest noted record; a unit's third event in its window makes the unit PERMANENT. -/
def writeRecord (s : State) : State :=
  match s.faults.toWrite with
  | [] => s
  | (r, poh) :: rest =>
    let x := faultRecord r s.faults.seq.toNat poh.toNat
    let s := s.updFaults fun f => { f with records := ringPut f.records x, seq := f.seq + 1, toWrite := rest }
    let u := s.faults.eventUnit x
    if r.verdict = 1 && (s.faults.eventWindow u).1 = 3 then
      let phys := if u = (recUnit x, recClass x) then r.phys
        else if isCellArray u.1 u.2 then s.faults.phys (u.1 / 64) (u.1 % 64) else 0
      classify { r with unit := u.1, cls := u.2, phys := phys, verdict := 2 } s
    else s

/-- Fault records go ahead of every other write of flash: those that wait are written first, with the records that a verdict
among them adds (R399). -/
def flushRecords (s : State) : State := forEach (List.range (4 * s.faults.toWrite.length)) (fun _ => writeRecord) s

/-- FAULT_RECORD_WRITE: firmware runs and the supply is on. -/
def execFaultRecordWrite (s : State) : Host.Outcome State Fault Refusal :=
  .next (if s.chip.parserHeld || !s.chip.powered || s.chip.bringup < 2 then s else writeRecord s)

/-- At a job start a module whose retired arrays call for it is demoted (R9, R25). -/
def demote (s : State) : State :=
  let before := s.grade
  let after := s.nextGrade
  let s := s.updFaults fun f => { f with retiredInJob := [] }
  if after < before && decide (56 ≤ after) then
    let s := s.updFaults fun f => f.demoteBy f.steps
    noteRecord ⟨parserUnit, 0, 0, 11, 6, 0xFFFF, 0xFFFF, before, after⟩ s
  else s

/-- Does a stage use a cell: as its own, or for its shadow tiles (R255)? -/
def Stage.usesCell (g : Stage) (k : Nat) : Bool :=
  g.cellKeys.contains k || (g.shadowCode != 0 && g.cellKeys.contains (partnerOf k))

/-- Is a stage granted bytes of the store of a cell? -/
def Stage.grantsCell (g : Stage) (k : Nat) : Bool :=
  g.image.grants.any fun r => overlaps r.base r.len (cellBase (k / 128) (k % 128)) (2 ^ 21)

/-- Does a stage keep anything in the HBM of a die: is it placed there, or is it granted HBM of the die? -/
def Stage.usesHbm (g : Stage) (d : Nat) : Bool :=
  g.image.die == d || g.image.grants.any fun r => match regionOf r.base with
    | .hbm d' _ => d' == d
    | _ => false

/-- Does a stage use a die: is it placed there, or is it granted HBM or cell stores of the die? -/
def Stage.usesDie (g : Stage) (d : Nat) : Bool :=
  g.image.die == d || g.image.grants.any fun r => match regionOf r.base with
    | .hbm d' _ => d' == d
    | .cellStore d' _ => d' == d
    | _ => false

/-- Is a storage port one that an open ingest reads from? -/
def Ingest.usesPort (i : Ingest) (p : Nat) : Bool :=
  i.isOpen && i.params.namespaces.any fun n => !n.host && n.port == p

/-- Does the loaded job use a unit that was retired since it was created (R268)? -/
def State.jobRetired (s : State) : Bool :=
  s.faults.retiredInJob.any fun (u, c) =>
    let d := u / 8192
    if isCjPort u c then (s.port (u % 64)).role != 0
    else if isStoragePort u c then s.ingest.usesPort (u % 64)
    else if d = 0 then true
    else if d = 5 then s.ingest.isOpen
    else s.loadedStages.any fun v =>
      if u / 64 % 128 < 96 then (s.stage v).usesCell (u / 64) || (c == 4 && (s.stage v).grantsCell (u / 64))
      else (s.stage v).usesDie d

/-! ### Repeating a captured tile (R258, R265) -/

/-- The bytes of a capture entry, in the order of R258. -/
def Capture.bytes (c : Capture) : List Byte :=
  leBytes 128 c.desc.toNat ++ leBytes 4 c.row ++ leBytes 4 c.col ++ leBytes 8 c.seed.toNat ++ c.operands ++
    leBytes 16 c.homeDig.toNat ++ leBytes 16 c.partnerDig.toNat

/-- Memory as a capture entry holds it: its operand bytes at the addresses that the descriptor gives them. -/
def captureMem (rs : List (Nat × Nat)) (bs : List Byte) (m : Memory) : Memory :=
  match rs with
  | [] => m
  | (a, n) :: t => captureMem t (bs.drop n) (memWriteBytes m a (bs.take n))

/-- PD of a repeat of a captured tile with the entry's operands and job seed, under a mask of errors on its accumulators
(R102, R256, R265). -/
def Capture.digest (c : Capture) (errs : List W32) : W128 :=
  let d := c.desc
  let i := c.row * cdiv (dN d) (dShape d) + c.col
  let es := subtileSums (captureMem (subReads d i).all c.operands []) c.seed d i
  BitVec.ofNat 128 (subtileDigest (accBytes d) (xorCodes (es.map (·.code)) errs) ((es.map (·.events)).foldl (· ||| ·) 0))

/-- The value that two of three repeats agree on. -/
def majority (home partner arbiter : W128) : Option W128 :=
  if home = partner || home = arbiter then some home
  else if partner = arbiter then some partner
  else none

/-- Free a capture entry, or keep it as PATTERN. -/
def setCapture (i : Nat) (c : Option Capture) (s : State) : State :=
  s.updFaults fun f => { f with captures := sset none i c f.captures }

/-- The record that resolves a capture's SHADOW record: it repeats its UNIT and DETAIL fields (R257, R270). -/
def Capture.record (s : State) (c : Capture) (i verdict : Nat) : RecordReq :=
  ⟨c.engine * 64 + dBase c.desc, 0, s.faults.phys c.engine (dBase c.desc), 1, verdict, c.stage, i,
    partnerOf c.engine * 64 + arbiterOf c.engine * 64 * 2 ^ 16, c.mbId⟩

/-- The failing unit that localisation finds in cell `k`: the one array of the suspect's range that reproduces the fault, or
the tile sequencer (R265, step 5; log 101). -/
def suspectUnit (s : State) (c : Capture) (k : Nat) (r : RepeatResult) : Nat × Nat × Nat :=
  match r.failArray with
  | some a =>
    if dBase c.desc ≤ a.val ∧ a.val < dBase c.desc + dArrays c.desc then (k * 64 + a.val, 0, s.faults.phys k a.val)
    else (k * 64, 2, 0)
  | none => (k * 64, 2, 0)

/-- One suspect gang, of cell `k`, whose repeat and second run gave `own` and `again` (R265, steps 3 to 6): whether the entry
is kept. -/
def judgeSuspect (i : Nat) (c : Capture) (k : Nat) (own again ref : W128) (r : RepeatResult) (s : State) : State × Bool :=
  if own = ref || again = ref then
    (classifyAs (c.record s i 1) (k * 64 + dBase c.desc) 0 (s.faults.phys k (dBase c.desc)) s, false)
  else
    let (u, cls, phys) := suspectUnit s c k r
    if r.suitePassed then
      let d := pd [c.bytes]
      let s := noteRecord ⟨u, cls, phys, 13, 3, c.stage, i, d % 2 ^ 32, d / 2 ^ 96 % 2 ^ 32⟩ s
      (classifyAs (c.record s i 3) u cls phys s, true)
    else (classifyAs (c.record s i 2) u cls phys s, false)

/-- The capture entry that holds a word. -/
def captureAt (s : State) (w : Nat) : Option (Nat × Capture) :=
  s.faults.captures.findSome? fun (i, c) => match c with
    | some c => if w < captureAddr i + c.bytes.length ∧ captureAddr i < w + 8 then some (i, c) else none
    | none => none

/-- A word of a capture entry is uncorrectable: the entry is freed, and its record keeps CAPTURE 0xFFFF (R36). -/
def captureLost (i : Nat) (c : Capture) (w : Nat) (s : State) : State :=
  let s := memBadNoHalt none w parserUnit 0 s
  let s := noteRecord (c.record s 0xFFFF (if c.kept then 3 else 0)) s
  setCapture i none (s.mend w 8)

/-- The repeat of a captured tile. -/
def captureRepeat (i : Nat) (c : Capture) (r : RepeatResult) (s : State) : State :=
  match majority (c.digest r.home) (c.digest r.partner) (c.digest r.arbiter) with
  | none => setCapture i (some { c with tried := true }) s
  | some ref =>
    if c.homeDig = ref && c.partnerDig = ref then
      let x := { c.record s i 1 with unit := c.engine * 64, cls := 6, phys := 0 }
      setCapture i none (classify x s)
    else
      let (s, keptH) := if c.homeDig != ref
        then judgeSuspect i c c.engine (c.digest r.home) (c.digest r.homeAgain) ref r s else (s, false)
      let (s, keptP) := if c.partnerDig != ref
        then judgeSuspect i c (partnerOf c.engine) (c.digest r.partner) (c.digest r.partnerAgain) ref r s else (s, false)
      if keptH || keptP then setCapture i (some { c with kept := true }) s else setCapture i none s

/-- CAPTURE_REPEAT: in a pause, between jobs, or in a field test that repeats captured tiles (R262, R265, R266). -/
def execCaptureRepeat (k : Fin 16) (r : RepeatResult) (s : State) : Host.Outcome State Fault Refusal :=
  .next (match sget none s.faults.captures k.val with
    | none => s
    | some c =>
      let testing := match s.faults.test with
        | some t => bitAt t.mask 3
        | none => false
      let runs := s.loadedStages.any fun v => (s.stage v).live
      if c.kept || c.tried || (runs && !testing) then s
      else match s.badIn (captureAddr k.val) c.bytes.length with
        | some w => captureLost k.val c w s
        | none => captureRepeat k.val c r s)

/-- The entries that stay unresolved wait for the next repeat. -/
def endRepeats (s : State) : State :=
  s.updFaults fun f => { f with captures := f.captures.map fun (i, c) => (i, c.map fun c => { c with tried := false }) }

/-! ### Leaving parking (R434) -/

/-- The module leaves parking at the start of a command. -/
def unpark (op : Nat) (s : State) : State :=
  if s.chip.parked then
    raiseParser 0x0984 [(2, op)] (s.updChip fun c => { c with parked := false, clocksGated := false, selfRefresh := false })
  else s

/-! ### Field tests (R262, R263, R453) -/

/-- Is an address range's die number `d`'s HBM? -/
def inHbm (d a : Nat) : Bool := match regionOf a with
  | .hbm d' _ => d' == d
  | _ => false

/-- Take the bytes that `p` admits out of memory: they read as bytes that nothing has written. -/
def forget (p : Nat → Bool) (s : State) : State :=
  { s with mem := s.mem.filter fun x => !p x.1, badWords := s.badWords.filter fun w => !p w }

/-- A test's units that a loaded stage uses: its cells, those of its shadow tiles and those whose stores it is granted, its
die and the dies whose memory it is granted, and the hub (R263). -/
def Stage.testUses (g : Stage) (scope unit : Nat) : Bool :=
  match scope with
  | 0 => g.usesCell (unit / 64) || g.grantsCell (unit / 64)
  | 1 => g.usesDie (unit / 8192) || unit / 8192 == 0
  | _ => true

/-- Are a test's units used by a job that is not paused (R263)? -/
def State.testBusy (s : State) (scope unit : Nat) : Bool :=
  decide (s.job.state = 1 ∨ s.job.state = 2 ∨ s.job.state = 3) &&
    ((s.loadedStages.any fun v => (s.stage v).testUses scope unit) ||
     (s.ingest.isOpen && (scope == 2 || (scope == 1 && (unit / 8192 == 5 || unit / 8192 == 0)))))

/-- Does a unit address match a scope (R453)? -/
def State.scopeUnit (s : State) (scope unit : Nat) : Bool :=
  match scope with
  | 0 => isCellArray unit 0 && unit % 64 == 0
  | 1 => unit % 8192 == 0 && decide (unit / 8192 ≤ 5) && !(s.absent (unit / 8192))
  | _ => unit == 0

/-- The bring-up states of R263, and the thermal trip (R438). -/
def testEarly (s : State) : Option Nat := if s.chip.bringup < 4 then some stState else none

/-- Start a field test. -/
def startTest (c : Cmd) (scope unit mask : Nat) (s : State) : Reply :=
  if !s.scopeUnit scope unit then .noAt stUnit 34
  else if s.chip.thermalTrip || s.testBusy scope unit || s.faults.test.isSome then .no stState
  else
    let s := unpark c.opcode s
    let part := s.reduced && (bitAt mask 2 || (bitAt mask 1 && scope != 0))
    let s := if bitAt mask 1 && scope != 0 then
        let hit (d : Nat) : Bool := scope == 2 || d == unit / 8192
        let s := forget (fun a => (List.range 5).any fun d => hit d && inHbm d a) s
        if s.loadedStages.any fun v => (List.range 5).any fun d => hit d && (s.stage v).usesHbm d then
          s.updJob fun j => { j with overwritten := true }
        else s
      else s
    .goesOn (s.updFaults fun f => { f with test := some ⟨scope, unit, mask, part, runningOf c⟩ })

/-- FIELD_TEST. -/
def fieldTestSpec : CmdSpec :=
  { opcode := 0x52, control := true, states := anyJob, basicArgs := [], expertArgs := [(0, 1), (2, 2), (4, 1)]
    lenLo := 0, lenHi := 0, respMin := 0, early := testEarly
    resv := fun c => if c.expert && c.arg 4 1 > 15 then some 4 else none }

/-- Its effect. -/
def fieldTest (c : Cmd) (s : State) : Reply :=
  let scope := if c.expert then c.arg 0 1 else 2
  let mask := if c.expert then c.arg 4 1 else 15
  if scope > 2 then .noAt stRange 32
  else if mask = 0 then .noAt stRange 36
  else startTest c scope (if c.expert then c.arg 2 2 else 0) mask s

/-- FIELD_TEST. -/
def execFieldTest (c : Cmd) (s : State) : Host.Outcome State Fault Refusal := runCmd c fieldTestSpec (fieldTest c) s

/-- BIST_RUN. -/
def bistSpec : CmdSpec :=
  { opcode := 0x53, control := true, states := anyJob, basicArgs := [], expertArgs := [(0, 1), (2, 2), (4, 1), (5, 1)]
    lenLo := 0, lenHi := 0, respMin := 0, early := testEarly }

/-- Its effect: the kinds are the first two bits of a test mask. -/
def bistRun (c : Cmd) (s : State) : Reply :=
  let scope := if c.expert then c.arg 0 1 else 2
  let kind := if c.expert then c.arg 4 1 else 2
  let n := if c.expert then c.arg 5 1 else 1
  if scope > 2 then .noAt stRange 32
  else if kind > 2 then .noAt stRange 36
  else if n < 1 || n > 16 then .noAt stRange 37
  else startTest c scope (if c.expert then c.arg 2 2 else 0) (kind + 1) s

/-- BIST_RUN. -/
def execBistRun (c : Cmd) (s : State) : Host.Outcome State Fault Refusal := runCmd c bistSpec (bistRun c) s

/-- Does a result name a unit of Table 1.4 with a class of Table 1.5, an array among the enabled ones (R25, R26, R29)? -/
def testNames (s : State) (t : TestResult) : Bool :=
  unitClassOk t.unit.toNat t.cls.toNat &&
    (!isCellArray t.unit.toNat t.cls.toNat || decide (t.unit.toNat % 64 < s.grade))

/-- The value that a unit's signature, or the PD of the suite's tile, is compared with (R262). -/
def testReference (t : TestResult) : W128 :=
  let u := t.unit.toNat
  let type := (if u / 64 % 128 < 96 then 0 else u / 64 % 128) * 16 + t.cls.toNat
  if t.test = 2 then Config.suiteReference t.index.toNat
  else (Config.testSignature (u / 8192) t.test.val type).setWidth 128

/-- A unit passes, has a TRANSIENT event when its repeat gives the reference value, or is PERMANENT (R262): 0, 1 or 2. -/
def testOutcome (t : TestResult) : Nat :=
  if t.first = testReference t then 0 else if t.again = testReference t then 1 else 2

/-- The record of a result that is not a pass (Table 10.7). -/
def testRecord (s : State) (t : TestResult) : RecordReq :=
  let u := t.unit.toNat
  let x := (t.first ^^^ testReference t).toNat
  let phys := if isCellArray u t.cls.toNat then s.faults.phys (u / 64) (u % 64) else 0
  ⟨u, t.cls.toNat, phys, 5 + t.test.val, testOutcome t, 0xFFFF, 0xFFFF,
    if t.test = 2 then t.index.toNat else x % 2 ^ 32, if t.test = 2 then x % 2 ^ 32 else x / 2 ^ 32 % 2 ^ 32⟩

/-- One result: what is not a pass is classified. -/
def testVerdict (t : TestResult) (s : State) : State :=
  if testNames s t && testOutcome t != 0 then classify (testRecord s t) s else s

/-- Is a result one of this test's: of a test in its mask, for a unit at its scope (Table 10.3, R453)? -/
def FieldTest.holds (f : FieldTest) (t : TestResult) : Bool :=
  bitAt f.mask t.test.val && match f.scope with
    | 0 => t.unit.toNat / 64 == f.unit / 64
    | 1 => t.unit.toNat / 8192 == f.unit / 8192
    | _ => true

/-- The units of a list of results. -/
def testedUnits (ts : List TestResult) : List (Nat × Nat) := (ts.map fun t => (t.unit.toNat, t.cls.toNat)).eraseDups

/-- The outcome of a unit: the worst of its results. -/
def unitOutcome (ts : List TestResult) (u : Nat × Nat) : Nat :=
  ((ts.filter fun t => (t.unit.toNat, t.cls.toNat) == u).map testOutcome).foldl max 0

/-- Units with an outcome (Table 10.8). -/
def countVerdict (v : Nat) (ts : List TestResult) : Nat := ((testedUnits ts).filter fun u => unitOutcome ts u == v).length

/-- A field test ends: the verdicts, the event, and the command's completion. -/
def endTest (f : FieldTest) (ts : List TestResult) (s : State) : State :=
  let trans := countVerdict 1 ts
  let perm := countVerdict 2 ts
  let s := forEach ts testVerdict s
  let s := if bitAt f.mask 3 then endRepeats s else s
  let s := raiseParser 0x0307 [(1, f.scope), (1, f.mask), (4, countVerdict 0 ts), (4, trans), (4, perm), (1, bit f.part)] s
  completeRunning f.cmd stOk [] (s.updFaults fun f => { f with test := none })

/-- FIELD_TEST_DONE: with the results of its units, once every capture that it repeats has been tried. -/
def execFieldTestDone (ts : List TestResult) (s : State) : Host.Outcome State Fault Refusal :=
  .next (match s.faults.test with
    | none => s
    | some f =>
      if bitAt f.mask 3 && s.toRepeat then s
      else endTest f (ts.filter fun t => f.holds t && testNames s t) s)

/-! ### The commands of Table 10.9 -/

/-- CHECK_FRACTION_SET. -/
def checkFractionSpec : CmdSpec :=
  { opcode := 0x50, control := true, states := [1, 2, 4], basicArgs := [(0, 1)]
    expertArgs := [(0, 1), (2, 2), (4, 1), (8, 8)], lenLo := 0, lenHi := 0, respMin := 0 }

/-- Its effect; the setting waits for the next layer-group entry. -/
def checkFraction (c : Cmd) (s : State) : Reply :=
  let arg := if c.expert then c.arg 2 2 else 0xFFFF
  if c.arg 0 1 > 4 then .noAt stRange 32
  else if c.expert && c.arg 4 1 > 1 then .noAt stRange 36
  else if s.unknownStage arg then .refuse { status := stUnit, stage := arg, offset := 34 }
  else
    let set (v : Nat) (s : State) : State := s.updStage v fun g =>
      { g with shadowNext := some (c.arg 0 1,
          if c.expert then (BitVec.ofNat 64 (c.arg 8 8), some (c.arg 4 1 == 1))
          else match g.shadowNext with
            | some x => x.2
            | none => (g.shadowKey, none)) }
    .ok (forEach (s.named arg) set s)

/-- CHECK_FRACTION_SET. -/
def execCheckFractionSet (c : Cmd) (s : State) : Host.Outcome State Fault Refusal :=
  runCmd c checkFractionSpec (checkFraction c) s

/-- AGREE_INTERVAL_SET: before JOB_START or while paused. -/
def agreeSpec : CmdSpec :=
  { opcode := 0x51, control := true, states := [1, 4], basicArgs := [(0, 4)], expertArgs := [(0, 4), (4, 1)]
    lenLo := 0, lenHi := 0, respMin := 0 }

/-- Its effect. -/
def agreeInterval (c : Cmd) (s : State) : Reply :=
  if c.arg 0 4 < 1 || c.arg 0 4 > 65535 then .noAt stRange 32
  else if c.expert && c.arg 4 1 > 1 then .noAt stRange 36
  else .ok (s.updJob fun j =>
    { j with agreeD := c.arg 0 4, agreeLog := if c.expert then c.arg 4 1 == 1 else j.agreeLog })

/-- AGREE_INTERVAL_SET. -/
def execAgreeIntervalSet (c : Cmd) (s : State) : Host.Outcome State Fault Refusal :=
  runCmd c agreeSpec (agreeInterval c) s

/-- FAULT_HISTORY_READ. -/
def historySpec : CmdSpec :=
  { opcode := 0x54, control := false, states := anyJob, basicArgs := [(0, 4)]
    expertArgs := [(0, 4), (8, 1), (12, 1), (13, 1)], lenLo := 0, lenHi := 0, respMin := 32
    resv := fun c => if c.expert && c.arg 13 1 > 1 then some 13 else none }

/-- Records whose SEQ is at or after `n`, modulo 2^32. -/
def recordsFrom (n : Nat) (rs : List (BitVec 256)) : List (BitVec 256) :=
  rs.filter fun r => decide ((recSeq r + 2 ^ 32 - n) % 2 ^ 32 < 2 ^ 31)

/-- The units that have events or corrected errors. -/
def Faults.countedUnits (f : Faults) : List (Nat × Nat) :=
  (((f.records.filter fun r => recVerdict r == 1).map f.eventUnit) ++
    f.corrected.map fun (x : Nat × Nat) => (x.1 / 16, x.1 % 16)).eraseDups

/-- One 16-byte entry of a unit's counts. -/
def unitCounts (f : Faults) (x : Nat × Nat) : List Byte :=
  let w := f.eventWindow x
  leBytes 2 x.1 ++ leBytes 2 x.2 ++ leBytes 4 w.1 ++ leBytes 4 w.2 ++ leBytes 4 (sget 0 f.corrected (x.1 * 16 + x.2))

/-- Its effect. -/
def historyRead (c : Cmd) (s : State) : Reply :=
  let part := if c.expert then c.arg 8 1 else 0
  let f := s.faults
  if part > 2 then .noAt stRange 40
  else if part = 2 then
    match (if c.arg 12 1 < 16 then sget none f.captures (c.arg 12 1) else none) with
    | none => .noAt stUnit 44
    | some x =>
      if !x.kept then .noAt stUnit 44
      else if let some w := s.badIn (captureAddr (c.arg 12 1)) x.bytes.length then
        .failed { status := stUnit, offset := 44 } (captureLost (c.arg 12 1) x w s)
      else if x.bytes.length > c.respLen then .refuse { status := stLength, offset := 28, size := x.bytes.length }
      else .done [] x.bytes (if c.arg 13 1 = 1 then setCapture (c.arg 12 1) none s else s)
  else if part = 1 then
    let us := f.countedUnits.take (c.respLen / 16)
    .done (leBytes 4 f.captureFull.toNat ++ leBytes 4 f.shadowCancelled.toNat ++ leBytes 4 s.host.eventDrops.toNat ++
      leBytes 4 us.length) (us.flatMap (unitCounts f)) s
  else
    let oldest := match f.records with
      | [] => f.seq.toNat
      | r :: _ => recSeq r
    let rs := (recordsFrom (c.arg 0 4) f.records).take (c.respLen / 32)
    .done (leBytes 4 oldest ++ leBytes 4 rs.length) (rs.flatMap fun r => leBytes 32 r.toNat) s

/-- FAULT_HISTORY_READ. -/
def execFaultHistoryRead (c : Cmd) (s : State) : Host.Outcome State Fault Refusal :=
  runCmd c historySpec (historyRead c) s

end Sys2Proof.Machine
end

