-- ==== Sys2Proof/Machine/Phrases.lean ====
section
/-!
DEFINITION. Sys2Proof/Machine/Phrases.lean: lane plans and roles, messages in rotation, flow control, retraining, and
losing and rediscovering a die (R304 to R322).
-/
namespace Sys2Proof.Machine

/-! ### Lane plans (R311 to R313) -/

/-- An entry of Table 12.5. -/
def planEntry (a b ctl mem red stg ing : Nat) : W64 :=
  BitVec.ofNat 64 (a + b * 2 ^ 4 + ctl * 2 ^ 8 + mem * 2 ^ 16 + red * 2 ^ 24 + stg * 2 ^ 32 + ing * 2 ^ 40)

/-- The default plan (Table 12.3). -/
def defaultPlan : List W64 :=
  [planEntry 0 1 4 24 16 20 0, planEntry 0 2 4 24 16 20 0, planEntry 0 3 4 24 16 20 0, planEntry 0 4 4 24 16 20 0,
   planEntry 1 2 2 0 30 0 0, planEntry 2 3 2 0 30 0 0, planEntry 3 4 2 0 30 0 0, planEntry 1 4 2 0 30 0 0,
   planEntry 0 5 2 0 0 0 14]

/-- Dies of an entry's bundle. -/
def planDies (e : W64) : Nat × Nat := (bits e.toNat 3 0, bits e.toNat 7 4)
/-- Phrases of role `r` in an entry, the roles being numbered in the order of R313. -/
def planCount (e : W64) (r : Nat) : Nat := bits e.toNat (15 + 8 * r) (8 + 8 * r)

/-- Phrases of the bundle that joins two dies (Table 1.2); 0 where none does. -/
def bundleSize (a b : Nat) : Nat :=
  if a = 0 then (if 1 ≤ b ∧ b ≤ 4 then 64 else if b = 5 then 16 else 0)
  else if a < b ∧ b ≤ 4 ∧ a % 2 ≠ b % 2 then 32 else 0

/-- Does an entry keep the limits of its bundle (Table 12.4)? -/
def planEntryOk (e : W64) : Bool :=
  let (a, b) := planDies e
  let n := bundleSize a b
  let c := planCount e
  n != 0 && bits e.toNat 63 48 == 0 && c 0 + c 1 + c 2 + c 3 + c 4 == n && decide (1 ≤ c 0) &&
    (if a = 0 && b = 5 then c 1 == 0 && c 2 == 0 && c 3 == 0 && decide (1 ≤ c 4)
     else if a = 0 then decide (1 ≤ c 1) && decide (1 ≤ c 2) && decide (1 ≤ c 3) && c 4 == 0
     else c 3 == 0 && c 4 == 0)

/-- Does a plan name each of the nine bundles once, each within its limits? -/
def planOk (p : List W64) : Bool :=
  p.length == 9 && p.all planEntryOk && (p.map planDies).eraseDups.length == 9

/-- The plan in force for the bundle that joins two dies. -/
def State.bundlePlan (s : State) (x y : Nat) : Option W64 :=
  s.chip.lanePlan.find? fun e => planDies e == (min x y, max x y)

/-- The index of the first Phrase of a role (R313). -/
def roleStart (e : W64) (role : Nat) : Nat := ((List.range role).map (planCount e)).foldl (· + ·) 0

/-- Phrases of a role, in ascending index. -/
def rolePhrases (e : W64) (role : Nat) : List Nat := (List.range (planCount e role)).map (roleStart e role + ·)

/-- The role of a Phrase. -/
def phraseRole (e : W64) (idx : Nat) : Nat :=
  ((List.range 5).find? fun r => decide (idx < roleStart e (r + 1))).getD 4

/-! ### Phrases -/

/-- Key of the direction that `die` sends toward `peer`. -/
def phraseKey (die peer idx : Nat) : Nat := (die * 8 + peer) * 64 + idx
/-- One direction. -/
def State.phrase (s : State) (die peer idx : Nat) : Phrase := sget {} s.phrases (phraseKey die peer idx)
/-- Change one direction. -/
def State.updPhrase (s : State) (die peer idx : Nat) (f : Phrase → Phrase) : State :=
  { s with phrases := supd {} (phraseKey die peer idx) f s.phrases }

/-- Does a Phrase exist and carry a role? -/
def State.phraseLive (s : State) (die peer idx : Nat) : Bool :=
  s.chip.planInForce && decide (idx < bundleSize (min die peer) (max die peer)) && !s.chip.lost.getLsbD die &&
    !s.chip.lost.getLsbD peer

/-- Phrases of a role that are up. -/
def State.upPhrases (s : State) (src dst role : Nat) : List Nat :=
  match s.bundlePlan src dst with
  | none => []
  | some e => (rolePhrases e role).filter fun i => (s.phrase src dst i).state == 0

/-- Groups sent and not yet acknowledged (R306). -/
def Phrase.outstanding (p : Phrase) : Nat := (p.group - p.acked - 1).toNat

/-- Can a direction take a message of `flits` flits: 64 unacknowledged groups at most, and a free buffer for each flit
(R305, R306)? -/
def Phrase.takes (p : Phrase) (flits : Nat) : Bool :=
  decide (p.outstanding + cdiv flits 8 ≤ 64) && decide ((p.flits - p.credits).toNat + flits ≤ 256)

/-- The write of a message that `dst` accepts from the Phrases of `src`: into its own memory, or through the hub into host
memory or into a guest's window, which an outbound window must hold (R330). An absent die takes none (R33). -/
def phraseWrite (src dst a : Nat) (data : List Byte) (s : State) : State :=
  let u := unitAddr src (104 + dst) 0
  if data.isEmpty || regionOf a == .reserved || (dst ≠ 0 && a / 2 ^ 40 ≠ dst) then s
  else if a < 2 ^ 47 && s.absent (a / 2 ^ 40) then dieAbsent u 0 none (a / 2 ^ 40) a s
  else if isGuest a then
    if a % 64 ≠ 0 || !s.outbound a data.length true then addrFault u 0 none a s
    else guestRequest a data.length true 0 0 data s
  else if a ≥ 2 ^ 47 || a / 2 ^ 40 = dst then s.putWhole none u 0 a data
  else s

/-! ### Groups and messages (R304, R307, R308) -/

/-- CRC-24 with polynomial 0x864CFB over the low `n` bits of a word, most significant bit first. -/
def crc24 (x : Nat) : Nat → Nat → Nat
  | 0, c => c
  | n + 1, c =>
    let top := (c / 2 ^ 23 + x / 2 ^ n) % 2
    crc24 x n ((c * 2 % 2 ^ 24) ^^^ (if top = 1 then 0x864CFB else 0))

/-- The flits of a message: its header, then its data, 32 bytes in each. -/
def messageFlits (header : BitVec 256) (data : List Byte) : List Nat :=
  header.toNat :: (chunksOf 32 data.length data).map fun bs => leNat (fit 32 bs)

/-- The CRC-24 of a group: its valid bits, then its valid flits in slot order (log 107). -/
def groupCrc (flits : List Nat) : Nat :=
  flits.foldl (fun c x => crc24 x 256 c) (crc24 (2 ^ flits.length - 1) 8 0xB704CE)

/-- Does the CRC of every group of a message match, the message taking the slots of its groups from the first? -/
def messageOk (header : BitVec 256) (data : List Byte) (crcs : List (BitVec 24)) : Bool :=
  let flits := messageFlits header data
  (chunksOf 8 flits.length flits).map groupCrc == crcs.map fun c => c.toNat

/-- Does a role carry writes of die `src` to this place (Tables 1.6 and 12.2)? Firmware alone, on the hub, loads instruction
memory and Inflector code. -/
def roleCarries (src role : Nat) (a : Nat) : Bool :=
  match role, regionOf a with
  | 0, .instrMem _ _ => src == 0
  | 0, .inflSram _ => src == 0
  | 0, .parser => true
  | 1, .hbm _ _ => true
  | 1, .cellStore _ _ => true
  | 1, .transfer => true
  | 1, .host => true
  | 1, .guest _ => true
  | 2, .hbm _ _ => true
  | 2, .transfer => true
  | 3, .hbm _ _ => true
  | 3, .transfer => true
  | 3, .clauseStore => true
  | 4, .transfer => true
  | 4, .contexts => true
  | _, _ => false

/-- The Phrase that carries the next message of a channel (R308). -/
def State.turn (s : State) (src dst role : Nat) : Nat :=
  let up := s.upPhrases src dst role
  up.getD (sget 0 s.channels (phraseKey src dst role) % up.length) 0

/-- Can the next message of a channel, of `flits` flits, be sent now: its role has a Phrase that is up, which takes it? -/
def State.canSend (s : State) (src dst role flits : Nat) : Bool :=
  !(s.upPhrases src dst role).isEmpty && (s.phrase src dst (s.turn src dst role)).takes flits

/-- Flits of a message. -/
def PhraseMsg.flits (m : PhraseMsg) : Nat := 1 + cdiv m.data.length 32

/-- Ask for a resend from the first group that is not accepted (R306). -/
def resendFrom (die peer idx : Nat) (s : State) : State :=
  s.send (.flowControl die peer idx ((s.phrase die peer idx).acked + 1).toNat)

/-- The messages of a channel that no Phrase carries yet are sent, in order, as far as its Phrases take them. A failed CRC
counts as a failure of its group and causes a resend; what a Phrase carries behind it is not accepted before it (R306). -/
def issueAll (src dst role : Nat) : List PhraseMsg → List PhraseMsg → State → List PhraseMsg × State
  | done, [], s => (done, s)
  | done, m :: t, s =>
    if m.sent then issueAll src dst role (done ++ [m]) t s
    else if !s.canSend src dst role m.flits then (done ++ m :: t, s)
    else
      let idx := s.turn src dst role
      let next := (s.phrase src dst idx).group + BitVec.ofNat 8 (cdiv m.flits 8)
      let s := s.updPhrase src dst idx fun p =>
        { p with group := next, flits := p.flits + BitVec.ofNat 10 m.flits
                 fails := p.fails + bit (!m.crcOk), failed := p.failed || !m.crcOk }
      let s := { s with channels := supd 0 (phraseKey src dst role) (· + 1) s.channels }
      let s := if m.crcOk then s else resendFrom src dst idx s
      let m := { m with sent := true, idx := idx, last := next - 1
                        accepted := m.crcOk && done.all fun x => x.idx != idx || x.accepted }
      issueAll src dst role (done ++ [m]) t s

/-- Perform the messages at the head of a channel that have been accepted, by `land`. -/
def landMessages (land : PhraseMsg → State → State) : List PhraseMsg → State → State × List PhraseMsg
  | [], s => (s, [])
  | m :: t, s => if m.accepted then landMessages land t (land m s) else (s, m :: t)

/-- A channel's messages after `f`: what can be sent is sent, and what is accepted and has nothing before it is performed in the
order of issue. -/
def settleChannel (land : PhraseMsg → State → State) (src dst role : Nat) (f : List PhraseMsg → List PhraseMsg) (s : State) :
    State :=
  let ch := phraseKey src dst role
  let (q, s) := issueAll src dst role [] (f (sget [] s.inFlight ch)) s
  let (s', rest) := landMessages land q s
  { s' with inFlight := sset [] ch rest s'.inFlight }

/-- Does the hub pass a write from `src` on to another compute die, over the second hub bundle of its role (R315)? -/
def hubForwards (src dst role a : Nat) : Bool :=
  let d := a / 2 ^ 40
  dst == 0 && (role == 1 || role == 2) && decide (1 ≤ d ∧ d ≤ 4) && d != src

/-- A message enters its channel. -/
def sendMessage (land : PhraseMsg → State → State) (src dst role a : Nat) (data : List Byte) (ok : Bool) (s : State) :
    State :=
  settleChannel land src dst role (fun q => q ++ [⟨false, 0, 0, ok, false, a, data⟩]) s

/-- What an accepted message does: its write, or the second hop through the hub, where the hub is the sender and the message
waits for a Phrase of its role (R306, R308, R315). -/
def performMessage (src dst role : Nat) (m : PhraseMsg) (s : State) : State :=
  let d := m.addr / 2 ^ 40
  if hubForwards src dst role m.addr then
    if s.absent d then dieAbsent (unitAddr 0 (104 + d) 0) 0 none d m.addr s
    else sendMessage (fun m => phraseWrite 0 d m.addr m.data) 0 d role m.addr m.data true s
  else phraseWrite src dst m.addr m.data s

/-- What waits on the channel of the role that Phrase `idx` carries is sent and performed, after `f` on its messages. -/
def settlePhrase (src dst idx : Nat) (f : List PhraseMsg → List PhraseMsg) (s : State) : State :=
  match s.bundlePlan src dst with
  | none => s
  | some e =>
    let r := phraseRole e idx
    settleChannel (performMessage src dst r) src dst r f s

/-- PHRASE_MESSAGE: message i of a role goes over the (i mod n)-th Phrase of the role that is up (R308), and its write is
performed whole, in the order of issue, once the CRC of every group has matched (R304, R307). -/
def execPhraseMessage (src dst : Fin 8) (role : Fin 5) (addr : BitVec 48) (m : PhraseFlits) (s : State) :
    Host.Outcome State Fault Refusal :=
  let waiting := (sget [] s.inFlight (phraseKey src.val dst.val role.val)).any fun x => !x.sent
  .next (if m.data.length > 4096 || waiting || !s.phraseLive src.val dst.val (s.turn src.val dst.val role.val) ||
      !s.canSend src.val dst.val role.val (1 + cdiv m.data.length 32) ||
      !(m.data.isEmpty || roleCarries src.val role.val addr.toNat) then s
    else sendMessage (performMessage src.val dst.val role.val) src.val dst.val role.val addr.toNat m.data
      (messageOk m.header m.data m.crcs) s)

/-! ### Flow control (R305, R306) -/

/-- CRC-8 with polynomial 0x07 over the low `n` bits of a word, most significant bit first. -/
def crc8 (x : Nat) : Nat → Nat → Nat
  | 0, c => c
  | n + 1, c =>
    let top := (c / 128 + x / 2 ^ n) % 2
    crc8 x n ((c * 2 % 256) ^^^ (if top = 1 then 0x07 else 0))

/-- PHRASE_FLOW_CONTROL: a word for the direction that `die` sends. ACK_GROUP and CREDITS are cumulative; what ACK_GROUP
covers has been accepted, idle groups among it (log 107). NAK resends, and a group's failures are counted until it is
acknowledged; one whose CRC failure has been counted already is not counted again. -/
def execPhraseFlowControl (die peer : Fin 8) (idx : Fin 64) (word : W32) (s : State) :
    Host.Outcome State Fault Refusal :=
  let w := word.toNat
  let p := s.phrase die.val peer.val idx.val
  .next (if !s.phraseLive die.val peer.val idx.val || p.state = 2 || crc8 (w % 2 ^ 24) 24 0 ≠ bits w 31 24 then s
    else
      let ack := BitVec.ofNat 8 (bits w 23 16)
      let step := (ack - p.acked).toNat
      let good := decide (step ≤ 64)
      let covered (m : PhraseMsg) : Bool :=
        good && m.sent && m.idx == idx.val && decide ((m.last - p.acked).toNat ≤ step) && decide (p.outstanding ≥ (m.last - p.acked).toNat)
      let q := { p with credits := BitVec.ofNat 10 (bits w 9 0) }
      let q := if good && step != 0 then
          { q with acked := ack, group := if step > p.outstanding then ack + 1 else p.group, fails := 0 }
        else q
      let resend := bitAt w 15 && good && q.outstanding != 0
      let again := resend && !(p.failed && step == 0)
      let q := { q with fails := q.fails + bit again, failed := q.failed && !resend && step == 0 }
      let q := if bitAt w 14 && q.state == 0 then { q with state := 3 } else q
      let s := s.updPhrase die.val peer.val idx.val fun _ => q
      let s := if again then resendFrom die.val peer.val idx.val s else s
      settlePhrase die.val peer.val idx.val
        (fun ms => ms.map fun m => if covered m then { m with accepted := true } else m) s)

/-- Both directions of a Phrase change. -/
def bothWays (die peer idx : Nat) (f : Phrase → Phrase) (s : State) : State :=
  (s.updPhrase die peer idx f).updPhrase peer die idx f

/-- PHRASE_RETRAIN: a group has failed 8 times, or the receiver asks; both directions of the Phrase retrain (R303). -/
def execPhraseRetrain (die peer : Fin 8) (idx : Fin 64) (s : State) : Host.Outcome State Fault Refusal :=
  let p := s.phrase die.val peer.val idx.val
  .next (if s.phraseLive die.val peer.val idx.val && (p.state == 3 || (p.state == 0 && decide (p.fails ≥ 8))) then
      bothWays die.val peer.val idx.val (fun p => { p with state := 1, attempts := 0 }) s
    else s)

/-! ### Losing a die (R309, R320, R321, Table 12.8) -/

/-- What die `d` held is lost: its memory, its engines and the Tenses of its stages (R218, R321). -/
def clearDie (d : Nat) (s : State) : State :=
  let s := forget (fun a => a / 2 ^ 40 == d && decide (a < 2 ^ 47)) s
  let s := { s with engines := s.engines.filter fun e => dieOf e.1 != d }
  if d = 5 then s.updIngest fun g => { g with slots := [], failedReads := [], contexts := [], retries := [], pins := [] }
  else
    let lose (v : Nat) (s : State) : State :=
      let s := s.updStage v fun g =>
        { g with tenses := [], viewForward := none, viewBackward := none, flip := none, update := {}, dig := .idle
                 digValue := 0, digLen := 0, committing := none, exec := none }
      forEach (s.stage v).cellKeys (fun k s => s.updEng k EngineState.halt) s
    forEach (s.loadedStages.filter fun v => (s.stage v).image.die == d) lose s

/-- Die `d` is marked lost: the event, the record, and its effect. -/
def loseDie (d mask : Nat) (s : State) : State :=
  let u := unitAddr d 119 0
  let s := raise 0x0503 u 0 [(1, d)] s
  let s := noteRecord ⟨u, 0, 0, 16, 1, 0xFFFF, 0xFFFF, d, mask⟩ s
  let s := forEach (s.loadedStages.filter fun v => (s.stage v).image.die == d) (fun v s => haltStage v 0x0503 true s) s
  let s := { s with inFlight := s.inFlight.filter fun x => x.1 / 512 != d && x.1 / 64 % 8 != d }
  clearDie d (s.updChip fun c => { c with lost := c.lost ||| (1#8 <<< d) })

/-- DIE_LOST: no Phrase of a bundle shows a clock edge for 2 µs. -/
def execDieLost (d : Fin 8) (mask : Byte) (s : State) : Host.Outcome State Fault Refusal :=
  .next (if s.chip.bringup < 3 || d.val = 0 || d.val > 5 || s.chip.lost.getLsbD d.val then s
    else loseDie d.val mask.toNat s)

/-- Does a hub bundle keep an up Phrase in every role that its plan assigns (R309)? -/
def State.bundleServes (s : State) (d : Nat) : Bool :=
  match s.bundlePlan 0 d with
  | none => true
  | some e => (List.range 5).all fun r => planCount e r == 0 ||
      (rolePhrases e r).any fun i => (s.phrase 0 d i).state != 2 && (s.phrase d 0 i).state != 2

/-- A Phrase that has trained again: its groups are numbered from 0, what was not acknowledged first (R304, R306). -/
def Phrase.retrained (p : Phrase) : Phrase :=
  { p with state := 0, attempts := 0, fails := 0, failed := false, group := BitVec.ofNat 8 p.outstanding, acked := 255 }

/-- One direction of a Phrase is up again: what it had not delivered keeps its place, under the new numbers. -/
def phraseBack (src dst idx : Nat) (s : State) : State :=
  let old := (s.phrase src dst idx).acked
  settlePhrase src dst idx (fun ms => ms.map fun m =>
      if m.sent && m.idx == idx && !m.accepted then { m with last := m.last - old - 1 } else m)
    (s.updPhrase src dst idx Phrase.retrained)

/-- Has a role of a bundle lost every Phrase that its plan assigns it (R309)? -/
def State.roleLost (s : State) (src dst role : Nat) : Bool :=
  match s.bundlePlan src dst with
  | none => false
  | some e => (rolePhrases e role).all fun i => (s.phrase src dst i).state == 2

/-- One direction of a Phrase is DOWN: its unaccepted messages are sent first, in order, on the Phrases that remain. A ring
bundle whose role has none goes through the hub (R309, R315). -/
def phraseGone (src dst idx : Nat) (s : State) : State :=
  let again (m : PhraseMsg) : PhraseMsg :=
    if m.sent && m.idx == idx && !m.accepted then { m with sent := false, crcOk := true } else m
  match s.bundlePlan src dst with
  | none => s
  | some e =>
    let r := phraseRole e idx
    if src ≠ 0 && dst ≠ 0 && s.roleLost src dst r then
      let ms := (sget [] s.inFlight (phraseKey src dst r)).map again
      settleChannel (performMessage src 0 r) src 0 r (· ++ ms)
        { s with inFlight := sset [] (phraseKey src dst r) [] s.inFlight }
    else settleChannel (performMessage src dst r) src dst r (fun ms => ms.map again) s

/-- PHRASE_RETRAIN_END: the Phrase is up again, tries again, or after 3 failed attempts is DOWN at both ends. -/
def execPhraseRetrainEnd (die peer : Fin 8) (idx : Fin 64) (ok : Bool) (resends : W32) (s : State) :
    Host.Outcome State Fault Refusal :=
  let p := s.phrase die.val peer.val idx.val
  .next (if !s.phraseLive die.val peer.val idx.val || p.state ≠ 1 then s
    else if ok then phraseBack peer.val die.val idx.val (phraseBack die.val peer.val idx.val s)
    else if p.attempts + 1 < 3 then bothWays die.val peer.val idx.val (fun p => { p with attempts := p.attempts + 1 }) s
    else
      let s := bothWays die.val peer.val idx.val (fun p => { p with state := 2, attempts := 0, fails := 0 }) s
      let u := unitAddr die.val (104 + peer.val) idx.val
      let s := raise 0x0501 u 0 [] s
      let s := noteRecord ⟨u, 0, 0, 14, 1, 0xFFFF, 0xFFFF, peer.val + 3 * 256, resends.toNat⟩ s
      let d := max die.val peer.val
      if (die.val = 0 || peer.val = 0) && !s.bundleServes d then loseDie d 0 s
      else phraseGone peer.val die.val idx.val (phraseGone die.val peer.val idx.val s))

/-! ### Rediscovery (R321, R322) -/

/-- Does a die's answer match the manifest (R317, R319)? -/
def answerOk (s : State) (a : DieAnswer) : Bool :=
  a.type == Config.siteType a.die.val && a.serial == Config.siteSerial a.die.val &&
    (a.die.val == 5 || (a.grade.toNat == Config.fusedGrade && decide (s.grade ≤ Config.fusedGrade)))

/-- DIE_REJOIN: an answer that differs takes the module out of service; test results count as in any test. -/
def execDieRejoin (a : DieAnswer) (tests : List TestResult) (s : State) : Host.Outcome State Fault Refusal :=
  let d := a.die.val
  .next (if !s.chip.lost.getLsbD d || s.chip.bringup < 3 then s
    else if !answerOk s a then goOutOfService (s.faults.seq.toNat) s
    else
      let s := forEach tests testVerdict s
      let s := { s with phrases := s.phrases.filter fun x => !(x.1 / 512 == d || x.1 / 64 % 8 == d) }
      let s := s.updChip fun c => { c with lost := c.lost &&& ~~~(1#8 <<< d) }
      let s := if d = 5 then s.updIngest fun g => { g with rejoinPending := true } else s
      raiseParser 0x0504 [(1, d)] s)

end Sys2Proof.Machine
end

