-- ==== Sys2Proof/Machine/Apposition.lean ====
section
/-!
DEFINITION. Sys2Proof/Machine/Apposition.lean: the hub side of the Apposition ports and the guest firewall (R323 to
R331), but for guest mailbox commands.
-/
namespace Sys2Proof.Machine

/-! ### The header beat (Table 12.10) -/

/-- CLASS -/
def aClass (h : BitVec 512) : Nat := bits h.toNat 3 0
/-- MBOX -/
def aMbox (h : BitVec 512) : Nat := bits h.toNat 8 8
/-- STATUS -/
def aStatus (h : BitVec 512) : Nat := bits h.toNat 39 32
/-- LEN -/
def aLen (h : BitVec 512) : Nat := bits h.toNat 47 40
/-- TAG -/
def aTag (h : BitVec 512) : Nat := bits h.toNat 63 48
/-- SEQ -/
def aSeq (h : BitVec 512) : W16 := BitVec.ofNat 16 (bits h.toNat 79 64)
/-- ADDR -/
def aAddr (h : BitVec 512) : Nat := bits h.toNat 127 80
/-- CRC -/
def aCrc (h : BitVec 512) : Nat := bits h.toNat 511 480

/-- The unit that names the guest of port `p` (R28). -/
def guestUnit (p : Nat) : Nat := unitAddr (6 + p) 127 0

/-- Data beats that a class takes, by its LEN (Table 12.11); none for a class that does not fit its LEN. -/
def aBeats (h : BitVec 512) : Option Nat :=
  let n := aLen h
  match aClass h with
  | 1 => if 1 ≤ n ∧ n ≤ 64 then some 0 else none
  | 2 => if n ≤ 64 then some n else none
  | 3 => if aStatus h ≠ 0 then some 0 else if n ≤ 64 then some n else none
  | 4 => some 0
  | 5 => if n = 1 then some 1 else none
  | 6 => if n = 1 then some 1 else none
  | 7 => some 0
  | 8 => some 0
  | _ => none

/-- A reserved class, a nonzero reserved field, or a length that its class does not take (R326). -/
def aBad (m : AppMsg) : Bool :=
  let h := m.header.toNat
  bits h 479 128 != 0 || bits h 31 9 != 0 || bits h 7 4 != 0 ||
    (match aBeats m.header with
     | none => true
     | some n => m.data.length != 64 * n)

/-! ### Acknowledging and resending (R326) -/

/-- Send a message that carries no number of its own: ACK or NAK. -/
def appoLink (p cls seq : Nat) (s : State) : State :=
  if (s.ap p).state = 3 then
    s.send (.apposition p (appoSeal (BitVec.ofNat 512 cls) (BitVec.ofNat 16 seq) []) [])
  else s

/-- ACK of the last message received in order. -/
def appoAck (p : Nat) (s : State) : State :=
  appoLink p 8 ((s.ap p).rxSeq - 1).toNat (s.updAp p fun a => { a with sinceAck := 0 })

/-- NAK: the first message to resend is the one that is expected. -/
def appoNak (p : Nat) (s : State) : State := appoLink p 7 (s.ap p).rxSeq.toNat s

/-- At most once per millisecond (R326, R329). -/
def dueMs (last : Option Nat) (now : Nat) : Bool :=
  match last with
  | none => true
  | some t => decide (t + 1000 ≤ now)

/-- Change a port's firewall block. -/
def State.updFw (s : State) (p : Nat) (f : Firewall → Firewall) : State :=
  { s with host := { s.host with firewalls := supd {} p f s.host.firewalls } }

/-- A dropped message is counted; EV_GUEST_PROTOCOL is raised at most once per millisecond per port. -/
def guestProtocol (p : Nat) (s : State) : State :=
  let s := s.updFw p fun f => { f with protoErrors := satInc f.protoErrors }
  if dueMs (s.ap p).protoAt s.chip.uptime.toNat then
    raise 0x0507 (guestUnit p) 0 [] (s.updAp p fun a => { a with protoAt := some s.chip.uptime.toNat })
  else s

/-- A message arrives: its CRC, its number, and its reserved parts; what is in order is acknowledged at least every 64
messages. `go` is what the message does. -/
def appoReceive (p : Nat) (m : AppMsg) (go : State → State) (s : State) : State :=
  if (s.ap p).state ≠ 3 then s
  else if appoCrc m.header m.data ≠ aCrc m.header || aSeq m.header ≠ (s.ap p).rxSeq then
    appoNak p (s.updAp p fun a => { a with rxFails := a.rxFails + 1 })
  else
    let s := s.updAp p fun a => { a with rxSeq := a.rxSeq + 1, sinceAck := a.sinceAck + 1, rxFails := 0 }
    let s := if aBad m then guestProtocol p s else go s
    if (s.ap p).sinceAck ≥ 64 then appoAck p s else s

/-- Is a message of this class? A message of a reserved class is every row's. -/
def aIs (cls : Nat) (m : AppMsg) : Bool := aClass m.header == cls || (aBeats m.header).isNone

/-- Messages sent and not yet acknowledged that stand before number `n`. -/
def Appo.before (a : Appo) (n : W16) : Nat := (a.unacked.findIdx? fun x => aSeq x.1 == n).getD a.unacked.length

/-- Is `n` a number that an acknowledgement or a NAK can name now? -/
def Appo.names (a : Appo) (n : W16) : Bool := n == a.txSeq || a.unacked.any fun x => aSeq x.1 == n

/-- Everything before `n` has been received. -/
def Appo.accept (a : Appo) (n : W16) : Appo :=
  let k := a.before n
  if k = 0 then a else { a with unacked := a.unacked.drop k, fails := 0, retrained := false, attempts := 0 }

/-- Send again everything that is unacknowledged. -/
def appoResend (p : Nat) (s : State) : State :=
  forEach (s.ap p).unacked (fun x s => s.send (.apposition p x.1 x.2)) s

/-- A link message: one whose CRC fails is answered with a NAK, one with a reserved field is dropped, acknowledged and
counted, and the others do `go`. -/
def appoLinkIn (p cls : Nat) (m : AppMsg) (go : State → State) (s : State) : Host.Outcome State Fault Refusal :=
  .next (if (s.ap p).state ≠ 3 || aClass m.header ≠ cls then s
    else if appoCrc m.header m.data ≠ aCrc m.header then appoNak p s
    else if aBad m then guestProtocol p (appoAck p s)
    else go s)

/-- APPOSITION_ACK. -/
def execAppositionAck (p : Fin 2) (m : AppMsg) (s : State) : Host.Outcome State Fault Refusal :=
  appoLinkIn p.val 8 m (fun s =>
    let n := aSeq m.header + 1
    if (s.ap p.val).names n then
      let s := s.updAp p.val fun a => a.accept n
      appoFlush p.val (s.ap p.val).out s
    else s) s

/-- APPOSITION_NAK: go-back-N from the message named. -/
def execAppositionNak (p : Fin 2) (m : AppMsg) (s : State) : Host.Outcome State Fault Refusal :=
  appoLinkIn p.val 7 m (fun s =>
    let n := aSeq m.header
    if (s.ap p.val).names n then
      let s := s.updAp p.val fun a =>
        let a := a.accept n
        if a.unacked.isEmpty then a else { a with fails := a.fails + 1 }
      appoFlush p.val (s.ap p.val).out (appoResend p.val s)
    else s) s

/-- APPOSITION_ACK_TIMER. -/
def execAppositionAckTimer (p : Fin 2) (s : State) : Host.Outcome State Fault Refusal :=
  .next (if (s.ap p.val).sinceAck = 0 || (s.ap p.val).state ≠ 3 then s else appoAck p.val s)

/-! ### DOWN and UP (R323, R324) -/

/-- Does engine `k` wait for answers from a guest? -/
def EngineState.askedGuest (e : EngineState) : Bool :=
  match e.dmaQ with
  | q :: _ => q.issued != 0
  | [] => false

/-- The port goes DOWN: what is in flight is discarded, and the firewall registers keep their contents. A transfer that still
waits for an answer has reached an absent die (R33). -/
def guestDown (p : Nat) (s : State) : State :=
  let lost := (s.ap p).requests.filter fun r => (s.eng r.engine).askedGuest
  let lose (r : GuestReq) (s : State) : State :=
    if (s.eng r.engine).askedGuest then
      let (u, c) := dmaUnit r.engine
      dieAbsent u c (s.stageOf r.engine) (6 + p) r.addr s
    else s
  let s := s.updAp p fun a =>
    { a with state := 1, identOk := false, rate := 0, attempts := 0, fails := 0, retrained := false, txSeq := 0
             rxSeq := 0, rxFails := 0, unacked := [], out := [], sinceAck := 0, requests := [], waiting := [] }
  forEach lost lose (raise 0x0505 (guestUnit p) 0 [(1, p)] s)

/-- GUEST_DOWN: the guest stops clocking. -/
def execGuestDown (p : Fin 2) (s : State) : Host.Outcome State Fault Refusal :=
  .next (if (s.ap p.val).state < 2 then s else guestDown p.val s)

/-- APPOSITION_RETRAIN: a message of either direction has failed 16 times, and the link is retrained; a retrained link that fails again
counts as a failed attempt, and the third takes the port DOWN. -/
def execAppositionRetrain (p : Fin 2) (ok : Bool) (s : State) : Host.Outcome State Fault Refusal :=
  let a := s.ap p.val
  .next (if !(a.state == 2 || (a.state == 3 && (decide (a.fails ≥ 16) || decide (a.rxFails ≥ 16)))) then s
    else
      let n := a.attempts + (if a.state = 3 && a.retrained then 1 else 0) + (if ok then 0 else 1)
      if n ≥ 3 then guestDown p.val s
      else if ok then
        let s := s.updAp p.val fun a => { a with state := 3, fails := 0, rxFails := 0, retrained := true, attempts := n }
        appoFlush p.val (s.ap p.val).out (appoResend p.val s)
      else s.updAp p.val fun a => { a with state := 2, fails := 0, rxFails := 0, retrained := true, attempts := n })

/-- The port comes UP at the highest rate that both ends advertise, up to RATE_CAP. -/
def guestUp (p : Nat) (rate : BitVec 2) (s : State) : State :=
  let r := if rate.toNat ≤ (Config.rateCap (6 + p)).toNat then rate else Config.rateCap (6 + p)
  s.updAp p fun a => { a with state := 3, identOk := true, rate := r, attempts := 0 }

/-- GUEST_UP: a DOWN guest trains again; a wrong identity keeps the port DOWN. -/
def execGuestUp (p : Fin 2) (identity : W64) (rate : BitVec 2) (s : State) : Host.Outcome State Fault Refusal :=
  .next (if (s.ap p.val).state ≠ 1 || rate = 0 || identity ≠ Config.guestId (6 + p.val) then s
    else raise 0x0506 (guestUnit p.val) 0 [(1, p.val)] (guestUp p.val rate s))

/-! ### The firewall's judgement (R329) -/

/-- The firewall block of a port. -/
def State.fw (s : State) (p : Nat) : Firewall := sget {} s.host.firewalls p

/-- WIN_CTRL of a window. -/
def Firewall.winCtrl (f : Firewall) (w : Nat) : Nat := (sget 0 f.windows (4 * w + 2)).toNat

/-- Is a window enabled, valid and inbound, and does it hold a range whole? -/
def Firewall.holds (f : Firewall) (w a n : Nat) : Bool :=
  let c := f.winCtrl w
  bitAt c 0 && !bitAt c 8 && !bitAt c 3 && inRange a n (sget 0 f.windows (4 * w)).toNat (sget 0 f.windows (4 * w + 1)).toNat

/-- Does a range touch an area that firmware holds for a Tense of a stage: full image buffers, views, deltas and the
shard digest table? -/
def Stage.tenseArea (g : Stage) (a n : Nat) : Bool :=
  let len := g.pages * 4096
  (g.image.buffers.any fun b => overlaps a n b len) || overlaps a n g.image.forwardView len ||
    overlaps a n g.image.backwardView len || overlaps a n g.image.deltaArea (8 * alignUp (g.pages * 4100 + 16) 16) ||
    overlaps a n g.image.sdigArea (8 * 512)

/-- The judgement: 0 OK, 1 DENIED, 2 ABSENT, 3 ERROR, at the first check that fails. -/
def judge (s : State) (p : Nat) (write : Bool) (a n : Nat) : Nat :=
  let f := s.fw p
  if !f.ctrl.getLsbD 0 || !f.cls.getLsbD (if write then 1 else 0) then 1
  else if a % 64 ≠ 0 then 3
  else match (List.range 32).find? fun w => f.holds w a n with
    | none => 1
    | some w =>
      if !bitAt (f.winCtrl w) (if write then 2 else 1) then 1
      else if write && !bitAt (f.winCtrl w) 4 && (s.loadedStages.any fun v => (s.stage v).tenseArea a n) then 1
      else if s.absent (a / 2 ^ 40) then 2
      else 0

/-- A request is refused: counted when DENIED, noted, and EV_GUEST_DENIED at most once per millisecond per port. -/
def guestDenied (p status a : Nat) (s : State) : State :=
  let s := s.updFw p fun f =>
    { f with denied := if status = 1 then satInc f.denied else f.denied, lastDenied := BitVec.ofNat 64 a }
  if dueMs (s.ap p).deniedAt s.chip.uptime.toNat then
    raise 0x0508 (guestUnit p) 0 [] (s.updAp p fun a => { a with deniedAt := some s.chip.uptime.toNat })
  else s

/-- A guest read: data, or a STATUS. -/
def guestRead (p : Nat) (h : BitVec 512) (s : State) : State :=
  let n := 64 * aLen h
  match judge s p false (aAddr h) n with
  | 0 =>
    match s.badIn (aAddr h) n with
    | some w => appoSend p 3 (aTag h) 0 3 0 0 [] (memBadNoHalt none w (unitAddr 0 100 p) 0 s)
    | none => appoSend p 3 (aTag h) (aLen h) 0 0 0 (s.load (aAddr h) n) s
  | st => appoSend p 3 (aTag h) 0 st 0 0 [] (guestDenied p st (aAddr h) s)

/-- APPOSITION_READ_REQ. -/
def execAppositionReadReq (p : Fin 2) (m : AppMsg) (s : State) : Host.Outcome State Fault Refusal :=
  .next (if aIs 1 m then appoReceive p.val m (guestRead p.val m.header) s else s)

/-- A guest write: performed, or a STATUS. -/
def guestWrite (p : Nat) (m : AppMsg) (s : State) : State :=
  let h := m.header
  match judge s p true (aAddr h) m.data.length with
  | 0 => appoSend p 4 (aTag h) 0 0 0 0 [] (s.putWhole none (unitAddr 0 100 p) 0 (aAddr h) m.data)
  | st => appoSend p 4 (aTag h) 0 st 0 0 [] (guestDenied p st (aAddr h) s)

/-- APPOSITION_WRITE. -/
def execAppositionWrite (p : Fin 2) (m : AppMsg) (s : State) : Host.Outcome State Fault Refusal :=
  .next (if aIs 2 m then appoReceive p.val m (guestWrite p.val m) s else s)

/-! ### Answers to the hub (R325) -/

/-- Does engine `k` still wait for an answer that goes to `a`? -/
def State.awaits (s : State) (r : GuestReq) : Bool :=
  match (s.eng r.engine).dmaQ with
  | q :: _ => q.issued != 0 && inRange r.place r.len q.dst q.len
  | [] => false

/-- Read data goes where its request says; the contents of an answer that carries a STATUS instead of data are free
values (log 3). -/
def guestAnswer (p : Nat) (m : AppMsg) (s : State) : State :=
  match (s.ap p).requests.find? fun r => r.tag == aTag m.header && !r.write with
  | none => s
  | some r =>
    let s := s.updAp p fun a => { a with requests := a.requests.erase r }
    if !s.awaits r then s
    else
      let bs := if aStatus m.header = 0 then fit r.len m.data else s.freeBytes r.len
      let s := if aStatus m.header = 0 then s else { s with freeCount := s.freeCount + r.len }
      if s.absent (r.place / 2 ^ 40) && r.place < 2 ^ 47 then
        dieAbsent (dmaUnit r.engine).1 (dmaUnit r.engine).2 (s.stageOf r.engine) (r.place / 2 ^ 40) r.place s
      else if isGuest r.place then guestRequest r.place r.len true 0 r.engine bs s
      else s.putWhole (s.stageOf r.engine) (dmaUnit r.engine).1 (dmaUnit r.engine).2 r.place bs

/-- APPOSITION_READ_DATA. -/
def execAppositionReadData (p : Fin 2) (m : AppMsg) (s : State) : Host.Outcome State Fault Refusal :=
  .next (if aIs 3 m then appoReceive p.val m (guestAnswer p.val m) s else s)

/-- APPOSITION_WRITE_ACK. -/
def execAppositionWriteAck (p : Fin 2) (m : AppMsg) (s : State) : Host.Outcome State Fault Refusal :=
  .next (if aIs 4 m then
      appoReceive p.val m (fun s => s.updAp p.val fun a =>
        { a with requests := a.requests.eraseP fun r => r.tag == aTag m.header && r.write }) s
    else s)

/-! ### Guest events (R331) -/

/-- An admitted EVENT is raised with the port and its 64 bytes; above 1 000 in a second they are counted instead. -/
def guestEventIn (p : Nat) (m : AppMsg) (s : State) : State :=
  let f := s.fw p
  if !f.ctrl.getLsbD 0 || !f.cls.getLsbD 3 then guestDenied p 1 (aAddr m.header) s
  else
    let sec := s.chip.uptime.toNat / 1000000
    let s := s.updAp p fun a => if a.eventSecond = sec then a else { a with eventSecond := sec, events := 0 }
    if (s.ap p).events ≥ 1000 then s.updFw p fun f => { f with protoErrors := satInc f.protoErrors }
    else
      raise 0x0509 (guestUnit p) 0 ((1, p) :: m.data.map fun b => (1, b.toNat))
        (s.updAp p fun a => { a with events := a.events + 1 })

/-- APPOSITION_EVENT. -/
def execAppositionEvent (p : Fin 2) (m : AppMsg) (s : State) : Host.Outcome State Fault Refusal :=
  .next (if aIs 6 m then appoReceive p.val m (guestEventIn p.val m) s else s)

end Sys2Proof.Machine
end

