-- ==== Sys2Proof/Machine/Crypto.lean ====
section
/-!
DEFINITION. Sys2Proof/Machine/Crypto.lean: SHA-256 (FIPS 180-4) and RSASSA-PSS with SHA-256, MGF1 and a salt of 32 bytes for
RSA-3072 keys (RFC 8017), which R395 names for every signature, and R397, R400 and R405 for every digest.
-/
namespace Sys2Proof.Machine

/-! ### SHA-256 -/

/-- The 64 constants of the compression function. -/
def shaK : List Nat :=
  [0x428A2F98, 0x71374491, 0xB5C0FBCF, 0xE9B5DBA5, 0x3956C25B, 0x59F111F1, 0x923F82A4, 0xAB1C5ED5,
   0xD807AA98, 0x12835B01, 0x243185BE, 0x550C7DC3, 0x72BE5D74, 0x80DEB1FE, 0x9BDC06A7, 0xC19BF174,
   0xE49B69C1, 0xEFBE4786, 0x0FC19DC6, 0x240CA1CC, 0x2DE92C6F, 0x4A7484AA, 0x5CB0A9DC, 0x76F988DA,
   0x983E5152, 0xA831C66D, 0xB00327C8, 0xBF597FC7, 0xC6E00BF3, 0xD5A79147, 0x06CA6351, 0x14292967] ++
  [0x27B70A85, 0x2E1B2138, 0x4D2C6DFC, 0x53380D13, 0x650A7354, 0x766A0ABB, 0x81C2C92E, 0x92722C85,
   0xA2BFE8A1, 0xA81A664B, 0xC24B8B70, 0xC76C51A3, 0xD192E819, 0xD6990624, 0xF40E3585, 0x106AA070,
   0x19A4C116, 0x1E376C08, 0x2748774C, 0x34B0BCB5, 0x391C0CB3, 0x4ED8AA4A, 0x5B9CCA4F, 0x682E6FF3,
   0x748F82EE, 0x78A5636F, 0x84C87814, 0x8CC70208, 0x90BEFFFA, 0xA4506CEB, 0xBEF9A3F7, 0xC67178F2]

/-- The initial hash value. -/
def shaH0 : List W32 :=
  [0x6A09E667, 0xBB67AE85, 0x3C6EF372, 0xA54FF53A, 0x510E527F, 0x9B05688C, 0x1F83D9AB, 0x5BE0CD19]

/-- The message with its padding: a one bit, zeros to a multiple of 64 bytes, and its length in bits. -/
def shaPad (bs : List Byte) : List Byte :=
  let n := bs.length
  bs ++ 0x80 :: (List.replicate ((119 - n % 64) % 64) 0 ++ beBytes 8 (8 * n))

/-- The working variables a to h, and the next 16 words of the message schedule. -/
structure ShaRun where
  vars : List W32
  words : List W32

/-- One round: the schedule's first word is used, and the word 16 places on takes its place at the end. -/
def shaRound (r : ShaRun) (k : Nat) : ShaRun :=
  let v (i : Nat) : W32 := r.vars.getD i 0
  let w (i : Nat) : W32 := r.words.getD i 0
  let (a, e) := (v 0, v 4)
  let t1 := v 7 + (e.rotateRight 6 ^^^ e.rotateRight 11 ^^^ e.rotateRight 25) + ((e &&& v 5) ^^^ (~~~e &&& v 6)) +
    BitVec.ofNat 32 k + w 0
  let t2 := (a.rotateRight 2 ^^^ a.rotateRight 13 ^^^ a.rotateRight 22) + ((a &&& v 1) ^^^ (a &&& v 2) ^^^ (v 1 &&& v 2))
  let (x, y) := (w 1, w 14)
  let next := (y.rotateRight 17 ^^^ y.rotateRight 19 ^^^ y >>> 10) + w 9 + (x.rotateRight 7 ^^^ x.rotateRight 18 ^^^ x >>> 3) + w 0
  ⟨[t1 + t2, a, v 1, v 2, v 3 + t1, e, v 5, v 6], r.words.drop 1 ++ [next]⟩

/-- One block of 64 bytes. -/
def shaBlock (h : List W32) (block : List Byte) : List W32 :=
  let words := (chunksOf 4 16 block).map fun b => BitVec.ofNat 32 (beNat b)
  (h.zip (shaK.foldl shaRound ⟨h, words⟩).vars).map fun x => x.1 + x.2

/-- SHA-256 of a message, as 32 bytes. -/
@[irreducible] def sha256 (bs : List Byte) : List Byte :=
  let m := shaPad bs
  ((chunksOf 64 m.length m).foldl shaBlock shaH0).flatMap fun x => beBytes 4 x.toNat

/-! ### RSASSA-PSS for a modulus of 3 072 bits -/

/-- Bytes of the modulus. -/
def rsaLen : Nat := 384

/-- `b ^ e mod n`, over the binary digits of `e`. -/
def powMod (n : Nat) : Nat → Nat → Nat → Nat
  | 0, _, _ => 1 % n
  | fuel + 1, b, e =>
    if e = 0 then 1 % n
    else
      let r := powMod n fuel (b * b % n) (e / 2)
      if e % 2 = 1 then r * b % n else r

/-- MGF1 with SHA-256. -/
def mgf1 (seed : List Byte) (n : Nat) : List Byte :=
  ((List.range (cdiv n 32)).flatMap fun i => sha256 (seed ++ beBytes 4 i)).take n

/-- Two byte strings, exclusive or. -/
def xorList (a b : List Byte) : List Byte := (a.zip b).map fun x => x.1 ^^^ x.2

/-- H of EMSA-PSS for a message and a salt. -/
def pssHash (msg salt : List Byte) : List Byte := sha256 (List.replicate 8 0 ++ sha256 msg ++ salt)

/-- EMSA-PSS: the encoded message of 3 071 bits, in 384 bytes. -/
def pssEncode (msg salt : List Byte) : List Byte :=
  let h := pssHash msg salt
  let db := xorList (List.replicate 318 0 ++ 0x01 :: salt) (mgf1 h 351)
  (db.headD 0 &&& 0x7F) :: db.drop 1 ++ h ++ [0xBC]

/-- Sign a message with a private key (modulus and exponent) and a salt of 32 bytes. -/
def pssSign (n d : Nat) (msg salt : List Byte) : List Byte :=
  beBytes rsaLen (powMod n 3072 (beNat (pssEncode msg salt)) d)

/-- Does a signature of 384 bytes verify under a public key? -/
def pssVerify (n e : Nat) (msg sig : List Byte) : Bool :=
  let s := beNat sig
  let em := beBytes rsaLen (powMod n 3072 s e)
  let h := (em.drop 351).take 32
  let db := xorList (em.take 351) (mgf1 h 351)
  let db := (db.headD 0 &&& 0x7F) :: db.drop 1
  sig.length == rsaLen && decide (s < n) && decide (powMod n 3072 s e < 2 ^ 3071) && em.getD 383 0 == 0xBC &&
    db.take 319 == List.replicate 318 0 ++ [0x01] && h == pssHash msg (db.drop 319)

end Sys2Proof.Machine
end

