-- ==== Sys2Proof/Machine/Demux.lean ====
section
/-!
DEFINITION. Sys2Proof/Machine/Demux.lean: what the demultiplexers make of a source object (R280, Table 11.3): packets of a
transport stream, PAT and PMT, and PES packets.
-/
namespace Sys2Proof.Machine

/-! ### Transport packets -/

/-- A byte of a list, as a number. -/
def byteAt (bs : List Byte) (i : Nat) : Nat := (bs.getD i 0).toNat

/-- Two bytes, the first the more significant. -/
def be16 (bs : List Byte) (i : Nat) : Nat := byteAt bs i * 256 + byteAt bs (i + 1)

/-- Bytes between packet starts, by CONTAINER: the prefix of 192-byte packets comes first, the parity of 204-byte ones last. -/
def packetStride (container : Nat) : Nat := if container = 0 then 188 else if container = 1 then 192 else 204

/-- A transport packet with its index. -/
structure TsPacket where
  index : Nat
  bytes : List Byte
deriving DecidableEq, Repr

/-- The packets of an object. -/
def tsPackets (container : Nat) (obj : List Byte) : List TsPacket :=
  let skip := if container = 1 then 4 else 0
  ((number 0 (chunksOf (packetStride container) obj.length obj)).map fun x => ⟨x.1, (x.2.drop skip).take 188⟩).filter
    fun p => p.bytes.length == 188

/-- Does a packet begin with the sync byte? -/
def TsPacket.sync (p : TsPacket) : Bool := byteAt p.bytes 0 == 0x47
/-- PID -/
def TsPacket.pid (p : TsPacket) : Nat := be16 p.bytes 1 % 8192
/-- payload_unit_start_indicator -/
def TsPacket.starts (p : TsPacket) : Bool := bitAt (byteAt p.bytes 1) 6
/-- transport_scrambling_control other than 0b00 -/
def TsPacket.scrambled (p : TsPacket) : Bool := p.sync && byteAt p.bytes 3 / 64 != 0
/-- Does a packet carry payload? -/
def TsPacket.carries (p : TsPacket) : Bool := bitAt (byteAt p.bytes 3) 4
/-- continuity_counter -/
def TsPacket.counter (p : TsPacket) : Nat := byteAt p.bytes 3 % 16
/-- The payload, behind the adaptation field. -/
def TsPacket.payload (p : TsPacket) : List Byte :=
  if p.carries then p.bytes.drop (if bitAt (byteAt p.bytes 3) 5 then 5 + byteAt p.bytes 4 else 4) else []

/-- The packets of a PID that can be used: in sync and not scrambled. -/
def pidPackets (pid : Nat) (ps : List TsPacket) : List TsPacket := ps.filter fun p => p.sync && !p.scrambled && p.pid == pid

/-- Gaps of the continuity counter of one PID; a repeated packet is none. -/
def counterGaps : List TsPacket → Nat
  | p :: q :: t =>
    (if p.carries && q.carries && q.counter != (p.counter + 1) % 16 && q.counter != p.counter then 1 else 0) +
      counterGaps (q :: t)
  | _ => 0

/-- Packets that have lost their sync byte. -/
def syncLosses (ps : List TsPacket) : Nat := (ps.filter fun p => !p.sync).length

/-! ### PSI -/

/-- CRC-32 of PSI sections: polynomial 0x04C11DB7, most significant bit first, initial value all ones. -/
def crcMpeg : List Byte → Nat → Nat
  | [], c => c
  | b :: t, c =>
    let step (c : Nat) (i : Nat) : Nat :=
      let top := (c / 2 ^ 31 + b.toNat / 2 ^ (7 - i)) % 2
      (c * 2 % 2 ^ 32) ^^^ (if top = 1 then 0x04C11DB7 else 0)
    crcMpeg t ((List.range 8).foldl step c)

/-- The PSI bytes of a PID: what follows the first pointer, then every payload without its pointer field. -/
def psiBytes : Bool → List TsPacket → List Byte
  | _, [] => []
  | begun, p :: t =>
    let x := p.payload
    if p.starts then (x.drop (if begun then 1 else 1 + byteAt x 0)) ++ psiBytes true t
    else (if begun then x else []) ++ psiBytes begun t

/-- The sections in PSI bytes; stuffing stands between them. -/
def sections : Nat → List Byte → List (List Byte)
  | 0, _ => []
  | fuel + 1, bs =>
    if bs.length < 3 then []
    else if byteAt bs 0 = 0xFF then sections fuel (bs.drop 1)
    else
      let n := 3 + be16 bs 1 % 4096
      if bs.length < n then [] else bs.take n :: sections fuel (bs.drop n)

/-- The sections of a PID. -/
def pidSections (pid : Nat) (ps : List TsPacket) : List (List Byte) :=
  let bs := psiBytes false (pidPackets pid ps)
  sections bs.length bs

/-- The first section of a PID with this table_id and a good CRC. -/
def goodSection (pid table : Nat) (ok : List Byte → Bool) (ps : List TsPacket) : Option (List Byte) :=
  (pidSections pid ps).find? fun x => byteAt x 0 == table && crcMpeg x 0xFFFFFFFF == 0 && ok x

/-- Sections of a PID whose CRC fails. -/
def badSections (pid : Nat) (ps : List TsPacket) : Nat := ((pidSections pid ps).filter fun x => crcMpeg x 0xFFFFFFFF != 0).length

/-- program_number and PID of the PMT: the program of the descriptor, or the first in the PAT. -/
def chooseProgram (program : Nat) (ps : List TsPacket) : Option (Nat × Nat) :=
  match goodSection 0 0 (fun _ => true) ps with
  | none => none
  | some x =>
    let body := (x.drop 8).take (x.length - 12)
    let es := (chunksOf 4 body.length body).map fun e => (be16 e 0, be16 e 2 % 8192)
    es.find? fun e => e.1 != 0 && (program == 0 || e.1 == program)

/-- An elementary stream of a PMT: stream_type, PID, and its descriptors. -/
structure PmtStream where
  type : Nat
  pid : Nat
  descriptors : List Byte
deriving DecidableEq, Repr

/-- The entries of a PMT's stream loop. -/
def pmtStreams : Nat → List Byte → List PmtStream
  | 0, _ => []
  | fuel + 1, bs =>
    if bs.length < 5 then []
    else
      let n := be16 bs 3 % 4096
      ⟨byteAt bs 0, be16 bs 1 % 8192, (bs.drop 5).take n⟩ :: pmtStreams fuel (bs.drop (5 + n))

/-- The elementary streams of a PMT section. -/
def streamsOf (x : List Byte) : List PmtStream :=
  let body := (x.drop (12 + be16 x 10 % 4096)).take (x.length - 16 - be16 x 10 % 4096)
  pmtStreams body.length body

/-- Does a descriptor loop hold a descriptor with this tag, whose bytes begin so? -/
def hasDescriptor (tag : Nat) (head : List Byte) : Nat → List Byte → Bool
  | 0, _ => false
  | fuel + 1, bs =>
    if bs.length < 2 then false
    else (byteAt bs 0 == tag && (bs.drop 2).take head.length == head) ||
      hasDescriptor tag head fuel (bs.drop (2 + byteAt bs 1))

/-- The CODEC of a video stream of a supported type (log 108). -/
def videoCodec (x : PmtStream) : Option Nat :=
  match x.type with
  | 0x02 => some 0
  | 0x1B => some 1
  | 0x24 => some 2
  | 0x06 => if hasDescriptor 5 [0x41, 0x56, 0x30, 0x31] x.descriptors.length x.descriptors then some 3 else none
  | _ => none

/-- The AUDIO code of an audio stream of a supported type (log 108). -/
def audioCodec (x : PmtStream) : Option Nat :=
  match x.type with
  | 0x03 => some 0
  | 0x04 => some 0
  | 0x0F => some 1
  | 0x11 => some 1
  | 0x81 => some 3
  | 0x06 => if hasDescriptor 0x6A [] x.descriptors.length x.descriptors then some 3 else none
  | _ => none

/-- The first stream that a test accepts, with what the test gives. -/
def firstStream (f : PmtStream → Option Nat) (xs : List PmtStream) : Option (Nat × Nat) :=
  xs.findSome? fun x => (f x).map fun c => (x.pid, c)

/-! ### PES packets -/

/-- The PES packets of one PID as yet unparsed: the index of their first packet, and their bytes. -/
def gatherPes (ps : List TsPacket) : List (Nat × List Byte) :=
  (ps.foldl (fun acc p =>
    if p.starts then (p.index, p.payload) :: acc
    else match acc with
      | (i, bs) :: t => (i, bs ++ p.payload) :: t
      | [] => []) []).reverse

/-- A PTS or DTS of a PES header, at its five bytes. -/
def ptsAt (bs : List Byte) (i : Nat) : Nat :=
  byteAt bs i / 2 % 8 * 2 ^ 30 + be16 bs (i + 1) / 2 * 2 ^ 15 + be16 bs (i + 3) / 2

/-- The part of an elementary stream that a PES packet carries. -/
def pesPart (stride : Nat) (x : Nat × List Byte) : Option EsPart :=
  let bs := x.2
  if byteAt bs 0 ≠ 0 || byteAt bs 1 ≠ 0 || byteAt bs 2 ≠ 1 then none
  else some ⟨x.1 * stride, x.1, if bitAt (byteAt bs 7) 7 then some (ptsAt bs 9) else none,
    if byteAt bs 7 / 64 = 3 then some (ptsAt bs 14) else none, bs.drop (9 + byteAt bs 8)⟩

/-- The elementary stream of a PID. -/
def elementary (stride pid : Nat) (ps : List TsPacket) : List EsPart :=
  (gatherPes (pidPackets pid ps)).filterMap (pesPart stride)

/-! ### An object -/

/-- What the demultiplexers give for a clip: CODEC, VPID and APID, the timescale, whether its times wrap, the video and the
audio, the AUDIO code, the timescale of the audio, the packets with the PIDs of their PSI, and whether the video is scrambled or encrypted. -/
structure Demuxed where
  codec : Nat
  vpid : Nat
  apid : Nat
  timescale : Nat
  wraps : Bool
  video : List EsPart
  audioCodec : Option Nat
  audio : List EsPart
  audioScale : Nat
  packets : List TsPacket
  psi : List Nat
  scrambled : Bool
deriving DecidableEq, Repr

/-- A code of the descriptor, or the stream's where the descriptor leaves it to the stream. -/
def resolveCode (code found : Nat) : Nat := if code = 15 then found else code

/-- The audio that a descriptor asks for. -/
def resolveAudio (code : Nat) (found : Option (Nat × Nat)) : Option (Nat × Nat) :=
  if code = 14 then none else found.map fun x => (x.1, resolveCode code x.2)

/-- A transport stream; none without a PAT or a usable PMT. -/
def demuxTs (container program codec audio : Nat) (obj : List Byte) : Option Demuxed :=
  let ps := tsPackets container obj
  match chooseProgram program ps with
  | none => none
  | some (n, pmt) =>
    match goodSection pmt 2 (fun x => be16 x 3 == n) ps with
    | none => none
    | some x =>
      match firstStream videoCodec (streamsOf x) with
      | none => none
      | some (vpid, found) =>
        let a := resolveAudio audio (firstStream audioCodec (streamsOf x))
        let apid := (a.map (·.1)).getD 0
        let mine := ps.filter fun p => p.sync && p.pid == vpid && p.carries
        some
          { codec := resolveCode codec found, vpid := vpid, apid := apid, timescale := 90000, wraps := true
            video := elementary (packetStride container) vpid ps
            audioCodec := a.map (·.2)
            audio := if a.isSome then elementary (packetStride container) apid ps else []
            audioScale := 90000
            packets := ps, psi := [0, pmt]
            scrambled := !mine.isEmpty && mine.all TsPacket.scrambled }

/-- The packets from one index to another. -/
def Demuxed.span (m : Demuxed) (a b : Nat) : List TsPacket := m.packets.filter fun p => decide (a ≤ p.index ∧ p.index ≤ b)

/-- Continuity errors in a span: gaps of the video's counter, lost sync bytes, and PSI sections whose CRC fails. -/
def Demuxed.errors (m : Demuxed) (a b : Nat) : Nat :=
  let ps := m.span a b
  counterGaps (pidPackets m.vpid ps) + syncLosses ps + (m.psi.map fun p => badSections p ps).sum

/-- Scrambled packets in a span. -/
def Demuxed.scrambledIn (m : Demuxed) (a b : Nat) : Nat := ((m.span a b).filter TsPacket.scrambled).length

end Sys2Proof.Machine
end

