-- ==== Sys2Proof/Machine/BaseMedia.lean ====
section
/-!
DEFINITION. Sys2Proof/Machine/BaseMedia.lean: the tracks of an ISO base media file, unfragmented and fragmented (R280, Table
11.3). The boxes and their fields are those of ISO/IEC 14496-12 (log 108); edit lists are ignored.
-/
namespace Sys2Proof.Machine

/-! ### Boxes -/

/-- `n` bytes from byte `i`, big-endian. -/
def beAt (bs : List Byte) (i n : Nat) : Nat := beNat ((bs.drop i).take n)
/-- A box type, or a code of four characters. -/
def fourCC (s : String) : Nat := s.toList.foldl (fun a c => a * 256 + c.toNat) 0

/-- A box: its type, where it begins in the object, the length of its header, and what follows the header. -/
structure FileBox where
  type : Nat
  start : Nat
  head : Nat
  body : List Byte
deriving DecidableEq, Repr

/-- The boxes in bytes that begin at offset `o` of the object; a box that is cut short ends them. -/
def boxesFrom : Nat → Nat → List Byte → List FileBox
  | 0, _, _ => []
  | fuel + 1, o, bs =>
    if bs.length < 8 then []
    else
      let size := beAt bs 0 4
      let (h, n) := if size = 1 then (16, beAt bs 8 8) else if size = 0 then (8, bs.length) else (8, size)
      if n < h || bs.length < n then []
      else ⟨beAt bs 4 4, o, h, (bs.take n).drop h⟩ :: boxesFrom fuel (o + n) (bs.drop n)

/-- The boxes inside a box, behind `skip` bytes of its own fields. -/
def FileBox.inner (b : FileBox) (skip : Nat) : List FileBox :=
  boxesFrom b.body.length (b.start + b.head + skip) (b.body.drop skip)

/-- The boxes of a type. -/
def boxesOf (t : String) (xs : List FileBox) : List FileBox := xs.filter fun b => b.type == fourCC t
/-- The first box of a type. -/
def boxOf (t : String) (xs : List FileBox) : Option FileBox := (boxesOf t xs).head?
/-- What the first box of a type holds. -/
def bodyOf (t : String) (xs : List FileBox) : List Byte := ((boxOf t xs).map (·.body)).getD []
/-- The boxes inside the first box of a type. -/
def innerOf (t : String) (xs : List FileBox) : List FileBox := ((boxOf t xs).map (·.inner 0)).getD []

/-- The rows of a table of 4-byte columns behind a count at byte 4. -/
def tableRows (columns : Nat) (bs : List Byte) : List (List Nat) :=
  let n := min (beAt bs 4 4) (bs.length / (4 * columns))
  (List.range n).map fun i => (List.range columns).map fun j => beAt bs (8 + 4 * (columns * i + j)) 4

/-! ### Samples -/

/-- A sample: its place in the object, its bytes, its decoding time, and the offset of its presentation time. -/
structure FileSample where
  offset : Nat
  size : Nat
  dts : Nat
  shift : Int
deriving DecidableEq, Repr

/-- A 32-bit two's-complement number. -/
def signed32 (x : Nat) : Int := if x < 2 ^ 31 then x else (x : Int) - 2 ^ 32

/-- At most `n` values of a list of runs, each a count and a value. -/
def unrun (n : Nat) (rows : List (List Nat)) : List Nat :=
  (rows.flatMap fun r => List.replicate (min (r.getD 0 0) n) (r.getD 1 0)).take n

/-- Running sums, from `t`. -/
def runningSums : Nat → List Nat → List Nat
  | _, [] => []
  | t, d :: r => t :: runningSums (t + d) r

/-- Sizes placed one after the other from `o`. -/
def placeSizes (o : Nat) (ns : List Nat) : List (Nat × Nat) := (runningSums o ns).zip ns

/-- Sizes placed in chunks: `per i` of them in the chunk with the number `i`. -/
def placeChunks (per : Nat → Nat) : Nat → List Nat → List Nat → List (Nat × Nat)
  | _, [], _ => []
  | i, o :: t, ns => placeSizes o (ns.take (per i)) ++ placeChunks per (i + 1) t (ns.drop (per i))

/-- The samples that a sample table lists. -/
def tableSamples (stbl : List FileBox) : List FileSample :=
  let stsz := bodyOf "stsz" stbl
  let n := beAt stsz 8 4
  let sizes := if beAt stsz 4 4 ≠ 0 then List.replicate n (beAt stsz 4 4)
    else (List.range (min n (stsz.length / 4))).map fun i => beAt stsz (12 + 4 * i) 4
  let wide := bodyOf "co64" stbl
  let chunks := if wide.isEmpty then (tableRows 1 (bodyOf "stco" stbl)).map fun r => r.getD 0 0
    else (List.range (min (beAt wide 4 4) (wide.length / 8))).map fun i => beAt wide (8 + 8 * i) 8
  let runs := tableRows 3 (bodyOf "stsc" stbl)
  let per (i : Nat) : Nat := (((runs.filter fun r => decide (r.getD 0 0 ≤ i)).getLast?).map fun r => r.getD 1 0).getD 0
  let times := runningSums 0 (unrun sizes.length (tableRows 2 (bodyOf "stts" stbl)))
  let shifts := unrun sizes.length (tableRows 2 (bodyOf "ctts" stbl))
  (number 0 ((placeChunks per 1 chunks sizes).zip times)).map fun x =>
    ⟨x.2.1.1, x.2.1.2, x.2.2, signed32 (shifts.getD x.1 0)⟩

/-- Defaults of a track's fragments: duration and size of a sample. -/
def trackDefaults (moov : List FileBox) (id : Nat) : Nat × Nat :=
  match (boxesOf "trex" (innerOf "mvex" moov)).find? fun b => beAt b.body 4 4 == id with
  | some b => (beAt b.body 12 4, beAt b.body 16 4)
  | none => (0, 0)

/-- The samples of one track run that begins at byte `at'` of the object and at time `t`. -/
def runSamples (at' t duration size : Nat) (bs : List Byte) : List FileSample :=
  let flag (i : Nat) : Bool := bitAt (beAt bs 0 4) i
  let head := 8 + 4 * (bit (flag 0) + bit (flag 2))
  let row := 4 * (bit (flag 8) + bit (flag 9) + bit (flag 10) + bit (flag 11))
  let n := min (beAt bs 4 4) (if row = 0 then beAt bs 4 4 else bs.length / row)
  let col (i k : Nat) : Nat := beAt bs (head + row * i + 4 * k) 4
  let rows := List.range n
  let ds := rows.map fun i => if flag 8 then col i 0 else duration
  let ns := rows.map fun i => if flag 9 then col i (bit (flag 8)) else size
  let shift (i : Nat) : Int := if flag 11 then signed32 (col i (bit (flag 8) + bit (flag 9) + bit (flag 10))) else 0
  (number 0 ((placeSizes at' ns).zip (runningSums t ds))).map fun x => ⟨x.2.1.1, x.2.1.2, x.2.2, shift x.1⟩

/-- The runs of a track fragment in order: each begins at its data offset, or where the one before it ends, and at the time at
which that one ends. -/
def fragmentRuns (base duration size : Nat) : Nat → Nat → List FileBox → List FileSample
  | _, _, [] => []
  | at', t, b :: rest =>
    let bs := b.body
    let a := if bitAt (beAt bs 0 4) 0 then (base + signed32 (beAt bs 8 4)).toNat else at'
    let xs := runSamples a t duration size bs
    let n := if bitAt (beAt bs 0 4) 8 then 0 else duration
    let stop := match xs.getLast? with
      | some x => x.offset + x.size
      | none => a
    let ds := if bitAt (beAt bs 0 4) 8 then
        let row := 4 * (1 + bit (bitAt (beAt bs 0 4) 9) + bit (bitAt (beAt bs 0 4) 10) + bit (bitAt (beAt bs 0 4) 11))
        let head := 8 + 4 * (bit (bitAt (beAt bs 0 4) 0) + bit (bitAt (beAt bs 0 4) 2))
        ((List.range xs.length).map fun i => beAt bs (head + row * i) 4).sum
      else n * xs.length
    xs ++ fragmentRuns base duration size stop (t + ds) rest

/-- The samples that a movie fragment gives a track. -/
def fragmentSamples (defaults : Nat × Nat) (id : Nat) (moof : FileBox) : List FileSample :=
  (boxesOf "traf" (moof.inner 0)).flatMap fun traf =>
    let xs := traf.inner 0
    let h := bodyOf "tfhd" xs
    if beAt h 4 4 ≠ id then []
    else
      let flag (i : Nat) : Bool := bitAt (beAt h 0 4) i
      let at1 := 8 + 8 * bit (flag 0) + 4 * bit (flag 1)
      let at2 := at1 + 4 * bit (flag 3)
      let base := if flag 0 then beAt h 8 8 else moof.start
      let duration := if flag 3 then beAt h at1 4 else defaults.1
      let size := if flag 4 then beAt h at2 4 else defaults.2
      let d := bodyOf "tfdt" xs
      let t := if beAt d 0 1 = 1 then beAt d 4 8 else beAt d 4 4
      fragmentRuns base duration size base t (boxesOf "trun" xs)

/-! ### Tracks -/

/-- What a descriptor of MPEG-4 Systems holds, behind its tag and its length. -/
def descriptorBody (bs : List Byte) : List Byte := ((bs.drop 1).dropWhile fun b => bitAt b.toNat 7).drop 1

/-- The DecoderConfigDescriptor of an esds box, behind the fields of the ES_Descriptor. -/
def decoderConfig (esds : List Byte) : List Byte :=
  let es := descriptorBody (esds.drop 4)
  let f := byteAt es 2
  let depends := 2 * bit (bitAt f 7)
  let url := if bitAt f 6 then 1 + byteAt es (3 + depends) else 0
  descriptorBody (es.drop (3 + depends + url + 2 * bit (bitAt f 5)))

/-- objectTypeIndication -/
def esdsType (esds : List Byte) : Nat := byteAt (decoderConfig esds) 0

/-- Audio object type of the AudioSpecificConfig: 2 is AAC-LC, 5 is HE-AAC. -/
def aacType (esds : List Byte) : Nat := byteAt (descriptorBody ((decoderConfig esds).drop 13)) 0 / 8

/-- CODEC or AUDIO of a sample entry (Table 11.1), where it is of a supported type. -/
def entryCode (video : Bool) (e : FileBox) : Option Nat :=
  let esds := bodyOf "esds" (e.inner (if video then 78 else 28))
  let of (xs : List String) : Bool := xs.any fun t => e.type == fourCC t
  if video then
    if of ["avc1", "avc3"] then some 1 else if of ["hvc1", "hev1"] then some 2 else if of ["av01"] then some 3
    else if of ["mp4v"] && decide (0x60 ≤ esdsType esds ∧ esdsType esds ≤ 0x65) then some 0 else none
  else
    if of ["ac-3"] then some 3
    else if of ["mp4a"] then
      (if esdsType esds = 0x69 || esdsType esds = 0x6B then some 0
       else if esdsType esds = 0x40 then some (if aacType esds = 5 then 2 else 1) else none)
    else none

/-- A track: its samples follow its sample entry, which holds the parameter sets of its codec. -/
def trackOf (obj : List Byte) (moov moofs : List FileBox) (trak : FileBox) : FileTrack :=
  let xs := trak.inner 0
  let mdia := innerOf "mdia" xs
  let stbl := innerOf "stbl" (innerOf "minf" mdia)
  let tkhd := bodyOf "tkhd" xs
  let mdhd := bodyOf "mdhd" mdia
  let id := if beAt tkhd 0 1 = 1 then beAt tkhd 20 4 else beAt tkhd 12 4
  let video := beAt (bodyOf "hdlr" mdia) 8 4 == fourCC "vide"
  let entry := (boxOf "stsd" stbl).bind fun b => (b.inner 8).head?
  let kind := (entry.map (·.type)).getD 0
  let samples := tableSamples stbl ++ moofs.flatMap (fragmentSamples (trackDefaults moov id) id)
  { id := id
    video := video
    audio := beAt (bodyOf "hdlr" mdia) 8 4 == fourCC "soun"
    encrypted := kind == fourCC "encv" || kind == fourCC "enca"
    codec := entry.bind (entryCode video)
    timescale := if beAt mdhd 0 1 = 1 then beAt mdhd 20 4 else beAt mdhd 12 4
    samples :=
      (match entry with
        | some e => [⟨e.start, 0, none, none, e.body⟩]
        | none => []) ++
      (number 0 samples).map fun x =>
        ⟨x.2.offset, x.1, some (((x.2.dts : Int) + x.2.shift).toNat), some x.2.dts, (obj.drop x.2.offset).take x.2.size⟩ }

/-- The tracks of an ISO base media file; none where no moov or moof can be read. -/
def fileTracks (obj : List Byte) : Option (List FileTrack) :=
  let top := boxesFrom obj.length 0 obj
  let moov := innerOf "moov" top
  let moofs := boxesOf "moof" top
  if moov.isEmpty && moofs.isEmpty then none
  else some ((boxesOf "trak" moov).map (trackOf obj moov moofs))

/-- An ISO base media file; none where no moov or moof can be read, or no video track of a supported type is the one asked
for. An encrypted track is taken as it is: its clip is dropped with reason SCRAMBLED. -/
def demuxFile (track codec audio : Nat) (obj : List Byte) : Option Demuxed :=
  match fileTracks obj with
  | none => none
  | some ts =>
    match ts.find? fun t => t.video && (t.codec.isSome || t.encrypted) && (track == 0 || t.id == track) with
    | none => none
    | some v =>
      let a := if audio = 14 then none else ts.find? fun t => t.audio && !t.encrypted && t.codec.isSome
      some
        { codec := resolveCode codec (v.codec.getD 15), vpid := 0, apid := 0, timescale := v.timescale, wraps := false
          video := v.samples
          audioCodec := a.map fun t => resolveCode audio (t.codec.getD 15)
          audio := match a with
            | some t => t.samples
            | none => []
          audioScale := (a.map (·.timescale)).getD v.timescale
          packets := [], psi := [], scrambled := v.encrypted }

/-- The object of a descriptor (Table 11.1). -/
def demux (d : BitVec 256) (obj : List Byte) : Option Demuxed :=
  let f (hi lo : Nat) : Nat := bits d.toNat hi lo
  if f 47 44 = 3 then demuxFile (f 119 104) (f 43 40) (f 39 36) obj
  else demuxTs (f 47 44) (f 119 104) (f 43 40) (f 39 36) obj

end Sys2Proof.Machine
end

