-- ==== Sys2Proof/Machine/Video.lean ====
section
/-!
DEFINITION. Sys2Proof/Machine/Video.lean: from the streams of an object to the pictures and the audio of a clip (R281 to
R286), and steps 1 and 2 of the patch engines (R288).
-/
namespace Sys2Proof.Machine

/-! ### Profiles and random-access points (R281, R283) -/

/-- Is a stream in Table 11.4? The codes of profiles and levels are those of the standards (log 108). -/
def profileOk (codec : Nat) (i : StreamInfo) : Bool :=
  let c420 := i.chroma == 0
  let c422 := decide (i.chroma ≤ 1)
  let d8 := i.depth == 8
  let d10 := i.depth == 8 || i.depth == 10
  match codec with
  | 0 => d8 && ((i.profile == 4 && [4, 6, 8, 10].contains i.level && c420) ||
      (i.profile == 8 && [2, 5].contains i.level && c422))
  | 1 => decide (i.level ≤ 52) && ((i.profile == 100 && c420 && d8) || (i.profile == 110 && c420 && d10) ||
      (i.profile == 122 && c422 && d10))
  | 2 => decide (i.level ≤ 183) && !i.highTier && ((i.profile == 1 && c420 && d8) || (i.profile == 2 && c420 && d10) ||
      (i.profile == 4 && i.main422 && c422 && d10))
  | 3 => decide (i.level ≤ 17) && i.profile == 0 && c420 && d10
  | _ => false

/-- Is a coded picture a random-access point? -/
def isRap (codec : Nat) (p : CodedPicture) : Bool :=
  match codec with
  | 0 => p.seqHeader && p.intra
  | 1 => p.idr || (p.intra && p.recovery == some 0)
  | 2 => p.irap
  | 3 => p.shownKey
  | _ => false

/-- The time from `a` to `b`; times of a transport stream are unwrapped modulo 2^33. -/
def timeFrom (wraps : Bool) (a b : Nat) : Int :=
  if wraps then (((b + 2 ^ 33 + 2 ^ 32 - a) % 2 ^ 33 : Nat) : Int) - 2 ^ 32 else (b : Int) - a

/-- The numbered picture with the greatest `f`, the last of equals. -/
def lastBy (f : CodedPicture → Int) (xs : List (Nat × CodedPicture)) : Option (Nat × CodedPicture) :=
  xs.foldl (fun best x => match best with
    | none => some x
    | some y => if f y.2 ≤ f x.2 then some x else best) none

/-- The numbered picture with the least `f`, the first of equals. -/
def firstBy (f : CodedPicture → Int) (xs : List (Nat × CodedPicture)) : Option (Nat × CodedPicture) :=
  xs.foldl (fun best x => match best with
    | none => some x
    | some y => if f x.2 < f y.2 then some x else best) none

/-- Does a search backward from byte `pos` of the object meet a random-access point of `rs` within 16 MiB? -/
def nearRap (rs : List (Nat × CodedPicture)) (pos : Nat) : Bool :=
  rs.any fun r => decide (r.2.offset ≤ pos ∧ pos ≤ r.2.offset + 2 ^ 24)

/-- The random-access point of a clip: the latest at or before `start`, found from the cached one, from SEEK_HINT, or from
the place of `start` itself. -/
def chooseRap (m : Demuxed) (start : Nat) (cached : Option Nat) (hint : Nat) (ps : List CodedPicture) :
    Option (Nat × CodedPicture) :=
  let before := (number 0 ps).filter fun x => decide (0 ≤ timeFrom m.wraps x.2.pts start)
  let rs := before.filter fun x => isRap m.codec x.2
  let late (p : CodedPicture) : Int := -timeFrom m.wraps p.pts start
  let fromCache := match cached with
    | some c => decide (0 ≤ timeFrom m.wraps c start)
    | none => false
  let fromStart := match lastBy late before with
    | some x => nearRap rs x.2.offset
    | none => false
  if fromCache || (hint != 0 && nearRap rs (4096 * hint)) || fromStart then lastBy late rs else none

/-- The coded pictures from a random-access point on, without those that depend on a reference before it. -/
def fromRap (codec : Nat) : List CodedPicture → List CodedPicture
  | [] => []
  | r :: t =>
    let n := (t.takeWhile fun p => !isRap codec p).length
    r :: ((t.take n).filter fun p => !p.leading) ++ t.drop n

/-! ### The chosen pictures (R284, R286) -/

/-- t_i, in the timescale of the stream. -/
def targetTime (m : Demuxed) (start fps i : Nat) : Nat := (start + i * 90000 / fps) * m.timescale / 90000

/-- The coded picture of a target: the latest at or before it, or else the first. -/
def targetPicture (time : CodedPicture → Int) (t : Int) (us : List (Nat × CodedPicture)) : Option (Nat × CodedPicture) :=
  match lastBy time (us.filter fun x => decide (time x.2 ≤ t)) with
  | some x => some x
  | none => firstBy time us

/-- The time at which an object's pictures end: the last lasts as long as the one before it (log 109). -/
def endTime (time : CodedPicture → Int) (us : List (Nat × CodedPicture)) : Int :=
  match lastBy time us with
  | none => 0
  | some l => match lastBy time (us.filter fun x => decide (time x.2 < time l.2)) with
    | some p => time l.2 + (time l.2 - time p.2)
    | none => time l.2 + 1

/-- What decoding a clip gives: the drop reason (Table 11.5), its pictures by target, the pictures replaced, and the counts
of Table 11.9. -/
structure ClipPictures where
  reason : Nat
  pictures : List DecodedPicture := []
  concealed : Nat := 0
  decoded : Nat := 0
  discarded : Nat := 0
  scrambled : Nat := 0
  continuity : Nat := 0
  /-- pictures that failed to decode -/
  broken : Nat := 0
  /-- the random-access point, and what its sequence says -/
  rap : Option CodedPicture := none
deriving DecidableEq, Repr

/-- The correctly decoded picture that stands for a failed one: the most recent in presentation order, or the next. -/
def concealWith (time : CodedPicture → Int) (t : Int) (good : List (Nat × CodedPicture)) : Option (Nat × CodedPicture) :=
  match lastBy time (good.filter fun x => decide (time x.2 ≤ t)) with
  | some x => some x
  | none => firstBy time good

/-- The reason that the concealment policy leaves: `failed` of the targets have failed, `late` of them beyond the object's
end, and `damaged` says whether the clip is damaged at all (R286). -/
def IngestParams.policy (p : IngestParams) (failed late : Nat) (damaged anyGood : Bool) : Nat :=
  let why := if late ≠ 0 then 7 else 5
  if !damaged then 0
  else if p.conceal && decide (failed ≤ p.concealMax) && anyGood then 0
  else why

/-- The last packet of a picture: the one before the next picture begins, or the object's last. -/
def Demuxed.lastIndex (m : Demuxed) (next : Option CodedPicture) : Nat :=
  match next with
  | some c => c.index - 1
  | none => m.packets.length - 1

/-- The clip's pictures, from the random-access point on. -/
def clipPictures (p : IngestParams) (m : Demuxed) (start : Nat) (r : CodedPicture) (us : List CodedPicture) : ClipPictures :=
  let time (c : CodedPicture) : Int := timeFrom m.wraps r.pts c.pts
  let xs := number 0 us
  let ends := endTime time xs
  let targets := (List.range p.tOut).map fun i => timeFrom m.wraps r.pts (targetTime m start p.fps i)
  let chosen := targets.map fun t => (t, targetPicture time t xs)
  let last := (chosen.map fun x => (x.2.map (·.1)).getD 0).foldl max 0
  let run := us.take (last + 1)
  let out := Config.decodePictures m.codec run
  let pic (i : Nat) : Option DecodedPicture := (out[i]?).join
  let good := (number 0 run).filter fun x => (pic x.1).isSome
  let isLate (t : Int) : Bool := decide (ends ≤ t)
  let ok (x : Int × Option (Nat × CodedPicture)) : Bool := !isLate x.1 && match x.2 with
    | some y => (pic y.1).isSome
    | none => false
  let failed := (chosen.filter fun x => !ok x).length
  let late := (targets.filter isLate).length
  let hi := max (((us[last]?).map (·.index)).getD r.index) (m.lastIndex us[last + 1]?)
  let errors := m.errors r.index hi
  let anyGood := chosen.any fun x => match x.2 with
    | some y => (pic y.1).isSome
    | none => false
  let why := p.policy failed late (failed != 0 || errors != 0) anyGood
  let used := chosen.filterMap fun x => x.2.map (·.1)
  let stand (x : Int × Option (Nat × CodedPicture)) : Option DecodedPicture := match x.2 with
    | none => none
    | some y => if ok x then pic y.1 else (concealWith time (time y.2) good).bind fun z => pic z.1
  { reason := why, pictures := if why = 0 then chosen.filterMap stand else []
    concealed := if why = 0 then failed else 0, decoded := good.length
    discarded := (good.filter fun x => !used.contains x.1).length, broken := run.length - good.length
    scrambled := m.scrambledIn r.index hi, continuity := errors, rap := some r }

/-- A clip from its demultiplexed object: `cached` is the PTS of the cached random-access point. -/
def decodeStream (p : IngestParams) (d : BitVec 256) (cached : Option Nat) (m : Demuxed) : ClipPictures :=
  let start := bits d.toNat 159 127
  if m.scrambled then { reason := 6, scrambled := (m.packets.filter TsPacket.scrambled).length }
  else
    let ps := Config.codedPictures m.codec m.video
    match chooseRap m (start * m.timescale / 90000) cached (bits d.toNat 95 64) ps with
    | none =>
      if ps.any fun c => !profileOk m.codec c.info then { reason := 3 } else { reason := 4 }
    | some (i, r) =>
      if !profileOk m.codec r.info then { reason := 3, rap := some r }
      else clipPictures p m start r (fromRap m.codec (ps.drop i))

/-! ### Audio (R285) -/

/-- Sums and products in FP32 (RNE). -/
def add32 (a b : Nat) : Nat := (fpAdd fFP32 a b).1
/-- The product. -/
def mul32 (a b : Nat) : Nat := (fpMul fFP32 a b).1
/-- A fraction as FP32. -/
def frac32 (neg : Bool) (n d : Nat) : Nat := (roundTo fFP32 .rne false neg n d 0).1
/-- An integer as FP32. -/
def int32 (x : Int) : Nat := frac32 (decide (x < 0)) x.natAbs 1

/-- Where a frame's first sample stands, counted from t_0: its time stands in the audio's timescale, t_0 in the video's. -/
def frameStart (m : Demuxed) (t0 : Nat) (f : AudioFrame) : Int :=
  if m.wraps then timeFrom true t0 f.pts * f.rate / m.timescale
  else ((f.pts : Int) * m.timescale - t0 * m.audioScale) * f.rate / (m.audioScale * m.timescale)

/-- The frame that covers a sample. -/
def frameAt (m : Demuxed) (t0 : Nat) (fs : List AudioFrame) (i : Int) : Option AudioFrame :=
  fs.find? fun f => decide (frameStart m t0 f ≤ i ∧ i < frameStart m t0 f + f.length)

/-- A sample of channel `c`: +0 where the frame is damaged or none covers it. A channel that the stream does not have is its
first. -/
def pcmAt (m : Demuxed) (t0 : Nat) (fs : List AudioFrame) (c : Nat) (i : Int) : Nat :=
  match frameAt m t0 fs i with
  | none => 0
  | some f => match f.pcm with
    | none => 0
    | some xs => (((xs[c]?).getD (xs.headD []))[(i - frameStart m t0 f).toNat]?).elim 0 fun x => x.toNat

/-- Sample `n` of channel `c` at the output rate: 32 taps in ascending order around its place, +0 where no frame covers the
place or a damaged one does (log 109). -/
def resample (m : Demuxed) (t0 rate : Nat) (fs : List AudioFrame) (c n : Nat) : Nat :=
  let r := (fs.head?.map (·.rate)).getD rate
  let at' := n * r / rate
  if ((frameAt m t0 fs at').bind (·.pcm)).isNone then 0
  else (List.range 32).foldl (fun acc k =>
    add32 acc (mul32 (Config.audioTap r rate (n * r % rate) k).toNat (pcmAt m t0 fs c ((at' : Int) + k - 15)))) 0

/-- A BF16 sample. -/
def bf16Bytes (x : Nat) : List Byte := leBytes 2 (convUnscaled 1 .rne false (decodeF fFP32 x)).1

/-- The clip's audio bytes, and the damaged frames among those it covers. -/
def clipAudio (p : IngestParams) (samples start : Nat) (m : Demuxed) : List Byte × Nat :=
  if p.audioRate = 0 then ([], 0)
  else
    let t0 := targetTime m start p.fps 0
    let fs := match m.audioCodec with
      | some a => Config.decodeAudio a m.audio
      | none => []
    let stops (f : AudioFrame) : Int := samples * f.rate / p.audioRate
    let bad := fs.filter fun f => f.pcm.isNone && decide (frameStart m t0 f < stops f ∧ 0 < frameStart m t0 f + f.length)
    let ch (c n : Nat) : Nat := resample m t0 p.audioRate fs c n
    let bytes := (List.range samples).flatMap fun n =>
      if p.audioChannels = 1 then bf16Bytes (mul32 (add32 (ch 0 n) (ch 1 n)) 0x3F000000)
      else bf16Bytes (ch 0 n) ++ bf16Bytes (ch 1 n)
    (bytes, bad.length)

/-! ### Fields and frames (R284) -/

/-- The lines of two fields in turn. -/
def weave {α : Type} : List α → List α → List α
  | [], b => b
  | x :: t, b => x :: (b.take 1 ++ weave t (b.drop 1))

/-- The planes of a picture: its two fields woven, or under FIELD mode the first with its lines doubled. -/
def framePlanes (field : Bool) (p : DecodedPicture) : List Plane :=
  if p.second.isEmpty then p.first
  else if field then p.first.map fun q => { q with height := 2 * q.height, rows := q.rows.flatMap fun r => [r, r] }
  else (p.first.zip p.second).map fun (a, b) =>
    { a with height := a.height + b.height, rows := if p.topFirst then weave a.rows b.rows else weave b.rows a.rows }

/-! ### Resize (R288, step 2) -/

/-- The extent of the resized picture: the shorter side has the output's size (log 109). -/
def resizedExtent (p : IngestParams) (w h sarX sarY : Nat) : Nat × Nat :=
  let w := if p.aspect && sarX != 0 && sarY != 0 then max 1 (w * sarX / sarY) else w
  if w ≤ h then (p.outW, max p.outH (h * p.outW / w)) else (max p.outW (w * p.outH / h), p.outH)

/-- The taps of output sample `x` of `out`, over a plane of `n` samples sited at `site` beside a luma extent of `len`: a
triangle as wide as the reduction, its weights divided by their sum. -/
def triangleTaps (out len n site x : Nat) : List (Nat × Nat) :=
  let r := max 1 (cdiv len n)
  let m := 2 * max len (r * out)
  let dist (k : Nat) : Nat := ((2 * out * r * k + out * site + out : Nat) - ((2 * x + 1) * len : Nat) : Int).natAbs
  let ws := (List.range n).filterMap fun k => if dist k < m then some (k, frac32 false (m - dist k) m) else none
  let sum := ws.foldl (fun a w => add32 a w.2) 0
  ws.map fun w => (w.1, (fpDiv fFP32 w.2 sum).1)

/-- A weighted sum, in ascending tap order. -/
def weighted (ws : List (Nat × Nat)) (f : Nat → Nat) : Nat := ws.foldl (fun a w => add32 a (mul32 w.2 (f w.1))) 0

/-- A plane resampled to the output grid, first along its rows. -/
def resizePlane (lumaW lumaH outW outH : Nat) (p : Plane) : List (List Nat) :=
  let tx := (List.range outW).map (triangleTaps outW lumaW p.width p.siteX)
  let rows := p.rows.map fun r =>
    let r := r.map fun (v : Nat) => int32 v
    tx.map fun ws => weighted ws fun k => r.getD k 0
  (List.range outH).map fun y =>
    let ws := triangleTaps outH lumaH p.height p.siteY y
    (List.range outW).map fun x => weighted ws fun k => (rows.getD k []).getD x 0

/-! ### Colour (R288, step 1) -/

/-- Kr and Kb of a matrix, in ten-thousandths. -/
def lumaWeights (matrix : Nat) : Nat × Nat :=
  if matrix = 0 then (2990, 1140) else if matrix = 1 then (2126, 722) else (2627, 593)

/-- The matrix of a picture: the stream's, or BT.601 up to 576 lines and BT.709 above. -/
def pictureMatrix (p : DecodedPicture) (lines : Nat) : Nat := p.matrix.getD (if lines ≤ 576 then 0 else 1)

/-- Y, Cb and Cr of a sample as numbers: Y from 0 to 1, Cb and Cr from −1/2 to 1/2. -/
def normalised (p : DecodedPicture) (y cb cr : Nat) : Nat × Nat × Nat :=
  let u := 2 ^ (p.depth - 8)
  let (lo, ly, lc) := if p.fullRange then (0, 2 ^ p.depth - 1, 2 ^ p.depth - 1) else (16 * u, 219 * u, 224 * u)
  let scale (v off den : Nat) : Nat := (fpDiv fFP32 (fpSub fFP32 v (int32 off)).1 (int32 den)).1
  (scale y lo ly, scale cb (128 * u) lc, scale cr (128 * u) lc)

/-- A value held within 0 to 1. -/
def unitRange (x : Nat) : Nat := fpMinMax fFP32 true 0 (fpMinMax fFP32 false 0x3F800000 x)

/-- The three channels of a sample: RGB, or Y, Cb and Cr where the job asks for them (log 109). -/
def channels (ycbcr : Bool) (p : DecodedPicture) (matrix y cb cr : Nat) : List Nat :=
  let (y, cb, cr) := normalised p y cb cr
  if ycbcr then [y, cb, cr]
  else
    let (kr, kb) := lumaWeights matrix
    let kg := 10000 - kr - kb
    let c (neg : Bool) (n d : Nat) : Nat := frac32 neg n d
    let r := add32 y (mul32 (c false (2 * (10000 - kr)) 10000) cr)
    let b := add32 y (mul32 (c false (2 * (10000 - kb)) 10000) cb)
    let g := add32 (add32 y (mul32 (c true (2 * kb * (10000 - kb)) (10000 * kg)) cb))
      (mul32 (c true (2 * kr * (10000 - kr)) (10000 * kg)) cr)
    [unitRange r, unitRange g, unitRange b]

/-- The channels of a picture at the output grid, each by row: its planes are resampled, and the matrix is applied where they
meet (log 109). -/
def pictureChannels (p : IngestParams) (w h : Nat) (x : DecodedPicture) : List (List (List Nat)) :=
  let ps := framePlanes p.field x
  let luma := ps.headD ⟨1, 1, 0, 0, []⟩
  let rs := ps.map (resizePlane luma.width luma.height w h)
  let at' (i y c : Nat) : Nat := ((rs.getD i []).getD y []).getD c 0
  let m := pictureMatrix x luma.height
  let out := (List.range h).map fun y => (List.range w).map fun c =>
    channels p.ycbcr x m (at' 0 y c) (at' 1 y c) (at' 2 y c)
  (List.range 3).map fun k => out.map fun row => row.map fun v => v.getD k 0

/-- A clip's pictures at the output grid: the extent, and the FP32 samples by picture, channel, row and column. -/
def resizedClip (p : IngestParams) (xs : List DecodedPicture) : Nat × Nat × List Nat :=
  match xs with
  | [] => (0, 0, [])
  | x :: _ =>
    let luma := (framePlanes p.field x).headD ⟨1, 1, 0, 0, []⟩
    let (w, h) := resizedExtent p luma.width luma.height x.sarX x.sarY
    (w, h, xs.flatMap fun y => (pictureChannels p w h y).flatMap fun c => c.flatten)

end Sys2Proof.Machine
end

