-- ==== Sys2Proof/Machine/Ingest.lean ====
section
/-!
DEFINITION. Sys2Proof/Machine/Ingest.lean: the order of clips, storage reads, stream contexts, patches, the reservoir, the
micro-batches that ingest places, and the ingest commands (R273 to R301).
-/
namespace Sys2Proof.Machine

/-! ### The order of clips (R290, R291) -/

/-- The round function. -/
def fround (seed key1 : W64) (blk dom r x : Nat) : Nat :=
  (cg seed key1 (BitVec.ofNat 64 (blk * 2 ^ 24 + dom * 2 ^ 16 + r)) (BitVec.ofNat 64 x)).toNat

/-- Four rounds over halves of `h` bits. -/
def rounds (seed key1 : W64) (blk dom h : Nat) (i : Nat) : Nat :=
  let step (p : Nat × Nat) (r : Nat) : Nat × Nat :=
    (p.2, p.1 ^^^ (fround seed key1 blk dom r p.2 % 2 ^ h))
  let p := [0, 1, 2, 3].foldl step (i / 2 ^ h, i % 2 ^ h)
  p.1 * 2 ^ h + p.2

/-- Half of the smallest even width, at least 2, whose power reaches `n`. -/
def halfWidth (n : Nat) : Nat := max 1 (cdiv (Nat.log2 (2 * n - 1)) 2)

/-- Walk the cycle until the index falls below `n`; a cycle has at most 2^(2h) members. -/
def walk (f : Nat → Nat) (n : Nat) : Nat → Nat → Nat
  | 0, i => i
  | fuel + 1, i => if f i < n then f i else walk f n fuel (f i)

/-- The keyed bijection of 0 to n − 1. -/
def feistel (seed key1 : W64) (i n blk dom : Nat) : Nat :=
  if n = 1 then 0
  else
    let h := halfWidth n
    walk (rounds seed key1 blk dom h) n (2 ^ (2 * h)) i

/-- key1 of an epoch. -/
def Ingest.key1 (g : Ingest) (e : Nat) : W64 := mix64 (g.epochBase ^^^ BitVec.ofNat 64 e)

/-- The clip at index `n` of epoch `e`. -/
def Ingest.clipOf (g : Ingest) (e n : Nat) : Nat :=
  let k := g.key1 e
  let w := n / g.params.w
  let base := w * g.params.w
  let j := feistel g.params.seed k (n - base) (min g.params.w (g.params.n - base)) w 6
  feistel g.params.seed k (base + j) g.params.n 0 5

/-- The place that clip `c` of this replica's local micro-batch `k` is filled from. -/
def State.placeOf (s : State) (k c : Nat) : Nat := (k * s.job.g + s.job.rank) * s.ingest.params.c + c

/-- Epoch and index of a place. -/
def Ingest.at' (g : Ingest) (place : Nat) : Nat × Nat :=
  (g.e0 + (g.n0 + place) / g.params.n, (g.n0 + place) % g.params.n)

/-- Is a place beyond the epoch limit (R292)? -/
def Ingest.ended (g : Ingest) (place : Nat) : Bool :=
  match g.eLim with
  | some l => decide (l ≤ (g.at' place).1)
  | none => false

/-- The local micro-batch that a place of this replica belongs to; none for another replica's place. -/
def State.localOf (s : State) (place : Nat) : Option Nat :=
  let b := place / s.ingest.params.c
  if b % s.job.g = s.job.rank then some (b / s.job.g) else none

/-! ### Sizes (Tables 11.6, 11.7) -/

/-- Tokens of a clip. -/
def IngestParams.tokens (p : IngestParams) : Nat := (p.tOut / p.pt) * (p.outH / p.ph) * (p.outW / p.pw)
/-- Token bytes of a clip. -/
def IngestParams.tokenBytes (p : IngestParams) : Nat := p.tokens * (p.pt * 3 * p.ph * p.pw) * (if p.fp8 then 1 else 2)
/-- Samples per channel (R285). -/
def IngestParams.samples (p : IngestParams) : Nat := p.tOut * p.audioRate / p.fps
/-- CLIP_BYTES -/
def IngestParams.clipBytes (p : IngestParams) : Nat := alignUp (p.tokenBytes + p.samples * p.audioChannels * 2) 256
/-- Header bytes. -/
def IngestParams.headBytes (p : IngestParams) : Nat := alignUp (32 * p.c) 256
/-- Payload bytes. -/
def IngestParams.payload (p : IngestParams) : Nat := p.headBytes + p.c * p.clipBytes

/-- A clip record. -/
def clipRecord (clip epoch index offset tscale concealed samples status reason : Nat) : BitVec 256 :=
  BitVec.ofNat 256 (reason % 2 ^ 8 + status * 2 ^ 8 + index % 2 ^ 40 * 2 ^ 24 + offset % 2 ^ 32 * 2 ^ 64 +
    samples % 2 ^ 32 * 2 ^ 96 + concealed % 2 ^ 16 * 2 ^ 144 + tscale % 2 ^ 32 * 2 ^ 160 + epoch % 2 ^ 24 * 2 ^ 192 +
    clip % 2 ^ 40 * 2 ^ 216)

/-! ### Counters, storage reads (R276) -/

/-- Add to a counter of Table 11.9, by its place. -/
def Ingest.count (g : Ingest) (i n : Nat) : Ingest :=
  { g with counters := supd 0 i (fun c => satAdd c n) g.counters }

/-- A bound namespace. -/
def Ingest.ns (g : Ingest) (n : Nat) : Option IngestNs := g.params.namespaces.find? fun x => x.num == n

/-- The controller that serves a namespace. -/
def IngestNs.controller (x : IngestNs) : Nat := if x.host then 2 ^ 32 + x.num else x.port * 2 ^ 16 + Config.nsController x.port x.nsid

/-- Take the controller of a namespace offline: the event of each namespace that it serves (R276). -/
def takeOffline (x : IngestNs) (s : State) : State :=
  let mine := s.ingest.params.namespaces.filter fun y => y.controller == x.controller && !s.ingest.offline.contains y.num
  forEach mine (fun y s => raise 0x0401 (unitAddr 5 97 0) 0 [(1, y.port), (1, y.num)]
    (s.updIngest fun g => { g with offline := g.offline ++ [y.num] })) s

/-- Does the ingest die work: open, present, and not waiting for a position after a rejoin? -/
def State.ingestUp (s : State) : Bool :=
  s.ingest.isOpen && !s.chip.lost.getLsbD 5 && !s.ingest.rejoinPending && !s.chip.parked

/-- Clips that can be in progress at once: one for each reservoir slot and each decoder (R279). -/
def clipLimit : Nat := 4096 + 32

/-- Is a place one whose clip is still to be read, and may it be in progress (R279)? -/
def State.reads (s : State) (place : Nat) : Bool :=
  match s.localOf place with
  | some k => decide (s.ingest.placed ≤ k) &&
      (decide (s.ingest.pins.length < clipLimit) || s.ingest.pins.any fun x => x.1 == place) && !(s.ingest.slots.any fun x => x.place == place) &&
      !(s.ingest.failedReads.contains place)
  | none => false

/-- One attempt of a Read has failed: it is retried 3 times, and then its clip is dropped; a third failed Read in a row,
or a fatal status, takes the controller offline. -/
def readFailed (x : IngestNs) (place : Nat) (fatal : Bool) (s : State) : State :=
  let n := sget 0 s.ingest.retries place
  if n < 3 then
    let s := s.updIngest fun g => { g.count 18 1 with retries := supd 0 place (· + 1) g.retries }
    if fatal then takeOffline x s else s
  else
    let s := s.updIngest fun g =>
      { g with retries := sset 0 place 0 g.retries, failedReads := g.failedReads ++ [place]
               failRow := supd 0 x.controller (· + 1) g.failRow }
    if fatal || sget 0 s.ingest.failRow x.controller ≥ 3 then takeOffline x s else s

/-! ### Descriptors and stream contexts (R277 to R279) -/

/-- A reserved code or a nonzero reserved field in a descriptor (Table 11.1). -/
def descBad (d : BitVec 256) : Bool :=
  let x := d.toNat
  let codec := bits x 43 40
  let audio := bits x 39 36
  decide (bits x 47 44 > 3) || (decide (4 ≤ codec) && decide (codec ≤ 14)) || (decide (4 ≤ audio) && decide (audio ≤ 13)) ||
    bits x 126 120 != 0 || bits x 103 96 != 0 || bits x 63 48 != 0 || bits x 35 32 != 0 || bits x 26 1 != 0

/-- OBJ_OFFSET with NS: what identifies a context. -/
def descKey (d : BitVec 256) : Nat := bits d.toNat 255 208 * 32 + bits d.toNat 31 27
/-- The same of a context. -/
def ctxKey (c : BitVec 512) : Nat := bits c.toNat 511 464 * 32 + bits c.toNat 463 459
/-- STATE of a context. -/
def ctxState (c : BitVec 512) : Nat := bits c.toNat 458 456
/-- LRU of a context. -/
def ctxLru (c : BitVec 512) : Nat := bits c.toNat 191 128

/-- PINS of a context. -/
def ctxPins (c : BitVec 512) : Nat := bits c.toNat 31 16

/-- Contexts the table holds. -/
def contextCount : Nat := 262144

/-- Where context `i` stands in the table. -/
def contextAddr (i : Nat) : Nat := 5 * 2 ^ 40 + 64 * i

/-- A field of a context changed. -/
def ctxPut (hi lo v : Nat) (c : BitVec 512) : BitVec 512 :=
  BitVec.ofNat 512 (c.toNat - bits c.toNat hi lo * 2 ^ lo + v % 2 ^ (hi + 1 - lo) * 2 ^ lo)

/-- Add to a saturating field of a context. -/
def ctxAdd (hi lo n : Nat) (c : BitVec 512) : BitVec 512 :=
  ctxPut hi lo (min (2 ^ (hi + 1 - lo) - 1) (bits c.toNat hi lo + n)) c

/-- The lowest index from `n` up that a map does not list. -/
def firstFree {α : Type} : Store α → Nat → Nat
  | [], n => n
  | (k, _) :: t, n => if k = n then firstFree t (n + 1) else n

/-- The context with the smallest LRU among those that nothing pins, the lowest index winning a tie. -/
def oldestContext : Store (BitVec 512) → Option (Nat × Nat)
  | [] => none
  | (k, c) :: t =>
    match oldestContext t with
    | none => if ctxPins c = 0 then some (k, ctxLru c) else none
    | some (k', l) => if ctxPins c = 0 && decide (ctxLru c ≤ l) then some (k, ctxLru c) else some (k', l)

/-- The context that a clip of an unknown object claims, and whether another is evicted for it (R278); none where every one is
pinned, which R279 rules out. -/
def Ingest.claim (g : Ingest) : Option (Nat × Bool) :=
  let i := firstFree g.contexts 0
  if i < contextCount then some (i, false) else (oldestContext g.contexts).map fun x => (x.1, true)

/-- A context as it is claimed for a clip's object: PARSING. -/
def newContext (d : BitVec 256) : BitVec 512 :=
  BitVec.ofNat 512 (bits d.toNat 255 208 * 2 ^ 464 + bits d.toNat 31 27 * 2 ^ 459 + 1 * 2 ^ 456 +
    bits d.toNat 47 44 * 2 ^ 452 + bits d.toNat 207 160 * 2 ^ 368)

/-- Use a context: LRU counts the use, and a clip in progress pins it. -/
def useContext (i : Nat) (c : BitVec 512) (pin : Bool) (g : Ingest) : Ingest :=
  let c := ctxPut 191 128 g.lru.toNat c
  { g with contexts := sset 0 i (if pin then ctxPut 31 16 (ctxPins c + 1) c else c) g.contexts, lru := g.lru + 1 }

/-- The context of a clip's object, as the table holds it. -/
def Ingest.contextOf (g : Ingest) (d : BitVec 256) : Option (Nat × BitVec 512) :=
  g.contexts.find? fun x => ctxKey x.2 == descKey d && ctxState x.2 != 0

/-- A context with an uncorrectable word is discarded (R36). -/
def dropBadContext (d : BitVec 256) (s : State) : State :=
  match s.ingest.contextOf d with
  | none => s
  | some (i, _) => match s.badIn (contextAddr i) 64 with
    | none => s
    | some w =>
      let s := memBadNoHalt none w (unitAddr 5 103 0) 0 s
      (s.updIngest fun g => { g with contexts := sset 0 i 0 g.contexts, pins := g.pins.filter fun x => x.2 != i }).mend
        (contextAddr i) 64

/-- The clip of a place claims and pins its context, once (R278, R279). A FAILED context is used and not pinned. -/
def claimContext (place : Nat) (d : BitVec 256) (s : State) : State :=
  if s.ingest.pins.any fun x => x.1 == place then s
  else
    let s := dropBadContext d s
    match s.ingest.contextOf d with
    | some (i, c) =>
      if ctxState c = 3 then s.updIngest (useContext i c false)
      else s.updIngest fun g => { useContext i c true g with pins := g.pins ++ [(place, i)] }
    | none => match s.ingest.claim with
    | none => s
    | some (i, evict) =>
      let s := s.updIngest fun g => { useContext i (newContext d) true g with pins := g.pins ++ [(place, i)] }
      if evict then s.updIngest fun g => g.count 19 1 else s

/-- A clip's decode ends: its pin is released, and `f` is what the clip leaves in the context. A context that a failed read
leaves in PARSING is FREE once nothing pins it. -/
def releaseContext (place : Nat) (f : BitVec 512 → BitVec 512) (s : State) : State :=
  match s.ingest.pins.find? fun x => x.1 == place with
  | none => s
  | some (_, i) => s.updIngest fun g =>
    let c := f (sget 0 g.contexts i)
    let c := ctxPut 31 16 (ctxPins c - 1) c
    let c := if ctxState c = 1 && ctxPins c == 0 then 0 else c
    { g with contexts := sset 0 i c g.contexts, pins := g.pins.filter fun x => x.1 != place }

/-- Every clip in progress is given up: a context that is still PARSING is FREE. -/
def Ingest.unpin (g : Ingest) : Ingest :=
  { g with contexts := (g.contexts.filter fun x => ctxState x.2 != 1).map fun x => (x.1, ctxPut 31 16 0 x.2), pins := [] }

/-- What a parse leaves in a context: STATE READY, the resolved codec, the stream identifiers, the random-access point, and
what its sequence says. -/
def parsedContext (i : Nat) (m : Demuxed) (r : ClipPictures) (c : BitVec 512) : BitVec 512 :=
  let c := ctxPut 458 456 2 c
  let c := ctxPut 451 448 m.codec c
  let c := ctxPut 447 435 m.vpid (ctxPut 434 422 m.apid c)
  let c := ctxPut 255 224 m.timescale c
  let c := if m.wraps then c else ctxPut 127 80 (Config.sampleIndexAddr i).toNat c
  let c := ctxAdd 223 192 1 (ctxAdd 63 48 r.scrambled (ctxAdd 47 32 (r.continuity + r.broken) c))
  match r.rap with
  | none => c
  | some p => ctxPut 367 335 p.pts (ctxPut 319 288 p.index (ctxPut 287 272 p.info.profile (ctxPut 271 264 p.info.level
      (ctxPut 263 262 p.info.chroma (ctxPut 261 258 p.info.depth c)))))

/-- PTS of the random-access point that a READY context has cached. -/
def cachedRap (c : BitVec 512) : Option Nat :=
  if ctxState c = 2 && bits c.toNat 271 264 + bits c.toNat 287 272 + bits c.toNat 261 258 != 0 then some (bits c.toNat 367 335)
  else none

/-! ### Reads (R276) -/

/-- The descriptor of a clip, from the host region where the table lies in one. -/
def State.descOf (s : State) (clip : Nat) (d : BitVec 256) : BitVec 256 :=
  match s.ingest.ns s.ingest.params.tableNs with
  | some x => if x.host then BitVec.ofNat 256 (memNat s.hostMem (x.base + s.ingest.params.tableBase + 32 * clip) 32) else d
  | none => d

/-- The object of a descriptor: what the namespace's Reads give, or the bytes of a host region (R275). -/
def State.objectOf (s : State) (d : BitVec 256) (object : List Byte) : List Byte :=
  let n := bits d.toNat 207 160
  match s.ingest.ns (bits d.toNat 31 27) with
  | some x => if x.host then memBytes s.hostMem (x.base + 4096 * bits d.toNat 255 208) n else object.take n
  | none => []

/-- Does a namespace lie in a host region, whose reads are OFFLOAD transfers (R275, R448)? -/
def Ingest.inHost (g : Ingest) (ns : Nat) : Bool := match g.ns ns with
  | some x => x.host
  | none => false

/-- NVME_READ_COMPLETION: a good Read of a clip's object means that the clip is in progress; a fatal status takes the
controller offline whatever the Read gave. -/
def execNvmeReadCompletion (ns : Fin 32) (place : Nat) (ok : Option (BitVec 256)) (fatal : Bool) (s : State) :
    Host.Outcome State Fault Refusal :=
  .next (if !s.ingestUp || s.ingest.offline.contains ns.val || !s.reads place then s
    else match s.ingest.ns ns.val with
    | none => s
    | some x => match ok with
      | none => readFailed x place fatal s
      | some desc =>
        let s := s.updIngest fun g =>
          { g with retries := sset 0 place 0 g.retries, failRow := sset 0 x.controller 0 g.failRow }
        let (e, n) := s.ingest.at' place
        let d := s.descOf (s.ingest.clipOf e n) desc
        let s := if d.getLsbD 0 && !descBad d && bits d.toNat 31 27 == ns.val then claimContext place d s else s
        if fatal then takeOffline x s else s)

/-- NVME_READ_TIMEOUT. -/
def execNvmeReadTimeout (ns : Fin 32) (place : Nat) (s : State) : Host.Outcome State Fault Refusal :=
  .next (if !s.ingestUp || s.ingest.offline.contains ns.val || !s.reads place then s
    else match s.ingest.ns ns.val with
    | none => s
    | some x => readFailed x place false s)

/-! ### Patches (R288, R289) -/

/-- The crop offset in a dimension: `dim` 0 for x, 1 for y. -/
def cropOffset (g : Ingest) (e clip dim extent out : Nat) : Nat :=
  if g.params.random then
    cg16 g.params.seed (g.key1 e) (BitVec.ofNat 64 (7 * 2 ^ 16 + dim)) (BitVec.ofNat 64 clip) % (extent - out + 1)
  else (extent - out) / 2

/-- The FP32 values of a clip in token order: frame group, patch row, patch column, then frame, channel, row, column. -/
def patchValues (g : Ingest) (e clip width height : Nat) (pixels : List Nat) : List Nat :=
  let p := g.params
  let px := pixels.toArray
  let ox := cropOffset g e clip 0 width p.outW
  let oy := cropOffset g e clip 1 height p.outH
  let value (t c y x : Nat) : Nat :=
    let v := px.getD (((t * 3 + c) * height + oy + y) * width + ox + x) 0
    (fpAdd fFP32 (fpMul fFP32 (p.a.getD c 0).toNat v).1 (p.b.getD c 0).toNat).1
  (List.range (p.tOut / p.pt)).flatMap fun gt => (List.range (p.outH / p.ph)).flatMap fun gy =>
    (List.range (p.outW / p.pw)).flatMap fun gx => (List.range p.pt).flatMap fun t => (List.range 3).flatMap fun c =>
      (List.range p.ph).flatMap fun y => (List.range p.pw).map fun x => value (gt * p.pt + t) c (gy * p.ph + y) (gx * p.pw + x)

/-- Token bytes, and the tensor scale's code. -/
def tokenData (fp8 : Bool) (vs : List Nat) : List Byte × Nat :=
  let fs := vs.map fun v => some (decodeF fFP32 v)
  let at' := amaxOf fs
  let o := convert (if fp8 then 3 else 1) ⟨false, false, false⟩ (fun _ => 0) at' [] fs
  (o.codes.flatMap fun c => leBytes (if fp8 then 1 else 2) (c.getD 0), if fp8 then o.tscale.getD 0x3F800000 else 0x3F800000)

/-! ### Decoding a clip into the reservoir (R286, R287, R293) -/

/-- The lowest free slot of the reservoir. -/
def Ingest.freeSlot (g : Ingest) : Nat :=
  ((List.range (g.slots.length + 1)).find? fun i => !(g.slots.any fun x => x.index == i)).getD 0

/-- Put a clip into a slot. -/
def fillSlot (place clip reason concealed tscale : Nat) (data : List Byte) (s : State) : State :=
  let g := s.ingest
  let i := g.freeSlot
  let a := g.params.reservoir + i * g.params.clipBytes
  let s := s.updIngest fun g =>
    { g with slots := g.slots ++ [⟨i, place, clip, reason, concealed, tscale⟩]
             failedReads := g.failedReads.erase place, retries := sset 0 place 0 g.retries }
  if reason = 0 then s.put a (fit g.params.clipBytes data) else s

/-- A drop. -/
def dropClip (place clip reason : Nat) (s : State) : State := fillSlot place clip reason 0 0x3F800000 [] s

/-- A clip whose object is read: its pictures and audio are a function of the object's bytes, and its context, the counters
and a slot take what it leaves. -/
def decodeClip (place e clip : Nat) (d : BitVec 256) (object : List Byte) (bytesRead : Nat) (s : State) : State :=
  let s := claimContext place d s
  match s.ingest.pins.find? fun x => x.1 == place with
  | none => dropClip place clip 8 s
  | some (_, i) =>
    let s := s.updIngest fun g => g.count 17 bytesRead
    let p := s.ingest.params
    if s.ingest.failedReads.contains place then dropClip place clip 2 (releaseContext place (fun c => c) s)
    else
      match demux d (s.objectOf d object) with
      | none => dropClip place clip 8 (releaseContext place (ctxPut 458 456 3) s)
      | some m =>
        let r := decodeStream p d (cachedRap (sget 0 s.ingest.contexts i)) m
        let (audio, bad) := if r.reason = 0 then clipAudio p p.samples (bits d.toNat 159 127) m else ([], 0)
        let s := releaseContext place (parsedContext i m r) s
        let s := s.updIngest fun g =>
          (((((g.count 11 r.decoded).count 12 r.discarded).count 13 r.concealed).count 14 r.scrambled).count 15
            r.continuity).count 16 bad
        if r.reason ≠ 0 then dropClip place clip r.reason s
        else
          let (w, h, px) := resizedClip p r.pictures
          let (bs, ts) := tokenData p.fp8 (patchValues s.ingest e clip w h px)
          fillSlot place clip 0 r.concealed ts (bs ++ fit (p.samples * p.audioChannels * 2) audio) s

/-- CLIP_DECODE: one place of this replica, at most W clips ahead of placement. -/
def execClipDecode (place : Nat) (desc : BitVec 256) (r : ClipRead) (s : State) :
    Host.Outcome State Fault Refusal :=
  let g := s.ingest
  let (e, n) := g.at' place
  let ahead := match s.localOf place with
    | some k => decide (g.placed ≤ k) && decide (k * g.params.c + place % g.params.c < g.placed * g.params.c + g.params.w)
    | none => false
  .next (if !s.ingestUp || s.job.state = 0 || g.awaitPosition || !ahead || g.ended place ||
      g.slots.length ≥ g.params.w || (g.slots.any fun x => x.place == place) then s
    else
      let clip := g.clipOf e n
      let d := s.descOf clip desc
      let ns := bits d.toNat 31 27
      if s.offloadWaits && (g.inHost g.params.tableNs || g.inHost ns) then s
      else if g.offline.contains g.params.tableNs then (if g.params.offlineDrop then dropClip place clip 2 s else s)
      else if !d.getLsbD 0 then dropClip place clip 1 s
      else if descBad d then dropClip place clip 8 s
      else if (g.ns ns).isNone then dropClip place clip 2 s
      else if g.offline.contains ns then (if g.params.offlineDrop then dropClip place clip 2 s else s)
      else decodeClip place e clip d r.object r.bytesRead s)

/-! ### Placing a micro-batch (R294, R295, R299) -/

/-- The virtual stage at position 0. -/
def State.stage0 (s : State) : Option Nat := s.loadedStages.find? fun v => (s.stage v).image.position == 0

/-- Is clip `c` of micro-batch `k` ready to be placed? -/
def State.clipReady (s : State) (k c : Nat) : Bool :=
  s.ingest.ended (s.placeOf k c) || s.ingest.slots.any fun x => x.place == s.placeOf k c

/-- What fills clip `c`: its record, its data, and whether it carries tokens. -/
def State.clipPart (s : State) (k c : Nat) : BitVec 256 × List Byte × Nat :=
  let g := s.ingest
  let p := g.params
  let place := s.placeOf k c
  let (e, n) := g.at' place
  let off := (p.headBytes + c * p.clipBytes) / 256
  match g.slots.find? fun x => x.place == place with
  | none => (clipRecord (g.clipOf e n) e n off 0x3F800000 0 0 2 9, List.replicate p.clipBytes 0, 9)
  | some x =>
    if x.reason ≠ 0 then (clipRecord x.clip e n off x.tscale 0 0 2 x.reason, List.replicate p.clipBytes 0, x.reason)
    else (clipRecord x.clip e n off x.tscale x.concealed p.samples (if x.concealed = 0 then 0 else 1) 0,
      s.load (p.reservoir + x.index * p.clipBytes) p.clipBytes, 0)

/-- An uncorrectable word that the copy meets. -/
def State.copyBad (s : State) (k : Nat) : Option Nat :=
  let p := s.ingest.params
  (List.range p.c).findSome? fun c =>
    match s.ingest.slots.find? fun x => x.place == s.placeOf k c && x.reason == 0 with
    | some x => s.badIn (p.reservoir + x.index * p.clipBytes) p.clipBytes
    | none => none

/-- The unit that numbers places and epochs: the shuffle permuter. -/
def permuterUnit : Nat := unitAddr 5 102 0

/-- The epochs that end with micro-batch `k`, and the end of the last one (R292). -/
def epochEvents (k : Nat) (s : State) : State :=
  let g := s.ingest
  let e0 := (g.at' (s.placeOf k 0)).1
  let e1 := (g.at' (s.placeOf (k + 1) 0)).1
  let s := forEach ((List.range (e1 - e0)).map (e0 + ·)) (fun e s => raise 0x0403 permuterUnit 0 [(4, e)] s) s
  if g.ended (s.placeOf (k + 1) 0) && !g.endRaised then
    raise 0x0402 permuterUnit 0 [] (s.updIngest fun g => { g with endRaised := true })
  else s

/-- Copy the payload into the receive slot and place its Clause. -/
def placeBatch (v : Nat) (s : State) : State :=
  let g := s.ingest
  let p := g.params
  let k := g.placed
  let parts := (List.range p.c).map (s.clipPart k)
  let head := fit p.headBytes (parts.flatMap fun x => leBytes 32 x.1.toNat)
  let payload := head ++ parts.flatMap (·.2.1)
  let mask := ((List.range p.c).zip parts).foldl (fun m x => if x.2.2.2 = 0 then m + 2 ^ x.1 else m) 0
  let (e, n) := g.at' (s.placeOf k 0)
  let st := s.stage v
  let c := BitVec.ofNat 512 (1 + bit p.clsS * 2 ^ 4 + 0xFFFF * 2 ^ 16 + st.image.stage * 2 ^ 32 + k % 2 ^ 32 * 2 ^ 64 +
    st.forwardIn.delivered % 2 ^ 32 * 2 ^ 96 + payload.length / 256 * 2 ^ 192 + mask * 2 ^ 320 +
    (n + e % 2 ^ 24 * 2 ^ 40) * 2 ^ 384)
  let s := deliver v false c payload s
  let mine := (List.range p.c).map fun c => s.placeOf k c
  let s := s.updIngest fun g =>
    let g := { g with placed := k + 1, slots := g.slots.filter fun x => !mine.contains x.place }
    let drops := (parts.map (·.2.2)).filter (· ≠ 0)
    drops.foldl (fun g r => (g.count 1 1).count (1 + r) 1) (g.count 0 p.c)
  epochEvents k s

/-- INGEST_PLACE. -/
def execIngestPlace (s : State) : Host.Outcome State Fault Refusal :=
  let g := s.ingest
  .next (match s.stage0 with
    | none => s
    | some v =>
      let blocked := !g.params.offlineDrop && !g.offline.isEmpty
      let atStop := match g.stopAt with
        | some n => decide (n ≤ g.placed)
        | none => false
      if !s.ingestUp || g.awaitPosition || g.stopped || atStop || g.endRaised || blocked || !(s.stage v).live ||
          !(s.stage v).credit false || g.ended (s.placeOf g.placed 0) ||
          !((List.range g.params.c).all (s.clipReady g.placed)) then s
      else match s.copyBad g.placed with
        | some w => memBadNoHalt none w permuterUnit 0 (s.updIngest fun g => { g with stopped := true })
        | none =>
          let slot := (s.stage v).slotAddr false ((s.stage v).forwardIn.delivered % 2 ^ 32)
          match s.deliveryDie (s.stage v) slot, s.badAmong [queueState v 0] with
          | some d, _ => dieAbsent clauseStoreUnit 0 (some v) d slot s
          | none, some w => memBad (some v) w clauseStoreUnit 0 s
          | none, none => placeBatch v s)

/-- INGEST_REJOIN. -/
def execIngestRejoin (s : State) : Host.Outcome State Fault Refusal :=
  .next (if !s.ingest.rejoinPending || !s.ingest.isOpen then s
    else raiseParser 0x0404 [(4, s.ingest.placed)]
      (s.updIngest fun g => { g with rejoinPending := false, awaitPosition := true }))

/-! ### The commands (R301) -/

/-- In reduced service the ingest die is not in use. -/
def ingestEarly (s : State) : Option Nat := if s.reduced || s.chip.bringup < 4 then some stState else none

/-- INGEST_OPEN. -/
def ingestOpenSpec : CmdSpec :=
  { opcode := 0x40, control := true, states := [1, 4], basicArgs := [(0, 1), (8, 8), (16, 8)]
    expertArgs := [(0, 1), (8, 8), (16, 8)], lenLo := 16, lenHi := 16777216, respMin := 0, early := ingestEarly }

/-- A namespace entry of the payload: number (byte 0), flags (byte 1, bit 0 a host region), port (byte 2), namespace
identifier (bytes 4 to 7), base (bytes 8 to 15) (log 17). -/
def nsEntry (bs : List Byte) : IngestNs :=
  let f (o n : Nat) : Nat := leNat ((bs.drop o).take n)
  ⟨f 0 1, bitAt (f 1 1) 0, f 2 1, f 4 4, f 8 8⟩

/-- The entries from byte `o` of the payload. -/
def nsEntries (bs : List Byte) : Nat → List IngestNs
  | 0 => []
  | n + 1 => if bs.length < 16 then [] else nsEntry bs :: nsEntries (bs.drop 16) n

/-- The basic parameters. -/
def basicIngest (c : Cmd) (s : State) : IngestParams :=
  { tableNs := c.arg 0 1, tableBase := c.arg 8 8, n := c.arg 16 8, seed := s.job.seed, namespaces := nsEntries c.pay 32 }

/-- Parameters from the 96-byte block that stands before the namespaces (log 17). -/
def paramsOf (tableNs tableBase n : Nat) (bs : List Byte) : IngestParams :=
  let g (o k : Nat) : Nat := leNat ((bs.drop o).take k)
  let f := g 0 4
  let w (o : Nat) : W32 := BitVec.ofNat 32 (g o 4)
  { tableNs := tableNs, tableBase := tableBase, n := n, c := g 4 2, w := g 6 2
    outW := g 8 2, outH := g 10 2, fps := g 12 2, tOut := g 14 2, pt := g 16 2
    ph := g 18 2, pw := g 20 2, concealMax := g 22 2, audioRate := g 24 4
    audioChannels := g 28 2, seed := BitVec.ofNat 64 (g 32 8), a := [w 40, w 44, w 48]
    b := [w 52, w 56, w 60], reservoir := g 64 8, reservoirLen := g 72 8
    fp8 := bitAt f 0, random := bitAt f 1, field := bitAt f 2, ycbcr := bitAt f 3, aspect := bitAt f 4
    conceal := bitAt f 5, offlineDrop := bitAt f 6, clsS := bitAt f 7, namespaces := nsEntries (bs.drop 96) 32 }

/-- The expert parameters. -/
def expertIngest (c : Cmd) : IngestParams := paramsOf (c.arg 0 1) (c.arg 8 8) (c.arg 16 8) c.pay

/-- The block and the namespaces of a parameter set. -/
def IngestParams.bytes (p : IngestParams) : List Byte :=
  let flags := bit p.fp8 + 2 * bit p.random + 4 * bit p.field + 8 * bit p.ycbcr + 16 * bit p.aspect + 32 * bit p.conceal +
    64 * bit p.offlineDrop + 128 * bit p.clsS
  leBytes 4 flags ++ ([p.c, p.w, p.outW, p.outH, p.fps, p.tOut, p.pt, p.ph, p.pw, p.concealMax].flatMap (leBytes 2)) ++
    leBytes 4 p.audioRate ++ leBytes 4 p.audioChannels ++ leBytes 8 p.seed.toNat ++
    (p.a ++ p.b).flatMap (fun x => leBytes 4 x.toNat) ++ leBytes 8 p.reservoir ++ leBytes 8 p.reservoirLen ++ leBytes 16 0 ++
    p.namespaces.flatMap fun x => leBytes 1 x.num ++ leBytes 1 (bit x.host) ++ leBytes 1 x.port ++ leBytes 1 0 ++
      leBytes 4 x.nsid ++ leBytes 8 x.base

/-- Are the parameters in range (R289, R290, R293, Table 11.7)? -/
def IngestParams.ok (p : IngestParams) : Bool :=
  decide (1 ≤ p.n ∧ p.n ≤ 2 ^ 40) && decide (1 ≤ p.c ∧ p.c ≤ 64) && decide (1 ≤ p.w ∧ p.w ≤ 4096) &&
  decide (1 ≤ p.outW ∧ 1 ≤ p.outH ∧ 1 ≤ p.fps ∧ 1 ≤ p.tOut ∧ 1 ≤ p.pt ∧ 1 ≤ p.ph ∧ 1 ≤ p.pw) &&
  p.tOut % p.pt == 0 && p.outH % p.ph == 0 && p.outW % p.pw == 0 && decide (p.concealMax ≤ p.tOut) &&
  (p.audioRate == 0 || p.audioRate == 16000 || p.audioRate == 48000) && (p.audioChannels == 1 || p.audioChannels == 2) &&
  ((p.a ++ p.b).all fun x => (decodeF fFP32 x.toNat).isFin) && (p.namespaces.all fun x => decide (x.num < 32)) &&
  ((p.namespaces.map (·.num)).eraseDups.length == p.namespaces.length)

/-- Are a namespace's logical blocks of a supported size (R274)? -/
def nsBlockOk (x : IngestNs) : Bool := Config.nsBlock x.port x.nsid == 512 || Config.nsBlock x.port x.nsid == 4096

/-- The first refusal that the namespaces bring (R268, R274, R275). -/
def nsRefusal (s : State) (p : IngestParams) : Option Nat :=
  if (p.namespaces.find? fun x => x.num == p.tableNs).isNone then some stUnit
  else if p.namespaces.any fun x => !x.host && !Config.nsKnown x.port x.nsid then some stUnit
  else if p.namespaces.any fun x => !x.host && (Config.nsMetadata x.port x.nsid || !nsBlockOk x) then some stUnsupported
  else if p.namespaces.any fun x => !x.host &&
      (s.faults.retired.any fun r => isStoragePort r.1 r.2.1 && r.1 % 64 == x.port) then some stRetired
  else none

/-- The offset of a reserved bit or byte of the payload that is not 0: in the parameter block, in a flag byte, where the
basic level has no host region, and in byte 3 of an entry (R18). -/
def ingestReserved (expert : Bool) (bs : List Byte) : Option Nat :=
  let nonzero (o n : Nat) : Option Nat := (List.range n).findSome? fun i => if bs.getD (o + i) 0 = 0 then none else some (o + i)
  let head := if expert then (nonzero 1 3).orElse fun _ => (nonzero 30 2).orElse fun _ => nonzero 84 12 else none
  let off := if expert then 96 else 0
  let entry (i : Nat) : Option Nat :=
    let o := off + 16 * i
    if (bs.getD (o + 1) 0).toNat > (if expert then 1 else 0) then some (o + 1) else nonzero (o + 3) 1
  head.orElse fun _ => (List.range ((bs.length - off) / 16)).findSome? entry

/-- Does a range lie in the HBM of a die? -/
def areaInHbm (d a n : Nat) : Bool := n == 0 || (inHbm d a && inHbm d (a + n - 1))

/-- The area that firmware takes for a basic INGEST_OPEN: in the die's HBM, 256-byte aligned (R293, log 15). -/
def basicArea (d n : Nat) : Nat := d * 2 ^ 40 + Config.reservoirPlace d n % ((144 * 2 ^ 30 - n) / 256 + 1) * 256

/-- Its effect. -/
def ingestOpen (c : Cmd) (s : State) : Reply :=
  match s.stage0 with
  | none => .no stState
  | some v =>
    let g := s.stage v
    let head := if c.expert then 96 else 0
    if c.len < head + 16 || (c.len - head) % 16 ≠ 0 then .noAt stLength 24
    else if (c.len - head) / 16 > 32 then .noAt stRange 24
    else match ingestReserved c.expert c.pay with
    | some o => .noAt stReserved (64 + o)
    | none =>
      let p := if c.expert then expertIngest c else basicIngest c s
      if !p.ok || p.n ≤ s.ingest.n0 then .no stRange
      else match nsRefusal s p with
      | some st => .no st
      | none =>
        let p := if c.expert then p
          else { p with reservoir := basicArea g.image.die (p.w * p.clipBytes), reservoirLen := p.w * p.clipBytes }
        if p.payload > g.finSlot then .no stLength
        else if p.reservoirLen < p.w * p.clipBytes then .no stLength
        else if c.expert && !areaInHbm g.image.die p.reservoir p.reservoirLen then .noAt stRange 128
        else
          let again := if c.expert then c.payNat 80 4 else 0
          let back := p.namespaces.filter fun x => bitAt again x.num
          .ok (s.updIngest fun i =>
            { i.unpin with
                     isOpen := true, params := p, slots := [], retries := [], failedReads := []
                     offline := i.offline.filter fun n => !bitAt again n && (p.namespaces.any fun x => x.num == n)
                     failRow := i.failRow.filter fun x => !(back.any fun y => y.controller == x.1) })

/-- INGEST_OPEN. -/
def execIngestOpen (c : Cmd) (s : State) : Host.Outcome State Fault Refusal := runCmd c ingestOpenSpec (ingestOpen c) s

/-- INGEST_EPOCH. -/
def ingestEpochSpec : CmdSpec :=
  { opcode := 0x41, control := true, states := [1, 4], basicArgs := [], expertArgs := [(0, 8), (8, 8), (16, 8), (24, 8)]
    lenLo := 0, lenHi := 0, respMin := 0, early := ingestEarly }

/-- Its effect. -/
def ingestEpoch (c : Cmd) (s : State) : Reply :=
  if !c.expert then
    .ok (s.updIngest fun g =>
      { g.unpin with
               e0 := 0, n0 := 0, epochBase := 0, eLim := none, endRaised := false, slots := [], failedReads := []
               retries := [] })
  else if s.ingest.isOpen && decide (c.arg 8 8 ≥ s.ingest.params.n) then .noAt stRange 40
  else if c.arg 24 8 ≤ c.arg 0 8 then .noAt stRange 56
  else .ok (s.updIngest fun g =>
    { g.unpin with
             e0 := c.arg 0 8, n0 := c.arg 8 8, epochBase := BitVec.ofNat 64 (c.arg 16 8), eLim := some (c.arg 24 8)
             endRaised := false, slots := [], failedReads := [], retries := [] })

/-- INGEST_EPOCH. -/
def execIngestEpoch (c : Cmd) (s : State) : Host.Outcome State Fault Refusal := runCmd c ingestEpochSpec (ingestEpoch c) s

/-- A position with the epoch and index of its first place. -/
def positionBytes (s : State) (k : Nat) : List Byte :=
  let (e, n) := if s.ingest.isOpen then s.ingest.at' (s.placeOf k 0) else (0, 0)
  leBytes 8 k ++ leBytes 8 e ++ leBytes 8 n

/-- Bytes of the report. -/
def positionSize : Nat := 48 + 8 * 20

/-- INGEST_POSITION: the set form is the expert form. -/
def ingestPositionSpec (c : Cmd) (s : State) : CmdSpec :=
  { opcode := 0x42, control := c.expert
    states := if c.expert && !s.ingest.awaitPosition then [1, 4] else anyJob
    basicArgs := [], expertArgs := [(0, 8), (8, 8)], lenLo := 0, lenHi := 0, respMin := if c.expert then 0 else positionSize }

/-- Its effect. -/
def ingestPosition (c : Cmd) (s : State) : Reply :=
  let report (s : State) : List Byte :=
    positionBytes s s.ingest.placed ++ positionBytes s s.ingest.consumed ++
      (List.range 20).flatMap fun i => leBytes 8 (sget 0 s.ingest.counters i).toNat
  if !c.expert then .done [] (report s) s
  else if s.ingest.isOpen && decide (c.arg 8 8 ≥ s.ingest.params.n) then .noAt stRange 40
  else
    let s := s.updIngest fun g =>
      { g.unpin with
               e0 := c.arg 0 8, n0 := c.arg 8 8, placed := 0, consumed := 0, awaitPosition := false, endRaised := false
               slots := [], failedReads := [], retries := [], stopAt := none }
    .done [] (if c.respLen ≥ positionSize then report s else []) s

/-- INGEST_POSITION. -/
def execIngestPosition (c : Cmd) (s : State) : Host.Outcome State Fault Refusal :=
  runCmd c (ingestPositionSpec c s) (ingestPosition c) s

end Sys2Proof.Machine
end

