-- ==== Sys2Proof/Machine/Jobs.lean ====
section
/-!
DEFINITION. Sys2Proof/Machine/Jobs.lean: the life of a job (R373 to R381): DEV_INFO, JOB_CREATE, PORT_ROLE_SET, JOB_START,
JOB_PAUSE, JOB_RESUME, HALT, and the reports STAGE_FLAGS and NUMLOG_READ.
-/
namespace Sys2Proof.Machine

/-! ### DEV_INFO (Table 14.12) -/

/-- FAULT_CAUSE (Table 14.3). -/
def Chip.faultCause (c : Chip) : Nat :=
  bit c.thermalTrip + 2 * bit c.outOfService + 4 * bit c.parserFault + 8 * bit c.bootFail + 16 * bit c.thermalSeen

/-- Is FAULT_L released: driven low while any cause bit is 1 (R427), and high-impedance while the module is unpowered or in
RESET (R425)? -/
def Chip.faultL (c : Chip) : Bool := c.faultCause == 0 || !c.powered || c.bringup == 0

/-- The level of ST_PERST_L of a root port: low until the port is trained (R425). -/
def Chip.storagePerstL (c : Chip) (p : Nat) : Bool := c.storageUp.getLsbD p

/-- Guest sites that the manifest populates. -/
def guestSites : Nat := ((List.range 2).filter fun p => Config.siteType (6 + p) == 0xF0).length

/-- JOB, or 0 while there is no job. -/
def State.jobId (s : State) : Nat := if s.job.state = 0 then 0 else s.job.id.toNat

/-- The device information record. -/
def devRecord (s : State) : List Byte :=
  fit 128 (leBytes 8 Config.serial.toNat ++ leBytes 4 s.chip.fwVersion.toNat ++ leBytes 1 s.chip.bringup ++
    leBytes 1 s.chip.fwSlot ++ leBytes 1 Config.fusedGrade ++ leBytes 1 s.grade ++ leBytes 1 s.nextGrade ++
    leBytes 1 guestSites ++ leBytes 1 (bit s.chip.outOfService) ++ leBytes 1 s.job.state ++ leBytes 4 s.jobId ++
    leBytes 8 s.chip.uptime.toNat ++ leBytes 4 s.faults.poh.toNat ++
    leBytes 2 (s.loadedStages.foldl (fun a v => a + 2 ^ v) 0) ++
    leBytes 1 (((List.range 8).filter fun p => (s.port p).state == 2).foldl (fun a p => a + 2 ^ p) 0) ++ leBytes 1 0 ++
    leBytes 4 s.chip.faultCause)

/-- The record of one Conjunction port. -/
def portRecord (s : State) (p : Nat) : List Byte :=
  let q := s.port p
  fit 128 (leBytes 1 q.state ++ leBytes 1 q.role ++ leBytes 1 q.partnerRank ++ leBytes 5 0 ++
    leBytes 8 q.partnerSerial.toNat ++ (List.range 12).flatMap fun i => leBytes 8 (sget 0 q.counters i).toNat)

/-- DEV_INFO. -/
def devInfoSpec (c : Cmd) : CmdSpec :=
  { opcode := 0x01, control := false, states := anyJob, basicArgs := [], expertArgs := [], lenLo := 0, lenHi := 0
    respMin := if c.expert then 1152 else 128 }

/-- Its effect. -/
def devInfo (c : Cmd) (s : State) : Reply :=
  .done [] (devRecord s ++ (if c.expert then (List.range 8).flatMap (portRecord s) else [])) s

/-- DEV_INFO. -/
def execDevInfo (c : Cmd) (s : State) : Host.Outcome State Fault Refusal := runCmd c (devInfoSpec c) (devInfo c) s

/-! ### JOB_CREATE (R377) -/

/-- JOB_CREATE: from REDUCED on. -/
def jobCreateSpec : CmdSpec :=
  { opcode := 0x10, control := true, states := [0], basicArgs := [(0, 4), (4, 8)]
    expertArgs := [(0, 4), (4, 8), (12, 1), (13, 1), (14, 1), (16, 4), (20, 1), (21, 1), (22, 1)]
    lenLo := 0, lenHi := 0, respMin := 0, early := fun s => if s.chip.bringup < 4 then some stState else none }

/-- The job that an entry describes; the basic level has G 1, RANK 0, Z 1, T 500 ms and the default partitions. -/
def jobOf (c : Cmd) : Job :=
  let base : Job := { state := 1, id := BitVec.ofNat 32 (c.arg 0 4), seed := BitVec.ofNat 64 (c.arg 4 8) }
  if !c.expert then base
  else
    let t := if c.arg 16 4 = 0 then 500 else c.arg 16 4
    let def3 := c.arg 20 1 == 0 && c.arg 21 1 == 0 && c.arg 22 1 == 0
    { base with
      g := c.arg 12 1 + 1, rank := c.arg 13 1, z := c.arg 14 1, timeout := t
      offloadMib := if def3 then 40 else c.arg 20 1, exportMib := if def3 then 16 else c.arg 21 1
      bar2Mib := if def3 then 8 else c.arg 22 1 }

/-- The first field out of range. -/
def Job.badField (j : Job) : Option Nat :=
  if j.id = 0 then some 32
  else if j.g > 32 then some 44
  else if j.rank ≥ j.g then some 45
  else if j.z = 0 || j.g % j.z != 0 then some 46
  else if j.timeout < 10 || j.timeout > 60000 then some 48
  else if j.offloadMib + j.exportMib + j.bar2Mib ≠ 64 || j.exportMib < 1 || j.bar2Mib < 1 then some 52
  else none

/-- Its effect: the module leaves parking and takes a demotion that is due (R9, R434), then the job stands. Its partitions
of the transfer SRAM hold once every BAR2 access already received has been performed (R447). -/
def jobCreate (c : Cmd) (s : State) : Reply :=
  let j := jobOf c
  match j.badField with
  | some o => .noAt stRange o
  | none =>
    if s.chip.outOfService then .no stOutOfService
    else .ok ((demote (unpark c.opcode (drainBar2 s))).updJob fun _ => j)

/-- JOB_CREATE. -/
def execJobCreate (c : Cmd) (s : State) : Host.Outcome State Fault Refusal := runCmd c jobCreateSpec (jobCreate c) s

/-! ### PORT_ROLE_SET (R335, R352) -/

/-- PORT_ROLE_SET; the expert level carries a route table of 128 bytes. -/
def portRoleSpec (c : Cmd) : CmdSpec :=
  { opcode := 0x12, control := true, states := [1, 4], basicArgs := [(0, 8)], expertArgs := [(0, 1), (1, 1), (2, 1)]
    lenLo := if c.expert then 128 else 0, lenHi := if c.expert then 128 else 0, respMin := 0
    resv := fun c => if c.expert && c.arg 2 1 > 1 then some 2 else none }

/-- Is a port retired (R268)? -/
def State.portRetired (s : State) (p : Nat) : Bool :=
  s.faults.retired.any fun r => isCjPort r.1 r.2.1 && r.1 % 64 == p

/-- Why a port may not take a role; the role stands at the entry's byte `o`. -/
def roleRefusal (s : State) (down : Bool) (p role o : Nat) : Option Refuse :=
  if (s.port p).state ≠ 0 && !down then some { status := stState }
  else if role > 4 then some { status := stRange, offset := o }
  else if role ≠ 0 && s.reduced then some { status := stState }
  else if role ≠ 0 && s.portRetired p then some { status := stRetired }
  else none

/-- Clauses that wait go to the port of their role that their destination stage now has, from their first frame (R172). -/
def rehome (s : State) : State :=
  forEach (List.range 8) (fun p s =>
    let away (m : OutMsg) : Bool := m.clause.isSome && s.msgPort m != some p
    let moved := (s.port p).out.filter away
    if moved.isEmpty then s
    else forEach moved (fun m => queueColl { m with sent := 0, started := false, finished := false })
      (s.updPort p fun q => { q with out := q.out.filter fun m => !away m })) s

/-- Give a port its role. Messages that wait on it go to the ports that now serve them, from their first frame. -/
def setRole (p role : Nat) (s : State) : State :=
  let old := s.port p
  let msgs := (Port.fresh s old).out
  if role = old.role then s
  else
    let s := s.updPort p fun q => { Port.fresh s q with role := role, out := [] }
    forEach (msgs.filter fun m => !isExport m) queueColl s

/-- The route of each rank, from the table's four-bit entries. -/
def routeTable (bs : List Byte) : List Nat := bs.flatMap fun b => [b.toNat % 16, b.toNat / 16]

/-- Its effect. -/
def portRoleSet (c : Cmd) (s : State) : Reply :=
  let want : List (Nat × Nat) :=
    if c.expert then [(c.arg 0 1, c.arg 1 1)] else (List.range 8).map fun p => (p, c.arg p 1)
  let down := c.expert && c.arg 2 1 == 1
  let routes := routeTable c.pay
  if want.any fun w => w.1 > 7 then .noAt stRange 32
  else match want.findSome? fun w => roleRefusal s down w.1 w.2 (32 + if c.expert then 1 else w.1) with
  | some r => .refuse r
  | none =>
    if routes.any fun r => decide (8 ≤ r ∧ r < 15) then .noAt stRange 64
    else
      let s := if down then portDown (c.arg 0 1) 4 s else s
      let s := rehome (forEach want (fun w s => setRole w.1 w.2 s) s)
      .ok { s with routes := routes }

/-- PORT_ROLE_SET. -/
def execPortRoleSet (c : Cmd) (s : State) : Host.Outcome State Fault Refusal := runCmd c (portRoleSpec c) (portRoleSet c) s

/-! ### JOB_START (R379) -/

/-- JOB_START. -/
def jobStartSpec : CmdSpec :=
  { opcode := 0x13, control := true, states := [1], basicArgs := [], expertArgs := [], lenLo := 0, lenHi := 0, respMin := 0
    retired := State.jobRetired }

/-- Is a neighbour neither loaded here nor reached through a port of the role (R172)? -/
def State.unreached (s : State) (role stage : Nat) : Bool :=
  stage != 0xFFFF && (s.findStage stage).isNone && (s.rolePorts role).isEmpty

/-- A stage that cannot start. -/
def State.unready (s : State) (v : Nat) : Bool :=
  let g := s.stage v
  g.rule.isNone || s.unreached roleDown g.succ || s.unreached roleUp g.predecessor

/-- Every flag and the lost-element counter of a unit are cleared (R67). -/
def EngineState.wipeFlags (e : EngineState) : EngineState := { e with vflags := 0, aflags := 0, lost := 0 }

/-- What JOB_START clears of a stage (R106, R127, R128), and its start. -/
def Stage.startJob (g : Stage) : Stage :=
  { g with
    replayR1 := 0, replayR2 := 0, propagated := 0, prewidenedCount := 0, logOverrun := 0, logSeq := 0, logRead := 0
    longsum := false, started := true
    haltCode := if g.haltFinal then g.haltCode else 0 }

/-- The state of a stage's queues and the places of its micro-batch records are written anew (Table 7.6, R36). -/
def State.freshRecords (s : State) (v : Nat) : State := (s.mend (queueState v 0).1 0x1000).mend (mbAddr v 0).1 0x4_0000

/-- Start one stage. -/
def startStage (v : Nat) (s : State) : State :=
  let g := s.stage v
  let s := ((s.freshRecords v).updStage v Stage.startJob).updCells v EngineState.wipeFlags
  let s := s.updEng (g.image.die * 128 + 97) EngineState.wipeFlags
  if g.haltFinal then s else startAt v 0 (s.updCells v EngineState.zeroOrdinal)

/-- Its effect. -/
def jobStart (s : State) : Reply :=
  if s.loadedStages.isEmpty then .no stState
  else match s.loadedStages.find? s.unready with
  | some v => .noStage stState (s.stage v).image.stage
  | none =>
    if s.jobRetired then .no stRetired
    else
      let s := forEach s.loadedStages startStage s
      let s := forEach (List.range 8) (fun p s => s.updPort p fun q =>
        { q with accepted := q.state == 2 || q.state == 3, counters := [] }) s
      let s := s.updIngest fun i => { i with counters := [], offline := [], failRow := [], stopped := false, stopAt := none }
      .ok (jobEvent 0x0701 0 (s.updJob fun j => { j with state := 2, pauseReason := 0 }))

/-- JOB_START. -/
def execJobStart (c : Cmd) (s : State) : Host.Outcome State Fault Refusal := runCmd c jobStartSpec jobStart s

/-! ### JOB_PAUSE (R380) -/

/-- JOB_PAUSE. -/
def jobPauseSpec : CmdSpec :=
  { opcode := 0x14, control := true, states := [2], basicArgs := [], expertArgs := [(0, 1)], lenLo := 0, lenHi := 0
    respMin := 0 }

/-- A stage stops at its next group end; null-group code stops at once. -/
def pauseGroup (v : Nat) (s : State) : State :=
  if (s.stage v).exec.isSome && (s.stage v).haltCode == 0 then s.updStage v fun g => { g with pauseAt := 1 }
  else haltStage v 0x0702 false s

/-- A stage stops when its update `target` has flipped or been skipped. -/
def pauseBoundary (v target : Nat) (s : State) : State :=
  if (s.stage v).update.done ≥ target then haltStage v 0x0702 false s
  else s.updStage v fun g => { g with pauseAt := target + 2 }

/-- The step that a stage is in, by the takes of its module or by its own. -/
def State.stepOf (s : State) (v : Nat) : Nat :=
  match (if s.ingest.isOpen then s.stage0 else none) with
  | some v0 => cdiv s.ingest.placed (s.stage v0).u
  | none => cdiv (s.stage v).takes (s.stage v).u

/-- Ingest stops: at once, or when the current step has been placed. -/
def stopIngest (boundary : Bool) (s : State) : State :=
  match (if boundary then s.stage0 else none) with
  | some v0 => s.updIngest fun i => { i with stopAt := some (cdiv i.placed (s.stage v0).u * (s.stage v0).u) }
  | none => s.updIngest fun i => { i with stopped := true }

/-- Its effect: it goes on until the last stage has stopped. -/
def jobPause (c : Cmd) (s : State) : Reply :=
  let mode := if c.expert then c.arg 0 1 else 0
  if mode > 2 || (mode == 2 && s.loadedStages.any fun v => (s.stage v).async) then .noAt stRange 32
  else
    let s := s.updJob fun j => { j with state := 3, pauseReason := if s.checking then 2 else 1 }
    let one (v : Nat) (s : State) : State :=
      if mode = 0 then pauseGroup v s else if mode = 1 then haltStage v 0x0702 false s else pauseBoundary v (s.stepOf v) s
    .goesOn (stopIngest (mode == 2) (forEach s.loadedStages one s))

/-- JOB_PAUSE. -/
def execJobPause (c : Cmd) (s : State) : Host.Outcome State Fault Refusal := runCmd c jobPauseSpec (jobPause c) s

/-! ### The end of a pause (R373, R266) -/

/-- Have all stages stopped, and have the repeats been made, and for a check their records written (R266)? -/
def State.paused (s : State) : Bool :=
  (s.job.state == 3 || s.checking) && !s.chip.fencing && (s.loadedStages.all fun v => (s.stage v).haltCode != 0) &&
    !s.toRepeat && (s.job.pauseReason != 2 || s.faults.toWrite.isEmpty)

/-- The job becomes PAUSED. -/
def enterPaused (s : State) : State :=
  let s := s.updIngest fun i => { i with stopped := true, stopAt := none }
  let s := (endRepeats s).updJob fun j => { j with state := 4 }
  let s := jobEvent 0x0702 s.job.pauseReason s
  completeOp 0x14 stOk [] s

/-- PAUSE_COMPLETE. -/
def execPauseComplete (s : State) : Host.Outcome State Fault Refusal :=
  .next (let s := settleHold s
    if s.paused then enterPaused s else s)

/-! ### JOB_RESUME (R374) -/

/-- JOB_RESUME. -/
def jobResumeSpec : CmdSpec :=
  { opcode := 0x15, control := true, states := [4], basicArgs := [], expertArgs := [], lenLo := 0, lenHi := 0, respMin := 0
    retired := State.jobRetired }

/-- Every cell of a stage starts at the ENTRY of the variant that it was executing. -/
def restartGroup (v : Nat) (d : BitVec 256) (rung : Nat) (s : State) : State :=
  let g := s.stage v
  let s := s.updStage v fun g => { g with exec := g.exec.map fun x => { x with ovf := none } }
  forEach (number 0 g.cellKeys) (fun (rank, k) s => s.updEng k fun e =>
    { startRegs v rank g.cellKeys.length g.image.blockAddr e with
      stat := .running, loops := [], outerLoops := 0, pc := declEntry d rung, ordinal := 0 }) s

/-- One resumable stage goes on: takes are rewound, held Clauses are placed again (R374, R457), a submit
restarts, and one that waits is made (R249). -/
def resumeStage (v : Nat) (s : State) : State :=
  let g := s.stage v
  if g.haltCode = 0 || g.haltFinal then s
  else
    let s := forEach g.cellKeys discardEnded s
    let s := s.updStage v fun g => { (g.dropHeld).rewind with haltCode := 0, pauseAt := 0, held := false }
    let s := match g.exec.bind fun x => (g.decl x.group).map fun d => (d, x.rung) with
      | some (d, rung) => restartGroup v d rung s
      | none => startAt v g.restart (s.updCells v EngineState.resumeOrdinal)
    trySubmit v 2 (resubmit v s)

/-- Its effect. -/
def jobResume (s : State) : Reply :=
  match s.loadedStages.find? fun v => (s.stage v).haltFinal || (s.stage v).updateHalt != 0 with
  | some v => .noStage stFaulted (s.stage v).image.stage
  | none =>
    if s.job.overwritten then .no stFaulted
    else if s.jobRetired then .no stRetired
    else
      let s := forEach s.loadedStages resumeStage s
      let s := s.updIngest fun i => { i with stopped := false, stopAt := none }
      let s := s.updChip fun c => { c with fenceDone := false }
      .ok (jobEvent 0x0703 0 (s.updJob fun j => { j with state := 2, pauseReason := 0 }))

/-- JOB_RESUME. -/
def execJobResume (c : Cmd) (s : State) : Host.Outcome State Fault Refusal := runCmd c jobResumeSpec jobResume s

/-! ### HALT (R381, R367, R411, R452) -/

/-- An engine that no job uses: its queues and waits are gone. -/
def EngineState.idleAll (e : EngineState) : EngineState :=
  { (e.halt).zeroOrdinal with inFlight := [], ruleStage := none, ready := [], committed := false, stat := .idle }

/-- A port at the end of its job. -/
def Port.freed (q : Port) : Port :=
  { counters := q.counters, protoAt := q.protoAt, state := 0, role := 0 }

/-- The job ends: stages, queues, Tenses, views, gradients and the reservoir go, ingest closes, every port goes DOWN with
reason JOB_END, and exports are abandoned. Fault records, retirements and flash stay. -/
def endJob (s : State) : State :=
  let had := s.job.state ≠ 0
  let id := s.job.id.toNat
  let s := forEach s.loadedStages (fun v s => haltStage v 0x0704 true s) s
  let s := forEach (List.range 8) (fun p s => portDown p 5 s) s
  let s := { s with ports := s.ports.map fun (i, q) => (i, Port.freed q), transit := [], routes := [], stages := []
                    engines := s.engines.map fun (i, e) => (i, EngineState.idleAll e), job := {} }
  let s := s.updIngest fun i =>
    { counters := i.counters, contexts := i.unpin.contexts, lru := i.lru, bifurcation := i.bifurcation }
  let s := s.updChip fun c => { c with fenceDone := c.fenceDone && !had, fencing := false }
  let s := endRepeats s
  if had then raiseParser 0x0704 [(1, 0), (1, 0), (4, id)] s else s

/-- RESULT of a BRINGUP_ADVANCE: the state reached, and SERVICE (R408). -/
def advanceResult (s : State) : List Byte := leBytes 1 s.chip.bringup ++ leBytes 1 s.chip.service

/-- A BRINGUP_ADVANCE ends with a status; one whose command was discarded writes none (R411). -/
def endAdvance (status : Nat) (s : State) : State :=
  let r := s.chip.advance.bind fun a => a.cmd
  let s := s.updChip fun c => { c with advance := none }
  match r with
  | some r => completeRunning r status (advanceResult s) s
  | none => s

/-- Stop a BRINGUP_ADVANCE at its step boundary: it completes with ST_ABORTED, after reduced service has been restored
where steps 12 to 18 had begun. -/
def stopAdvance (s : State) : State :=
  match s.chip.advance with
  | none => s
  | some a =>
    if a.begun then s.updChip fun c => { c with advance := some { a with restoring := true } }
    else endAdvance stAborted (s.updChip fun c => { c with autoTo := 4 })

/-- CONTROL commands that basic HALT interrupts complete with ST_ABORTED; a field test ends. -/
def abortControl (s : State) : State :=
  let mine := s.running.filter fun r => !readOpcodes.contains r.opcode.toNat && r.opcode.toNat != 0x02 && r.opcode.toNat != 0x16
  let s := forEach mine (fun r s => completeRunning r stAborted [] s) s
  s.updFaults fun f => { f with test := none }

/-- Basic HALT. -/
def haltAll (s : State) : State := stopAdvance (endJob (abortControl s))

/-- HALT. -/
def haltSpec : CmdSpec :=
  { opcode := 0x16, control := true, states := anyJob, basicArgs := [], expertArgs := [(0, 2)], lenLo := 0, lenHi := 0
    respMin := 0 }

/-- Expert HALT of one stage. -/
def haltOne (v : Nat) (s : State) : State :=
  let g := s.stage v
  if g.haltCode ≠ 0 then s
  else haltStage v 0x0705 false (raiseParser 0x0705 [(2, g.image.stage), (4, s.job.id.toNat)] s)

/-- Its effect; basic HALT waits for a fence that is under way. -/
def haltCmd (c : Cmd) (s : State) : Reply :=
  if c.expert then
    if s.unknownStage (c.arg 0 2) then .refuse { status := stUnit, stage := c.arg 0 2, offset := 32 }
    else .ok (forEach (s.named (c.arg 0 2)) haltOne s)
  else if s.chip.fencing then .goesOn (s.updChip fun x => { x with haltWaits := x.haltWaits ++ [runningOf c] })
  else .ok (haltAll s)

/-- HALT. -/
def execHalt (c : Cmd) (s : State) : Host.Outcome State Fault Refusal := runCmd c haltSpec (haltCmd c) s

/-! ### STAGE_FLAGS (R384) -/

/-- STAGE_FLAGS. -/
def stageFlagsSpec : CmdSpec :=
  { opcode := 0x60, control := false, states := [1, 2, 4], basicArgs := [(0, 2)], expertArgs := [(0, 2), (2, 1)]
    lenLo := 0, lenHi := 0, respMin := 64, resv := fun c => if c.expert && c.arg 2 1 > 1 then some 2 else none }

/-- The record of Table 14.13, over the stage's cells (log 114). -/
def flagsRecord (s : State) (v : Nat) : List Byte :=
  let g := s.stage v
  let es := g.cellKeys.map s.eng
  let fl := (es.map fun e => e.flagWords.toNat % 256).foldl (· ||| ·) 0
  let lost := (es.map (·.lost.toNat)).foldl (· + ·) 0
  fit 64 (leBytes 2 g.image.stage ++ leBytes 2 g.haltCode ++ leBytes 1 fl ++
    leBytes 1 (bit g.longsum + 2 * bit (g.haltCode != 0) + 4 * bit g.haltFinal) ++ leBytes 2 0 ++
    leBytes 4 (min lost 0xFFFFFFFF) ++ leBytes 4 g.skips.toNat ++ leBytes 8 g.takenV.toNat ++ leBytes 8 g.takenS.toNat ++
    leBytes 8 g.lenV.toNat ++ leBytes 8 g.lenS.toNat ++ leBytes 4 g.presentCommit)

/-- Is this a guest mailbox? -/
def isGuestMailbox (c : Cmd) : Bool := match c.mb with
  | .guest _ _ => true
  | _ => false

/-- Its effect. -/
def stageFlags (c : Cmd) (s : State) : Reply :=
  let vs := s.named (c.arg 0 2)
  if s.unknownStage (c.arg 0 2) then .refuse { status := stUnit, stage := c.arg 0 2, offset := 32 }
  else if c.respLen < 64 * vs.length then .refuse { status := stLength, offset := 28, size := 64 * vs.length }
  else
    let clear := c.expert && c.arg 2 1 == 1
    let one (v : Nat) (s : State) : State :=
      let s := if isGuestMailbox c then s else s.updStage v fun g => { g with longsum := false }
      if clear then s.updCells v EngineState.wipeFlags else s
    .done [] (vs.flatMap (flagsRecord s)) (forEach vs one s)

/-- STAGE_FLAGS. -/
def execStageFlags (c : Cmd) (s : State) : Host.Outcome State Fault Refusal := runCmd c stageFlagsSpec (stageFlags c) s

/-! ### NUMLOG_READ (R385) -/

/-- NUMLOG_READ. -/
def numlogSpec : CmdSpec :=
  { opcode := 0x61, control := false, states := [1, 2, 4], basicArgs := [(0, 2)], expertArgs := [(0, 2), (4, 4)]
    lenLo := 0, lenHi := 0, respMin := 64 }

/-- Predictor slots that have entered fewer than 16 windows. -/
def Stage.coldSlots (g : Stage) : Nat := (g.preds.filter fun p => p.amax.length < 16).length

/-- SEQ of the oldest entry retained, as a count. -/
def Stage.logOldest (g : Stage) : Nat := g.logSeq - 4096

/-- The count that a 32-bit SEQ names, or the next one where it has not been written (R446). -/
def Stage.logFrom (g : Stage) (seq : Nat) : Nat :=
  let d := (g.logSeq % 2 ^ 32 + 2 ^ 32 - seq) % 2 ^ 32
  if d < 2 ^ 31 then g.logSeq - d else g.logSeq

/-- The count of the first entry that a command returns of a stage (R385). -/
def Stage.logStart (g : Stage) (c : Cmd) : Nat := max g.logOldest (if c.expert then g.logFrom (c.arg 4 4) else g.logRead)

/-- Entries of a stage that a command returns where `room` bytes stand free for them: none from an uncorrectable word on (R36,
log 130). -/
def State.logCount (s : State) (c : Cmd) (v room : Nat) : Nat :=
  let g := s.stage v
  let n := min (g.logSeq - g.logStart c) (room / 32)
  ((List.range n).takeWhile fun i => (s.badAmong [logAddr v ((g.logStart c + i) % 4096)]).isNone).length

/-- Each stage with the number of its entries: the stages share the response in order, each with room for its header (log 132). -/
def State.logShares (s : State) (c : Cmd) : Nat → List Nat → List (Nat × Nat)
  | _, [] => []
  | left, v :: t =>
    let n := s.logCount c v (left - 64 * (t.length + 1))
    (v, n) :: s.logShares c (left - 64 - 32 * n) t

/-- The header and the entries of one stage. -/
def numlogBytes (s : State) (c : Cmd) (x : Nat × Nat) : List Byte :=
  let g := s.stage x.1
  fit 64 (leBytes 4 g.logOldest ++ leBytes 4 g.logSeq ++ leBytes 4 x.2 ++ leBytes 4 g.replayR1.toNat ++
    leBytes 4 g.replayR2.toNat ++ leBytes 4 g.propagated.toNat ++ leBytes 4 g.prewidenedCount.toNat ++
    leBytes 4 g.logOverrun.toNat ++ leBytes 4 g.coldSlots) ++
  (List.range x.2).flatMap fun i => leBytes 32 (sget 0 g.log ((g.logStart c + i) % 4096)).toNat

/-- The read pointer moves on, except for a guest mailbox, and an uncorrectable word that ended the list is reported. -/
def numlogDone (c : Cmd) (x : Nat × Nat) (s : State) : State :=
  let g := s.stage x.1
  let next := g.logStart c + x.2
  let s := match (if next < g.logSeq then s.badAmong [logAddr x.1 (next % 4096)] else none) with
    | some w => memBadNoHalt none w parserUnit 0 s
    | none => s
  if isGuestMailbox c then s else s.updStage x.1 fun g => { g with logRead := max g.logRead next }

/-- Its effect. -/
def numlogRead (c : Cmd) (s : State) : Reply :=
  let vs := s.named (c.arg 0 2)
  if vs.isEmpty then .refuse { status := stUnit, stage := c.arg 0 2, offset := 32 }
  else if c.respLen < 64 * vs.length then .refuse { status := stLength, offset := 28, size := 64 * vs.length }
  else
    let xs := s.logShares c c.respLen vs
    .done [] (xs.flatMap (numlogBytes s c)) (forEach xs (numlogDone c) s)

/-- NUMLOG_READ. -/
def execNumlogRead (c : Cmd) (s : State) : Host.Outcome State Fault Refusal := runCmd c numlogSpec (numlogRead c) s

end Sys2Proof.Machine
end

