-- ==== Sys2Proof/Machine/Sections.lean ====
section
/-!
DEFINITION. Sys2Proof/Machine/Sections.lean: the checkpoint format of Table 14.14, shared by STAGE_LOAD, CHECKPOINT and
RESTORE, and the contents of its sections (R133, R220, R297, R382). The specification gives the items of kinds 2 to 6 and
no layout; theirs is the model's (log 19).
-/
namespace Sys2Proof.Machine

/-- One section as it is written or read. -/
structure Section where
  kind : Nat
  stage : Nat
  shard : Nat
  commit : Nat
  data : List Byte
deriving DecidableEq, Repr

/-! ### Writing -/

/-- Directory entries and the sections' bytes with their gaps, the first section starting at `off`. -/
def packGo : Nat → List Section → List Byte × List Byte
  | _, [] => ([], [])
  | off, x :: t =>
    let gap := match t with
      | [] => 0
      | _ :: _ => alignUp x.data.length 4096 - x.data.length
    let (d, b) := packGo (off + x.data.length + gap) t
    (leBytes 2 x.kind ++ leBytes 2 x.stage ++ leBytes 1 x.shard ++ leBytes 3 0 ++ leBytes 8 off ++
      leBytes 8 x.data.length ++ leBytes 4 x.commit ++ leBytes 4 0 ++ leBytes 16 (pd [x.data]) ++ leBytes 16 0 ++ d,
     x.data ++ List.replicate gap 0 ++ b)

/-- A checkpoint. -/
def packSections (job rank z : Nat) (xs : List Section) : List Byte :=
  let first := alignUp (64 + 64 * xs.length) 4096
  let (d, b) := packGo first xs
  let total := first + b.length
  fit first (leBytes 4 1 ++ leBytes 4 job ++ leBytes 1 rank ++ leBytes 1 z ++ leBytes 2 0 ++ leBytes 4 xs.length ++
    leBytes 4 0 ++ leBytes 8 total ++ leBytes 36 0 ++ d) ++ b

/-! ### Reading -/

/-- A field of a byte list. -/
def fieldAt (bs : List Byte) (o n : Nat) : Nat := leNat ((bs.drop o).take n)

/-- The sections of a checkpoint, or the status that refuses it: a layout that is not the table's is ST_IMAGE, and a PD
that does not match is ST_INTEGRITY. -/
def unpackSections (bs : List Byte) : Except Nat (List Section) :=
  let n := fieldAt bs 12 4
  let total := fieldAt bs 20 8
  if bs.length < 64 || fieldAt bs 0 4 ≠ 1 || fieldAt bs 10 2 ≠ 0 || fieldAt bs 16 4 ≠ 0 || fieldAt bs 28 36 ≠ 0 ||
      total > bs.length || 64 + 64 * n > total then .error stImage
  else
    let entry (i : Nat) : List Byte := (bs.drop (64 + 64 * i)).take 64
    let bad (e : List Byte) : Bool :=
      let k := fieldAt e 0 2
      let o := fieldAt e 8 8
      k == 0 || decide (k > 8) || fieldAt e 5 3 != 0 || fieldAt e 28 4 != 0 || fieldAt e 48 16 != 0 || o % 4096 != 0 ||
        decide (o < 64 + 64 * n) || decide (o + fieldAt e 16 8 > total)
    let es := (List.range n).map entry
    if es.any bad then .error stImage
    else
      let xs := es.map fun e =>
        ((⟨fieldAt e 0 2, fieldAt e 2 2, fieldAt e 4 1, fieldAt e 24 4, (bs.drop (fieldAt e 8 8)).take (fieldAt e 16 8)⟩ : Section),
          fieldAt e 32 16)
      if xs.any fun x => pd [x.1.data] != x.2 then .error stIntegrity else .ok (xs.map (·.1))

/-- The section of a kind and stage. -/
def sectionOf (xs : List Section) (kind stage : Nat) : Option (List Byte) :=
  (xs.find? fun x => x.kind == kind && x.stage == stage).map (·.data)

/-! ### Parameter state (kinds 1 to 4) -/

/-- Bytes that a section of kinds 1 to 4 has for a stage. -/
def Stage.sectionSize (g : Stage) (z kind : Nat) : Nat :=
  match kind with
  | 1 => g.image.imageSize
  | 2 => 3 * g.shardLen z
  | 3 => g.image.momentLen
  | _ => 32 + 16 * z

/-- Tag, ADIG and shard digest table. -/
def metaBytes (s : State) (g : Stage) (t : TenseSlot) : List Byte :=
  leBytes 2 g.image.stage ++ leBytes 2 0 ++ leBytes 4 t.commit ++ leBytes 8 0 ++ leBytes 16 t.adig.toNat ++
    s.load t.sdigAddr (16 * s.job.z)

/-- Place the present Tense, master and moments of a stage, and its digest table, and its eight slot records (R195,
R220, R241). -/
def installTense (v commit : Nat) (adig : W128) (img heads moments table : List Byte) (s : State) : State :=
  let g := s.stage v
  let n := g.shardLen s.job.z
  let put (a : Nat) (bs : List Byte) (s : State) : State := (s.store a bs).mend a bs.length
  let s := put (g.image.buffers.getD 0 0) (fit (g.pages * 4096) img) s
  let s := put (g.image.heads.getD 0 0) (heads.take (2 * n)) s
  let s := put (g.image.rems.getD 0 0) (heads.drop (2 * n)) s
  let s := put (g.image.moments.getD 0 0) moments s
  let s := put (g.sdigAddr 0) table s
  s.updStage v fun g => { g with
    tenses := { state := 2, commit := commit, addr := g.image.buffers.getD 0 0, sdigAddr := g.sdigAddr 0, shards := s.job.z
                adig := adig } :: List.replicate 7 {}
    fullBuffer := 0, masterRole := 0, viewForward := none, viewBackward := none, wantForward := none, wantBackward := none
    flip := none, update := {}, dig := .idle, digValue := 0, digLen := 0, committing := none, commitDig := 0 }

/-! ### Predictor state (kind 5, R133) -/

/-- A slot as Table 5.6 lays it out. -/
def PredSlot.bytes (p : PredSlot) : List Byte :=
  (List.replicate (4 * (16 - p.amax.length)) 0 ++ p.amax.flatMap fun x => leBytes 4 x.toNat) ++
    leBytes 4 p.limit.toNat ++ leBytes 4 p.skipped.toNat ++ leBytes 1 (bit p.widen) ++ leBytes 1 p.amax.length ++
    leBytes 2 p.group ++ leBytes 52 0

/-- The window of a slot: its largest value, whether it has one, and whether it is non-finite. -/
def PredSlot.windowBytes (p : PredSlot) : List Byte :=
  leBytes 4 (match p.window with
    | some x => x.toNat
    | none => 0) ++ leBytes 4 (bit p.window.isSome + 2 * bit p.nonFinite)

/-- The predictor section: slots, windows, and per declared group the rung, the first PREWIDEN and the executions of the
window. -/
def Stage.predBytes (g : Stage) : List Byte :=
  g.preds.flatMap (fun p => p.bytes ++ p.windowBytes) ++ g.image.groups.flatMap fun d =>
    let id := declId d
    leBytes 1 (sget 0 g.windowRungs id) ++ leBytes 1 (bit (g.prewidened.contains id)) ++ leBytes 2 0 ++
      leBytes 4 (sget 0 g.windowExecs id)

/-- Its size. -/
def Stage.predSize (g : Stage) : Nat := 136 * g.preds.length + 8 * g.image.groups.length

/-- A slot from its bytes; GROUP, the address and LIMIT stay the image's. -/
def PredSlot.ofBytes (p : PredSlot) (bs : List Byte) : PredSlot :=
  let n := min (fieldAt bs 73 1) 16
  { p with
    amax := (List.range n).map fun i => BitVec.ofNat 32 (fieldAt bs (4 * (16 - n + i)) 4)
    skipped := BitVec.ofNat 32 (fieldAt bs 68 4), widen := fieldAt bs 72 1 % 2 == 1
    window := if bitAt (fieldAt bs 132 4) 0 then some (BitVec.ofNat 32 (fieldAt bs 128 4)) else none
    nonFinite := bitAt (fieldAt bs 132 4) 1 }

/-- A slot with its reset values (Table 5.6). -/
def PredSlot.cold (p : PredSlot) : PredSlot :=
  { p with amax := [], widen := false, skipped := 0, window := none, nonFinite := false }

/-- Reinstate the predictor, or start it cold where nothing was saved. -/
def Stage.installPred (g : Stage) (sec : Option (List Byte)) : Stage :=
  match sec with
  | none => { g with preds := g.preds.map PredSlot.cold, windowRungs := [], windowExecs := [], prewidened := [] }
  | some bs =>
    let tail := bs.drop (136 * g.preds.length)
    let gs := number 0 (g.image.groups.map declId)
    { g with
      preds := (number 0 g.preds).map fun x => x.2.ofBytes ((bs.drop (136 * x.1)).take 136)
      windowRungs := gs.foldl (fun m x => sset 0 x.2 (fieldAt tail (8 * x.1) 1) m) []
      windowExecs := gs.foldl (fun m x => sset 0 x.2 (fieldAt tail (8 * x.1 + 4) 4) m) []
      prewidened := (gs.filter fun x => fieldAt tail (8 * x.1 + 1) 1 % 2 == 1).map (·.2) }

/-! ### Ingest state (kind 6, R297) -/

/-- The position of CONSUMED, EPOCH_BASE, E_LIM (0 for none), the table, N, and the parameters with SHUFFLE_SEED. -/
def ingestBytes (s : State) : List Byte :=
  let i := s.ingest
  let (e, n) := i.at' (s.placeOf i.consumed 0 - s.job.rank * i.params.c)
  leBytes 8 e ++ leBytes 8 n ++ leBytes 8 i.epochBase.toNat ++ leBytes 8 (i.eLim.getD 0) ++ leBytes 8 i.params.tableNs ++
    leBytes 8 i.params.tableBase ++ leBytes 8 i.params.n ++ i.params.bytes

/-- Install it: placement starts at k = 0 of the saved position, and the reservoir is refilled. -/
def installIngest (bs : List Byte) (s : State) : State :=
  let p := paramsOf (fieldAt bs 32 8) (fieldAt bs 40 8) (fieldAt bs 48 8) (bs.drop 56)
  s.updIngest fun i => { i.unpin with
    isOpen := true, params := p, e0 := fieldAt bs 0 8, n0 := fieldAt bs 8 8, epochBase := BitVec.ofNat 64 (fieldAt bs 16 8)
    eLim := if fieldAt bs 24 8 = 0 then none else some (fieldAt bs 24 8), placed := 0, consumed := 0, slots := []
    failedReads := [], retries := [], endRaised := false, stopAt := none, awaitPosition := false }

/-! ### Registers (kinds 7 and 8) -/

/-- Registers of engine `k`: 32 vector, 32 scalar, 8 predicate. -/
def engineBytes (k : Nat) (e : EngineState) : List Byte :=
  let vb := vbits k / 8
  (List.range 32).flatMap (fun i => leBytes vb (e.rv i)) ++ (List.range 32).flatMap (fun i => leBytes 8 (e.rs i).toNat) ++
    (List.range 8).flatMap fun i => leBytes (vb / 32) (e.rp k i)

/-- Their size: 8 512 bytes of a cell, 33 280 of an Inflector. -/
def engineSize (k : Nat) : Nat := 32 * (vbits k / 8) + 256 + 8 * (vbits k / 256)

/-- Write registers back. -/
def EngineState.installRegs (k : Nat) (bs : List Byte) (e : EngineState) : EngineState :=
  let vb := vbits k / 8
  let e := (List.range 32).foldl (fun e i => e.wv k i (fieldAt bs (vb * i) vb)) e
  let e := (List.range 32).foldl (fun e i => e.ws i (BitVec.ofNat 64 (fieldAt bs (32 * vb + 8 * i) 8))) e
  (List.range 8).foldl (fun e i => e.wp k i (fieldAt bs (32 * vb + 256 + vb / 32 * i) (vb / 32))) e

end Sys2Proof.Machine
end

