-- ==== Sys2Proof/Machine/SignMom.lean ====
section
/-!
DEFINITION. Sys2Proof/Machine/SignMom.lean: the shipped SIGNMOM rule, for EQ4 word for word the listing of chapter 6
(R235), for another compute format with its second pass converting to that format (R212, log 27). The code of ORTHO and
PRECOND is in the firmware image only, so it stays a constant of Config.
-/
namespace Sys2Proof.Machine

/-- One instruction of a listing: opcode, VD, VA, VB, VC, FORMAT, MODE, IMM, PRED and PNEG (Table 6.2). -/
def ins (op vd va vb vc fmt mode : Nat) (imm : Int) (pred : Nat := 0) (pneg : Bool := false) : W64 :=
  wordOf op ⟨BitVec.ofNat 5 vd, BitVec.ofNat 5 va, BitVec.ofNat 5 vb, BitVec.ofNat 5 vc, BitVec.ofNat 3 pred, pneg,
    BitVec.ofNat 4 fmt, BitVec.ofNat 4 mode, BitVec.ofInt 24 imm⟩

/-- Entry, and the schedule of a group: the segment, the weight and lr (R238); the loop over the groups ends at `gEnd`. -/
def signMomSchedule (gEnd : Int) : List W64 :=
  [ins 0x71 0 1 0 0 0 0 0,  -- DIGEST.init s1
   ins 0x4B 30 0 0 0 0xF 0 0,  -- VBCS.i32 v30, s0
   ins 0x49 20 0 0 0 0 0 63,  -- SLI s20, #0x3F
   ins 0x4A 20 0 0 0 0 0 0x800000,  -- SLUI s20, #0x80_0000
   ins 0x4B 31 20 0 0 0xF 0 0,  -- VBCS.i32 v31, s20
   ins 0x49 20 0 0 0 0 0 63,  -- SLI s20, #0x3F
   ins 0x4A 20 0 0 0 0 0 0,  -- SLUI s20, #0
   ins 0x4B 29 20 0 0 0xF 0 0,  -- VBCS.i32 v29, s20
   ins 0x14 5 2 0 0 0 2 0,  -- SLD.w s5, [s2+0]
   ins 0x40 6 2 0 0 0 1 64,  -- SADD s6, s2, #64
   ins 0x04 0 5 0 0 0 0 gEnd,  -- LOOP s5, g_end
   ins 0x14 24 6 0 0 0 3 96,  -- SLD.d s24, [s6+96]
   ins 0x14 25 24 0 0 0 2 0,  -- SLD.w s25, [s24+0]
   ins 0x14 20 6 0 0 0 2 112,  -- SLD.w s20, [s6+112]
   ins 0x41 26 3 20 0 0 0 0,  -- SSUB s26, s3, s20
   ins 0x40 27 24 0 0 0 1 16,  -- SADD s27, s24, #16
   ins 0x40 25 25 0 0 0 1 (-2),  -- SADD s25, s25, #-2
   ins 0x03 0 25 0 0 0 0 24,  -- BRC.zero s25, found
   ins 0x14 20 27 0 0 0 2 16,  -- SLD.w s20, [s27+16]
   ins 0x41 20 26 20 0 0 0 0,  -- SSUB s20, s26, s20
   ins 0x03 0 20 0 0 0 2 24,  -- BRC.neg s20, found
   ins 0x40 27 27 0 0 0 1 16,  -- SADD s27, s27, #16
   ins 0x40 25 25 0 0 0 1 (-1),  -- SADD s25, s25, #-1
   ins 0x02 0 0 0 0 0 0 17,  -- BR seek
   ins 0x14 20 27 0 0 0 2 0] ++  -- SLD.w s20, [s27+0]
  [ins 0x14 28 27 0 0 0 2 16,  -- SLD.w s28, [s27+16]
   ins 0x41 29 26 20 0 0 0 0,  -- SSUB s29, s26, s20
   ins 0x41 28 28 20 0 0 0 0,  -- SSUB s28, s28, s20
   ins 0x4B 20 29 0 0 0xF 0 0,  -- VBCS.i32 v20, s29
   ins 0x4B 21 28 0 0 0xF 0 0,  -- VBCS.i32 v21, s28
   ins 0x50 20 20 0 0 0 0 0xF0000,  -- CVT.f32 v20, v20 src=i32
   ins 0x50 21 21 0 0 0 0 0xF0000,  -- CVT.f32 v21, v21 src=i32
   ins 0x26 20 20 21 0 0 0 0,  -- FDIV.f32 v20, v20, v21
   ins 0x25 20 20 30 0 0 0 0,  -- FMAX.f32 v20, v20, v30
   ins 0x24 20 20 31 0 0 0 0,  -- FMIN.f32 v20, v20, v31
   ins 0x2B 21 20 0 0 0 0 0,  -- FCOSPI.f32 v21, v20
   ins 0x21 21 31 21 0 0 0 0,  -- FSUB.f32 v21, v31, v21
   ins 0x22 21 21 29 0 0 0 0,  -- FMUL.f32 v21, v21, v29
   ins 0x14 20 27 0 0 0 2 8,  -- SLD.w s20, [s27+8]
   ins 0x4B 22 20 0 0 0xF 0 0,  -- VBCS.i32 v22, s20
   ins 0x3B 2 22 0 0 0xF 1 1,  -- ICMP.eq p2, v22, #1
   ins 0x2F 21 21 20 0 0 0 0 2,  -- FSEL.f32 v21, v21, v20 @p2
   ins 0x3B 2 22 0 0 0xF 1 2,  -- ICMP.eq p2, v22, #2
   ins 0x2F 21 30 21 0 0 0 0 2,  -- FSEL.f32 v21, v30, v21 @p2
   ins 0x2E 2 20 31 0 0 0 0,  -- FCMP.eq p2, v20, v31
   ins 0x2F 21 31 21 0 0 0 0 2,  -- FSEL.f32 v21, v31, v21 @p2
   ins 0x14 20 27 0 0 0 2 4,  -- SLD.w s20, [s27+4]
   ins 0x14 28 27 0 0 0 2 20,  -- SLD.w s28, [s27+20]
   ins 0x4B 22 20 0 0 0xF 0 0,  -- VBCS.i32 v22, s20
   ins 0x4B 23 28 0 0 0xF 0 0] ++  -- VBCS.i32 v23, s28
  [ins 0x21 23 23 22 0 0 0 0,  -- FSUB.f32 v23, v23, v22
   ins 0x23 24 23 21 22 0 0 0]  -- FMA.f32 v24, v23, v21, v22

/-- The group's coefficients and addresses. -/
def signMomGroup : List W64 :=
  [ins 0x14 20 6 0 0 0 2 116,  -- SLD.w s20, [s6+116]
   ins 0x4B 25 20 0 0 0xF 0 0,  -- VBCS.i32 v25, s20
   ins 0x22 25 24 25 0 0 0 0,  -- FMUL.f32 v25, v24, v25
   ins 0x2D 25 25 0 0 0 0 0,  -- FNEG.f32 v25, v25
   ins 0x2D 24 24 0 0 0 0 0,  -- FNEG.f32 v24, v24
   ins 0x14 20 6 0 0 0 2 120,  -- SLD.w s20, [s6+120]
   ins 0x4B 26 20 0 0 0xF 0 0,  -- VBCS.i32 v26, s20
   ins 0x21 27 31 26 0 0 0 0,  -- FSUB.f32 v27, v31, v26
   ins 0x14 20 6 0 0 0 2 124,  -- SLD.w s20, [s6+124]
   ins 0x4B 28 20 0 0 0xF 0 0,  -- VBCS.i32 v28, s20
   ins 0x21 19 31 28 0 0 0 0,  -- FSUB.f32 v19, v31, v28
   ins 0x14 7 6 0 0 0 3 0,  -- SLD.d s7, [s6+0]
   ins 0x47 19 7 0 0 0 1 8,  -- SSHR s19, s7, #8
   ins 0x14 8 6 0 0 0 3 8,  -- SLD.d s8, [s6+8]
   ins 0x14 9 6 0 0 0 3 16,  -- SLD.d s9, [s6+16]
   ins 0x14 10 6 0 0 0 3 24,  -- SLD.d s10, [s6+24]
   ins 0x14 11 6 0 0 0 3 32,  -- SLD.d s11, [s6+32]
   ins 0x14 12 6 0 0 0 3 40,  -- SLD.d s12, [s6+40]
   ins 0x14 13 6 0 0 0 3 48,  -- SLD.d s13, [s6+48]
   ins 0x14 14 6 0 0 0 3 56,  -- SLD.d s14, [s6+56]
   ins 0x14 17 6 0 0 0 3 88,  -- SLD.d s17, [s6+88]
   ins 0x14 18 6 0 0 0 3 104,  -- SLD.d s18, [s6+104]
   ins 0x49 21 0 0 0 0 0 0,  -- SLI s21, #0
   ins 0x04 0 19 0 0 0 0 123]  -- LOOP s19, p1_end

/-- Pass 1: momentum and master, with frozen lanes kept (R235, R239, R211). -/
def signMomMaster : List W64 :=
  [ins 0x14 23 17 0 0 0 1 0,  -- SLD.h s23, [s17+0]
   ins 0x65 1 23 0 0 0 0 4,  -- PEXP p1, s23, #4
   ins 0x10 1 8 0 0 0 2 0,  -- VLD.64 v1, [s8+0]
   ins 0x55 1 1 0 0 0 1 0,  -- TSGN.unpack.f32 v1, v1 .p0
   ins 0x10 2 9 0 0 0 6 0,  -- VLD.1024 v2, [s9+0]
   ins 0x10 3 11 0 0 0 5 0,  -- VLD.512 v3, [s11+0]
   ins 0x50 3 3 0 0 0 0 0x10000,  -- CVT.f32 v3, v3 .p0 src=bf16
   ins 0x10 4 12 0 0 0 4 0,  -- VLD.256 v4, [s12+0]
   ins 0x3D 4 4 0 0 0xF 0 0,  -- IUNPK.b v4, v4 .p0
   ins 0x36 4 4 0 0 0xF 1 8,  -- ISHL.i32 v4, v4, #8
   ins 0x30 5 3 4 0 0xF 0 0,  -- IADD.i32 v5, v3, v4
   ins 0x22 6 1 27 0 0 0 0,  -- FMUL.f32 v6, v1, v27
   ins 0x23 6 2 26 6 0 0 0,  -- FMA.f32 v6, v2, v26, v6
   ins 0x54 6 6 0 0 0 0 0,  -- SGN.f32 v6, v6
   ins 0x34 7 5 5 0 0xF 0 0,  -- IOR.i32 v7, v5, v5
   ins 0x23 7 6 24 5 0 0 0 1 true,  -- FMA.f32 v7, v6, v24, v5 @!p1
   ins 0x23 7 5 25 7 0 0 0 1 true,  -- FMA.f32 v7, v5, v25, v7 @!p1
   ins 0x22 8 1 19 0 0 0 0,  -- FMUL.f32 v8, v1, v19
   ins 0x23 2 2 28 8 0 0 0 1 true,  -- FMA.f32 v2, v2, v28, v8 @!p1
   ins 0x37 9 7 0 0 0xF 1 8,  -- ISHR.i32 v9, v7, #8
   ins 0x33 9 9 0 0 0xF 1 1,  -- IAND.i32 v9, v9, #1
   ins 0x30 9 9 7 0 0xF 0 0,  -- IADD.i32 v9, v9, v7
   ins 0x30 9 9 0 0 0xF 1 127,  -- IADD.i32 v9, v9, #0x7F
   ins 0x33 9 9 0 0 0xF 1 (-256),  -- IAND.i32 v9, v9, #-256
   ins 0x30 10 9 0 0 0xF 1 0x8000] ++  -- IADD.i32 v10, v9, #0x8000
  [ins 0x33 10 10 0 0 0xF 1 (-65536),  -- IAND.i32 v10, v10, #-65536
   ins 0x31 11 9 10 0 0xF 0 0,  -- ISUB.i32 v11, v9, v10
   ins 0x38 11 11 0 0 0xF 1 8,  -- ISRA.i32 v11, v11, #8
   ins 0x37 10 10 0 0 0xF 1 16,  -- ISHR.i32 v10, v10, #16
   ins 0x3C 12 10 0 0 0xF 1 0,  -- IPACK.h v12, v10 .p0
   ins 0x11 0 12 13 0 0 5 0,  -- VST.512 v12, [s13+0]
   ins 0x71 0 12 1 0 0 1 512,  -- DIGEST.add v12, s1, #512
   ins 0x3C 12 11 0 0 0xF 0 0,  -- IPACK.b v12, v11 .p0
   ins 0x11 0 12 14 0 0 4 0,  -- VST.256 v12, [s14+0]
   ins 0x71 0 12 1 0 0 1 256,  -- DIGEST.add v12, s1, #256
   ins 0x11 0 2 10 0 0 6 0,  -- VST.1024 v2, [s10+0]
   ins 0x71 0 2 1 0 0 1 1024,  -- DIGEST.add v2, s1, #1024
   ins 0x11 0 9 18 0 0 6 0,  -- VST.1024 v9, [s18+0]
   ins 0x52 21 9 0 0 0 0 0,  -- AMAXT.f32 s21, v9
   ins 0x40 8 8 0 0 0 1 64,  -- SADD s8, s8, #64
   ins 0x40 9 9 0 0 0 1 1024,  -- SADD s9, s9, #1024
   ins 0x40 10 10 0 0 0 1 1024,  -- SADD s10, s10, #1024
   ins 0x40 11 11 0 0 0 1 512,  -- SADD s11, s11, #512
   ins 0x40 12 12 0 0 0 1 256,  -- SADD s12, s12, #256
   ins 0x40 13 13 0 0 0 1 512,  -- SADD s13, s13, #512
   ins 0x40 14 14 0 0 0 1 256,  -- SADD s14, s14, #256
   ins 0x40 17 17 0 0 0 1 2,  -- SADD s17, s17, #2
   ins 0x40 18 18 0 0 0 1 1024,  -- SADD s18, s18, #1024
   ins 0x70 21 21 0 0 0 0 0]  -- GMAX s21, s21

/-- Pass 2's conversion of 256 values in v9 to a format: elements to v14, block scales to v15, tensor scale to s22 (R212).
For EQ4 it is the listing's. -/
def signMomConvert (f : Nat) : List W64 :=
  let scaled : Int := if fmtHasTensorScale f then 0xAD80 else 0
  if f = 0 then [ins 0x34 14 9 9 0 0xF 0 0]  -- IOR.i32 v14, v9, v9
  else if fmtBlock f = 1 then [ins 0x50 14 9 0 0 f 0 scaled]  -- CVT v14, v9 src=f32 [sa=s21 ss=s22]
  else
    (if fmtBlock f = 16 then [] else [ins 0x4B 15 0 0 0 0xF 0 0]) ++  -- VBCS.i32 v15, s0
    [ins 0x51 13 9 0 0 f 0 0,  -- AMAXB v13, v9 .p0 src=f32
     ins 0x50 14 9 13 15 f 0 scaled]  -- CVT v14, v9, v13, v15 .p0 src=f32 [sa=s21 ss=s22]

/-- Bytes of 256 elements of a format, and the VST mode that stores them. -/
def signMomChunk (f : Nat) : Nat × Nat :=
  match fmtWidth f with
  | 32 => (1024, 6)
  | 16 => (512, 5)
  | 8 => (256, 4)
  | 6 => (192, 4)
  | 4 => (128, 3)
  | _ => (64, 2)

/-- Pass 2's stores: 192 bytes go under a predicate of 48 lanes, and 8 or 4 scales as words. -/
def signMomStore (f : Nat) : List W64 :=
  let word (i : Nat) : List W64 :=
    [ins 0x4C 20 15 0 0 0 0 (Int.ofNat i),  -- VEXT s20, v15, #i
     ins 0x15 0 20 16 0 0 2 (Int.ofNat (4 * i))]  -- SST.w s20, [s16+4i]
  (if fmtWidth f = 6 then
    [ins 0x49 20 0 0 0 0 0 7,  -- SLI s20, #7
     ins 0x65 1 20 0 0 0 0 4,  -- PEXP p1, s20, #4
     ins 0x11 0 14 15 0 0 4 0 1]  -- VST.256 v14, [s15+0] @p1
   else [ins 0x11 0 14 15 0 0 (signMomChunk f).2 0]) ++  -- VST v14, [s15+0]
  match fmtBlock f with
  | 16 => [ins 0x11 0 15 16 0 0 0 0]  -- VST.16 v15, [s16+0]
  | 32 => word 0 ++ word 1
  | 64 => word 0
  | _ => []

/-- Pass 2 over one chunk. -/
def signMomBody (f : Nat) : List W64 :=
  let n : Int := Int.ofNat (signMomChunk f).1
  let b := fmtBlock f
  [ins 0x10 9 18 0 0 0 6 0] ++  -- VLD.1024 v9, [s18+0]
  signMomConvert f ++ signMomStore f ++
  [ins 0x71 0 14 1 0 0 1 n] ++  -- DIGEST.add v14, s1, #n
  (if b = 1 then [] else [ins 0x71 0 15 1 0 0 1 16]) ++  -- DIGEST.add v15, s1, #16
  [ins 0x40 18 18 0 0 0 1 1024,  -- SADD s18, s18, #1024
   ins 0x40 15 15 0 0 0 1 n] ++  -- SADD s15, s15, #n
  (if b = 1 then [] else [ins 0x40 16 16 0 0 0 1 (Int.ofNat (256 / b))])  -- SADD s16, s16, #256/B

/-- The tensor scale of a group. -/
def signMomTensor (f : Nat) : List W64 :=
  if fmtHasTensorScale f then
    [ins 0x14 20 6 0 0 0 3 80,  -- SLD.d s20, [s6+80]
     ins 0x15 0 22 20 0 0 2 0,  -- SST.w s22, [s20+0]
     ins 0x4B 16 22 0 0 0xF 0 0,  -- VBCS.i32 v16, s22
     ins 0x71 0 16 1 0 0 1 16]  -- DIGEST.add v16, s1, #16
  else []

/-- Pass 2 for a compute format: the working copy (R212), the digest and the commit (R226); its loop's first instruction
has the index `at'`. -/
def signMomWorking (f at' : Nat) : List W64 :=
  [ins 0x14 18 6 0 0 0 3 104,  -- SLD.d s18, [s6+104]
   ins 0x14 15 6 0 0 0 3 64,  -- SLD.d s15, [s6+64]
   ins 0x14 16 6 0 0 0 3 72,  -- SLD.d s16, [s6+72]
   ins 0x04 0 19 0 0 0 0 (Int.ofNat (at' + (signMomBody f).length))] ++  -- LOOP s19, p2_end
  signMomBody f ++ signMomTensor f ++
  [ins 0x40 6 6 0 0 0 1 128,  -- SADD s6, s6, #128
   ins 0x71 28 1 0 0 0 2 0,  -- DIGEST.final s28, s1
   ins 0x72 20 1 0 0 0 0 0,  -- COMMIT s20, s1
   ins 0x01 0 0 0 0 0 0 0]  -- END

/-- The SIGNMOM rule for a compute format: codes 0xE and 0xF are no formats of a working copy and take the listing's. -/
def signMom (fmt : Nat) : List W64 :=
  let f := if fmt < 0xE then fmt else 0xC
  let at' := 128
  let gEnd := at' + (signMomBody f).length + (signMomTensor f).length + 1
  signMomSchedule (Int.ofNat gEnd) ++ signMomGroup ++ signMomMaster ++ signMomWorking f at'

/-- The code of a shipped rule by its RULE code, for a compute format. -/
def shippedCode (kind fmt : Nat) : List W64 := if kind = 1 then signMom fmt else Config.shippedRule kind fmt

end Sys2Proof.Machine
end

