-- ==== Sys2Proof/Machine/Load.lean ====
section
/-!
DEFINITION. Sys2Proof/Machine/Load.lean: what is loaded into a job: stage images (R11, R120, R130, R171 to R174, R194,
R213, R228, R378), the rules, schedule curves and freeze masks (R222 to R225, R235 to R240), and TENSE_CONFIG (R221).
-/
namespace Sys2Proof.Machine

/-! ### The checks of an image -/

/-- Does a layer-group declaration have a nonzero reserved bit (Table 5.2)? -/
def declReserved (d : BitVec 256) : Bool :=
  bits d.toNat 255 128 != 0 || bits d.toNat 15 4 != 0 || bits d.toNat 2 2 != 0

/-- The ranges of a declaration's variants. -/
def declRanges (d : BitVec 256) : List (Nat × Nat) := (List.range (declRungs d)).map fun r => (declEntry d r, declEnd d r)

/-- Is a declaration in order by itself (R120)? -/
def declOk (d : BitVec 256) : Bool :=
  decide (1 ≤ declId d ∧ declId d ≤ 4095) && declRungs d != 0 &&
  ((declRanges d).all fun x => decide (x.1 ≤ x.2 ∧ x.2 ≤ 8191)) &&
  ([0, 1, 2].all fun r => decide (r < declRungs d) || (declEntry d r == 0 && declEnd d r == 0))

/-- Does any range overlap a later one? -/
def rangesMeet : List (Nat × Nat) → Bool
  | [] => false
  | x :: t => (t.any fun y => decide (x.1 ≤ y.2 ∧ y.1 ≤ x.2)) || rangesMeet t

/-- Are a stage's layer groups in order (R120)? -/
def groupsOk (gs : List (BitVec 256)) : Bool :=
  decide (gs.length ≤ 4095) && gs.all declOk && (gs.map declId).eraseDups.length == gs.length &&
    !rangesMeet (gs.flatMap declRanges)

/-- Reserved bits of the parameter block (Table 7.2), high and low. -/
def blockReserved : List (Nat × Nat) :=
  [(1023, 576), (511, 496), (447, 432), (415, 409), (399, 393), (383, 376), (351, 344), (319, 313), (191, 185), (63, 42),
   (40, 39)]

/-- Is a range inside the image's grants? -/
def imageGrants (m : StageImage) (a n : Nat) : Bool := covers (m.grants.map fun r => (r.base, r.len)) a n

/-- The depths, slots and lags of R174. -/
def Stage.blockOk (g : Stage) : Bool :=
  let slotOk (n : Nat) : Bool := n != 0 && n % 256 == 0 && decide (n ≤ 0xFFFFFE00)
  decide (2 ≤ g.finDepth ∧ g.finDepth ≤ 256) && decide (2 ≤ g.binDepth ∧ g.binDepth ≤ 256) &&
  decide (1 ≤ g.foutDepth ∧ g.foutDepth ≤ 256) && decide (1 ≤ g.boutDepth ∧ g.boutDepth ≤ 256) &&
  slotOk g.finSlot && slotOk g.binSlot && g.u != 0 &&
  imageGrants g.image g.finBase (g.finDepth * g.finSlot) && imageGrants g.image g.binBase (g.binDepth * g.binSlot) &&
  (if g.async then decide (g.lag ≤ 6 * g.u) else g.lag == 0)

/-- Do two stages of this module, the first before the second, agree on their slots (R174)? -/
def slotsAgree (first second : Stage) : Bool :=
  first.foutMax == second.finSlot / 256 && second.boutMax == first.binSlot / 256

/-- Does an image agree with its loaded neighbours? -/
def State.neighboursOk (s : State) (g : Stage) : Bool :=
  s.loadedStages.all fun v =>
    let h := s.stage v
    (if g.succ == h.image.stage then slotsAgree g h else true) && (if g.predecessor == h.image.stage then slotsAgree h g else true)

/-- Are an image's cells in order and free on its die? -/
def State.cellsOk (s : State) (m : StageImage) : Bool :=
  !m.cells.isEmpty && (m.cells.all fun c => decide (c < 96)) && m.cells.eraseDups.length == m.cells.length &&
  sortRanges (m.cells.map fun c => (c, 0)) == (m.cells.map fun c => (c, 0)) &&
  (m.cells.all fun c => (s.stageOfCell (m.die * 128 + c)).isNone)

/-- Predictor slots (R130). -/
def predsOk (m : StageImage) : Bool :=
  decide (m.preds.length ≤ 4096) && m.preds.all fun p =>
    (m.groups.any fun d => declId d == p.group && decide (declRungs d ≥ 2)) && imageGrants m p.addr 4

/-- Does a grant lie in one of the ranges of Table 1.6 that a stage of this die may reach: HBM and cell stores of a compute
die, its own Inflector's SRAM outside the code regions, a guest window, or host memory (R32)? -/
def grantOk (die : Nat) (r : Grant) : Bool :=
  let last := r.base + (r.len - 1)
  match regionOf r.base, regionOf last with
  | .hbm d _, .hbm d' _ => d == d'
  | .cellStore d _, .cellStore d' _ => d == d'
  | .inflSram d, .inflSram d' => d == die && d' == die && decide (last < sramBase die + (sramGrant die).2)
  | .guest p, .guest p' => p == p'
  | .host, .host => true
  | _, _ => false

/-- Does `[a, a + n)` lie in a die's HBM? -/
def inDieHbm (die a n : Nat) : Bool :=
  match regionOf a, regionOf (a + (n - 1)) with
  | .hbm d _, .hbm d' _ => d == die && d' == die
  | _, _ => false

/-- The areas that a stage keeps in its die's HBM outside its grants (R127, R205, R215, R222 to R224, R228, Table 1.7):
base and length. -/
def Stage.ownAreas (g : Stage) (z : Nat) : List (Nat × Nat) :=
  let m := g.image
  let n := g.shardLen z
  (m.buffers.map fun a => (a, g.pages * 4096)) ++ (m.heads.map fun a => (a, 2 * n)) ++ (m.rems.map fun a => (a, n)) ++
    (m.moments.map fun a => (a, m.momentLen)) ++
    [(m.ruleArea, g.ruleLen), (m.curveArea, 1040 * m.paramGroups.length), (m.maskArea, cdiv n 128), (m.voteArea, 4 * n),
     (m.scratchArea, 4 * n), (m.sdigArea, 8 * 16 * z)]

/-- Are the areas in the die's HBM, aligned, and outside every grant (R222, R223)? -/
def areasOk (z : Nat) (g : Stage) : Bool :=
  (g.ownAreas z).all fun x => x.1 % 64 == 0 && (x.2 == 0 || (inDieHbm g.image.die x.1 x.2 &&
    !(g.image.grants.any fun r => overlaps x.1 x.2 r.base r.len)))

/-- Do the areas of every stage lie outside the grants of every other (R222)? -/
def State.areasApart (s : State) (g : Stage) : Bool :=
  let apart (a b : Stage) : Bool := (a.ownAreas s.job.z).all fun x =>
    x.2 == 0 || !(b.image.grants.any fun r => overlaps x.1 x.2 r.base r.len)
  s.loadedStages.all fun v => apart g (s.stage v) && apart (s.stage v) g

/-- Is an image in order for the module (R32, R171, R173, R194, R213, R222, R223, R228 and the parts above)? -/
def State.imageOk (s : State) (g : Stage) : Bool :=
  let m := g.image
  (m.grants.all (grantOk m.die)) && areasOk s.job.z g && s.areasApart g &&
  m.blockAddr % 128 == 0 && inDieHbm m.die m.blockAddr 128 && imageGrants m m.blockAddr 128 &&
  decide (m.stage ≤ 65534 ∧ m.position ≤ 65534 ∧ m.vstage ≤ 15) && decide (1 ≤ m.die ∧ m.die ≤ 4) &&
  !(s.stage m.vstage).loaded && (s.findStage m.stage).isNone &&
  s.cellsOk m && codeOk false m.code && groupsOk m.groups && predsOk m && g.blockOk && s.neighboursOk g &&
  decide (1 ≤ m.imageSize ∧ m.imageSize ≤ 16 * 2 ^ 30) &&
  (m.paramGroups.all fun p => p.len % (256 * s.job.z) == 0) &&
  decide (1 ≤ m.gradSlots.length ∧ m.gradSlots.length ≤ 2) && !(g.async && m.gradSlots.length == 1) &&
  m.gradSlots.all fun a => imageGrants m a g.gradBytes

/-- The stage that an image becomes; firmware writes STAGE, POSITION, VSTAGE and DIE of its parameter block (R173). -/
def stageOfImage (m : StageImage) : Stage :=
  let ids := m.stage + m.position * 2 ^ 16 + m.vstage * 2 ^ 32 + m.die * 2 ^ 36
  let m := { m with block := BitVec.ofNat 1024 (m.block.toNat / 2 ^ 41 * 2 ^ 41 + ids) }
  let g : Stage := { loaded := true, image := m }
  { g with
    preds := m.preds.map fun p => ⟨p.group, p.addr, p.limit, [], false, 0, none, false⟩
    pastBudget := 2 * g.pages * 4096 }

/-! ### STAGE_LOAD (R378) -/

/-- STAGE_LOAD. -/
def stageLoadSpec : CmdSpec :=
  { opcode := 0x11, control := true, states := [1], basicArgs := [(16, 8), (24, 8)]
    expertArgs := [(0, 8), (8, 1), (16, 8), (24, 8)], lenLo := 1, lenHi := 16777216, respMin := 0
    resv := fun c => if c.expert && c.arg 8 1 > 1 then some 8 else none }

/-- The initial state of a stage: its sections of kinds 1 to 4, or the status that refuses it. -/
def initialState (s : State) (g : Stage) (c : Cmd) : Except Nat (List Byte × List Byte × List Byte × List Byte) :=
  match unpackSections (memBytes s.hostMem (c.arg 16 8) (c.arg 24 8)) with
  | .error e => .error e
  | .ok xs =>
    let sized (k : Nat) : Option (List Byte) :=
      (sectionOf xs k g.image.stage).bind fun d => if d.length = g.sectionSize s.job.z k then some d else none
    match sized 1, sized 2, sized 3, sized 4 with
    | some a, some b, some d, some e => .ok (a, b, d, e)
    | _, _, _, _ => .error stImage

/-- Write a stage's code into the instruction memory of its cells, and its parameter block into its die's HBM. -/
def writeCode (g : Stage) (s : State) : State :=
  let bs := g.image.code.flatMap fun x => leBytes 8 x.toNat
  let at' (c : Nat) : Nat := g.image.die * 2 ^ 40 + 0x8100000000 + c * 2 ^ 16
  let s := forEach g.image.cells (fun c s => (s.store (at' c) bs).mend (at' c) bs.length) s
  (s.store g.image.blockAddr (leBytes 128 g.image.block.toNat)).mend g.image.blockAddr 128

/-- The final part: the checks, then the initial state, and only then the stage. Where the image or its initial state is
refused, nothing of the stage remains loaded, its earlier parts included (R378). -/
def loadImage (c : Cmd) (m : StageImage) (s : State) : Reply :=
  let g := stageOfImage m
  let no (st : Nat) : Reply := .noStage st m.stage
  let gone (st : Nat) : Reply := .failed { status := st, stage := m.stage } (s.updJob fun j => { j with loadOffset := 0 })
  if (m.groups.any declReserved) || blockReserved.any fun x => bits m.block.toNat x.1 x.2 != 0 then no stReserved
  else if m.grade > s.grade then no stGrade
  else if !s.imageOk g then gone stImage
  else if s.absent m.die then no stState
  else if c.arg 16 8 % 64 ≠ 0 || (c.arg 16 8 == 0 && c.arg 24 8 != 0) then
    .refuse { status := stAddress, stage := m.stage, offset := 48 }
  else match initialState s g c with
  | .error e => gone e
  | .ok (img, heads, moments, tag) =>
    if s.offloadWaits then .goesOn s
    else
    let s := writeCode g (s.updStage m.vstage fun _ => g)
    let s := s.updCells m.vstage EngineState.clearRegs
    let s := installTense m.vstage 0 0 img heads moments (tag.drop 32) s
    .ok (s.updJob fun j => { j with loadOffset := 0 })

/-- Its effect: parts at ascending OFFSET, the last with FINAL; a part at OFFSET 0 begins an image. -/
def stageLoad (c : Cmd) (m : StageImage) (s : State) : Reply :=
  if !c.expert then loadImage c m s
  else
    let o := c.arg 0 8
    if o ≠ 0 && o ≠ s.job.loadOffset then .noAt stRange 32
    else if c.arg 8 1 = 1 then loadImage c m s
    else .ok (s.updJob fun j => { j with loadOffset := o + c.len })

/-- STAGE_LOAD. -/
def execStageLoad (c : Cmd) (m : StageImage) (s : State) : Host.Outcome State Fault Refusal :=
  runCmd c stageLoadSpec (stageLoad c m) s

/-! ### TENSE_CONFIG (R221) -/

/-- TENSE_CONFIG. -/
def tenseConfigSpec : CmdSpec :=
  { opcode := 0x20, control := true, states := [1, 4], basicArgs := [], expertArgs := [(0, 2), (8, 8), (16, 8)], lenLo := 0
    lenHi := 0, respMin := 512 }

/-- A slot record (Table 8.1). -/
def TenseSlot.record (t : TenseSlot) (stage : Nat) : BitVec 512 :=
  if t.state = 0 then 0
  else BitVec.ofNat 512 (t.state % 16 + bit t.pin * 2 ^ 8 + t.shards % 128 * 2 ^ 64 + t.refs % 8192 * 2 ^ 128 +
    t.sdigAddr % 2 ^ 48 * 2 ^ 144 + t.base % 2 ^ 32 * 2 ^ 208 + stage % 2 ^ 16 * 2 ^ 240 + t.commit % 2 ^ 32 * 2 ^ 256 +
    t.dsize % 2 ^ 32 * 2 ^ 288 + t.addr % 2 ^ 48 * 2 ^ 336 + t.adig.toNat * 2 ^ 384)

/-- The eight records of a stage. -/
def Stage.slotRecords (g : Stage) : List Byte :=
  (List.range 8).flatMap fun i => leBytes 64 (((g.tenses[i]?).getD {}).record g.image.stage).toNat

/-- Is PAST_BUDGET in range for a stage (Table 8.6)? -/
def Stage.budgetOk (g : Stage) (budget : Nat) : Bool :=
  decide (budget ≤ 7 * (g.pages * 4100 + 16)) && budget % 4096 == 0 && decide (g.deltaBytes ≤ budget)

/-- Are both parameters in range for a stage (Table 8.6)? -/
def Stage.configOk (g : Stage) (budget spill : Nat) : Bool :=
  g.budgetOk budget && spill % (g.pages * 4096) == 0 && decide (spill ≤ 7 * (g.pages * 4096)) && decide (spill ≤ g.hostSize)

/-- Its effect. -/
def tenseConfig (c : Cmd) (s : State) : Reply :=
  let arg := if c.expert then c.arg 0 2 else 0xFFFF
  let vs := s.named arg
  let vals (g : Stage) : Nat × Nat := if c.expert then (c.arg 8 8, c.arg 16 8) else (2 * g.pages * 4096, 0)
  if s.loadedStages.isEmpty then .no stState
  else if s.unknownStage arg then .refuse { status := stUnit, stage := arg, offset := 32 }
  else if c.respLen < 512 * vs.length then .refuse { status := stLength, offset := 28, size := 512 * vs.length }
  else match vs.find? fun v => !(s.stage v).configOk (vals (s.stage v)).1 (vals (s.stage v)).2 with
  | some v =>
    let g := s.stage v
    .refuse { status := stLength, stage := g.image.stage
              offset := if !c.expert then 0xFFFFFFFF else if g.budgetOk (c.arg 8 8) then 48 else 40 }
  | none =>
    let s := forEach vs (fun v s => s.updStage v fun g =>
      { g with pastBudget := (vals g).1, spillSize := (vals g).2 }) s
    .done [] (vs.flatMap fun v => (s.stage v).slotRecords) s

/-- TENSE_CONFIG. -/
def execTenseConfig (c : Cmd) (s : State) : Host.Outcome State Fault Refusal := runCmd c tenseConfigSpec (tenseConfig c) s

/-! ### Schedule curves (R238, R240) -/

/-- Is an FP32 code a finite number? -/
def finite32 (x : Nat) : Bool := (decodeF fFP32 x).isFin

/-- The offset in the payload of the first field of a knot that breaks R240: T, V or I. -/
def knotBad (bs : List Byte) (nk k : Nat) : Option Nat :=
  let knot (k o : Nat) : Nat := fieldAt bs (16 + 16 * k + o) 4
  let v := knot k 4
  if 0 < k && knot (k - 1) 0 ≥ knot k 0 && k < nk then some (16 + 16 * k)
  else if !finite32 v || (bitAt v 31 && v != 2 ^ 31) then some (20 + 16 * k)
  else if knot k 8 > 2 then some (24 + 16 * k)
  else none

/-- The refusal that a curve brings, with the offset of the field: 24 is LENGTH, and the payload begins at 64 (R370). -/
def curveRefusal (bs : List Byte) : Option (Nat × Nat) :=
  let nk := fieldAt bs 0 4
  if nk < 2 || nk > 64 then some (stLength, 64)
  else if bs.length ≠ 16 + 16 * nk then some (stLength, 24)
  else if fieldAt bs 4 12 ≠ 0 then some (stReserved, 68)
  else match (List.range nk).find? fun k => fieldAt bs (28 + 16 * k) 4 != 0 with
  | some k => some (stReserved, 92 + 16 * k)
  | none => ((List.range nk).findSome? (knotBad bs nk)).map fun o => (stRule, 64 + o)

/-! ### Rules (R222 to R225, R235 to R237) -/

/-- What RULE_LOAD installs: the code, RULE, FAMILY, WIRE, the 48 bytes of PARAMS, and per group B1, B2 (or ROWS), WD and
BASE, and the curve; at the expert level the group records as the payload supplies them. -/
structure RuleSource where
  code : List W64
  kind : Nat
  matrix : Bool
  wire : Nat
  params : List Byte
  coeffs : List (W32 × W32 × W32 × W32)
  curves : List (List Byte)
  records : Option (List Byte)
deriving DecidableEq, Repr

/-- FAMILY of a shipped rule. -/
def ruleMatrix (kind : Nat) : Bool := kind == 2 || kind == 3

/-- The PARAMS defaults of R235 to R237: K = 5; P = 100, β_s = 0.999 and ε = 10^-12. -/
def defaultParams (kind : Nat) : List Byte :=
  fit 48 (if kind = 2 then leBytes 4 5
    else if kind = 3 then leBytes 4 100 ++ leBytes 4 0x3F7FBE77 ++ leBytes 8 0x3D719799812DEA11
    else [])

/-- The first PARAMS field out of range, as an offset in the block (R236, R237). -/
def paramsBad (kind : Nat) (ps : List Byte) : Option Nat :=
  match kind with
  | 2 => if 1 ≤ fieldAt ps 0 4 ∧ fieldAt ps 0 4 ≤ 16 then none else some 16
  | 3 =>
    let beta := fieldAt ps 4 4
    let eps := fieldAt ps 8 8
    if !decide (1 ≤ fieldAt ps 0 4 ∧ fieldAt ps 0 4 ≤ 65535) then some 16
    else if !(finite32 beta && (beta == 2 ^ 31 || !bitAt beta 31 && decide (beta ≤ 0x3F800000))) then some 20
    else if (decodeF fFP64 eps).isFin && !bitAt eps 63 && eps != 0 then none else some 24
  | _ => none

/-- What R225 refuses in a source for a stage, as the offset of the field in the rule parameter block and its group records
(Tables 9.1 and 9.2); `rows` are the stage's groups' ROWS. -/
def ruleBad (z : Nat) (g : Stage) (r : RuleSource) (rows : List Nat) : Option Nat :=
  let gs := g.image.paramGroups
  let bad (x : Nat × ParamGroup × Nat) : Bool :=
    let (_, p, n) := x
    (r.matrix && (n == 0 || p.len % n != 0)) || (r.kind == 3 && (decide (n > 8192) || decide (p.len / n > 8192)))
  if gs.isEmpty || gs.length > 1024 then some 0
  else if r.kind > 3 then some 5
  else if !(if r.matrix then r.wire == 0 || r.wire == 1 else r.wire == 0xD) then some 4
  else if r.kind != 0 && ruleMatrix r.kind != r.matrix then some 5
  else if r.matrix && z != 1 then some 4
  else match (number 0 (gs.zip rows)).find? bad with
  | some x => some (64 + 128 * x.1 + 124)
  | none => paramsBad r.kind r.params

/-- The shipped rule of a basic RULE_LOAD, with the image's coefficients and curves (R240), or nothing where it may not
be installed. -/
def shippedSource (g : Stage) (kind : Nat) : Option RuleSource :=
  let gs := g.image.paramGroups
  if kind = 0 || kind > 3 || gs.any fun p => p.coeffs.isNone then none
  else
    let cs := gs.filterMap (·.coeffs)
    some { code := shippedCode kind g.image.fmt, kind := kind, matrix := ruleMatrix kind
           wire := if ruleMatrix kind then 0 else 0xD, params := defaultParams kind
           coeffs := (cs.zip gs).map fun x =>
             (x.1.1, if ruleMatrix kind then BitVec.ofNat 32 x.2.rows else x.1.2.1, x.1.2.2.1, x.1.2.2.2.1)
           curves := cs.map fun x => x.2.2.2.2
           records := none }

/-- The parts of an expert payload for a stage: code, block, records. -/
def expertParts (g : Stage) (bs : List Byte) : List Byte × List Byte × List Byte :=
  let n := g.image.paramGroups.length
  let at' := bs.length - (64 + 128 * n)
  (bs.take at', (bs.drop at').take 64, bs.drop (at' + 64))

/-- Reserved bits of the rule parameter block or of a group record's addresses that are not 0, as an offset in them. -/
def ruleReserved (hd : Nat) (blk recs : List Byte) (ng : Nat) : Option Nat :=
  if bits hd 63 48 ≠ 0 then some 6
  else if bits hd 35 33 ≠ 0 then some 4
  else if fieldAt blk 8 8 ≠ 0 then some 8
  else (List.range (13 * ng)).findSome? fun i =>
    let o := 128 * (i / 13) + 8 * (i % 13 + 1) + 6
    if fieldAt recs o 2 ≠ 0 then some (64 + o) else none

/-- The rule of an expert payload, or the refusal that it brings. -/
def expertSource (s : State) (g : Stage) (bs : List Byte) : Except Refuse RuleSource :=
  let z := s.job.z
  let (code, blk, recs) := expertParts g bs
  let field (st o : Nat) : Except Refuse RuleSource := .error { status := st, offset := 64 + code.length + o }
  let gs := number 0 g.image.paramGroups
  let hd := fieldAt blk 0 8
  let rec' (i o n : Nat) : Nat := fieldAt recs (128 * i + o) n
  match ruleReserved hd blk recs gs.length with
  | some o => field stReserved o
  | none =>
  if bits hd 31 0 ≠ gs.length then field stRule 0
  else match gs.find? fun x => rec' x.1 0 8 != x.2.len / z with
  | some x => field stRule (64 + 128 * x.1)
  | none =>
    let words := (List.range (code.length / 8)).map fun i => BitVec.ofNat 64 (fieldAt code (8 * i) 8)
    .ok { code := words, kind := bits hd 47 40, matrix := bitAt hd 32, wire := bits hd 39 36, params := blk.drop 16
          coeffs := gs.map fun x =>
            (BitVec.ofNat 32 (rec' x.1 120 4), BitVec.ofNat 32 (rec' x.1 124 4), BitVec.ofNat 32 (rec' x.1 116 4),
             BitVec.ofNat 32 (rec' x.1 112 4))
          curves := []
          records := some recs }

/-- The rule parameter block (Table 9.1). -/
def ruleBlock (r : RuleSource) (ng : Nat) : List Byte :=
  leBytes 8 (ng + bit r.matrix * 2 ^ 32 + r.wire * 2 ^ 36 + r.kind * 2 ^ 40) ++ leBytes 8 0 ++ fit 48 r.params

/-- The fields of group record `i` that firmware writes (Table 9.2): offset in the record, width, value. -/
def firmwareFields (g : Stage) (z i : Nat) (p : ParamGroup) (r : RuleSource) : List (Nat × Nat × Nat) :=
  let before (f : ParamGroup → Nat) : Nat := ((g.image.paramGroups.take i).map f).foldl (· + ·) 0
  let n := p.len / z
  let (b1, b2, wd, base) := r.coeffs.getD i (0, 0, 0, 0)
  [(0, 8, n), (8, 8, g.image.voteArea + before fun q => voteBytes r.matrix (q.len / z)),
   (88, 8, g.image.maskArea + before fun q => q.len / z / 128), (96, 8, g.image.curveArea + 1040 * i),
   (104, 8, g.image.scratchArea + before fun q => scratchBytes r.matrix r.kind (q.len / z) q.rows),
   (112, 4, base.toNat), (116, 4, wd.toNat),
   (120, 4, b1.toNat), (124, 4, b2.toNat)]

/-- What firmware writes for a rule of a stage: code, block and records, the curves that the source has, and a mask that
freezes no element. -/
def ruleFirmware (v z : Nat) (g : Stage) (r : RuleSource) : List (Nat × List Byte) :=
  let gs := number 0 g.image.paramGroups
  let records := match r.records with
    | some bs => [(g.recordAddr 0, bs)]
    | none => gs.flatMap fun x => (firmwareFields g z x.1 x.2 r).map fun f => (g.recordAddr x.1 + f.1, leBytes f.2.1 f.2.2)
  [(codeRegion g.image.die v, r.code.flatMap fun x => leBytes 8 x.toNat), (g.image.ruleArea, ruleBlock r gs.length),
   (g.image.maskArea, List.replicate (cdiv (g.shardLen z) 128) 0)] ++ records ++
  (number 0 r.curves).map fun x => (g.image.curveArea + 1040 * x.1, x.2)

/-- Load a rule into a stage, for the first update whose present COMMIT is `commit` or higher (R240). -/
def installRule (v commit : Nat) (r : RuleSource) (s : State) : State :=
  let rows := r.coeffs.map fun x => x.2.1.toNat
  let g := s.stage v
  let g' := { g with image := { g.image with paramGroups :=
    if r.matrix then (g.image.paramGroups.zip rows).map fun y => { y.1 with rows := y.2 } else g.image.paramGroups } }
  queueLoads v [⟨commit, some (⟨r.code, r.kind, r.matrix, r.wire⟩, rows), ruleFirmware v s.job.z g' r⟩] s

/-- Bytes of the rule parameter block and the group records that an expert RULE_LOAD of the named stages needs at least. -/
def ruleBytes (c : Cmd) (s : State) : Nat :=
  (s.named (c.arg 0 2)).foldl (fun n v => max n (64 + 128 * (s.stage v).image.paramGroups.length)) 64

/-- RULE_LOAD. The expert payload is whole instructions, then the block, then a record for each group of the stage: a shorter
one, or one that breaks an instruction, has not the size that the command needs (R369). -/
def ruleLoadSpec (c : Cmd) (s : State) : CmdSpec :=
  { opcode := 0x32, control := true, states := if c.expert then [1, 2, 4] else [1, 4], basicArgs := [(0, 2), (2, 1)]
    expertArgs := [(0, 2), (2, 1), (4, 4)], lenLo := if c.expert then ruleBytes c s else 0
    lenHi := if c.expert then 16777216 else 0, lenStep := 8, respMin := 0 }

/-- The AT of a command that carries one at the expert level (R240); the basic level's next update is AT 0. -/
def cmdAt (c : Cmd) : Nat := if c.expert then c.arg 4 4 else 0

/-- May a rule or a table with this AT still be loaded: the update it first applies to has not started? -/
def Stage.tableOpen (g : Stage) (at' : Nat) : Bool := match g.update.startedAt with
  | some c => decide (at' > c)
  | none => true

/-- The rule for one stage, or the refusal that it brings. -/
def ruleFor (c : Cmd) (s : State) (v : Nat) : Except Refuse RuleSource :=
  let g := s.stage v
  let src := if c.expert then expertSource s g c.pay
    else match shippedSource g (c.arg 2 1) with
      | none => .error { status := stRule, offset := 34 }
      | some r => if r.curves.any fun x => (curveRefusal x).isSome then .error { status := stRule, offset := 34 } else .ok r
  match src with
  | .error e => .error e
  | .ok r =>
    if !codeOk true r.code then .error { status := stImage }
    else match ruleBad s.job.z g r (r.coeffs.map fun x => x.2.1.toNat) with
    | some o => .error { status := stRule, offset := if c.expert then 64 + (expertParts g c.pay).1.length + o else 34 }
    | none => .ok r

/-- Its effect: every named stage passes before any is installed. -/
def ruleLoad (c : Cmd) (s : State) : Reply :=
  let vs := s.named (c.arg 0 2)
  if s.unknownStage (c.arg 0 2) then .refuse { status := stUnit, stage := c.arg 0 2, offset := 32 }
  else match vs.findSome? fun v => match ruleFor c s v with
    | .error e => some (v, e)
    | .ok _ => if c.expert && !(s.stage v).tableOpen (cmdAt c) then some (v, { status := stState, offset := 36 }) else none with
  | some (v, e) => .refuse { e with stage := (s.stage v).image.stage }
  | none => .ok (forEach vs (fun v s => match ruleFor c s v with
      | .ok r => installRule v (cmdAt c) r s
      | .error _ => s) s)

/-- RULE_LOAD. -/
def execRuleLoad (c : Cmd) (s : State) : Host.Outcome State Fault Refusal := runCmd c (ruleLoadSpec c s) (ruleLoad c) s

/-! ### SCHED_TABLE_LOAD and FREEZE_MASK_LOAD (R239, R240) -/

/-- Groups that a group argument names. -/
def Stage.groupsNamed (g : Stage) (arg : Nat) : List Nat :=
  if arg = 0xFFFF then List.range g.image.paramGroups.length
  else if arg < g.image.paramGroups.length then [arg] else []

/-- What a table command does with its stages: `refuse` gives the content's status and offset for a stage and group, `addr` where the
group's table lies, and `field` which address field of the record firmware points to it (R224). -/
def tableLoad (c : Cmd) (s : State) (field : Nat) (refuse : Stage → Nat → Option (Nat × Nat)) (addr : Stage → Nat → Nat) : Reply :=
  let vs := s.named (c.arg 0 2)
  let grp := c.arg 2 2
  let at' := cmdAt c
  let judge (v : Nat) : Option (Nat × Nat) :=
    let g := s.stage v
    let is := g.groupsNamed grp
    if g.rule.isNone then some (stState, 0xFFFFFFFF)
    else if is.isEmpty then some (stRange, 34)
    else match is.findSome? (refuse g) with
    | some e => some e
    | none => if c.expert && !g.tableOpen at' then some (stState, 36) else none
  if s.unknownStage (c.arg 0 2) then .refuse { status := stUnit, stage := c.arg 0 2, offset := 32 }
  else match vs.findSome? fun v => (judge v).map fun e => (v, e) with
  | some (v, e, o) => .refuse { status := e, stage := (s.stage v).image.stage, offset := o }
  | none => .ok (forEach vs (fun v s =>
      let g := s.stage v
      queueLoads v ((g.groupsNamed grp).map fun i =>
        ⟨at', none, [(addr g i, c.pay), (g.recordAddr i + field, leBytes 8 (addr g i))]⟩) s) s)

/-- The specification of both commands. -/
def tableSpec (c : Cmd) (op lenHi : Nat) : CmdSpec :=
  { opcode := op, control := true, states := if c.expert then [1, 2, 4] else [1, 4], basicArgs := [(0, 2), (2, 2)]
    expertArgs := [(0, 2), (2, 2), (4, 4)], lenLo := 1, lenHi := lenHi, respMin := 0 }

/-- SCHED_TABLE_LOAD. -/
def execSchedTableLoad (c : Cmd) (s : State) : Host.Outcome State Fault Refusal :=
  runCmd c (tableSpec c 0x30 1040) (fun s =>
    tableLoad c s 96 (fun _ _ => curveRefusal c.pay) fun g i => g.image.curveArea + 1040 * i) s

/-- Are the mask bits of a byte equal within every scale block of the working format? -/
def maskBlocksOk (fmt : Nat) (b : Byte) : Bool :=
  let k := fmtBlock fmt / 16
  k ≤ 1 || (List.range (8 / k)).all fun j =>
    let x := bits b.toNat (k * j + k - 1) (k * j)
    x == 0 || x == 2 ^ k - 1

/-- The refusal of a mask, with the offset of LENGTH or of the first byte at fault. -/
def maskRefusal (z : Nat) (bs : List Byte) (g : Stage) (i : Nat) : Option (Nat × Nat) :=
  let n := (g.image.paramGroups[i]?.map (·.len)).getD 0 / z
  if bs.length ≠ n / 128 then some (stLength, 24)
  else (bs.findIdx? fun b => !maskBlocksOk g.image.fmt b).map fun j => (stMask, 64 + j)

/-- Where the mask of group `i` lies. -/
def Stage.maskAddr (g : Stage) (z i : Nat) : Nat :=
  g.image.maskArea + ((g.image.paramGroups.take i).map fun q => q.len / z / 128).foldl (· + ·) 0

/-- FREEZE_MASK_LOAD. -/
def execFreezeMaskLoad (c : Cmd) (s : State) : Host.Outcome State Fault Refusal :=
  runCmd c (tableSpec c 0x31 16777216) (fun s =>
    tableLoad c s 88 (maskRefusal s.job.z c.pay) fun g i => g.maskAddr s.job.z i) s

end Sys2Proof.Machine
end

