-- ==== Sys2Proof/Machine/Checkpoint.lean ====
section
/-!
DEFINITION. Sys2Proof/Machine/Checkpoint.lean: CHECKPOINT and RESTORE (R220, R297, R382, R383) and TENSE_EXPORT with its
manifest (R219, R353, R405).
-/
namespace Sys2Proof.Machine

/-! ### CHECKPOINT (R382) -/

/-- CHECKPOINT. -/
def checkpointSpec : CmdSpec :=
  { opcode := 0x22, control := true, states := [1, 4], basicArgs := [(0, 8), (8, 8)]
    expertArgs := [(0, 8), (8, 8), (16, 1)], lenLo := 0, lenHi := 0, respMin := 0
    resv := fun c => if c.expert && c.arg 16 1 > 1 then some 16 else none }

/-- Sections of one stage. -/
def stageSections (s : State) (noPred : Bool) (v : Nat) : List Section :=
  let g := s.stage v
  let t := (g.tenses.find? fun t => t.state == 2).getD {}
  let n := g.shardLen s.job.z
  let me := g.masterRole
  let mk (k : Nat) (d : List Byte) : Section := ⟨k, g.image.stage, s.shard, t.commit, d⟩
  [mk 1 (s.load (g.image.buffers.getD g.fullBuffer 0) g.image.imageSize),
   mk 2 (s.load (g.image.heads.getD me 0) (2 * n) ++ s.load (g.image.rems.getD me 0) n),
   mk 3 (s.load (g.image.moments.getD me 0) g.image.momentLen), mk 4 (metaBytes s g t)] ++
  (if noPred then [] else [mk 5 g.predBytes]) ++ [mk 7 (g.cellKeys.flatMap fun k => engineBytes k (s.eng k))]

/-- Inflectors of the present dies. -/
def State.inflectors (s : State) : List Nat := (([1, 2, 3, 4].filter fun d => !s.absent d)).map fun d => d * 128 + 97

/-- Every section of the module. -/
def allSections (s : State) (noPred : Bool) : List Section :=
  s.loadedStages.flatMap (stageSections s noPred) ++
  (if s.ingest.isOpen then [⟨6, 0xFFFF, 0, 0, ingestBytes s⟩] else []) ++
  s.inflectors.map fun k => ⟨8, 0xFFFF, k / 128, 0, engineBytes k (s.eng k)⟩

/-- Package memory that a checkpoint of a stage reads. -/
def checkpointRanges (s : State) (g : Stage) : List (Nat × Nat) :=
  let n := g.shardLen s.job.z
  let me := g.masterRole
  [(g.image.buffers.getD g.fullBuffer 0, g.image.imageSize), (g.image.heads.getD me 0, 2 * n), (g.image.rems.getD me 0, n),
   (g.image.moments.getD me 0, g.image.momentLen)] ++
  (match g.tenses.find? fun t => t.state == 2 with
   | some t => [(t.sdigAddr, 16 * s.job.z)]
   | none => [])

/-- An uncorrectable word in the way, with its stage. -/
def State.checkpointBad (s : State) : Option (Nat × Nat) :=
  s.loadedStages.findSome? fun v => (s.badAmong (checkpointRanges s (s.stage v))).map fun w => (v, w)

/-- Its effect. -/
def checkpoint (c : Cmd) (s : State) : Reply :=
  let dest := c.arg 0 8
  if dest % 64 ≠ 0 || (dest == 0 && c.arg 8 8 != 0) then .noAt stAddress 32
  else match s.loadedStages.find? fun v => s.absent (s.stage v).image.die with
  | some v => .noStage stFaulted (s.stage v).image.stage
  | none => match s.checkpointBad with
    | some (v, w) =>
      .failed { status := stFaulted, stage := (s.stage v).image.stage } (memBad (some v) w (unitAddr 0 118 0) 0 s)
    | none =>
      let bs := packSections s.job.id.toNat s.job.rank s.job.z (allSections s (c.expert && c.arg 16 1 == 1))
      if c.arg 8 8 < bs.length then .refuse { status := stLength, offset := 40, size := bs.length }
      else if s.offloadWaits then .goesOn s
      else .done (leBytes 8 bs.length) [] { s with hostMem := memWriteBytes s.hostMem dest bs }

/-- CHECKPOINT. -/
def execCheckpoint (c : Cmd) (s : State) : Host.Outcome State Fault Refusal := runCmd c checkpointSpec (checkpoint c) s

/-! ### RESTORE (R382, R383) -/

/-- RESTORE. -/
def restoreSpec : CmdSpec :=
  { opcode := 0x23, control := true, states := [1, 4], basicArgs := [(0, 8), (8, 8)], expertArgs := [(0, 8), (8, 8)], lenLo := 0
    lenHi := 0, respMin := 0 }

/-- Bytes that a section must have, or nothing where no section of its kind and place may stand. -/
def sectionNeed (s : State) (x : Section) : Option Nat :=
  if x.kind = 6 then
    if x.stage = 0xFFFF && s.stage0.isSome && x.data.length ≥ 56 + 96 && (x.data.length - 152) % 16 = 0 then some x.data.length
    else none
  else if x.kind = 8 then
    if x.stage = 0xFFFF && 1 ≤ x.shard && x.shard ≤ 4 then some (engineSize (x.shard * 128 + 97)) else none
  else match s.findStage x.stage with
  | none => none
  | some v =>
    let g := s.stage v
    if x.kind ≤ 4 then some (g.sectionSize s.job.z x.kind)
    else if x.kind = 5 then some g.predSize
    else some (g.cellKeys.length * engineSize 0)

/-- Is a section one that this module can install? -/
def sectionOk (s : State) (x : Section) : Bool := sectionNeed s x == some x.data.length

/-- A loaded stage for which a section of kinds 1 to 4 is missing. -/
def State.missing (s : State) (xs : List Section) : Option Nat :=
  s.loadedStages.find? fun v => [1, 2, 3, 4].any fun k => (sectionOf xs k (s.stage v).image.stage).isNone

/-- A stage's queues, records, counts and held Clauses go; its code starts at its first instruction (R137, R383). -/
def Stage.clearClauses (g : Stage) : Stage :=
  { g with
    forwardIn := {}, backwardIn := {}, forwardOut := {}, backwardOut := {}, takes := 0, records := [], current := none
    releaseNext := none, exec := none, nullOvf := none, restart := 0, exchanges := [] }

/-- Write a stage's cell registers back. -/
def installCells (v : Nat) (sec : Option (List Byte)) (s : State) : State :=
  match sec with
  | none => s
  | some bs => forEach (number 0 (s.stage v).cellKeys) (fun x s =>
      s.updEng x.2 (EngineState.installRegs x.2 ((bs.drop (x.1 * engineSize 0)).take (engineSize 0)))) s

/-- Install one stage. -/
def restoreStage (xs : List Section) (v : Nat) (s : State) : State :=
  let g := s.stage v
  let num := g.image.stage
  let sec (k : Nat) : List Byte := (sectionOf xs k num).getD []
  let tag := sec 4
  let s := s.updEng (g.image.die * 128 + 97) fun e => { e.dropRun v with ready := e.ready.filter (· != v) }
  let s := installTense v (fieldAt tag 4 4) (BitVec.ofNat 128 (fieldAt tag 16 16)) (sec 1) (sec 2) (sec 3) (tag.drop 32) s
  let s := s.updStage v fun g => (g.clearClauses).installPred (sectionOf xs 5 num)
  let s := installCells v (sectionOf xs 7 num) s
  { s with transit := s.transit.filter fun m => m.stage != num }

/-- Links at a RESTORE: exports are abandoned, STAGE and COLLECTIVE ports go DOWN and their messages are discarded. -/
def restoreLinks (s : State) : State :=
  let s := s.updJob fun j => { j with restores := j.restores + 1 }
  forEach (List.range 8) (fun p s =>
    let s := abandonExport p s
    let role := (s.port p).role
    if role = roleUp || role = roleDown || role = roleColl then
      (portDown p 4 s).updPort p fun q => { q with out := [], unacked := [] }
    else s) s

/-- Install the sections that belong to no stage. -/
def restoreCommon (xs : List Section) (s : State) : State :=
  forEach xs (fun x s =>
    if x.kind = 6 then installIngest x.data s
    else if x.kind = 8 then s.updEng (x.shard * 128 + 97) (EngineState.installRegs (x.shard * 128 + 97) x.data)
    else s) s

/-- Its effect: every section is read and checked before any is installed. -/
def restore (c : Cmd) (s : State) : Reply :=
  let src := c.arg 0 8
  if src % 64 ≠ 0 || (src == 0 && c.arg 8 8 != 0) then .noAt stAddress 32
  else match unpackSections (memBytes s.hostMem src (c.arg 8 8)) with
  | .error e => .no e
  | .ok xs => match xs.find? fun x => !sectionOk s x with
    | some x => .noStage stImage x.stage
    | none => match s.missing xs with
      | some v => .noStage stImage (s.stage v).image.stage
      | none => match s.loadedStages.find? fun v => s.absent (s.stage v).image.die with
        | some v => .noStage stFaulted (s.stage v).image.stage
        | none =>
          if s.offloadWaits then .goesOn s
          else .ok (restoreCommon xs (forEach s.loadedStages (restoreStage xs) (restoreLinks s)))

/-- RESTORE. -/
def execRestore (c : Cmd) (s : State) : Host.Outcome State Fault Refusal := runCmd c restoreSpec (restore c) s

/-! ### TENSE_EXPORT (R219, R353, R405) -/

/-- TENSE_EXPORT. -/
def exportSpec : CmdSpec :=
  { opcode := 0x21, control := false, states := [2, 4], basicArgs := [(0, 2)], expertArgs := [(0, 2), (4, 4), (8, 1)], lenLo := 0
    lenHi := 0, respMin := 0 }

/-- The EXPORT port that a command's export goes on. -/
def exportPort (c : Cmd) (s : State) : Option Nat :=
  let up := (s.rolePorts roleExport).filter fun p => (s.port p).state == 2
  if c.expert then up.find? (· == c.arg 8 1) else up.head?

/-- Bytes 0 to 127 of the manifest (Table 15.13). -/
def manifestBody (s : State) (g : Stage) (t : TenseSlot) (no : Nat) (img : List Byte) : List Byte :=
  let c := pd [s.load t.sdigAddr (16 * s.job.z)]
  fit 128 (leBytes 4 1 ++ leBytes 4 s.job.id.toNat ++ leBytes 8 Config.serial.toNat ++ leBytes 4 no ++
    leBytes 2 g.image.stage ++ leBytes 2 g.image.position ++ leBytes 4 t.commit ++ leBytes 4 s.chip.fwVersion.toNat ++
    leBytes 8 g.image.imageSize ++ leBytes 16 t.adig.toNat ++ leBytes 16 c ++ sha256 img ++
    leBytes 1 s.grade)

/-- The signature of a device key over a message, with 32 bytes of salt drawn at random (R395). -/
def rsaSign (key : Nat) (msg : List Byte) (s : State) : List Byte :=
  pssSign (Config.deviceKey key).1 (Config.deviceKey key).2 msg (s.freeBytes 32)

/-- The salt has been drawn. -/
def State.drawn (s : State) : State := { s with freeCount := s.freeCount + 32 }

/-- The manifest with its signature by the device export key. -/
def manifest (s : State) (g : Stage) (t : TenseSlot) (no : Nat) (img : List Byte) : List Byte :=
  let b := manifestBody s g t no img
  b ++ rsaSign 1 b s

/-- DATA frames of an export: 2 the image, 3 the manifest; the number of the message's first frame stands where other
messages have a rank. -/
def exportMessage (kind stage no first : Nat) (bs : List Byte) : OutMsg :=
  withData (msgOf 16 1 (kind * 64) stage no first 4) bs

/-- Do the bytes that an export reads differ from the slot's shard digests? -/
def exportBad (s : State) (g : Stage) (t : TenseSlot) (img : List Byte) : Bool :=
  (List.range s.job.z).any fun r => shardDigest (shardBytes (g.shardRanges s.job.z r) img) != s.sdig t r

/-- Start an export of a slot on a port: PIN, the image and the manifest; `more` says that another export of the same command
follows (R376). -/
def startExport (p : Nat) (x : Nat × TenseSlot × Bool) (s : State) : State :=
  let (v, t, more) := x
  let g := s.stage v
  let no := s.job.exports.toNat
  let img := (s.materialise g t).take g.image.imageSize
  let s := s.updStage v fun g => { g with
    tenses := g.tenses.map fun u => if u.holds && u.commit == t.commit then { u with pin := true } else u }
  let s := s.updJob fun j =>
    { j with exports := j.exports + 1, exporting := j.exporting ++ [(p, no, g.image.stage, t.commit)]
             exportMore := if more then j.exportMore ++ [no] else j.exportMore }
  let s := queueOn p (exportMessage 2 g.image.stage no 0 img) s
  queueOn p (exportMessage 3 g.image.stage no (cdiv img.length 480) (manifest s g t no img)) s.drawn

/-- The slot of a stage that a command exports. -/
def Stage.exported (g : Stage) (c : Cmd) : Option TenseSlot :=
  let commit := if c.expert then c.arg 4 4 else g.presentCommit
  g.tenses.find? fun t => t.holds && t.commit == commit

/-- Its effect. A stage argument of 0xFFFF exports every stage, one after the other (R376, log 132); where the bytes read differ
from their digests the image goes out and EV_EXPORT_ABANDONED in the manifest's place (R405). -/
def tenseExport (c : Cmd) (s : State) : Reply :=
  let vs := s.named (c.arg 0 2)
  if vs.isEmpty then .refuse { status := stUnit, stage := c.arg 0 2, offset := 32 }
  else if c.expert && c.arg 8 1 > 7 then .noAt stRange 40
  else match vs.find? fun v => ((s.stage v).exported c).isNone with
  | some v => .noStage stNoTense (s.stage v).image.stage
  | none => match exportPort c s with
    | none => .noStage stNoPartner (c.arg 0 2)
    | some p =>
      let xs := vs.filterMap fun v => ((s.stage v).exported c).map fun t => (v, t)
      match xs.findSome? fun x => (s.badAmong ((s.stage x.1).slotRecord x.1 x.2.commit ++ (s.stage x.1).sourceRanges x.2)).map
          fun w => (x.1, w) with
      | some (v, w) =>
        .failed { status := stFaulted, stage := (s.stage v).image.stage } (memBad (some v) w (unitAddr 0 118 7) 0 s)
      | none => match xs.find? fun x => exportBad s (s.stage x.1) x.2 (s.materialise (s.stage x.1) x.2) with
        | some (v, t) =>
          let g := s.stage v
          let img := (s.materialise g t).take g.image.imageSize
          .failed { status := stAborted, stage := g.image.stage }
            (raise 0x0605 (portUnit p) 0 [] (queueOn p (exportMessage 2 g.image.stage s.job.exports.toNat 0 img)
              (s.updJob fun j => { j with exports := j.exports + 1 })))
        | none =>
          .goesOn (forEach ((number 1 xs).map fun x => (x.2.1, x.2.2, decide (x.1 < xs.length))) (startExport p) s)

/-- Is the port of an export in use by another? It then waits (R353). -/
def exportWaits (c : Cmd) (s : State) : Bool :=
  match exportPort c s with
  | some p => s.job.exporting.any fun e => e.1 == p
  | none => false

/-- TENSE_EXPORT: it waits while its port carries another export. -/
def execTenseExport (c : Cmd) (s : State) : Host.Outcome State Fault Refusal :=
  if exportWaits c s then .next s else runCmd c exportSpec (tenseExport c) s

end Sys2Proof.Machine
end

