-- ==== Sys2Proof/Machine/Host.lean ====
section
/-!
DEFINITION. Sys2Proof/Machine/Host.lean: the host endpoint: BAR0 registers (R16, R17, R357, R362, R363, R327, R328), BAR2
(R358, R359, R361, R448), MSI-X (R365), the fence (R375, R450 to R452), and the resets of the function and the endpoint
(R360, R416).
-/
namespace Sys2Proof.Machine

/-! ### When the endpoint answers (Table 16.1, R416, R417, Table 14.1) -/

/-- Is the endpoint out of reset, so that it answers configuration requests? -/
def State.endpointOn (s : State) : Bool :=
  s.chip.powered && !s.chip.moduleReset && s.chip.refclk && !s.chip.perst && decide (s.chip.bringup ≥ 1)

/-- Do the BARs answer? In D3hot they do not. -/
def State.barsOn (s : State) : Bool := s.endpointOn && !s.host.d3

/-- Do all registers answer? In ROM only BRINGUP, FAULT_CAUSE, UPTIME and FENCE do. -/
def State.regsOn (s : State) : Bool := s.barsOn && decide (s.chip.bringup ≥ 2)

/-- A register command that arrives while its register answers. -/
def onReg (on : State → Bool) (f : State → State) (s : State) : Host.Outcome State Fault Refusal :=
  .next (if on s then f s else s)

/-! ### The fence (R375, R316, R440, R450 to R452) -/

/-- DONE becomes 1. -/
def setDone (s : State) : State :=
  if s.chip.fenceDone then s else statusIrq (s.updChip fun c => { c with fenceDone := true })

/-- The transfer under way of engine `k` stops at a 64-byte granule: how many granules it has moved by then is open, and they
are whole (R35, R451, log 131). -/
def dmaStops (k : Nat) (s : State) : State :=
  match (s.eng k).dmaQ with
  | [] => s
  | q :: _ =>
    let n := 64 * (leNat (s.freeBytes 8) % (q.len / 64 + 1))
    if q.bad || isGuest q.src || isGuest q.dst || checkAccess s k (dmaReach k) q.src q.len false != .ok ||
        checkAccess s k (dmaReach k) q.dst q.len true != .ok then s
    else
      let s := s.put q.dst (s.fetch q.src n)
      { s with freeCount := s.freeCount + 8 }

/-- The broadcast: every stage of the job halts under R82 and ingest placement stops. -/
def startFence (s : State) : State :=
  let s := forEach (s.loadedStages.flatMap fun v => (s.stage v).cellKeys) dmaStops s
  let s := forEach s.loadedStages (haltStage · 0x0702 false) s
  let s := s.updIngest fun i => { i with stopped := true, stopAt := none }
  s.updChip fun c => { c with fencing := true }

/-- Is a job running or pausing? -/
def State.jobRuns (s : State) : Bool := s.job.state == 2 || s.job.state == 3

/-- A write of GO. A fence that is under way is joined; while DONE is 1, or with no job running or pausing, it acts on no
stage and sets DONE at once. -/
def fence (s : State) : State :=
  if s.chip.fencing then s
  else if s.chip.fenceDone || !s.jobRuns then setDone s
  else startFence s

/-- The broadcast that the hub's hardware issues (R418, R438). -/
def hardFence (s : State) : State :=
  if s.chip.fencing then s else if s.jobRuns then startFence s else setDone s

/-- FENCE_GO. -/
def execFenceGo (s : State) : Host.Outcome State Fault Refusal := onReg State.barsOn fence s

/-- Every die has confirmed: DONE, and the job enters PAUSED with reason FENCE; a basic HALT that waited goes on. -/
def finishFence (s : State) : State :=
  let s := setDone (s.updChip fun c => { c with fencing := false })
  let s := if s.jobRuns then
      enterPaused (s.updJob fun j => { j with state := 3, pauseReason := 3 })
    else s
  if s.chip.haltWaits.isEmpty then s
  else forEach s.chip.haltWaits (fun r s => completeRunning r stOk [] s) (haltAll (s.updChip fun c => { c with haltWaits := [] }))

/-- FENCE_COMPLETE: a port counts as drained 40 µs after the broadcast whatever it has unacknowledged (R451), so that the
confirmation asks nothing of the ports. -/
def execFenceComplete (s : State) : Host.Outcome State Fault Refusal := .next (if s.chip.fencing then finishFence s else s)

/-- THERMAL_SEEN_CLEAR: a write of 1, without effect while THERMAL_TRIP is 1 (R357). -/
def execThermalSeenClear (s : State) : Host.Outcome State Fault Refusal :=
  onReg State.barsOn (fun s => if s.chip.thermalTrip then s else s.updChip fun c => { c with thermalSeen := false }) s

/-! ### BAR2 (R358, R359, R361, R448) -/

/-- Does BASE place the 64 GiB window wholly within the HBM of one compute die (R358)? -/
def bar2BaseOk (base : BitVec 18) : Bool :=
  let a := base.toNat * 2 ^ 30
  let d := a / 2 ^ 40
  decide (1 ≤ d ∧ d ≤ 4 ∧ a % 2 ^ 40 ≤ 80 * 2 ^ 30)

/-- The package address of a BAR2 offset, while the window is enabled and valid. -/
def HostIf.bar2Addr (h : HostIf) (off : Nat) : Option Nat :=
  if h.bar2En && !h.bar2Invalid then some (h.bar2Base.toNat * 2 ^ 30 + off) else none

/-- BAR2_WINDOW takes a value after every BAR2 access received before it has been performed; reserved bits are ignored
(R358). -/
def setBar2 (x : W64) (s : State) : State :=
  let base := BitVec.ofNat 18 (bits x.toNat 47 30)
  (drainBar2 s).updHost fun h => { h with bar2Base := base, bar2En := x.getLsbD 0, bar2Invalid := !bar2BaseOk base }

/-- BAR2_WINDOW_WRITE: the register in one access of 64 bits. -/
def execBar2WindowWrite (x : W64) (s : State) : Host.Outcome State Fault Refusal := onReg State.regsOn (setBar2 x) s

/-- What BAR2_WINDOW reads. -/
def bar2Window (s : State) : Nat := s.host.bar2Base.toNat * 2 ^ 30 + 2 * bit s.host.bar2Invalid + bit s.host.bar2En

/-- The package address of a BAR2 access that is served: from REDUCED on (Table 16.1, log 60). -/
def State.bar2At (s : State) (off : Nat) : Option Nat := if s.chip.bringup < 4 then none else s.host.bar2Addr off

/-- BAR2_WRITE: at most 512 bytes, staged until a host DMA engine takes it, or discarded and counted. -/
def execBar2Write (off : BitVec 36) (data : List Byte) (poisoned : Bool) (s : State) : Host.Outcome State Fault Refusal :=
  onReg State.barsOn (fun s =>
    if data.length > 512 || off.toNat + data.length > 2 ^ 36 then s
    else match s.bar2At off.toNat with
    | none => bar2Refused s
    | some a =>
      if poisoned || s.absent (a / 2 ^ 40) then bar2Refused s
      else s.updHost fun h => { h with chunks := h.chunks ++ [⟨1, true, a, data.length, data⟩] }) s

/-- BAR2_READ: at most 4 096 bytes; it does not pass the writes before it. A refused read, or one that meets an
uncorrectable word, completes with Completer Abort. -/
def execBar2Read (off : BitVec 36) (len : Nat) (s : State) : Host.Outcome State Fault Refusal :=
  onReg State.barsOn (fun s =>
    if len > 4096 || off.toNat + len > 2 ^ 36 then s
    else
      let s := drainBar2 s
      match s.bar2At off.toNat with
      | none => (bar2Refused s).send .completerAbort
      | some a =>
        if s.absent (a / 2 ^ 40) then (bar2Refused s).send .completerAbort
        else match s.badIn a len with
        | some w => (memBadNoHalt none w endpointUnit 0 s).send .completerAbort
        | none => s.send (.read (s.load a len))) s

/-- The position of the chunk that a free engine takes: engine 7 an EXPORT chunk first; otherwise the oldest of OFFLOAD,
BAR2 and EXPORT among classes whose partition has room, a BAR2 chunk that has waited 50 µs going ahead of OFFLOAD (R448).
A chunk is granted and written in one step, so that a partition has room whenever it has any space. -/
def pickChunk (engine : Nat) (waited : Bool) (room : Nat → Bool) (cs : List Chunk) : Option Nat :=
  let first (cls : Nat) : Option Nat := if room cls then cs.findIdx? fun c => c.cls == cls else none
  let usual := if waited then [1, 0, 2] else [0, 1, 2]
  (if engine = 7 then 2 :: usual else usual).findSome? first

/-- HOST_DMA_CHUNK. -/
def execHostDmaChunk (engine : Fin 8) (waited : Bool) (s : State) : Host.Outcome State Fault Refusal :=
  .next (match pickChunk engine.val waited (fun k => decide (s.partition k > 0)) s.host.chunks with
    | none => s
    | some i =>
      match s.host.chunks[i]? with
      | none => s
      | some c => moveChunk c (s.updHost fun h => { h with chunks := h.chunks.eraseIdx i }))

/-! ### Mailbox registers (R362, R363) -/

/-- Note a refused register write in CFG_STATUS. -/
def refuseReg (m status : Nat) (s : State) : State :=
  s.updMailbox m fun r => { r with cfgStatus := BitVec.ofNat 16 status }

/-- MB_CTRL's writable bits. -/
def ctrlMask : W32 := 0xFF3F0F03#32
/-- The bits that take writes while ENABLE is 1: COALESCE and IRQ_EN. -/
def ctrlFree : W32 := 0xFF000002#32

/-- A successful enable sets all four indexes to 0 and the phase to 1. -/
def MailboxRegs.start (r : MailboxRegs) (ctrl : W32) : MailboxRegs :=
  { r with ctrl := ctrl, cmdTail := 0, cmpHead := 0, cmdHead := 0, cmpTail := 0, waiting := 0, phase := true }

/-- A write to MB_CTRL. -/
def writeCtrl (m : Nat) (x : W32) (s : State) : State :=
  let r := s.mailbox m
  let x := x &&& ctrlMask
  if r.enabled then
    s.updMailbox m fun r => { r with ctrl := (r.ctrl &&& ~~~(ctrlFree ||| 1)) ||| (x &&& (ctrlFree ||| 1)) }
  else
    let off := x &&& ~~~1
    let s := s.updMailbox m fun r => { r with ctrl := off }
    let size := bits x.toNat 11 8
    if !x.getLsbD 0 then s
    else if size < 4 || size > 12 || r.cmdBase.toNat % 4096 != 0 || r.cmpBase.toNat % 4096 != 0 then refuseReg m stRing s
    else if m ≠ 0 && decide (s.chip.bringup < 3) then refuseReg m stState s
    else s.updMailbox m (MailboxRegs.start · x)

/-- MAILBOX_ENABLE: a write of MB_CTRL with ENABLE 1. -/
def execMailboxEnable (m : Fin 32) (ctrl : W32) (s : State) : Host.Outcome State Fault Refusal :=
  onReg State.regsOn (fun s => if ctrl.getLsbD 0 then writeCtrl m.val ctrl s else s) s

/-- MAILBOX_DISABLE: a write of MB_CTRL with ENABLE 0. -/
def execMailboxDisable (m : Fin 32) (ctrl : W32) (s : State) : Host.Outcome State Fault Refusal :=
  onReg State.regsOn (fun s => if ctrl.getLsbD 0 then s else writeCtrl m.val ctrl s) s

/-- The device reads the entries that a doorbell announces, while the Parser runs (R364). -/
def readCommands (m : Nat) (s : State) : State :=
  if s.chip.parserHeld then s else s.updMailbox m MailboxRegs.readEntries

/-- CMD_TAIL: the doorbell acts once every BAR2 write received before it has been performed (R359); `wrote` is what
software has written into host memory ahead of it. -/
def doorbell (m : Nat) (x : W32) (s : State) : State :=
  if x.toNat ≥ (s.mailbox m).size then refuseReg m stRing s
  else if !(s.mailbox m).enabled then s
  else readCommands m ((drainBar2 s).updMailbox m fun r => { r with cmdTail := x })

/-- CMD_TAIL. -/
def execCmdTail (m : Fin 32) (x : W32) (wrote : List (W64 × List Byte)) (s : State) : Host.Outcome State Fault Refusal :=
  onReg State.regsOn (doorbell m.val x)
    (forEach wrote (fun w s => { s with hostMem := memWriteBytes s.hostMem w.1.toNat w.2 }) s)

/-- CMP_HEAD. -/
def execCmpHead (m : Fin 32) (x : W32) (s : State) : Host.Outcome State Fault Refusal :=
  onReg State.regsOn (fun s =>
    if x.toNat ≥ (s.mailbox m.val).size then refuseReg m.val stRing s
    else s.updMailbox m.val fun r => { r with cmpHead := x }) s

/-! ### The firewall blocks (R327, R328) -/

/-- FW_CTRL.LOCK -/
def Firewall.locked (f : Firewall) : Bool := f.ctrl.getLsbD 1

/-- FW_CTRL_WRITE. -/
def execFwCtrlWrite (p : Fin 2) (x : W32) (s : State) : Host.Outcome State Fault Refusal :=
  onReg State.regsOn (fun s => s.updFw p.val fun f => if f.locked then f else { f with ctrl := x &&& 3 }) s

/-- Does a window break R328 and Table 12.12? One that nothing has been written into reaches nothing. -/
def winInvalid (base size ctrl : Nat) : Bool :=
  if base = 0 && size = 0 then false
  else if base % 4096 != 0 || size % 4096 != 0 || size < 4096 || size > 2 ^ 40 then true
  else if bitAt ctrl 3 then decide (base + size > 2 ^ 40)
  else !(decide (1 ≤ base / 2 ^ 40 ∧ base / 2 ^ 40 ≤ 4) && decide (base % 2 ^ 40 + size ≤ 144 * 2 ^ 30))

/-- Set one register of window `w` (0 WIN_BASE, 1 WIN_SIZE, 2 WIN_CTRL, 3 WIN_RATE) and bring INVALID up to date. -/
def Firewall.setWin (f : Firewall) (w r x : Nat) : Firewall :=
  let ws := sset 0 (4 * w + r) (BitVec.ofNat 64 (if r = 2 then x % 32 else if r = 3 then x % 2 ^ 16 else x)) f.windows
  let get (i : Nat) : Nat := (sget 0 ws (4 * w + i)).toNat
  let c := get 2 % 32
  let bad := winInvalid (get 0) (get 1) c
  { f with windows := sset 0 (4 * w + 2) (BitVec.ofNat 64 (c + 256 * bit bad)) ws }

/-! ### Plain registers (R16, R17, R357) -/

/-- What a BAR0 offset names, as far as REGISTER_WRITE reaches it. -/
inductive Reg where
  | statusIrq
  /-- CMD_BASE, or CMP_BASE -/
  | ringBase (m : Nat) (cmp : Bool)
  | fwClass (p : Nat)
  /-- register `r` of window `w` -/
  | window (p w r : Nat)
  | msix (i : Nat)
  /-- BAR2_WINDOW, by halves -/
  | bar2
  | other
deriving DecidableEq, Repr

/-- The register at an offset of the firewall block of port `p`. -/
def fwReg (p o : Nat) : Reg :=
  if o = 4 then .fwClass p
  else if 0x100 ≤ o ∧ o < 0x500 then
    let w := (o - 0x100) / 32
    match o % 32 / 4 with
    | 0 => .window p w 0
    | 1 => .window p w 0
    | 2 => .window p w 1
    | 3 => .window p w 1
    | 4 => .window p w 2
    | 5 => .window p w 3
    | _ => .other
  else .other

/-- The register at an offset (Table 14.2). -/
def regAt (o : Nat) : Reg :=
  if o % 4 ≠ 0 then .other
  else if o = 0x14 then .statusIrq
  else if o = 0x18 || o = 0x1C then .bar2
  else if 0x1000 ≤ o ∧ o < 0x1800 then
    (if o % 64 < 16 then .ringBase ((o - 0x1000) / 64) (decide (o % 64 ≥ 8)) else .other)
  else if 0x8000 ≤ o ∧ o < 0x8800 then fwReg 0 (o - 0x8000)
  else if 0x8800 ≤ o ∧ o < 0x9000 then fwReg 1 (o - 0x8800)
  else if 0xC000 ≤ o ∧ o < 0xC400 then .msix ((o - 0xC000) / 4)
  else .other

/-- A 64-bit register written in halves takes effect with its upper half (R357): the lower half waits, and `set` gets the
whole value. `old` is the register's present value, whose lower half stands where none has been written. -/
def writeHalf (o : Nat) (x : W32) (old : W64) (set : W64 → State → State) (s : State) : State :=
  if o % 8 = 0 then s.updHost fun h => { h with halves := sset (old.setWidth 32) (o / 8) x h.halves }
  else
    let lo := sget (old.setWidth 32) s.host.halves (o / 8)
    set (x ++ lo) (s.updHost fun h => { h with halves := h.halves.filter fun e => e.1 != o / 8 })

/-- Write one dword of the MSI-X table. A vector that becomes unmasked sends its pending message. -/
def writeMsix (i : Nat) (x : W32) (s : State) : State :=
  let v := i / 4
  let s := s.updHost fun h => { h with msixTable := sset (if i % 4 = 3 then 1 else 0) i x h.msixTable }
  if i % 4 = 3 && !x.getLsbD 0 && !s.host.msixMasked && s.host.msixPending.getLsbD v then
    sendMsix v (s.updHost fun h => { h with msixPending := h.msixPending &&& ~~~(1#64 <<< v) })
  else s

/-- Write a plain register; while its mailbox or firewall block holds it fixed, the write is ignored. -/
def writeReg (o : Nat) (x : W32) (s : State) : State :=
  match regAt o with
  | .statusIrq => s.updChip fun c => { c with statusIrqEn := x.getLsbD 0 }
  | .ringBase m cmp =>
    let r := s.mailbox m
    if r.enabled then s
    else writeHalf o x (if cmp then r.cmpBase else r.cmdBase) (fun v s =>
      s.updMailbox m fun r => if cmp then { r with cmpBase := v } else { r with cmdBase := v }) s
  | .fwClass p => s.updFw p fun f => if f.locked then f else { f with cls := x &&& 0xF }
  | .window p w r =>
    let f := s.fw p
    if f.locked || f.ctrl.getLsbD 0 then s
    else if r ≥ 2 then s.updFw p (Firewall.setWin · w r x.toNat)
    else writeHalf o x (sget 0 f.windows (4 * w + r)) (fun v s => s.updFw p (Firewall.setWin · w r v.toNat)) s
  | .bar2 => writeHalf o x (BitVec.ofNat 64 (bar2Window s)) setBar2 s
  | .msix i => writeMsix i (if i % 4 = 3 then x &&& 1 else x) s
  | .other => s

/-- REGISTER_WRITE: a register that has a command of its own, a read-only one and a reserved offset take nothing here. -/
def execRegisterWrite (off : W16) (x : W32) (s : State) : Host.Outcome State Fault Refusal :=
  onReg State.regsOn (writeReg off.toNat x) s

/-! ### Reads (R16, R17) -/

/-- A half of a 64-bit register. -/
def half (x : Nat) (upper : Bool) : Nat := if upper then x / 2 ^ 32 else x % 2 ^ 32

/-- BRINGUP and FAULT_CAUSE (Table 14.3). -/
def statusReg (s : State) (cause : Bool) : Nat :=
  if cause then s.chip.faultCause
  else s.chip.bringup + s.chip.service * 2 ^ 8 + s.chip.fwSlot * 2 ^ 10

/-- The registers of mailbox `m` (Table 14.4); the doorbell reads 0. -/
def mailboxReg (s : State) (m o : Nat) : Nat :=
  let r := s.mailbox m
  let busy := s.running.any fun x => match x.mb with
    | .host n => n.val == m
    | _ => false
  match o / 4 with
  | 0 => half r.cmdBase.toNat false
  | 1 => half r.cmdBase.toNat true
  | 2 => half r.cmpBase.toNat false
  | 3 => half r.cmpBase.toNat true
  | 4 => r.ctrl.toNat
  | 5 => r.cfgStatus.toNat * 2 ^ 16 + bit busy * 2 + bit r.enabled
  | 7 => r.cmpHead.toNat
  | 8 => r.cmdHead.toNat
  | 9 => r.cmpTail.toNat
  | _ => 0

/-- The registers of a firewall block (Tables 12.12 to 12.14). -/
def firewallReg (s : State) (p o : Nat) : Nat :=
  let f := s.fw p
  let a := s.ap p
  if 0x100 ≤ o ∧ o < 0x500 then
    let w := (o - 0x100) / 32
    let get (r : Nat) : Nat := (sget 0 f.windows (4 * w + r)).toNat
    match o % 32 / 4 with
    | 0 => half (get 0) false
    | 1 => half (get 0) true
    | 2 => half (get 1) false
    | 3 => half (get 1) true
    | 4 => get 2
    | 5 => get 3
    | _ => 0
  else match o / 4 with
    | 0 => f.ctrl.toNat
    | 1 => f.cls.toNat
    | 2 => a.state + a.rate.toNat * 2 ^ 4 + bit a.identOk * 2 ^ 8
    | 4 => f.denied.toNat
    | 5 => f.protoErrors.toNat
    | 6 => half f.lastDenied.toNat false
    | 7 => half f.lastDenied.toNat true
    | _ => 0

/-- What a read of a 32-bit offset of BAR0 returns (Tables 0.4, 14.2): a WO field and a reserved offset read 0. -/
def readReg (s : State) (o : Nat) : W32 :=
  BitVec.ofNat 32 (
    if o % 4 ≠ 0 then 0
    else if o = 0 then statusReg s false
    else if o = 4 then statusReg s true
    else if o = 8 || o = 0xC then half s.chip.uptime.toNat (o == 0xC)
    else if o = 0x10 then 2 * bit s.chip.fenceDone
    else if o = 0x14 then bit s.chip.statusIrqEn
    else if o = 0x18 || o = 0x1C then
      half (bar2Window s) (o == 0x1C)
    else if o = 0x20 then s.host.bar2Errors.toNat
    else if o = 0x24 then s.host.eventDrops.toNat
    else if 0x1000 ≤ o ∧ o < 0x1800 then mailboxReg s ((o - 0x1000) / 64) (o % 64)
    else if 0x8000 ≤ o ∧ o < 0x8800 then firewallReg s 0 (o - 0x8000)
    else if 0x8800 ≤ o ∧ o < 0x9000 then firewallReg s 1 (o - 0x8800)
    else if 0xC000 ≤ o ∧ o < 0xC400 then (sget (if o / 4 % 4 = 3 then 1 else 0) s.host.msixTable ((o - 0xC000) / 4)).toNat
    else if o = 0xD000 || o = 0xD004 then half s.host.msixPending.toNat (o == 0xD004)
    else 0)

/-- An RC counter that has been read is cleared. -/
def clearRc (o : Nat) (s : State) : State :=
  let counter (p r : Nat) (s : State) : State :=
    if r = 0x10 then s.updFw p fun f => { f with denied := 0 }
    else if r = 0x14 then s.updFw p fun f => { f with protoErrors := 0 }
    else s
  if o = 0x20 then s.updHost fun h => { h with bar2Errors := 0 }
  else if 0x8000 ≤ o ∧ o < 0x8800 then counter 0 (o - 0x8000) s
  else if 0x8800 ≤ o ∧ o < 0x9000 then counter 1 (o - 0x8800) s
  else s

/-- A read of BAR0: the register is returned, and an RC counter is cleared in the same access (R16). -/
def readClear (o : Nat) (s : State) : State := clearRc o (s.send (.read (leBytes 4 (readReg s o).toNat)))

/-- RC_REGISTER_READ; a read of any other register of BAR0 changes nothing. In ROM, BRINGUP, FAULT_CAUSE, UPTIME and FENCE
answer (Table 16.1). -/
def execRcRegisterRead (off : W16) (s : State) : Host.Outcome State Fault Refusal :=
  onReg (fun s => s.regsOn || (s.barsOn && decide (off.toNat < 0x14))) (readClear off.toNat) s

/-! ### MSI-X (R365) -/

/-- MSI_X_COALESCE_TIMEOUT: one message covers every entry written before it. -/
def execMsiXCoalesceTimeout (m : Fin 32) (s : State) : Host.Outcome State Fault Refusal :=
  let r := s.mailbox m.val
  .next (if !r.timer || s.chip.parserHeld then s
    else
      let s := s.updMailbox m.val fun r => { r with timer := false }
      if r.ctrl.getLsbD 1 then sendMsix (bits r.ctrl.toNat 21 16) s else s)

/-- MSI_X_UNMASK. -/
def execMsiXUnmask (v : Fin 64) (s : State) : Host.Outcome State Fault Refusal :=
  onReg State.regsOn (writeMsix (4 * v.val + 3) 0) s

/-! ### Resets of the function and of the endpoint (R360, R416) -/

/-- Is a command on a host mailbox? -/
def Running.isHost (r : Running) : Bool := match r.mb with
  | .host _ => true
  | _ => false

/-- Commands of host mailboxes that are in progress write no completion; a bring-up goes on without one (R411). -/
def dropHostCommands (s : State) : State :=
  let s := { s with running := s.running.filter fun r => !r.isHost }
  let s := s.updFaults fun f => { f with test := f.test.filter fun t => !t.cmd.isHost }
  s.updChip fun c =>
    { c with haltWaits := c.haltWaits.filter fun r => !r.isHost
             advance := c.advance.map fun a => { a with cmd := a.cmd.filter fun r => !r.isHost } }

/-- A Function Level Reset. A fence that is under way finishes first (R452), and BAR2 writes already received are
performed. -/
def functionReset (s : State) : State :=
  let s := drainBar2 (dropHostCommands s)
  let s := endJob (if s.chip.fencing then finishFence s else s)
  let s := s.updChip fun c => { c with statusIrqEn := false }
  s.updHost fun h =>
    { h with mailboxes := [], bar2Base := 0, bar2En := false, bar2Invalid := false, halves := [], d3 := false }

/-- FUNCTION_LEVEL_RESET. -/
def execFunctionLevelReset (s : State) : Host.Outcome State Fault Refusal := onReg State.endpointOn functionReset s

/-- HOST_RESET: PERST_L, or a hot reset or loss of the link. -/
def execHostReset (perst : Bool) (s : State) : Host.Outcome State Fault Refusal :=
  let pin (s : State) : State := s.updChip fun c => { c with perst := c.perst || perst }
  .next (pin (if s.endpointOn then functionReset s else s))

/-- PERST_RELEASE: the link trains again. -/
def execPerstRelease (s : State) : Host.Outcome State Fault Refusal :=
  .next (s.updChip fun c => { c with perst := false })

/-- POWER_STATE_CHANGE: D3hot or D0; jobs, links and events go on (Table 14.1). -/
def execPowerStateChange (d3 : Bool) (s : State) : Host.Outcome State Fault Refusal :=
  onReg State.endpointOn (fun s => s.updHost fun h => { h with d3 := d3 }) s

end Sys2Proof.Machine
end

