-- ==== Sys2Proof/Machine/Firmware.lean ====
section
/-!
DEFINITION. Sys2Proof/Machine/Firmware.lean: firmware images (R400), the boot choice of the ROM (R401), the measurements
held from boot (R397), and what a trial firmware commits (R403).
-/
namespace Sys2Proof.Machine

/-! ### Images (Table 15.9) -/

/-- A little-endian field of a byte string. -/
def byteField (bs : List Byte) (o n : Nat) : Nat := leNat ((bs.drop o).take n)

/-- SVN -/
def imageSvn (img : List Byte) : Nat := byteField img 4 4
/-- VERSION -/
def imageVersion (img : List Byte) : Nat := byteField img 8 4
/-- NSEC -/
def imageNsec (img : List Byte) : Nat := byteField img 12 4
/-- BODY_LEN -/
def imageBodyLen (img : List Byte) : Nat := byteField img 16 8
/-- The body. -/
def imageBody (img : List Byte) : List Byte := (img.drop 1024).take (imageBodyLen img)
/-- A field of entry `i` of the section table. -/
def secField (img : List Byte) (i o n : Nat) : Nat := byteField img (64 + 32 * i + o) n

/-- Entries of the section table that are in use. -/
def imageSections (img : List Byte) : List Nat := List.range (imageNsec img)

/-- The entries of one section kind. -/
def sectionsOfKind (img : List Byte) (kind : Nat) : List Nat := (imageSections img).filter fun i => secField img i 0 4 == kind

/-- The bytes of the sections of one kind. -/
def kindBytes (img : List Byte) (kind : Nat) : List Byte :=
  (sectionsOfKind img kind).flatMap fun i => ((imageBody img).drop (secField img i 8 8)).take (secField img i 16 8)

/-- Is a section of a kind that exists, in its place within the body? -/
def fwSectionOk (img : List Byte) (i : Nat) : Bool :=
  decide (1 ≤ secField img i 0 4 ∧ secField img i 0 4 ≤ 6) && secField img i 8 8 % 4096 == 0 &&
    decide (secField img i 8 8 + secField img i 16 8 ≤ imageBodyLen img)

/-- Has an image FORMAT 1, a body of its length and a valid section table (R400, R401)? -/
def formatOk (img : List Byte) : Bool :=
  byteField img 0 4 == 1 && decide (imageSvn img ≤ 63) && decide (3 ≤ imageNsec img ∧ imageNsec img ≤ 16) &&
    decide (imageBodyLen img ≤ 24 * 2 ^ 20 - 1024) && decide (1024 + imageBodyLen img ≤ img.length) &&
    (imageSections img).all (fwSectionOk img) && ([1, 2, 3].all fun k => (sectionsOfKind img k).length == 1) &&
    ((List.range 16).all fun i => decide (i < imageNsec img) || ((img.drop (64 + 32 * i)).take 32).all (· == 0))

/-- What the signature covers. -/
def signedBytes (img : List Byte) : List Byte := img.take 640 ++ imageBody img

/-- Does the public key match the fuses, and does its signature of the image verify (R395, R401)? -/
def signatureOk (img : List Byte) : Bool :=
  sha256 Config.firmwareKeyBytes == Config.firmwareKeyHash &&
    pssVerify Config.firmwareKey.1 Config.firmwareKey.2 (signedBytes img) ((img.drop 640).take 384)

/-- Why an image does not verify: 1 SIGNATURE, 2 SVN, 3 FORMAT (R402); 0 when it does. -/
def verifyReason (svn : Nat) (img : List Byte) : Nat :=
  if !formatOk img then 3
  else if !signatureOk img then 1
  else if imageSvn img < svn then 2
  else 0

/-- A firmware slot: 0 A, 1 B, 2 recovery. -/
def Flash.slot (f : Flash) (n : Nat) : List Byte := if n = 0 then f.slotA else if n = 1 then f.slotB else f.recovery

/-- Does a slot verify? -/
def Flash.verifies (f : Flash) (n : Nat) : Bool := verifyReason f.svn (f.slot n) == 0

/-- Number of the ACTIVE slot. -/
def Flash.active (f : Flash) : Nat := bit f.activeB

/-! ### The boot choice (Table 15.10) -/

/-- A torn boot record counts as ACTIVE = A with TRIAL = 1, not committed (R417). -/
def Flash.record (f : Flash) : Flash :=
  if f.bootTorn then { f with bootTorn := false, activeB := false, trial := true, trialBooted := true } else f

/-- Step 1: a trial that a boot has not committed is abandoned. The list is the slots abandoned with their reasons. -/
def Flash.fallBack (f : Flash) : Flash × List (Nat × Nat) :=
  let f := f.record
  if f.trial && f.trialBooted then
    ({ f with activeB := !f.activeB, trial := false, trialBooted := false }, [(f.active, 1)])
  else (f, [])

/-- Steps 2 to 5: the slot booted, if any, the flash after it, and the EV_BOOT_FALLBACK events to raise: slot booted, slot
abandoned, reason. -/
def Flash.choose (f : Flash) : Option Nat × Flash × List (Nat × Nat × Nat) :=
  let (f, gone) := f.fallBack
  let a := f.active
  let boot (n : Nat) (f : Flash) (gone : List (Nat × Nat)) := (some n, f, gone.map fun x => (n, x.1, x.2))
  if f.verifies a then boot a { f with trialBooted := f.trial } gone
  else if f.verifies (1 - a) then boot (1 - a) { f with activeB := !f.activeB, trialBooted := f.trial } (gone ++ [(a, 2)])
  else if f.verifies 2 then boot 2 f gone
  else (none, f, [])

/-- What boot measures and holds: blocks 1 to 5 of Table 15.7, and at 9 and 10 the digests of the two microcode sections, which
discovery checks one by one (R401). -/
def bootMeasurements (img : List Byte) : Store (List Byte) :=
  [(1, leBytes 4 Config.romVersion.toNat), (2, sha256 (img.take 640)), (3, sha256 (kindBytes img 1)),
   (4, sha256 (kindBytes img 2 ++ kindBytes img 3)), (5, sha256 (kindBytes img 4)), (9, sha256 (kindBytes img 2)),
   (10, sha256 (kindBytes img 3))]

/-- The kind of the first microcode section, 2 or 3, that does not match the measured image (R401). -/
def State.microcodeBad (s : State) : Option Nat :=
  let img := s.flash.slot s.chip.fwSlot
  [2, 3].find? fun k => sget [] s.mgmt.measurements (k + 7) != sha256 (kindBytes img k)

/-- The trial firmware, which this boot runs, commits: TRIAL is cleared, the fused SVN is raised, EV_FW_COMMITTED (R403). An
image activated since the boot has not run and does not commit. -/
def commitFirmware (s : State) : State :=
  if s.flash.trial && s.flash.trialBooted then
    let s := (flushRecords s).updChip fun c => { c with bootWriting := true }
    let svn := max s.flash.svn s.chip.fwSvn
    let s := { s with flash := { s.flash with trial := false, trialBooted := false, svn := svn } }
    raiseParser 0x0804 [(1, s.chip.fwSlot), (4, s.chip.fwVersion.toNat), (4, svn)] s
  else s

end Sys2Proof.Machine
end

