-- ==== Sys2Proof/Machine/Bringup.lean ====
section
/-!
DEFINITION. Sys2Proof/Machine/Bringup.lean: resets (R415, R417, R419, R420), bring-up from ROM to FULL (R406 to R412,
R317 to R319), BRINGUP_ADVANCE and LANE_PLAN_SET, and the watchdog (R418).
-/
namespace Sys2Proof.Machine

/-! ### Package resets (R415, R420, R431, R441) -/

/-- Does a reset source hold the package? -/
def Chip.held (c : Chip) : Bool := !c.powered || c.moduleReset || !c.refclk

/-- What the flash keeps of the faults: records, counts, power-on minutes, the retirements that a PERMANENT or PATTERN record
in the ring bears, and the demotions with the quads that they disabled (R270). -/
def Faults.kept (f : Faults) : Faults :=
  { records := f.records, seq := f.seq, poh := f.poh, demotions := f.demotions, quadsOff := f.quadsOff
    suspects := f.suspects
    retired := f.retired.filter fun x => f.records.any fun r => f.retires r x }

/-- A package reset tears a boot record that is being written (R417), and clears every memory and register; the flash, the
fuses, power-on minutes, the pins, the reset cause and the out-of-service state (R269) stay. -/
def packageReset (cause : Byte) (count : W32) (s : State) : State :=
  let c := s.chip
  { pending := s.pending, freeCount := s.freeCount, hostMem := s.hostMem, sent := s.sent
    flash := { s.flash with bootTorn := s.flash.bootTorn || c.bootWriting }
    faults := s.faults.kept
    chip := { resetCause := cause, resetCount := count, powered := c.powered, regulatorLatched := c.regulatorLatched
              moduleReset := c.moduleReset, perst := c.perst, refclk := c.refclk, slotId := c.slotId
              minuteUs := c.minuteUs, outOfService := c.outOfService, service := if c.outOfService then 3 else 0 } }

/-- A reset source other than the supply acts; one more reset is counted, unless a source holds the package already. -/
def sourceReset (cause : Byte) (s : State) : State :=
  if s.chip.held then s else packageReset cause (s.chip.resetCount + 1) s

/-- MODULE_RESET: the pin has been low for 10 µs. -/
def execModuleReset (s : State) : Host.Outcome State Fault Refusal :=
  .next ((sourceReset 2 s).updChip fun c => { c with moduleReset := true })

/-- MODULE_RESET_RELEASE: a cold start begins once nothing holds the package. -/
def execModuleResetRelease (s : State) : Host.Outcome State Fault Refusal :=
  .next (s.updChip fun c => { c with moduleReset := false })

/-- REFCLK_LOSS. -/
def execRefclkLoss (s : State) : Host.Outcome State Fault Refusal :=
  .next ((sourceReset 3 s).updChip fun c => { c with refclk := false })

/-- REFCLK_RETURN: it has run for 1 ms. -/
def execRefclkReturn (s : State) : Host.Outcome State Fault Refusal :=
  .next (s.updChip fun c => { c with refclk := true })

/-- HUB_RESET. -/
def execHubReset (s : State) : Host.Outcome State Fault Refusal := .next (sourceReset 4 s)

/-- POWER_ON: VIN rises through 38 V with the regulators off. -/
def execPowerOn (s : State) : Host.Outcome State Fault Refusal :=
  .next (if s.chip.powered || s.chip.regulatorLatched then s
    else packageReset 1 0 (s.updChip fun c => { c with powered := true }))

/-- The regulators stop: the package state is lost. -/
def powerDown (latch : Bool) (s : State) : State :=
  packageReset 1 0 (s.updChip fun c => { c with powered := false, regulatorLatched := latch })

/-- POWER_OFF: VIN falls below about 30 V; a regulator that latched off can start again. -/
def execPowerOff (s : State) : Host.Outcome State Fault Refusal := .next (powerDown false s)

/-- REGULATOR_OVERTEMP: every regulator stays off until VIN has been removed. -/
def execRegulatorOvertemp (s : State) : Host.Outcome State Fault Refusal :=
  .next (if s.chip.powered then powerDown true s else s)

/-! ### States of bring-up (R406, R407) -/

/-- May bring-up go on from this state? -/
def State.climbs (s : State) (from' : Nat) : Bool :=
  s.chip.bringup == from' && !s.chip.held && !s.chip.parserHeld && !s.chip.stopped && !s.chip.manifestBad

/-- SERVICE of a bring-up state. -/
def serviceOf (out : Bool) (n : Nat) : Nat := if out then 3 else if n = 4 then 1 else if n = 5 then 2 else 0

/-- STATE changes: SERVICE follows, EV_BRINGUP_STATE, vector 63. -/
def enterState (n : Nat) (s : State) : State :=
  let prev := s.chip.bringup
  let s := s.updChip fun c => { c with bringup := n, service := serviceOf c.outOfService n }
  statusIrq (raiseParser 0x0902 [(1, n), (1, prev), (1, s.chip.service)] s)

/-- HBM reads as zeros (steps 9, 13 and 18 of Table 16.2). -/
def wipeHbm (s : State) : State := forget (fun a => (List.range 5).any fun d => inHbm d a) s

/-- The storage root ports that train: those that are not retired (R410). -/
def State.trainedPorts (s : State) : BitVec 4 :=
  BitVec.ofNat 4 (((List.range 4).filter fun p => !(s.faults.retired.any fun r => isStoragePort r.1 r.2.1 && r.1 % 64 == p)).foldl
    (fun a p => a + 2 ^ p) 0)

/-- Steps 12 to 15 of Table 16.2: the dividers, DECODE, HBM retrained at 8 Gb/s, which loses its contents, and the
root ports trained. -/
def beginFull (s : State) : State :=
  wipeHbm (s.updChip fun c =>
    { c with arithDiv := 8, decodeOn := true, hbmRate := 8, storageUp := s.trainedPorts, advance := c.advance.map fun a => { a with begun := true } })

/-- A BRINGUP_ADVANCE whose target is reached completes; one that goes on to FULL begins step 12. -/
def arrive (s : State) : State :=
  match s.chip.advance with
  | none => s
  | some a =>
    if a.target ≤ s.chip.bringup then endAdvance stOk s
    else if s.chip.bringup = 4 then beginFull s
    else s

/-- Bring-up stops in its state; a pending BRINGUP_ADVANCE completes with a status (R407, R410). -/
def stopBringup (status : Nat) (s : State) : State := endAdvance status (s.updChip fun c => { c with stopped := true })

/-- The same, for a unit that fails at a step of Table 16.2. -/
def stopAtUnit (step unit cls : Nat) (s : State) : State :=
  stopBringup stOutOfService (raiseParser 0x0903 [(1, s.chip.bringup), (1, step), (2, unit), (1, cls)] s)

/-- ROM_ENTRY: the pins of SLOT_ID are sampled and uptime starts (R38, R426). -/
def execRomEntry (slotId : BitVec 3) (s : State) : Host.Outcome State Fault Refusal :=
  .next (if s.climbs 0 then enterState 1 (s.updChip fun c => { c with slotId := slotId }) else s)

/-- The running firmware enters PARSER: EV_RESET, then the fallbacks of its boot (Table 16.2 step 4, R420, R401). -/
def enterParser (slot : Nat) (ev : List (Nat × Nat × Nat)) (s : State) : State :=
  let img := s.flash.slot slot
  let s := s.updChip fun c =>
    { c with fwSlot := slot, fwVersion := BitVec.ofNat 32 (imageVersion img), fwSvn := imageSvn img }
  let s := s.updMgmt fun m => { m with net := s.flash.net, streamSeq := 0, measurements := bootMeasurements img }
  let s := enterState 2 s
  let s := raiseParser 0x0901 [(1, s.chip.resetCause.toNat), (4, s.chip.resetCount.toNat)] s
  forEach ev (fun (b, a, r) s => raiseParser 0x0801 [(1, b), (1, a), (1, r)] s) s

/-- FIRMWARE_BOOT. -/
def execFirmwareBoot (s : State) : Host.Outcome State Fault Refusal :=
  .next (if !s.climbs 1 || s.chip.bootFail then s
    else
      let (slot, f, ev) := s.flash.choose
      let s := { s with flash := f }
      match slot with
      | some n => enterParser n ev s
      | none => statusIrq (s.updChip fun c => { c with bootFail := true }))

/-! ### Discovery (R317 to R319, R323) -/

/-- The answer of a site. -/
def siteAnswer (as : List DieAnswer) (d : Nat) : Option DieAnswer := as.find? fun a => a.die.val == d

/-- GRADE of a site in the manifest: compute dies carry the fused grade. -/
def siteGrade (d : Nat) : Nat := if 1 ≤ d ∧ d ≤ 4 then Config.fusedGrade else 0

/-- What differs between a site's answer and the manifest: the value expected and the value found. A guest site that does
not train is DOWN, which is no difference (R324). -/
def siteDiff (as : List DieAnswer) (d : Nat) : Option (Nat × Nat) :=
  let ty := (Config.siteType d).toNat
  match siteAnswer as d with
  | none => if ty ≠ 0 && d ≤ 5 then some (ty, 0) else none
  | some a =>
    if a.type.toNat ≠ ty || ty = 0 then some (ty, a.type.toNat)
    else if d ≥ 6 then (if a.serial ≠ Config.guestId d then some ((Config.guestId d).toNat, a.serial.toNat) else none)
    else if a.serial ≠ Config.siteSerial d then some ((Config.siteSerial d).toNat, a.serial.toNat)
    else if 1 ≤ d && d ≤ 4 && a.grade.toNat ≠ siteGrade d then some (siteGrade d, a.grade.toNat)
    else none

/-- The first site that differs. -/
def manifestDiff (as : List DieAnswer) : Option (Nat × Nat × Nat) :=
  ((List.range 7).map (· + 1)).findSome? fun d => (siteDiff as d).map fun x => (d, x.1, x.2)

/-- A Phrase that fails training at discovery is PERMANENT (R319). -/
def failPhrase (u : W16) (s : State) : State :=
  classify ⟨u.toNat, 0, 0, 14, 2, 0xFFFF, 0xFFFF, u.toNat / 64 % 128 - 104 + 3 * 256, 0⟩ s

/-- The plan of this discovery: the one in flash, or the default. -/
def State.planDue (s : State) : List W64 := if s.flash.plan.isEmpty then defaultPlan else s.flash.plan

/-- A guest site at discovery: empty, UP at its rate, or DOWN after three failed attempts (R323, R324). -/
def guestTrain (as : List DieAnswer) (p : Nat) (s : State) : State :=
  if Config.siteType (6 + p) ≠ 0xF0 then s
  else match siteAnswer as (6 + p) with
  | some a => guestUp p (BitVec.ofNat 2 a.grade.toNat) s
  | none => raise 0x0505 (guestUnit p) 0 [(1, p)] (s.updAp p fun x => { x with state := 1 })

/-- Discovery succeeds: the plan is in force, STATE is DISCOVERY, and a trial firmware commits. -/
def discovered (as : List DieAnswer) (s : State) : State :=
  let s := { s with phrases := [], channels := [], inFlight := [] }
  let s := s.updChip fun c => { c with lanePlan := s.planDue, planInForce := true, lost := 0 }
  let s := s.updIngest fun g => { g with bifurcation := s.flash.bifurcation }
  let s := guestTrain as 1 (guestTrain as 0 s)
  arrive (commitFirmware (enterState 3 s))

/-- Is this Phrase 0 of a hub bundle, on which its die answers DISCOVER (Table 12.7, steps 2 and 3)? -/
def isDiscoverPhrase (u : W16) : Bool := decide (105 * 64 ≤ u.toNat ∧ u.toNat ≤ 109 * 64) && u.toNat % 64 == 0

/-- Is this the unit address of a Phrase (Table 1.4)? -/
def isPhrase (u : W16) : Bool :=
  unitValid u.toNat && decide (104 ≤ u.toNat / 64 % 128 ∧ u.toNat / 64 % 128 ≤ 111)

/-- DISCOVERY: the answers of the dies, and the Phrases that failed training. A Phrase 0 that fails at step 2 stops it before
the answers are checked (R319). Recovery firmware runs no discovery. -/
def execDiscovery (as : List DieAnswer) (failed : List W16) (s : State) : Host.Outcome State Fault Refusal :=
  let bad := failed.filter isPhrase
  .next (if !s.climbs 2 || s.chip.fwSlot = 2 then s
    else match bad.find? isDiscoverPhrase with
    | some u => stopAtUnit 4 u.toNat 0 (forEach bad failPhrase s)
    | none => match manifestDiff as with
    | some (d, x, y) =>
      endAdvance stState (raiseParser 0x0502 [(1, d), (8, x), (8, y)] (s.updChip fun c => { c with manifestBad := true }))
    | none =>
      match bad with
      | u :: _ => stopAtUnit 4 u.toNat 0 (forEach bad failPhrase s)
      | [] =>
        match s.microcodeBad with
        | none => discovered as s
        | some k => stopBringup stState (raiseParser 0x0803 [(1, k), (1, 1)] s))

/-! ### REDUCED and FULL (R409 to R411, R413) -/

/-- Does this result, once classified, stop bring-up: a unit other than an array that a demotion covers, a Conjunction
port or a storage root port (R410)? -/
def fatalResult (s : State) (t : TestResult) : Bool :=
  let u := t.unit.toNat
  let c := t.cls.toNat
  testNames s t && testOutcome t == 2 && (if isCellArray u c then decide (s.grade ≤ 56) || decide (s.nextGrade < 56)
    else !(isCjPort u c || isStoragePort u c))

/-- Classify the results; the unit that stops bring-up, if there is one. -/
def bringTests (ts : List TestResult) (s : State) : State × Option TestResult :=
  ts.foldl (fun (s, stop) t =>
    let s := testVerdict t s
    (s, stop.orElse fun _ => if fatalResult s t then some t else none)) (s, none)

/-- Is this the unit address of an HBM controller? -/
def isHbmUnit (u : Nat) : Bool :=
  decide (1 ≤ u / 8192 ∧ u / 8192 ≤ 4 ∧ 100 ≤ u / 64 % 128 ∧ u / 64 % 128 ≤ 102)

/-- REDUCED_ENTRY: microcode is loaded, HBM is trained at 4 Gb/s, and every SECDED memory is zero. -/
def execReducedEntry (tests : List TestResult) (s : State) : Host.Outcome State Fault Refusal :=
  .next (if !s.climbs 3 || s.chip.autoTo < 4 then s
    else
      match bringTests tests s with
      | (s, some t) => stopAtUnit (if isHbmUnit t.unit.toNat then 8 else 7) t.unit.toNat t.cls.toNat s
      | (s, none) =>
        let s := s.updChip fun c => { c with arithDiv := 16, hbmRate := 4 }
        arrive (enterState 4 { s with mem := [], badWords := [] }))

/-- The step of Table 16.2 in which a unit fails on the way to FULL. -/
def fullStep (u c : Nat) : Nat := if isHbmUnit u then 13 else if isCellArray u c then 16 else 17

/-- FULL_ENTRY: the built-in tests have run and HBM is zero. -/
def execFullEntry (tests : List TestResult) (s : State) : Host.Outcome State Fault Refusal :=
  let due := match s.chip.advance with
    | some a => a.begun && !a.restoring
    | none => false
  .next (if !s.climbs 4 || !due || s.chip.thermalTrip then s
    else
      match bringTests tests s with
      | (s, some t) => stopAtUnit (fullStep t.unit.toNat t.cls.toNat) t.unit.toNat t.cls.toNat s
      | (s, none) => arrive (enterState 5 (wipeHbm s)))

/-- REDUCED_SERVICE_RESTORED: the dividers are back at ÷16, HBM runs at 4 Gb/s and is zero; only after a trip has ended
(R411, R438). -/
def execReducedServiceRestored (s : State) : Host.Outcome State Fault Refusal :=
  let due := match s.chip.advance with
    | some a => a.restoring
    | none => false
  .next (if !s.climbs 4 || !due || s.chip.thermalTrip then s
    else endAdvance stAborted (wipeHbm (s.updChip fun c => { c with arithDiv := 16, hbmRate := 4, decodeOn := false })))

/-! ### BRINGUP_ADVANCE (R408) -/

/-- BRINGUP_ADVANCE: in PARSER, DISCOVERY and REDUCED, while bring-up can go on. -/
def advanceSpec : CmdSpec :=
  { opcode := 0x02, control := true, states := [0], basicArgs := [], expertArgs := [(0, 1)], lenLo := 0, lenHi := 0
    respMin := 0
    early := fun s =>
      if s.chip.bringup > 4 || s.chip.manifestBad || (s.chip.stopped && !s.chip.outOfService) then some stState else none }

/-- Its effect. -/
def bringupAdvance (c : Cmd) (s : State) : Reply :=
  let target := if c.expert then c.arg 0 1 else 5
  if target < 3 || target > 5 || target < s.chip.bringup then .noAt stRange 32
  else if target = s.chip.bringup then .done (advanceResult s) [] s
  else
    let s := s.updChip fun x => { x with autoTo := min target 4, advance := some ⟨target, some (runningOf c), false, false⟩ }
    .goesOn (if s.chip.bringup = 4 then beginFull s else s)

/-- BRINGUP_ADVANCE. -/
def execBringupAdvance (c : Cmd) (s : State) : Host.Outcome State Fault Refusal :=
  runCmd c advanceSpec (bringupAdvance c) s

/-! ### LANE_PLAN_SET (R314, R412) -/

/-- The entries of an expert plan. -/
def planEntries (c : Cmd) : List W64 := (List.range 9).map fun i => BitVec.ofNat 64 (c.payNat (8 * i) 8)

/-- LANE_PLAN_SET: nine entries at the expert level; their reserved bits stand at payload offset 8 i + 6. -/
def lanePlanSpec (c : Cmd) : CmdSpec :=
  { opcode := 0x03, control := true, states := anyJob, basicArgs := [], expertArgs := []
    lenLo := if c.expert then 72 else 0, lenHi := if c.expert then 72 else 0, respMin := 0
    early := fun s => if s.chip.bringup ≠ 2 then some stState else none
    resv := fun c => if c.expert && c.len == 72 then
        ((List.range 9).find? fun i => c.payNat (8 * i + 6) 2 != 0).map fun i => 32 + 8 * i + 6
      else none }

/-- Its effect: the plan goes to flash; RESULT byte 0 says whether it applies at this discovery. -/
def lanePlanSet (c : Cmd) (s : State) : Reply :=
  let plan := if c.expert then planEntries c else defaultPlan
  if !planOk plan then .noAt stRange 64
  else .done [BitVec.ofNat 8 (bit (s.climbs 2))] [] (let s := flushRecords s; { s with flash := { s.flash with plan := plan } })

/-- LANE_PLAN_SET. -/
def execLanePlanSet (c : Cmd) (s : State) : Host.Outcome State Fault Refusal :=
  runCmd c (lanePlanSpec c) (lanePlanSet c) s

/-! ### The Parser watchdog (R418) -/

/-- The Parser stops: the broadcast, the Parser held in reset, PARSER_FAULT, vector 63. The commands it was running are
gone. -/
def parserStop (s : State) : State :=
  if s.chip.bringup < 2 || s.chip.parserHeld then s
  else
    let s := hardFence s
    let s := { s with running := [] }
    let s := s.updFaults fun f => { f with test := none }
    statusIrq (s.updChip fun c => { c with parserHeld := true, parserFault := true, haltWaits := [], advance := none })

/-- PARSER_WATCHDOG_EXPIRY. -/
def execParserWatchdogExpiry (s : State) : Host.Outcome State Fault Refusal := .next (parserStop s)

/-- Firmware meets an uncorrectable word of its own memory: a capture entry is freed, and any other word stops the Parser
(R36). It reads no free capture entry. -/
def parserMemory (s : State) : State :=
  if s.chip.bringup < 2 || s.chip.parserHeld then s
  else match s.badWords.find? fun w => regionOf w == .parser && (w ≥ captureAddr 16 || (captureAt s w).isSome) with
  | none => s
  | some w => match captureAt s w with
    | some (i, c) => captureLost i c w s
    | none => parserStop (memBadNoHalt none w parserUnit 0 s)

end Sys2Proof.Machine
end

