-- ==== Sys2Proof/Machine/Thermal.lean ====
section
/-!
DEFINITION. Sys2Proof/Machine/Thermal.lean: the temperature sensors, the thermal warning and trip (R436 to R440, R442), and
parking (R433).
-/
namespace Sys2Proof.Machine

/-! ### Sensors and thresholds (Table 17.7), in counts of 0.25 °C -/

/-- Unit addresses of the die sensors, dies 0 to 5. -/
def dieSensors : List Nat := (List.range 6).map fun d => unitAddr d 113 0
/-- Unit addresses of the HBM stack sensors. -/
def stackSensors : List Nat := (List.range 12).map fun i => unitAddr (i / 3 + 1) (100 + i % 3) 0

/-- Is this a die sensor? -/
def isDieSensor (u : Nat) : Bool := u / 64 % 128 == 113
/-- Warning threshold of a sensor. -/
def warnAt (u : Nat) : Int := if isDieSensor u then 4 * 95 else 4 * 85
/-- Trip threshold. -/
def tripAt (u : Nat) : Int := if isDieSensor u then 4 * 105 else 4 * 95
/-- Clear threshold. -/
def clearAt (u : Nat) : Int := if isDieSensor u then 4 * 90 else 4 * 80

/-- The latest reading of a sensor, a signed count. -/
def State.reading (s : State) (u : Nat) : Int := (sget 0 s.chip.sensors u).toInt

/-- Sensors of the dies that are present. -/
def State.sensorUnits (s : State) : List Nat := (dieSensors ++ stackSensors).filter fun u => !s.chip.lost.getLsbD (u / 8192)

/-- The sensor with the highest reading, the first of equals. -/
def State.hottestNow (s : State) : Option (W16 × W16) :=
  s.sensorUnits.foldl (fun b u =>
    let x : W16 × W16 := (BitVec.ofNat 16 u, sget 0 s.chip.sensors u)
    match b with
    | none => some x
    | some y => if x.2.toInt > y.2.toInt then some x else b) none

/-- The higher of two readings. -/
def hotter (a b : Option (W16 × W16)) : Option (W16 × W16) :=
  match a, b with
  | some x, some y => if y.2.toInt > x.2.toInt then b else a
  | none, _ => b
  | _, none => a

/-! ### Warning and trip -/

/-- THERM_L is driven low when a sensor is hot; EV_THERMAL_WARN on each assertion (R437). -/
def warn (s : State) : State :=
  if s.chip.thermL then s
  else match s.sensorUnits.find? fun u => decide (s.reading u ≥ warnAt u) with
  | none => s
  | some u =>
    raise 0x0980 u 0 [(4, (sget 0 s.chip.sensors u).toNat)] (s.updChip fun c => { c with thermL := true })

/-- A trip: the broadcast, the gated clocks and self-refresh, THERMAL_TRIP and THERMAL_SEEN, then EV_THERMAL_TRIP; a
BRINGUP_ADVANCE stops as HALT stops it (R438). -/
def trip (u : Nat) (s : State) : State :=
  let before := s.job.state
  let s := hardFence s
  let s := s.updChip fun c => { c with clocksGated := true, selfRefresh := true, thermalTrip := true, thermalSeen := true }
  let s := statusIrq s
  let s := raise 0x0981 u 0 [(1, before), (4, (sget 0 s.chip.sensors u).toNat)] s
  if s.chip.parserHeld then s else stopAdvance s

/-- THERMAL_SENSOR_SCAN: six die readings and twelve stack readings; the warning and the trip are raised in that order. -/
def execThermalSensorScan (dies hbms : List W16) (s : State) : Host.Outcome State Fault Refusal :=
  .next (if s.chip.held || s.chip.bringup < 1 || dies.length ≠ 6 || hbms.length ≠ 12 then s
    else
      let rs := (dieSensors ++ stackSensors).zip (dies ++ hbms)
      let s := s.updChip fun c => { c with sensors := rs.foldl (fun m x => sset 0 x.1 x.2 m) c.sensors }
      let s := warn s
      let s := if s.chip.thermalTrip then s
        else match s.sensorUnits.find? fun u => decide (s.reading u ≥ tripAt u) with
        | none => s
        | some u => trip u s
      if s.chip.thermalTrip then s.updChip fun c => { c with hottest := hotter c.hottest s.hottestNow } else s)

/-- THERM_L_RELEASE: every sensor at least 5 °C below its warning threshold. -/
def execThermLRelease (s : State) : Host.Outcome State Fault Refusal :=
  .next (if s.chip.thermL && s.sensorUnits.all fun u => decide (s.reading u ≤ warnAt u - 20) then
      s.updChip fun c => { c with thermL := false }
    else s)

/-- The trip ends: THERMAL_TRIP is cleared, the clocks are ungated unless the module is parked, and EV_THERMAL_CLEAR names
the highest reading of the trip (R439, R440). -/
def endTrip (s : State) : State :=
  let hot := s.chip.hottest.getD (0, 0)
  let s := s.updChip fun c =>
    { c with thermalTrip := false, hottest := none, clocksGated := c.parked, selfRefresh := c.parked }
  raise 0x0982 hot.1.toNat 0 [(4, hot.2.toNat)] s

/-- THERMAL_CLEAR: every sensor below its clear threshold. -/
def execThermalClear (s : State) : Host.Outcome State Fault Refusal :=
  .next (if s.chip.thermalTrip && s.sensorUnits.all fun u => decide (s.reading u < clearAt u) then endTrip s else s)

/-! ### Parking (R433) -/

/-- Is any export under way? -/
def State.exporting (s : State) : Bool := !s.job.exporting.isEmpty || (s.runningOp 0x21).isSome

/-- Do the conditions for parking hold? -/
def State.mayPark (s : State) : Bool :=
  s.chip.bringup == 5 && s.job.state == 0 && !s.chip.parked && !s.chip.thermalTrip &&
    s.faults.test.isNone && !s.exporting && !(s.running.any fun r => !readOpcodes.contains r.opcode.toNat)

/-- PARK. -/
def execPark (s : State) : Host.Outcome State Fault Refusal :=
  .next (if s.mayPark then
      raiseParser 0x0983 [] (s.updChip fun c => { c with parked := true, clocksGated := true, selfRefresh := true })
    else s)

end Sys2Proof.Machine
end

