-- ==== Sys2Proof/Machine/Mgmt.lean ====
section
/-!
DEFINITION. Sys2Proof/Machine/Mgmt.lean: commands that arrive on guest and management mailboxes (R331, R392), I3C and MCTP
(R388, R389), PLDM (R390, R391, R402, R403), the Ethernet port (R393), and SPDM on both transports (R396, R397).
-/
namespace Sys2Proof.Machine

/-! ### Commands by opcode -/

/-- A command that its mailbox does not accept: the checks of R369 refuse it. -/
def otherSpec (op : Nat) : CmdSpec :=
  { opcode := op, control := false, states := anyJob, basicArgs := [], expertArgs := [], lenLo := 0, lenHi := 16777216
    respMin := 0 }

/-- Serve a command of a guest mailbox: basic forms of five commands (R331). -/
def guestServe (c : Cmd) (s : State) : State :=
  if c.expert then serve c (otherSpec c.opcode) (fun _ => .no stDenied) s
  else match c.opcode with
  | 0x01 => serve c (devInfoSpec c) (devInfo c) s
  | 0x42 => serve c (ingestPositionSpec c s) (ingestPosition c) s
  | 0x54 => serve c historySpec (historyRead c) s
  | 0x60 => serve c stageFlagsSpec (stageFlags c) s
  | 0x61 => serve c numlogSpec (numlogRead c) s
  | op => serve c (otherSpec op) (fun _ => .no stDenied) s

/-- Serve a command of a management mailbox (Table 14.5). -/
def mgmtServe (c : Cmd) (s : State) : State :=
  match c.opcode with
  | 0x01 => serve c (devInfoSpec c) (devInfo c) s
  | 0x16 => serve c haltSpec (haltCmd c) s
  | 0x52 => serve c fieldTestSpec (fieldTest c) s
  | 0x53 => serve c bistSpec (bistRun c) s
  | 0x54 => serve c historySpec (historyRead c) s
  | 0x60 => serve c stageFlagsSpec (stageFlags c) s
  | 0x61 => serve c numlogSpec (numlogRead c) s
  | op => serve c (otherSpec op) (fun _ => .no stDenied) s

/-- The commands that wait on a port's guest mailboxes are taken in order, while the Parser can take them. -/
def serveGuest (p : Nat) : List Cmd → State → State
  | [], s => s
  | c :: t, s =>
    if canTake s c false then
      serveGuest p t (guestServe c (s.updAp p fun a => { a with waiting := a.waiting.erase c }))
    else s

/-- Both ports' waiting commands. -/
def serveGuests (s : State) : State :=
  let s := serveGuest 0 (s.ap 0).waiting s
  serveGuest 1 (s.ap 1).waiting s

/-- A MAILBOX message that the firewall admits carries one command entry. It waits for those before it, and for the Parser;
a 17th outstanding command of a mailbox completes at once with ST_RING. -/
def guestCommand (p : Fin 2) (m : AppMsg) (s : State) : State :=
  let f := s.fw p.val
  let c : Cmd := ⟨.guest p (if aMbox m.header = 1 then 1 else 0), BitVec.ofNat 512 (leNat m.data), [], false⟩
  if !f.ctrl.getLsbD 0 || !f.cls.getLsbD 2 then guestDenied p.val 1 (aAddr m.header) s
  else if ((s.ap p.val).waiting.filter fun x => x.mb == c.mb).length ≥ 16 then
    complete c.mb c.opcode c.id c.respAddr stRing (Refuse.result { status := stRing }) [] s
  else serveGuests (s.updAp p.val fun a => { a with waiting := a.waiting ++ [c] })

/-- APPOSITION_MAILBOX. -/
def execAppositionMailbox (p : Fin 2) (m : AppMsg) (s : State) : Host.Outcome State Fault Refusal :=
  .next (if aIs 5 m then appoReceive p.val m (guestCommand p m) s else s)

/-! ### I3C and MCTP (R388, R389) -/

/-- Do the management interfaces answer: from PARSER on, while the Parser runs (Table 16.1, R418)? -/
def State.mgmtOn (s : State) : Bool := !s.chip.held && decide (s.chip.bringup ≥ 2) && !s.chip.parserHeld

/-- Does an MCTP message reach the module: its I3C target has a dynamic address? -/
def State.mctpOn (s : State) : Bool := s.mgmtOn && s.mgmt.i3cAddr.isSome

/-- A message on a management interface, while it answers. -/
def onMgmt (on : State → Bool) (f : State → State) (s : State) : Host.Outcome State Fault Refusal :=
  .next (if on s then f s else s)

/-- I3C_ADDRESS_ASSIGNMENT: ENTDAA, or SETDASA to the static address 0x30 + SLOT_ID. -/
def execI3cAddressAssignment (entdaa : Bool) (static addr : BitVec 7) (s : State) : Host.Outcome State Fault Refusal :=
  onMgmt State.mgmtOn (fun s =>
    if s.mgmt.i3cAddr.isSome || !(entdaa || static.toNat == 0x30 + s.chip.slotId.toNat) then s
    else s.updMgmt fun m => { m with i3cAddr := some addr }) s

/-- Commands of a management mailbox that wait. -/
def State.waitingOn (s : State) (m : Mailbox) : List Cmd := s.mgmt.waiting.filter fun x => x.mb == m

/-- The commands that wait on a management mailbox are taken in order, while the Parser can take them. -/
def serveMgmtOn : List Cmd → State → State
  | [], s => s
  | c :: t, s =>
    if canTake s c (testOpcodes.contains c.opcode) then
      serveMgmtOn t (mgmtServe c (s.updMgmt fun m => { m with waiting := m.waiting.erase c }))
    else s

/-- Both management mailboxes' waiting commands. -/
def serveMgmt (s : State) : State :=
  let s := serveMgmtOn (s.waitingOn (.mgmt 0)) s
  serveMgmtOn (s.waitingOn (.mgmt 1)) s

/-- A command of a management mailbox waits for those before it, and for the Parser; beyond 16 outstanding commands of its
mailbox it completes at once with ST_RING (R392). -/
def mgmtCommand (c : Cmd) (s : State) : State :=
  if (s.running.filter fun r => r.mb == c.mb).length + (s.waitingOn c.mb).length ≥ 16 then
    complete c.mb c.opcode c.id c.respAddr stRing (Refuse.result { status := stRing }) [] s
  else serveMgmt (s.updMgmt fun m => { m with waiting := m.waiting ++ [c] })

/-- MANAGEMENT_MAILBOX_MESSAGE: a command entry with its payload inline. -/
def execManagementMailboxMessage (c : Cmd) (s : State) : Host.Outcome State Fault Refusal :=
  match c.mb with
  | .mgmt _ => onMgmt State.mctpOn (mgmtCommand c) s
  | _ => .next s

/-- MCTP_MESSAGE_DROP: a type that Table 15.1 does not list. -/
def execMctpMessageDrop (type : Byte) (s : State) : Host.Outcome State Fault Refusal :=
  onMgmt State.mctpOn (fun s =>
    if [0x00, 0x01, 0x05, 0x7E].contains type.toNat then s
    else s.updMgmt fun m => { m with mctpDrops := satInc m.mctpDrops }) s

/-- Send an MCTP message of a type. -/
def mctpSend (type : Byte) (bs : List Byte) (s : State) : State := mctpMessage (type :: bs) s

/-! ### PLDM events (R391) -/

/-- Send the record at the head of the queue once more. -/
def sendHead (s : State) : State :=
  match s.mgmt.plq with
  | [] => s
  | (r, n) :: t => mctpSend 0x01 ([0x02, 0x0A, 0xF0] ++ r) (s.updMgmt fun m => { m with plq := (r, n + 1) :: t })

/-- The head of the queue is sent once the BMC has assigned an endpoint ID. -/
def sendEvents (s : State) : State :=
  match s.mgmt.plq with
  | (_, 0) :: _ => if s.mctpOn && s.mgmt.eid != 0 then sendHead s else s
  | _ => s

/-- The head record leaves the queue, and the next one is sent. -/
def popEvent (s : State) : State := sendEvents (s.updMgmt fun m => { m with plq := m.plq.drop 1 })

/-- The head record, sent and not accepted, is sent again, at most 8 times in all. -/
def retryEvent (s : State) : State :=
  match s.mgmt.plq with
  | [] => s
  | (_, n) :: _ => if n = 0 then s else if n < 8 then sendHead s else popEvent s

/-- PLATFORM_EVENT_RESPONSE. -/
def execPlatformEventResponse (ok : Bool) (s : State) : Host.Outcome State Fault Refusal :=
  onMgmt State.mctpOn (fun s =>
    match s.mgmt.plq with
    | [] => s
    | (_, n) :: _ => if n = 0 then s else if ok then popEvent s else retryEvent s) s

/-- PLATFORM_EVENT_RESEND_TIMEOUT: no response within 100 ms. -/
def execPlatformEventResendTimeout (s : State) : Host.Outcome State Fault Refusal := onMgmt State.mctpOn retryEvent s

/-! ### MCTP control and PLDM base (R389) -/

/-- The answer to an MCTP control request and the endpoint ID after it. -/
def mctpControl (code : Byte) (data : List Byte) (eid : Byte) : List Byte × Byte :=
  match code.toNat with
  | 0x01 =>
    let op := (data.headD 0).toNat % 4
    let e := data.getD 1 0
    if op > 1 || e = 0 || e = 0xFF then ([0x02], eid) else ([0x00, 0x00, e, 0x00], e)
  | 0x02 => ([0x00, eid, 0x00, 0x00], eid)
  | 0x04 =>
    let t := data.headD 0
    if [0xFF, 0x00, 0x01, 0x05, 0x7E].contains t.toNat then (0x00 :: Config.mctpVersion t, eid) else ([0x80], eid)
  | 0x05 => ([0x00, 0x03, 0x01, 0x05, 0x7E], eid)
  | 0x06 =>
    if data.headD 0 = 0 then
      ([0x00, 0xFF, 0x00] ++ beBytes 2 Config.vendorId ++ leBytes 2 Config.vendorSet.toNat, eid)
    else ([0x02], eid)
  | _ => ([0x05], eid)

/-- MCTP_CONTROL_MESSAGE. -/
def execMctpControlMessage (code : Byte) (data : List Byte) (s : State) : Host.Outcome State Fault Refusal :=
  onMgmt State.mctpOn (fun s =>
    let (r, e) := mctpControl code data s.mgmt.eid
    sendEvents (mctpSend 0x00 (code :: r) (s.updMgmt fun m => { m with eid := e }))) s

/-- PLDM types that the running firmware accepts: recovery has no type 2 (Table 15.1, R401). -/
def State.pldmTypes (s : State) : List Nat := if s.chip.fwSlot = 2 then [0, 5] else [0, 2, 5]

/-- The answer to a PLDM base request and the terminus ID after it, with the types that are supported. -/
def pldmBase (types : List Nat) (code : Byte) (data : List Byte) (tid : Byte) : List Byte × Byte :=
  match code.toNat with
  | 0x01 =>
    let t := data.headD 0
    if t = 0 || t = 0xFF then ([0x02], tid) else ([0x00], t)
  | 0x02 => ([0x00, tid], tid)
  | 0x03 => (if types.contains (data.getD 5 0).toNat then 0x00 :: Config.pldmVersion (data.getD 5 0) else [0x83], tid)
  | 0x04 => (0x00 :: leBytes 8 (types.foldl (fun a t => a + 2 ^ t) 0), tid)
  | 0x05 => (if types.contains (data.headD 0).toNat then 0x00 :: Config.pldmCommands (data.headD 0) else [0x83], tid)
  | _ => ([0x05], tid)

/-- PLDM_BASE_REQUEST. -/
def execPldmBaseRequest (code : Byte) (data : List Byte) (s : State) : Host.Outcome State Fault Refusal :=
  onMgmt State.mctpOn (fun s =>
    let (r, t) := pldmBase s.pldmTypes code data s.mgmt.tid
    mctpSend 0x01 ([0x00, code] ++ r) (s.updMgmt fun m => { m with tid := t })) s

/-- A sensor of Table 15.2. -/
inductive Sensor where
  | dieTemperature (die : Fin 6)
  | stackTemperature (stack : Fin 12)
  | thermalTrip
  | bringupState
  | service
  | jobState
  | currentGrade
  | mctpDrops
  | mgmtEventDrops
  | hostEventDrops
deriving DecidableEq, Repr

/-- What a read of a sensor returns: temperatures in counts of 0.25 °C, of a die that is present (R390, log 85). -/
def State.sensor (s : State) : Sensor → Option Int
  | .dieTemperature d =>
    let u := unitAddr d.val 113 0
    if s.sensorUnits.contains u then some (s.reading u) else none
  | .stackTemperature i =>
    let u := unitAddr (i.val / 3 + 1) (100 + i.val % 3) 0
    if s.sensorUnits.contains u then some (s.reading u) else none
  | .thermalTrip => some (bit s.chip.thermalTrip)
  | .bringupState => some s.chip.bringup
  | .service => some s.chip.service
  | .jobState => some s.job.state
  | .currentGrade => some s.grade
  | .mctpDrops => some s.mgmt.mctpDrops.toNat
  | .mgmtEventDrops => some s.mgmt.eventDrops.toNat
  | .hostEventDrops => some s.host.eventDrops.toNat

/-- The sensors of Table 15.2, in its order. -/
def sensorList : List Sensor :=
  (List.finRange 6).map .dieTemperature ++ (List.finRange 12).map .stackTemperature ++
    [.thermalTrip, .bringupState, .service, .jobState, .currentGrade, .mctpDrops, .mgmtEventDrops, .hostEventDrops]

/-- A PDR with its common header (DSP0248). -/
def pdrRecord (handle type : Nat) (data : List Byte) : List Byte :=
  leBytes 4 handle ++ [0x01, BitVec.ofNat 8 type] ++ leBytes 2 0 ++ leBytes 2 data.length ++ data

/-- The fields of a sensor PDR that its kind does not fix: terminus, sensor, entity type, instance and container, then
initialisation and names. -/
def pdrEntity (i : Nat) : List Byte :=
  (List.range 5).flatMap (fun f => leBytes 2 (Config.pdrField i f)) ++
    (List.range 2).flatMap fun f => leBytes 1 (Config.pdrField i (5 + f))

/-- A numeric sensor PDR: base unit, data size code, width in bytes, and resolution as an FP32 code (DSP0248). -/
def numericPdr (i unit size width resolution : Nat) : List Byte :=
  let open' (n w f : Nat) : List Byte := (List.range n).flatMap fun j => leBytes w (Config.pdrField i (f + j))
  pdrRecord i 2 (pdrEntity i ++ leBytes 1 unit ++ List.replicate 8 0 ++ [0x01] ++ leBytes 1 size ++ leBytes 4 resolution ++
    leBytes 4 0 ++ open' 1 2 10 ++ open' 2 1 11 ++ open' 1 width 13 ++ open' 2 1 14 ++ open' 2 4 16 ++ open' 2 width 18 ++
    leBytes 1 size ++ open' 1 1 20 ++ open' 9 width 21)

/-- A state sensor PDR with states 0 to `n - 1` (DSP0248). -/
def statePdr (i n : Nat) : List Byte :=
  pdrRecord i 4 (pdrEntity i ++ [0x01] ++ leBytes 2 (Config.pdrField i 10) ++ [0x01] ++ leBytes 1 (2 ^ n - 1))

/-- The PDR of a sensor: temperatures are signed counts of 0.25 °C, drops count in 32 bits (Table 15.2). -/
def sensorPdr (i : Nat) (x : Sensor) : List Byte :=
  match x with
  | .dieTemperature _ => numericPdr i 2 3 2 0x3E800000
  | .stackTemperature _ => numericPdr i 2 3 2 0x3E800000
  | .thermalTrip => statePdr i 2
  | .bringupState => statePdr i 6
  | .service => statePdr i 4
  | .jobState => statePdr i 5
  | .currentGrade => numericPdr i 1 0 1 0x3F800000
  | .mctpDrops => numericPdr i 1 4 4 0x3F800000
  | .mgmtEventDrops => numericPdr i 1 4 4 0x3F800000
  | .hostEventDrops => numericPdr i 1 4 4 0x3F800000

/-- The repository: the sensors of Table 15.2, and SLOT_ID as the pins gave it (R390, R426; log 137). -/
def State.pdrRepository (s : State) : List Byte :=
  (number 1 sensorList).flatMap (fun x => sensorPdr x.1 x.2) ++
    pdrRecord 27 127 (leBytes 4 (Config.pdrField 27 0) ++ leBytes 2 (Config.pdrField 27 1) ++ leBytes 2 1 ++
      leBytes 1 s.chip.slotId.toNat)

/-- GET_PDR: the repository, whole (R390); recovery firmware has no PLDM type 2 (R401). -/
def execGetPdr (s : State) : Host.Outcome State Fault Refusal :=
  onMgmt State.mctpOn (fun s =>
    mctpSend 0x01 ([0x02, 0x51] ++ if s.pldmTypes.contains 2 then 0x00 :: s.pdrRepository else [0x20]) s) s

/-! ### Firmware update (R402, R403) -/

/-- A PLDM firmware update answer. -/
def fwAnswer (code result : Byte) (s : State) : State := mctpSend 0x01 [0x05, code, result] s

/-- REQUEST_UPDATE: one update at a time; firmware goes into the slot that is not ACTIVE. -/
def execRequestUpdate (s : State) : Host.Outcome State Fault Refusal :=
  onMgmt State.mctpOn (fun s =>
    if s.mgmt.update.isSome then fwAnswer 0x10 0x81 s
    else fwAnswer 0x10 0x00 (s.updMgmt fun m => { m with update := some ⟨0, !s.flash.activeB, [], 0, false⟩ })) s

/-- Bytes of a component (Table 15.11). -/
def componentLimit (component : Nat) : Nat := if component = 1 then 24 * 2 ^ 20 else 64

/-- A byte string with `bs` written at offset `o`; bytes between the old end and `o` are erased flash. -/
def patchBytes (old : List Byte) (o : Nat) (bs : List Byte) : List Byte :=
  old.take o ++ List.replicate (o - old.length) 0xFF ++ bs ++ old.drop (o + bs.length)

/-- Is a slot the one whose firmware runs? -/
def State.slotRuns (s : State) (b : Bool) : Bool := s.chip.fwSlot == bit b

/-- One piece of a component arrives. The running firmware and the active slot are never touched. -/
def stagePiece (u : FwUpdate) (component off : Nat) (data : List Byte) (s : State) : State :=
  if !(component == 1 || component == 2) || off + data.length > componentLimit component then fwAnswer 0x15 0x82 s
  else if component = 1 && (s.slotRuns u.slotB || s.flash.activeB == u.slotB) then fwAnswer 0x15 0x84 s
  else
    let u := { u with component := component, size := max off (off + data.length), verified := false }
    let s := if component = 1 then
        let s := flushRecords s
        { s with flash := if u.slotB then { s.flash with slotB := patchBytes s.flash.slotB off data }
            else { s.flash with slotA := patchBytes s.flash.slotA off data } }
      else s
    let u := if component = 2 then { u with data := memWriteBytes u.data off data } else u
    fwAnswer 0x15 0x00 (s.updMgmt fun m => { m with update := some u })

/-- FIRMWARE_DATA_TRANSFER. -/
def execFirmwareDataTransfer (component : W16) (off : Nat) (data : List Byte) (s : State) :
    Host.Outcome State Fault Refusal :=
  onMgmt State.mctpOn (fun s => match s.mgmt.update with
    | none => fwAnswer 0x15 0x80 s
    | some u => stagePiece u component.toNat off data s) s

/-- VERIFY_COMPLETE: a staged slot must verify under R401; a failure raises EV_FW_REJECTED. -/
def execVerifyComplete (s : State) : Host.Outcome State Fault Refusal :=
  onMgmt State.mctpOn (fun s => match s.mgmt.update with
    | none => fwAnswer 0x17 0x80 s
    | some u =>
      let r := if u.component = 1 then verifyReason s.flash.svn (s.flash.slot (bit u.slotB)) else 0
      if u.component = 0 then fwAnswer 0x17 0x84 s
      else if r ≠ 0 then fwAnswer 0x17 0x01 (raiseParser 0x0803 [(1, bit u.slotB), (1, r)] s)
      else fwAnswer 0x17 0x00 (s.updMgmt fun m => { m with update := some { u with verified := true } })) s

/-- The network settings record of Table 15.5 that an update leaves: bytes that it did not transfer take their defaults, among
them the ports 47 321. -/
def netRecord (u : FwUpdate) : List Byte :=
  let base := fit 64 (List.replicate 24 0 ++ leBytes 2 47321 ++ leBytes 2 47321)
  let n := min u.size 64
  memBytes u.data 0 n ++ base.drop n

/-- A verified component takes effect: firmware at the next package reset, network settings at the next PARSER entry. -/
def activate (u : FwUpdate) (s : State) : State :=
  let s := flushRecords (s.updMgmt fun m => { m with update := none })
  if u.component = 1 then
    let s := s.updChip fun c => { c with bootWriting := true }
    let img := s.flash.slot (bit u.slotB)
    let s := { s with flash := { s.flash with activeB := u.slotB, trial := true, trialBooted := false } }
    raiseParser 0x0802 [(1, bit u.slotB), (4, imageVersion img), (4, imageSvn img)] s
  else { s with flash := { s.flash with net := netRecord u } }

/-- ACTIVATE_FIRMWARE. -/
def execActivateFirmware (component : W16) (s : State) : Host.Outcome State Fault Refusal :=
  onMgmt State.mctpOn (fun s => match s.mgmt.update with
    | none => fwAnswer 0x1A 0x80 s
    | some u =>
      if u.verified && u.component == component.toNat then fwAnswer 0x1A 0x00 (activate u s) else fwAnswer 0x1A 0x85 s) s

/-! ### SPDM (R396, R397) -/

/-- Does a transport carry SPDM now: MCTP, or DOE of the endpoint? -/
def State.spdmOn (s : State) (doe : Bool) : Bool := if doe then s.mgmtOn && s.endpointOn else s.mctpOn

/-- The connection state of a transport. -/
def State.spdm (s : State) (doe : Bool) : Spdm := if doe then s.mgmt.spdm1 else s.mgmt.spdm0

/-- Change it; the other transport's is not touched. -/
def State.updSpdm (s : State) (doe : Bool) (f : Spdm → Spdm) : State :=
  s.updMgmt fun m => if doe then { m with spdm1 := f m.spdm1 } else { m with spdm0 := f m.spdm0 }

/-- Send an SPDM response on its transport. -/
def spdmSend (doe : Bool) (bs : List Byte) (s : State) : State :=
  if doe then s.send (.doe bs) else mctpMessage (0x05 :: bs) s

/-- ERROR with a code and its data. -/
def spdmError (doe : Bool) (code data : Byte) (s : State) : State := spdmSend doe [0x12, 0x7F, code, data] s

/-- A request that needs the connection to have come this far; otherwise ERROR UnexpectedRequest. -/
def onSpdm (doe : Bool) (ready : Spdm → Bool) (f : State → State) (s : State) : Host.Outcome State Fault Refusal :=
  .next (if !s.spdmOn doe then s else if ready (s.spdm doe) then f s else spdmError doe 0x04 0 s)

/-- GET_VERSION begins the connection anew: version 1.2. -/
def execGetVersion (doe : Bool) (s : State) : Host.Outcome State Fault Refusal :=
  onSpdm doe (fun _ => true) (fun s =>
    let r := [0x10, 0x04, 0x00, 0x00, 0x00, 0x01, 0x00, 0x12]
    spdmSend doe r (s.updSpdm doe fun _ => { version := true, vca := [0x10, 0x84, 0x00, 0x00] ++ r })) s

/-- GET_CAPABILITIES: certificates, challenge and signed measurements; the requester's flags change nothing. -/
def execGetCapabilities (doe : Bool) (caps : W32) (s : State) : Host.Outcome State Fault Refusal :=
  onSpdm doe Spdm.version (fun s =>
    let msg (code : Byte) (x : Byte × W32 × W32) (flags : Nat) : List Byte :=
      [0x12, code, 0x00, 0x00, 0x00, x.1, 0x00, 0x00] ++ leBytes 4 flags ++ leBytes 4 x.2.1.toNat ++ leBytes 4 x.2.2.toNat
    let r := msg 0x61 Config.spdmLimits 0x16
    spdmSend doe r (s.updSpdm doe fun c =>
      { c with caps := true, vca := c.vca ++ msg 0xE1 Config.spdmRequester caps.toNat ++ r })) s

/-- NEGOTIATE_ALGORITHMS: only TPM_ALG_RSAPSS_3072 and TPM_ALG_SHA_256 are offered. -/
def execNegotiateAlgorithms (doe : Bool) (sig hash : W32) (s : State) : Host.Outcome State Fault Refusal :=
  onSpdm doe Spdm.caps (fun s =>
    let a := sig &&& 8
    let h := hash &&& 1
    let ask := [0x12, 0xE3, 0x00, 0x00] ++ leBytes 2 32 ++ [0x01, 0x00] ++ leBytes 4 sig.toNat ++ leBytes 4 hash.toNat ++
      List.replicate 16 0
    let r := [0x12, 0x63, 0x00, 0x00] ++ leBytes 2 36 ++ [0x01, 0x00] ++ leBytes 4 2 ++ leBytes 4 a.toNat ++
      leBytes 4 h.toNat ++ List.replicate 16 0
    spdmSend doe r (s.updSpdm doe fun c => { c with algs := a != 0 && h != 0, vca := c.vca ++ ask ++ r })) s

/-- Slots 0 and 1 hold certificate chains (Table 15.6). -/
def slotMask : Byte := 0x03

/-- A request about certificates and its response enter the transcript; measurements before it leave theirs (DSP0274). -/
def noteCerts (doe : Bool) (bs : List Byte) (s : State) : State :=
  s.updSpdm doe fun c => { c with certs := c.certs ++ bs, measured := [] }

/-- GET_DIGESTS: the digests of the chains of slots 0 and 1. -/
def execGetDigests (doe : Bool) (s : State) : Host.Outcome State Fault Refusal :=
  onSpdm doe Spdm.algs (fun s =>
    let r := [0x12, 0x01, 0x00, slotMask] ++ sha256 (Config.certificate 0) ++ sha256 (Config.certificate 1)
    spdmSend doe r (noteCerts doe ([0x12, 0x81, 0x00, 0x00] ++ r) s)) s

/-- GET_CERTIFICATE: a portion of a chain of slot 0 or 1. -/
def execGetCertificate (doe : Bool) (slot : Fin 8) (off len : W16) (s : State) : Host.Outcome State Fault Refusal :=
  onSpdm doe Spdm.algs (fun s =>
    let c := Config.certificate slot.val
    if slot.val > 1 || off.toNat ≥ c.length then spdmError doe 0x01 0 s
    else
      let part := (c.drop off.toNat).take len.toNat
      let head (code : Byte) : List Byte := [0x12, code, BitVec.ofNat 8 slot.val, 0x00]
      let r := head 0x02 ++ leBytes 2 part.length ++ leBytes 2 (c.length - off.toNat - part.length) ++ part
      spdmSend doe r (noteCerts doe (head 0x82 ++ leBytes 2 off.toNat ++ leBytes 2 len.toNat ++ r) s)) s

/-- 32 bytes that the responder draws at random (log 3). -/
def freshNonce (s : State) : List Byte × State :=
  ((List.range 32).map fun i => Config.freeByte (s.freeCount + i), { s with freeCount := s.freeCount + 32 })

/-- The bytes of a text. -/
def textBytes (t : String) : List Byte := t.toList.map fun c => BitVec.ofNat 8 c.toNat

/-- What is signed: the prefix of 100 bytes, which ends in the context, and the SHA-256 of the transcript (DSP0274). -/
def spdmSigned (context : String) (transcript : List Byte) : List Byte :=
  (List.replicate 4 (textBytes "dmtf-spdm-v1.2.*")).flatten ++ List.replicate (36 - context.length) 0 ++ textBytes context ++
    sha256 transcript

/-- Send a response with its signature by the device identity key over the transcript and the response. -/
def spdmSign (doe : Bool) (context : String) (transcript bs : List Byte) (s : State) : State :=
  spdmSend doe (bs ++ rsaSign 0 (spdmSigned context (transcript ++ bs)) s) s.drawn

/-- CHALLENGE: slot 0 holds the identity key. The signature covers the connection's messages, those about certificates, and
this exchange. -/
def execChallenge (doe : Bool) (slot : Fin 8) (nonce : List Byte) (s : State) : Host.Outcome State Fault Refusal :=
  onSpdm doe Spdm.algs (fun s =>
    if slot.val ≠ 0 then spdmError doe 0x01 0 s
    else
      let (n, s) := freshNonce s
      let c := s.spdm doe
      spdmSign doe "responder-challenge_auth signing" (c.vca ++ c.certs ++ [0x12, 0x83, 0x00, 0x00] ++ fit 32 nonce)
        ([0x12, 0x03, 0x00, slotMask] ++ sha256 (Config.certificate 0) ++ n ++ leBytes 2 0)
        (s.updSpdm doe fun c => { c with certs := [], measured := [] })) s

/-- The manifest fuses and the current grade, as block 7 measures them. -/
def manifestBytes (s : State) : List Byte :=
  ((List.range 7).map (· + 1)).flatMap (fun d =>
    [Config.siteType d] ++ leBytes 8 (Config.siteSerial d).toNat ++ leBytes 1 (siteGrade d) ++
      leBytes 8 (Config.guestId d).toNat ++ leBytes 4 (Config.idAddr d).toNat ++ leBytes 1 (Config.rateCap d).toNat) ++
    leBytes 1 s.grade

/-- A firewall block, as block 8 measures it: 776 bytes. -/
def firewallBytes (f : Firewall) : List Byte :=
  leBytes 4 f.ctrl.toNat ++ leBytes 4 f.cls.toNat ++ (List.range 32).flatMap fun w =>
    let r (i : Nat) : Nat := (sget 0 f.windows (4 * w + i)).toNat
    leBytes 8 (r 0) ++ leBytes 8 (r 1) ++ leBytes 4 (r 2) ++ leBytes 4 (r 3)

/-- The value of a measurement block (Table 15.7): 1 to 5 are held, 6 to 8 describe this moment. -/
def measurement (s : State) (i : Nat) : List Byte :=
  match i with
  | 6 => sha256 (s.chip.lanePlan.flatMap fun e => leBytes 8 e.toNat)
  | 7 => sha256 (manifestBytes s)
  | 8 => sha256 (firewallBytes (s.fw 0) ++ firewallBytes (s.fw 1))
  | i => sget [] s.mgmt.measurements i

/-- DMTF value type: ROM, firmware, hardware configuration or firmware configuration; block 1 is a raw bit stream. -/
def measurementType (i : Nat) : Byte :=
  if i = 1 then 0x80 else if i ≤ 5 then 0x01 else if i = 7 then 0x02 else 0x03

/-- A block in DMTF measurement format. -/
def measurementBlock (s : State) (i : Nat) : List Byte :=
  let v := measurement s i
  leBytes 1 i ++ [0x01] ++ leBytes 2 (v.length + 3) ++ [measurementType i] ++ leBytes 2 v.length ++ v

/-- GET_MEASUREMENTS: index 0 asks for the number of blocks, 0xFF for all; a request with a nonce is signed. -/
def execGetMeasurements (doe : Bool) (index : Byte) (slot : Fin 8) (nonce : List Byte) (s : State) :
    Host.Outcome State Fault Refusal :=
  onSpdm doe Spdm.algs (fun s =>
    let i := index.toNat
    let blocks := if i = 0 then [] else if i = 0xFF then (List.range 8).map (· + 1) else [i]
    if (i > 8 && i != 0xFF) || (!nonce.isEmpty && slot.val != 0) then spdmError doe 0x01 0 s
    else
      let rec' := blocks.flatMap (measurementBlock s)
      let (n, s) := freshNonce s
      let bs := [0x12, 0x60, if i = 0 then 0x08 else 0x00, 0x00] ++ leBytes 1 blocks.length ++ leBytes 3 rec'.length ++
        rec' ++ n ++ leBytes 2 0
      let c := s.spdm doe
      if nonce.isEmpty then
        spdmSend doe bs (s.updSpdm doe fun c => { c with measured := c.measured ++ [0x12, 0xE0, 0x00, index] ++ bs })
      else
        spdmSign doe "responder-measurements signing"
          (c.vca ++ c.measured ++ [0x12, 0xE0, 0x01, index] ++ fit 32 nonce ++ [BitVec.ofNat 8 slot.val]) bs
          (s.updSpdm doe fun c => { c with measured := [] })) s

/-- SPDM_UNSUPPORTED_REQUEST: ERROR UnsupportedRequest. -/
def execSpdmUnsupportedRequest (doe : Bool) (code : Byte) (s : State) : Host.Outcome State Fault Refusal :=
  onSpdm doe (fun _ => true) (spdmError doe 0x07 code) s

/-- DOE_DISCOVERY: index 0 is Discovery, index 1 CMA-SPDM (Table 14.1). -/
def execDoeDiscovery (index : Byte) (s : State) : Host.Outcome State Fault Refusal :=
  .next (if !s.spdmOn true then s
    else s.send (.doe (match index.toNat with
      | 0 => leBytes 2 0x0001 ++ [0x00, 0x01]
      | 1 => leBytes 2 0x0001 ++ [0x01, 0x00]
      | _ => leBytes 2 0xFFFF ++ [0x00, 0x00])))

/-! ### The Ethernet port (R393, R394) -/

/-- Is the port enabled by the settings in force? -/
def State.netOn (s : State) : Bool := s.mgmtOn && s.mgmt.net.headD 0 == 1

/-- The stream header of Table 15.4. -/
def streamHeader (count seq : Nat) : List Byte :=
  leBytes 1 1 ++ leBytes 1 count ++ leBytes 2 0 ++ leBytes 4 seq ++ leBytes 8 Config.serial.toNat

/-- `n` bytes of the network settings in force, from byte `o` (Table 15.5). -/
def State.netField (s : State) (o n : Nat) : List Byte := fit n (s.mgmt.net.drop o)

/-- Where the module sends a datagram first: to the collector where the subnet mask places it on the module's own network, else
to the gateway, if the settings name one (Table 15.5). -/
def State.nextHop (s : State) : List Byte :=
  let net (o : Nat) : List Byte := ((s.netField o 4).zip (s.netField 12 4)).map fun x => x.1 &&& x.2
  if net 8 == net 20 || (s.netField 16 4).all (· == 0) then s.netField 20 4 else s.netField 16 4

/-- A datagram from the module's address and port to the collector's (R393, R394). -/
def streamDatagram (s : State) (bs : List Byte) : Sent :=
  .datagram (s.netField 8 4) (s.netField 20 4) s.nextHop (leNat (s.netField 26 2)) (leNat (s.netField 24 2)) bs

/-- EVENT_STREAM_DATAGRAM: up to 11 records, or none as the sign of life. -/
def execEventStreamDatagram (s : State) : Host.Outcome State Fault Refusal :=
  onMgmt State.netOn (fun s =>
    let rs := s.mgmt.streamQ.take 11
    let d := streamHeader rs.length s.mgmt.streamSeq.toNat ++ rs.flatten
    (s.updMgmt fun m => { m with streamQ := m.streamQ.drop 11, streamSeq := m.streamSeq + 1 }).send (streamDatagram s d)) s

/-- The module's MAC address: the record's, or the calibration partition's. -/
def State.macBytes (s : State) : List Byte :=
  let m := (s.mgmt.net.drop 2).take 6
  if m.all (· == 0) then Config.macAddress else m

/-- ARP_REQUEST for the module's own address: an ARP reply. The IPv4 addresses stand in network order, as
ARP's own standard has them (R15). -/
def execArpRequest (target sender : W32) (mac : List Byte) (s : State) : Host.Outcome State Fault Refusal :=
  onMgmt State.netOn (fun s =>
    if target.toNat ≠ leNat (s.netField 8 4) then s
    else s.send (.ethernet (fit 6 mac ++ fit 6 s.macBytes ++ [0x08, 0x06, 0x00, 0x01, 0x08, 0x00, 0x06, 0x04, 0x00, 0x02] ++
      fit 6 s.macBytes ++ (leBytes 4 target.toNat).reverse ++ fit 6 mac ++ (leBytes 4 sender.toNat).reverse))) s

/-! ### An empty queue (log 5) -/

/-- One microsecond: the counters advance, firmware meets what is uncorrectable in its memory, ports send what they can,
commands of guests and of the BMC that wait are taken, and the head of the PLDM queue is sent. -/
def tick (s : State) : State := sendEvents (serveMgmt (serveGuests (pump (parserMemory (idleTick s)))))

end Sys2Proof.Machine
end

