-- ==== Sys2Proof/Machine/VecFloat.lean ====
section
/-!
DEFINITION. Sys2Proof/Machine/VecFloat.lean: the floating-point instructions of the vector engine, 0x20 to 0x2F
(Table 6.4, R139, R142, R143).
-/
namespace Sys2Proof.Machine

/-- The float format that FORMAT names (Table 2.1). -/
def laneFloat (w : VFields) : FloatFmt := (fmtFloat w.fmt.toNat).getD fFP32

/-- Elements of width `wd` of a register of engine `k`. -/
def elemsOf (k wd : Nat) : Nat := vbits k / wd

/-- Write the active elements of VD from `f`, which answers a code and its flags; inactive elements keep their values
and raise none (R139). -/
def mapLanes (k : Nat) (w : VFields) (wd : Nat) (f : Nat → Nat × Fl) (e : EngineState) : EngineState :=
  let old := e.rv w.vd.toNat
  let mask := e.mask k w
  let rs := (List.range (elemsOf k wd)).map fun j =>
    if onElem mask wd j then f j else (elemAt wd old j, 0)
  (e.wv k w.vd.toNat (packList wd (rs.map (·.1)))).orV (rs.foldl (fun a r => a ||| r.2) 0)

/-- A lane-wise operation of two registers. -/
def float2 (f : FloatFmt → Nat → Nat → Nat × Fl) (k : Nat) (w : VFields) (e : EngineState) : EngineState :=
  let F := laneFloat w
  let a := e.rv w.va.toNat
  let b := e.rv w.vb.toNat
  mapLanes k w F.width (fun j => f F (elemAt F.width a j) (elemAt F.width b j)) e

/-- A lane-wise operation of one register. -/
def float1 (f : FloatFmt → Nat → Nat × Fl) (k : Nat) (w : VFields) (e : EngineState) : EngineState :=
  let F := laneFloat w
  let a := e.rv w.va.toNat
  mapLanes k w F.width (fun j => f F (elemAt F.width a j)) e

/-- FMA's operation (R142). -/
def float3 (k : Nat) (w : VFields) (e : EngineState) : EngineState :=
  let F := laneFloat w
  let a := e.rv w.va.toNat
  let b := e.rv w.vb.toNat
  let c := e.rv w.vc.toNat
  mapLanes k w F.width (fun j => fpFma F (elemAt F.width a j) (elemAt F.width b j) (elemAt F.width c j)) e

/-- Lane bit `i` of a comparison: a BF16 lane needs both of its elements, an FP64 result sets both of its lanes
(R143). -/
def cmpBit (F : FloatFmt) (cond a b i : Nat) : Bool :=
  if F.width = 16 then
    fpCompare F cond (elemAt 16 a (2 * i)) (elemAt 16 b (2 * i)) &&
      fpCompare F cond (elemAt 16 a (2 * i + 1)) (elemAt 16 b (2 * i + 1))
  else if F.width = 64 then fpCompare F cond (elemAt 64 a (i / 2)) (elemAt 64 b (i / 2))
  else fpCompare F cond (elemAt 32 a i) (elemAt 32 b i)

/-- Write predicate VD's bits of the active lanes; the others keep theirs (R139). `act i` says whether lane `i` is
active. -/
def writePred (k : Nat) (w : VFields) (act : Nat → Bool) (f : Nat → Bool) (e : EngineState) : EngineState :=
  let old := e.rp k w.vd.toNat
  e.wp k w.vd.toNat (packList 1 ((List.range (lanesOf k)).map fun i =>
    if act i then bit (f i) else bit (old.testBit i)))

/-- FCMP's operation (R143). -/
def floatCmp (k : Nat) (w : VFields) (e : EngineState) : EngineState :=
  let F := laneFloat w
  let a := e.rv w.va.toNat
  let b := e.rv w.vb.toNat
  let mask := e.mask k w
  let act := fun i => if F.width = 64 then mask.testBit (2 * (i / 2)) else mask.testBit i
  writePred k w act (cmpBit F w.mode.toNat a b) e

/-- FSEL's operation: every lane is written (R139). -/
def floatSel (k : Nat) (w : VFields) (e : EngineState) : EngineState :=
  let wd := fmtWidth w.fmt.toNat
  let a := e.rv w.va.toNat
  let b := e.rv w.vb.toNat
  let mask := e.mask k w
  e.wv k w.vd.toNat (packList wd ((List.range (elemsOf k wd)).map fun j =>
    if onElem mask wd j then elemAt wd a j else elemAt wd b j))

/-- FADD: VA + VB (R142). -/
def execFadd (e : Engine) (w : VFields) (s : State) : Host.Outcome State Fault Refusal :=
  issueRegs e 0x20 w (float2 fpAdd (engKey e) w) s

/-- FSUB: VA − VB (R142). -/
def execFsub (e : Engine) (w : VFields) (s : State) : Host.Outcome State Fault Refusal :=
  issueRegs e 0x21 w (float2 fpSub (engKey e) w) s

/-- FMUL: VA × VB (R142). -/
def execFmul (e : Engine) (w : VFields) (s : State) : Host.Outcome State Fault Refusal :=
  issueRegs e 0x22 w (float2 fpMul (engKey e) w) s

/-- FMA: VA × VB + VC with one rounding (R142). -/
def execFma (e : Engine) (w : VFields) (s : State) : Host.Outcome State Fault Refusal :=
  issueRegs e 0x23 w (float3 (engKey e) w) s

/-- FMIN (R143). -/
def execFmin (e : Engine) (w : VFields) (s : State) : Host.Outcome State Fault Refusal :=
  issueRegs e 0x24 w (float2 (fun F a b => (fpMinMax F false a b, 0)) (engKey e) w) s

/-- FMAX (R143). -/
def execFmax (e : Engine) (w : VFields) (s : State) : Host.Outcome State Fault Refusal :=
  issueRegs e 0x25 w (float2 (fun F a b => (fpMinMax F true a b, 0)) (engKey e) w) s

/-- FDIV: VA ÷ VB (R142). -/
def execFdiv (e : Engine) (w : VFields) (s : State) : Host.Outcome State Fault Refusal :=
  issueRegs e 0x26 w (float2 fpDiv (engKey e) w) s

/-- FSQRT (R142). -/
def execFsqrt (e : Engine) (w : VFields) (s : State) : Host.Outcome State Fault Refusal :=
  issueRegs e 0x27 w (float1 fpSqrt (engKey e) w) s

/-- FRSQ: one over the square root (R142). -/
def execFrsq (e : Engine) (w : VFields) (s : State) : Host.Outcome State Fault Refusal :=
  issueRegs e 0x28 w (float1 fpRsqrt (engKey e) w) s

/-- FEXP2: two to the power VA (R142). -/
def execFexp2 (e : Engine) (w : VFields) (s : State) : Host.Outcome State Fault Refusal :=
  issueRegs e 0x29 w (float1 fpExp2 (engKey e) w) s

/-- FLOG2 (R142). -/
def execFlog2 (e : Engine) (w : VFields) (s : State) : Host.Outcome State Fault Refusal :=
  issueRegs e 0x2A w (float1 fpLog2 (engKey e) w) s

/-- FCOSPI: cos (π × VA) (R142). -/
def execFcospi (e : Engine) (w : VFields) (s : State) : Host.Outcome State Fault Refusal :=
  issueRegs e 0x2B w (float1 fpCospi (engKey e) w) s

/-- FABS: sign cleared, no flag, NaN payload kept (Table 6.4). -/
def execFabs (e : Engine) (w : VFields) (s : State) : Host.Outcome State Fault Refusal :=
  issueRegs e 0x2C w (float1 (fun F a => (fpAbs F a, 0)) (engKey e) w) s

/-- FNEG: sign inverted, no flag (Table 6.4). -/
def execFneg (e : Engine) (w : VFields) (s : State) : Host.Outcome State Fault Refusal :=
  issueRegs e 0x2D w (float1 (fun F a => (fpNeg F a, 0)) (engKey e) w) s

/-- FCMP (R143). -/
def execFcmp (e : Engine) (w : VFields) (s : State) : Host.Outcome State Fault Refusal :=
  issueRegs e 0x2E w (floatCmp (engKey e) w) s

/-- FSEL (R139). -/
def execFsel (e : Engine) (w : VFields) (s : State) : Host.Outcome State Fault Refusal :=
  issueRegs e 0x2F w (floatSel (engKey e) w) s

end Sys2Proof.Machine
end

