-- ==== Sys2Proof/Machine/VecConv.lean ====
section
/-!
DEFINITION. Sys2Proof/Machine/VecConv.lean: conversion, maxima, sums, signs and stochastic rounding (0x50 to 0x56 of
Table 6.4, R150 to R161).
-/
namespace Sys2Proof.Machine

/-- The source elements of CVT, AMAXB or AMAXT in order; `none` for an inactive element (R150 to R152). -/
def convSource (k : Nat) (w : VFields) (e : EngineState) : List (Option FV) :=
  let src := fSrc w
  let dst := w.fmt.toNat
  let n := elemCount (lanesOf k) src dst
  let mask := e.mask k w
  let wd := fmtWidth src
  if onRegSide src src dst then
    (List.range n).map fun i =>
      if onElem mask wd i then some (decodeScaled src (elemAt wd (e.rv w.va.toNat) i) 0 0) else none
  else
    let va := e.rv w.va.toNat >>> (fPart w * n * wd)
    let blk := fmtBlock src
    let scales := e.rv (w.va.toNat + 1) >>> (8 * (fPart w * n / blk))
    let ts := (e.rs (fSt w)).toNat % 2 ^ 32
    let tw := match regSide src dst with
      | some r => fmtWidth r
      | none => 32
    (List.range n).map fun i =>
      if onElem mask tw i then some (decodeScaled src (elemAt wd va i) (elemAt 8 scales (i / blk)) ts) else none

/-- Format of the amax operands: FP64 for an FP64 source (R150, R151). -/
def amaxFmt (w : VFields) : FloatFmt := if fSrc w = 0xE then fFP64 else fFP32

/-- Index of block 0's amax operand and scale (R150). -/
def convBase (k : Nat) (w : VFields) : Nat :=
  fPart w * elemCount (lanesOf k) (fSrc w) w.fmt.toNat / fmtBlock w.fmt.toNat

/-- CVT's result for an engine (R150 to R153). -/
def convRun (seed : W64) (k : Nat) (w : VFields) (e : EngineState) : ConvOut :=
  let dst := w.fmt.toNat
  let F := amaxFmt w
  let vs := convSource k w e
  let at' := decodeF F ((e.rs (fSa w)).toNat % 2 ^ F.width)
  let abs := (List.range (cdiv vs.length (fmtBlock dst))).map fun j =>
    decodeF F (elemAt F.width (e.rv w.vb.toNat) (convBase k w + j))
  let kf := fun i => cg16 seed (e.rs 31) (BitVec.ofNat 64 (i * 2 ^ 32 + fPart w * 2 ^ 24 + 0x02 * 2 ^ 16)) 0
  convert dst ⟨bitAt w.mode.toNat 0, bitAt w.mode.toNat 1, bitAt w.mode.toNat 2⟩ kf at' abs vs

/-- Write CVT's result: elements to VD, block scales to VC, tensor scale to s[SS], flags and lost elements (R151 to
R153). -/
def convWrite (k : Nat) (w : VFields) (r : ConvOut) (e : EngineState) : EngineState :=
  let src := fSrc w
  let dst := w.fmt.toNat
  let wd := fmtWidth dst
  let n := r.codes.length
  let old := e.rv w.vd.toNat
  let e :=
    if onRegSide dst src dst then
      e.wv k w.vd.toNat (packList wd ((List.range (elemsOf k wd)).map fun j =>
        match r.codes.getD j none with
        | some c => c
        | none => elemAt wd old j))
    else
      e.wv k w.vd.toNat (setBits old (fPart w * n * wd) (n * wd) (packList wd (r.codes.map fun c => c.getD 0)))
  let e :=
    if r.scales.isEmpty then e
    else e.wv k w.vc.toNat (setBits (e.rv w.vc.toNat) (8 * convBase k w) (8 * r.scales.length) (packList 8 r.scales))
  let e := match r.tscale with
    | some t => e.ws (fSs w) (BitVec.ofNat 64 t)
    | none => e
  { e.orV r.flags with lost := satAdd e.lost r.lost }

/-- AMAXB's operation (R155); a packed source's scale that is no number sets no flag (log 112). -/
def amaxBlocks (k : Nat) (w : VFields) (e : EngineState) : EngineState :=
  let F := amaxFmt w
  let blk := fmtBlock w.fmt.toNat
  let vs := convSource k w e
  let rs := (List.range (cdiv vs.length blk)).map fun j => amaxCode F (amaxOf ((vs.drop (j * blk)).take blk))
  let old := e.rv w.vd.toNat
  let new := setBits old (F.width * convBase k w) (F.width * rs.length) (packList F.width (rs.map (·.1)))
  (e.wv k w.vd.toNat new).orV (rs.foldl (fun a r => a ||| r.2) 0)

/-- AMAXT's operation (R156). -/
def amaxTensor (k : Nat) (w : VFields) (e : EngineState) : EngineState :=
  let F := amaxFmt w
  let (c, fl) := amaxCode F (amaxOf (convSource k w e))
  let old := (e.rs w.vd.toNat).toNat % 2 ^ F.width
  (e.ws w.vd.toNat (BitVec.ofNat 64 (fpMaxWith F old c))).orV fl

/-- SUM's operation (R157); an INT32 sum is zero-extended (log 126). -/
def sumLanes (k : Nat) (w : VFields) (e : EngineState) : EngineState :=
  let c := w.fmt.toNat
  let wd := fmtWidth c
  let mask := e.mask k w
  let a := e.rv w.va.toNat
  if c = 0xF then
    let xs := (List.range (elemsOf k wd)).map fun j => if onElem mask wd j then elemAt wd a j else 0
    e.ws w.vd.toNat (BitVec.ofNat 64 (xs.foldl (· + ·) 0 % 2 ^ 32))
  else
    let F := if c = 0xE then fFP64 else fFP32
    let xs := (List.range (elemsOf k wd)).map fun j =>
      if onElem mask wd j then decodeElem c (elemAt wd a j) else fvZero
    let (r, fl) := tree F false xs
    (e.ws w.vd.toNat (BitVec.ofNat 64 (codeOf F r))).orV fl

/-- TSGN's pack mode: the T2 codes of the active elements at PART; an inactive element's code keeps its value (R139,
R160). -/
def signPack (k : Nat) (w : VFields) (e : EngineState) : EngineState :=
  let F := laneFloat w
  let n := elemsOf k F.width
  let mask := e.mask k w
  let a := e.rv w.va.toNat
  let old := e.rv w.vd.toNat
  let rs := (List.range n).map fun j =>
    if onElem mask F.width j then
      match decodeF F (elemAt F.width a j) with
      | .nan => (0, flNV)
      | .inf neg => (if neg then 3 else 1, 0)
      | .fin neg m _ => (if m = 0 then 0 else if neg then 3 else 1, 0)
    else (elemAt 2 old (fPart w * n + j), 0)
  (e.wv k w.vd.toNat (setBits old (fPart w * n * 2) (n * 2) (packList 2 (rs.map (·.1))))).orV
    (rs.foldl (fun a r => a ||| r.2) 0)

/-- TSGN's unpack mode (R160). -/
def signUnpack (k : Nat) (w : VFields) (e : EngineState) : EngineState :=
  let F := laneFloat w
  let n := elemsOf k F.width
  let a := e.rv w.va.toNat >>> (fPart w * n * 2)
  let one := F.bias * 2 ^ F.mb
  mapLanes k w F.width (fun j =>
    match elemAt 2 a j with
    | 0 => (0, 0)
    | 1 => (one, 0)
    | 3 => (F.signBit true + one, 0)
    | _ => (F.qnan, flNV)) e

/-- The draw of SRND for element `i` (R161). -/
def srndDraw (seed : W64) (w : VFields) (e : EngineState) (i : Nat) : Nat :=
  cg16 seed (e.rs (bits w.imm.toNat 4 0)) (BitVec.ofNat 64 (i * 2 ^ 32 + 0x03 * 2 ^ 16))
    (e.rs (bits w.imm.toNat 9 5))

/-- GRID on one floating-point element: `ue` is the exponent of u (R161). -/
def gridFloat (F : FloatFmt) (ue : Int) (draw c : Nat) : Nat × Fl :=
  match decodeF F c with
  | .fin neg m e =>
    if m = 0 then (c, 0)
    else
      let t := max ue (max (flog2 m 1 + e - F.mb) F.emin)
      let (N, D) := scaleFrac m 1 (e - t)
      let q := (65536 * N + draw * D) / (65536 * D)
      if q = 0 then (F.signBit neg, flUF + flNX)
      else
        let (a, b) := scaleFrac m 1 (e - t)
        let same := a == q * b
        let big := decide (flog2 q 1 + t > 1100) || F.beyond q t
        if big then (F.infCode neg, flOV + flNX)
        else ((roundTo F .rne false neg q 1 t).1, if same then 0 else flNX)
  | _ => (c, 0)

/-- GRID on one INT32 element: no flag (R161). -/
def gridInt (ue : Int) (draw c : Nat) : Nat :=
  if ue ≤ 0 then c
  else
    let x := signed 32 c
    let e := ue.toNat
    -- beyond 2^64 the quotient is 0 whatever the draw but for the draw's own floor, and the product wraps to 0
    if e > 64 then 0
    else
      let q := (65536 * x.natAbs + draw * 2 ^ e) / (65536 * 2 ^ e)
      lowBits 32 ((if x < 0 then -1 else 1) * ((q * 2 ^ e : Nat) : Int))

/-- SRND's operation. -/
def srnd (seed : W64) (k : Nat) (w : VFields) (e : EngineState) : EngineState :=
  if bitAt w.mode.toNat 0 then mapLanes k w 32 (fun i => (srndDraw seed w e i, 0)) e
  else
    let a := e.rv w.va.toNat
    let ue := signed 32 (e.rs w.vb.toNat).toNat
    if w.fmt = 0xF then mapLanes k w 32 (fun i => (gridInt ue (srndDraw seed w e i) (elemAt 32 a i), 0)) e
    else
      let F := laneFloat w
      -- a grid finer than every spacing is never used, and one beyond 2^4000 gives 0 or an overflow alike
      let ue := max (-5000) (min 5000 ue)
      mapLanes k w F.width (fun i => gridFloat F ue (srndDraw seed w e i) (elemAt F.width a i)) e

/-- Does a conversion name a format that reduced service lacks (Table 6.3, SERVICE)? -/
def serviceBad (s : State) (w : VFields) : Bool :=
  s.reduced && !([0, 1].contains w.fmt.toNat && [0, 1].contains (fSrc w))

/-- Issue a conversion, or raise EV_VEC_FAULT, reason SERVICE. -/
def issueConv (e : Engine) (op : Nat) (w : VFields) (f : EngineState → EngineState) (s : State) :
    Host.Outcome State Fault Refusal :=
  issue e op w (fun s =>
    if serviceBad s w then vecFault (engKey e) 5 s else advance (engKey e) (s.updEng (engKey e) f)) s

/-- CVT (R150 to R154). -/
def execCvt (e : Engine) (w : VFields) (s : State) : Host.Outcome State Fault Refusal :=
  issueConv e 0x50 w (fun r => convWrite (engKey e) w (convRun s.job.seed (engKey e) w r) r) s

/-- AMAXB (R155). -/
def execAmaxb (e : Engine) (w : VFields) (s : State) : Host.Outcome State Fault Refusal :=
  issueConv e 0x51 w (amaxBlocks (engKey e) w) s

/-- AMAXT (R156). -/
def execAmaxt (e : Engine) (w : VFields) (s : State) : Host.Outcome State Fault Refusal :=
  issueConv e 0x52 w (amaxTensor (engKey e) w) s

/-- SUM (R157). -/
def execSum (e : Engine) (w : VFields) (s : State) : Host.Outcome State Fault Refusal :=
  issueRegs e 0x53 w (sumLanes (engKey e) w) s

/-- SGN (R159). -/
def execSgn (e : Engine) (w : VFields) (s : State) : Host.Outcome State Fault Refusal :=
  issueRegs e 0x54 w (float1 (fun F a => (fpSgn F a, 0)) (engKey e) w) s

/-- TSGN (R160). -/
def execTsgn (e : Engine) (w : VFields) (s : State) : Host.Outcome State Fault Refusal :=
  issueRegs e 0x55 w (if bitAt w.mode.toNat 0 then signUnpack (engKey e) w else signPack (engKey e) w) s

/-- SRND (R161). -/
def execSrnd (e : Engine) (w : VFields) (s : State) : Host.Outcome State Fault Refusal :=
  issueRegs e 0x56 w (srnd s.job.seed (engKey e) w) s

end Sys2Proof.Machine
end

