-- ==== Sys2Proof/Machine/VecInt.lean ====
section
/-!
DEFINITION. Sys2Proof/Machine/VecInt.lean: the integer, scalar and predicate instructions of the vector engine (0x30 to
0x4C, 0x60 to 0x66 of Table 6.4, R141, R144, R152).
-/
namespace Sys2Proof.Machine

/-- IMM sign-extended to `n` bits (the immediate form of R141). -/
def immWord (n : Nat) (w : VFields) : Nat := lowBits n (fSimm w)

/-- VB, or IMM broadcast in the immediate form, in lane `i`. -/
def intB (w : VFields) (e : EngineState) (i : Nat) : Nat :=
  if bitAt w.mode.toNat 0 then immWord 32 w else elemAt 32 (e.rv w.vb.toNat) i

/-- A wrapping 32-bit lane operation (R144). -/
def int2 (f : W32 → W32 → W32) (k : Nat) (w : VFields) (e : EngineState) : EngineState :=
  let a := e.rv w.va.toNat
  mapLanes k w 32 (fun i => ((f (BitVec.ofNat 32 (elemAt 32 a i)) (BitVec.ofNat 32 (intB w e i))).toNat, 0)) e

/-- The comparisons of ICMP by MODE[3:1] (Table 6.4). -/
def intCompare (c : Nat) (a b : W32) : Bool :=
  match c with
  | 0 => a == b
  | 1 => a != b
  | 2 => BitVec.slt a b
  | 3 => BitVec.sle a b
  | 4 => BitVec.ult a b
  | _ => BitVec.ule a b

/-- ICMP's operation. -/
def intCmp (k : Nat) (w : VFields) (e : EngineState) : EngineState :=
  let a := e.rv w.va.toNat
  let mask := e.mask k w
  writePred k w (fun i => mask.testBit i)
    (fun i => intCompare (w.mode.toNat / 2) (BitVec.ofNat 32 (elemAt 32 a i)) (BitVec.ofNat 32 (intB w e i))) e

/-- IPACK's operation: the low 8 or 16 bits of every lane at PART (R152); an inactive lane writes 0 (log 126). -/
def intPack (k : Nat) (w : VFields) (e : EngineState) : EngineState :=
  let wd := if bitAt w.mode.toNat 0 then 16 else 8
  let n := lanesOf k
  let a := e.rv w.va.toNat
  let mask := e.mask k w
  let part := packList wd ((List.range n).map fun i => if mask.testBit i then elemAt 32 a i else 0)
  e.wv k w.vd.toNat (setBits (e.rv w.vd.toNat) (fPart w * n * wd) (n * wd) part)

/-- IUNPK's operation: bytes or halves at PART widened into the active lanes. -/
def intUnpack (k : Nat) (w : VFields) (e : EngineState) : EngineState :=
  let wd := if bitAt w.mode.toNat 0 then 16 else 8
  let n := lanesOf k
  let a := e.rv w.va.toNat >>> (fPart w * n * wd)
  mapLanes k w 32 (fun i =>
    let x := elemAt wd a i
    (if bitAt w.mode.toNat 1 then x else lowBits 32 (signed wd x), 0)) e

/-- VPERM's operation. -/
def intPerm (k : Nat) (w : VFields) (e : EngineState) : EngineState :=
  let a := e.rv w.va.toNat
  let b := e.rv w.vb.toNat
  mapLanes k w 32 (fun i => (elemAt 32 a (elemAt 32 b i % lanesOf k), 0)) e

/-- A wrapping 64-bit scalar operation (R144). -/
def scalar2 (f : W64 → W64 → W64) (_k : Nat) (w : VFields) (e : EngineState) : EngineState :=
  let b := if bitAt w.mode.toNat 0 then BitVec.ofNat 64 (immWord 64 w) else e.rs w.vb.toNat
  e.ws w.vd.toNat (f (e.rs w.va.toNat) b)

/-- VBCS's operation: every lane, or every FP64 value, from a scalar. -/
def broadcast (k : Nat) (w : VFields) (e : EngineState) : EngineState :=
  let wd := fmtWidth w.fmt.toNat
  let x := (e.rs w.va.toNat).toNat % 2 ^ wd
  mapLanes k w wd (fun _ => (x, 0)) e

/-- A lane-wise predicate operation. -/
def pred2 (f : Nat → Nat → Nat) (k : Nat) (w : VFields) (e : EngineState) : EngineState :=
  e.wp k w.vd.toNat (f (e.rp k w.va.toNat) (e.rp k w.vb.toNat))

/-- Number of set bits among the low `n`. -/
def popCount (x n : Nat) : Nat := ((List.range n).filter fun i => x.testBit i).length

/-- IADD (R144). -/
def execIadd (e : Engine) (w : VFields) (s : State) : Host.Outcome State Fault Refusal :=
  issueRegs e 0x30 w (int2 (fun a b => a + b) (engKey e) w) s

/-- ISUB (R144). -/
def execIsub (e : Engine) (w : VFields) (s : State) : Host.Outcome State Fault Refusal :=
  issueRegs e 0x31 w (int2 (fun a b => a - b) (engKey e) w) s

/-- IMUL (R144). -/
def execImul (e : Engine) (w : VFields) (s : State) : Host.Outcome State Fault Refusal :=
  issueRegs e 0x32 w (int2 (fun a b => a * b) (engKey e) w) s

/-- IAND (R144). -/
def execIand (e : Engine) (w : VFields) (s : State) : Host.Outcome State Fault Refusal :=
  issueRegs e 0x33 w (int2 (fun a b => a &&& b) (engKey e) w) s

/-- IOR (R144). -/
def execIor (e : Engine) (w : VFields) (s : State) : Host.Outcome State Fault Refusal :=
  issueRegs e 0x34 w (int2 (fun a b => a ||| b) (engKey e) w) s

/-- IXOR (R144). -/
def execIxor (e : Engine) (w : VFields) (s : State) : Host.Outcome State Fault Refusal :=
  issueRegs e 0x35 w (int2 (fun a b => a ^^^ b) (engKey e) w) s

/-- ISHL (R144). -/
def execIshl (e : Engine) (w : VFields) (s : State) : Host.Outcome State Fault Refusal :=
  issueRegs e 0x36 w (int2 (fun a b => a <<< (b.toNat % 32)) (engKey e) w) s

/-- ISHR (R144). -/
def execIshr (e : Engine) (w : VFields) (s : State) : Host.Outcome State Fault Refusal :=
  issueRegs e 0x37 w (int2 (fun a b => a >>> (b.toNat % 32)) (engKey e) w) s

/-- ISRA (R144). -/
def execIsra (e : Engine) (w : VFields) (s : State) : Host.Outcome State Fault Refusal :=
  issueRegs e 0x38 w (int2 (fun a b => a.sshiftRight (b.toNat % 32)) (engKey e) w) s

/-- IMIN (R144). -/
def execImin (e : Engine) (w : VFields) (s : State) : Host.Outcome State Fault Refusal :=
  issueRegs e 0x39 w (int2 (fun a b => if BitVec.sle a b then a else b) (engKey e) w) s

/-- IMAX (R144). -/
def execImax (e : Engine) (w : VFields) (s : State) : Host.Outcome State Fault Refusal :=
  issueRegs e 0x3A w (int2 (fun a b => if BitVec.sle a b then b else a) (engKey e) w) s

/-- ICMP (Table 6.4). -/
def execIcmp (e : Engine) (w : VFields) (s : State) : Host.Outcome State Fault Refusal :=
  issueRegs e 0x3B w (intCmp (engKey e) w) s

/-- IPACK (R152). -/
def execIpack (e : Engine) (w : VFields) (s : State) : Host.Outcome State Fault Refusal :=
  issueRegs e 0x3C w (intPack (engKey e) w) s

/-- IUNPK (R152). -/
def execIunpk (e : Engine) (w : VFields) (s : State) : Host.Outcome State Fault Refusal :=
  issueRegs e 0x3D w (intUnpack (engKey e) w) s

/-- VPERM (Table 6.4). -/
def execVperm (e : Engine) (w : VFields) (s : State) : Host.Outcome State Fault Refusal :=
  issueRegs e 0x3E w (intPerm (engKey e) w) s

/-- SADD (R144). -/
def execSadd (e : Engine) (w : VFields) (s : State) : Host.Outcome State Fault Refusal :=
  issueRegs e 0x40 w (scalar2 (fun a b => a + b) (engKey e) w) s

/-- SSUB (R144). -/
def execSsub (e : Engine) (w : VFields) (s : State) : Host.Outcome State Fault Refusal :=
  issueRegs e 0x41 w (scalar2 (fun a b => a - b) (engKey e) w) s

/-- SMUL (R144). -/
def execSmul (e : Engine) (w : VFields) (s : State) : Host.Outcome State Fault Refusal :=
  issueRegs e 0x42 w (scalar2 (fun a b => a * b) (engKey e) w) s

/-- SAND (R144). -/
def execSand (e : Engine) (w : VFields) (s : State) : Host.Outcome State Fault Refusal :=
  issueRegs e 0x43 w (scalar2 (fun a b => a &&& b) (engKey e) w) s

/-- SOR (R144). -/
def execSor (e : Engine) (w : VFields) (s : State) : Host.Outcome State Fault Refusal :=
  issueRegs e 0x44 w (scalar2 (fun a b => a ||| b) (engKey e) w) s

/-- SXOR (R144). -/
def execSxor (e : Engine) (w : VFields) (s : State) : Host.Outcome State Fault Refusal :=
  issueRegs e 0x45 w (scalar2 (fun a b => a ^^^ b) (engKey e) w) s

/-- SSHL (R144). -/
def execSshl (e : Engine) (w : VFields) (s : State) : Host.Outcome State Fault Refusal :=
  issueRegs e 0x46 w (scalar2 (fun a b => a <<< (b.toNat % 64)) (engKey e) w) s

/-- SSHR (R144). -/
def execSshr (e : Engine) (w : VFields) (s : State) : Host.Outcome State Fault Refusal :=
  issueRegs e 0x47 w (scalar2 (fun a b => a >>> (b.toNat % 64)) (engKey e) w) s

/-- SSRA (R144). -/
def execSsra (e : Engine) (w : VFields) (s : State) : Host.Outcome State Fault Refusal :=
  issueRegs e 0x48 w (scalar2 (fun a b => a.sshiftRight (b.toNat % 64)) (engKey e) w) s

/-- SLI: s[VD] becomes IMM sign-extended. -/
def execSli (e : Engine) (w : VFields) (s : State) : Host.Outcome State Fault Refusal :=
  issueRegs e 0x49 w (fun r => r.ws w.vd.toNat (BitVec.ofNat 64 (immWord 64 w))) s

/-- SLUI: s[VD] becomes (s[VD] << 24) OR IMM. -/
def execSlui (e : Engine) (w : VFields) (s : State) : Host.Outcome State Fault Refusal :=
  issueRegs e 0x4A w (fun r => r.ws w.vd.toNat ((r.rs w.vd.toNat <<< 24) ||| BitVec.ofNat 64 w.imm.toNat)) s

/-- VBCS (Table 6.4). -/
def execVbcs (e : Engine) (w : VFields) (s : State) : Host.Outcome State Fault Refusal :=
  issueRegs e 0x4B w (broadcast (engKey e) w) s

/-- VEXT: s[VD] becomes a lane, zero-extended. -/
def execVext (e : Engine) (w : VFields) (s : State) : Host.Outcome State Fault Refusal :=
  issueRegs e 0x4C w (fun r => r.ws w.vd.toNat (BitVec.ofNat 64 (elemAt 32 (r.rv w.va.toNat) (w.imm.toNat % 256)))) s

/-- PAND. -/
def execPand (e : Engine) (w : VFields) (s : State) : Host.Outcome State Fault Refusal :=
  issueRegs e 0x60 w (pred2 (fun a b => a &&& b) (engKey e) w) s

/-- POR. -/
def execPor (e : Engine) (w : VFields) (s : State) : Host.Outcome State Fault Refusal :=
  issueRegs e 0x61 w (pred2 (fun a b => a ||| b) (engKey e) w) s

/-- PXOR. -/
def execPxor (e : Engine) (w : VFields) (s : State) : Host.Outcome State Fault Refusal :=
  issueRegs e 0x62 w (pred2 (fun a b => a ^^^ b) (engKey e) w) s

/-- PANDN: VA AND NOT VB. -/
def execPandn (e : Engine) (w : VFields) (s : State) : Host.Outcome State Fault Refusal :=
  issueRegs e 0x63 w (pred2 (fun a b => a &&& ((2 ^ 256 - 1) ^^^ b)) (engKey e) w) s

/-- PSET: lanes below IMM become 1. -/
def execPset (e : Engine) (w : VFields) (s : State) : Host.Outcome State Fault Refusal :=
  issueRegs e 0x64 w (fun r => r.wp (engKey e) w.vd.toNat (2 ^ min w.imm.toNat 256 - 1)) s

/-- PEXP: lane i becomes bit (i >> n) of s[VA]; beyond bit 63 it becomes 0 (log 126). -/
def execPexp (e : Engine) (w : VFields) (s : State) : Host.Outcome State Fault Refusal :=
  issueRegs e 0x65 w (fun r => r.wp (engKey e) w.vd.toNat (packList 1 ((List.range 256).map fun i =>
    bit ((r.rs w.va.toNat).getLsbD (i >>> w.imm.toNat))))) s

/-- PCNT: number of set lanes. -/
def execPcnt (e : Engine) (w : VFields) (s : State) : Host.Outcome State Fault Refusal :=
  issueRegs e 0x66 w (fun r => r.ws w.vd.toNat (BitVec.ofNat 64 (popCount (r.rp (engKey e) w.va.toNat) (lanesOf (engKey e))))) s

end Sys2Proof.Machine
end

