-- ==== Sys2Proof/Machine/VecMemory.lean ====
section
/-!
DEFINITION. Sys2Proof/Machine/VecMemory.lean: the loads and stores of the vector engine, 0x10 to 0x17 (Table 6.4,
R139, R145). Every access is checked whole before anything moves (R32).
-/
namespace Sys2Proof.Machine

/-- The first failure among accesses in order: an alignment, or what `checkAccess` finds. `reads` lists address and
length. -/
def firstFault (s : State) (k align : Nat) (write : Bool) : List (Nat × Nat) → Option (Nat × Option Access)
  | [] => none
  | (a, n) :: t =>
    if a % align ≠ 0 then some (a, none)
    else
      match checkAccess s k (engReach k) a n write with
      | .ok => firstFault s k align write t
      | r => some (a, some r)

/-- What a failed access of a vector engine does (R145, R149). -/
def engFault (k : Nat) (f : Nat × Option Access) (s : State) : State :=
  match f.2 with
  | none => vecFault k 1 s
  | some r => accessFault k (engUnit k).1 (engUnit k).2 f.1 r s

/-- Runs of consecutive set bits among the low `n`: first bit and length. -/
def runsOf (mask n : Nat) : List (Nat × Nat) :=
  (List.range n).filterMap fun i =>
    if mask.testBit i && (i == 0 || !mask.testBit (i - 1)) then
      some (i, (((List.range (n - i)).takeWhile fun j => mask.testBit (i + j))).length)
    else none

/-- Perform checked stores in order; whole words become good again (R36). -/
def storeAll (ws : List (Nat × List Byte)) (s : State) : State :=
  forEach ws (fun w s => (s.store w.1 w.2).mend w.1 w.2.length) s

/-- Loads of an engine: `ranges` are checked, then `f` takes the loaded bytes into the registers. -/
def loadOp (k align : Nat) (ranges : List (Nat × Nat)) (f : List (List Byte) → EngineState → EngineState) (s : State) :
    State :=
  match firstFault s k align false ranges with
  | some x => engFault k x s
  | none => advance k (s.updEng k (f (ranges.map fun r => s.load r.1 r.2)))

/-- Stores of an engine, checked and then performed. -/
def storeOp (k align : Nat) (ws : List (Nat × List Byte)) (s : State) : State :=
  match firstFault s k align true (ws.map fun w => (w.1, w.2.length)) with
  | some x => engFault k x s
  | none => advance k (storeAll ws s)

/-- Bytes of VLD or VST (Table 6.4). -/
def vlen (w : VFields) : Nat := 16 * 2 ^ w.mode.toNat

/-- VLD: the low bytes of VD, active lanes only; the whole range is checked (log 126). -/
def execVld (e : Engine) (w : VFields) (s : State) : Host.Outcome State Fault Refusal :=
  issue e 0x10 w (fun s =>
    let k := engKey e
    let r := s.eng k
    loadOp k (min (vlen w) 64) [(r.addr w.va.toNat w, vlen w)] (fun bs r =>
      let x := leNat (bs.headD [])
      let old := r.rv w.vd.toNat
      let mask := r.mask k w
      r.wv k w.vd.toNat (packList 32 ((List.range (lanesOf k)).map fun i =>
        if i < vlen w / 4 && mask.testBit i then elemAt 32 x i else elemAt 32 old i))) s) s

/-- The stores of VST: runs of active lanes. -/
def vstWrites (k : Nat) (w : VFields) (r : EngineState) : List (Nat × List Byte) :=
  let a := r.addr w.vb.toNat w
  let x := r.rv w.va.toNat
  (runsOf (r.mask k w) (vlen w / 4)).map fun (i, n) => (a + 4 * i, leBytes (4 * n) (x >>> (32 * i)))

/-- VST: the active lanes of the low bytes of VA. -/
def execVst (e : Engine) (w : VFields) (s : State) : Host.Outcome State Fault Refusal :=
  issue e 0x11 w (fun s =>
    let k := engKey e
    let r := s.eng k
    if r.addr w.vb.toNat w % min (vlen w) 64 ≠ 0 then vecFault k 1 s
    else storeOp k 1 (vstWrites k w r) s) s

/-- Address of lane `i` of a strided access: base and step (Table 6.4). -/
def laneAddr (r : EngineState) (base step : Nat) (w : VFields) (i : Nat) : Nat :=
  lowBits 64 ((r.rs base).toNat + fSimm w + (i * (r.rs step).toNat : Nat))

/-- The active lanes in order. -/
def activeLanes (k : Nat) (w : VFields) (r : EngineState) : List Nat :=
  let mask := r.mask k w
  (List.range (lanesOf k)).filter fun i => mask.testBit i

/-- VLDS: four bytes into each active lane. -/
def execVlds (e : Engine) (w : VFields) (s : State) : Host.Outcome State Fault Refusal :=
  issue e 0x12 w (fun s =>
    let k := engKey e
    let r := s.eng k
    let on := activeLanes k w r
    loadOp k 4 (on.map fun i => (laneAddr r w.va.toNat w.vb.toNat w i, 4)) (fun bs r =>
      let x := r.rv w.vd.toNat
      let got := on.zip (bs.map leNat)
      r.wv k w.vd.toNat (packList 32 ((List.range (lanesOf k)).map fun i =>
        match got.find? fun g => g.1 == i with
        | some g => g.2
        | none => elemAt 32 x i))) s) s

/-- VSTS: each active lane of VA to its own address, lanes in ascending order. -/
def execVsts (e : Engine) (w : VFields) (s : State) : Host.Outcome State Fault Refusal :=
  issue e 0x13 w (fun s =>
    let k := engKey e
    let r := s.eng k
    let x := r.rv w.va.toNat
    storeOp k 4 ((activeLanes k w r).map fun i =>
      (laneAddr r w.vb.toNat w.vc.toNat w i, leBytes 4 (elemAt 32 x i))) s) s

/-- Width in bytes of SLD and SST. -/
def swidth (w : VFields) : Nat := 2 ^ bits w.mode.toNat 1 0

/-- SLD. -/
def execSld (e : Engine) (w : VFields) (s : State) : Host.Outcome State Fault Refusal :=
  issue e 0x14 w (fun s =>
    let k := engKey e
    let r := s.eng k
    let n := swidth w
    loadOp k n [(r.addr w.va.toNat w, n)] (fun bs r =>
      let x := leNat (bs.headD [])
      r.ws w.vd.toNat (BitVec.ofNat 64 (if bitAt w.mode.toNat 2 then lowBits 64 (signed (8 * n) x) else x))) s) s

/-- SST. -/
def execSst (e : Engine) (w : VFields) (s : State) : Host.Outcome State Fault Refusal :=
  issue e 0x15 w (fun s =>
    let k := engKey e
    let r := s.eng k
    storeOp k (swidth w) [(r.addr w.vb.toNat w, leBytes (swidth w) (r.rs w.va.toNat).toNat)] s) s

/-- PLD: a whole predicate register. -/
def execPld (e : Engine) (w : VFields) (s : State) : Host.Outcome State Fault Refusal :=
  issue e 0x16 w (fun s =>
    let k := engKey e
    let r := s.eng k
    loadOp k 8 [(r.addr w.va.toNat w, lanesOf k / 8)] (fun bs r => r.wp k w.vd.toNat (leNat (bs.headD []))) s) s

/-- PST: a whole predicate register. -/
def execPst (e : Engine) (w : VFields) (s : State) : Host.Outcome State Fault Refusal :=
  issue e 0x17 w (fun s =>
    let k := engKey e
    let r := s.eng k
    storeOp k 8 [(r.addr w.vb.toNat w, leBytes (lanesOf k / 8) (r.rp k w.va.toNat))] s) s

end Sys2Proof.Machine
end

