-- ==== Sys2Proof/Machine/Dispatch.lean ====
section
/-!
DEFINITION. Sys2Proof/Machine/Dispatch.lean: one arm per command.
-/
namespace Sys2Proof.Machine

/-- The effect of one command on everything but the queue. -/
def exec (i : Instr) (s : State) : Host.Outcome State Fault Refusal :=
  match i with
  | .nop e w => Sys2Proof.Machine.execNop e w s
  | .endRun e w => Sys2Proof.Machine.execEnd e w s
  | .br e w => Sys2Proof.Machine.execBr e w s
  | .brc e w => Sys2Proof.Machine.execBrc e w s
  | .loop e w => Sys2Proof.Machine.execLoop e w s
  | .sync e w => Sys2Proof.Machine.execSync e w s
  | .wait e w => Sys2Proof.Machine.execWait e w s
  | .tileGo e w => Sys2Proof.Machine.execTileGo e w s
  | .dmaGo e w => Sys2Proof.Machine.execDmaGo e w s
  | .clsTake e w => Sys2Proof.Machine.execClsTake e w s
  | .clsPut e w => Sys2Proof.Machine.execClsPut e w s
  | .vld e w => Sys2Proof.Machine.execVld e w s
  | .vst e w => Sys2Proof.Machine.execVst e w s
  | .vlds e w => Sys2Proof.Machine.execVlds e w s
  | .vsts e w => Sys2Proof.Machine.execVsts e w s
  | .sld e w => Sys2Proof.Machine.execSld e w s
  | .sst e w => Sys2Proof.Machine.execSst e w s
  | .pld e w => Sys2Proof.Machine.execPld e w s
  | .pst e w => Sys2Proof.Machine.execPst e w s
  | .fadd e w => Sys2Proof.Machine.execFadd e w s
  | .fsub e w => Sys2Proof.Machine.execFsub e w s
  | .fmul e w => Sys2Proof.Machine.execFmul e w s
  | .fma e w => Sys2Proof.Machine.execFma e w s
  | .fmin e w => Sys2Proof.Machine.execFmin e w s
  | .fmax e w => Sys2Proof.Machine.execFmax e w s
  | .fdiv e w => Sys2Proof.Machine.execFdiv e w s
  | .fsqrt e w => Sys2Proof.Machine.execFsqrt e w s
  | .frsq e w => Sys2Proof.Machine.execFrsq e w s
  | .fexp2 e w => Sys2Proof.Machine.execFexp2 e w s
  | .flog2 e w => Sys2Proof.Machine.execFlog2 e w s
  | .fcospi e w => Sys2Proof.Machine.execFcospi e w s
  | .fabs e w => Sys2Proof.Machine.execFabs e w s
  | .fneg e w => Sys2Proof.Machine.execFneg e w s
  | .fcmp e w => Sys2Proof.Machine.execFcmp e w s
  | .fsel e w => Sys2Proof.Machine.execFsel e w s
  | .iadd e w => Sys2Proof.Machine.execIadd e w s
  | .isub e w => Sys2Proof.Machine.execIsub e w s
  | .imul e w => Sys2Proof.Machine.execImul e w s
  | .iand e w => Sys2Proof.Machine.execIand e w s
  | .ior e w => Sys2Proof.Machine.execIor e w s
  | .ixor e w => Sys2Proof.Machine.execIxor e w s
  | .ishl e w => Sys2Proof.Machine.execIshl e w s
  | .ishr e w => Sys2Proof.Machine.execIshr e w s
  | .isra e w => Sys2Proof.Machine.execIsra e w s
  | .imin e w => Sys2Proof.Machine.execImin e w s
  | .imax e w => Sys2Proof.Machine.execImax e w s
  | .icmp e w => Sys2Proof.Machine.execIcmp e w s
  | .ipack e w => Sys2Proof.Machine.execIpack e w s
  | .iunpk e w => Sys2Proof.Machine.execIunpk e w s
  | .vperm e w => Sys2Proof.Machine.execVperm e w s
  | .sadd e w => Sys2Proof.Machine.execSadd e w s
  | .ssub e w => Sys2Proof.Machine.execSsub e w s
  | .smul e w => Sys2Proof.Machine.execSmul e w s
  | .sand e w => Sys2Proof.Machine.execSand e w s
  | .sor e w => Sys2Proof.Machine.execSor e w s
  | .sxor e w => Sys2Proof.Machine.execSxor e w s
  | .sshl e w => Sys2Proof.Machine.execSshl e w s
  | .sshr e w => Sys2Proof.Machine.execSshr e w s
  | .ssra e w => Sys2Proof.Machine.execSsra e w s
  | .sli e w => Sys2Proof.Machine.execSli e w s
  | .slui e w => Sys2Proof.Machine.execSlui e w s
  | .vbcs e w => Sys2Proof.Machine.execVbcs e w s
  | .vext e w => Sys2Proof.Machine.execVext e w s
  | .cvt e w => Sys2Proof.Machine.execCvt e w s
  | .amaxb e w => Sys2Proof.Machine.execAmaxb e w s
  | .amaxt e w => Sys2Proof.Machine.execAmaxt e w s
  | .sum e w => Sys2Proof.Machine.execSum e w s
  | .sgn e w => Sys2Proof.Machine.execSgn e w s
  | .tsgn e w => Sys2Proof.Machine.execTsgn e w s
  | .srnd e w => Sys2Proof.Machine.execSrnd e w s
  | .xred e w => Sys2Proof.Machine.execXred e w s
  | .flags e w => Sys2Proof.Machine.execFlags e w s
  | .pand e w => Sys2Proof.Machine.execPand e w s
  | .por e w => Sys2Proof.Machine.execPor e w s
  | .pxor e w => Sys2Proof.Machine.execPxor e w s
  | .pandn e w => Sys2Proof.Machine.execPandn e w s
  | .pset e w => Sys2Proof.Machine.execPset e w s
  | .pexp e w => Sys2Proof.Machine.execPexp e w s
  | .pcnt e w => Sys2Proof.Machine.execPcnt e w s
  | .gmax e w => Sys2Proof.Machine.execGmax e w s
  | .digestInit e w => Sys2Proof.Machine.execDigestInit e w s
  | .digestAdd e w => Sys2Proof.Machine.execDigestAdd e w s
  | .digestFinal e w => Sys2Proof.Machine.execDigestFinal e w s
  | .commit e w => Sys2Proof.Machine.execCommit e w s
  | .stageBarrierRelease v => Sys2Proof.Machine.execStageBarrierRelease v s
  | .tileAccept e => Sys2Proof.Machine.execTileAccept e s
  | .subtileDrain e k homeErr partnerErr => Sys2Proof.Machine.execSubtileDrain e k homeErr partnerErr s
  | .tileComplete e k => Sys2Proof.Machine.execTileComplete e k s
  | .captureComplete e k => Sys2Proof.Machine.execCaptureComplete e k s
  | .dmaTransferComplete e => Sys2Proof.Machine.execDmaTransferComplete e s
  | .layerGroupEntry v => Sys2Proof.Machine.execLayerGroupEntry v s
  | .layerGroupEnd v => Sys2Proof.Machine.execLayerGroupEnd v s
  | .replayStart v lostCycles => Sys2Proof.Machine.execReplayStart v lostCycles s
  | .clauseDelivery v backward => Sys2Proof.Machine.execClauseDelivery v backward s
  | .viewFill v backward glitch => Sys2Proof.Machine.execViewFill v backward glitch s
  | .pastEncode v => Sys2Proof.Machine.execPastEncode v s
  | .rebase v slot => Sys2Proof.Machine.execRebase v slot s
  | .spill v slot => Sys2Proof.Machine.execSpill v slot s
  | .shardSend v => Sys2Proof.Machine.execShardSend v s
  | .reducedShardComplete v => Sys2Proof.Machine.execReducedShardComplete v s
  | .updateStart v => Sys2Proof.Machine.execUpdateStart v s
  | .commitFinalPhase v => Sys2Proof.Machine.execCommitFinalPhase v s
  | .dataFrame p f => Sys2Proof.Machine.execDataFrame p f s
  | .clauseFrame p f => Sys2Proof.Machine.execClauseFrame p f s
  | .ackFrame p f => Sys2Proof.Machine.execAckFrame p f s
  | .nakFrame p f => Sys2Proof.Machine.execNakFrame p f s
  | .helloFrame p f => Sys2Proof.Machine.execHelloFrame p f s
  | .tenseReqFrame p f => Sys2Proof.Machine.execTenseReqFrame p f s
  | .tenseDataFrame p f => Sys2Proof.Machine.execTenseDataFrame p f s
  | .voteFrame p f => Sys2Proof.Machine.execVoteFrame p f s
  | .digestFrame p f => Sys2Proof.Machine.execDigestFrame p f s
  | .creditFrame p f => Sys2Proof.Machine.execCreditFrame p f s
  | .resendTimeout p => Sys2Proof.Machine.execResendTimeout p s
  | .retryWindowExpiry p => Sys2Proof.Machine.execRetryWindowExpiry p s
  | .retrainingAttemptEnd p ok signal => Sys2Proof.Machine.execRetrainingAttemptEnd p ok signal s
  | .portTrainingAttempt p signal ok => Sys2Proof.Machine.execPortTrainingAttempt p signal ok s
  | .helloTimer p => Sys2Proof.Machine.execHelloTimer p s
  | .ackTimer p => Sys2Proof.Machine.execAckTimer p s
  | .creditRepeatTimer p => Sys2Proof.Machine.execCreditRepeatTimer p s
  | .deliveryTimeout p k => Sys2Proof.Machine.execDeliveryTimeout p k s
  | .answerTimeout v backward => Sys2Proof.Machine.execAnswerTimeout v backward s
  | .phraseMessage src dst role addr data => Sys2Proof.Machine.execPhraseMessage src dst role addr data s
  | .phraseFlowControl die peer idx word => Sys2Proof.Machine.execPhraseFlowControl die peer idx word s
  | .phraseRetrain die peer idx => Sys2Proof.Machine.execPhraseRetrain die peer idx s
  | .phraseRetrainEnd die peer idx ok resends => Sys2Proof.Machine.execPhraseRetrainEnd die peer idx ok resends s
  | .dieLost d mask => Sys2Proof.Machine.execDieLost d mask s
  | .dieRejoin a tests => Sys2Proof.Machine.execDieRejoin a tests s
  | .appositionReadReq p m => Sys2Proof.Machine.execAppositionReadReq p m s
  | .appositionWrite p m => Sys2Proof.Machine.execAppositionWrite p m s
  | .appositionReadData p m => Sys2Proof.Machine.execAppositionReadData p m s
  | .appositionWriteAck p m => Sys2Proof.Machine.execAppositionWriteAck p m s
  | .appositionMailbox p m => Sys2Proof.Machine.execAppositionMailbox p m s
  | .appositionEvent p m => Sys2Proof.Machine.execAppositionEvent p m s
  | .appositionNak p m => Sys2Proof.Machine.execAppositionNak p m s
  | .appositionAck p m => Sys2Proof.Machine.execAppositionAck p m s
  | .appositionAckTimer p => Sys2Proof.Machine.execAppositionAckTimer p s
  | .appositionRetrain p ok => Sys2Proof.Machine.execAppositionRetrain p ok s
  | .guestDown p => Sys2Proof.Machine.execGuestDown p s
  | .guestUp p identity rate => Sys2Proof.Machine.execGuestUp p identity rate s
  | .nvmeReadCompletion ns place ok fatal => Sys2Proof.Machine.execNvmeReadCompletion ns place ok fatal s
  | .nvmeReadTimeout ns place => Sys2Proof.Machine.execNvmeReadTimeout ns place s
  | .clipDecode place desc r => Sys2Proof.Machine.execClipDecode place desc r s
  | .ingestPlace => Sys2Proof.Machine.execIngestPlace s
  | .ingestRejoin => Sys2Proof.Machine.execIngestRejoin s
  | .devInfo c => Sys2Proof.Machine.execDevInfo c s
  | .bringupAdvance c => Sys2Proof.Machine.execBringupAdvance c s
  | .lanePlanSet c => Sys2Proof.Machine.execLanePlanSet c s
  | .jobCreate c => Sys2Proof.Machine.execJobCreate c s
  | .stageLoad c img => Sys2Proof.Machine.execStageLoad c img s
  | .portRoleSet c => Sys2Proof.Machine.execPortRoleSet c s
  | .jobStart c => Sys2Proof.Machine.execJobStart c s
  | .jobPause c => Sys2Proof.Machine.execJobPause c s
  | .pauseComplete => Sys2Proof.Machine.execPauseComplete s
  | .jobResume c => Sys2Proof.Machine.execJobResume c s
  | .halt c => Sys2Proof.Machine.execHalt c s
  | .tenseConfig c => Sys2Proof.Machine.execTenseConfig c s
  | .tenseExport c => Sys2Proof.Machine.execTenseExport c s
  | .checkpoint c => Sys2Proof.Machine.execCheckpoint c s
  | .restore c => Sys2Proof.Machine.execRestore c s
  | .schedTableLoad c => Sys2Proof.Machine.execSchedTableLoad c s
  | .freezeMaskLoad c => Sys2Proof.Machine.execFreezeMaskLoad c s
  | .ruleLoad c => Sys2Proof.Machine.execRuleLoad c s
  | .ingestOpen c => Sys2Proof.Machine.execIngestOpen c s
  | .ingestEpoch c => Sys2Proof.Machine.execIngestEpoch c s
  | .ingestPosition c => Sys2Proof.Machine.execIngestPosition c s
  | .checkFractionSet c => Sys2Proof.Machine.execCheckFractionSet c s
  | .agreeIntervalSet c => Sys2Proof.Machine.execAgreeIntervalSet c s
  | .fieldTest c => Sys2Proof.Machine.execFieldTest c s
  | .bistRun c => Sys2Proof.Machine.execBistRun c s
  | .faultHistoryRead c => Sys2Proof.Machine.execFaultHistoryRead c s
  | .stageFlags c => Sys2Proof.Machine.execStageFlags c s
  | .numlogRead c => Sys2Proof.Machine.execNumlogRead c s
  | .captureRepeat k r => Sys2Proof.Machine.execCaptureRepeat k r s
  | .faultRecordWrite => Sys2Proof.Machine.execFaultRecordWrite s
  | .fenceGo => Sys2Proof.Machine.execFenceGo s
  | .fenceComplete => Sys2Proof.Machine.execFenceComplete s
  | .thermalSeenClear => Sys2Proof.Machine.execThermalSeenClear s
  | .bar2WindowWrite x => Sys2Proof.Machine.execBar2WindowWrite x s
  | .mailboxEnable m ctrl => Sys2Proof.Machine.execMailboxEnable m ctrl s
  | .mailboxDisable m ctrl => Sys2Proof.Machine.execMailboxDisable m ctrl s
  | .cmdTail m x wrote => Sys2Proof.Machine.execCmdTail m x wrote s
  | .cmpHead m x => Sys2Proof.Machine.execCmpHead m x s
  | .fwCtrlWrite p x => Sys2Proof.Machine.execFwCtrlWrite p x s
  | .registerWrite off x => Sys2Proof.Machine.execRegisterWrite off x s
  | .rcRegisterRead off => Sys2Proof.Machine.execRcRegisterRead off s
  | .bar2Read off len => Sys2Proof.Machine.execBar2Read off len s
  | .bar2Write off data poisoned => Sys2Proof.Machine.execBar2Write off data poisoned s
  | .hostDmaChunk engine waited => Sys2Proof.Machine.execHostDmaChunk engine waited s
  | .msiXCoalesceTimeout m => Sys2Proof.Machine.execMsiXCoalesceTimeout m s
  | .functionLevelReset => Sys2Proof.Machine.execFunctionLevelReset s
  | .hostReset perst => Sys2Proof.Machine.execHostReset perst s
  | .perstRelease => Sys2Proof.Machine.execPerstRelease s
  | .moduleReset => Sys2Proof.Machine.execModuleReset s
  | .moduleResetRelease => Sys2Proof.Machine.execModuleResetRelease s
  | .powerOn => Sys2Proof.Machine.execPowerOn s
  | .powerOff => Sys2Proof.Machine.execPowerOff s
  | .refclkLoss => Sys2Proof.Machine.execRefclkLoss s
  | .refclkReturn => Sys2Proof.Machine.execRefclkReturn s
  | .romEntry slotId => Sys2Proof.Machine.execRomEntry slotId s
  | .firmwareBoot => Sys2Proof.Machine.execFirmwareBoot s
  | .discovery answers badPhrases => Sys2Proof.Machine.execDiscovery answers badPhrases s
  | .reducedEntry tests => Sys2Proof.Machine.execReducedEntry tests s
  | .fullEntry tests => Sys2Proof.Machine.execFullEntry tests s
  | .parserWatchdogExpiry => Sys2Proof.Machine.execParserWatchdogExpiry s
  | .thermalSensorScan dies hbms => Sys2Proof.Machine.execThermalSensorScan dies hbms s
  | .thermLRelease => Sys2Proof.Machine.execThermLRelease s
  | .thermalClear => Sys2Proof.Machine.execThermalClear s
  | .regulatorOvertemp => Sys2Proof.Machine.execRegulatorOvertemp s
  | .park => Sys2Proof.Machine.execPark s
  | .mctpControlMessage code data => Sys2Proof.Machine.execMctpControlMessage code data s
  | .i3cAddressAssignment entdaa static addr => Sys2Proof.Machine.execI3cAddressAssignment entdaa static addr s
  | .managementMailboxMessage c => Sys2Proof.Machine.execManagementMailboxMessage c s
  | .getPdr => Sys2Proof.Machine.execGetPdr s
  | .platformEventResponse ok => Sys2Proof.Machine.execPlatformEventResponse ok s
  | .platformEventResendTimeout => Sys2Proof.Machine.execPlatformEventResendTimeout s
  | .requestUpdate => Sys2Proof.Machine.execRequestUpdate s
  | .firmwareDataTransfer component off data => Sys2Proof.Machine.execFirmwareDataTransfer component off data s
  | .verifyComplete => Sys2Proof.Machine.execVerifyComplete s
  | .activateFirmware component => Sys2Proof.Machine.execActivateFirmware component s
  | .getVersion doe => Sys2Proof.Machine.execGetVersion doe s
  | .getCapabilities doe caps => Sys2Proof.Machine.execGetCapabilities doe caps s
  | .negotiateAlgorithms doe sig hash => Sys2Proof.Machine.execNegotiateAlgorithms doe sig hash s
  | .getDigests doe => Sys2Proof.Machine.execGetDigests doe s
  | .getCertificate doe slot off len => Sys2Proof.Machine.execGetCertificate doe slot off len s
  | .challenge doe slot nonce => Sys2Proof.Machine.execChallenge doe slot nonce s
  | .getMeasurements doe index slot nonce => Sys2Proof.Machine.execGetMeasurements doe index slot nonce s
  | .eventStreamDatagram => Sys2Proof.Machine.execEventStreamDatagram s
  | .hubReset => Sys2Proof.Machine.execHubReset s
  | .fieldTestDone tests => Sys2Proof.Machine.execFieldTestDone tests s
  | .reducedServiceRestored => Sys2Proof.Machine.execReducedServiceRestored s
  | .pldmBaseRequest code data => Sys2Proof.Machine.execPldmBaseRequest code data s
  | .mctpMessageDrop type => Sys2Proof.Machine.execMctpMessageDrop type s
  | .spdmUnsupportedRequest doe code => Sys2Proof.Machine.execSpdmUnsupportedRequest doe code s
  | .doeDiscovery index => Sys2Proof.Machine.execDoeDiscovery index s
  | .arpRequest target sender mac => Sys2Proof.Machine.execArpRequest target sender mac s
  | .powerStateChange d3 => Sys2Proof.Machine.execPowerStateChange d3 s
  | .msiXUnmask v => Sys2Proof.Machine.execMsiXUnmask v s

end Sys2Proof.Machine
end

