-- ==== Sys2Proof/WellFormed.lean ====
section
/-!
DEFINITION. Sys2Proof/WellFormed.lean: the operands that a command can arrive with, checked command by command. A
meaning is total without it: what it refuses cannot reach the block.
-/
namespace Sys2Proof

/-- A frame carries at most 480 payload bytes (R338). -/
def Frame.wf (f : Frame) : Bool := decide (f.payload.length ≤ 480)

/-- An Apposition message carries whole data beats of 64 bytes, at most 64 of them (Table 12.10). -/
def AppMsg.wf (m : AppMsg) : Bool := decide (m.data.length % 64 = 0) && decide (m.data.length ≤ 4096)

/-- A payload of a command is at most as long as LENGTH says, which the device reads and no more (R368). -/
def Cmd.wf (c : Cmd) : Bool := decide (c.payload.length ≤ (c.entry.extractLsb' 192 32).toNat)

/-- Cell numbers of a stage lie on one die, in ascending order (R171). -/
def StageImage.wf (g : StageImage) : Bool :=
  (g.cells.all fun c => decide (c < 96)) && decide (g.cells.Pairwise (· < ·)) && decide (g.stage < 65536)

/-- Errors of the accumulators of one subtile: at most 128 by 128 of them (R73). -/
def errorsOk (xs : List W32) : Bool := decide (xs.length ≤ 16384)

/-- Can a command arrive with these operands? -/
def Instr.wf : Instr → Bool
  | .nop _ _ => true
  | .endRun _ _ => true
  | .br _ _ => true
  | .brc _ _ => true
  | .loop _ _ => true
  | .sync _ _ => true
  | .wait _ _ => true
  | .tileGo _ _ => true
  | .dmaGo _ _ => true
  | .clsTake _ _ => true
  | .clsPut _ _ => true
  | .vld _ _ => true
  | .vst _ _ => true
  | .vlds _ _ => true
  | .vsts _ _ => true
  | .sld _ _ => true
  | .sst _ _ => true
  | .pld _ _ => true
  | .pst _ _ => true
  | .fadd _ _ => true
  | .fsub _ _ => true
  | .fmul _ _ => true
  | .fma _ _ => true
  | .fmin _ _ => true
  | .fmax _ _ => true
  | .fdiv _ _ => true
  | .fsqrt _ _ => true
  | .frsq _ _ => true
  | .fexp2 _ _ => true
  | .flog2 _ _ => true
  | .fcospi _ _ => true
  | .fabs _ _ => true
  | .fneg _ _ => true
  | .fcmp _ _ => true
  | .fsel _ _ => true
  | .iadd _ _ => true
  | .isub _ _ => true
  | .imul _ _ => true
  | .iand _ _ => true
  | .ior _ _ => true
  | .ixor _ _ => true
  | .ishl _ _ => true
  | .ishr _ _ => true
  | .isra _ _ => true
  | .imin _ _ => true
  | .imax _ _ => true
  | .icmp _ _ => true
  | .ipack _ _ => true
  | .iunpk _ _ => true
  | .vperm _ _ => true
  | .sadd _ _ => true
  | .ssub _ _ => true
  | .smul _ _ => true
  | .sand _ _ => true
  | .sor _ _ => true
  | .sxor _ _ => true
  | .sshl _ _ => true
  | .sshr _ _ => true
  | .ssra _ _ => true
  | .sli _ _ => true
  | .slui _ _ => true
  | .vbcs _ _ => true
  | .vext _ _ => true
  | .cvt _ _ => true
  | .amaxb _ _ => true
  | .amaxt _ _ => true
  | .sum _ _ => true
  | .sgn _ _ => true
  | .tsgn _ _ => true
  | .srnd _ _ => true
  | .xred _ _ => true
  | .flags _ _ => true
  | .pand _ _ => true
  | .por _ _ => true
  | .pxor _ _ => true
  | .pandn _ _ => true
  | .pset _ _ => true
  | .pexp _ _ => true
  | .pcnt _ _ => true
  | .gmax _ _ => true
  | .digestInit _ _ => true
  | .digestAdd _ _ => true
  | .digestFinal _ _ => true
  | .commit _ _ => true
  | .stageBarrierRelease _ => true
  | .tileAccept _ => true
  | .subtileDrain _ _ h p => errorsOk h && errorsOk p
  | .tileComplete _ _ => true
  | .captureComplete _ _ => true
  | .dmaTransferComplete _ => true
  | .layerGroupEntry _ => true
  | .layerGroupEnd _ => true
  | .replayStart _ _ => true
  | .clauseDelivery _ _ => true
  | .viewFill _ _ _ => true
  | .pastEncode _ => true
  | .rebase _ _ => true
  | .spill _ _ => true
  | .shardSend _ => true
  | .reducedShardComplete _ => true
  | .updateStart _ => true
  | .commitFinalPhase _ => true
  | .dataFrame _ f => f.wf
  | .clauseFrame _ f => f.wf
  | .ackFrame _ f => f.wf
  | .nakFrame _ f => f.wf
  | .helloFrame _ f => f.wf
  | .tenseReqFrame _ f => f.wf
  | .tenseDataFrame _ f => f.wf
  | .voteFrame _ f => f.wf
  | .digestFrame _ f => f.wf
  | .creditFrame _ f => f.wf
  | .resendTimeout _ => true
  | .retryWindowExpiry _ => true
  | .retrainingAttemptEnd _ _ _ => true
  | .portTrainingAttempt _ _ _ => true
  | .helloTimer _ => true
  | .ackTimer _ => true
  | .creditRepeatTimer _ => true
  | .deliveryTimeout _ _ => true
  | .answerTimeout _ _ => true
  | .phraseMessage _ _ _ _ m => decide (m.data.length ≤ 4096)
  | .phraseFlowControl _ _ _ _ => true
  | .phraseRetrain _ _ _ => true
  | .phraseRetrainEnd _ _ _ _ _ => true
  | .dieLost _ _ => true
  | .dieRejoin _ _ => true
  | .appositionReadReq _ m => m.wf
  | .appositionWrite _ m => m.wf
  | .appositionReadData _ m => m.wf
  | .appositionWriteAck _ m => m.wf
  | .appositionMailbox _ m => m.wf
  | .appositionEvent _ m => m.wf
  | .appositionNak _ m => m.wf
  | .appositionAck _ m => m.wf
  | .appositionAckTimer _ => true
  | .appositionRetrain _ _ => true
  | .guestDown _ => true
  | .guestUp _ _ _ => true
  | .nvmeReadCompletion _ _ _ _ => true
  | .nvmeReadTimeout _ _ => true
  | .clipDecode _ _ _ => true
  | .ingestPlace => true
  | .ingestRejoin => true
  | .devInfo c => c.wf
  | .bringupAdvance c => c.wf
  | .lanePlanSet c => c.wf
  | .jobCreate c => c.wf
  | .stageLoad c g => c.wf && g.wf
  | .portRoleSet c => c.wf
  | .jobStart c => c.wf
  | .jobPause c => c.wf
  | .pauseComplete => true
  | .jobResume c => c.wf
  | .halt c => c.wf
  | .tenseConfig c => c.wf
  | .tenseExport c => c.wf
  | .checkpoint c => c.wf
  | .restore c => c.wf
  | .schedTableLoad c => c.wf
  | .freezeMaskLoad c => c.wf
  | .ruleLoad c => c.wf
  | .ingestOpen c => c.wf
  | .ingestEpoch c => c.wf
  | .ingestPosition c => c.wf
  | .checkFractionSet c => c.wf
  | .agreeIntervalSet c => c.wf
  | .fieldTest c => c.wf
  | .bistRun c => c.wf
  | .faultHistoryRead c => c.wf
  | .stageFlags c => c.wf
  | .numlogRead c => c.wf
  | .captureRepeat _ r =>
    errorsOk r.home && errorsOk r.partner && errorsOk r.arbiter && errorsOk r.homeAgain && errorsOk r.partnerAgain
  | .faultRecordWrite => true
  | .fenceGo => true
  | .fenceComplete => true
  | .thermalSeenClear => true
  | .bar2WindowWrite _ => true
  | .mailboxEnable _ _ => true
  | .mailboxDisable _ _ => true
  | .cmdTail _ _ ws => ws.all fun w => decide (w.1.toNat + w.2.length ≤ 2 ^ 64)
  | .cmpHead _ _ => true
  | .fwCtrlWrite _ _ => true
  | .registerWrite _ _ => true
  | .rcRegisterRead _ => true
  | .bar2Read o n => decide (1 ≤ n ∧ n ≤ 4096) && decide (o.toNat + n ≤ 2 ^ 36)
  | .bar2Write o d _ => decide (1 ≤ d.length ∧ d.length ≤ 512) && decide (o.toNat + d.length ≤ 2 ^ 36)
  | .hostDmaChunk _ _ => true
  | .msiXCoalesceTimeout _ => true
  | .functionLevelReset => true
  | .hostReset _ => true
  | .perstRelease => true
  | .moduleReset => true
  | .moduleResetRelease => true
  | .powerOn => true
  | .powerOff => true
  | .refclkLoss => true
  | .refclkReturn => true
  | .romEntry _ => true
  | .firmwareBoot => true
  | .discovery as _ => (as.map (·.die)).eraseDups.length == as.length
  | .reducedEntry _ => true
  | .fullEntry _ => true
  | .parserWatchdogExpiry => true
  | .thermalSensorScan ds ss => ds.length == 6 && ss.length == 12
  | .thermLRelease => true
  | .thermalClear => true
  | .regulatorOvertemp => true
  | .park => true
  | .mctpControlMessage _ _ => true
  | .i3cAddressAssignment _ _ _ => true
  | .managementMailboxMessage c => c.wf
  | .getPdr => true
  | .platformEventResponse _ => true
  | .platformEventResendTimeout => true
  | .requestUpdate => true
  | .firmwareDataTransfer _ o d => decide (o + d.length ≤ 2 ^ 32)
  | .verifyComplete => true
  | .activateFirmware _ => true
  | .getVersion _ => true
  | .getCapabilities _ _ => true
  | .negotiateAlgorithms _ _ _ => true
  | .getDigests _ => true
  | .getCertificate _ _ _ _ => true
  | .challenge _ _ n => n.length == 32
  | .getMeasurements _ _ _ n => n.length == 32 || n.isEmpty
  | .eventStreamDatagram => true
  | .hubReset => true
  | .fieldTestDone _ => true
  | .reducedServiceRestored => true
  | .pldmBaseRequest _ _ => true
  | .mctpMessageDrop _ => true
  | .spdmUnsupportedRequest _ _ => true
  | .doeDiscovery _ => true
  | .arpRequest _ _ mac => mac.length == 6
  | .powerStateChange _ => true
  | .msiXUnmask _ => true

end Sys2Proof
end

