-- ==== Sys2Proof/Safety.lean ====
section
/-!
DEFINITION. Sys2Proof/Safety.lean: the terms that claims use: the invariant of the block, when a vector engine can issue
an instruction, and what a part of the block may change (the frames).
-/
namespace Sys2Proof.Machine

/-! ### The invariant -/

/-- What holds of every state that the block can be in, whatever it has been told: the memories keep their one canonical
form, BRINGUP.STATE and the job state hold codes that Table 16.1 and Table 14.8 list, and SERVICE is the one that the
bring-up state and OUT_OF_SERVICE give. -/
def Inv (s : State) : Prop :=
  Memory.wf s.mem = true ∧ Memory.wf s.hostMem = true ∧ s.chip.bringup ≤ 5 ∧
    s.chip.service = serviceOf s.chip.outOfService s.chip.bringup ∧ s.job.state ≤ 4

/-- What a step may not undo: the queue behind the command stands, the fused SVN does not fall (R401), and the invariant
holds. -/
def Keep (q : List Instr) (n : Nat) (s : State) : Prop :=
  s.pending = q ∧ n ≤ s.flash.svn ∧ Inv s

/-! ### Frames -/

/-- `t` differs from `s` at most where raising an event acts: the event counters, the host and guest mailboxes, the
management queues, and what has been sent (R271). -/
def EventOnly (s t : State) : Prop :=
  t = { s with evSeq := t.evSeq, host := t.host, hostMem := t.hostMem, mgmt := t.mgmt, appo := t.appo, sent := t.sent }

/-- `t` differs from `s` at most where raising an event and halting a stage act (R374). -/
def HaltOnly (s t : State) : Prop :=
  t = { s with evSeq := t.evSeq, host := t.host, hostMem := t.hostMem, mgmt := t.mgmt, appo := t.appo, sent := t.sent
               engines := t.engines, stages := t.stages }

/-- `t` differs from `s` only in virtual stage `v`, which is `g` now. -/
def OnlyStage (v : Nat) (g : Stage) (s t : State) : Prop :=
  t = { s with stages := t.stages } ∧ t.stage v = g ∧ ∀ u, u ≠ v → t.stage u = s.stage u

/-- `t` differs from `s` only in engine `k`, which is `r` now. -/
def OnlyEng (k : Nat) (r : EngineState) (s t : State) : Prop :=
  t = { s with engines := t.engines } ∧ t.eng k = r ∧ ∀ i, i ≠ k → t.eng i = s.eng i

/-- `t` differs from `s` only in Conjunction port `p`, which is `q` now. -/
def OnlyPort (p : Nat) (q : Port) (s t : State) : Prop :=
  t = { s with ports := t.ports } ∧ t.port p = q ∧ ∀ i, i ≠ p → t.port i = s.port i

/-- `t` differs from `s` only in Apposition port `p`, which is `a` now. -/
def OnlyAp (p : Nat) (a : Appo) (s t : State) : Prop :=
  t = { s with appo := t.appo } ∧ t.ap p = a ∧ ∀ i, i ≠ p → t.ap i = s.ap i

/-- Registers of an engine: all but vector register `d`, its parity mark and the vector flags are as before. -/
def VecFrame (d : Nat) (r r' : EngineState) : Prop :=
  r' = { r with vregs := r'.vregs, vflags := r'.vflags, badRegs := r'.badRegs } ∧
    r'.badRegs = r.badRegs.filter (· != d) ∧ ∀ i, i ≠ d → r'.rv i = r.rv i

/-- All but scalar register `d` and the vector flags are as before; s0 reads 0 whatever is written to it. -/
def ScalFrame (d : Nat) (r r' : EngineState) : Prop :=
  r' = { r with sregs := r'.sregs, vflags := r'.vflags } ∧ ∀ i, i ≠ d → r'.rs i = r.rs i

/-- All but predicate register `d` is as before; p0 reads all ones whatever is written to it. -/
def PredFrame (k d : Nat) (r r' : EngineState) : Prop :=
  r' = { r with pregs := r'.pregs } ∧ ∀ i, i ≠ d → r'.rp k i = r.rp k i

/-- Element `j` of VD and the vector flags after a lane-wise instruction whose element operation is `f`, of width `wd`:
active elements take `f j`, inactive ones keep their values and raise no flag (R139). -/
def LaneResult (k : Nat) (w : VFields) (wd : Nat) (f : Nat → Nat × Fl) (r r' : EngineState) : Prop :=
  (∀ j, j < elemsOf k wd → elemAt wd (r'.rv w.vd.toNat) j =
    if onElem (r.mask k w) wd j then (f j).1 % 2 ^ wd else elemAt wd (r.rv w.vd.toNat) j) ∧
  (∀ b, b < 4 → (r'.vflags.getLsbD b = true ↔ r.vflags.getLsbD b = true ∨
    ∃ j, j < elemsOf k wd ∧ onElem (r.mask k w) wd j = true ∧ (f j).2.testBit b = true))

/-! ### Frames and commands that are accepted -/

/-- Table 13.5a finds nothing wrong with a frame on port `p`: the port is UP, the CRC matches, a sequenced frame is the
next one, and neither its JOB nor a protocol rule refuses it. -/
def FrameOk (p : Nat) (f : Sys2Proof.Frame) (s : State) : Prop :=
  (s.port p).state = 2 ∧ frameCrc f.header f.payload = hCrc f.header ∧
    (sequenced (hType f.header) = true → hSeq f.header = (s.port p).expected) ∧ hJob f.header = s.portJob p ∧
    protoBad (s.port p).role f.header = false

/-- The port's part of accepting a frame (R341, R343): what it acknowledges leaves, and a sequenced frame is expected next,
has freed its buffer, and counts unless it is for a stage that the module has not. -/
def linkIn (p : Nat) (f : Sys2Proof.Frame) (s : State) : State :=
  let s := takeAck p (hAck f.header) s
  let s := if sequenced (hType f.header) then acceptSeq p f.header s else s
  if sequenced (hType f.header) && !s.strayStage p f.header then s.updPort p fun q => q.count 1 1 else s

/-- The command entry `c` is its row's, the Parser can take it, and no check of R369 refuses it. -/
def Accepted (c : Cmd) (p : CmdSpec) (s : State) : Prop :=
  c.opcode = p.opcode ∧ canTake s c p.control = true ∧ commonCheck (takeEntry c s) c p = none

/-- The command completes with ST_OK, this RESULT and response, from state `t`. -/
def Answers (i : Instr) (c : Cmd) (s : State) (result resp : List Byte) (t : State) : Prop :=
  exec i s = .next (complete c.mb c.opcode c.id c.respAddr stOk result resp t)

/-- The command goes on from state `t`, and completes later. -/
def GoesOn (i : Instr) (c : Cmd) (s t : State) : Prop :=
  exec i s = .next { t with running := t.running ++ [runningOf c] }

/-! ### Issuing (R137, R140, R149) -/

/-- Engine `e` issues instruction `op` with fields `w`: it runs, the word at its instruction index spells them and was
admitted at load (R1, R140), and neither that word nor a source register is in error (R36, R149). -/
def CanIssue (e : Engine) (op : Nat) (w : VFields) (s : State) : Prop :=
  s.issuing (engKey e) = true ∧ s.fetches (engKey e) op w = true ∧
    s.badWords.contains (s.instrAddr (engKey e) (s.eng (engKey e)).pc) = false ∧
    ((vectorSources op w).find? fun r => (s.eng (engKey e)).badRegs.contains r) = none

/-- Control of engine `k` may pass to instruction `t` without meeting a layer group's boundary: it stays inside the
variant that the engine executes, or outside every group (R121). -/
def PlainTarget (k t : Nat) (s : State) : Prop :=
  match s.inGroup k with
  | some (_, lo, hi) => lo ≤ t ∧ t ≤ hi
  | none => isInflector k = true ∨
      ∃ v, s.stageOfCell k = some v ∧ (s.stage v).entryAt t = none ∧ (s.stage v).inAnyRange t = false

/-- The loops that act on an engine's control: inside a layer group only those that it started there (R121, R162). -/
def activeLoops (k : Nat) (s : State) : List LoopFrame :=
  match s.inGroup k with
  | none => (s.eng k).loops
  | some _ => (s.eng k).innerLoops

/-- Every access of a list is aligned and admitted for engine `k` (R32, R33, R36, R145). -/
def AccessesOk (s : State) (k align : Nat) (write : Bool) (xs : List (Nat × Nat)) : Prop :=
  ∀ x ∈ xs, x.1 % align = 0 ∧ checkAccess s k (engReach k) x.1 x.2 write = .ok

/-- The instruction completes: its engine's registers become `r`, and the engine goes on to the next instruction. -/
def Completes (e : Engine) (i : Instr) (s : State) (r : EngineState) : Prop :=
  exec i s = .next (advance (engKey e) (s.updEng (engKey e) fun _ => r))

end Sys2Proof.Machine
end

