-- ==== Sys2Proof/Certificates/Slice0/Obligations.lean ====
section
/-!
DEFINITION. Sys2Proof/Certificates/Slice0/Obligations.lean: the statements for the provers, in the order of
OBLIGATIONS.json.
-/
namespace Sys2Proof.Machine

/-! ### Tables of rows of one shape -/

/-- Lane-wise operations of two floating-point registers (R142, R143). -/
def float2Rows : List (Nat × (FloatFmt → Nat → Nat → Nat × Fl) × (Engine → VFields → Instr)) :=
  [(0x20, fpAdd, .fadd), (0x21, fpSub, .fsub), (0x22, fpMul, .fmul),
   (0x24, fun F a b => (fpMinMax F false a b, 0), .fmin), (0x25, fun F a b => (fpMinMax F true a b, 0), .fmax),
   (0x26, fpDiv, .fdiv)]

/-- Lane-wise operations of one floating-point register (R142, R159). -/
def float1Rows : List (Nat × (FloatFmt → Nat → Nat × Fl) × (Engine → VFields → Instr)) :=
  [(0x27, fpSqrt, .fsqrt), (0x28, fpRsqrt, .frsq), (0x29, fpExp2, .fexp2), (0x2A, fpLog2, .flog2),
   (0x2B, fpCospi, .fcospi), (0x2C, fun F a => (fpAbs F a, 0), .fabs), (0x2D, fun F a => (fpNeg F a, 0), .fneg),
   (0x54, fun F a => (fpSgn F a, 0), .sgn)]

/-- Lane-wise 32-bit integer operations (R144). -/
def int2Rows : List (Nat × (W32 → W32 → W32) × (Engine → VFields → Instr)) :=
  [(0x30, fun a b => a + b, .iadd), (0x31, fun a b => a - b, .isub), (0x32, fun a b => a * b, .imul),
   (0x33, fun a b => a &&& b, .iand), (0x34, fun a b => a ||| b, .ior), (0x35, fun a b => a ^^^ b, .ixor),
   (0x36, fun a b => a <<< (b.toNat % 32), .ishl), (0x37, fun a b => a >>> (b.toNat % 32), .ishr),
   (0x38, fun a b => a.sshiftRight (b.toNat % 32), .isra), (0x39, fun a b => if BitVec.sle a b then a else b, .imin),
   (0x3A, fun a b => if BitVec.sle a b then b else a, .imax)]

/-- 64-bit scalar operations (R144). -/
def scalar2Rows : List (Nat × (W64 → W64 → W64) × (Engine → VFields → Instr)) :=
  [(0x40, fun a b => a + b, .sadd), (0x41, fun a b => a - b, .ssub), (0x42, fun a b => a * b, .smul),
   (0x43, fun a b => a &&& b, .sand), (0x44, fun a b => a ||| b, .sor), (0x45, fun a b => a ^^^ b, .sxor),
   (0x46, fun a b => a <<< (b.toNat % 64), .sshl), (0x47, fun a b => a >>> (b.toNat % 64), .sshr),
   (0x48, fun a b => a.sshiftRight (b.toNat % 64), .ssra)]

/-- Predicate operations of two registers, on one lane (Table 6.4). -/
def pred2Rows : List (Nat × (Bool → Bool → Bool) × (Engine → VFields → Instr)) :=
  [(0x60, fun a b => a && b, .pand), (0x61, fun a b => a || b, .por), (0x62, fun a b => a != b, .pxor),
   (0x63, fun a b => a && !b, .pandn)]

/-- The rows of Conjunction frames that Table 13.5a checks, with the frame types that each row takes. -/
def frameRows : List (List Nat × (Fin 8 → Frame → Instr)) :=
  [([1, 0, 11, 12, 13, 14, 15], .dataFrame), ([2], .clauseFrame), ([3], .ackFrame), ([4], .nakFrame),
   ([6], .tenseReqFrame), ([7], .tenseDataFrame), ([8], .voteFrame), ([9], .digestFrame), ([10], .creditFrame)]

/-- The rows of mailbox commands: what Table 14.9 fixes for each, and the command. -/
def cmdRows : List ((Cmd → State → CmdSpec) × (Cmd → Instr)) :=
  [(fun c _ => devInfoSpec c, .devInfo), (fun _ _ => advanceSpec, .bringupAdvance), (fun c _ => lanePlanSpec c, .lanePlanSet),
   (fun _ _ => jobCreateSpec, .jobCreate), (fun c _ => portRoleSpec c, .portRoleSet), (fun _ _ => jobStartSpec, .jobStart),
   (fun _ _ => jobPauseSpec, .jobPause), (fun _ _ => jobResumeSpec, .jobResume), (fun _ _ => haltSpec, .halt),
   (fun _ _ => tenseConfigSpec, .tenseConfig), (fun _ _ => checkpointSpec, .checkpoint), (fun _ _ => restoreSpec, .restore),
   (fun c _ => tableSpec c 0x30 1040, .schedTableLoad), (fun c _ => tableSpec c 0x31 16777216, .freezeMaskLoad),
   (fun c s => ruleLoadSpec c s, .ruleLoad), (fun _ _ => ingestOpenSpec, .ingestOpen),
   (fun _ _ => ingestEpochSpec, .ingestEpoch), (fun c s => ingestPositionSpec c s, .ingestPosition),
   (fun _ _ => checkFractionSpec, .checkFractionSet), (fun _ _ => agreeSpec, .agreeIntervalSet),
   (fun _ _ => fieldTestSpec, .fieldTest), (fun _ _ => bistSpec, .bistRun), (fun _ _ => historySpec, .faultHistoryRead),
   (fun _ _ => stageFlagsSpec, .stageFlags), (fun _ _ => numlogSpec, .numlogRead)]

end Sys2Proof.Machine

open Sys2Proof Sys2Proof.Machine

/-- FADD, FSUB, FMUL, FMIN, FMAX, FDIV, the rows of one operand and FMA complete: lane by lane the operation of the row in
the format of FORMAT, inactive lanes kept, flags of active lanes set; every other register, the array flags and
everything outside the engine stand (R139, R142, R143). -/
def Obligations.LaneFloat : Prop :=
  (∀ x ∈ float2Rows, ∀ (e : Engine) (w : VFields) (s : State), CanIssue e x.1 w s →
     ∃ r, Completes e (x.2.2 e w) s r ∧ VecFrame w.vd.toNat (s.eng (engKey e)) r ∧
       LaneResult (engKey e) w (laneFloat w).width (fun j => x.2.1 (laneFloat w)
         (elemAt (laneFloat w).width ((s.eng (engKey e)).rv w.va.toNat) j)
         (elemAt (laneFloat w).width ((s.eng (engKey e)).rv w.vb.toNat) j)) (s.eng (engKey e)) r) ∧
  ((∀ x ∈ float1Rows, ∀ (e : Engine) (w : VFields) (s : State), CanIssue e x.1 w s →
     ∃ r, Completes e (x.2.2 e w) s r ∧ VecFrame w.vd.toNat (s.eng (engKey e)) r ∧
       LaneResult (engKey e) w (laneFloat w).width (fun j => x.2.1 (laneFloat w)
         (elemAt (laneFloat w).width ((s.eng (engKey e)).rv w.va.toNat) j)) (s.eng (engKey e)) r) ∧
   (∀ (e : Engine) (w : VFields) (s : State), CanIssue e 0x23 w s →
     ∃ r, Completes e (.fma e w) s r ∧ VecFrame w.vd.toNat (s.eng (engKey e)) r ∧
       LaneResult (engKey e) w (laneFloat w).width (fun j => fpFma (laneFloat w)
         (elemAt (laneFloat w).width ((s.eng (engKey e)).rv w.va.toNat) j)
         (elemAt (laneFloat w).width ((s.eng (engKey e)).rv w.vb.toNat) j)
         (elemAt (laneFloat w).width ((s.eng (engKey e)).rv w.vc.toNat) j)) (s.eng (engKey e)) r))

/-- SGN writes +1.0 for a positive element and −1.0 for a negative one, +0 for a zero and the canonical NaN for a NaN, and
sets no flag (R159). TSGN's unpack mode reads T2 codes at PART; its pack mode writes them there, a NaN as 0b00 with
V_NV (R160). -/
def Obligations.SgnAndTsgn : Prop :=
  (∀ (e : Engine) (w : VFields) (s : State), CanIssue e 0x54 w s →
    let F := laneFloat w
    let one := F.bias * 2 ^ F.mb
    decodeF F one = .fin false (2 ^ F.mb) (-(F.mb : Int)) ∧
    ∃ r, Completes e (.sgn e w) s r ∧ VecFrame w.vd.toNat (s.eng (engKey e)) r ∧
      r.vflags = (s.eng (engKey e)).vflags ∧
      ∀ j, j < elemsOf (engKey e) F.width → elemAt F.width (r.rv w.vd.toNat) j =
        if onElem ((s.eng (engKey e)).mask (engKey e) w) F.width j then
          match decodeF F (elemAt F.width ((s.eng (engKey e)).rv w.va.toNat) j) with
          | .nan => F.qnan
          | .inf neg => if neg then F.signBit true + one else one
          | .fin neg m _ => if m = 0 then 0 else if neg then F.signBit true + one else one
        else elemAt F.width ((s.eng (engKey e)).rv w.vd.toNat) j) ∧
  (∀ (e : Engine) (w : VFields) (s : State), CanIssue e 0x55 w s → bitAt w.mode.toNat 0 = true →
    ∃ r, Completes e (.tsgn e w) s r ∧ VecFrame w.vd.toNat (s.eng (engKey e)) r ∧
      LaneResult (engKey e) w (laneFloat w).width (fun j =>
        match elemAt 2 ((s.eng (engKey e)).rv w.va.toNat) (fPart w * elemsOf (engKey e) (laneFloat w).width + j) with
        | 0 => (0, 0)
        | 1 => ((laneFloat w).bias * 2 ^ (laneFloat w).mb, 0)
        | 3 => ((laneFloat w).signBit true + (laneFloat w).bias * 2 ^ (laneFloat w).mb, 0)
        | _ => ((laneFloat w).qnan, flNV)) (s.eng (engKey e)) r) ∧
  (∀ (e : Engine) (w : VFields) (s : State), CanIssue e 0x55 w s → bitAt w.mode.toNat 0 = false →
    ∃ r, Completes e (.tsgn e w) s r ∧ VecFrame w.vd.toNat (s.eng (engKey e)) r ∧
      let F := laneFloat w
      let n := elemsOf (engKey e) F.width
      let on (j : Nat) := onElem ((s.eng (engKey e)).mask (engKey e) w) F.width j
      let a (j : Nat) := decodeF F (elemAt F.width ((s.eng (engKey e)).rv w.va.toNat) j)
      (∀ j, j < n → elemAt 2 (r.rv w.vd.toNat) (fPart w * n + j) =
        if on j then
          match a j with
          | .nan => 0
          | .inf neg => if neg then 3 else 1
          | .fin neg m _ => if m = 0 then 0 else if neg then 3 else 1
        else elemAt 2 ((s.eng (engKey e)).rv w.vd.toNat) (fPart w * n + j)) ∧
      (∀ j, j < elemsOf (engKey e) 2 → (j < fPart w * n ∨ (fPart w + 1) * n ≤ j) →
        elemAt 2 (r.rv w.vd.toNat) j = elemAt 2 ((s.eng (engKey e)).rv w.vd.toNat) j) ∧
      (∀ b, b < 3 → r.vflags.getLsbD b = (s.eng (engKey e)).vflags.getLsbD b) ∧
      (r.vflags.getLsbD 3 = true ↔ (s.eng (engKey e)).vflags.getLsbD 3 = true ∨ ∃ j, j < n ∧ on j = true ∧ a j = .nan))

/-- The integer and scalar rows complete: lane by lane, or in s[VD], the wrapping result, with IMM sign-extended in the
immediate form; shifts fill with zeros or copies of the sign and take their count modulo the width; no flag changes
(R144). VPERM, IUNPK, IPACK, VBCS, FSEL, SLI, SLUI, VEXT and PCNT as Table 6.4 states; a write to s0 is discarded
(R136, R139, R141). That IPACK writes 0 for an inactive lane is the model's choice (log 126). -/
def Obligations.IntegerAndScalar : Prop :=
  (∀ x ∈ int2Rows, ∀ (e : Engine) (w : VFields) (s : State), CanIssue e x.1 w s →
     ∃ r, Completes e (x.2.2 e w) s r ∧ VecFrame w.vd.toNat (s.eng (engKey e)) r ∧
       r.vflags = (s.eng (engKey e)).vflags ∧
       LaneResult (engKey e) w 32 (fun i => ((x.2.1
         (BitVec.ofNat 32 (elemAt 32 ((s.eng (engKey e)).rv w.va.toNat) i))
         (if bitAt w.mode.toNat 0 then BitVec.signExtend 32 w.imm
          else BitVec.ofNat 32 (elemAt 32 ((s.eng (engKey e)).rv w.vb.toNat) i))).toNat, 0)) (s.eng (engKey e)) r) ∧
  ((∀ (e : Engine) (w : VFields) (s : State), CanIssue e 0x3E w s →
     ∃ r, Completes e (.vperm e w) s r ∧ VecFrame w.vd.toNat (s.eng (engKey e)) r ∧
       LaneResult (engKey e) w 32 (fun i => (elemAt 32 ((s.eng (engKey e)).rv w.va.toNat)
         (elemAt 32 ((s.eng (engKey e)).rv w.vb.toNat) i % lanesOf (engKey e)), 0)) (s.eng (engKey e)) r) ∧
   (∀ (e : Engine) (w : VFields) (s : State), CanIssue e 0x3D w s →
     ∃ r, Completes e (.iunpk e w) s r ∧ VecFrame w.vd.toNat (s.eng (engKey e)) r ∧
       LaneResult (engKey e) w 32 (fun i =>
         let wd := if bitAt w.mode.toNat 0 then 16 else 8
         let x := elemAt wd ((s.eng (engKey e)).rv w.va.toNat) (fPart w * lanesOf (engKey e) + i)
         (if bitAt w.mode.toNat 1 then x else lowBits 32 (signed wd x), 0)) (s.eng (engKey e)) r) ∧
   (∀ (e : Engine) (w : VFields) (s : State), CanIssue e 0x4B w s →
     ∃ r, Completes e (.vbcs e w) s r ∧ VecFrame w.vd.toNat (s.eng (engKey e)) r ∧
       LaneResult (engKey e) w (fmtWidth w.fmt.toNat) (fun _ => (((s.eng (engKey e)).rs w.va.toNat).toNat, 0))
         (s.eng (engKey e)) r) ∧
   (∀ (e : Engine) (w : VFields) (s : State), CanIssue e 0x2F w s →
     ∃ r, Completes e (.fsel e w) s r ∧ VecFrame w.vd.toNat (s.eng (engKey e)) r ∧
       r.vflags = (s.eng (engKey e)).vflags ∧
       ∀ j, j < elemsOf (engKey e) (fmtWidth w.fmt.toNat) → elemAt (fmtWidth w.fmt.toNat) (r.rv w.vd.toNat) j =
         elemAt (fmtWidth w.fmt.toNat) ((s.eng (engKey e)).rv
           (if onElem ((s.eng (engKey e)).mask (engKey e) w) (fmtWidth w.fmt.toNat) j then w.va else w.vb).toNat) j) ∧
   (∀ (e : Engine) (w : VFields) (s : State), CanIssue e 0x3C w s →
     ∃ r, Completes e (.ipack e w) s r ∧ VecFrame w.vd.toNat (s.eng (engKey e)) r ∧
       r.vflags = (s.eng (engKey e)).vflags ∧
       let wd := if bitAt w.mode.toNat 0 then 16 else 8
       let n := lanesOf (engKey e)
       ∀ j, j < 32 * n / wd → elemAt wd (r.rv w.vd.toNat) j =
         if fPart w * n ≤ j ∧ j < (fPart w + 1) * n then
           (if ((s.eng (engKey e)).mask (engKey e) w).testBit (j - fPart w * n) then
             elemAt 32 ((s.eng (engKey e)).rv w.va.toNat) (j - fPart w * n) % 2 ^ wd else 0)
         else elemAt wd ((s.eng (engKey e)).rv w.vd.toNat) j)) ∧
  ((∀ x ∈ scalar2Rows, ∀ (e : Engine) (w : VFields) (s : State), CanIssue e x.1 w s →
     ∃ r, Completes e (x.2.2 e w) s r ∧ ScalFrame w.vd.toNat (s.eng (engKey e)) r ∧
       r.vflags = (s.eng (engKey e)).vflags ∧
       r.rs w.vd.toNat = if w.vd.toNat = 0 then 0 else x.2.1 ((s.eng (engKey e)).rs w.va.toNat)
         (if bitAt w.mode.toNat 0 then BitVec.signExtend 64 w.imm else (s.eng (engKey e)).rs w.vb.toNat)) ∧
   (∀ (e : Engine) (w : VFields) (s : State) (i : Instr) (x : W64),
     (CanIssue e 0x49 w s ∧ i = .sli e w ∧ x = BitVec.signExtend 64 w.imm ∨
      CanIssue e 0x4A w s ∧ i = .slui e w ∧
        x = ((s.eng (engKey e)).rs w.vd.toNat <<< 24) ||| BitVec.setWidth 64 w.imm ∨
      CanIssue e 0x4C w s ∧ i = .vext e w ∧
        x = BitVec.ofNat 64 (elemAt 32 ((s.eng (engKey e)).rv w.va.toNat) w.imm.toNat) ∨
      CanIssue e 0x66 w s ∧ i = .pcnt e w ∧
        x = BitVec.ofNat 64 ((List.range (lanesOf (engKey e))).countP fun j =>
          ((s.eng (engKey e)).rp (engKey e) w.va.toNat).testBit j)) →
     ∃ r, Completes e i s r ∧ ScalFrame w.vd.toNat (s.eng (engKey e)) r ∧
       r.vflags = (s.eng (engKey e)).vflags ∧ r.rs w.vd.toNat = if w.vd.toNat = 0 then 0 else x)) ∧
  (∀ (e : Engine) (w : VFields) (s : State), CanIssue e 0x3B w s →
     ∃ r, Completes e (.icmp e w) s r ∧ PredFrame (engKey e) w.vd.toNat (s.eng (engKey e)) r)

/-- FCMP and ICMP complete: each active lane's bit of predicate VD becomes the comparison, the others stand. The predicate
rows complete, lane by lane; PSET sets the lanes below IMM, PEXP spreads the bits of a scalar. A write to p0 is
discarded and p0 reads all ones (R136, R139, R141, R143). That PEXP reads 0 beyond bit 63 is the model's choice (log
126). -/
def Obligations.ComparesAndPredicates : Prop :=
  ((∀ (e : Engine) (w : VFields) (s : State), CanIssue e 0x2E w s →
     ∃ r, Completes e (.fcmp e w) s r ∧ PredFrame (engKey e) w.vd.toNat (s.eng (engKey e)) r ∧
       ∀ i, i < lanesOf (engKey e) → (r.rp (engKey e) w.vd.toNat).testBit i =
         if w.vd.toNat = 0 then true
         else if ((s.eng (engKey e)).mask (engKey e) w).testBit (if (laneFloat w).width = 64 then 2 * (i / 2) else i)
         then cmpBit (laneFloat w) w.mode.toNat ((s.eng (engKey e)).rv w.va.toNat) ((s.eng (engKey e)).rv w.vb.toNat) i
         else ((s.eng (engKey e)).rp (engKey e) w.vd.toNat).testBit i) ∧
   (∀ (e : Engine) (w : VFields) (s : State), CanIssue e 0x3B w s →
     ∃ r, Completes e (.icmp e w) s r ∧ PredFrame (engKey e) w.vd.toNat (s.eng (engKey e)) r ∧
       ∀ i, i < lanesOf (engKey e) → (r.rp (engKey e) w.vd.toNat).testBit i =
         if w.vd.toNat = 0 then true
         else if ((s.eng (engKey e)).mask (engKey e) w).testBit i
         then intCompare (w.mode.toNat / 2) (BitVec.ofNat 32 (elemAt 32 ((s.eng (engKey e)).rv w.va.toNat) i))
           (BitVec.ofNat 32 (intB w (s.eng (engKey e)) i))
         else ((s.eng (engKey e)).rp (engKey e) w.vd.toNat).testBit i)) ∧
  ((∀ x ∈ pred2Rows, ∀ (e : Engine) (w : VFields) (s : State), CanIssue e x.1 w s →
     ∃ r, Completes e (x.2.2 e w) s r ∧ PredFrame (engKey e) w.vd.toNat (s.eng (engKey e)) r ∧
       ∀ i, i < lanesOf (engKey e) → (r.rp (engKey e) w.vd.toNat).testBit i = if w.vd.toNat = 0 then true else
         x.2.1 (((s.eng (engKey e)).rp (engKey e) w.va.toNat).testBit i)
           (((s.eng (engKey e)).rp (engKey e) w.vb.toNat).testBit i)) ∧
   (∀ (e : Engine) (w : VFields) (s : State) (i : Instr) (f : Nat → Bool),
     (CanIssue e 0x64 w s ∧ i = .pset e w ∧ f = (fun j => decide (j < w.imm.toNat)) ∨
      CanIssue e 0x65 w s ∧ i = .pexp e w ∧
        f = fun j => ((s.eng (engKey e)).rs w.va.toNat).getLsbD (j >>> w.imm.toNat)) →
     ∃ r, Completes e i s r ∧ PredFrame (engKey e) w.vd.toNat (s.eng (engKey e)) r ∧
       ∀ j, j < lanesOf (engKey e) → (r.rp (engKey e) w.vd.toNat).testBit j =
         if w.vd.toNat = 0 then true else f j))

/-- CVT, where reduced service does not lack its formats: the codes of R53 to R62 go to VD (on the register side element
by element, else into PART), block scales to VC, the tensor scale to s[SS], flags and lost elements accumulate, and
every other register stands (R150 to R154). A conversion that names a format which reduced service lacks raises
EV_VEC_FAULT, changes no register and halts the stage of a cell, or the update of an Inflector's stage (R149, Table
6.3). -/
def Obligations.Conversion : Prop :=
  (∀ (e : Engine) (w : VFields) (s : State), CanIssue e 0x50 w s → serviceBad s w = false →
     ∃ r, Completes e (.cvt e w) s r ∧
       let r0 := s.eng (engKey e)
       let o := convRun s.job.seed (engKey e) w r0
       r = { r0 with vregs := r.vregs, sregs := r.sregs, vflags := r.vflags, lost := r.lost, badRegs := r.badRegs } ∧
       (∀ i, i ≠ w.vd.toNat → (i ≠ w.vc.toNat ∨ o.scales = []) → r.rv i = r0.rv i) ∧
       (∀ i, (i ≠ fSs w ∨ o.tscale = none) → r.rs i = r0.rs i) ∧
       (∀ t, o.tscale = some t → fSs w ≠ 0 → r.rs (fSs w) = BitVec.ofNat 64 t) ∧
       r.vflags = r0.vflags ||| BitVec.ofNat 4 o.flags ∧ r.lost = satAdd r0.lost o.lost ∧
       ((w.vd ≠ w.vc ∨ o.scales = []) → onRegSide w.fmt.toNat (fSrc w) w.fmt.toNat = true →
         ∀ j, j < elemsOf (engKey e) (fmtWidth w.fmt.toNat) → elemAt (fmtWidth w.fmt.toNat) (r.rv w.vd.toNat) j =
           match o.codes.getD j none with
           | some c => c % 2 ^ fmtWidth w.fmt.toNat
           | none => elemAt (fmtWidth w.fmt.toNat) (r0.rv w.vd.toNat) j) ∧
       ((w.vd ≠ w.vc ∨ o.scales = []) → onRegSide w.fmt.toNat (fSrc w) w.fmt.toNat = false →
         let wd := fmtWidth w.fmt.toNat
         let n := o.codes.length
         (∀ j, j < n → (fPart w * n + j + 1) * wd ≤ vbits (engKey e) →
           elemAt wd (r.rv w.vd.toNat) (fPart w * n + j) = ((o.codes.getD j none).getD 0) % 2 ^ wd) ∧
         (∀ b, b < vbits (engKey e) → b < fPart w * n * wd ∨ (fPart w + 1) * n * wd ≤ b →
           (r.rv w.vd.toNat).testBit b = (r0.rv w.vd.toNat).testBit b)) ∧
       (o.scales ≠ [] →
         let b0 := convBase (engKey e) w
         (∀ j, j < o.scales.length → 8 * (b0 + j + 1) ≤ vbits (engKey e) →
           elemAt 8 (r.rv w.vc.toNat) (b0 + j) = o.scales.getD j 0 % 256) ∧
         (w.vd ≠ w.vc → ∀ j, 8 * (j + 1) ≤ vbits (engKey e) → j < b0 ∨ b0 + o.scales.length ≤ j →
           elemAt 8 (r.rv w.vc.toNat) j = elemAt 8 (r0.rv w.vc.toNat) j))) ∧
  (∀ (e : Engine) (w : VFields) (s : State) (op : Nat) (i : Instr),
     (op = 0x50 ∧ i = .cvt e w ∨ op = 0x51 ∧ i = .amaxb e w ∨ op = 0x52 ∧ i = .amaxt e w) →
     CanIssue e op w s → serviceBad s w = true →
     exec i s = .next (vecFault (engKey e) 5 s) ∧ HaltOnly s (vecFault (engKey e) 5 s) ∧
       (∀ v, s.stageOf (engKey e) = some v → (s.stage v).loaded = true → (s.stage v).haltCode = 0 →
         let g := (vecFault (engKey e) 5 s).stage v
         (isInflector (engKey e) = false → g.haltCode = 0x0107 ∧ g.haltFinal = true) ∧
         (isInflector (engKey e) = true → g.haltCode = 0 ∧
           g.updateHalt = if (s.stage v).updateHalt = 0 then 0x0107 else (s.stage v).updateHalt)))

/-- AMAXB, AMAXT and SUM: the block maxima go to their places in VD, the running maximum or the lane sum in index order to
s[VD] (R155 to R157). That an INT32 sum is zero-extended is the model's choice (log 126). -/
def Obligations.Reductions : Prop :=
  (∀ (e : Engine) (w : VFields) (s : State), CanIssue e 0x51 w s → serviceBad s w = false →
    ∃ r, Completes e (.amaxb e w) s r ∧ VecFrame w.vd.toNat (s.eng (engKey e)) r ∧
      let vs := convSource (engKey e) w (s.eng (engKey e))
      let blk := fmtBlock w.fmt.toNat
      let F := amaxFmt w
      ∀ j, j < elemsOf (engKey e) F.width → elemAt F.width (r.rv w.vd.toNat) j =
        if convBase (engKey e) w ≤ j ∧ j < convBase (engKey e) w + cdiv vs.length blk then
          (amaxCode F (amaxOf ((vs.drop ((j - convBase (engKey e) w) * blk)).take blk))).1 % 2 ^ F.width
        else elemAt F.width ((s.eng (engKey e)).rv w.vd.toNat) j) ∧
  (∀ (e : Engine) (w : VFields) (s : State), CanIssue e 0x52 w s → serviceBad s w = false →
    ∃ r, Completes e (.amaxt e w) s r ∧ ScalFrame w.vd.toNat (s.eng (engKey e)) r ∧
      r.rs w.vd.toNat = if w.vd.toNat = 0 then 0 else BitVec.ofNat 64 (fpMaxWith (amaxFmt w)
        (((s.eng (engKey e)).rs w.vd.toNat).toNat % 2 ^ (amaxFmt w).width)
        (amaxCode (amaxFmt w) (amaxOf (convSource (engKey e) w (s.eng (engKey e))))).1)) ∧
  (∀ (e : Engine) (w : VFields) (s : State), CanIssue e 0x53 w s →
    ∃ r, Completes e (.sum e w) s r ∧ ScalFrame w.vd.toNat (s.eng (engKey e)) r ∧
      let wd := fmtWidth w.fmt.toNat
      let F := if w.fmt = 0xE then fFP64 else fFP32
      let on := fun j => onElem ((s.eng (engKey e)).mask (engKey e) w) wd j
      let el := fun j => elemAt wd ((s.eng (engKey e)).rv w.va.toNat) j
      r.rs w.vd.toNat = if w.vd.toNat = 0 then 0
        else if w.fmt = 0xF then
          BitVec.ofNat 64 (((List.range (elemsOf (engKey e) wd)).map fun j => if on j then el j else 0).sum % 2 ^ 32)
        else BitVec.ofNat 64 (codeOf F (tree F false
          ((List.range (elemsOf (engKey e) wd)).map fun j =>
            if on j then decodeElem w.fmt.toNat (el j) else fvZero)).1))

/-- SRND completes: the draw alone in its draw mode, and otherwise each active element rounded to the grid by its draw, in
INT32 and in the floating-point formats (R161). -/
def Obligations.StochasticRounding : Prop :=
  (∀ (e : Engine) (w : VFields) (s : State), CanIssue e 0x56 w s → bitAt w.mode.toNat 0 = true →
    ∃ r, Completes e (.srnd e w) s r ∧ VecFrame w.vd.toNat (s.eng (engKey e)) r ∧
      LaneResult (engKey e) w 32 (fun i => (srndDraw s.job.seed w (s.eng (engKey e)) i, 0)) (s.eng (engKey e)) r) ∧
  (∀ (e : Engine) (w : VFields) (s : State), CanIssue e 0x56 w s → bitAt w.mode.toNat 0 = false → w.fmt = 0xF →
    ∃ r, Completes e (.srnd e w) s r ∧ VecFrame w.vd.toNat (s.eng (engKey e)) r ∧
      LaneResult (engKey e) w 32 (fun i => (gridInt (signed 32 ((s.eng (engKey e)).rs w.vb.toNat).toNat)
        (srndDraw s.job.seed w (s.eng (engKey e)) i) (elemAt 32 ((s.eng (engKey e)).rv w.va.toNat) i), 0))
        (s.eng (engKey e)) r) ∧
  (∀ (e : Engine) (w : VFields) (s : State), CanIssue e 0x56 w s → bitAt w.mode.toNat 0 = false → w.fmt ≠ 0xF →
    ∃ r, Completes e (.srnd e w) s r ∧ VecFrame w.vd.toNat (s.eng (engKey e)) r ∧
      LaneResult (engKey e) w (laneFloat w).width (fun i => gridFloat (laneFloat w)
        (max (-5000) (min 5000 (signed 32 ((s.eng (engKey e)).rs w.vb.toNat).toNat)))
        (srndDraw s.job.seed w (s.eng (engKey e)) i)
        (elemAt (laneFloat w).width ((s.eng (engKey e)).rv w.va.toNat) i)) (s.eng (engKey e)) r)

/-- NOP changes nothing; FLAGS reads the flag words into s[VD] and clears what IMM names. SYNC, XRED and END put a cell at
its barrier; END of a committed rule with nothing outstanding frees the Inflector; WAIT goes on when nothing that it
names is outstanding, and else the engine stays (R66, R137, R140, R158, R164 to R166, R226). -/
def Obligations.FlagsAndWaits : Prop :=
  ((∀ (e : Engine) (w : VFields) (s : State), CanIssue e 0x00 w s → Completes e (.nop e w) s (s.eng (engKey e))) ∧
   (∀ (e : Engine) (w : VFields) (s : State), CanIssue e 0x58 w s →
     ∃ r, Completes e (.flags e w) s r ∧
       let r0 := s.eng (engKey e)
       r = { r0 with sregs := r.sregs, vflags := r.vflags, aflags := r.aflags, lost := r.lost } ∧
       (∀ i, i ≠ w.vd.toNat → r.rs i = r0.rs i) ∧
       r.rs w.vd.toNat = (if w.vd.toNat = 0 then 0
         else BitVec.ofNat 64 (r0.vflags.toNat + 16 * r0.aflags.toNat + 2 ^ 32 * r0.lost.toNat)) ∧
       (∀ b, b < 4 → r.vflags.getLsbD b = (r0.vflags.getLsbD b && !w.imm.getLsbD b)) ∧
       (∀ b, b < 4 → r.aflags.getLsbD b = (r0.aflags.getLsbD b && !w.imm.getLsbD (4 + b))) ∧
       r.lost = if w.imm.getLsbD 8 then 0 else r0.lost)) ∧
  ((∀ (e : Engine) (w : VFields) (s : State), CanIssue e 0x05 w s →
     exec (.sync e w) s = .next (s.updEng (engKey e) fun r => { r with stat := .waitSync })) ∧
   (∀ (e : Engine) (w : VFields) (s : State), CanIssue e 0x57 w s →
     exec (.xred e w) s = .next (s.updEng (engKey e) fun r =>
       { r with stat := .waitXred (r.rs w.va.toNat) w.mode.toNat w.vd.toNat })) ∧
   (∀ (e : Engine) (w : VFields) (s : State) (v : Nat), CanIssue e 0x01 w s → isInflector (engKey e) = false →
     s.stageOfCell (engKey e) = some v → (s.stage v).nullOvf = none →
     exec (.endRun e w) s = .next (s.updEng (engKey e) fun r => { r with stat := .waitEnd })) ∧
   (∀ (e : Engine) (w : VFields) (s : State), CanIssue e 0x01 w s → isInflector (engKey e) = true →
     (s.eng (engKey e)).tags = [] → (s.eng (engKey e)).committed = true →
     exec (.endRun e w) s = .next (s.updEng (engKey e) fun r =>
       { r with stat := .idle, ruleStage := none, committed := false, loops := [], outerLoops := 0 })) ∧
   (∀ (e : Engine) (w : VFields) (s : State), CanIssue e 0x06 w s →
     let named := if w.mode = 1 then (s.eng (engKey e)).tags
       else (s.eng (engKey e)).tags.filter (· == w.imm.toNat % 256)
     (named = [] → Completes e (.wait e w) s (s.eng (engKey e))) ∧
     (named ≠ [] → exec (.wait e w) s = .next s)))

/-- VLD, VLDS, SLD, PLD, VST, VSTS, SST and PST, where every access is aligned and admitted: a load brings the bytes of
each active lane, the scalar or the predicate, little-endian, and all memory stands; a store writes the bytes of the
active lanes, the scalar or the predicate and no other byte. Every other register and everything else stand, and a
word that is not written whole keeps its mark (R15, R36, R139, R145). That VLD needs its whole range, and VST the bytes of
its active lanes alone, is the model's choice (log 126). -/
def Obligations.LoadsAndStores : Prop :=
  ((∀ (e : Engine) (w : VFields) (s : State), CanIssue e 0x10 w s →
     AccessesOk s (engKey e) (min (vlen w) 64) false [((s.eng (engKey e)).addr w.va.toNat w, vlen w)] →
     ∃ r, Completes e (.vld e w) s r ∧ VecFrame w.vd.toNat (s.eng (engKey e)) r ∧
       ∀ i, i < lanesOf (engKey e) → elemAt 32 (r.rv w.vd.toNat) i =
         if i < vlen w / 4 ∧ ((s.eng (engKey e)).mask (engKey e) w).testBit i = true then
           memNat s.mem ((s.eng (engKey e)).addr w.va.toNat w + 4 * i) 4
         else elemAt 32 ((s.eng (engKey e)).rv w.vd.toNat) i) ∧
   (∀ (e : Engine) (w : VFields) (s : State), CanIssue e 0x12 w s →
     AccessesOk s (engKey e) 4 false ((activeLanes (engKey e) w (s.eng (engKey e))).map fun i =>
       (laneAddr (s.eng (engKey e)) w.va.toNat w.vb.toNat w i, 4)) →
     ∃ r, Completes e (.vlds e w) s r ∧ VecFrame w.vd.toNat (s.eng (engKey e)) r ∧
       ∀ i, i < lanesOf (engKey e) → elemAt 32 (r.rv w.vd.toNat) i =
         if ((s.eng (engKey e)).mask (engKey e) w).testBit i = true then
           memNat s.mem (laneAddr (s.eng (engKey e)) w.va.toNat w.vb.toNat w i) 4
         else elemAt 32 ((s.eng (engKey e)).rv w.vd.toNat) i) ∧
   (∀ (e : Engine) (w : VFields) (s : State), CanIssue e 0x14 w s →
     AccessesOk s (engKey e) (swidth w) false [((s.eng (engKey e)).addr w.va.toNat w, swidth w)] →
     ∃ r, Completes e (.sld e w) s r ∧ ScalFrame w.vd.toNat (s.eng (engKey e)) r ∧
       r.vflags = (s.eng (engKey e)).vflags ∧
       let x := memNat s.mem ((s.eng (engKey e)).addr w.va.toNat w) (swidth w)
       r.rs w.vd.toNat = if w.vd.toNat = 0 then 0
         else BitVec.ofNat 64 (if bitAt w.mode.toNat 2 then lowBits 64 (signed (8 * swidth w) x) else x)) ∧
   (∀ (e : Engine) (w : VFields) (s : State), CanIssue e 0x16 w s →
     AccessesOk s (engKey e) 8 false [((s.eng (engKey e)).addr w.va.toNat w, lanesOf (engKey e) / 8)] →
     ∃ r, Completes e (.pld e w) s r ∧ PredFrame (engKey e) w.vd.toNat (s.eng (engKey e)) r ∧
       (w.vd.toNat ≠ 0 → r.rp (engKey e) w.vd.toNat =
         memNat s.mem ((s.eng (engKey e)).addr w.va.toNat w) (lanesOf (engKey e) / 8)))) ∧
  ((∀ (e : Engine) (w : VFields) (s : State), CanIssue e 0x11 w s →
     (s.eng (engKey e)).addr w.vb.toNat w % min (vlen w) 64 = 0 →
     AccessesOk s (engKey e) 1 true ((vstWrites (engKey e) w (s.eng (engKey e))).map fun x => (x.1, x.2.length)) →
     ∃ t, exec (.vst e w) s = .next (advance (engKey e) t) ∧ t = { s with mem := t.mem, badWords := t.badWords } ∧
       let a := (s.eng (engKey e)).addr w.vb.toNat w
       let x := (s.eng (engKey e)).rv w.va.toNat
       ∀ b, memRead t.mem b =
         if a ≤ b ∧ b < a + vlen w ∧ ((s.eng (engKey e)).mask (engKey e) w).testBit ((b - a) / 4) = true then
           BitVec.ofNat 8 (x >>> (8 * (b - a)))
         else memRead s.mem b) ∧
   (∀ (e : Engine) (w : VFields) (s : State), CanIssue e 0x13 w s →
     let A := fun i => laneAddr (s.eng (engKey e)) w.vb.toNat w.vc.toNat w i
     let on := activeLanes (engKey e) w (s.eng (engKey e))
     AccessesOk s (engKey e) 4 true (on.map fun i => (A i, 4)) →
     ∃ t, exec (.vsts e w) s = .next (advance (engKey e) t) ∧ t = { s with mem := t.mem, badWords := t.badWords } ∧
       (∀ b, (∀ i ∈ on, ¬ (A i ≤ b ∧ b < A i + 4)) → memRead t.mem b = memRead s.mem b) ∧
       (∀ i ∈ on, (∀ j ∈ on, i < j → A j ≠ A i) → ∀ c, c < 4 → memRead t.mem (A i + c) =
         BitVec.ofNat 8 (elemAt 32 ((s.eng (engKey e)).rv w.va.toNat) i >>> (8 * c)))) ∧
   (∀ (e : Engine) (w : VFields) (s : State) (op n x : Nat) (i : Instr),
     (op = 0x15 ∧ i = .sst e w ∧ n = swidth w ∧ x = ((s.eng (engKey e)).rs w.va.toNat).toNat ∨
      op = 0x17 ∧ i = .pst e w ∧ n = lanesOf (engKey e) / 8 ∧ x = (s.eng (engKey e)).rp (engKey e) w.va.toNat) →
     CanIssue e op w s →
     AccessesOk s (engKey e) (if op = 0x15 then n else 8) true [((s.eng (engKey e)).addr w.vb.toNat w, n)] →
     ∃ t, exec i s = .next (advance (engKey e) t) ∧ t = { s with mem := t.mem, badWords := t.badWords } ∧
       let a := (s.eng (engKey e)).addr w.vb.toNat w
       ∀ b, memRead t.mem b =
         if a ≤ b ∧ b < a + n then BitVec.ofNat 8 (x >>> (8 * (b - a))) else memRead s.mem b))

/-- A load or store that fails its check moves nothing: no byte of memory and no register of the engine changes, and a
stage that was running is halted, or, for a fault of an Inflector's instruction, its update is (R32, R145, R149). -/
def Obligations.AccessFaultMovesNothing : Prop :=
  ∀ (e : Engine) (w : VFields) (s : State) (op : Nat) (i : Instr) (a n align : Nat) (write : Bool),
    (op = 0x10 ∧ i = .vld e w ∧ a = (s.eng (engKey e)).addr w.va.toNat w ∧ n = vlen w ∧ align = min (vlen w) 64 ∧
       write = false ∨
     op = 0x14 ∧ i = .sld e w ∧ a = (s.eng (engKey e)).addr w.va.toNat w ∧ n = swidth w ∧ align = swidth w ∧
       write = false ∨
     op = 0x16 ∧ i = .pld e w ∧ a = (s.eng (engKey e)).addr w.va.toNat w ∧ n = lanesOf (engKey e) / 8 ∧ align = 8 ∧
       write = false ∨
     op = 0x15 ∧ i = .sst e w ∧ a = (s.eng (engKey e)).addr w.vb.toNat w ∧ n = swidth w ∧ align = swidth w ∧
       write = true ∨
     op = 0x17 ∧ i = .pst e w ∧ a = (s.eng (engKey e)).addr w.vb.toNat w ∧ n = lanesOf (engKey e) / 8 ∧ align = 8 ∧
       write = true) →
    CanIssue e op w s → ¬ AccessesOk s (engKey e) align write [(a, n)] →
    ∃ t, exec i s = .next t ∧ t.mem = s.mem ∧ (t.eng (engKey e)).vregs = (s.eng (engKey e)).vregs ∧
      (t.eng (engKey e)).sregs = (s.eng (engKey e)).sregs ∧ (t.eng (engKey e)).pregs = (s.eng (engKey e)).pregs ∧
      ∀ v, s.stageOf (engKey e) = some v → (s.stage v).loaded = true → (s.stage v).haltCode = 0 →
        (t.stage v).haltCode ≠ 0 ∨ isInflector (engKey e) = true ∧ (t.stage v).updateHalt ≠ 0

/-- The engine goes on in sequence: outside every loop, and at the last pass of a loop, to the next instruction; else to
the loop's first, with one iteration less. Inside a layer group only the loops started there act, and those around it
stand. BR, BRC and LOOP, where control meets no group's boundary: the target is taken, loops that do not hold it end;
LOOP with a count of 0 skips its body, and with four loops active it raises EV_VEC_FAULT. Whatever control meets,
registers, flags, memory, the job and the ports stand (R121, R141, R162). That the depth is checked before the count is
the model's choice (log 126). -/
def Obligations.SequenceAndBranches : Prop :=
  (∀ (k : Nat) (s : State),
     let act := activeLoops k s
     let around := (s.eng k).loops.drop act.length
     (∀ n t, loopNext (s.eng k).pc act = (n, t) → PlainTarget k n s →
       advance k s = s.updEng k fun r => { r with pc := n, loops := t ++ around }) ∧
     (∀ f t, act = f :: t → f.last = (s.eng k).pc → f.left > 1 → PlainTarget k f.first s →
       advance k s = s.updEng k fun r =>
         { r with pc := f.first, loops := { f with left := f.left - 1 } :: (t ++ around) })) ∧
  ((∀ (e : Engine) (w : VFields) (s : State), PlainTarget (engKey e) w.imm.toNat s →
     let act := activeLoops (engKey e) s
     let around := (s.eng (engKey e)).loops.drop act.length
     (CanIssue e 0x02 w s → exec (.br e w) s = .next (s.updEng (engKey e) fun r =>
       { r with pc := w.imm.toNat, loops := loopsAfterBranch w.imm.toNat act ++ around })) ∧
     (CanIssue e 0x03 w s → brcTaken w.mode.toNat ((s.eng (engKey e)).rs w.va.toNat) = true →
       exec (.brc e w) s = .next (s.updEng (engKey e) fun r =>
         { r with pc := w.imm.toNat, loops := loopsAfterBranch w.imm.toNat act ++ around })) ∧
     (CanIssue e 0x03 w s → brcTaken w.mode.toNat ((s.eng (engKey e)).rs w.va.toNat) = false →
       Completes e (.brc e w) s (s.eng (engKey e)))) ∧
   (∀ (e : Engine) (w : VFields) (s : State), CanIssue e 0x04 w s →
     let n := ((s.eng (engKey e)).rs w.va.toNat).toNat % 2 ^ 32
     let free := (s.eng (engKey e)).loops.length < 4
     (¬ free → exec (.loop e w) s = .next (vecFault (engKey e) 4 s)) ∧
     (free → n ≠ 0 → PlainTarget (engKey e) ((s.eng (engKey e)).pc + 1) s →
       exec (.loop e w) s = .next (s.updEng (engKey e) fun r =>
         { r with pc := r.pc + 1, loops := ⟨r.pc + 1, w.imm.toNat, n⟩ :: r.loops })) ∧
     (free → n = 0 → exec (.loop e w) s = .next (advanceFrom (engKey e) w.imm.toNat s)))) ∧
  (∀ (k : Nat) (s : State), HaltOnly s (advance k s) ∧ (advance k s).mem = s.mem ∧
     (∀ i, ((advance k s).eng k).rs i = (s.eng k).rs i) ∧ (∀ i, ((advance k s).eng k).rv i = (s.eng k).rv i) ∧
     ((advance k s).eng k).pregs = (s.eng k).pregs ∧ ((advance k s).eng k).vflags = (s.eng k).vflags ∧
     ((advance k s).eng k).aflags = (s.eng k).aflags)

/-- TILE.GO queues the descriptor that it reads, DMA.GO its transfer, and the engine goes on; a full queue makes it
wait. TILE_ACCEPT takes the head descriptor into one of the sequencer's 16 places when its checks pass, and starts it,
its first subtile's sums streaming into bank 0, where R80 and R255 let it start; a descriptor that a check refuses halts
the stage of a cell with EV_TILE_INVALID and its reason, and one that cannot be corrected raises EV_MEM_UNCORRECTABLE.
TILE_COMPLETE frees the place of a tile whose subtiles are all written, so that no sums stand in its banks,
CAPTURE_COMPLETE lets a held tile go on (R36, R68, R80, R81, R85, R163, R254, R255, R257, R258). -/
def Obligations.Tiles : Prop :=
  ((∀ (e : Engine) (w : VFields) (s : State), CanIssue e 0x07 w s →
     let a := ((s.eng (engKey e)).rs w.va.toNat).toNat
     a % 128 = 0 → checkAccess s (engKey e) (descReach (engKey e)) a 128 false = .ok →
     ((s.eng (engKey e)).tileQ.length < 64 → ∃ r, Completes e (.tileGo e w) s r ∧
       r = { s.eng (engKey e) with tileQ := r.tileQ, ordinal := (s.eng (engKey e)).ordinal + 1 } ∧
       ∃ g, r.tileQ = (s.eng (engKey e)).tileQ ++
         [⟨a, BitVec.ofNat 1024 (memNat s.mem a 128), g, (s.eng (engKey e)).ordinal, false⟩] ∧
         (s.inGroup (engKey e) = none → g = 0) ∧
         ∀ x, s.inGroup (engKey e) = some x → g = x.1) ∧
     ((s.eng (engKey e)).tileQ.length ≥ 64 → exec (.tileGo e w) s = .next s)) ∧
   (∀ (e : Engine) (w : VFields) (s : State), CanIssue e 0x08 w s →
     let src := ((s.eng (engKey e)).rs w.va.toNat).toNat
     let dst := ((s.eng (engKey e)).rs w.vb.toNat).toNat
     let len := ((s.eng (engKey e)).rs w.vc.toNat).toNat
     src % 64 = 0 → dst % 64 = 0 → len % 64 = 0 → 64 ≤ len → len ≤ 16777216 →
     ((s.eng (engKey e)).dmaQ.length < 16 → Completes e (.dmaGo e w) s { s.eng (engKey e) with
       dmaQ := (s.eng (engKey e)).dmaQ ++ [⟨src, dst, len, w.imm.toNat % 256, 0, false⟩] }) ∧
     ((s.eng (engKey e)).dmaQ.length ≥ 16 → exec (.dmaGo e w) s = .next s))) ∧
  (∀ (e : Engine) (s : State) (q : TileReq) (rest : List TileReq),
     let k := engKey e
     let r := s.eng k
     r.inFlight.length < 16 → r.tileQ = q :: rest →
     let x : TileRun :=
       { addr := q.addr, desc := q.desc, group := q.group, ordinal := q.ordinal, stage := s.stageOf k
         shadow := s.selected k q.desc q.ordinal }
     let taken := s.updEng k fun r => { r with tileQ := rest, inFlight := r.inFlight ++ [x] }
     (q.bad = false → descReason k s.grade s.reduced q.desc = none → dGroup q.desc = q.group →
       rest = [] ∨ r.inFlight.length = 15 → (∀ i, i < r.inFlight.length → taken.mayStart k i = false) →
       (taken.mayStart k r.inFlight.length = false → exec (.tileAccept e) s = .next taken) ∧
       (taken.mayStart k r.inFlight.length = true →
         tileFault (s.stageOf k) taken k false (subReads q.desc 0).all = none →
         ∃ t, exec (.tileAccept e) s = .next t ∧ OnlyEng k { r with
           tileQ := rest
           inFlight := r.inFlight ++
             [{ x with started := true, bank0 := subtileSums s.mem s.job.seed q.desc 0 }] } s t)) ∧
     (∀ y v, isInflector k = false → q.bad = false → descReason k s.grade s.reduced q.desc = some y →
       s.stageOf k = some v → (s.stage v).loaded = true → (s.stage v).haltCode = 0 →
       exec (.tileAccept e) s = .next (refuseTile k q y s) ∧ HaltOnly s (refuseTile k q y s) ∧
         ((refuseTile k q y s).stage v).haltCode = 0x0104 ∧ ((refuseTile k q y s).stage v).haltFinal = true) ∧
     (∀ v, isInflector k = false → q.bad = true → s.stageOf k = some v → (s.stage v).loaded = true →
       (s.stage v).haltCode = 0 →
       exec (.tileAccept e) s = .next (queueFault k false s) ∧ ((queueFault k false s).stage v).haltCode = 0x0103)) ∧
  (∀ (e : Engine) (i : Nat) (s : State) (t : TileRun), (s.eng (engKey e)).inFlight[i]? = some t →
     (t.hold = none → subtileCount t.desc ≤ t.next → t.events = 0 → ∃ s', exec (.tileComplete e i) s = .next s' ∧
       OnlyEng (engKey e) { s.eng (engKey e) with inFlight := (s.eng (engKey e)).inFlight.eraseIdx i } s s') ∧
     (t.hold ≠ none ∨ t.next < subtileCount t.desc → exec (.tileComplete e i) s = .next s) ∧
     (t.hold ≠ none → ∃ s', exec (.captureComplete e i) s = .next s' ∧
       OnlyEng (engKey e) { s.eng (engKey e) with
         inFlight := (s.eng (engKey e)).inFlight.set i { t with hold := none } } s s'))

/-- SUBTILE_DRAIN of a started tile whose accesses are admitted, whose digests agree where it is shadowed, which sets no
A_OV, and whose block may reach the epilogue, older blocks in the banks of its arrays having drained: the sums that stand
in the subtile's bank go through the epilogue, its bytes are written and no others, the sums of the subtile after it
stream into the other bank, the tile goes on to it, and the array flags accumulate (R66, R68, R78, R86 to R90, R256). A
tile whose stage has halted drains that one subtile and leaves, and the events of the adds in both its banks stay in the
flags (R63, R82). When a subtile reads its operands is the model's choice (log 121). -/
def Obligations.SubtileDrain : Prop :=
  ∀ (e : Engine) (i : Nat) (he pe : List W32) (s : State) (t : TileRun),
    let k := engKey e
    let n := t.next + 1
    let last := t.ending = true ∨ subtileCount t.desc ≤ n
    let codes := t.bank.map (·.code)
    let out := epilogue t t.bank (xorCodes codes he)
    (s.eng k).inFlight[i]? = some t → t.started = true → t.hold = none → t.next < subtileCount t.desc →
    s.mayDrain k i t = true → (t.ending = true → t.events % 2 = 0) →
    last ∨ tileFault t.stage s k false (subReads t.desc n).all = none →
    tileFault t.stage s k true (out.writes.map fun w => (w.1, w.2.length)) = none →
    (t.shadow = false ∨ xorCodes codes he = xorCodes codes pe) →
    (out.addFlags ||| out.outFlags ||| out.sumFlags) % 2 = 0 →
    ∃ s', exec (.subtileDrain e i he pe) s = .next s' ∧
      s' = { s with mem := s'.mem, badWords := s'.badWords, engines := s'.engines, stages := s'.stages } ∧
      (∀ a, (∀ x ∈ out.writes, ¬ (x.1 ≤ a ∧ a < x.1 + x.2.length)) → memRead s'.mem a = memRead s.mem a) ∧
      (∀ x ∈ out.writes, (∀ y ∈ out.writes, y = x ∨ y.1 + y.2.length ≤ x.1 ∨ x.1 + x.2.length ≤ y.1) →
        ∀ j, j < x.2.length → memRead s'.mem (x.1 + j) = x.2.getD j 0) ∧
      (∀ j, j ≠ k → s'.eng j = s.eng j) ∧
      s'.eng k = { s.eng k with
        aflags := (s.eng k).aflags ||| BitVec.ofNat 4 (out.addFlags ||| out.outFlags ||| out.sumFlags) |||
          BitVec.ofNat 4 (if t.ending = true then t.events else 0)
        inFlight := if t.ending = true then (s.eng k).inFlight.eraseIdx i
          else (s.eng k).inFlight.set i
            ((if last then t else t.fill n (subtileSums s.mem s.job.seed t.desc n)).drained out none) } ∧
      ∀ v, s'.stage v = if t.stage = some v ∧ 1 < longCount t.desc then { s.stage v with longsum := true } else s.stage v

/-- DMA_TRANSFER_COMPLETE of the oldest transfer, both of whose ranges are admitted: its bytes, and no others, are
copied and it leaves the queue; one that meets a host range waits where the job has no OFFLOAD partition, and one whose
requests to a guest die have all gone out leaves when all are answered. Where a range is not admitted nothing moves, and
an entry that cannot be corrected raises EV_MEM_UNCORRECTABLE (R30, R31, R36, R163, R325, R447). -/
def Obligations.Transfer : Prop :=
  ∀ (e : Engine) (s : State) (q : DmaReq) (rest : List DmaReq),
    let k := engKey e
    (s.eng k).dmaQ = q :: rest →
    (q.bad = true → exec (.dmaTransferComplete e) s = .next (queueFault k true s)) ∧
    (q.bad = false → checkAccess s k (dmaReach k) q.src q.len false = .ok →
      checkAccess s k (dmaReach k) q.dst q.len true = .ok →
      (isGuest q.src = true ∨ isGuest q.dst = true → q.issued = cdiv q.len 4096 → exec (.dmaTransferComplete e) s =
        .next (if s.guestQuiet k = true then s.updEng k fun r => { r with dmaQ := rest } else s)) ∧
      (isGuest q.src = false → isGuest q.dst = false → isHost q.src = true ∨ isHost q.dst = true →
        s.offloadWaits = true → exec (.dmaTransferComplete e) s = .next s) ∧
      (isGuest q.src = false → isGuest q.dst = false → isHost q.src = false ∧ isHost q.dst = false ∨ s.offloadWaits = false →
      ∃ t, exec (.dmaTransferComplete e) s = .next t ∧
        t = { s with mem := t.mem, badWords := t.badWords, hostMem := t.hostMem, engines := t.engines } ∧
        t.eng k = { s.eng k with dmaQ := rest } ∧ (∀ i, i ≠ k → t.eng i = s.eng i) ∧
        let byte := fun j => if q.src < 2 ^ 47 then memRead s.mem (q.src + j) else memRead s.hostMem (q.src - 2 ^ 47 + j)
        (q.dst < 2 ^ 47 → t.hostMem = s.hostMem ∧ ∀ a, memRead t.mem a =
          if q.dst ≤ a ∧ a < q.dst + q.len then byte (a - q.dst) else memRead s.mem a) ∧
        (2 ^ 47 ≤ q.dst → t.mem = s.mem ∧ ∀ a, memRead t.hostMem a =
          if q.dst - 2 ^ 47 ≤ a ∧ a < q.dst - 2 ^ 47 + q.len then byte (a - (q.dst - 2 ^ 47)) else memRead s.hostMem a))) ∧
    (q.bad = false → checkAccess s k (dmaReach k) q.src q.len false ≠ .ok ∨
        checkAccess s k (dmaReach k) q.dst q.len true ≠ .ok →
      ∃ t, exec (.dmaTransferComplete e) s = .next t ∧ t.mem = s.mem ∧
        ∀ v, s.stageOf k = some v → (s.stage v).loaded = true → (s.stage v).haltCode = 0 → (t.stage v).haltCode ≠ 0)

/-- DIGEST and GMAX on an Inflector: INIT opens the stage's accumulator at 0, ADD folds the low IMM bytes of VA, FINAL
gives PD's value with the length and closes it; GMAX gives the one owner its own value, and with Z above 1 the largest
of the Z owners' values once all are in. COMMIT of a closed accumulator, once the engine has nothing outstanding,
keeps the digest for the flip and holds the engine, or, where END follows, goes on with bit 62 set in s[VD]; out of
order it raises EV_VEC_FAULT (R167 to R170, R227). That GMAX takes negative values by their magnitude is the model's
choice (log 126). -/
def Obligations.DigestMaximumAndCommit : Prop :=
  (∀ (e : Engine) (w : VFields) (s : State),
     let k := engKey e
     let r := s.eng k
     (∀ u, u = (r.rs w.va.toNat).toNat → CanIssue e 0x71 { w with mode := 0 } s → s.hostsStage k u = true →
       ∃ t, exec (.digestInit e w) s = .next (advance k t) ∧
         OnlyStage u { s.stage u with dig := .opened, digValue := 0, digLen := 0 } s t) ∧
     (∀ u, u = (r.rs w.vb.toNat).toNat → CanIssue e 0x71 { w with mode := 1 } s → s.hostsStage k u = true →
       (s.stage u).dig = .opened →
       ∃ t, exec (.digestAdd e w) s = .next (advance k t) ∧
         OnlyStage u { s.stage u with
           digValue := BitVec.ofNat 128 (pdRange w.imm.toNat (s.stage u).digValue.toNat
             (leBytes w.imm.toNat (r.rv w.va.toNat)))
           digLen := (s.stage u).digLen + w.imm.toNat } s t) ∧
     (∀ u, u = (r.rs w.va.toNat).toNat → CanIssue e 0x71 { w with mode := 2 } s → s.hostsStage k u = true →
       (s.stage u).dig = .opened → s.badWords = [] →
       let d := pdBlock (s.stage u).digValue.toNat (s.stage u).digLen
       ∃ t, exec (.digestFinal e w) s = .next t ∧ t = { s with engines := t.engines, stages := t.stages, mem := t.mem } ∧
         (t.stage u).dig = .closed ∧ (t.stage u).digValue = BitVec.ofNat 128 d ∧ (t.eng k).pc = (loopNext r.pc r.loops).1 ∧
         (t.eng k).sregs = ((r.ws w.vd.toNat (BitVec.ofNat 64 d)).ws (w.vd.toNat + 1) (BitVec.ofNat 64 (d / 2 ^ 64))).sregs ∧
         ∀ i, i ≠ u → t.stage i = s.stage i) ∧
     (∀ v, CanIssue e 0x70 w s → s.stageOf k = some v →
       let g := s.stage v
       let vals := g.update.gmaxVals.filter fun y => y.update == g.update.done + 1 && y.ordinal == g.update.gmax
       (s.job.z ≤ 1 → Completes e (.gmax e w) s (r.ws w.vd.toNat (r.rs w.va.toNat))) ∧
       (1 < s.job.z → (∃ y ∈ vals, y.rank = s.job.rank) → vals.length < s.job.z → exec (.gmax e w) s = .next s) ∧
       (1 < s.job.z → (∃ y ∈ vals, y.rank = s.job.rank) → s.job.z ≤ vals.length →
         ∃ t t', exec (.gmax e w) s = .next (advance k t) ∧
           OnlyStage v { g with update := { g.update with gmax := g.update.gmax + 1 } } s t' ∧
           OnlyEng k (r.ws w.vd.toNat (BitVec.ofNat 64 ((vals.map fun y => y.value.toNat % 2 ^ 32).foldl
             (fpMaxMag fFP32) 0))) t' t))) ∧
  (∀ (e : Engine) (w : VFields) (s : State), CanIssue e 0x72 w s →
     let k := engKey e
     let r := s.eng k
     let u := (r.rs w.va.toNat).toNat
     (s.hostsStage k u = false → exec (.commit e w) s = .next (vecFault k 7 s)) ∧
     (s.hostsStage k u = true → (s.stage u).dig ≠ .closed → exec (.commit e w) s = .next (vecFault k 6 s)) ∧
     (s.hostsStage k u = true → (s.stage u).dig = .closed → r.tags ≠ [] → exec (.commit e w) s = .next s) ∧
     (s.hostsStage k u = true → (s.stage u).dig = .closed → r.tags = [] → s.endsNext k = false →
       ∃ t t', exec (.commit e w) s = .next t ∧
         OnlyStage u { s.stage u with dig := .idle, commitDig := (s.stage u).digValue, committing := some (some w.vd.toNat) }
           s t' ∧
         OnlyEng k { r with committed := r.committed || r.ruleStage == some u, stat := .commit u w.vd.toNat } t' t) ∧
     (s.hostsStage k u = true → (s.stage u).dig = .closed → r.tags = [] → s.endsNext k = true →
       ∃ t t', exec (.commit e w) s = .next (advance k t) ∧
         OnlyStage u { s.stage u with dig := .idle, commitDig := (s.stage u).digValue, committing := some none } s t' ∧
         OnlyEng k ({ r with committed := r.committed || r.ruleStage == some u }.ws w.vd.toNat
           (BitVec.ofNat 64 ((s.stage u).presentCommit + 2 ^ 62))) t' t))

/-- CLS.PUT of a valid V or B Clause: a full out-queue makes the cell wait; inside a layer group the Clause is held back
until the group's end; outside, a V Clause for a stage of this module enters forward-out with SRC_STAGE, DST_STAGE and
SEQ written, in the queue and in its entry of the Clause store. CLS.TAKE of a FORWARD Clause whose view is filled: the
cell reads it with its Tense tag; the micro-batch has its record, the present Tense one more reference, the out-queue it
goes on in one reservation, and the take counts. With nothing to take on forward-in, or while a take waits there, and
something on backward-in, EMPTY is returned and nothing is taken (R125, R176 to R180, R183 to R186, R191). -/
def Obligations.ClausePutAndTake : Prop :=
  (∀ (e : Engine) (w : VFields) (s : State) (v : Nat), CanIssue e 0x0A w s → s.stageOfCell (engKey e) = some v →
     let g := s.stage v
     let back := w.mode == 1
     let q := g.outQ back
     let c := BitVec.ofNat 512 ((s.eng (engKey e)).rv w.va.toNat % 2 ^ 512)
     putReason g back c = none → clauseLen c ≤ s.lenLimit g back → g.payloadOk c = true →
     s.badAmong [queueState v (2 + bit back)] = none →
     clauseKind c = 1 ∨ clauseKind c = 2 →
     (q.reserved = 0 → g.outFree back = false → exec (.clsPut e w) s = .next s) ∧
     (0 < q.reserved ∨ g.outFree back = true → (s.inGroup (engKey e)).isSome = true →
       ∃ t, exec (.clsPut e w) s = .next (advance (engKey e) t) ∧
         OnlyStage v (g.updOut back fun q => { q with
           reserved := q.reserved - 1, heldBack := q.heldBack ++ [(c, decide (0 < q.reserved))] }) s t) ∧
     (0 < q.reserved ∨ g.outFree back = true → s.inGroup (engKey e) = none → clauseKind c = 1 →
       (s.findStage g.succ).isSome = true →
       let c' := setClause (setClause (setClause c 31 16 g.image.stage) 47 32 g.succ) 127 96 q.seq
       let a := outEntry g v false q.seq
       ∃ t, exec (.clsPut e w) s = .next (advance (engKey e) t) ∧
         t = { s with mem := t.mem, badWords := t.badWords, stages := t.stages } ∧
         (∀ b, memRead t.mem b =
           if a ≤ b ∧ b < a + 64 then BitVec.ofNat 8 (c'.toNat >>> (8 * (b - a))) else memRead s.mem b) ∧
         t.stage v = { g with
           forwardOut := { q with reserved := q.reserved - 1, items := q.items ++ [c'], seq := q.seq + 1 }
           lenS := if clauseS c then satAdd g.lenS (clauseLen c) else g.lenS
           lenV := if clauseS c then g.lenV else satAdd g.lenV (clauseLen c) } ∧
         ∀ i, i ≠ v → t.stage i = s.stage i)) ∧
  (∀ (e : Engine) (w : VFields) (s : State) (v : Nat), CanIssue e 0x09 w s → s.stageOfCell (engKey e) = some v →
     let k := engKey e
     let g := s.stage v
     w.mode ≠ 1 → g.forwardIn.replay = 0 →
     (∀ c rest, g.forwardIn.items = c :: rest → clauseKind c = 1 → (g.records.any fun r => r.mb == clauseMb c) = false →
       g.backwardIn.items = [] → g.backwardIn.replay = 0 → g.takeReady c = true → g.viewForward = some g.presentCommit →
       s.badAmong (queueState v 0 :: (inEntry g v false (clauseSeq c), 64) :: g.slotRecord v g.presentCommit) = none →
       let a := inEntry g v false (clauseSeq c)
       let c' := setClause (setClause c 303 288 g.image.stage) 287 256 g.presentCommit
       ∃ t, exec (.clsTake e w) s = .next (advance k t) ∧
         t = { s with engines := t.engines, stages := t.stages, ingest := t.ingest, mem := t.mem, badWords := t.badWords } ∧
         (∀ b, memRead t.mem b =
           if a ≤ b ∧ b < a + 64 then BitVec.ofNat 8 (c'.toNat >>> (8 * (b - a))) else memRead s.mem b) ∧
         t.ingest = { s.ingest with consumed := s.ingest.consumed + if g.isFirst then 1 else 0 } ∧
         (∀ i, i ≠ v → t.stage i = s.stage i) ∧ (∀ i, i ≠ k → t.eng i = s.eng i) ∧
         t.eng k = { (s.eng k).wv k w.vd.toNat (setBits ((s.eng k).rv w.vd.toNat) 0 512 c'.toNat) with taking := false } ∧
         (t.stage v).forwardIn = { g.forwardIn with
           items := rest, held := g.forwardIn.held ++ [c'], rewindable := g.forwardIn.rewindable + 1 } ∧
         (t.stage v).records = g.records ++ [⟨clauseMb c, g.presentCommit, [], g.freeRecord⟩] ∧ (t.stage v).takes = g.takes + 1 ∧
         (t.stage v).tenses = (g.tenses.map fun t => if t.state = 2 then { t with refs := t.refs + 1 } else t) ∧
         ((t.stage v).outQ g.isLast).reserved = (g.outQ g.isLast).reserved + 1 ∧
         (t.stage v).current = some (clauseKind c', clauseMb c', clauseCommit c')) ∧
     (g.forwardIn.items = [] ∨ (s.eng k).taking = true → g.backwardIn.items ≠ [] ∨ 0 < g.backwardIn.replay →
       ∃ t t', exec (.clsTake e w) s = .next (advance k t) ∧ OnlyStage v { g with wantForward := none } s t' ∧
         OnlyEng k { (s.eng k).wv k w.vd.toNat (setBits ((s.eng k).rv w.vd.toNat) 0 512 0) with taking := false } t' t))

/-- Clauses of a module's own stages: the head of the source's out-queue enters the destination's in-queue and its entry
of the Clause store, its payload the receive slot of its SEQ, byte for byte, while the destination has credit; a forward
Clause lets a backward one with credit on the same path go first (R178 to R180, R182). -/
def Obligations.ClauseDelivery : Prop :=
  ∀ (v : Fin 16) (back : Bool) (s : State) (u : Nat) (c : BitVec 512) (rest : List (BitVec 512)),
    let g := s.stage v.val
    let n := clauseLen c * 256
    let dst := g.slotAddr back ((g.inQ back).delivered % 2 ^ 32)
    s.findStage (if back then g.succ else g.predecessor) = some u → u ≠ v.val →
    ((s.stage u).outQ back).items = c :: rest → (s.stage u).live = true → g.loaded = true →
    (g.credit back = false → exec (.clauseDelivery v back) s = .next s) ∧
    (back = false → s.backwardWaits (s.stage u).image.die g.image.die = true → exec (.clauseDelivery v back) s = .next s) ∧
    (g.credit back = true → back = true ∨ s.backwardWaits (s.stage u).image.die g.image.die = false →
      s.deliveryDie g dst = none → n = 0 ∨ s.absent (clauseAddr c / 2 ^ 40) = false →
      s.badAmong [queueState u (2 + bit back), (outEntry (s.stage u) u back (clauseSeq c), 64), (clauseAddr c, n)] = none →
      s.badAmong [queueState v.val (bit back)] = none →
      let a := inEntry g v.val back (clauseSeq c)
      let c' := setClause c 175 128 (if clauseLen c = 0 then 0 else dst)
      ∃ t, exec (.clauseDelivery v back) s = .next t ∧
        t = { s with mem := t.mem, badWords := t.badWords, stages := t.stages } ∧
        (∀ b, memRead t.mem b = if a ≤ b ∧ b < a + 64 then BitVec.ofNat 8 (c'.toNat >>> (8 * (b - a)))
          else if dst ≤ b ∧ b < dst + n then memRead s.mem (clauseAddr c + (b - dst)) else memRead s.mem b) ∧
        t.stage u = (s.stage u).updOut back (fun q => { q with items := rest }) ∧
        t.stage v.val = g.updIn back (fun q => { q with
          items := q.items ++ [c'], delivered := q.delivered + 1 }) ∧
        ∀ i, i ≠ u → i ≠ v.val → t.stage i = s.stage i)

/-- The barrier of a stage acts when every cell has reached it with the same instruction: after SYNC the cells go on,
after XRED each with the reduced value and its flags, and after END the stage code starts again in every cell with the
registers that the device sets (R137, R158, R165). That XRED with MAX takes negative values by their magnitude is the
model's choice (log 126). -/
def Obligations.StageBarrier : Prop :=
  ∀ (v : Fin 16) (s : State), (s.stage v.val).live = true → (s.stage v.val).cellKeys ≠ [] →
    let ks := (s.stage v.val).cellKeys
    ((∀ k ∈ ks, (s.eng k).stat = .waitSync ∧ (s.eng k).dmaQ = []) →
      exec (.stageBarrierRelease v) s =
        .next (forEach ks (fun k s => advance k (s.updEng k fun e => { e with stat := .running })) s)) ∧
    (∀ (mode : Nat) (x : Nat → W64) (d : Nat → Nat), (∀ k ∈ ks, (s.eng k).stat = .waitXred (x k) mode (d k)) →
      exec (.stageBarrierRelease v) s = .next (forEach ks (fun k s => advance k (s.updEng k fun e =>
        { (e.ws (match e.stat with | .waitXred _ _ d => d | _ => 0) (xredValue mode (ks.map x)).1).orV
            (xredValue mode (ks.map x)).2 with stat := .running })) s)) ∧
    ((∀ k ∈ ks, (s.eng k).stat = .waitEnd) → ks.Nodup → (∀ k ∈ ks, isInflector k = false ∧ s.stageOfCell k = some v.val) →
      (s.stage v.val).image.groups = [] →
      ∃ t, exec (.stageBarrierRelease v) s = .next t ∧ t = { s with engines := t.engines, stages := t.stages } ∧
        ∀ i, i < ks.length → (t.eng (ks.getD i 0)).pc = 0 ∧ (t.eng (ks.getD i 0)).stat = .running ∧
          (t.eng (ks.getD i 0)).rs 1 = BitVec.ofNat 64 i ∧ (t.eng (ks.getD i 0)).rs 2 = BitVec.ofNat 64 ks.length ∧
          (t.eng (ks.getD i 0)).rs 3 = BitVec.ofNat 64 v.val ∧
          (t.eng (ks.getD i 0)).rs 4 = BitVec.ofNat 64 (s.stage v.val).image.blockAddr)

/-- LAYER_GROUP_ENTRY, when every cell waits at a group's entry: an ordinary execution starts at the rung of the window or
of the predictor, a recomputation at the rung that its micro-batch's record gives, every cell of the stage goes to that
variant's first instruction, what CHECK_FRACTION_SET has set takes effect, and the takes before the entry can no longer
be rewound but for those that a resume has still to return again. REPLAY_START at the abort barrier: the group starts
again one rung higher, its held Clauses are dropped, its takes are returned again, and every cell goes to the higher
variant's first instruction with the loops around the group as they were (R36, R121, R123, R125, R126, R272, R456,
R457). -/
def Obligations.GroupEntryAndReplay : Prop :=
  (∀ (v : Fin 16) (s : State) (id : Nat) (d : BitVec 256),
     let g := s.stage v.val
     g.live = true → g.exec = none → s.entryGroup v.val = some id → g.decl id = some d → declId d = id →
     (∀ x, g.current = some x → s.badAmong (g.mbRange v.val x.2.1) = none) →
     let rec' := g.recomputes d
     let rung := if rec' then g.recordedRung id
       else max (sget 0 g.windowRungs id) (if 2 ≤ declRungs d ∧ ∃ p ∈ g.preds, p.group = id ∧ p.widen = true then 1 else 0)
     ∃ t, exec (.layerGroupEntry v) s = .next t ∧
       t = { s with engines := t.engines, stages := t.stages, badWords := t.badWords, job := t.job } ∧
       (match g.shadowNext with
        | some x => (t.stage v.val).shadowCode = x.1 ∧ (t.stage v.val).shadowKey = x.2.1 ∧
            t.job = { s.job with respLog := x.2.2.getD s.job.respLog }
        | none => (t.stage v.val).shadowCode = g.shadowCode ∧ t.job = s.job) ∧
       (t.stage v.val).exec = some ⟨id, rung, rec', none⟩ ∧
       (t.stage v.val).forwardIn.rewindable = g.forwardIn.replay ∧
       (t.stage v.val).backwardIn.rewindable = g.backwardIn.replay ∧ (∀ u, u ≠ v.val → t.stage u = s.stage u) ∧
       (∀ k, k ∉ g.cellKeys → t.eng k = s.eng k) ∧
       ∀ k ∈ g.cellKeys, t.eng k = { s.eng k with
         stat := .running, pc := declEntry d rung, ordinal := 0, outerLoops := (s.eng k).loops.length }) ∧
  (∀ (v : Fin 16) (lost : W32) (s : State) (x : Exec) (d : BitVec 256),
     let g := s.stage v.val
     g.live = true → g.exec = some x → g.decl x.group = some d →
     s.cellsAll v.val (fun e => e.stat == .aborted && e.dmaQ.isEmpty) = true →
     ∃ t, exec (.replayStart v lost) s = .next t ∧
       t = { s with engines := t.engines, stages := t.stages, badWords := t.badWords } ∧
       (t.stage v.val).exec = some { x with rung := x.rung + 1, ovf := none } ∧
       (t.stage v.val).forwardOut.heldBack = [] ∧ (t.stage v.val).backwardOut.heldBack = [] ∧
       (t.stage v.val).forwardIn.replay = g.forwardIn.rewindable ∧
       (t.stage v.val).backwardIn.replay = g.backwardIn.rewindable ∧
       (t.stage v.val).replayR1 = (if x.rung = 0 then satInc g.replayR1 else g.replayR1) ∧
       (t.stage v.val).replayR2 = (if x.rung = 0 then g.replayR2 else satInc g.replayR2) ∧
       (t.stage v.val).logSeq = g.logSeq + 1 ∧ (∀ u, u ≠ v.val → t.stage u = s.stage u) ∧
       (∀ k, k ∉ g.cellKeys → t.eng k = s.eng k) ∧
       ∀ k ∈ g.cellKeys, (t.eng k).stat = .running ∧ (t.eng k).pc = declEntry d (x.rung + 1) ∧ (t.eng k).ordinal = 0 ∧
         (t.eng k).loops = (s.eng k).loops.drop ((s.eng k).loops.length - (s.eng k).outerLoops))

/-- LAYER_GROUP_END, when every cell has left the variant and every tile of the group is complete: the execution ends, the
rung stays in the window, the takes before it are settled, and the cells go on after END0; where a pause waits for the
group's end the stage halts there. An execution that ended in overflow at its highest rung counts in PROPAGATED (R121,
R124, R126, R374, R457), as does a recomputation at a lower recorded rung by the model's choice (log 127). -/
def Obligations.GroupEnd : Prop :=
  ∀ (v : Fin 16) (s : State) (x : Exec) (d : BitVec 256),
    let g := s.stage v.val
    g.live = true → g.exec = some x → g.decl x.group = some d → declId d = x.group → s.groupDone v.val x.group = true →
    g.async = false → g.forwardOut.heldBack = [] → g.backwardOut.heldBack = [] → (∀ p ∈ g.preds, p.group ≠ x.group) →
    g.cellKeys.Nodup → (∀ k ∈ g.cellKeys, isInflector k = false ∧ s.stageOfCell k = some v.val) →
    let after := fun t : State => t = { s with engines := t.engines, stages := t.stages, badWords := t.badWords } ∧
      (∀ u, u ≠ v.val → t.stage u = s.stage u) ∧
      (t.stage v.val).exec = none ∧ (t.stage v.val).restart = declEnd d 0 + 1 ∧
      (x.recomp = false → sget 0 (t.stage v.val).windowRungs x.group = x.rung) ∧
      (t.stage v.val).propagated = (if x.ovf.isSome then satInc g.propagated else g.propagated) ∧
      (t.stage v.val).forwardIn.rewindable = g.forwardIn.replay ∧
      (t.stage v.val).backwardIn.rewindable = g.backwardIn.replay
    (g.pauseAt = 1 → ∃ t, exec (.layerGroupEnd v) s = .next t ∧ after t ∧ (t.stage v.val).haltCode = 0x0702 ∧
      (t.stage v.val).haltFinal = false ∧ ∀ k ∈ g.cellKeys, (t.eng k).stat = .halted ∧ (t.eng k).ordinal = 0) ∧
    (g.pauseAt ≠ 1 → (∀ k ∈ g.cellKeys, g.entryAt (loopNext (declEnd d 0) (s.eng k).loops).1 = none ∧
        g.inAnyRange (loopNext (declEnd d 0) (s.eng k).loops).1 = false) →
      ∃ t, exec (.layerGroupEnd v) s = .next t ∧ after t ∧ (t.stage v.val).haltCode = 0 ∧
        ∀ k ∈ g.cellKeys, t.eng k = { s.eng k with
          stat := .running, ordinal := 0, outerLoops := 0, pc := (loopNext (declEnd d 0) (s.eng k).loops).1
          loops := (loopNext (declEnd d 0) (s.eng k).loops).2 })

/-- VIEW_FILL: the image of the wanted tag goes into the view; where a shard's digest does not match the slot's table the
view is empty, EV_AGREEMENT_FAULT is raised and the stage halts; else the view holds the tag. PAST_ENCODE of an old
present that still holds its slot, where the delta fits, and REBASE of one delta: the bytes written are the delta's
encoding against the present image, and no other byte of memory changes; SPILL copies the image to host memory (R203
to R206, R208, R209). While a fence runs, and until the resume after it, none of the three goes on (R451). -/
def Obligations.TenseLogic : Prop :=
  (∀ (v : Fin 16) (back : Bool) (glitch : Option (Fin 32)) (s : State) (c : Nat) (x : TenseSlot),
     let g := s.stage v.val
     let img := s.materialise g x
     let a := if back then g.image.backwardView else g.image.forwardView
     g.live = true → (if back then g.wantBackward else g.wantForward) = some c →
     (g.tenses.find? fun t => t.holds && t.commit == c) = some x →
     s.badAmong (g.slotRecord v.val c ++ (x.sdigAddr, 16 * s.job.z) :: g.sourceRanges x) = none →
     (x.state = 5 → s.offloadWaits = false) →
     x.sdigAddr + 512 ≤ a ∨ a + img.length ≤ x.sdigAddr → s.job.z ≤ 32 →
     ((∀ r, r < s.job.z → shardDigest (shardBytes (g.shardRanges s.job.z r) img) = s.sdig x r) →
       ∃ t, exec (.viewFill v back glitch) s = .next t ∧
         t = { s with mem := t.mem, badWords := t.badWords, faults := t.faults, stages := t.stages } ∧
         (∀ b, memRead t.mem b = if a ≤ b ∧ b < a + img.length then img.getD (b - a) 0 else memRead s.mem b) ∧
         (t.stage v.val).viewForward = (if back then g.viewForward else some c) ∧
         (t.stage v.val).viewBackward = (if back then some c else g.viewBackward) ∧
         (t.stage v.val).tenses = g.tenses ∧ ∀ u, u ≠ v.val → t.stage u = s.stage u) ∧
     ((∃ r, r < s.job.z ∧ shardDigest (shardBytes (g.shardRanges s.job.z r) img) ≠ s.sdig x r) →
       ∃ t, exec (.viewFill v back glitch) s = .next t ∧ (t.stage v.val).haltCode = 0x0303 ∧
         (t.stage v.val).haltFinal = true ∧ (if back then (t.stage v.val).viewBackward else (t.stage v.val).viewForward) = none)) ∧
  (∀ (v : Fin 16) (s : State) (i : Fin 8) (p : TenseSlot),
     let g := s.stage v.val
     g.live = true → s.fenced = false → (g.tenses.find? fun t => t.state == 2) = some p →
     (∀ j, g.flip = some j → j.encoded = false → j.slot = some i.val →
       let old := g.image.buffers.getD j.oldBuffer 0
       let d := encodeDelta g.pages (s.imageAt g old) (s.imageAt g p.addr)
       s.badAmong (g.slotRecord v.val p.commit ++ [(old, g.pages * 4096), (p.addr, g.pages * 4096)]) = none →
       g.deltaBytes + d.length ≤ g.pastBudget →
       ∃ t, exec (.pastEncode v) s = .next t ∧
         t = { s with mem := t.mem, badWords := t.badWords, stages := t.stages } ∧
         (∀ b, memRead t.mem b = if g.deltaAddr i.val ≤ b ∧ b < g.deltaAddr i.val + d.length
           then d.getD (b - g.deltaAddr i.val) 0 else memRead s.mem b) ∧
         (∀ u, u ≠ v.val → t.stage u = s.stage u) ∧
         ∀ y, g.tenses[i.val]? = some y → y.state = 3 → y.commit = j.oldCommit → j.rebases = [] →
           (t.stage v.val).flip = none ∧ (t.stage v.val).tenses[i.val]? =
             some { y with state := 4, base := p.commit, addr := g.deltaAddr i.val, dsize := d.length / 16 }) ∧
     (∀ j x, g.flip = some j → j.encoded = true → j.rebases.contains i.val = true → g.tenses[i.val]? = some x → x.state = 4 →
       let d := encodeDelta g.pages (s.materialise g x) (s.imageAt g p.addr)
       s.badAmong (tenseAddr v.val i.val :: (p.addr, g.pages * 4096) :: g.sourceRanges x) = none →
       ∃ t, exec (.rebase v i) s = .next t ∧
         t = { s with mem := t.mem, badWords := t.badWords, stages := t.stages } ∧
         (∀ b, memRead t.mem b = if x.addr ≤ b ∧ b < x.addr + d.length then d.getD (b - x.addr) 0 else memRead s.mem b) ∧
         (∀ u, u ≠ v.val → t.stage u = s.stage u) ∧
         (t.stage v.val).tenses[i.val]? = some { x with base := p.commit, dsize := d.length / 16 }) ∧
     (∀ x, g.tenses[i.val]? = some x → x.state = 4 → (∀ u ∈ g.tenses, u.state = 4 → u.commit ≤ x.commit) →
       g.spillRoom = true → Stage.spillDue s g = true → s.badAmong (tenseAddr v.val i.val :: g.sourceRanges x) = none →
       s.offloadWaits = false → 2 ^ 47 ≤ g.spillPlace →
       ∃ t, exec (.spill v i) s = .next t ∧ t = { s with hostMem := t.hostMem, stages := t.stages } ∧
         (∀ b, memRead t.hostMem b = if g.spillPlace - 2 ^ 47 ≤ b ∧ b < g.spillPlace - 2 ^ 47 + (s.materialise g x).length
           then (s.materialise g x).getD (b - (g.spillPlace - 2 ^ 47)) 0 else memRead s.hostMem b) ∧
         (∀ u, u ≠ v.val → t.stage u = s.stage u) ∧
         (t.stage v.val).tenses[i.val]? = some { x with state := 5, addr := g.spillPlace, dsize := 0, base := 0 })) ∧
  (∀ (v : Fin 16) (s : State) (i : Fin 8), s.fenced = true →
     exec (.pastEncode v) s = .next s ∧ exec (.rebase v i) s = .next s ∧ exec (.spill v i) s = .next s)

/-- A delta of R206 gives back the image that it was formed from: page by page, the encoding against a base, read from
memory and applied to that base, is the image. -/
def Obligations.DeltaRoundTrip : Prop :=
  ∀ (s : State) (pages a p : Nat) (img base : List Byte), img.length = 4096 * pages → base.length = 4096 * pages →
    p < pages → 257 * pages + 1 ≤ 2 ^ 30 →
    let d := encodeDelta pages img base
    xorBytes ((base.drop (4096 * p)).take 4096) (deltaPage (s.store a d) a p) = (img.drop (4096 * p)).take 4096

/-- The digest PD: folding a run of bytes is folding a whole number of blocks of it and then the rest, so DIGEST ADD in
pieces gives PD of the whole; and a block fold is linear, so equal digests of two runs of equal length depend on their
difference alone (R169, R251). -/
def Obligations.DigestInPieces : Prop :=
  (∀ (y : Nat) (a b : List Byte), a.length % 16 = 0 →
    pdRange (a ++ b).length y (a ++ b) = pdRange b.length (pdRange a.length y a) b) ∧
  (∀ a b c : Nat, gmul (a ^^^ b) c = gmul a c ^^^ gmul b c)

/-- The gradient path: SHARD_SEND sends an owner's shard with its digest to the others of its subgroup, once;
REDUCED_SHARD_COMPLETE holds the reduced shard and bit when all G contributions are in, and clears the gradient slot;
a reduced element of a sign rule is the sign of the sum of the G votes, whatever their order (R214, R229 to R233). -/
def Obligations.GradientAndVote : Prop :=
  ((∀ (v : Fin 16) (s : State) (x : TenseSlot),
     let g := s.stage v.val
     let rs := g.shardRanges s.job.z s.shard
     let bs := shardBytes rs (s.imageAt g x.addr)
     g.live = true → (g.tenses.find? fun t => t.state == 1) = some x → g.dig = .closed ∨ g.committing.isSome = true →
     1 < s.job.z → s.badAmong (g.slotRecord v.val x.commit ++ rs.map fun r => (x.addr + r.1, r.2)) = none →
     (g.update.shardSent = true → exec (.shardSend v) s = .next s) ∧
     (g.update.shardSent = false →
       ∃ t, exec (.shardSend v) s = .next t ∧ t = { s with ports := t.ports, transit := t.transit, stages := t.stages } ∧
         (t.stage v.val) = { g with update := { g.update with shardSent := true } } ∧ (∀ u, u ≠ v.val → t.stage u = s.stage u) ∧
         ∀ q ∈ s.subgroup, (shardMessage v.val g.image.stage x.commit s.shard q bs (shardDigest bs)) ∈
           t.transit ++ (List.range 8).flatMap fun p => (t.port p).out)) ∧
   (∀ (v : Fin 16) (s : State),
     let g := s.stage v.val
     let j := g.update.reductions + 1
     let cs := g.contribsOf j s.job.g
     g.live = true → g.update.reduced = none → cs.length = s.job.g → j ≤ g.update.submitted →
     g.readyUpdates ≤ g.update.submitted →
     ∃ t, exec (.reducedShardComplete v) s = .next t ∧
       t = { s with mem := t.mem, badWords := t.badWords, stages := t.stages } ∧
       (∀ b, memRead t.mem b =
         if g.gradSlot j ≤ b ∧ b < g.gradSlot j + g.gradBytes then 0 else memRead s.mem b) ∧
       (t.stage v.val).update.reductions = j ∧
       (t.stage v.val).update.reduced =
         some ⟨j, (reduceShard (g.wire j) cs).2 || cs.any (·.nonFinite), (reduceShard (g.wire j) cs).1⟩ ∧
       (∀ c ∈ (t.stage v.val).update.contributions, c.update ≠ j) ∧ ∀ u, u ≠ v.val → t.stage u = s.stage u)) ∧
  (∀ (cs ds : List Nat), (∀ c ∈ cs, c = 0 ∨ c = 1 ∨ c = 3) → cs.Perm ds →
     voteCode cs = voteCode ds ∧
     voteCode cs = if cs.count 3 < cs.count 1 then 1 else if cs.count 1 < cs.count 3 then 3 else 0)

/-- UPDATE_START of the update that an idle Inflector takes next: a free Tense slot becomes BUILDING for the next COMMIT
in the buffer that is not present, the reduced shard enters VOTE, and the rule's run starts with s1 to s3 set; at COMMIT
2^32 - 1 EV_TENSE_LIMIT halts the stage and nothing starts. The final phase of a COMMIT begins when every shard is in,
the step's takes have happened and the verdict is known: a skip releases the BUILDING slot, leaves the present Tense,
masters and moments, counts in SKIPS and raises EV_UPDATE_SKIPPED; where no gradient waits to be submitted, a flip makes
the BUILDING Tense present and the old one past, and swaps the buffers and the masters in the same step (R170, R195,
R214, R216, R227, R234, R241, R242, R247). -/
def Obligations.UpdateRun : Prop :=
  (∀ (v : Fin 16) (s : State) (i : Nat),
     let g := s.stage v.val
     let k := g.image.die * 128 + 97
     (s.eng k).stat = .idle → s.nextUpdate k = some v.val → (g.findTense fun t => t.state == 0) = some i →
     (g.presentCommit = 0xFFFFFFFF → ∃ t, exec (.updateStart v) s = .next t ∧ HaltOnly s t ∧
       (t.stage v.val).haltCode = 0x0206 ∧ (t.stage v.val).haltFinal = true) ∧
     (g.presentCommit ≠ 0xFFFFFFFF →
       s.badWords = [] →
       ∃ t, exec (.updateStart v) s = .next t ∧
         t = { s with mem := t.mem, badWords := t.badWords, stages := t.stages, engines := t.engines } ∧
         (∀ u, u ≠ v.val → t.stage u = s.stage u) ∧ (∀ j, j ≠ k → t.eng j = s.eng j) ∧
         (t.stage v.val).tenses[i]? = some { state := 1, commit := g.presentCommit + 1
                                             addr := g.image.buffers.getD (1 - g.fullBuffer) 0, sdigAddr := g.sdigAddr i } ∧
         (t.stage v.val).update.building = some (g.update.done + 1) ∧
         (t.stage v.val).reducedBit (g.update.done + 1) = g.reducedBit (g.update.done + 1) ∧
         (t.eng k).stat = .running ∧ (t.eng k).pc = 0 ∧ (t.eng k).ruleStage = some v.val ∧ (t.eng k).committed = false ∧
         (t.eng k).rs 1 = BitVec.ofNat 64 v.val ∧ (t.eng k).rs 2 = BitVec.ofNat 64 g.image.ruleArea ∧
         (t.eng k).rs 3 = BitVec.ofNat 64 g.presentCommit ∧
         ((∀ x ∈ g.loads, g.presentCommit < x.commit) → (s.eng k).clearDue = false → ∀ j, 4 ≤ j → (t.eng k).rs j = (s.eng k).rs j) ∧
         ((∃ x ∈ g.loads, x.commit ≤ g.presentCommit ∧ x.rule.isSome = true) → ∀ j, 4 ≤ j → (t.eng k).rs j = 0))) ∧
  (∀ (v : Fin 16) (s : State) (j : Nat) (skip : Bool) (vd : Option Nat),
     let g := s.stage v.val
     let k := g.image.die * 128 + 97
     g.committing = some vd → g.update.building = some j → g.verdictOf j = some skip → g.live = true →
     (∃ x ∈ g.tenses, x.state = 1 ∧ x.shards = s.job.z) → j * g.u + g.lag ≤ g.takes →
     s.checking = false → g.pauseAt = 0 → g.readyUpdates ≤ g.update.submitted →
     (skip = true → s.chip.parserHeld = false →
       ∃ t, exec (.commitFinalPhase v) s = .next t ∧ (t.stage v.val).committing = none ∧
         (t.stage v.val).tenses = (g.tenses.map fun x => if x.state = 1 then {} else x) ∧
         (t.stage v.val).fullBuffer = g.fullBuffer ∧ (t.stage v.val).masterRole = g.masterRole ∧
         (t.stage v.val).skips = satInc g.skips ∧ (t.stage v.val).update.done = j ∧ t.mem = s.mem ∧
         (∀ d, vd = some d → d ≠ 0 → (t.eng k).rs d = BitVec.ofNat 64 (g.presentCommit + 2 ^ 63)) ∧
         sget 0 t.evSeq (tenseUnit g.image.die * 16) = sget 0 s.evSeq (tenseUnit g.image.die * 16) + 1) ∧
     (skip = false → s.job.agreeD = 0 →
       ∃ t, exec (.commitFinalPhase v) s = .next t ∧ t = { s with stages := t.stages, engines := t.engines } ∧
         (t.stage v.val).committing = none ∧ (t.stage v.val).fullBuffer = 1 - g.fullBuffer ∧
         (t.stage v.val).masterRole = 1 - g.masterRole ∧ (t.stage v.val).update.done = j ∧
         (t.stage v.val).skips = g.skips ∧
         (∀ d, vd = some d → d ≠ 0 → (t.eng k).rs d = BitVec.ofNat 64 (t.stage v.val).presentCommit) ∧
         (∀ u, u ≠ v.val → t.stage u = s.stage u) ∧
         ∀ (i : Nat) (x : TenseSlot), g.tenses[i]? = some x → (t.stage v.val).tenses[i]? = some (
           if x.state = 1 then { x with state := 2, adig := g.commitDig }
           else if x.state = 2 then (if x.refs = 0 ∧ x.pin = false then {} else { x with state := 3 })
           else if 3 ≤ x.state ∧ x.state ≤ 5 ∧ x.refs = 0 ∧ x.pin = false then {} else x)))

/-- A frame that Table 13.5a turns away has no effect but on its port's link: outside UP none at all; with a wrong CRC it
is counted; out of sequence it is not accepted, and either way at most one NAK goes out; with another JOB it is
accepted by the link, counted and discarded (R341, R343). -/
def Obligations.FrameChecks : Prop :=
  ∀ x ∈ frameRows, ∀ (p : Fin 8) (f : Frame) (s : State), hType f.header ∈ x.1 →
    let q := s.port p.val
    (q.state ≠ 2 → exec (x.2 p f) s = .next s) ∧
    (q.state = 2 → frameCrc f.header f.payload ≠ hCrc f.header →
      ∃ t, exec (x.2 p f) s = .next t ∧ t = { s with ports := t.ports, sent := t.sent } ∧
        (∀ i, i ≠ p.val → t.port i = s.port i) ∧ (t.port p.val).rxSeq = q.rxSeq ∧ (t.port p.val).unacked = q.unacked ∧
        (t.port p.val).counters = (q.count 8 1).counters ∧ (t.port p.val).linkFreed = q.linkFreed ∧
        t.sent.length ≤ s.sent.length + 1 ∧ (sequenced (hType f.header) = false → t.sent = s.sent)) ∧
    (q.state = 2 → frameCrc f.header f.payload = hCrc f.header → sequenced (hType f.header) = true →
      hSeq f.header ≠ q.expected →
      ∃ t, exec (x.2 p f) s = .next t ∧ t = { s with ports := t.ports, sent := t.sent } ∧
        (∀ i, i ≠ p.val → t.port i = s.port i) ∧ (t.port p.val).rxSeq = q.rxSeq ∧ (t.port p.val).nakOut = true ∧
        (t.port p.val).linkFreed = q.linkFreed ∧ t.sent.length = s.sent.length + if q.nakOut then 0 else 1) ∧
    (q.state = 2 → frameCrc f.header f.payload = hCrc f.header →
      (sequenced (hType f.header) = true → hSeq f.header = q.expected) → hJob f.header ≠ s.portJob p.val →
      ∃ t, exec (x.2 p f) s = .next t ∧ t = { s with ports := t.ports, sent := t.sent } ∧
        (∀ i, i ≠ p.val → t.port i = s.port i) ∧ (t.port p.val).counters = (q.count 10 1).counters)

/-- What accepting a frame does to its port: a sequenced frame becomes the last received, is counted and frees its buffer;
the acknowledged frames leave the retry buffer; nothing else changes. An ACK brings the partner's link credit, a NAK
also counts, and sends every unacknowledged frame again, each of which counts its own resends, or after the sixteenth
of the oldest the port retrains; and a CREDIT entry of a STAGE port's stream is kept with FREED, ACCEPTED and AUX (R340
to R344). -/
def Obligations.LinkFrames : Prop :=
  (∀ (p : Nat) (f : Frame) (s : State),
     let q := s.port p
     linkIn p f s = { s with ports := (linkIn p f s).ports } ∧ (∀ i, i ≠ p → (linkIn p f s).port i = s.port i) ∧
     (sequenced (hType f.header) = true →
       ((linkIn p f s).port p).rxSeq = BitVec.ofNat 32 (hSeq f.header) ∧ ((linkIn p f s).port p).rxAny = true ∧
       ((linkIn p f s).port p).linkFreed = q.linkFreed + 1 ∧ ((linkIn p f s).port p).sinceAck = q.sinceAck + 1 ∧
       ((linkIn p f s).port p).expected = (hSeq f.header + 1) % 2 ^ 32) ∧
     ((∀ u ∈ q.unacked, hSeq u.header ≠ hAck f.header) → ((linkIn p f s).port p).unacked = q.unacked) ∧
     (∀ us u vs, q.unacked = us ++ u :: vs → hSeq u.header = hAck f.header → (∀ x ∈ us, hSeq x.header ≠ hAck f.header) →
       ((linkIn p f s).port p).unacked = vs)) ∧
  (∀ (p : Fin 8) (f : Frame) (s : State), FrameOk p.val f s →
     let s1 := linkIn p.val f s
     (hType f.header = 3 → ∃ t, exec (.ackFrame p f) s = .next (ackDue p.val t) ∧
       OnlyPort p.val { s1.port p.val with linkCredit := BitVec.ofNat 32 (hTag f.header) } s1 t) ∧
     (hType f.header = 4 → (s1.port p.val).unacked = [] → ∃ t, exec (.nakFrame p f) s = .next (ackDue p.val t) ∧
       OnlyPort p.val { (s1.port p.val).count 3 1 with linkCredit := BitVec.ofNat 32 (hTag f.header) } s1 t) ∧
     (hType f.header = 4 → 16 ≤ (s1.port p.val).resends → (s1.port p.val).unacked ≠ [] →
       ∃ t, exec (.nakFrame p f) s = .next (ackDue p.val t) ∧ (t.port p.val).state = 3 ∧ (t.port p.val).attempts = 0 ∧
         (t.port p.val).unacked = (s1.port p.val).unacked ∧ t.sent = s.sent) ∧
     (hType f.header = 4 → (s1.port p.val).resends < 16 → (s1.port p.val).unacked ≠ [] →
       (∀ u ∈ (s1.port p.val).unacked, u.src = none) →
       ∃ t, exec (.nakFrame p f) s = .next (ackDue p.val t) ∧ t = { s with ports := t.ports, sent := t.sent } ∧
         (t.port p.val).resends = (s1.port p.val).resends + 1 ∧
         t.sent.length = s.sent.length + (s1.port p.val).unacked.length ∧
         (t.port p.val).unacked = (s1.port p.val).unacked.map fun u => { u with resends := u.resends + 1 }) ∧
     (hType f.header = 10 → (s.port p.val).role = 1 ∨ (s.port p.val).role = 2 → hPlen f.header = 1 →
       let x := leNat (f.payload.take 16)
       bits x 19 16 ≤ 1 → ∃ t, exec (.creditFrame p f) s = .next (ackDue p.val t) ∧
         t = { s with ports := t.ports, stages := t.stages } ∧
         sget {} (t.port p.val).credits (creditKey (bits x 19 16) (bits x 15 0) 0) =
           ⟨BitVec.ofNat 32 (bits x 95 64), BitVec.ofNat 32 (bits x 63 32), BitVec.ofNat 32 (bits x 127 96)⟩ ∧
         (∀ m ∈ (t.port p.val).out, acceptedBy false (hSrc f.header) (bits x 19 16) (bits x 15 0) (bits x 63 32)
           (bits x 127 96) m = false) ∧ ∀ v, (t.stage v).tenses = (s.stage v).tenses))

/-- DATA and CLAUSE frames of a STAGE port: payload bytes go to the receive slot of their Clause; a frame beyond the slot
refuses its Clause with EV_CLAUSE_OVERSIZE and the halt of the destination, and writes nothing. The expected Clause
enters its in-queue and its entry of the Clause store, one whose LEN exceeds the slot halts the destination with
EV_CLAUSE_OVERSIZE, one whose payload was refused is discarded, an earlier one counts as a duplicate, a later one halts
the destination with EV_CLAUSE_SEQ (R177, R179 to R181, R338). -/
def Obligations.StageFrames : Prop :=
  ∀ (p : Fin 8) (f : Frame) (s : State) (v : Nat), FrameOk p.val f s → (s.port p.val).role = 1 ∨ (s.port p.val).role = 2 →
    s.findStage (hStage f.header) = some v →
    let g := s.stage v
    let back := hSub f.header % 2 == 1
    let have' := (g.inQ back).delivered % 2 ^ 32
    (hType f.header = 1 →
      let a := g.slotAddr back (hTag f.header) + 16 * hOffset f.header
      let n := 16 * hPlen f.header
      (below (hTag f.header) have' = true → exec (.dataFrame p f) s = .next (ackDue p.val (linkIn p.val f s))) ∧
      (below (hTag f.header) have' = false → 16 * hOffset f.header + n ≤ g.slotLen back → s.absent (a / 2 ^ 40) = false →
        ∃ t, exec (.dataFrame p f) s = .next (ackDue p.val t) ∧
          t = { linkIn p.val f s with mem := t.mem, badWords := t.badWords } ∧
          ∀ b, memRead t.mem b = if a ≤ b ∧ b < a + n then (fit n f.payload).getD (b - a) 0 else memRead s.mem b) ∧
      (below (hTag f.header) have' = false → g.slotLen back < 16 * hOffset f.header + n →
        ((g.inQ back).refused = some (hTag f.header) →
          exec (.dataFrame p f) s = .next (ackDue p.val (linkIn p.val f s))) ∧
        ((g.inQ back).refused ≠ some (hTag f.header) → g.loaded = true → g.haltCode = 0 →
          s.findStage g.image.stage = some v →
          ∃ t, exec (.dataFrame p f) s = .next (ackDue p.val t) ∧ HaltOnly (linkIn p.val f s) t ∧
            (t.stage v).haltCode = 0x0202 ∧ (t.stage v).haltFinal = true ∧
            ((t.stage v).inQ back).refused = some (hTag f.header) ∧ ((t.stage v).inQ back).items = (g.inQ back).items))) ∧
    (hType f.header = 2 →
      let c := BitVec.ofNat 512 (leNat (f.payload.take 64))
      (below (clauseSeq c) have' = true →
        ∃ t, exec (.clauseFrame p f) s = .next (ackDue p.val t) ∧
          OnlyStage v (g.updIn back fun q => { q with dups := satInc q.dups }) (linkIn p.val f s) t) ∧
      (clauseSeq c = have' → (g.inQ back).refused = some have' →
        exec (.clauseFrame p f) s = .next (ackDue p.val (linkIn p.val f s))) ∧
      (clauseSeq c = have' → (g.inQ back).refused ≠ some have' → g.slotLen back < clauseLen c * 256 → g.loaded = true →
        g.haltCode = 0 → s.findStage g.image.stage = some v →
        ∃ t, exec (.clauseFrame p f) s = .next (ackDue p.val t) ∧ HaltOnly (linkIn p.val f s) t ∧
          (t.stage v).haltCode = 0x0202 ∧ (t.stage v).haltFinal = true ∧ (t.stage v).forwardIn = g.forwardIn ∧
          (t.stage v).backwardIn = g.backwardIn) ∧
      (below (clauseSeq c) have' = false → clauseSeq c ≠ have' → g.loaded = true → g.haltCode = 0 →
        ∃ t, exec (.clauseFrame p f) s = .next (ackDue p.val t) ∧ HaltOnly (linkIn p.val f s) t ∧
          (t.stage v).haltCode = 0x0203 ∧ (t.stage v).haltFinal = true ∧ (t.stage v).forwardIn = g.forwardIn ∧
          (t.stage v).backwardIn = g.backwardIn))

/-- Frames of a COLLECTIVE port for this module: a contribution is kept, a GMAX value is held, a Tense shard's piece is
kept in order, a request for a shard is answered or halts the owner, an Agreement record of another interval raises
EV_AGREEMENT_MISMATCH; a frame for another module goes on with its contents; tags count modulo 2^32 (R168, R214, R233,
R260, R352, R446). -/
def Obligations.CollectiveFrames : Prop :=
  ∀ (p : Fin 8) (f : Frame) (s : State) (v : Nat), FrameOk p.val f s → (s.port p.val).role = 3 →
    let h := f.header
    let s1 := linkIn p.val f s
    let g := s.stage v
    (hDst h = s.job.rank → s.findStage (hStage h) = some v →
      (hType h = 8 → hSub h = 1 → below (g.update.done % 2 ^ 32) (hTag h) = true →
        (∀ y ∈ g.update.gmaxVals, ¬ (y.update = hTag h ∧ y.ordinal = hOffset h ∧ y.rank = hSrc h)) →
        ∃ t, exec (.voteFrame p f) s = .next (ackDue p.val t) ∧ OnlyStage v { g with update := { g.update with
          gmaxVals := g.update.gmaxVals ++ [⟨hTag h, hOffset h, hSrc h, BitVec.ofNat 64 (leNat (f.payload.take 8))⟩] } }
          s1 t) ∧
      (∀ i, hType h = 8 ∧ hSub h ≠ 1 ∧ i = Instr.voteFrame p f ∨ hType h = 1 ∧ i = Instr.dataFrame p f →
        hOffset h = 0 → hLast h = false → below (g.update.reductions % 2 ^ 32) (hTag h) = true →
        (∀ c ∈ g.update.contributions, ¬ (c.update = hTag h ∧ c.rank = hSrc h)) →
        ∃ t, exec i s = .next (ackDue p.val t) ∧ OnlyStage v { g with update := { g.update with
          contributions := g.update.contributions ++ [⟨hTag h, hSrc h, false, Frame.meaning f, false⟩] } } s1 t) ∧
      (hType h = 7 → hOffset h = 0 → hLast h = false → (∃ x ∈ g.tenses, x.state = 1 ∧ x.commit = hTag h) →
        g.update.verified.contains (hSub h) = false →
        ∃ t, exec (.tenseDataFrame p f) s = .next (ackDue p.val t) ∧ OnlyStage v { g with update := { g.update with
          gather := (g.update.gather.filter fun x => x.2.1 != hSub h) ++ [(hTag h, hSub h, Frame.meaning f)] } } s1 t) ∧
      (hType h = 6 → g.loaded = true → g.haltCode = 0 → (∀ x ∈ g.tenses, 1 ≤ x.state → x.state ≤ 5 → x.commit ≠ hTag h) →
        ∃ t, exec (.tenseReqFrame p f) s = .next (ackDue p.val t) ∧ HaltOnly s1 t ∧ (t.stage v).haltCode = 0x0303) ∧
      (∀ x, hType h = 6 → (g.tenses.find? fun t => decide (1 ≤ t.state ∧ t.state ≤ 5) && t.commit == hTag h) = some x →
        s.badAmong (g.sourceRanges x) = none →
        let bs := shardBytes (g.shardRanges s.job.z (hSub h)) (s.materialise g x)
        ∃ t, exec (.tenseReqFrame p f) s = .next (ackDue p.val t) ∧ t = { s1 with ports := t.ports, transit := t.transit } ∧
          shardMessage v g.image.stage (hTag h) (hSub h) (hSrc h) bs (shardDigest bs) ∈
            t.transit ++ (List.range 8).flatMap fun i => (t.port i).out) ∧
      (hType h = 9 → (recordOf f.payload).d ≠ s.job.agreeD →
        ∃ t, exec (.digestFrame p f) s = .next (ackDue p.val t) ∧ t.stages = s.stages ∧ t.mem = s.mem ∧
          (s.chip.parserHeld = false → sget 0 t.evSeq (tenseUnit g.image.die * 16) =
            sget 0 s.evSeq (tenseUnit g.image.die * 16) + 1))) ∧
    (∀ i, hDst h ≠ s.job.rank → (hType h = 1 ∧ i = Instr.dataFrame p f ∨ hType h = 6 ∧ i = Instr.tenseReqFrame p f ∨
        hType h = 7 ∧ i = Instr.tenseDataFrame p f ∨ hType h = 8 ∧ i = Instr.voteFrame p f ∨
        hType h = 9 ∧ i = Instr.digestFrame p f) →
      ∃ t m, exec i s = .next (ackDue p.val t) ∧ t = { s1 with ports := t.ports, transit := t.transit } ∧
        m ∈ t.transit ++ ((List.range 8).flatMap fun i => (t.port i).out) ∧ m.forward = some h ∧ m.data = Frame.meaning f)

/-- HELLO: in JOINING the first join check that fails refuses the partner with its reason in EV_CJ_JOIN and the port
stays; an accepted partner is noted, and the port enters UP once its own HELLO has gone; in UP a HELLO of another
module or job takes the port DOWN, and the partner's replaces the copy before it. A HELLO whose NST is out of range, or
that has fewer entries, counts as a protocol error and does nothing else. HELLO_TIMER sends one (R19, R337, R339, R348
to R350). -/
def Obligations.Joining : Prop :=
  ∀ (p : Fin 8) (f : Frame) (s : State),
    let q := s.port p.val
    let x := helloOf f.payload
    let noted := { q with helloOk := true, partnerSerial := BitVec.ofNat 64 x.serial, partnerPort := x.port
                          partnerRole := x.role, partnerRank := x.rank, partnerStages := x.stages }
    (hType f.header = 5 → frameCrc f.header f.payload = hCrc f.header → protoBad q.role f.header = false →
      helloBad f = true → q.state = 1 ∨ q.state = 2 →
      ∃ t, exec (.helloFrame p f) s = .next t ∧ EventOnly { s with ports := t.ports } t ∧
        (t.port p.val).counters = (q.count 9 1).counters ∧ (t.port p.val).state = q.state ∧
        (t.port p.val).partnerStages = q.partnerStages ∧ ∀ i, i ≠ p.val → t.port i = s.port i) ∧
    (hType f.header = 5 → frameCrc f.header f.payload = hCrc f.header → protoBad q.role f.header = false →
      helloBad f = false → q.state = 1 →
      (∀ r, joinReason s p.val x = some r → ∃ t, exec (.helloFrame p f) s = .next t ∧ EventOnly s t ∧ t.ports = s.ports) ∧
      (joinReason s p.val x = none → q.helloSent = false →
        ∃ t, exec (.helloFrame p f) s = .next t ∧ OnlyPort p.val noted s t) ∧
      (joinReason s p.val x = none → q.helloSent = true → ∃ t, exec (.helloFrame p f) s = .next t ∧
        t = { s with ports := t.ports, evSeq := t.evSeq, host := t.host, hostMem := t.hostMem, mgmt := t.mgmt,
                     appo := t.appo, sent := t.sent } ∧
        (∀ i, i ≠ p.val → t.port i = s.port i) ∧ (t.port p.val).state = 2 ∧
        (t.port p.val).accepted = (q.accepted || decide (2 ≤ s.job.state)) ∧
        (t.port p.val).partnerSerial = BitVec.ofNat 64 x.serial ∧ (t.port p.val).txSeq = 0 ∧
        (t.port p.val).unacked = [] ∧ (t.port p.val).rxAny = false ∧ (t.port p.val).linkCredit = 0 ∧
        (t.port p.val).credits = [] ∧ ∀ m ∈ (t.port p.val).out, m.sent = 0 ∧ m.started = false ∧ m.finished = false)) ∧
    (hType f.header = 5 → frameCrc f.header f.payload = hCrc f.header → protoBad q.role f.header = false →
      helloBad f = false → q.state = 2 →
      x.serial ≠ q.partnerSerial.toNat ∨ q.role ≠ roleExport ∧ x.job ≠ s.job.id.toNat →
      ∃ t, exec (.helloFrame p f) s = .next t ∧ (t.port p.val).state = 0 ∧
        (q.role = 1 → ∀ v ∈ s.servedBy 1, (s.stage v).haltCode = 0 → (t.stage v).haltCode = 0x0601 ∧
          (t.stage v).haltFinal = false)) ∧
    (hType f.header = 5 → frameCrc f.header f.payload = hCrc f.header → protoBad q.role f.header = false →
      helloBad f = false → q.state = 2 →
      x.serial = q.partnerSerial.toNat → q.role = roleExport ∨ x.job = s.job.id.toNat →
      let s1 := takeAck p.val (hAck f.header) s
      ∃ t, exec (.helloFrame p f) s = .next t ∧ OnlyPort p.val { s1.port p.val with
        partnerPort := x.port, partnerRole := x.role, partnerRank := x.rank, partnerStages := x.stages
        accepted := q.accepted || decide (2 ≤ s.job.state) } s1 t) ∧
    (q.state = 1 → q.helloOk = false → ∃ t, exec (.helloTimer p) s = .next t ∧
      OnlyPort p.val { q with helloSent := true } { s with sent := t.sent } t ∧
      t.sent.length = s.sent.length + 1) ∧
    (q.state = 2 → ∃ t, exec (.helloTimer p) s = .next t ∧ t = { s with sent := t.sent } ∧
      t.sent.length = s.sent.length + 1) ∧
    (q.state = 1 → q.helloOk = true → ∃ t, exec (.helloTimer p) s = .next t ∧ (t.port p.val).state = 2)

/-- The timers of a port's link: a resend goes back to the oldest unacknowledged frame, sixteen resends or an expired
window retrain it, the third failed attempt takes it DOWN with EV_CJ_DOWN and a record, training makes a DOWN port
JOIN, and ACKs and credits are repeated. A message of a running stage that stays unaccepted, and a reservation that
stays unanswered while no port of the job retrains, raise EV_CLAUSE_TIMEOUT and halt the stage, which can resume
(R333, R341, R342, R344, R346, R347, R374). -/
def Obligations.LinkAndClauseTimers : Prop :=
  (∀ (p : Fin 8) (s : State),
     let q := s.port p.val
     (q.state = 2 → q.unacked ≠ [] → q.resends < 16 → (∀ u ∈ q.unacked, u.src = none) →
       ∃ t, exec (.resendTimeout p) s = .next t ∧ t = { s with ports := t.ports, sent := t.sent } ∧
         (t.port p.val).resends = q.resends + 1 ∧ t.sent.length = s.sent.length + q.unacked.length ∧
         (t.port p.val).unacked = (q.unacked.map fun u => { u with resends := u.resends + 1 }) ∧
         ∀ i, i ≠ p.val → t.port i = s.port i) ∧
     (∀ i, q.state = 2 → (i = Instr.resendTimeout p ∧ q.unacked ≠ [] ∧ 16 ≤ q.resends ∨
         i = Instr.retryWindowExpiry p ∧ 0 < q.resends) →
       ∃ t, exec i s = .next t ∧ OnlyPort p.val { q.count 4 1 with state := 3, attempts := 0, signalLost := false } s t) ∧
     (q.state = 3 → q.unacked = [] → ∀ signal, ∃ t, exec (.retrainingAttemptEnd p true signal) s = .next t ∧
       OnlyPort p.val { q with state := 2, attempts := 0, signalLost := false } s t) ∧
     (∀ signal, q.state = 3 → q.attempts + 1 < 3 → ∃ t, exec (.retrainingAttemptEnd p false signal) s = .next t ∧
       OnlyPort p.val { (q.count 5 1).count 4 1 with attempts := q.attempts + 1, signalLost := q.signalLost || !signal }
         s t) ∧
     (∀ signal, q.state = 3 → 3 ≤ q.attempts + 1 → ∃ t, exec (.retrainingAttemptEnd p false signal) s = .next t ∧
       (t.port p.val).state = 0 ∧ t.faults.toWrite.length = s.faults.toWrite.length + 1 ∧
       (q.role = 3 → ∀ v, (s.stage v).loaded = true → v < 16 → (s.stage v).haltCode = 0 →
         (t.stage v).haltCode = 0x0601 ∧ (t.stage v).haltFinal = false)) ∧
     (∀ signal ok, exec (.portTrainingAttempt p signal ok) s = .next (
       if q.state = 0 ∧ q.role ≠ 0 ∧ signal = true ∧ ok = true then
         s.updPort p.val fun q => { q with state := 1, helloSent := false, helloOk := false } else s)) ∧
     (∃ t, exec (.ackTimer p) s = .next t ∧ t = { s with ports := t.ports, sent := t.sent } ∧
       t.sent.length = s.sent.length + (if q.state = 2 ∧ 0 < q.sinceAck then 1 else 0) ∧
       (q.state = 2 → (t.port p.val).sinceAck = 0 ∧ (t.port p.val).nakOut = false)) ∧
     (∃ t, exec (.creditRepeatTimer p) s = .next t ∧ t = { s with ports := t.ports, sent := t.sent } ∧
       (q.state = 2 → s.creditEntries p.val ≠ [] → s.sent.length < t.sent.length) ∧ (q.state ≠ 2 → t = s))) ∧
  ((∀ (p : Fin 8) (k : Nat) (s : State) (m : OutMsg), (s.port p.val).state = 2 → (s.port p.val).out[k]? = some m →
     m.started = true → m.cls ≤ 3 → m.owner < 16 → (s.stage m.owner).live = true →
     ∃ t, exec (.deliveryTimeout p k) s = .next t ∧ HaltOnly s t ∧ (t.stage m.owner).haltCode = 0x0205 ∧
       (t.stage m.owner).haltFinal = false) ∧
   (∀ (v : Fin 16) (back : Bool) (s : State), (s.stage v.val).live = true → 0 < ((s.stage v.val).outQ back).reserved →
     ((∃ i, i < 8 ∧ (s.port i).state = 3 ∧ (s.port i).role ≠ 0) → exec (.answerTimeout v back) s = .next s) ∧
     ((∀ i, i < 8 → (s.port i).state = 3 → (s.port i).role = 0) →
       ∃ t, exec (.answerTimeout v back) s = .next t ∧ HaltOnly s t ∧ (t.stage v.val).haltCode = 0x0205 ∧
         (t.stage v.val).haltFinal = false)))

/-- Phrases: a message of its channel's next Phrase, every message before it having been sent, goes with its groups and
flits counted; one whose groups all have the right CRC, with nothing before it, is performed whole; one with a wrong CRC
counts a failure and asks for a resend, and it, or one behind a message that is not accepted, waits and writes nothing.
An acknowledging word clears the failures, brings credit, and performs what it covers; a NAK of a group whose failure is
not counted yet counts one and resends. Eight failures or a request retrain the Phrase in both directions; it comes back
with its groups numbered from 0 and keeps what was not accepted, tries again, or after the third attempt is DOWN at both
ends with EV_PHRASE_DOWN (R303 to R309, R311). -/
def Obligations.PhraseLayer : Prop :=
  ∀ (die peer : Fin 8) (idx : Fin 64) (s : State), s.phraseLive die.val peer.val idx.val = true →
    let p := s.phrase die.val peer.val idx.val
    (∀ (role : Fin 5) (addr : BitVec 48) (data : List Byte) (header : BitVec 256) (crcs : List (BitVec 24)),
      let ch := phraseKey die.val peer.val role.val
      let q := sget [] s.inFlight ch
      let n := 1 + cdiv data.length 32
      let ok := messageOk header data crcs
      let taken := { p with
          group := p.group + BitVec.ofNat 8 (cdiv n 8), flits := p.flits + BitVec.ofNat 10 n
          fails := p.fails + if ok then 0 else 1, failed := p.failed || !ok }
      s.upPhrases die.val peer.val role.val ≠ [] → s.turn die.val peer.val role.val = idx.val →
      data.length ≤ 4096 → data ≠ [] → p.takes n = true → (∀ x ∈ q, x.sent = true) →
      roleCarries die.val role.val addr.toNat = true →
      addr.toNat / 2 ^ 40 = peer.val → peer.val ≤ 5 → regionOf addr.toNat ≠ .reserved →
      s.badPart addr.toNat data.length = none →
      (q = [] → ok = true →
        ∃ t, exec (.phraseMessage die peer role addr ⟨header, data, crcs⟩) s = .next t ∧
          t = { s with mem := t.mem, badWords := t.badWords, phrases := t.phrases, channels := t.channels
                       inFlight := t.inFlight } ∧
          (∀ a, memRead t.mem a = if addr.toNat ≤ a ∧ a < addr.toNat + data.length then data.getD (a - addr.toNat) 0
            else memRead s.mem a) ∧
          sget [] t.inFlight ch = [] ∧ t.phrase die.val peer.val idx.val = taken) ∧
      ((q = [] ∧ ok = false) ∨ (∃ m ms, q = m :: ms ∧ m.accepted = false) →
        ∃ t x, exec (.phraseMessage die peer role addr ⟨header, data, crcs⟩) s = .next t ∧
          t = { s with phrases := t.phrases, channels := t.channels, inFlight := t.inFlight, sent := t.sent } ∧
          t.sent.length = s.sent.length + (if ok then 0 else 1) ∧
          sget [] t.inFlight ch = q ++ [x] ∧ x.sent = true ∧ x.idx = idx.val ∧ x.addr = addr.toNat ∧ x.data = data ∧
          x.last + 1 = taken.group ∧ (ok = false → x.accepted = false) ∧ t.phrase die.val peer.val idx.val = taken)) ∧
    (∀ word : W32, p.state = 0 → crc8 (word.toNat % 2 ^ 24) 24 0 = bits word.toNat 31 24 → bitAt word.toNat 14 = false →
      let ack := BitVec.ofNat 8 (bits word.toNat 23 16)
      let acked := { p with acked := ack, fails := 0, failed := false, credits := BitVec.ofNat 10 (bits word.toNat 9 0) }
      (bitAt word.toNat 15 = false → ack ≠ p.acked → (ack - p.acked).toNat ≤ p.outstanding → (ack - p.acked).toNat ≤ 64 →
        (s.inFlight = [] → ∃ t, exec (.phraseFlowControl die peer idx word) s = .next t ∧
          t = { s with phrases := t.phrases } ∧ t.phrase die.val peer.val idx.val = acked) ∧
        (∀ e m, s.bundlePlan die.val peer.val = some e →
          let ch := phraseKey die.val peer.val (phraseRole e idx.val)
          s.inFlight = [(ch, [m])] → m.sent = true → m.idx = idx.val → (m.last - p.acked).toNat ≤ (ack - p.acked).toNat →
          m.addr / 2 ^ 40 = peer.val → peer.val ≤ 5 → regionOf m.addr ≠ .reserved → m.data ≠ [] →
          s.badPart m.addr m.data.length = none →
          ∃ t, exec (.phraseFlowControl die peer idx word) s = .next t ∧ sget [] t.inFlight ch = [] ∧
            t.phrase die.val peer.val idx.val = acked ∧
            ∀ b, memRead t.mem b = if m.addr ≤ b ∧ b < m.addr + m.data.length then m.data.getD (b - m.addr) 0
              else memRead s.mem b)) ∧
      (bitAt word.toNat 15 = true → ack = p.acked → p.outstanding ≠ 0 → p.failed = false → s.inFlight = [] →
        ∃ t, exec (.phraseFlowControl die peer idx word) s = .next t ∧ t = { s with phrases := t.phrases, sent := t.sent } ∧
          t.sent.length = s.sent.length + 1 ∧
          t.phrase die.val peer.val idx.val = { p with
            fails := p.fails + 1, credits := BitVec.ofNat 10 (bits word.toNat 9 0) })) ∧
    (p.state = 3 ∨ (p.state = 0 ∧ 8 ≤ p.fails) → ∃ t, exec (.phraseRetrain die peer idx) s = .next t ∧
      t = { s with phrases := t.phrases } ∧ t.phrase die.val peer.val idx.val = { p with state := 1, attempts := 0 } ∧
      (t.phrase peer.val die.val idx.val).state = 1) ∧
    (∀ resends, p.state = 1 → s.inFlight = [] → ∃ t, exec (.phraseRetrainEnd die peer idx true resends) s = .next t ∧
      t = { s with phrases := t.phrases, inFlight := t.inFlight } ∧
      t.phrase die.val peer.val idx.val = { p with
        state := 0, attempts := 0, fails := 0, failed := false, group := BitVec.ofNat 8 p.outstanding, acked := 255 } ∧
      (t.phrase peer.val die.val idx.val).state = 0) ∧
    (∀ resends e m, p.state = 1 → s.bundlePlan die.val peer.val = some e →
      let ch := phraseKey die.val peer.val (phraseRole e idx.val)
      s.inFlight = [(ch, [m])] → m.sent = true → m.accepted = false → m.idx = idx.val →
      ∃ t, exec (.phraseRetrainEnd die peer idx true resends) s = .next t ∧ t.mem = s.mem ∧
        sget [] t.inFlight ch = [{ m with last := m.last - p.acked - 1 }]) ∧
    (∀ resends, p.state = 1 → p.attempts + 1 < 3 → ∃ t, exec (.phraseRetrainEnd die peer idx false resends) s = .next t ∧
      t = { s with phrases := t.phrases } ∧ t.phrase die.val peer.val idx.val = { p with attempts := p.attempts + 1 }) ∧
    (∀ resends, p.state = 1 → 3 ≤ p.attempts + 1 → ∃ t, exec (.phraseRetrainEnd die peer idx false resends) s = .next t ∧
      (t.phrase die.val peer.val idx.val).state = 2 ∧ (t.phrase peer.val die.val idx.val).state = 2 ∧
      s.faults.toWrite.length + 1 ≤ t.faults.toWrite.length)

/-- A die that stops clocking is marked lost: EV_DIE_LOST, a record, its stages halt with a final cause, and its memory
reads as nothing written; a die that answers as the manifest says comes back with EV_DIE_REJOIN, and one that does not
takes the module out of service (R33, R218, R269, R320 to R322). -/
def Obligations.DieLossAndReturn : Prop :=
  (∀ (d : Fin 8) (mask : Byte) (s : State), 3 ≤ s.chip.bringup → 1 ≤ d.val → d.val ≤ 5 → s.chip.lost.getLsbD d.val = false →
    ∃ t, exec (.dieLost d mask) s = .next t ∧ t.chip.lost.getLsbD d.val = true ∧ t.absent d.val = true ∧
      (∀ i, i < 8 → i ≠ d.val → t.chip.lost.getLsbD i = s.chip.lost.getLsbD i) ∧
      (∀ a, a / 2 ^ 40 = d.val → memRead t.mem a = 0) ∧ (∀ a, a / 2 ^ 40 ≠ d.val → memRead t.mem a = memRead s.mem a) ∧
      t.faults.toWrite.length = s.faults.toWrite.length + 1 ∧
      (d.val ≠ 5 → ∀ v, v < 16 → (s.stage v).loaded = true → (s.stage v).image.die = d.val → (s.stage v).haltCode = 0 →
        (t.stage v).haltCode = 0x0503 ∧ (t.stage v).haltFinal = true ∧ (t.stage v).tenses = [])) ∧
  (∀ (a : DieAnswer) (tests : List TestResult) (s : State), 3 ≤ s.chip.bringup → s.chip.lost.getLsbD a.die.val = true →
    (answerOk s a = true → (∀ x ∈ tests, testOutcome x = 0) → ∃ t, exec (.dieRejoin a tests) s = .next t ∧
      t.chip = { s.chip with lost := s.chip.lost &&& ~~~(1#8 <<< a.die.val) } ∧ t.mem = s.mem ∧
      t.ingest.rejoinPending = (s.ingest.rejoinPending || a.die.val == 5)) ∧
    (answerOk s a = false → ∃ t, exec (.dieRejoin a tests) s = .next t ∧ t.chip.outOfService = true ∧
      t.chip.lost = s.chip.lost ∧ (s.chip.outOfService = false → t.chip.service = 3)))

/-- Requests of a guest: a read inside an inbound window answers with the bytes, a write is performed and acknowledged; a
request that the firewall refuses moves nothing, is counted, and answers DENIED. The firewall's order: a request
outside every inbound window, or while the port's requests are off, is denied whatever its address; an admitted one is
aligned, inside an enabled inbound window that permits it, and on a die that is there (R326, R329). -/
def Obligations.GuestAndFirewall : Prop :=
  (∀ (p : Fin 2) (m : AppMsg) (s : State),
     let a := s.ap p.val
     let h := m.header
     let s1 := s.updAp p.val fun a => { a with rxSeq := a.rxSeq + 1, sinceAck := a.sinceAck + 1, rxFails := 0 }
     a.state = 3 → appoCrc h m.data = aCrc h → aSeq h = a.rxSeq → aBad m = false → a.sinceAck + 1 < 64 →
     (aClass h = 1 → judge s p.val false (aAddr h) (64 * aLen h) = 0 → s.badIn (aAddr h) (64 * aLen h) = none →
       exec (.appositionReadReq p m) s =
         .next (appoSend p.val 3 (aTag h) (aLen h) 0 0 0 (s.load (aAddr h) (64 * aLen h)) s1)) ∧
     (aClass h = 2 → judge s p.val true (aAddr h) m.data.length = 0 → aAddr h < 2 ^ 47 →
       s.badPart (aAddr h) m.data.length = none →
       ∃ t, exec (.appositionWrite p m) s = .next (appoSend p.val 4 (aTag h) 0 0 0 0 [] t) ∧
         t = { s1 with mem := t.mem, badWords := t.badWords } ∧
         ∀ b, memRead t.mem b = if aAddr h ≤ b ∧ b < aAddr h + m.data.length then m.data.getD (b - aAddr h) 0
           else memRead s.mem b) ∧
     (∀ i, (aClass h = 1 ∧ i = Instr.appositionReadReq p m ∧ judge s p.val false (aAddr h) (64 * aLen h) = 1 ∨
         aClass h = 2 ∧ i = Instr.appositionWrite p m ∧ judge s p.val true (aAddr h) m.data.length = 1) →
       ∃ t, exec i s = .next t ∧ t.mem = s.mem ∧ t.engines = s.engines ∧ t.stages = s.stages ∧
         (t.fw p.val).denied = satInc (s.fw p.val).denied ∧ (t.fw p.val).lastDenied = BitVec.ofNat 64 (aAddr h)) ∧
     (aClass h = 6 → (s.fw p.val).ctrl.getLsbD 0 = true → (s.fw p.val).cls.getLsbD 3 = true → a.events < 999 →
       ∃ t, exec (.appositionEvent p m) s = .next t ∧ t.mem = s.mem ∧ (t.ap p.val).rxSeq = a.rxSeq + 1 ∧
         (s.chip.parserHeld = false → sget 0 t.evSeq (guestUnit p.val * 16) = sget 0 s.evSeq (guestUnit p.val * 16) + 1))) ∧
  (∀ (s : State) (p a n : Nat) (write : Bool),
     ((s.fw p).ctrl.getLsbD 0 = false → judge s p write a n = 1) ∧
     (judge s p write a n = 0 → a % 64 = 0 ∧ s.absent (a / 2 ^ 40) = false ∧
       ∃ w, w < 32 ∧ (s.fw p).holds w a n = true ∧ bitAt ((s.fw p).winCtrl w) (if write then 2 else 1) = true ∧
         (write = true → bitAt ((s.fw p).winCtrl w) 4 = false →
           ∀ v ∈ s.loadedStages, (s.stage v).tenseArea a n = false)))

/-- The link of an Apposition port: answers go to the requests that wait for them; ACK and NAK free what the guest has
received, and a NAK sends the rest again; the timer acknowledges; sixteen failures of a message of either direction
retrain, and the third failed attempt, like a guest that stops clocking, takes the port DOWN with EV_GUEST_DOWN, and
halts the stages whose transfers still wait for its answers; a guest with the right identity comes back (R33, R323 to
R326). -/
def Obligations.AppositionLink : Prop :=
  ∀ (p : Fin 2) (m : AppMsg) (s : State),
    let a := s.ap p.val
    let h := m.header
    let down := { a with state := 1, identOk := false, rate := 0, attempts := 0, fails := 0, retrained := false
                         txSeq := 0, rxSeq := 0, rxFails := 0, unacked := [], out := [], sinceAck := 0, requests := []
                         waiting := [] }
    (a.state = 3 → appoCrc h m.data = aCrc h → aBad m = false → aClass h = 8 → a.names (aSeq h + 1) = true → a.out = [] →
      ∃ t, exec (.appositionAck p m) s = .next t ∧ OnlyAp p.val { a.accept (aSeq h + 1) with out := [] } s t) ∧
    (a.state = 3 → appoCrc h m.data = aCrc h → aBad m = false → aClass h = 7 → a.names (aSeq h) = true → a.out = [] →
      ∃ t, exec (.appositionNak p m) s = .next t ∧ t = { s with appo := t.appo, sent := t.sent } ∧
        (t.ap p.val).unacked = a.unacked.drop (a.before (aSeq h)) ∧
        t.sent.length = s.sent.length + (a.unacked.drop (a.before (aSeq h))).length) ∧
    (a.state = 3 → appoCrc h m.data = aCrc h → aSeq h = a.rxSeq → aBad m = false → a.sinceAck + 1 < 64 →
      (aClass h = 4 → ∃ t, exec (.appositionWriteAck p m) s = .next t ∧ OnlyAp p.val { a with
        rxSeq := a.rxSeq + 1, sinceAck := a.sinceAck + 1, rxFails := 0
        requests := a.requests.eraseP fun r => r.tag == aTag h && r.write } s t) ∧
      (∀ r, aClass h = 3 → aStatus h = 0 → (a.requests.find? fun r => r.tag == aTag h && !r.write) = some r →
        s.awaits r = true → r.place < 2 ^ 47 → isGuest r.place = false → s.absent (r.place / 2 ^ 40) = false →
        s.badPart r.place r.len = none →
        ∃ t, exec (.appositionReadData p m) s = .next t ∧
          t = { s with appo := t.appo, mem := t.mem, badWords := t.badWords } ∧
          (t.ap p.val).requests = a.requests.erase r ∧
          ∀ b, memRead t.mem b = if r.place ≤ b ∧ b < r.place + r.len then (fit r.len m.data).getD (b - r.place) 0
            else memRead s.mem b)) ∧
    (∃ t, exec (.appositionAckTimer p) s = .next t ∧ t = { s with appo := t.appo, sent := t.sent } ∧
      (a.state = 3 → (t.ap p.val).sinceAck = 0) ∧ (a.state ≠ 3 → t = s) ∧
      t.sent.length = s.sent.length + (if 0 < a.sinceAck ∧ a.state = 3 then 1 else 0)) ∧
    (a.state = 3 → 16 ≤ a.fails ∨ 16 ≤ a.rxFails → a.retrained = false → a.attempts = 0 → a.out = [] →
      (∃ t, exec (.appositionRetrain p true) s = .next t ∧ t = { s with appo := t.appo, sent := t.sent } ∧
        (t.ap p.val).state = 3 ∧ (t.ap p.val).retrained = true ∧ t.sent.length = s.sent.length + a.unacked.length) ∧
      (∃ t, exec (.appositionRetrain p false) s = .next t ∧
        OnlyAp p.val { a with state := 2, fails := 0, rxFails := 0, retrained := true, attempts := 1 } s t)) ∧
    (∀ i, (a.state = 2 ∧ 2 ≤ a.attempts ∧ i = Instr.appositionRetrain p false ∨ 2 ≤ a.state ∧ i = Instr.guestDown p) →
      ∃ t, exec i s = .next t ∧ t.ap p.val = down ∧ t.absent (6 + p.val) = true ∧
        ((∀ r ∈ a.requests, (s.eng r.engine).askedGuest = false) → EventOnly s t) ∧
        ∀ r v, r ∈ a.requests → (s.eng r.engine).askedGuest = true → s.stageOf r.engine = some v →
          (s.stage v).loaded = true → (t.stage v).haltCode ≠ 0) ∧
    (∀ (identity : W64) (rate : BitVec 2), a.state = 1 →
      (identity ≠ Config.guestId (6 + p.val) → exec (.guestUp p identity rate) s = .next s) ∧
      (identity = Config.guestId (6 + p.val) → rate ≠ 0 → ∃ t, exec (.guestUp p identity rate) s = .next t ∧
        EventOnly s t ∧ (t.ap p.val).state = 3 ∧ (t.ap p.val).identOk = true ∧ (t.ap p.val).rate.toNat ≤ rate.toNat ∧
        (t.ap p.val).rate.toNat ≤ (Config.rateCap (6 + p.val)).toNat))

/-- The order of clips: on the indices of an epoch's window the keyed permutation is one to one and onto, so every clip of
an epoch is placed once (R290, R291). -/
def Obligations.ClipOrder : Prop :=
  (∀ (seed key1 : W64) (n blk dom i j : Nat), i < n → j < n →
    feistel seed key1 i n blk dom = feistel seed key1 j n blk dom → i = j) ∧
  (∀ (seed key1 : W64) (n blk dom i : Nat), i < n → feistel seed key1 i n blk dom < n) ∧
  (∀ (g : Ingest) (e n m : Nat), 1 ≤ g.params.w → n < g.params.n → m < g.params.n → g.clipOf e n = g.clipOf e m → n = m)

/-- Storage Reads: a good one clears its place's and its controller's failures, and the first for a clip of an object that
no context holds claims a PARSING context and pins it; a failed or timed-out one is tried again up to three times and
then its clip is to be dropped; the third failed Read in a row, and a fatal status with any Read, takes every namespace of
the controller offline. A clip
whose descriptor has VALID 0 takes its slot as a drop with reason HOLE; a micro-batch whose clips are all ready enters
forward-in of the stage at position 0, its slots are freed and it counts in PLACED. After the ingest die has come
back, placement waits for INGEST_POSITION (R276 to R279, R293, R294, R300). -/
def Obligations.Ingest : Prop :=
  (∀ (ns : Fin 32) (place : Nat) (s : State) (x : IngestNs), s.ingestUp = true → s.ingest.offline.contains ns.val = false →
     s.reads place = true → s.ingest.ns ns.val = some x →
     let g := s.ingest
     let good := { g with retries := sset 0 place 0 g.retries, failRow := sset 0 x.controller 0 g.failRow }
     let off := g.offline ++ (g.params.namespaces.filter fun y =>
       y.controller == x.controller && !g.offline.contains y.num).map (·.num)
     (∀ desc,
       let d := s.descOf (g.clipOf (g.at' place).1 (g.at' place).2) desc
       let mine := d.getLsbD 0 && !descBad d && bits d.toNat 31 27 == ns.val
       (mine = false ∨ (∃ y ∈ g.pins, y.1 = place) →
         exec (.nvmeReadCompletion ns place (some desc) false) s = .next { s with ingest := good } ∧
         ∃ t, exec (.nvmeReadCompletion ns place (some desc) true) s = .next t ∧
           t.ingest = { good with offline := off }) ∧
       (mine = true → (∀ y ∈ g.pins, y.1 ≠ place) → g.contextOf d = none → firstFree g.contexts 0 < contextCount →
         let i := firstFree g.contexts 0
         ∃ t, exec (.nvmeReadCompletion ns place (some desc) false) s = .next t ∧ t = { s with ingest := t.ingest } ∧
           t.ingest = { good with contexts := t.ingest.contexts, lru := g.lru + 1, pins := g.pins ++ [(place, i)] } ∧
           (∀ j, j ≠ i → sget 0 t.ingest.contexts j = sget 0 g.contexts j) ∧
           let c := sget 0 t.ingest.contexts i
           ctxKey c = descKey d ∧ ctxState c = 1 ∧ ctxPins c = 1 ∧ ctxLru c = g.lru.toNat)) ∧
     (∀ i, i = Instr.nvmeReadCompletion ns place none false ∨ i = Instr.nvmeReadTimeout ns place →
       (sget 0 g.retries place < 3 → ∃ t, exec i s = .next t ∧ t = { s with ingest := t.ingest } ∧
         t.ingest = { g.count 18 1 with retries := supd 0 place (· + 1) g.retries }) ∧
       (3 ≤ sget 0 g.retries place → ∃ t, exec i s = .next t ∧
         t.ingest.failedReads = g.failedReads ++ [place] ∧ t.ingest.offline = (if 2 ≤ sget 0 g.failRow x.controller then off
           else g.offline))) ∧
     ∃ t, exec (.nvmeReadCompletion ns place none true) s = .next t ∧ t.ingest.offline = off) ∧
  (∀ (s : State), s.ingestUp = true → s.ingest.awaitPosition = false →
     let g := s.ingest
     (∀ (place : Nat) (desc : BitVec 256) (object : List Byte) (n k : Nat), s.job.state ≠ 0 → s.localOf place = some k →
       g.placed ≤ k → k * g.params.c + place % g.params.c < g.placed * g.params.c + g.params.w → g.ended place = false →
       g.slots.length < g.params.w → (∀ x ∈ g.slots, x.place ≠ place) → g.offline = [] → s.offloadWaits = false →
       (s.descOf (g.clipOf (g.at' place).1 (g.at' place).2) desc).getLsbD 0 = false →
       ∃ t, exec (.clipDecode place desc ⟨object, n⟩) s = .next t ∧ t = { s with ingest := t.ingest } ∧
         t.ingest.slots = g.slots ++ [⟨g.freeSlot, place, g.clipOf (g.at' place).1 (g.at' place).2, 1, 0, 0x3F800000⟩] ∧
         t.ingest.placed = g.placed) ∧
     (∀ v, s.stage0 = some v → (s.stage v).live = true → (s.stage v).credit false = true → g.stopped = false →
       g.stopAt = none → g.endRaised = false → g.offline = [] → g.ended (s.placeOf g.placed 0) = false →
       (∀ c, c < g.params.c → s.clipReady g.placed c = true) → s.copyBad g.placed = none →
       s.deliveryDie (s.stage v) ((s.stage v).slotAddr false ((s.stage v).forwardIn.delivered % 2 ^ 32)) = none →
       s.badAmong [queueState v 0] = none →
       ∃ t, exec .ingestPlace s = .next t ∧ t.ingest.placed = g.placed + 1 ∧ t.ingest.consumed = g.consumed ∧
         (t.stage v).forwardIn.delivered = (s.stage v).forwardIn.delivered + 1 ∧
         (t.stage v).forwardIn.items.length = (s.stage v).forwardIn.items.length + 1 ∧
         (∀ x ∈ t.ingest.slots, ∀ c, c < g.params.c → x.place ≠ s.placeOf g.placed c) ∧
         ∀ u, u ≠ v → t.stage u = s.stage u)) ∧
  (∀ s : State, s.ingest.rejoinPending = true → s.ingest.isOpen = true →
     ∃ t, exec .ingestRejoin s = .next t ∧ t.ingest = { s.ingest with rejoinPending := false, awaitPosition := true } ∧
       exec .ingestPlace t = .next t)

/-- Every mailbox command: one that the Parser cannot take yet stays where it is; one that a check of R369 refuses has no
effect but its completion, which carries the status of the first failing check; an opcode that is no command's is
ST_OPCODE. A completion in a host mailbox writes the response and then one 64-byte entry with the phase at CMP_TAIL,
which advances and flips the phase when it wraps; no other byte of host memory changes. The device reads the entries up to
CMD_TAIL, with CMD_HEAD behind the last of them, and starts the oldest that it holds (R364, R369, R370). -/
def Obligations.CommandEntries : Prop :=
  (∀ x ∈ cmdRows, ∀ (c : Cmd) (s : State),
    let p := x.1 c s
    (c.opcode = p.opcode → canTake s c p.control = false → exec (x.2 c) s = .next s) ∧
    (∀ r, c.opcode = p.opcode → canTake s c p.control = true → commonCheck (takeEntry c s) c p = some r →
      exec (x.2 c) s = .next (complete c.mb c.opcode c.id c.respAddr r.status r.result [] (takeEntry c s))) ∧
    (c.opcode ≠ p.opcode → allOpcodes.contains c.opcode = true → exec (x.2 c) s = .next s) ∧
    (allOpcodes.contains c.opcode = false → canTake s c p.control = true →
      exec (x.2 c) s = .next (complete c.mb c.opcode c.id c.respAddr 1 (Refuse.result { status := 1, offset := 0 }) []
        (takeEntry c s)))) ∧
  (∀ (m : Fin 32) (op id resp status : Nat) (result bs : List Byte) (s : State),
    let r := s.mailbox m.val
    let t := complete (.host m) op id resp status result bs s
    let a := r.cmpBase.toNat + 64 * r.cmpTail.toNat
    let entry := leBytes 4 (if r.phase then 1 else 0) ++ completionRest s.chip.uptime.toNat op id status bs.length result
    t = { s with hostMem := t.hostMem, host := t.host, sent := t.sent } ∧ entry.length = 64 ∧
      (∀ b, memRead t.hostMem b = if a ≤ b ∧ b < a + 64 then entry.getD (b - a) 0
        else if resp ≤ b ∧ b < resp + bs.length then bs.getD (b - resp) 0 else memRead s.hostMem b) ∧
      (t.mailbox m.val).cmpTail = BitVec.ofNat 32 ((r.cmpTail.toNat + 1) % r.size) ∧
      (t.mailbox m.val).phase = (if (r.cmpTail.toNat + 1) % r.size = 0 then !r.phase else r.phase) ∧
      (t.mailbox m.val).cmdHead = r.cmdHead ∧ (t.mailbox m.val).waiting = r.waiting ∧
      ∀ i, i ≠ m.val → t.mailbox i = s.mailbox i) ∧
  (∀ (c : Cmd) (m : Fin 32) (s : State), c.mb = .host m →
    let t := takeEntry c s
    t = { s with host := t.host } ∧ (t.mailbox m.val).cmdHead = (s.mailbox m.val).cmdTail ∧
      (t.mailbox m.val).waiting = (s.mailbox m.val).held - 1 ∧
      (t.mailbox m.val).cmpTail = (s.mailbox m.val).cmpTail ∧ ∀ i, i ≠ m.val → t.mailbox i = s.mailbox i)

/-- The reports: DEV_INFO, INGEST_POSITION, FAULT_HISTORY_READ and STAGE_FLAGS answer with their records and change
nothing but that STAGE_FLAGS clears LONGSUM; NUMLOG_READ answers with the header and the oldest entries that fit, and
moves READ_POS forward; for stage 0xFFFF every stage of the job shares the response (log 132) (R272, R296, R376, R384,
R385). -/
def Obligations.Reports : Prop :=
  ∀ (c : Cmd) (s : State) (m : Fin 32), c.mb = .host m →
    let s0 := takeEntry c s
    (Accepted c (devInfoSpec c) s → Answers (.devInfo c) c s []
      (devRecord s0 ++ if c.expert then (List.range 8).flatMap (portRecord s0) else []) s0) ∧
    (Accepted c (ingestPositionSpec c s) s → c.expert = false → Answers (.ingestPosition c) c s []
      (positionBytes s0 s.ingest.placed ++ positionBytes s0 s.ingest.consumed ++
        (List.range 20).flatMap fun i => leBytes 8 (sget 0 s.ingest.counters i).toNat) s0) ∧
    (Accepted c historySpec s → c.expert = false →
      let rs := (recordsFrom (c.arg 0 4) s.faults.records).take (c.respLen / 32)
      Answers (.faultHistoryRead c) c s
        (leBytes 4 (match s.faults.records with | [] => s.faults.seq.toNat | r :: _ => recSeq r) ++ leBytes 4 rs.length)
        (rs.flatMap fun r => leBytes 32 r.toNat) s0) ∧
    (Accepted c stageFlagsSpec s → s.unknownStage (c.arg 0 2) = false → c.expert = false →
      64 * (s.named (c.arg 0 2)).length ≤ c.respLen →
      ∃ t, Answers (.stageFlags c) c s [] ((s.named (c.arg 0 2)).flatMap (flagsRecord s0)) t ∧
        t = { s0 with stages := t.stages } ∧
        ∀ v, t.stage v = if v ∈ s.named (c.arg 0 2) then { s.stage v with longsum := false } else s.stage v) ∧
    (∀ v, Accepted c numlogSpec s → c.arg 0 2 ≠ 0xFFFF → s.findStage (c.arg 0 2) = some v → c.expert = false →
      (∀ i < 4096, s.badAmong [logAddr v i] = none) →
      let g := s.stage v
      let start := max g.logOldest g.logRead
      let n := min (g.logSeq - start) ((c.respLen - 64) / 32)
      ∃ head t, Answers (.numlogRead c) c s []
          (head ++ (List.range n).flatMap fun i => leBytes 32 (sget 0 g.log ((start + i) % 4096)).toNat) t ∧
        head.length = 64 ∧ OnlyStage v { g with logRead := max g.logRead (start + n) } s0 t) ∧
    (Accepted c numlogSpec s → c.arg 0 2 = 0xFFFF → s.loadedStages ≠ [] → 64 * s.loadedStages.length ≤ c.respLen →
      s.badWords = [] → ∃ resp t, Answers (.numlogRead c) c s [] resp t ∧
        64 * s.loadedStages.length ≤ resp.length ∧ resp.length ≤ c.respLen ∧ t = { s0 with stages := t.stages } ∧
        ∀ v ∈ s.loadedStages, ∃ n, n ≤ (s.stage v).logSeq ∧
          t.stage v = { s.stage v with logRead := max (s.stage v).logRead n })

/-- The life of a job: JOB_CREATE makes it LOADING with the entry's fields, once the BAR2 writes received before it are
performed, and takes a demotion that is due, which disables as many quads in every cell (log 100), JOB_START clears the
counts, flags and offline namespaces and starts the stages, JOB_PAUSE stops them, the pause ends in PAUSED and completes
the command, and JOB_RESUME goes on with the takes returned again (R9, R67, R128, R373, R374, R377, R379, R380, R447).
-/
def Obligations.JobLife : Prop :=
  ∀ (c : Cmd) (s : State),
    (Accepted c jobCreateSpec s → (jobOf c).badField = none → s.chip.outOfService = false →
      ∃ t, Answers (.jobCreate c) c s [] [] t ∧ t.job = jobOf c ∧ t.mem = (drainBar2 (takeEntry c s)).mem ∧
        t.host.chunks = [] ∧ t.stages = s.stages ∧
        t.chip.parked = false ∧ (s.chip.parked = false → t.chip = s.chip) ∧ t.faults.retired = s.faults.retired ∧
        t.faults.retiredInJob = [] ∧
        let n := if s.nextGrade < s.grade ∧ 56 ≤ s.nextGrade then s.faults.steps else 0
        t.faults.demotions = s.faults.demotions + n ∧ ∀ k ∈ allCells,
          sget [] t.faults.quadsOff k = sget [] s.faults.quadsOff k ++ s.faults.giveUp n k) ∧
    (Accepted c jobStartSpec s → s.loadedStages ≠ [] → (∀ v ∈ s.loadedStages, s.unready v = false) → s.jobRetired = false →
      ∃ t, Answers (.jobStart c) c s [] [] t ∧ t.job = { s.job with state := 2, pauseReason := 0 } ∧ t.mem = s.mem ∧
        t.ingest = { s.ingest with counters := [], offline := [], failRow := [], stopped := false, stopAt := none } ∧
        ∀ v ∈ s.loadedStages, (t.stage v).started = true ∧ (t.stage v).replayR1 = 0 ∧ (t.stage v).replayR2 = 0 ∧
          (t.stage v).propagated = 0 ∧ (t.stage v).logSeq = 0 ∧ (t.stage v).longsum = false ∧
          (t.stage v).image = (s.stage v).image ∧ (t.stage v).forwardIn = (s.stage v).forwardIn ∧ ∀ k ∈ (s.stage v).cellKeys,
            (t.eng k).vflags = 0 ∧ (t.eng k).aflags = 0 ∧ (t.eng k).lost = 0) ∧
    (Accepted c jobPauseSpec s → (if c.expert then c.arg 0 1 else 0) ≤ 1 →
      ∃ t, GoesOn (.jobPause c) c s t ∧ t.job = { s.job with state := 3, pauseReason := if s.checking then 2 else 1 } ∧
        t.ingest.stopped = true ∧
        t.mem = s.mem ∧ ∀ v ∈ s.loadedStages, (s.stage v).haltCode = 0 →
          if (c.expert = true ∧ c.arg 0 1 = 1) ∨ (s.stage v).exec = none then
            (t.stage v).haltCode = 0x0702 ∧ (t.stage v).haltFinal = false
          else (t.stage v).haltCode = 0 ∧ (t.stage v).pauseAt = 1) ∧
    (s.paused = true → ∃ t, exec .pauseComplete s = .next t ∧ t.job = { s.job with state := 4 } ∧
      t.ingest.stopped = true ∧ t.mem = s.mem ∧
      ∀ r, s.runningOp 0x14 = some r → t.running = s.running.erase r) ∧
    (Accepted c jobResumeSpec s → (∀ v ∈ s.loadedStages, (s.stage v).haltFinal = false ∧ (s.stage v).updateHalt = 0) →
      s.job.overwritten = false → s.jobRetired = false →
      ∃ t, Answers (.jobResume c) c s [] [] t ∧ t.job.state = 2 ∧ t.job.pauseReason = 0 ∧ t.chip.fenceDone = false ∧
        t.ingest.stopped = false ∧ ∀ v ∈ s.loadedStages, (s.stage v).haltCode ≠ 0 →
          (t.stage v).forwardIn.replay = (s.stage v).forwardIn.rewindable ∧
          (t.stage v).backwardIn.replay = (s.stage v).backwardIn.rewindable)

/-- Basic HALT ends the job and keeps fault records, retirements, the flash and memory; expert HALT stops one stage, which
can resume. A fence halts every running stage and stops ingest, a transfer under way having moved whole granules; when
every die has confirmed, DONE is 1 and the job is PAUSED with reason FENCE; with no job it acts on no stage. A basic HALT
that finds a fence under way waits for its DONE, whatever others wait. FAULT_CAUSE.THERMAL_SEEN cannot be cleared during a
trip (R357, R375, R381, R451, R452). -/
def Obligations.HaltAndFence : Prop :=
  ∀ (c : Cmd) (s : State),
    (Accepted c haltSpec s → c.expert = false → s.chip.fencing = false →
      ∃ t, Answers (.halt c) c s [] [] t ∧ t.job = {} ∧ t.stages = [] ∧ t.transit = [] ∧ t.routes = [] ∧
        (∀ p, (t.port p).role = 0 ∧ (t.port p).state = 0 ∧ (t.port p).out = []) ∧ t.ingest.isOpen = false ∧
        t.ingest.slots = [] ∧ t.faults.records = s.faults.records ∧ t.faults.retired = s.faults.retired ∧
        t.faults.toWrite = s.faults.toWrite ∧ t.flash = s.flash ∧ t.mem = s.mem ∧
        t.chip.fenceDone = (s.chip.fenceDone && decide (s.job.state = 0))) ∧
    (Accepted c haltSpec s → c.expert = false → s.chip.fencing = true →
      ∃ t, GoesOn (.halt c) c s t ∧ t.chip = { s.chip with haltWaits := s.chip.haltWaits ++ [runningOf c] } ∧
        t.job = s.job ∧ t.stages = s.stages ∧ t.mem = s.mem) ∧
    (∀ v, Accepted c haltSpec s → c.expert = true → s.findStage (c.arg 0 2) = some v → c.arg 0 2 ≠ 0xFFFF →
      ∃ t, Answers (.halt c) c s [] [] t ∧ HaltOnly (takeEntry c s) t ∧
        ((s.stage v).haltCode = 0 → (t.stage v).haltCode = 0x0705 ∧ (t.stage v).haltFinal = false)) ∧
    (s.barsOn = false → exec .fenceGo s = .next s ∧ exec .thermalSeenClear s = .next s) ∧
    (s.barsOn = true → s.chip.fencing = false → s.chip.fenceDone = false →
      (s.jobRuns = true → ∃ t, exec .fenceGo s = .next t ∧
        t = { s with engines := t.engines, stages := t.stages, ingest := t.ingest, chip := t.chip, mem := t.mem,
                     badWords := t.badWords, hostMem := t.hostMem, freeCount := t.freeCount } ∧
        ((∀ v ∈ s.loadedStages, ∀ k ∈ (s.stage v).cellKeys, (s.eng k).dmaQ = []) →
          t.mem = s.mem ∧ t.badWords = s.badWords ∧ t.hostMem = s.hostMem ∧ t.freeCount = s.freeCount) ∧
        t.chip = { s.chip with fencing := true } ∧ t.ingest = { s.ingest with stopped := true, stopAt := none } ∧
        ∀ v ∈ s.loadedStages, (t.stage v).haltCode ≠ 0 ∧
          ((s.stage v).haltCode = 0 → (t.stage v).haltCode = 0x0702 ∧ (t.stage v).haltFinal = false)) ∧
      (s.jobRuns = false → ∃ t, exec .fenceGo s = .next t ∧ t.chip = { s.chip with fenceDone := true } ∧
        t.stages = s.stages ∧ t.engines = s.engines ∧ t.job = s.job)) ∧
    (s.chip.fencing = true → s.jobRuns = true → s.chip.haltWaits = [] →
      ∃ t, exec .fenceComplete s = .next t ∧ t.chip = { s.chip with fencing := false, fenceDone := true } ∧
        t.job = { s.job with state := 4, pauseReason := 3 } ∧ t.ingest.stopped = true ∧ t.mem = s.mem) ∧
    (s.chip.fencing = true → s.chip.haltWaits ≠ [] → ∃ t, exec .fenceComplete s = .next t ∧ t.job = {} ∧ t.stages = [] ∧
      t.chip.haltWaits = [] ∧ t.chip.fencing = false ∧ t.mem = s.mem ∧ t.flash = s.flash) ∧
    (s.barsOn = true → exec .thermalSeenClear s = .next
      (if s.chip.thermalTrip then s else s.updChip fun x => { x with thermalSeen := false }))

/-- STAGE_LOAD: a part before the last one only moves the loader's OFFSET; a last part whose image passes every check
installs the stage in its virtual stage, with STAGE, POSITION, VSTAGE and DIE in its parameter block, its present Tense
in slot 0 with COMMIT 0, every register of its cells at 0 but p0, and nothing started; an image of a higher grade is
refused and changes nothing, and one that breaks a rule leaves nothing of the stage loaded (R11, R136, R173, R194, R195,
R221, R378). -/
def Obligations.StageImages : Prop :=
  ∀ (c : Cmd) (m : StageImage) (s : State),
    let s0 := takeEntry c s
    let g := stageOfImage m
    let placed := c.arg 0 8 = 0 ∨ c.arg 0 8 = s.job.loadOffset
    let last := c.expert = false ∨ (c.arg 8 1 = 1 ∧ placed)
    let clean := m.groups.any declReserved = false ∧ ∀ x ∈ blockReserved, bits m.block.toNat x.1 x.2 = 0
    (Accepted c stageLoadSpec s → c.expert = true → c.arg 8 1 = 0 → placed →
      Answers (.stageLoad c m) c s [] [] { s0 with job := { s.job with loadOffset := c.arg 0 8 + c.len } }) ∧
    (Accepted c stageLoadSpec s → last → clean → s.grade < m.grade →
      exec (.stageLoad c m) s = .next (complete c.mb c.opcode c.id c.respAddr stGrade
        (Refuse.result { status := stGrade, stage := m.stage }) [] s0)) ∧
    (Accepted c stageLoadSpec s → last → clean → m.grade ≤ s.grade → s.imageOk g = false →
      exec (.stageLoad c m) s = .next (complete c.mb c.opcode c.id c.respAddr stImage
        (Refuse.result { status := stImage, stage := m.stage }) [] { s0 with job := { s.job with loadOffset := 0 } })) ∧
    (∀ img heads moments tag, Accepted c stageLoadSpec s → last → clean → m.grade ≤ s.grade → s.imageOk g = true →
      s.absent m.die = false → c.arg 16 8 % 64 = 0 → (c.arg 16 8 = 0 → c.arg 24 8 = 0) →
      initialState s g c = .ok (img, heads, moments, tag) → s.offloadWaits = false →
      ∃ t, Answers (.stageLoad c m) c s [] [] t ∧
        t = { s0 with engines := t.engines, stages := t.stages, mem := t.mem, badWords := t.badWords, job := t.job } ∧
        t.job = { s.job with loadOffset := 0 } ∧ (∀ u, u ≠ m.vstage → t.stage u = s.stage u) ∧
        (∀ k, t.eng k = if k ∈ g.cellKeys then (s.eng k).clearRegs else s.eng k) ∧
        (∀ k ∈ g.cellKeys, ∀ i, (t.eng k).rs i = 0 ∧ (t.eng k).rv i = 0 ∧
          (t.eng k).rp k i = if i = 0 then 2 ^ lanesOf k - 1 else 0) ∧
        let h := t.stage m.vstage
        h.loaded = true ∧ h.started = false ∧ h.haltCode = 0 ∧ h.image.code = m.code ∧ h.image.cells = m.cells ∧
          bits h.image.block.toNat 15 0 = m.stage ∧ bits h.image.block.toNat 31 16 = m.position ∧
          bits h.image.block.toNat 35 32 = m.vstage ∧ bits h.image.block.toNat 38 36 = m.die ∧
          bits h.image.block.toNat 1023 41 = bits m.block.toNat 1023 41 ∧
          h.tenses = { state := 2, addr := m.buffers.getD 0 0, sdigAddr := m.sdigArea, shards := s.job.z } ::
            List.replicate 7 {} ∧
          h.presentCommit = 0 ∧ h.forwardIn = {} ∧ h.backwardIn = {} ∧ h.pastBudget = 2 * h.pages * 4096 ∧ h.spillSize = 0)

/-- RULE_LOAD, once every named stage passes, gives each of them its rule, and no other stage: one whose update has not
reached AT keeps it waiting, and one that builds no update has it at once, with an idle digest accumulator and, on an
Inflector at rest, registers of 0 (log 102). A curve or a mask that passes waits in its rule for the update that it first
applies to; where nothing waits and AT is reached its bytes go to its table, and the group record points to it.
TENSE_CONFIG sets the budget and the spill area of every named stage and answers with the slot records (R136, R169, R221,
R222, R224, R225, R239, R240). -/
def Obligations.RulesTablesAndBudgets : Prop :=
  ∀ (c : Cmd) (s : State),
    let s0 := takeEntry c s
    let vs := s.named (c.arg 0 2)
    let at' := if c.expert then c.arg 4 4 else 0
    let later (g : Stage) : Prop := g.update.building.isSome = true ∨
      (∀ x ∈ g.loads, g.presentCommit < x.commit) ∧ g.presentCommit < at'
    let now (g : Stage) : Prop := g.update.building = none ∧ g.loads = [] ∧ at' ≤ g.presentCommit
    let table (i : Instr) (field : Nat) (addr : Stage → Nat → Nat) : Prop :=
      ∃ t, Answers i c s [] [] t ∧ t = { s0 with stages := t.stages, mem := t.mem, badWords := t.badWords } ∧
        (∀ v, v ∉ vs → t.stage v = s.stage v) ∧
        (∀ v ∈ vs, later (s.stage v) → t.stage v = { s.stage v with loads := (s.stage v).loads ++
          (((s.stage v).groupsNamed (c.arg 2 2)).map fun j => ⟨at', none, [(addr (s.stage v) j, c.pay),
            ((s.stage v).recordAddr j + field, leBytes 8 (addr (s.stage v) j))]⟩) }) ∧
        ((∀ v ∈ vs, later (s.stage v)) → t.mem = s.mem) ∧
        (∀ v ∈ vs, now (s.stage v) → t.stage v = s.stage v) ∧
        ∀ v j, vs = [v] → now (s.stage v) → (s.stage v).groupsNamed (c.arg 2 2) = [j] →
          let p := addr (s.stage v) j
          let q := (s.stage v).recordAddr j + field
          ∀ a, memRead t.mem a = if q ≤ a ∧ a < q + 8 then (leBytes 8 p).getD (a - q) 0
            else if p ≤ a ∧ a < p + c.pay.length then c.pay.getD (a - p) 0 else memRead s.mem a
    let open' (v : Nat) : Prop := (s.stage v).rule.isSome = true ∧ (s.stage v).groupsNamed (c.arg 2 2) ≠ [] ∧
      (c.expert = true → (s.stage v).tableOpen at' = true)
    (Accepted c (ruleLoadSpec c s) s → s.badWords = [] → s.unknownStage (c.arg 0 2) = false →
      (∀ v ∈ vs, (∃ r, ruleFor c s v = .ok r) ∧ (c.expert = true → (s.stage v).tableOpen at' = true)) →
      ∃ t, Answers (.ruleLoad c) c s [] [] t ∧
        t = { s0 with engines := t.engines, stages := t.stages, mem := t.mem, badWords := t.badWords } ∧
        (∀ v, v ∉ vs → t.stage v = s.stage v) ∧ ∀ v ∈ vs, ∀ r, ruleFor c s v = .ok r →
          let new : Rule := ⟨r.code, r.kind, r.matrix, r.wire⟩
          (later (s.stage v) → ∃ x, x.commit = at' ∧ x.rule = some (new, r.coeffs.map (·.2.1.toNat)) ∧
            t.stage v = { s.stage v with loads := (s.stage v).loads ++ [x] }) ∧
          (now (s.stage v) →
            let g := t.stage v
            g.rule = some new ∧ g.dig = .idle ∧ g.loads = [] ∧ g.image.code = (s.stage v).image.code ∧
              g.tenses = (s.stage v).tenses ∧ ((s.eng (g.image.die * 128 + 97)).stat = .idle → ∀ i,
                (t.eng (g.image.die * 128 + 97)).rs i = 0 ∧ (t.eng (g.image.die * 128 + 97)).rv i = 0))) ∧
    (Accepted c (tableSpec c 0x30 1040) s → s.badWords = [] → s.unknownStage (c.arg 0 2) = false → (∀ v ∈ vs, open' v) →
      curveRefusal c.pay = none → table (.schedTableLoad c) 96 fun g i => g.image.curveArea + 1040 * i) ∧
    (Accepted c (tableSpec c 0x31 16777216) s → s.badWords = [] → s.unknownStage (c.arg 0 2) = false →
      (∀ v ∈ vs, open' v ∧ ∀ i ∈ (s.stage v).groupsNamed (c.arg 2 2), maskRefusal s.job.z c.pay (s.stage v) i = none) →
      table (.freezeMaskLoad c) 88 fun g i => g.maskAddr s.job.z i) ∧
    (let named := s.named (if c.expert then c.arg 0 2 else 0xFFFF)
     let budget (v : Nat) := if c.expert then c.arg 8 8 else 2 * (s.stage v).pages * 4096
     let spill := if c.expert then c.arg 16 8 else 0
     Accepted c tenseConfigSpec s → s.loadedStages ≠ [] → (c.expert = true → s.unknownStage (c.arg 0 2) = false) →
      512 * named.length ≤ c.respLen → (∀ v ∈ named, (s.stage v).configOk (budget v) spill = true) →
      ∃ t, Answers (.tenseConfig c) c s [] (named.flatMap fun v => (s.stage v).slotRecords) t ∧
        t = { s0 with stages := t.stages } ∧ ∀ v, t.stage v =
          if v ∈ named then { s.stage v with pastBudget := budget v, spillSize := spill } else s.stage v)

/-- CLAUSE_FRAME: a frame that Table 13.5a admits, whose Clause is the next one of its in-queue, whose length its
receive slot holds and whose stage and slot lie on present dies, completes: the port has accepted it, the Clause is the
queue's newest entry with the address of its receive slot, and stands at the entry's address in the Clause store; no
other byte of memory and no other stage changes. A frame for a stage that the module has not raises EV_CLAUSE_ROUTE and
does nothing else (R172, R176, R179, R181, R339). -/
def Obligations.ClauseArrival : Prop :=
  ∀ (p : Fin 8) (f : Frame) (s : State), FrameOk p.val f s → (s.port p.val).role = 1 ∨ (s.port p.val).role = 2 →
    hType f.header = 2 →
    let c := BitVec.ofNat 512 (leNat (f.payload.take 64))
    let s1 := linkIn p.val f s
    (∀ v, s.findStage (hStage f.header) = some v →
      let g := s.stage v
      let back := hSub f.header % 2 == 1
      let q := g.inQ back
      let a := g.slotAddr back (clauseSeq c)
      let c' := setClause c 175 128 (if clauseLen c = 0 then 0 else a)
      let e := inEntry g v back (clauseSeq c)
      clauseSeq c = q.delivered % 2 ^ 32 → q.refused ≠ some (clauseSeq c) → clauseLen c * 256 ≤ g.slotLen back →
      s.deliveryDie g a = none →
      ∃ t, exec (.clauseFrame p f) s = .next (ackDue p.val t) ∧
        t = { s1 with mem := t.mem, badWords := t.badWords, stages := t.stages } ∧
        t.stage v = (g.updIn back fun q => { q with items := q.items ++ [c'], delivered := q.delivered + 1 }) ∧
        (∀ b, memRead t.mem b = if e ≤ b ∧ b < e + 64 then BitVec.ofNat 8 (c'.toNat >>> (8 * (b - e))) else memRead s.mem b) ∧
        ∀ u, u ≠ v → t.stage u = s.stage u) ∧
    (s.findStage (hStage f.header) = none →
      ∃ t, exec (.clauseFrame p f) s = .next (ackDue p.val t) ∧ EventOnly s1 t ∧
        (s.chip.parserHeld = false →
          sget 0 t.evSeq (clauseStoreUnit * 16) = sget 0 s.evSeq (clauseStoreUnit * 16) + 1))

/-- What a checkpoint writes a restore reads: unpacking a packed list of sections gives that list. CHECKPOINT writes the
sections into host memory and changes nothing else, and is refused with the length it needs where they do not fit; it
and RESTORE wait where the OFFLOAD partition has no room (log 64). RESTORE installs a checkpoint whose sections all
pass: every stage has its present Tense as saved, and no Clause, record or count; STAGE and COLLECTIVE ports are DOWN
with nothing queued. TENSE_EXPORT pins the slot and queues the image and its manifest on an EXPORT port, and waits while
that port carries another export (R219, R353, R382, R383, R405). -/
def Obligations.CheckpointRestoreExport : Prop :=
  (∀ (job rank z : Nat) (xs : List Section),
    (∀ x ∈ xs, 1 ≤ x.kind ∧ x.kind ≤ 8 ∧ x.stage < 2 ^ 16 ∧ x.shard < 2 ^ 8 ∧ x.commit < 2 ^ 32) → xs.length < 2 ^ 32 →
    (packSections job rank z xs).length < 2 ^ 64 →
    unpackSections (packSections job rank z xs) = .ok xs) ∧
  ∀ (c : Cmd) (s : State),
    let s0 := takeEntry c s
    let bs := packSections s.job.id.toNat s.job.rank s.job.z (allSections s (c.expert && c.arg 16 1 == 1))
    let there := c.arg 0 8 % 64 = 0 ∧ (c.arg 0 8 = 0 → c.arg 8 8 = 0)
    let present := ∀ v ∈ s.loadedStages, s.absent (s.stage v).image.die = false
    (Accepted c checkpointSpec s → there → present → s.checkpointBad = none → bs.length ≤ c.arg 8 8 → s.offloadWaits = true →
      GoesOn (.checkpoint c) c s s0) ∧
    (Accepted c checkpointSpec s → there → present → s.checkpointBad = none → bs.length ≤ c.arg 8 8 → s.offloadWaits = false →
      ∃ t, Answers (.checkpoint c) c s (leBytes 8 bs.length) [] t ∧ t = { s0 with hostMem := t.hostMem } ∧
        ∀ a, memRead t.hostMem a =
          if c.arg 0 8 ≤ a ∧ a < c.arg 0 8 + bs.length then bs.getD (a - c.arg 0 8) 0 else memRead s.hostMem a) ∧
    (Accepted c checkpointSpec s → there → present → s.checkpointBad = none → c.arg 8 8 < bs.length →
      exec (.checkpoint c) s = .next (complete c.mb c.opcode c.id c.respAddr stLength
        (Refuse.result { status := stLength, offset := 40, size := bs.length }) [] s0)) ∧
    (∀ xs, Accepted c restoreSpec s → there → unpackSections (memBytes s.hostMem (c.arg 0 8) (c.arg 8 8)) = .ok xs →
      (∀ x ∈ xs, sectionOk s x = true) → s.missing xs = none → present → s.offloadWaits = false →
      ∃ t, Answers (.restore c) c s [] [] t ∧ t.job.restores = s.job.restores + 1 ∧ t.job.state = s.job.state ∧
        t.flash = s.flash ∧ t.chip = s.chip ∧
        (∀ p, p < 8 → 1 ≤ (s.port p).role → (s.port p).role ≤ 3 →
          (t.port p).state = 0 ∧ (t.port p).out = [] ∧ (t.port p).unacked = []) ∧
        ∀ v ∈ s.loadedStages,
          let g := s.stage v
          let h := t.stage v
          let tag := (sectionOf xs 4 g.image.stage).getD []
          h.image = g.image ∧ h.forwardIn = {} ∧ h.backwardIn = {} ∧ h.forwardOut = {} ∧ h.backwardOut = {} ∧ h.takes = 0 ∧
            h.records = [] ∧ h.current = none ∧ h.update = {} ∧ h.exec = none ∧ h.restart = 0 ∧
            h.tenses = { state := 2, commit := fieldAt tag 4 4, addr := g.image.buffers.getD 0 0, sdigAddr := g.image.sdigArea
                         shards := s.job.z, adig := BitVec.ofNat 128 (fieldAt tag 16 16) } :: List.replicate 7 {}) ∧
    (∀ v u p, Accepted c exportSpec s → exportWaits c s = false → c.arg 0 2 ≠ 0xFFFF → s.findStage (c.arg 0 2) = some v →
      (c.expert = true → c.arg 8 1 ≤ 7) →
      (s.stage v).exported c = some u → exportPort c s = some p →
      s.badAmong ((s.stage v).slotRecord v u.commit ++ (s.stage v).sourceRanges u) = none → exportBad s (s.stage v) u (s.materialise (s.stage v) u) = false →
      let g := s.stage v
      let no := s.job.exports.toNat
      let img := (s.materialise g u).take g.image.imageSize
      ∃ t, GoesOn (.tenseExport c) c s t ∧
        t = { s0 with stages := t.stages, ports := t.ports, job := t.job, freeCount := s.freeCount + 32 } ∧
        t.job = { s.job with exports := s.job.exports + 1
                             exporting := s.job.exporting ++ [(p, no, g.image.stage, u.commit)] } ∧
        (t.port p).out = (s.port p).out ++ [exportMessage 2 g.image.stage no 0 img,
          exportMessage 3 g.image.stage no (cdiv img.length 480) (manifest s g u no img)] ∧
        (∀ x ∈ (t.stage v).tenses, x.holds = true → x.commit = u.commit → x.pin = true) ∧
        ∀ w, w ≠ v → t.stage w = s.stage w) ∧
    (exportWaits c s = true → exec (.tenseExport c) s = .next s)

/-- Settings that take one command each: a port's role, the ingest parameters, epoch and position, the check fraction
and the Agreement interval. Each sets what its entry says and nothing else; a check fraction, its shadow key and its
response wait for the next entry of a layer group (R272, R289, R291, R292, R296, R335). -/
def Obligations.Settings : Prop :=
  ∀ (c : Cmd) (s : State),
    let s0 := takeEntry c s
    let g := s.ingest
    (let role (p : Nat) : Option Nat := if 8 ≤ p then none else if !c.expert then some (c.arg p 1)
       else if p = c.arg 0 1 then some (c.arg 1 1) else none
     Accepted c (portRoleSpec c) s → (c.expert = true → c.arg 0 1 ≤ 7 ∧ c.arg 2 1 = 0) →
      (∀ r ∈ routeTable c.pay, r < 8 ∨ 15 ≤ r) →
      (∀ p r, role p = some r → (s.port p).state = 0 ∧ r ≤ 4 ∧ (r ≠ 0 → s.reduced = false ∧ s.portRetired p = false)) →
      ∃ t, Answers (.portRoleSet c) c s [] [] t ∧ t = { s0 with ports := t.ports, transit := t.transit, routes := t.routes } ∧
        t.routes = (if c.expert then routeTable c.pay else []) ∧
        ∀ p, (t.port p).state = (s.port p).state ∧ (t.port p).role = (role p).getD (s.port p).role) ∧
    (∀ v, Accepted c ingestOpenSpec s → s.stage0 = some v →
      let head := if c.expert then 96 else 0
      let again := if c.expert then c.payNat 80 4 else 0
      head + 16 ≤ c.len → (c.len - head) % 16 = 0 → (c.len - head) / 16 ≤ 32 → ingestReserved c.expert c.pay = none →
      let b := basicIngest c s
      let p := if c.expert then expertIngest c
        else { b with reservoir := basicArea (s.stage v).image.die (b.w * b.clipBytes), reservoirLen := b.w * b.clipBytes }
      p.ok = true → g.n0 < p.n → p.payload ≤ (s.stage v).finSlot → p.w * p.clipBytes ≤ p.reservoirLen →
      (c.expert = true → areaInHbm (s.stage v).image.die p.reservoir p.reservoirLen = true) →
      match nsRefusal s p with
      | some st => exec (.ingestOpen c) s = .next (complete c.mb c.opcode c.id c.respAddr st (Refuse.result { status := st }) [] s0)
      | none => ∃ t, Answers (.ingestOpen c) c s [] [] t ∧ t = { s0 with ingest := t.ingest } ∧ t.ingest.isOpen = true ∧
          t.ingest.params = p ∧ t.ingest.slots = [] ∧ t.ingest.placed = g.placed ∧ t.ingest.consumed = g.consumed ∧
          t.ingest.pins = [] ∧
          ∀ n, n ∈ t.ingest.offline ↔ n ∈ g.offline ∧ bitAt again n = false ∧ ∃ x ∈ p.namespaces, x.num = n) ∧
    (Accepted c ingestEpochSpec s →
      (c.expert = true → (g.isOpen = true → c.arg 8 8 < g.params.n) ∧ c.arg 0 8 < c.arg 24 8) →
      Answers (.ingestEpoch c) c s [] [] { s0 with ingest :=
        { g.unpin with e0 := if c.expert then c.arg 0 8 else 0, n0 := if c.expert then c.arg 8 8 else 0
                       epochBase := if c.expert then BitVec.ofNat 64 (c.arg 16 8) else 0
                       eLim := if c.expert then some (c.arg 24 8) else none, endRaised := false, slots := []
                       failedReads := [], retries := [] } }) ∧
    (Accepted c (ingestPositionSpec c s) s → c.expert = true → (g.isOpen = true → c.arg 8 8 < g.params.n) →
      ∃ resp t, Answers (.ingestPosition c) c s [] resp t ∧ t = { s0 with ingest := t.ingest } ∧ t.ingest.e0 = c.arg 0 8 ∧
        t.ingest.n0 = c.arg 8 8 ∧ t.ingest.placed = 0 ∧ t.ingest.consumed = 0 ∧ t.ingest.slots = [] ∧
        t.ingest.pins = [] ∧ t.ingest.stopAt = none ∧ t.ingest.awaitPosition = false ∧ t.ingest.params = g.params ∧
        t.ingest.eLim = g.eLim ∧
        resp.length = if c.respLen < positionSize then 0 else positionSize) ∧
    (let arg := if c.expert then c.arg 2 2 else 0xFFFF
     Accepted c checkFractionSpec s → c.arg 0 1 ≤ 4 → (c.expert = true → c.arg 4 1 ≤ 1) → s.unknownStage arg = false →
      ∃ t, Answers (.checkFractionSet c) c s [] [] t ∧ t = { s0 with stages := t.stages } ∧
        ∀ v, t.stage v = if v ∈ s.named arg then { s.stage v with shadowNext := some (c.arg 0 1,
            if c.expert then (BitVec.ofNat 64 (c.arg 8 8), some (c.arg 4 1 == 1))
            else ((s.stage v).shadowNext.map (·.2)).getD ((s.stage v).shadowKey, none)) }
          else s.stage v) ∧
    (Accepted c agreeSpec s → 1 ≤ c.arg 0 4 → c.arg 0 4 ≤ 65535 → (c.expert = true → c.arg 4 1 ≤ 1) →
      Answers (.agreeIntervalSet c) c s [] [] { s0 with job :=
        { s.job with agreeD := c.arg 0 4, agreeLog := if c.expert then c.arg 4 1 == 1 else s.job.agreeLog } })

/-- A field test that its checks admit goes on with its scope and kinds; a memory test of a die or of the package leaves
the HBM it covers reading as zeros, and every other byte as it was; when it is done its command completes and every
PERMANENT result has retired its unit. A fault record carries the next SEQ and its fields read back; no PERMANENT or
PATTERN record ever leaves the ring; a unit's third event in its window retires it. The repeat of a captured tile
frees its entry where the majority clears both gangs or the suspect repeats well, retires the suspect otherwise, keeps
the entry of a PATTERN, and leaves it for another repeat where no two of three digests agree; a partner that repeats well
has the event of its record, not the home gang (log 134) (R258, R262 to R265,
R268, R270, R272, R453). -/
def Obligations.TestsAndHistory : Prop :=
  ((∀ (c : Cmd) (s : State),
     let started (i : Instr) (scope unit mask : Nat) : Prop :=
       s.scopeUnit scope unit = true → s.chip.thermalTrip = false → s.testBusy scope unit = false → s.faults.test = none →
       let hit (a : Nat) : Bool := bitAt mask 1 && scope != 0 &&
         (List.range 5).any fun d => (scope == 2 || d == unit / 8192) && inHbm d a
       ∃ t part, GoesOn i c s t ∧ t.faults = { s.faults with test := some ⟨scope, unit, mask, part, runningOf c⟩ } ∧
         t.chip.parked = false ∧ t.stages = s.stages ∧ t.engines = s.engines ∧
         (t.job.overwritten = true ↔ s.job.overwritten = true ∨ bitAt mask 1 = true ∧ scope ≠ 0 ∧ ∃ v ∈ s.loadedStages,
           ∃ d, d ≤ 4 ∧ (scope = 2 ∨ d = unit / 8192) ∧ (s.stage v).usesHbm d = true) ∧
         (∀ a, memRead t.mem a = if hit a then 0 else memRead s.mem a) ∧
         (part = true ↔ s.reduced = true ∧ (bitAt mask 2 = true ∨ bitAt mask 1 = true ∧ scope ≠ 0))
     let scope := if c.expert then c.arg 0 1 else 2
     let unit := if c.expert then c.arg 2 2 else 0
     (let mask := if c.expert then c.arg 4 1 else 15
      Accepted c fieldTestSpec s → scope ≤ 2 → mask ≠ 0 → started (.fieldTest c) scope unit mask) ∧
     (let kind := if c.expert then c.arg 4 1 else 2
      let n := if c.expert then c.arg 5 1 else 1
      Accepted c bistSpec s → scope ≤ 2 → kind ≤ 2 → 1 ≤ n → n ≤ 16 → started (.bistRun c) scope unit (kind + 1))) ∧
   (∀ (ts : List TestResult) (f : FieldTest) (s : State), s.faults.test = some f →
     let own := ts.filter fun x => f.holds x && testNames s x
     (bitAt f.mask 3 = true → s.toRepeat = true → exec (.fieldTestDone ts) s = .next s) ∧
     (bitAt f.mask 3 = false ∨ s.toRepeat = false →
       ∃ t, exec (.fieldTestDone ts) s = .next t ∧ t.faults.test = none ∧ t.running = s.running.erase f.cmd ∧
         t.mem = s.mem ∧
         (∀ x ∈ own, x.first ≠ testReference x → x.again ≠ testReference x →
           (x.unit.toNat, x.cls.toNat, (testRecord s x).phys) ∈ t.faults.retired) ∧
         ((∀ x ∈ own, x.first = testReference x ∨ x.again = testReference x) → t.faults.retired = s.faults.retired) ∧
         ((∀ x ∈ own, x.first = testReference x) → t.faults.toWrite = s.faults.toWrite)))) ∧
  ((∀ (r : RecordReq) (seq poh : Nat),
     let x := faultRecord r seq poh
     recKind x = r.kind % 256 ∧ recVerdict x = r.verdict % 16 ∧ recUnit x = r.unit % 65536 ∧ recClass x = r.cls % 16 ∧
       recSeq x = seq % 2 ^ 32 ∧ recPoh x = poh % 2 ^ 32) ∧
   (∀ (r : RecordReq) (poh : W32) (rest : List (RecordReq × W32)) (s : State), s.faults.toWrite = (r, poh) :: rest →
     s.chip.parserHeld = false → s.chip.powered = true → 2 ≤ s.chip.bringup →
     let x := faultRecord r s.faults.seq.toNat poh.toNat
     let f := { s.faults with records := ringPut s.faults.records x, seq := s.faults.seq + 1, toWrite := rest }
     let third := (f.eventWindow (f.eventUnit x)).1 = 3
     ∃ t, exec .faultRecordWrite s = .next t ∧ t.faults.records = ringPut s.faults.records x ∧
       t.faults.seq = s.faults.seq + 1 ∧ (s.faults.records.length < ringSize → t.faults.records = s.faults.records ++ [x]) ∧
       (∀ y ∈ s.faults.records, recVerdict y = 2 ∨ recVerdict y = 3 → y ∈ t.faults.records) ∧
       (¬(r.verdict = 1 ∧ third) → t = { s with faults := f }) ∧
       (r.verdict = 1 → third → ∃ phys, ((f.eventUnit x).1, (f.eventUnit x).2, phys) ∈ t.faults.retired ∧
         (f.eventUnit x = (recUnit x, recClass x) → phys = r.phys))) ∧
   (∀ (k : Fin 16) (c : Capture) (r : RepeatResult) (s : State), sget none s.faults.captures k.val = some c →
     c.kept = false → c.tried = false →
     ((∀ v ∈ s.loadedStages, (s.stage v).live = false) ∨ ∃ f, s.faults.test = some f ∧ bitAt f.mask 3 = true) →
     s.badIn (captureAddr k.val) c.bytes.length = none →
     let home := c.digest r.home
     let again := c.digest r.homeAgain
     let vote := majority home (c.digest r.partner) (c.digest r.arbiter)
     ∃ t, exec (.captureRepeat k r) s = .next t ∧ t.mem = s.mem ∧
       (vote = none → t = { s with faults := t.faults } ∧
         sget none t.faults.captures k.val = some { c with tried := true } ∧ t.faults.retired = s.faults.retired) ∧
       (∀ ref, vote = some ref → c.homeDig = ref → c.partnerDig = ref →
         sget none t.faults.captures k.val = none ∧ t.faults.retired = s.faults.retired) ∧
       (∀ ref, vote = some ref → c.homeDig ≠ ref → c.partnerDig = ref → (home = ref ∨ again = ref) →
         sget none t.faults.captures k.val = none ∧ t.faults.retired = s.faults.retired) ∧
       (∀ ref, vote = some ref → c.homeDig = ref → c.partnerDig ≠ ref → partnerOf c.engine ≠ c.engine →
         c.digest r.partner = ref ∨ c.digest r.partnerAgain = ref →
         sget none t.faults.captures k.val = none ∧ t.faults.retired = s.faults.retired ∧
           t.faults.suspects = s.faults.suspects ++ [(s.nextSeq, partnerOf c.engine * 64 + dBase c.desc, 0)]) ∧
       (∀ ref, vote = some ref → c.homeDig ≠ ref → c.partnerDig = ref → home ≠ ref → again ≠ ref →
         t.faults.retired = s.faults.retired ++ [suspectUnit s c c.engine r] ∧
         (∀ a, r.failArray = some a → dBase c.desc ≤ a.val → a.val < dBase c.desc + dArrays c.desc →
           suspectUnit s c c.engine r = (c.engine * 64 + a.val, 0, s.faults.phys c.engine a.val)) ∧
         sget none t.faults.captures k.val = if r.suitePassed then some { c with kept := true } else none)))

/-- BAR2: the window register takes BASE and EN after every access before it, and is invalid unless its 64 GiB lie
within the HBM of one compute die. A write that the window admits waits and is performed before any later read, which
returns the bytes written; a write before REDUCED (log 60) or outside an enabled, valid window, and a poisoned one, is
discarded and counted. The window register takes its two halves too. A host DMA engine performs the oldest waiting write
(R357, R358, R359, R361, R448). -/
def Obligations.Bar2 : Prop :=
  (∀ (x : W64) (s : State),
    (s.regsOn = true → ∃ t, exec (.bar2WindowWrite x) s = .next t ∧ t.host.bar2Base.toNat = bits x.toNat 47 30 ∧
      t.host.bar2En = x.getLsbD 0 ∧ t.host.chunks = [] ∧
      (t.host.bar2Invalid = false ↔ ∃ d, 1 ≤ d ∧ d ≤ 4 ∧ d * 2 ^ 40 ≤ bits x.toNat 47 30 * 2 ^ 30 ∧
        bits x.toNat 47 30 * 2 ^ 30 + 64 * 2 ^ 30 ≤ d * 2 ^ 40 + 144 * 2 ^ 30)) ∧
    (s.regsOn = false → exec (.bar2WindowWrite x) s = .next s) ∧
    (∀ lo hi : W32, s.regsOn = true → ∃ t u, exec (.registerWrite 0x18 lo) s = .next t ∧
      exec (.registerWrite 0x1C hi) t = .next u ∧ bar2Window t = bar2Window s ∧ u.host.chunks = [] ∧
      u.host.bar2Base.toNat = bits (hi ++ lo).toNat 47 30 ∧ u.host.bar2En = lo.getLsbD 0)) ∧
  (∀ (off : BitVec 36) (data : List Byte) (poisoned : Bool) (s : State), s.barsOn = true → data.length ≤ 512 →
    off.toNat + data.length ≤ 2 ^ 36 →
    (s.chip.bringup < 4 ∨ s.host.bar2Addr off.toNat = none ∨ poisoned = true → exec (.bar2Write off data poisoned) s =
      .next { s with host := { s.host with bar2Errors := satInc s.host.bar2Errors } }) ∧
    (∀ a, 4 ≤ s.chip.bringup → s.host.bar2Addr off.toNat = some a → s.absent (a / 2 ^ 40) = false → a < 2 ^ 47 →
      s.badPart a data.length = none → s.host.chunks = [] →
      ∃ t u, exec (.bar2Write off data false) s = .next t ∧ t.mem = s.mem ∧ t.host.chunks.length = 1 ∧
        exec (.bar2Read off data.length) t = .next u ∧ u.sent = .read data :: s.sent ∧ u.host = s.host ∧
        ∀ b, memRead u.mem b = if a ≤ b ∧ b < a + data.length then data.getD (b - a) 0 else memRead s.mem b)) ∧
  (∀ (e : Fin 8) (waited : Bool) (c : Chunk) (rest : List Chunk) (s : State), s.host.chunks = c :: rest →
    (∀ x ∈ c :: rest, x.cls = 1) → 0 < s.partition 1 → s.absent (c.addr / 2 ^ 40) = false → c.addr < 2 ^ 47 →
    s.badPart c.addr c.data.length = none →
    ∃ t, exec (.hostDmaChunk e waited) s = .next t ∧
      t = { s with mem := t.mem, badWords := t.badWords, host := { s.host with chunks := rest } } ∧
      ∀ b, memRead t.mem b =
        if c.addr ≤ b ∧ b < c.addr + c.data.length then c.data.getD (b - c.addr) 0 else memRead s.mem b)

/-- A successful enable of a mailbox sets every index to 0 and the phase to 1; a ring size or a base that does not fit is
refused with ST_RING and leaves ENABLE 0; a disable keeps the indexes and the fixed fields; CMD_TAIL and CMP_HEAD take
an index inside the ring, and the doorbell waits for the BAR2 writes before it, after which the device reads the entries.
In ROM only BRINGUP, FAULT_CAUSE, UPTIME and FENCE answer. A 64-bit register takes effect with
its upper half; a locked firewall block takes no write; a read returns its register and changes nothing, the doorbell
reads 0, and a counter that clears on reading is returned and cleared in one access; a coalescing timer sends one
message, or sets the pending bit of a masked vector or function; a vector that is unmasked sends its pending message (R16,
R328, R357, R359, R362 to R365, R406). -/
def Obligations.HostRegisters : Prop :=
  (∀ (m : Fin 32) (s : State), s.regsOn = true →
     let r := s.mailbox m.val
     let others (t : State) : Prop := t = { s with host := t.host } ∧ ∀ j, j ≠ m.val → t.mailbox j = s.mailbox j
     (∀ ctrl : W32, ctrl.getLsbD 0 = true → r.enabled = false →
       let size := bits ctrl.toNat 11 8
       (4 ≤ size ∧ size ≤ 12 ∧ r.cmdBase.toNat % 4096 = 0 ∧ r.cmpBase.toNat % 4096 = 0 → (m.val ≠ 0 → 3 ≤ s.chip.bringup) →
         ∃ t, exec (.mailboxEnable m ctrl) s = .next t ∧ others t ∧ t.mailbox m.val =
           { r with ctrl := ctrl &&& ctrlMask, cmdTail := 0, cmpHead := 0, cmdHead := 0, cmpTail := 0, waiting := 0,
                    phase := true }) ∧
       (size < 4 ∨ 12 < size ∨ r.cmdBase.toNat % 4096 ≠ 0 ∨ r.cmpBase.toNat % 4096 ≠ 0 →
         ∃ t, exec (.mailboxEnable m ctrl) s = .next t ∧ others t ∧ t.mailbox m.val =
           { r with ctrl := ctrl &&& ctrlMask &&& ~~~1, cfgStatus := BitVec.ofNat 16 stRing })) ∧
     (∀ ctrl : W32, ctrl.getLsbD 0 = false → r.enabled = true →
       ∃ t, exec (.mailboxDisable m ctrl) s = .next t ∧ others t ∧ (t.mailbox m.val).enabled = false ∧
         t.mailbox m.val = { r with ctrl := (t.mailbox m.val).ctrl } ∧
         (t.mailbox m.val).ctrl &&& 0x003F0F00#32 = r.ctrl &&& 0x003F0F00#32) ∧
     (∀ (x : W32) (wrote : List (W64 × List Byte)),
       (x.toNat < r.size → r.enabled = true → ∃ t, exec (.cmdTail m x wrote) s = .next t ∧
         (t.mailbox m.val).cmdTail = x ∧ t.host.chunks = [] ∧
         (t.mailbox m.val).cmdHead = (if s.chip.parserHeld then r.cmdHead else x) ∧
         (s.host.chunks = [] → t.mem = s.mem ∧ t.mailbox m.val = if s.chip.parserHeld then { r with cmdTail := x }
           else { r with cmdTail := x, cmdHead := x
                         waiting := r.waiting + (x.toNat + r.size - r.cmdHead.toNat) % r.size })) ∧
       (r.size ≤ x.toNat → ∃ t, exec (.cmdTail m x wrote) s = .next t ∧
         t.mailbox m.val = { r with cfgStatus := BitVec.ofNat 16 stRing }) ∧
       ∃ t, exec (.cmpHead m x) s = .next t ∧ others t ∧ t.mailbox m.val =
         if x.toNat < r.size then { r with cmpHead := x } else { r with cfgStatus := BitVec.ofNat 16 stRing })) ∧
  (∀ (s : State),
     (∀ (m : Fin 32) (lo hi : W32), s.regsOn = true → (s.mailbox m.val).enabled = false →
       let at' (o : Nat) : W16 := BitVec.ofNat 16 (0x1000 + 64 * m.val + o)
       ∃ t u, exec (.registerWrite (at' 0) lo) s = .next t ∧ exec (.registerWrite (at' 4) hi) t = .next u ∧
         t.mailbox m.val = s.mailbox m.val ∧ u.mailbox m.val = { s.mailbox m.val with cmdBase := hi ++ lo }) ∧
     (∀ x : W32, s.regsOn = true → exec (.registerWrite 0x14 x) s =
       .next { s with chip := { s.chip with statusIrqEn := x.getLsbD 0 } }) ∧
     (∀ (p : Fin 2) (x : W32), s.regsOn = true →
       ∃ t, exec (.fwCtrlWrite p x) s = .next t ∧ t = { s with host := t.host } ∧
         (t.fw p.val) = if (s.fw p.val).locked then s.fw p.val else { s.fw p.val with ctrl := x &&& 3 }) ∧
     (∀ (off : W16) (x : W32) (p : Fin 2), (s.fw p.val).locked = true →
       ∃ t, exec (.registerWrite off x) s = .next t ∧ t.fw p.val = s.fw p.val) ∧
     (∀ off : W16, s.regsOn = true ∨ s.barsOn = true ∧ off.toNat < 0x14 →
       off.toNat ∉ [0x20, 0x8010, 0x8014, 0x8810, 0x8814] → exec (.rcRegisterRead off) s = .next { s with sent := .read (leBytes 4 (readReg s off.toNat).toNat) :: s.sent }) ∧
     (∀ off : W16, s.regsOn = false → s.barsOn = false ∨ 0x14 ≤ off.toNat → exec (.rcRegisterRead off) s = .next s) ∧
     (readReg s 0x14 = BitVec.ofNat 32 (bit s.chip.statusIrqEn) ∧ readReg s 4 = BitVec.ofNat 32 s.chip.faultCause ∧
       ∀ m : Fin 32, readReg s (0x1018 + 64 * m.val) = 0 ∧ readReg s (0x1010 + 64 * m.val) = (s.mailbox m.val).ctrl ∧
         readReg s (0x1020 + 64 * m.val) = (s.mailbox m.val).cmdHead) ∧
     (s.regsOn = true → exec (.rcRegisterRead 0x20) s = .next { s with
       host := { s.host with bar2Errors := 0 }, sent := .read (leBytes 4 s.host.bar2Errors.toNat) :: s.sent }) ∧
     (∀ p : Fin 2, s.regsOn = true →
       ∃ t, exec (.rcRegisterRead (BitVec.ofNat 16 (0x8010 + 0x800 * p.val))) s = .next t ∧
         (t.fw p.val) = { s.fw p.val with denied := 0 } ∧ t.sent = .read (leBytes 4 (s.fw p.val).denied.toNat) :: s.sent) ∧
     (∀ m : Fin 32, (s.mailbox m.val).timer = true → s.chip.parserHeld = false → s.host.msixOn = true →
       let r := s.mailbox m.val
       let v := bits r.ctrl.toNat 21 16
       let word (i : Nat) : Nat := (msixDword s (4 * v + i)).toNat
       ∃ t, exec (.msiXCoalesceTimeout m) s = .next t ∧ t = { s with host := t.host, sent := t.sent } ∧
         t.mailbox m.val = { r with timer := false } ∧
         t.sent = (if r.ctrl.getLsbD 1 && !(s.host.msixMasked || word 3 % 2 == 1) then .msix v (word 0 + 2 ^ 32 * word 1) (word 2) :: s.sent
           else s.sent) ∧
         t.host.msixPending = if r.ctrl.getLsbD 1 && (s.host.msixMasked || word 3 % 2 == 1) then s.host.msixPending ||| (1#64 <<< v)
           else s.host.msixPending) ∧
     (∀ v : Fin 64, s.regsOn = true → s.host.msixOn = true → s.host.msixMasked = false →
       let word (i : Nat) : Nat := (msixDword s (4 * v.val + i)).toNat
       ∃ t, exec (.msiXUnmask v) s = .next t ∧ t = { s with host := t.host, sent := t.sent } ∧
         msixDword t (4 * v.val + 3) = 0 ∧ t.host.msixPending.getLsbD v.val = false ∧
         t.sent = if s.host.msixPending.getLsbD v.val then .msix v.val (word 0 + 2 ^ 32 * word 1) (word 2) :: s.sent
           else s.sent))

/-- The resets of the function and the endpoint end the job and clear the function's registers, and keep memory, the
fault records, the flash and the bring-up state; the power state and the reset pin change nothing but themselves. A
package reset, whatever its source, clears every memory and register and keeps the flash, with a boot record torn that
was being written, the fault records and the out-of-service state; it counts one more reset unless a source holds the
package already. Power-on and power-off start the count anew, and a regulator that latched off waits for VIN to go (R38,
R269, R356, R360, R409, R415 to R417, R419, R420, R431, R441). -/
def Obligations.Resets : Prop :=
  (∀ (s : State),
     let reset (t : State) : Prop :=
       t.job = {} ∧ t.stages = [] ∧ t.host.mailboxes = [] ∧ t.host.bar2En = false ∧ t.host.halves = [] ∧
         t.host.chunks = [] ∧ t.host.d3 = false ∧ t.chip.statusIrqEn = false ∧
         (s.job.state ≠ 0 → t.chip.fenceDone = false) ∧
         (s.job.state = 0 → s.chip.fencing = false → t.chip.fenceDone = s.chip.fenceDone) ∧
         t.chip.bringup = s.chip.bringup ∧ t.chip.thermalTrip = s.chip.thermalTrip ∧ t.flash = s.flash ∧
         t.faults.records = s.faults.records ∧ t.faults.retired = s.faults.retired ∧
         (∀ r ∈ t.running, r.isHost = false ∧ r ∈ s.running) ∧ (s.host.chunks = [] → t.mem = s.mem)
     (s.endpointOn = true →
       (∃ t, exec .functionLevelReset s = .next t ∧ reset t ∧ t.chip.perst = s.chip.perst) ∧
       (∀ d3, exec (.powerStateChange d3) s = .next { s with host := { s.host with d3 := d3 } }) ∧
       ∀ perst, ∃ t, exec (.hostReset perst) s = .next t ∧ reset t ∧ t.chip.perst = (s.chip.perst || perst)) ∧
     (s.endpointOn = false →
       exec .functionLevelReset s = .next s ∧ (∀ d3, exec (.powerStateChange d3) s = .next s) ∧
       ∀ perst, exec (.hostReset perst) s = .next { s with chip := { s.chip with perst := s.chip.perst || perst } }) ∧
     exec .perstRelease s = .next { s with chip := { s.chip with perst := false } }) ∧
  (∀ (s : State),
     let cleared (t : State) : Prop :=
       t.mem = [] ∧ t.engines = [] ∧ t.stages = [] ∧ t.job = {} ∧ t.host = {} ∧ t.ports = [] ∧ t.ingest = {} ∧
         t.mgmt = {} ∧ t.running = [] ∧ t.chip.bringup = 0 ∧ t.chip.uptime = 0 ∧ t.chip.thermalTrip = false ∧
         t.chip.thermalSeen = false ∧ t.chip.parserHeld = false ∧
         t.flash = { s.flash with bootTorn := s.flash.bootTorn || s.chip.bootWriting } ∧
         t.faults.records = s.faults.records ∧ t.faults.seq = s.faults.seq ∧ t.faults.poh = s.faults.poh ∧
         t.faults.demotions = s.faults.demotions ∧ t.chip.outOfService = s.chip.outOfService ∧
         t.hostMem = s.hostMem ∧ t.sent = s.sent ∧ t.chip.perst = s.chip.perst
     let source (i : Instr) (cause : Byte) (pin : Chip → Chip) : Prop :=
       (s.chip.held = true → exec i s = .next { s with chip := pin s.chip }) ∧
       (s.chip.held = false → ∃ t, exec i s = .next t ∧ cleared t ∧ t.chip.resetCause = cause ∧
         t.chip.resetCount = s.chip.resetCount + 1 ∧ t.chip = pin { t.chip with moduleReset := false, refclk := true } ∧
         t.chip.powered = true)
     source .moduleReset 2 (fun c => { c with moduleReset := true }) ∧
     source .refclkLoss 3 (fun c => { c with refclk := false }) ∧ source .hubReset 4 (fun c => c) ∧
     exec .moduleResetRelease s = .next { s with chip := { s.chip with moduleReset := false } } ∧
     exec .refclkReturn s = .next { s with chip := { s.chip with refclk := true } } ∧
     (s.chip.powered = true ∨ s.chip.regulatorLatched = true → exec .powerOn s = .next s) ∧
     (s.chip.powered = false → s.chip.regulatorLatched = false → ∃ t, exec .powerOn s = .next t ∧ cleared t ∧
       t.chip.resetCause = 1 ∧ t.chip.resetCount = 0 ∧ t.chip.powered = true) ∧
     (∃ t, exec .powerOff s = .next t ∧ cleared t ∧ t.chip.powered = false ∧ t.chip.regulatorLatched = false) ∧
     (s.chip.powered = true → ∃ t, exec .regulatorOvertemp s = .next t ∧ cleared t ∧ t.chip.powered = false ∧
       t.chip.regulatorLatched = true) ∧
     (s.chip.powered = false → exec .regulatorOvertemp s = .next s))

/-- The slot booted verifies, the ACTIVE slot comes first, then the other one, then recovery; a torn boot record counts as
the abandoned trial of slot A; the choice never changes a
slot's image or the fused SVN. FIRMWARE_BOOT enters PARSER with the slot chosen, its measurements held and its SVN and
version running, or sets BOOT_FAIL in ROM; ROM_ENTRY leaves RESET and samples SLOT_ID. A Phrase 0 on which a die would
answer and that fails training stops bring-up in PARSER before the answers are checked. An answer at DISCOVERY that
differs from the manifest stops it there and ends a pending advance; answers that agree, with no Phrase failed and the
microcode as measured, put the lane plan in force, latch the bifurcation and enter DISCOVERY, and a trial firmware that
this boot runs commits there; microcode that differs stops bring-up (R38, R273, R317 to R319, R397, R401, R403, R404,
R406, R412, R417). -/
def Obligations.BootAndDiscovery : Prop :=
  ((∀ f : Flash,
     let g := f.choose.2.1
     (match f.choose.1 with
      | some n => f.verifies n = true ∧ n < 3 ∧ (n < 2 → n = g.active) ∧ ∀ e ∈ f.choose.2.2, e.1 = n
      | none => ∀ n, n < 3 → f.verifies n = false) ∧
       (f.trial = false → f.bootTorn = false → f.choose.1 = if f.verifies f.active then some f.active
         else if f.verifies (1 - f.active) then some (1 - f.active) else if f.verifies 2 then some 2 else none) ∧
       (f.bootTorn = true → g.bootTorn = false ∧ f.choose.1 = if f.verifies 1 then some 1
         else if f.verifies 0 then some 0 else if f.verifies 2 then some 2 else none) ∧
       g.svn = f.svn ∧ g.slotA = f.slotA ∧ g.slotB = f.slotB ∧ g.recovery = f.recovery) ∧
   (∀ (id : BitVec 3) (s : State), s.climbs 0 = true →
     ∃ t, exec (.romEntry id) s = .next t ∧ t.chip.bringup = 1 ∧ t.chip.slotId = id ∧ t.mem = s.mem ∧ t.flash = s.flash ∧
       t.chip.service = serviceOf s.chip.outOfService 1) ∧
   (∀ s : State, s.climbs 1 = true → s.chip.bootFail = false →
     ∃ t, exec .firmwareBoot s = .next t ∧ t.flash = s.flash.choose.2.1 ∧ t.mem = s.mem ∧
       match s.flash.choose.1 with
       | none => t.chip.bootFail = true ∧ t.chip.bringup = 1
       | some n => t.chip.bringup = 2 ∧ t.chip.fwSlot = n ∧ t.chip.fwSvn = imageSvn (s.flash.slot n) ∧
           t.chip.fwVersion = BitVec.ofNat 32 (imageVersion (s.flash.slot n)) ∧
           t.mgmt.measurements = bootMeasurements (s.flash.slot n) ∧ t.chip.bootFail = false)) ∧
  (∀ (as : List DieAnswer) (failed : List W16) (s : State), s.climbs 2 = true → s.chip.fwSlot ≠ 2 →
     let bad := failed.filter isPhrase
     let first := bad.find? isDiscoverPhrase
     (∀ d x y, first = none → manifestDiff as = some (d, x, y) →
       ∃ t, exec (.discovery as failed) s = .next t ∧ t.chip.manifestBad = true ∧ t.chip.bringup = 2 ∧ t.flash = s.flash ∧
         t.chip.advance = none) ∧
     (manifestDiff as = none → bad = [] → s.microcodeBad = none → s.chip.advance = none →
       ∃ t, exec (.discovery as failed) s = .next t ∧ t.chip.bringup = 3 ∧ t.chip.planInForce = true ∧
         t.ingest.bifurcation = s.flash.bifurcation ∧
         t.chip.lanePlan = (if s.flash.plan = [] then defaultPlan else s.flash.plan) ∧ t.chip.lost = 0 ∧
         t.phrases = [] ∧ t.mem = s.mem ∧
         t.flash = (if s.flash.trial && s.flash.trialBooted then { s.flash with trial := false, trialBooted := false, svn := max s.flash.svn s.chip.fwSvn }
           else s.flash)) ∧
     (∀ k, manifestDiff as = none → bad = [] → s.microcodeBad = some k →
       ∃ t, exec (.discovery as failed) s = .next t ∧ t.chip.bringup = 2 ∧ t.chip.stopped = true ∧ t.flash = s.flash) ∧
     (first.isSome = true ∨ manifestDiff as = none ∧ bad ≠ [] →
       ∃ t, exec (.discovery as failed) s = .next t ∧ t.chip.bringup = 2 ∧ t.chip.stopped = true ∧
         ∀ x ∈ bad, (x.toNat, 0, 0) ∈ t.faults.retired))

/-- REDUCED and FULL: with tests that pass, REDUCED_ENTRY enters REDUCED with every memory reading as zeros, FULL_ENTRY
enters FULL with HBM reading as zeros and every other byte kept, and completes the BRINGUP_ADVANCE; a unit whose
failure bring-up cannot do without stops it in its state. A stopped advance restores the reduced dividers.
BRINGUP_ADVANCE goes on toward its target, and completes at once where it stands there; LANE_PLAN_SET keeps its plan
in flash (R314, R408 to R411, R413, R415). -/
def Obligations.ServiceEntries : Prop :=
  (∀ (ts : List TestResult) (s : State), (∀ x ∈ ts, x.first = testReference x) →
    (s.climbs 3 = true → 4 ≤ s.chip.autoTo → s.chip.advance = none →
      ∃ t, exec (.reducedEntry ts) s = .next t ∧ t.chip.bringup = 4 ∧ t.mem = [] ∧ t.badWords = [] ∧
        t.chip.arithDiv = 16 ∧ t.chip.hbmRate = 4 ∧ t.chip.service = serviceOf s.chip.outOfService 4) ∧
    (∀ a, s.climbs 4 = true → s.chip.advance = some a → a.begun = true → a.restoring = false → a.target ≤ 5 →
      s.chip.thermalTrip = false →
      ∃ t, exec (.fullEntry ts) s = .next t ∧ t.chip.bringup = 5 ∧ t.chip.advance = none ∧
        t.chip.service = serviceOf s.chip.outOfService 5 ∧
        (∀ r, a.cmd = some r → t.running = s.running.erase r) ∧
        ∀ b, memRead t.mem b = if (List.range 5).any fun d => inHbm d b then 0 else memRead s.mem b)) ∧
  (∀ (x : TestResult) (s : State), fatalResult (testVerdict x s) x = true →
    (s.climbs 3 = true → 4 ≤ s.chip.autoTo → ∃ t, exec (.reducedEntry [x]) s = .next t ∧ t.chip.bringup = 3 ∧
      t.chip.stopped = true ∧ (x.unit.toNat, x.cls.toNat, (testRecord s x).phys) ∈ t.faults.retired)) ∧
  (∀ (a : Advance) (s : State), s.climbs 4 = true → s.chip.advance = some a → a.restoring = true →
    s.chip.thermalTrip = false →
    ∃ t, exec .reducedServiceRestored s = .next t ∧ t.chip.bringup = 4 ∧ t.chip.arithDiv = 16 ∧ t.chip.hbmRate = 4 ∧
      t.chip.decodeOn = false ∧ t.chip.advance = none ∧
      ∀ b, memRead t.mem b = if (List.range 5).any fun d => inHbm d b then 0 else memRead s.mem b) ∧
  (∀ (c : Cmd) (s : State), Accepted c advanceSpec s →
    let target := if c.expert then c.arg 0 1 else 5
    (target = s.chip.bringup → 3 ≤ target →
      Answers (.bringupAdvance c) c s [BitVec.ofNat 8 target, BitVec.ofNat 8 s.chip.service] [] (takeEntry c s)) ∧
    (3 ≤ target → target ≤ 5 → s.chip.bringup < target →
      ∃ t, GoesOn (.bringupAdvance c) c s t ∧ t.chip.bringup = s.chip.bringup ∧
        t.chip.advance = some ⟨target, some (runningOf c), s.chip.bringup == 4, false⟩ ∧
        (s.chip.bringup ≠ 4 → t.mem = s.mem) ∧
        (s.chip.bringup = 4 → t.chip.arithDiv = 8 ∧ t.chip.decodeOn = true ∧
          ∀ b, memRead t.mem b = if (List.range 5).any fun d => inHbm d b then 0 else memRead s.mem b))) ∧
  (∀ (c : Cmd) (s : State), Accepted c (lanePlanSpec c) s → s.faults.toWrite = [] → planOk (if c.expert then planEntries c else defaultPlan) = true →
    ∃ r, Answers (.lanePlanSet c) c s [r] [] { takeEntry c s with
      flash := { s.flash with plan := if c.expert then planEntries c else defaultPlan } })

/-- The watchdog holds the Parser: PARSER_FAULT is set, the stages of a running job halt, what ran is gone, and no command
is taken any more. A sensor at its trip threshold sets THERMAL_TRIP and THERMAL_SEEN, gates the clocks and halts a
running job; one at its warning threshold drives THERM_L low; below them neither is set. THERM_L is released when
every sensor is 5 °C below its warning threshold; the trip ends when every sensor is below its clear threshold, and
THERMAL_SEEN stays. Parking gates the clocks of a module in FULL with no job (R418, R433, R436 to R440). -/
def Obligations.WatchdogAndThermal : Prop :=
  let still (s : State) : Prop := s.jobRuns = true → ∀ k, (s.eng k).dmaQ = []
  (∀ s : State, 2 ≤ s.chip.bringup → s.chip.parserHeld = false →
     ∃ t, exec .parserWatchdogExpiry s = .next t ∧ t.chip.parserHeld = true ∧ t.chip.parserFault = true ∧ t.running = [] ∧
       (still s → t.mem = s.mem) ∧ (∀ c control, canTake t c control = false) ∧
       (s.jobRuns = true → s.chip.fencing = false → ∀ v ∈ s.loadedStages, (t.stage v).haltCode ≠ 0)) ∧
  (∀ (s : State),
     (∀ dies hbms, dies.length = 6 → hbms.length = 12 → s.chip.held = false → 1 ≤ s.chip.bringup →
       let rs := (dieSensors ++ stackSensors).zip (dies ++ hbms)
       let live := rs.filter fun x => !s.chip.lost.getLsbD (x.1 / 8192)
       let hot (at' : Nat → Int) : Prop := ∃ x ∈ live, at' x.1 ≤ x.2.toInt
       ∃ t, exec (.thermalSensorScan dies hbms) s = .next t ∧ (still s → t.mem = s.mem) ∧ t.chip.bringup = s.chip.bringup ∧
         (t.chip.thermL = true ↔ s.chip.thermL = true ∨ hot warnAt) ∧
         (t.chip.thermalTrip = true ↔ s.chip.thermalTrip = true ∨ hot tripAt) ∧
         (∀ x ∈ rs, sget 0 t.chip.sensors x.1 = x.2) ∧
         (s.chip.thermalTrip = false → hot tripAt → t.chip.thermalSeen = true ∧ t.chip.clocksGated = true ∧
           t.chip.selfRefresh = true ∧
           (s.jobRuns = true → s.chip.fencing = false → ∀ v ∈ s.loadedStages, (t.stage v).haltCode ≠ 0))) ∧
     (let cool := ∀ u ∈ s.sensorUnits, s.reading u ≤ warnAt u - 20
      (cool → exec .thermLRelease s = .next { s with chip := { s.chip with thermL := false } }) ∧
      (¬cool → exec .thermLRelease s = .next s)) ∧
     (let cold := ∀ u ∈ s.sensorUnits, s.reading u < clearAt u
      (s.chip.thermalTrip = true → cold → ∃ t, exec .thermalClear s = .next t ∧ t.mem = s.mem ∧
        t.chip = { s.chip with thermalTrip := false, hottest := none, clocksGated := s.chip.parked
                               selfRefresh := s.chip.parked }) ∧
      (¬cold → exec .thermalClear s = .next s)) ∧
     (s.mayPark = true → ∃ t, exec .park s = .next t ∧
       t.chip = { s.chip with parked := true, clocksGated := true, selfRefresh := true } ∧ t.mem = s.mem) ∧
     (s.mayPark = false → exec .park s = .next s))

/-- An I3C address is assigned once; a message goes to the controller in packets of at most 64 bytes, each with an
in-band interrupt; an MCTP type that is not listed is dropped and counted; every MCTP control, PLDM base and PDR request
is answered, the repository ending in SLOT_ID (log 137) and recovery firmware refusing it; an event that its receiver
accepts leaves the queue, one that it does not accept is sent again up to eight times; a datagram carries the oldest
eleven records; an ARP request for the module's own address is answered; none of them touches memory, a stage or the
flash (R388 to R391, R393, R401, R426). A command of a management mailbox that cannot be taken yet waits, and beyond 16
outstanding it completes with ST_RING (R392). On the management and guest mailboxes a command that the mailbox does not
list is denied and changes nothing but its completion, and DEV_INFO answers as on a host mailbox (R331, R366, R392). The
numeric forms of the answers and the limit of eight sends on a record are the model's (logs 92 and 93). -/
def Obligations.Management : Prop :=
  (∀ (bs : List Byte) (s : State), ∃ ps : List (List Byte), ps.flatten = bs ∧ (∀ x ∈ ps, x ≠ [] ∧ x.length ≤ 64) ∧
     mctpMessage bs s = { s with sent := ((List.range ps.length).flatMap fun i =>
       [Sent.inBandInterrupt, .mctp (i == 0) (i + 1 == ps.length) (i % 4) (ps.getD i [])]).reverse ++ s.sent }) ∧
  (∀ (s : State),
     let only (t : State) : Prop := t = { s with mgmt := t.mgmt, sent := t.sent }
     (∀ entdaa static addr, s.mgmtOn = true → s.mgmt.i3cAddr = none →
       (entdaa = true ∨ static.toNat = 0x30 + s.chip.slotId.toNat) →
       exec (.i3cAddressAssignment entdaa static addr) s = .next { s with mgmt := { s.mgmt with i3cAddr := some addr } }) ∧
     (∀ entdaa static addr, s.mgmt.i3cAddr ≠ none → exec (.i3cAddressAssignment entdaa static addr) s = .next s) ∧
     (∀ type : Byte, s.mctpOn = true → exec (.mctpMessageDrop type) s = .next
       (if type = 0 ∨ type = 1 ∨ type = 5 ∨ type = 0x7E then s
        else { s with mgmt := { s.mgmt with mctpDrops := satInc s.mgmt.mctpDrops } })) ∧
     (∀ code data, s.mctpOn = true →
       ∃ t, exec (.mctpControlMessage code data) s = .next t ∧ only t ∧ t.mgmt.eid = (mctpControl code data s.mgmt.eid).2 ∧
         (mctpMessage (0 :: code :: (mctpControl code data s.mgmt.eid).1) s).sent <:+ t.sent) ∧
     (∀ e : Byte, s.mctpOn = true → e ≠ 0 → e ≠ 0xFF →
       ∃ t, exec (.mctpControlMessage 1 [0, e]) s = .next t ∧ t.mgmt.eid = e) ∧
     (∀ code data, s.mctpOn = true →
       let x := pldmBase (if s.chip.fwSlot = 2 then [0, 5] else [0, 2, 5]) code data s.mgmt.tid
       exec (.pldmBaseRequest code data) s =
         .next (mctpMessage ([1, 0, code] ++ x.1) { s with mgmt := { s.mgmt with tid := x.2 } })) ∧
     (s.mctpOn = true → exec .getPdr s = .next (mctpMessage
       ([1, 2, 0x51] ++ if s.chip.fwSlot = 2 then [0x20] else 0 :: s.pdrRepository) s)) ∧
     s.pdrRepository.getLast? = some (s.chip.slotId.setWidth 8) ∧
     (∀ r n rest, s.mctpOn = true → s.mgmt.plq = (r, n) :: rest → n ≠ 0 →
       (∃ t, exec (.platformEventResponse true) s = .next t ∧ only t ∧ t.mgmt.plq.map (·.1) = rest.map (·.1)) ∧
       ∀ i, (i = Instr.platformEventResponse false ∨ i = Instr.platformEventResendTimeout) →
         (n < 8 → exec i s = .next (mctpMessage ([1, 2, 0x0A, 0xF0] ++ r)
           { s with mgmt := { s.mgmt with plq := (r, n + 1) :: rest } })) ∧
         (8 ≤ n → ∃ t, exec i s = .next t ∧ only t ∧ t.mgmt.plq.map (·.1) = rest.map (·.1))) ∧
     (s.netOn = true → ∃ head, exec .eventStreamDatagram s = .next { s with
         mgmt := { s.mgmt with streamQ := s.mgmt.streamQ.drop 11, streamSeq := s.mgmt.streamSeq + 1 }
         sent := streamDatagram s (head ++ (s.mgmt.streamQ.take 11).flatten) :: s.sent } ∧ head.length = 16) ∧
     (∀ target sender mac, s.netOn = true →
       (target.toNat = leNat (s.netField 8 4) → ∃ bs, exec (.arpRequest target sender mac) s =
         .next { s with sent := .ethernet bs :: s.sent } ∧ bs.length = 42 ∧ bs.take 6 = fit 6 mac ∧
           (bs.drop 28).take 4 = (leBytes 4 target.toNat).reverse) ∧
       (target.toNat ≠ leNat (s.netField 8 4) → exec (.arpRequest target sender mac) s = .next s))) ∧
  ((∀ (c : Cmd) (m : Fin 2) (s : State), c.mb = .mgmt m → s.mctpOn = true →
     let n := (s.running.filter fun r => r.mb == c.mb).length + (s.waitingOn c.mb).length
     let s1 := { s with mgmt := { s.mgmt with waiting := s.mgmt.waiting ++ [c] } }
     (16 ≤ n → exec (.managementMailboxMessage c) s =
       .next (complete c.mb c.opcode c.id c.respAddr stRing (Refuse.result { status := stRing }) [] s)) ∧
     (n < 16 → (∀ d ∈ s1.mgmt.waiting, canTake s1 d (testOpcodes.contains d.opcode) = false) →
       exec (.managementMailboxMessage c) s = .next s1)) ∧
   (∀ (c : Cmd) (m : Fin 2) (s : State), c.mb = .mgmt m → s.mctpOn = true → s.mgmt.waiting = [] →
     canTake s c false = true →
     (allOpcodes.contains c.opcode = true → mgmtOpcodes.contains c.opcode = false →
       exec (.managementMailboxMessage c) s =
         .next (complete c.mb c.opcode c.id c.respAddr stDenied (Refuse.result { status := stDenied }) [] s)) ∧
     (c.opcode = 1 → commonCheck s c (devInfoSpec c) = none →
       exec (.managementMailboxMessage c) s = .next (complete c.mb 1 c.id c.respAddr stOk []
         (devRecord s ++ if c.expert then (List.range 8).flatMap (portRecord s) else []) s))) ∧
   (∀ (p : Fin 2) (m : AppMsg) (s : State),
     let a := s.ap p.val
     let h := m.header
     let s1 := s.updAp p.val fun a => { a with rxSeq := a.rxSeq + 1, sinceAck := a.sinceAck + 1, rxFails := 0 }
     let c : Cmd := ⟨.guest p (if aMbox h = 1 then 1 else 0), BitVec.ofNat 512 (leNat m.data), [], false⟩
     a.state = 3 → aClass h = 5 → appoCrc h m.data = aCrc h → aSeq h = a.rxSeq → aBad m = false → a.sinceAck + 1 < 64 →
     (s.fw p.val).ctrl.getLsbD 0 = true → (s.fw p.val).cls.getLsbD 2 = true → canTake s1 c false = true →
     (s.ap 0).waiting = [] → (s.ap 1).waiting = [] → allOpcodes.contains c.opcode = true →
     (([0x01, 0x42, 0x54, 0x60, 0x61].contains c.opcode = false ∨ c.expert = true) →
       exec (.appositionMailbox p m) s = .next
         (complete c.mb c.opcode c.id c.respAddr stDenied (Refuse.result { status := stDenied }) [] s1)) ∧
     (c.opcode = 1 → c.expert = false → commonCheck s1 c (devInfoSpec c) = none →
       exec (.appositionMailbox p m) s = .next (complete c.mb 1 c.id c.respAddr stOk [] (devRecord s1) s1))))

/-- Whatever is transferred, the running slot and the ACTIVE slot keep their bytes, and the fused SVN stays; a transfer
into the other slot lands at its offset; verification is that of the boot; an activated image is ACTIVE and on trial, its
boot record being written, an activated network record is in flash, with its defaults where nothing was transferred, and
takes effect at the next PARSER entry (R394, R401 to R403, R417). The numeric forms of the answers are the model's (log
92). -/
def Obligations.FirmwareUpdate : Prop :=
  ∀ (s : State), s.mctpOn = true →
    let answer (code result : Byte) : List Sent := [.mctp true true 0 [1, 5, code, result], .inBandInterrupt]
    (s.mgmt.update = none → exec .requestUpdate s = .next { s with
      mgmt := { s.mgmt with update := some ⟨0, !s.flash.activeB, [], 0, false⟩ }, sent := answer 0x10 0 ++ s.sent }) ∧
    (s.mgmt.update ≠ none → exec .requestUpdate s = .next { s with sent := answer 0x10 0x81 ++ s.sent }) ∧
    (∀ (component : W16) (off : Nat) (data : List Byte),
      ∃ t, exec (.firmwareDataTransfer component off data) s = .next t ∧ t.flash.activeB = s.flash.activeB ∧
        t.flash.svn = s.flash.svn ∧ t.flash.recovery = s.flash.recovery ∧ t.mem = s.mem ∧
        t.flash.slot s.flash.active = s.flash.slot s.flash.active ∧
        (s.chip.fwSlot ≤ 2 → t.flash.slot s.chip.fwSlot = s.flash.slot s.chip.fwSlot) ∧
        ∀ u, s.mgmt.update = some u → component = 1 → off + data.length ≤ 24 * 2 ^ 20 →
          s.chip.fwSlot ≠ (if u.slotB then 1 else 0) → s.flash.activeB ≠ u.slotB →
          answer 0x15 0 <+: t.sent ∧
            t.flash.slot (if u.slotB then 1 else 0) = patchBytes (s.flash.slot (if u.slotB then 1 else 0)) off data ∧
            ∃ v, t.mgmt.update = some v ∧ v.verified = false ∧ v.component = 1 ∧ v.slotB = u.slotB) ∧
    (∀ u, s.mgmt.update = some u → u.component = 1 ∨ u.component = 2 →
      let bad := u.component = 1 ∧ s.flash.verifies (if u.slotB then 1 else 0) = false
      ∃ t, exec .verifyComplete s = .next t ∧ t.flash = s.flash ∧ t.mgmt.update =
        some (if bad then u else { u with verified := true }) ∧ answer 0x17 (if bad then 1 else 0) <+: t.sent) ∧
    (∀ u (component : W16), s.mgmt.update = some u → u.verified = true → u.component = component.toNat →
      ∃ t, exec (.activateFirmware component) s = .next t ∧ t.mgmt.update = none ∧ t.flash.svn = s.flash.svn ∧
        answer 0x1A 0 <+: t.sent ∧
        (u.component = 1 → t.flash = { s.flash with activeB := u.slotB, trial := true, trialBooted := false } ∧
          t.chip.bootWriting = true) ∧
        (u.component = 2 → t.flash = { s.flash with net := netRecord u } ∧ t.mgmt.net = s.mgmt.net ∧
          (u.size ≤ 24 → ((netRecord u).drop 24).take 4 = leBytes 2 47321 ++ leBytes 2 47321))) ∧
    (∀ u (component : W16), s.mgmt.update = some u → (u.verified = false ∨ u.component ≠ component.toNat) →
      exec (.activateFirmware component) s = .next { s with sent := answer 0x1A 0x85 ++ s.sent })

/-- SPDM on either transport: a request before its turn is answered with ERROR UnexpectedRequest and changes nothing;
GET_VERSION starts the connection anew, GET_CAPABILITIES and NEGOTIATE_ALGORITHMS carry it on, and only RSAPSS-3072
with SHA-256 completes it; digests, certificates, challenges and measurements are then answered, with slot 0 alone
signing, over the messages of the connection; the other transport is not touched (R356, R395 to R397). The numeric forms
are those of the published standards (log 92), and a nonce and a salt are free values (log 3). -/
def Obligations.SpdmAndDoe : Prop :=
  ∀ (doe : Bool) (s : State), s.spdmOn doe = true →
    let c := s.spdm doe
    let with' (d : Spdm) : State := s.updSpdm doe fun _ => d
    let tells (i : Instr) (bs : List Byte) : Prop := exec i s = .next (spdmSend doe bs s)
    let early := [0x12, 0x7F, 0x04, 0]
    let n := (List.range 32).map fun i => Config.freeByte (s.freeCount + i)
    let signed (context : String) (past bs : List Byte) : List Byte :=
      bs ++ rsaSign 0 (spdmSigned context (past ++ bs)) { s with freeCount := s.freeCount + 32 }
    (∀ d, (with' d).spdm doe = d ∧ (with' d).spdm (!doe) = s.spdm (!doe)) ∧
    (∃ bs, exec (.getVersion doe) s = .next (spdmSend doe bs (with' { version := true, vca := [0x10, 0x84, 0, 0] ++ bs }))) ∧
    (∀ caps, if c.version then ∃ ask bs, exec (.getCapabilities doe caps) s =
          .next (spdmSend doe bs (with' { c with caps := true, vca := c.vca ++ ask ++ bs }))
      else tells (.getCapabilities doe caps) early) ∧
    (∀ sig hash : W32, if c.caps then ∃ ask bs, exec (.negotiateAlgorithms doe sig hash) s =
          .next (spdmSend doe bs (with' { c with algs := sig.getLsbD 3 && hash.getLsbD 0, vca := c.vca ++ ask ++ bs }))
      else tells (.negotiateAlgorithms doe sig hash) early) ∧
    (if c.algs then
        let r := [0x12, 1, 0, 3] ++ sha256 (Config.certificate 0) ++ sha256 (Config.certificate 1)
        exec (.getDigests doe) s = .next (spdmSend doe r
          (with' { c with certs := c.certs ++ ([0x12, 0x81, 0, 0] ++ r), measured := [] }))
      else tells (.getDigests doe) early) ∧
    (∀ (slot : Fin 8) (off len : W16), if c.algs then
        let x := Config.certificate slot.val
        let part := (x.drop off.toNat).take len.toNat
        (2 ≤ slot.val ∨ x.length ≤ off.toNat → tells (.getCertificate doe slot off len) [0x12, 0x7F, 1, 0]) ∧
        (slot.val < 2 → off.toNat < x.length → ∃ certs, exec (.getCertificate doe slot off len) s = .next (spdmSend doe
          ([0x12, 2, BitVec.ofNat 8 slot.val, 0] ++ leBytes 2 part.length ++
            leBytes 2 (x.length - off.toNat - part.length) ++ part) (with' { c with certs := c.certs ++ certs, measured := [] })))
      else tells (.getCertificate doe slot off len) early) ∧
    (∀ (slot : Fin 8) (nonce : List Byte), if c.algs then
        (slot.val ≠ 0 → tells (.challenge doe slot nonce) [0x12, 0x7F, 1, 0]) ∧
        (slot.val = 0 → exec (.challenge doe slot nonce) s = .next (spdmSend doe
          (signed "responder-challenge_auth signing" (c.vca ++ c.certs ++ [0x12, 0x83, 0, 0] ++ fit 32 nonce)
            ([0x12, 3, 0, 3] ++ sha256 (Config.certificate 0) ++ n ++ [0, 0]))
          { with' { c with certs := [], measured := [] } with freeCount := s.freeCount + 64 }))
      else tells (.challenge doe slot nonce) early) ∧
    (∀ (index : Byte) (slot : Fin 8) (nonce : List Byte), if c.algs then
        let i := index.toNat
        let bad := 8 < i ∧ i ≠ 0xFF ∨ nonce ≠ [] ∧ slot.val ≠ 0
        let rec' := (if i = 0 then [] else if i = 0xFF then [1, 2, 3, 4, 5, 6, 7, 8] else [i]).flatMap (measurementBlock s)
        (bad → tells (.getMeasurements doe index slot nonce) [0x12, 0x7F, 1, 0]) ∧
        (¬bad → ∃ k, let bs := [0x12, 0x60, if i = 0 then 8 else 0, 0, k] ++ leBytes 3 rec'.length ++ rec' ++ n ++ [0, 0]
          (nonce = [] → exec (.getMeasurements doe index slot nonce) s = .next (spdmSend doe bs
            { with' { c with measured := c.measured ++ ([0x12, 0xE0, 0, index] ++ bs) } with freeCount := s.freeCount + 32 })) ∧
          (nonce ≠ [] → exec (.getMeasurements doe index slot nonce) s = .next (spdmSend doe
            (signed "responder-measurements signing" (c.vca ++ c.measured ++ [0x12, 0xE0, 1, index] ++ fit 32 nonce ++ [0]) bs)
            { with' { c with measured := [] } with freeCount := s.freeCount + 64 })))
      else tells (.getMeasurements doe index slot nonce) early) ∧
    (∀ code, tells (.spdmUnsupportedRequest doe code) [0x12, 0x7F, 7, code]) ∧
    (doe = true → ∀ index : Byte, tells (.doeDiscovery index)
      (if index = 0 then [1, 0, 0, 1] else if index = 1 then [1, 0, 1, 0] else [0xFF, 0xFF, 0, 0]))

/-- One step runs the command at the front of the queue on the state with the queue's rest; on an empty queue the block
lets one microsecond pass (the model's choice, log 5); no word spells a command, since no row of the operation table
gives bits (log 1). -/
def Obligations.StepRunsTheFront : Prop :=
  (∀ (c : Instr) (s : State), step { s with pending := c :: s.pending } = exec c s) ∧
  (∀ s : State, s.pending = [] → step s = .next (tick s)) ∧
  (∀ (s : State) (nbits w : Nat), decodeTableWord nbits w = none ∧ s.withFetchWord nbits w = s)

/-- Right after reset the block is in RESET with no service and no job, every memory reads as zeros, the ports are DOWN,
nothing runs and nothing waits, and the invariant holds (R38, R333, R406, R415). The zeros of memory before bring-up
and of the engines' registers are the model's choice (log 2). -/
def Obligations.ResetState : Prop :=
  let s := State.reset
  Inv s ∧ s.chip.bringup = 0 ∧ s.chip.service = 0 ∧ s.job.state = 0 ∧ s.pending = [] ∧ s.running = [] ∧
    s.chip.uptime = 0 ∧ (∀ a, memRead s.mem a = 0) ∧
    (∀ p, (s.port p).state = 0 ∧ (s.port p).role = 0) ∧ (∀ v, (s.stage v).loaded = false) ∧
    (∀ k i, (s.eng k).rs i = 0 ∧ (s.eng k).rv i = 0 ∧ (s.eng k).vflags = 0 ∧ (s.eng k).aflags = 0) ∧
    (∀ m, (s.mailbox m).enabled = false) ∧ (∀ p, (s.fw p).ctrl = 0) ∧ s.host.bar2En = false ∧
    s.chip.thermalTrip = false ∧ s.chip.fenceDone = false

/-- Whatever the block is told, it goes on: every command, in every state, is answered with a next state, a command whose
turn has not come among them, and so is every step. A step keeps the invariant (the memories in their one form,
BRINGUP.STATE and the job state at codes of their tables, SERVICE as they give it), never lowers the fused SVN (R401), and
leaves the commands behind the front one waiting. -/
def Obligations.StepKeepsTheInvariant : Prop :=
  (∀ (c : Instr) (s : State), ∃ t, exec c s = .next t) ∧
  ∀ s : State, (∃ t, step s = .next t) ∧
    ∀ t, Inv s → step s = .next t → Inv t ∧ s.flash.svn ≤ t.flash.svn ∧ t.pending = s.pending.tail

/-- CLIP_DECODE of a clip whose object has been read: a clip that demultiplexes and decodes with no reason to drop it
fills the lowest free slot, its tokens and audio, which are a function of the parameters, the descriptor, the cached
random-access point and the object's bytes alone, in the reservoir and no other byte of memory changed; one that does
not demultiplex is a drop with reason CONTAINER and leaves its context FAILED; a reason that the decode gives is the
slot's; a clip whose Reads have failed is a drop with reason READ (R276, R278, R280 to R288, R293). -/
def Obligations.ClipDecoding : Prop :=
  ∀ (place : Nat) (desc : BitVec 256) (object : List Byte) (read k : Nat) (s : State),
    let g := s.ingest
    let p := g.params
    let e := (g.at' place).1
    let clip := g.clipOf e (g.at' place).2
    let d := s.descOf clip desc
    let s1 := claimContext place d s
    s.ingestUp = true → g.awaitPosition = false → s.job.state ≠ 0 → s.localOf place = some k → g.placed ≤ k →
    k * p.c + place % p.c < g.placed * p.c + p.w → g.ended place = false → g.slots.length < p.w →
    (∀ x ∈ g.slots, x.place ≠ place) → g.offline = [] → s.offloadWaits = false → d.getLsbD 0 = true → descBad d = false →
    (g.ns (bits d.toNat 31 27)).isSome = true →
    ∀ y, (s1.ingest.pins.find? fun x => x.1 == place) = some y →
      (g.failedReads.contains place = true → ∃ t, exec (.clipDecode place desc ⟨object, read⟩) s = .next t ∧
        t.ingest.slots = g.slots ++ [⟨g.freeSlot, place, clip, 2, 0, 0x3F800000⟩] ∧ t.mem = s.mem) ∧
      (g.failedReads.contains place = false → demux d (s.objectOf d object) = none →
        ∃ t, exec (.clipDecode place desc ⟨object, read⟩) s = .next t ∧
          t.ingest.slots = g.slots ++ [⟨g.freeSlot, place, clip, 8, 0, 0x3F800000⟩] ∧ t.mem = s.mem ∧
          ctxState (sget 0 t.ingest.contexts y.2) = 3) ∧
      (∀ m, g.failedReads.contains place = false → demux d (s.objectOf d object) = some m →
        p.reservoir + (g.freeSlot + 1) * p.clipBytes ≤ 2 ^ 47 →
        let r := decodeStream p d (cachedRap (sget 0 s1.ingest.contexts y.2)) m
        let x := resizedClip p r.pictures
        let tok := tokenData p.fp8 (patchValues g e clip x.1 x.2.1 x.2.2)
        let audio := fit (p.samples * p.audioChannels * 2) (clipAudio p p.samples (bits d.toNat 159 127) m).1
        let a := p.reservoir + g.freeSlot * p.clipBytes
        ∃ t, exec (.clipDecode place desc ⟨object, read⟩) s = .next t ∧
          t.ingest.slots = g.slots ++ [if r.reason = 0 then ⟨g.freeSlot, place, clip, 0, r.concealed, tok.2⟩
            else ⟨g.freeSlot, place, clip, r.reason, 0, 0x3F800000⟩] ∧
          ∀ b, memRead t.mem b = if r.reason = 0 ∧ a ≤ b ∧ b < a + p.clipBytes
            then (fit p.clipBytes (tok.1 ++ audio)).getD (b - a) 0 else memRead s.mem b)
end

