-- ==== Sys2Proof/Laws/Store.lean ====
section
/-!
SUPPORT. Sys2Proof/Laws/Store.lean: the laws of sparse maps and of byte memory: a read after a write, and that every
operation keeps the canonical form.
-/
namespace Sys2Proof.Machine

variable {α : Type}

theorem sget_sdrop (d : α) (k j : Nat) (m : Store α) :
    sget d (sdrop k m) j = if j = k then d else sget d m j := by
  induction m with
  | nil => simp [sdrop, sget]
  | cons x t ih =>
    obtain ⟨a, v⟩ := x
    simp only [sdrop, List.filter_cons] at ih ⊢
    by_cases ha : a = k
    · subst ha
      simp only [bne_self_eq_false, Bool.false_eq_true, if_false, ih, sget]
      by_cases hj : j = a <;> simp [hj]
    · simp only [bne_iff_ne, ne_eq, ha, not_false_eq_true, if_true, sget, ih]
      by_cases hj : j = a
      · subst hj; simp [ha]
      · simp [hj]

theorem sget_sput (d : α) (k j : Nat) (v : α) (m : Store α) :
    (∀ x ∈ m, x.1 ≠ k) → sget d (sput k v m) j = if j = k then v else sget d m j := by
  intro hk
  induction m with
  | nil => simp [sput, sget]
  | cons x t ih =>
    obtain ⟨a, w⟩ := x
    have ha : a ≠ k := hk (a, w) (by simp)
    have ht : ∀ x ∈ t, x.1 ≠ k := fun x hx => hk x (by simp [hx])
    simp only [sput]
    split
    · simp [sget]
    · simp only [sget, ih ht]
      by_cases hj : j = a
      · subst hj; simp [ha]
      · simp [hj]

theorem sdrop_ne (k : Nat) (m : Store α) : ∀ x ∈ sdrop k m, x.1 ≠ k := by
  intro x hx
  simpa [sdrop] using (List.mem_filter.mp hx).2

/-- A read after a write. -/
theorem sget_sset [DecidableEq α] (d : α) (k j : Nat) (v : α) (m : Store α) :
    sget d (sset d k v m) j = if j = k then v else sget d m j := by
  unfold sset
  split
  · next h => subst h; exact sget_sdrop v k j m
  · rw [sget_sput d k j v _ (sdrop_ne k m), sget_sdrop]
    by_cases hj : j = k <;> simp [hj]

@[simp] theorem sget_sset_self [DecidableEq α] (d : α) (k : Nat) (v : α) (m : Store α) :
    sget d (sset d k v m) k = v := by simp [sget_sset]

theorem sget_sset_of_ne [DecidableEq α] (d : α) {k j : Nat} (v : α) (m : Store α) (h : j ≠ k) :
    sget d (sset d k v m) j = sget d m j := by simp [sget_sset, h]

theorem sget_supd [DecidableEq α] (d : α) (k j : Nat) (f : α → α) (m : Store α) :
    sget d (supd d k f m) j = if j = k then f (sget d m k) else sget d m j := sget_sset d k j _ m

theorem skeysAbove_iff (b : Nat) (m : Store α) : skeysAbove b m = true ↔ ∀ x ∈ m, b < x.1 := by
  induction m with
  | nil => simp [skeysAbove]
  | cons x t ih => simp [skeysAbove, ih]

theorem swf_filter [DecidableEq α] (d : α) (p : Nat × α → Bool) (m : Store α) (h : swf d m = true) :
    swf d (m.filter p) = true := by
  induction m with
  | nil => simp [swf]
  | cons x t ih =>
    obtain ⟨a, v⟩ := x
    simp only [swf, Bool.and_eq_true, decide_eq_true_eq] at h
    simp only [List.filter_cons]
    split
    · simp only [swf, Bool.and_eq_true, decide_eq_true_eq]
      refine ⟨⟨h.1.1, ?_⟩, ih h.2⟩
      rw [skeysAbove_iff]
      intro y hy
      exact (skeysAbove_iff a t).mp h.1.2 y (List.mem_filter.mp hy).1
    · exact ih h.2

theorem swf_sput [DecidableEq α] (d : α) (k : Nat) (v : α) (m : Store α) (hv : v ≠ d) (hk : ∀ x ∈ m, x.1 ≠ k)
    (h : swf d m = true) : swf d (sput k v m) = true := by
  induction m with
  | nil => simp [sput, swf, skeysAbove, hv]
  | cons x t ih =>
    obtain ⟨a, w⟩ := x
    have hh := h
    simp only [swf, Bool.and_eq_true, decide_eq_true_eq] at h
    simp only [sput]
    split
    · next hka =>
      simp only [swf, Bool.and_eq_true, decide_eq_true_eq]
      refine ⟨⟨hv, ?_⟩, h⟩
      simp only [skeysAbove, Bool.and_eq_true, decide_eq_true_eq]
      refine ⟨hka, (skeysAbove_iff k t).mpr fun y hy => ?_⟩
      exact Nat.lt_trans hka ((skeysAbove_iff a t).mp h.1.2 y hy)
    · next hka =>

      have ha : a ≠ k := hk (a, w) (by simp)
      have ht : ∀ x ∈ t, x.1 ≠ k := fun x hx => hk x (by simp [hx])
      simp only [swf, Bool.and_eq_true, decide_eq_true_eq]
      refine ⟨⟨h.1.1, ?_⟩, ih ht h.2⟩
      rw [skeysAbove_iff]
      have hm : ∀ y ∈ sput k v t, y = (k, v) ∨ y ∈ t := by
        clear ih hh h hk ht
        intro y
        induction t with
        | nil => simp [sput]
        | cons z t ih =>
          simp only [sput]
          split
          · simp
          · intro hy
            rcases List.mem_cons.mp hy with rfl | hy
            · simp
            · rcases ih hy with h | h <;> simp [h]
      intro y hy
      rcases hm y hy with rfl | hy
      · simp only; omega
      · exact (skeysAbove_iff a t).mp h.1.2 y hy

/-- A write keeps the canonical form. -/
theorem swf_sset [DecidableEq α] (d : α) (k : Nat) (v : α) (m : Store α) (h : swf d m = true) :
    swf d (sset d k v m) = true := by
  unfold sset
  split
  · exact swf_filter d _ m h
  · next hv => exact swf_sput d k v _ hv (sdrop_ne k m) (swf_filter d _ m h)

/-! ### Byte memory -/

/-- A byte read after a byte written. -/
theorem memRead_memWrite (m : Memory) (a b : Nat) (x : Byte) :
    memRead (memWrite m a x) b = if b = a then x else memRead m b := sget_sset 0 a b x m

theorem wf_memWrite (m : Memory) (a : Nat) (x : Byte) (h : Memory.wf m = true) : Memory.wf (memWrite m a x) = true :=
  swf_sset 0 a x m h

theorem wf_memWriteBytes (bs : List Byte) : ∀ (m : Memory) (a : Nat), Memory.wf m = true →
    Memory.wf (memWriteBytes m a bs) = true := by
  induction bs with
  | nil => intro m a h; exact h
  | cons b t ih => intro m a h; exact ih _ _ (wf_memWrite m a b h)

theorem wf_memPutNat (m : Memory) (a n x : Nat) (h : Memory.wf m = true) : Memory.wf (memPutNat m a n x) = true :=
  wf_memWriteBytes _ m a h

/-- Bytes outside a run that is written read as before. -/
theorem memRead_memWriteBytes_of_out (bs : List Byte) : ∀ (m : Memory) (a b : Nat), (b < a ∨ a + bs.length ≤ b) →
    memRead (memWriteBytes m a bs) b = memRead m b := by
  induction bs with
  | nil => intro m a b _; rfl
  | cons x t ih =>
    intro m a b h
    simp only [List.length_cons] at h
    rw [memWriteBytes, ih _ _ _ (by omega), memRead_memWrite, if_neg (by omega)]

/-- A byte inside a run reads as the byte written there. -/
theorem memRead_memWriteBytes_of_in (bs : List Byte) : ∀ (m : Memory) (a i : Nat) (h : i < bs.length),
    memRead (memWriteBytes m a bs) (a + i) = bs[i] := by
  induction bs with
  | nil => intro m a i h; simp at h
  | cons x t ih =>
    intro m a i h
    cases i with
    | zero =>
      rw [memWriteBytes, memRead_memWriteBytes_of_out _ _ _ _ (Or.inl (by omega)), memRead_memWrite]
      simp
    | succ i =>
      have := ih (memWrite m a x) (a + 1) i (by simpa using h)
      rw [memWriteBytes, show a + (i + 1) = a + 1 + i by omega, this]
      simp

theorem memBytes_length (m : Memory) (n : Nat) : ∀ a, (memBytes m a n).length = n := by
  induction n with
  | zero => intro a; rfl
  | succ n ih => intro a; simp [memBytes, ih]

theorem leBytes_length (n : Nat) : ∀ x, (leBytes n x).length = n := by
  induction n with
  | zero => intro x; rfl
  | succ n ih => intro x; simp [leBytes, ih]

end Sys2Proof.Machine
end

