-- ==== Sys2Proof/Laws/State.lean ====
section
/-!
SUPPORT. Sys2Proof/Laws/State.lean: what each update of the state leaves and what it writes, one lemma for each field, and
how the parts of the state read after an update.
-/
namespace Sys2Proof.Machine

/-! ### updEng -/

@[simp] theorem State.updEng_pending (s : State) (k : Nat) (f : EngineState → EngineState) :
    (s.updEng k f).pending = s.pending := rfl
@[simp] theorem State.updEng_freeCount (s : State) (k : Nat) (f : EngineState → EngineState) :
    (s.updEng k f).freeCount = s.freeCount := rfl
@[simp] theorem State.updEng_chip (s : State) (k : Nat) (f : EngineState → EngineState) :
    (s.updEng k f).chip = s.chip := rfl
@[simp] theorem State.updEng_mem (s : State) (k : Nat) (f : EngineState → EngineState) :
    (s.updEng k f).mem = s.mem := rfl
@[simp] theorem State.updEng_badWords (s : State) (k : Nat) (f : EngineState → EngineState) :
    (s.updEng k f).badWords = s.badWords := rfl
@[simp] theorem State.updEng_hostMem (s : State) (k : Nat) (f : EngineState → EngineState) :
    (s.updEng k f).hostMem = s.hostMem := rfl
@[simp] theorem State.updEng_stages (s : State) (k : Nat) (f : EngineState → EngineState) :
    (s.updEng k f).stages = s.stages := rfl
@[simp] theorem State.updEng_job (s : State) (k : Nat) (f : EngineState → EngineState) :
    (s.updEng k f).job = s.job := rfl
@[simp] theorem State.updEng_host (s : State) (k : Nat) (f : EngineState → EngineState) :
    (s.updEng k f).host = s.host := rfl
@[simp] theorem State.updEng_ports (s : State) (k : Nat) (f : EngineState → EngineState) :
    (s.updEng k f).ports = s.ports := rfl
@[simp] theorem State.updEng_routes (s : State) (k : Nat) (f : EngineState → EngineState) :
    (s.updEng k f).routes = s.routes := rfl
@[simp] theorem State.updEng_transit (s : State) (k : Nat) (f : EngineState → EngineState) :
    (s.updEng k f).transit = s.transit := rfl
@[simp] theorem State.updEng_phrases (s : State) (k : Nat) (f : EngineState → EngineState) :
    (s.updEng k f).phrases = s.phrases := rfl
@[simp] theorem State.updEng_channels (s : State) (k : Nat) (f : EngineState → EngineState) :
    (s.updEng k f).channels = s.channels := rfl
@[simp] theorem State.updEng_inFlight (s : State) (k : Nat) (f : EngineState → EngineState) :
    (s.updEng k f).inFlight = s.inFlight := rfl
@[simp] theorem State.updEng_appo (s : State) (k : Nat) (f : EngineState → EngineState) :
    (s.updEng k f).appo = s.appo := rfl
@[simp] theorem State.updEng_ingest (s : State) (k : Nat) (f : EngineState → EngineState) :
    (s.updEng k f).ingest = s.ingest := rfl
@[simp] theorem State.updEng_faults (s : State) (k : Nat) (f : EngineState → EngineState) :
    (s.updEng k f).faults = s.faults := rfl
@[simp] theorem State.updEng_flash (s : State) (k : Nat) (f : EngineState → EngineState) :
    (s.updEng k f).flash = s.flash := rfl
@[simp] theorem State.updEng_mgmt (s : State) (k : Nat) (f : EngineState → EngineState) :
    (s.updEng k f).mgmt = s.mgmt := rfl
@[simp] theorem State.updEng_evSeq (s : State) (k : Nat) (f : EngineState → EngineState) :
    (s.updEng k f).evSeq = s.evSeq := rfl
@[simp] theorem State.updEng_running (s : State) (k : Nat) (f : EngineState → EngineState) :
    (s.updEng k f).running = s.running := rfl
@[simp] theorem State.updEng_sent (s : State) (k : Nat) (f : EngineState → EngineState) :
    (s.updEng k f).sent = s.sent := rfl

/-! ### updStage -/

@[simp] theorem State.updStage_pending (s : State) (v : Nat) (f : Stage → Stage) :
    (s.updStage v f).pending = s.pending := rfl
@[simp] theorem State.updStage_freeCount (s : State) (v : Nat) (f : Stage → Stage) :
    (s.updStage v f).freeCount = s.freeCount := rfl
@[simp] theorem State.updStage_chip (s : State) (v : Nat) (f : Stage → Stage) :
    (s.updStage v f).chip = s.chip := rfl
@[simp] theorem State.updStage_mem (s : State) (v : Nat) (f : Stage → Stage) :
    (s.updStage v f).mem = s.mem := rfl
@[simp] theorem State.updStage_badWords (s : State) (v : Nat) (f : Stage → Stage) :
    (s.updStage v f).badWords = s.badWords := rfl
@[simp] theorem State.updStage_hostMem (s : State) (v : Nat) (f : Stage → Stage) :
    (s.updStage v f).hostMem = s.hostMem := rfl
@[simp] theorem State.updStage_engines (s : State) (v : Nat) (f : Stage → Stage) :
    (s.updStage v f).engines = s.engines := rfl
@[simp] theorem State.updStage_job (s : State) (v : Nat) (f : Stage → Stage) :
    (s.updStage v f).job = s.job := rfl
@[simp] theorem State.updStage_host (s : State) (v : Nat) (f : Stage → Stage) :
    (s.updStage v f).host = s.host := rfl
@[simp] theorem State.updStage_ports (s : State) (v : Nat) (f : Stage → Stage) :
    (s.updStage v f).ports = s.ports := rfl
@[simp] theorem State.updStage_routes (s : State) (v : Nat) (f : Stage → Stage) :
    (s.updStage v f).routes = s.routes := rfl
@[simp] theorem State.updStage_transit (s : State) (v : Nat) (f : Stage → Stage) :
    (s.updStage v f).transit = s.transit := rfl
@[simp] theorem State.updStage_phrases (s : State) (v : Nat) (f : Stage → Stage) :
    (s.updStage v f).phrases = s.phrases := rfl
@[simp] theorem State.updStage_channels (s : State) (v : Nat) (f : Stage → Stage) :
    (s.updStage v f).channels = s.channels := rfl
@[simp] theorem State.updStage_inFlight (s : State) (v : Nat) (f : Stage → Stage) :
    (s.updStage v f).inFlight = s.inFlight := rfl
@[simp] theorem State.updStage_appo (s : State) (v : Nat) (f : Stage → Stage) :
    (s.updStage v f).appo = s.appo := rfl
@[simp] theorem State.updStage_ingest (s : State) (v : Nat) (f : Stage → Stage) :
    (s.updStage v f).ingest = s.ingest := rfl
@[simp] theorem State.updStage_faults (s : State) (v : Nat) (f : Stage → Stage) :
    (s.updStage v f).faults = s.faults := rfl
@[simp] theorem State.updStage_flash (s : State) (v : Nat) (f : Stage → Stage) :
    (s.updStage v f).flash = s.flash := rfl
@[simp] theorem State.updStage_mgmt (s : State) (v : Nat) (f : Stage → Stage) :
    (s.updStage v f).mgmt = s.mgmt := rfl
@[simp] theorem State.updStage_evSeq (s : State) (v : Nat) (f : Stage → Stage) :
    (s.updStage v f).evSeq = s.evSeq := rfl
@[simp] theorem State.updStage_running (s : State) (v : Nat) (f : Stage → Stage) :
    (s.updStage v f).running = s.running := rfl
@[simp] theorem State.updStage_sent (s : State) (v : Nat) (f : Stage → Stage) :
    (s.updStage v f).sent = s.sent := rfl

/-! ### updPort -/

@[simp] theorem State.updPort_pending (s : State) (p : Nat) (f : Port → Port) :
    (s.updPort p f).pending = s.pending := rfl
@[simp] theorem State.updPort_freeCount (s : State) (p : Nat) (f : Port → Port) :
    (s.updPort p f).freeCount = s.freeCount := rfl
@[simp] theorem State.updPort_chip (s : State) (p : Nat) (f : Port → Port) :
    (s.updPort p f).chip = s.chip := rfl
@[simp] theorem State.updPort_mem (s : State) (p : Nat) (f : Port → Port) :
    (s.updPort p f).mem = s.mem := rfl
@[simp] theorem State.updPort_badWords (s : State) (p : Nat) (f : Port → Port) :
    (s.updPort p f).badWords = s.badWords := rfl
@[simp] theorem State.updPort_hostMem (s : State) (p : Nat) (f : Port → Port) :
    (s.updPort p f).hostMem = s.hostMem := rfl
@[simp] theorem State.updPort_engines (s : State) (p : Nat) (f : Port → Port) :
    (s.updPort p f).engines = s.engines := rfl
@[simp] theorem State.updPort_stages (s : State) (p : Nat) (f : Port → Port) :
    (s.updPort p f).stages = s.stages := rfl
@[simp] theorem State.updPort_job (s : State) (p : Nat) (f : Port → Port) :
    (s.updPort p f).job = s.job := rfl
@[simp] theorem State.updPort_host (s : State) (p : Nat) (f : Port → Port) :
    (s.updPort p f).host = s.host := rfl
@[simp] theorem State.updPort_routes (s : State) (p : Nat) (f : Port → Port) :
    (s.updPort p f).routes = s.routes := rfl
@[simp] theorem State.updPort_transit (s : State) (p : Nat) (f : Port → Port) :
    (s.updPort p f).transit = s.transit := rfl
@[simp] theorem State.updPort_phrases (s : State) (p : Nat) (f : Port → Port) :
    (s.updPort p f).phrases = s.phrases := rfl
@[simp] theorem State.updPort_channels (s : State) (p : Nat) (f : Port → Port) :
    (s.updPort p f).channels = s.channels := rfl
@[simp] theorem State.updPort_inFlight (s : State) (p : Nat) (f : Port → Port) :
    (s.updPort p f).inFlight = s.inFlight := rfl
@[simp] theorem State.updPort_appo (s : State) (p : Nat) (f : Port → Port) :
    (s.updPort p f).appo = s.appo := rfl
@[simp] theorem State.updPort_ingest (s : State) (p : Nat) (f : Port → Port) :
    (s.updPort p f).ingest = s.ingest := rfl
@[simp] theorem State.updPort_faults (s : State) (p : Nat) (f : Port → Port) :
    (s.updPort p f).faults = s.faults := rfl
@[simp] theorem State.updPort_flash (s : State) (p : Nat) (f : Port → Port) :
    (s.updPort p f).flash = s.flash := rfl
@[simp] theorem State.updPort_mgmt (s : State) (p : Nat) (f : Port → Port) :
    (s.updPort p f).mgmt = s.mgmt := rfl
@[simp] theorem State.updPort_evSeq (s : State) (p : Nat) (f : Port → Port) :
    (s.updPort p f).evSeq = s.evSeq := rfl
@[simp] theorem State.updPort_running (s : State) (p : Nat) (f : Port → Port) :
    (s.updPort p f).running = s.running := rfl
@[simp] theorem State.updPort_sent (s : State) (p : Nat) (f : Port → Port) :
    (s.updPort p f).sent = s.sent := rfl

/-! ### updMailbox -/

@[simp] theorem State.updMailbox_pending (s : State) (m : Nat) (f : MailboxRegs → MailboxRegs) :
    (s.updMailbox m f).pending = s.pending := rfl
@[simp] theorem State.updMailbox_freeCount (s : State) (m : Nat) (f : MailboxRegs → MailboxRegs) :
    (s.updMailbox m f).freeCount = s.freeCount := rfl
@[simp] theorem State.updMailbox_chip (s : State) (m : Nat) (f : MailboxRegs → MailboxRegs) :
    (s.updMailbox m f).chip = s.chip := rfl
@[simp] theorem State.updMailbox_mem (s : State) (m : Nat) (f : MailboxRegs → MailboxRegs) :
    (s.updMailbox m f).mem = s.mem := rfl
@[simp] theorem State.updMailbox_badWords (s : State) (m : Nat) (f : MailboxRegs → MailboxRegs) :
    (s.updMailbox m f).badWords = s.badWords := rfl
@[simp] theorem State.updMailbox_hostMem (s : State) (m : Nat) (f : MailboxRegs → MailboxRegs) :
    (s.updMailbox m f).hostMem = s.hostMem := rfl
@[simp] theorem State.updMailbox_engines (s : State) (m : Nat) (f : MailboxRegs → MailboxRegs) :
    (s.updMailbox m f).engines = s.engines := rfl
@[simp] theorem State.updMailbox_stages (s : State) (m : Nat) (f : MailboxRegs → MailboxRegs) :
    (s.updMailbox m f).stages = s.stages := rfl
@[simp] theorem State.updMailbox_job (s : State) (m : Nat) (f : MailboxRegs → MailboxRegs) :
    (s.updMailbox m f).job = s.job := rfl
@[simp] theorem State.updMailbox_ports (s : State) (m : Nat) (f : MailboxRegs → MailboxRegs) :
    (s.updMailbox m f).ports = s.ports := rfl
@[simp] theorem State.updMailbox_routes (s : State) (m : Nat) (f : MailboxRegs → MailboxRegs) :
    (s.updMailbox m f).routes = s.routes := rfl
@[simp] theorem State.updMailbox_transit (s : State) (m : Nat) (f : MailboxRegs → MailboxRegs) :
    (s.updMailbox m f).transit = s.transit := rfl
@[simp] theorem State.updMailbox_phrases (s : State) (m : Nat) (f : MailboxRegs → MailboxRegs) :
    (s.updMailbox m f).phrases = s.phrases := rfl
@[simp] theorem State.updMailbox_channels (s : State) (m : Nat) (f : MailboxRegs → MailboxRegs) :
    (s.updMailbox m f).channels = s.channels := rfl
@[simp] theorem State.updMailbox_inFlight (s : State) (m : Nat) (f : MailboxRegs → MailboxRegs) :
    (s.updMailbox m f).inFlight = s.inFlight := rfl
@[simp] theorem State.updMailbox_appo (s : State) (m : Nat) (f : MailboxRegs → MailboxRegs) :
    (s.updMailbox m f).appo = s.appo := rfl
@[simp] theorem State.updMailbox_ingest (s : State) (m : Nat) (f : MailboxRegs → MailboxRegs) :
    (s.updMailbox m f).ingest = s.ingest := rfl
@[simp] theorem State.updMailbox_faults (s : State) (m : Nat) (f : MailboxRegs → MailboxRegs) :
    (s.updMailbox m f).faults = s.faults := rfl
@[simp] theorem State.updMailbox_flash (s : State) (m : Nat) (f : MailboxRegs → MailboxRegs) :
    (s.updMailbox m f).flash = s.flash := rfl
@[simp] theorem State.updMailbox_mgmt (s : State) (m : Nat) (f : MailboxRegs → MailboxRegs) :
    (s.updMailbox m f).mgmt = s.mgmt := rfl
@[simp] theorem State.updMailbox_evSeq (s : State) (m : Nat) (f : MailboxRegs → MailboxRegs) :
    (s.updMailbox m f).evSeq = s.evSeq := rfl
@[simp] theorem State.updMailbox_running (s : State) (m : Nat) (f : MailboxRegs → MailboxRegs) :
    (s.updMailbox m f).running = s.running := rfl
@[simp] theorem State.updMailbox_sent (s : State) (m : Nat) (f : MailboxRegs → MailboxRegs) :
    (s.updMailbox m f).sent = s.sent := rfl

/-! ### updAp -/

@[simp] theorem State.updAp_pending (s : State) (p : Nat) (f : Appo → Appo) :
    (s.updAp p f).pending = s.pending := rfl
@[simp] theorem State.updAp_freeCount (s : State) (p : Nat) (f : Appo → Appo) :
    (s.updAp p f).freeCount = s.freeCount := rfl
@[simp] theorem State.updAp_chip (s : State) (p : Nat) (f : Appo → Appo) :
    (s.updAp p f).chip = s.chip := rfl
@[simp] theorem State.updAp_mem (s : State) (p : Nat) (f : Appo → Appo) :
    (s.updAp p f).mem = s.mem := rfl
@[simp] theorem State.updAp_badWords (s : State) (p : Nat) (f : Appo → Appo) :
    (s.updAp p f).badWords = s.badWords := rfl
@[simp] theorem State.updAp_hostMem (s : State) (p : Nat) (f : Appo → Appo) :
    (s.updAp p f).hostMem = s.hostMem := rfl
@[simp] theorem State.updAp_engines (s : State) (p : Nat) (f : Appo → Appo) :
    (s.updAp p f).engines = s.engines := rfl
@[simp] theorem State.updAp_stages (s : State) (p : Nat) (f : Appo → Appo) :
    (s.updAp p f).stages = s.stages := rfl
@[simp] theorem State.updAp_job (s : State) (p : Nat) (f : Appo → Appo) :
    (s.updAp p f).job = s.job := rfl
@[simp] theorem State.updAp_host (s : State) (p : Nat) (f : Appo → Appo) :
    (s.updAp p f).host = s.host := rfl
@[simp] theorem State.updAp_ports (s : State) (p : Nat) (f : Appo → Appo) :
    (s.updAp p f).ports = s.ports := rfl
@[simp] theorem State.updAp_routes (s : State) (p : Nat) (f : Appo → Appo) :
    (s.updAp p f).routes = s.routes := rfl
@[simp] theorem State.updAp_transit (s : State) (p : Nat) (f : Appo → Appo) :
    (s.updAp p f).transit = s.transit := rfl
@[simp] theorem State.updAp_phrases (s : State) (p : Nat) (f : Appo → Appo) :
    (s.updAp p f).phrases = s.phrases := rfl
@[simp] theorem State.updAp_channels (s : State) (p : Nat) (f : Appo → Appo) :
    (s.updAp p f).channels = s.channels := rfl
@[simp] theorem State.updAp_inFlight (s : State) (p : Nat) (f : Appo → Appo) :
    (s.updAp p f).inFlight = s.inFlight := rfl
@[simp] theorem State.updAp_ingest (s : State) (p : Nat) (f : Appo → Appo) :
    (s.updAp p f).ingest = s.ingest := rfl
@[simp] theorem State.updAp_faults (s : State) (p : Nat) (f : Appo → Appo) :
    (s.updAp p f).faults = s.faults := rfl
@[simp] theorem State.updAp_flash (s : State) (p : Nat) (f : Appo → Appo) :
    (s.updAp p f).flash = s.flash := rfl
@[simp] theorem State.updAp_mgmt (s : State) (p : Nat) (f : Appo → Appo) :
    (s.updAp p f).mgmt = s.mgmt := rfl
@[simp] theorem State.updAp_evSeq (s : State) (p : Nat) (f : Appo → Appo) :
    (s.updAp p f).evSeq = s.evSeq := rfl
@[simp] theorem State.updAp_running (s : State) (p : Nat) (f : Appo → Appo) :
    (s.updAp p f).running = s.running := rfl
@[simp] theorem State.updAp_sent (s : State) (p : Nat) (f : Appo → Appo) :
    (s.updAp p f).sent = s.sent := rfl

/-! ### updFw -/

@[simp] theorem State.updFw_pending (s : State) (p : Nat) (f : Firewall → Firewall) :
    (s.updFw p f).pending = s.pending := rfl
@[simp] theorem State.updFw_freeCount (s : State) (p : Nat) (f : Firewall → Firewall) :
    (s.updFw p f).freeCount = s.freeCount := rfl
@[simp] theorem State.updFw_chip (s : State) (p : Nat) (f : Firewall → Firewall) :
    (s.updFw p f).chip = s.chip := rfl
@[simp] theorem State.updFw_mem (s : State) (p : Nat) (f : Firewall → Firewall) :
    (s.updFw p f).mem = s.mem := rfl
@[simp] theorem State.updFw_badWords (s : State) (p : Nat) (f : Firewall → Firewall) :
    (s.updFw p f).badWords = s.badWords := rfl
@[simp] theorem State.updFw_hostMem (s : State) (p : Nat) (f : Firewall → Firewall) :
    (s.updFw p f).hostMem = s.hostMem := rfl
@[simp] theorem State.updFw_engines (s : State) (p : Nat) (f : Firewall → Firewall) :
    (s.updFw p f).engines = s.engines := rfl
@[simp] theorem State.updFw_stages (s : State) (p : Nat) (f : Firewall → Firewall) :
    (s.updFw p f).stages = s.stages := rfl
@[simp] theorem State.updFw_job (s : State) (p : Nat) (f : Firewall → Firewall) :
    (s.updFw p f).job = s.job := rfl
@[simp] theorem State.updFw_ports (s : State) (p : Nat) (f : Firewall → Firewall) :
    (s.updFw p f).ports = s.ports := rfl
@[simp] theorem State.updFw_routes (s : State) (p : Nat) (f : Firewall → Firewall) :
    (s.updFw p f).routes = s.routes := rfl
@[simp] theorem State.updFw_transit (s : State) (p : Nat) (f : Firewall → Firewall) :
    (s.updFw p f).transit = s.transit := rfl
@[simp] theorem State.updFw_phrases (s : State) (p : Nat) (f : Firewall → Firewall) :
    (s.updFw p f).phrases = s.phrases := rfl
@[simp] theorem State.updFw_channels (s : State) (p : Nat) (f : Firewall → Firewall) :
    (s.updFw p f).channels = s.channels := rfl
@[simp] theorem State.updFw_inFlight (s : State) (p : Nat) (f : Firewall → Firewall) :
    (s.updFw p f).inFlight = s.inFlight := rfl
@[simp] theorem State.updFw_appo (s : State) (p : Nat) (f : Firewall → Firewall) :
    (s.updFw p f).appo = s.appo := rfl
@[simp] theorem State.updFw_ingest (s : State) (p : Nat) (f : Firewall → Firewall) :
    (s.updFw p f).ingest = s.ingest := rfl
@[simp] theorem State.updFw_faults (s : State) (p : Nat) (f : Firewall → Firewall) :
    (s.updFw p f).faults = s.faults := rfl
@[simp] theorem State.updFw_flash (s : State) (p : Nat) (f : Firewall → Firewall) :
    (s.updFw p f).flash = s.flash := rfl
@[simp] theorem State.updFw_mgmt (s : State) (p : Nat) (f : Firewall → Firewall) :
    (s.updFw p f).mgmt = s.mgmt := rfl
@[simp] theorem State.updFw_evSeq (s : State) (p : Nat) (f : Firewall → Firewall) :
    (s.updFw p f).evSeq = s.evSeq := rfl
@[simp] theorem State.updFw_running (s : State) (p : Nat) (f : Firewall → Firewall) :
    (s.updFw p f).running = s.running := rfl
@[simp] theorem State.updFw_sent (s : State) (p : Nat) (f : Firewall → Firewall) :
    (s.updFw p f).sent = s.sent := rfl

/-! ### updHost -/

@[simp] theorem State.updHost_pending (s : State) (f : HostIf → HostIf) :
    (s.updHost f).pending = s.pending := rfl
@[simp] theorem State.updHost_freeCount (s : State) (f : HostIf → HostIf) :
    (s.updHost f).freeCount = s.freeCount := rfl
@[simp] theorem State.updHost_chip (s : State) (f : HostIf → HostIf) :
    (s.updHost f).chip = s.chip := rfl
@[simp] theorem State.updHost_mem (s : State) (f : HostIf → HostIf) :
    (s.updHost f).mem = s.mem := rfl
@[simp] theorem State.updHost_badWords (s : State) (f : HostIf → HostIf) :
    (s.updHost f).badWords = s.badWords := rfl
@[simp] theorem State.updHost_hostMem (s : State) (f : HostIf → HostIf) :
    (s.updHost f).hostMem = s.hostMem := rfl
@[simp] theorem State.updHost_engines (s : State) (f : HostIf → HostIf) :
    (s.updHost f).engines = s.engines := rfl
@[simp] theorem State.updHost_stages (s : State) (f : HostIf → HostIf) :
    (s.updHost f).stages = s.stages := rfl
@[simp] theorem State.updHost_job (s : State) (f : HostIf → HostIf) :
    (s.updHost f).job = s.job := rfl
@[simp] theorem State.updHost_host (s : State) (f : HostIf → HostIf) :
    (s.updHost f).host = f s.host := rfl
@[simp] theorem State.updHost_ports (s : State) (f : HostIf → HostIf) :
    (s.updHost f).ports = s.ports := rfl
@[simp] theorem State.updHost_routes (s : State) (f : HostIf → HostIf) :
    (s.updHost f).routes = s.routes := rfl
@[simp] theorem State.updHost_transit (s : State) (f : HostIf → HostIf) :
    (s.updHost f).transit = s.transit := rfl
@[simp] theorem State.updHost_phrases (s : State) (f : HostIf → HostIf) :
    (s.updHost f).phrases = s.phrases := rfl
@[simp] theorem State.updHost_channels (s : State) (f : HostIf → HostIf) :
    (s.updHost f).channels = s.channels := rfl
@[simp] theorem State.updHost_inFlight (s : State) (f : HostIf → HostIf) :
    (s.updHost f).inFlight = s.inFlight := rfl
@[simp] theorem State.updHost_appo (s : State) (f : HostIf → HostIf) :
    (s.updHost f).appo = s.appo := rfl
@[simp] theorem State.updHost_ingest (s : State) (f : HostIf → HostIf) :
    (s.updHost f).ingest = s.ingest := rfl
@[simp] theorem State.updHost_faults (s : State) (f : HostIf → HostIf) :
    (s.updHost f).faults = s.faults := rfl
@[simp] theorem State.updHost_flash (s : State) (f : HostIf → HostIf) :
    (s.updHost f).flash = s.flash := rfl
@[simp] theorem State.updHost_mgmt (s : State) (f : HostIf → HostIf) :
    (s.updHost f).mgmt = s.mgmt := rfl
@[simp] theorem State.updHost_evSeq (s : State) (f : HostIf → HostIf) :
    (s.updHost f).evSeq = s.evSeq := rfl
@[simp] theorem State.updHost_running (s : State) (f : HostIf → HostIf) :
    (s.updHost f).running = s.running := rfl
@[simp] theorem State.updHost_sent (s : State) (f : HostIf → HostIf) :
    (s.updHost f).sent = s.sent := rfl

/-! ### updChip -/

@[simp] theorem State.updChip_pending (s : State) (f : Chip → Chip) :
    (s.updChip f).pending = s.pending := rfl
@[simp] theorem State.updChip_freeCount (s : State) (f : Chip → Chip) :
    (s.updChip f).freeCount = s.freeCount := rfl
@[simp] theorem State.updChip_chip (s : State) (f : Chip → Chip) :
    (s.updChip f).chip = f s.chip := rfl
@[simp] theorem State.updChip_mem (s : State) (f : Chip → Chip) :
    (s.updChip f).mem = s.mem := rfl
@[simp] theorem State.updChip_badWords (s : State) (f : Chip → Chip) :
    (s.updChip f).badWords = s.badWords := rfl
@[simp] theorem State.updChip_hostMem (s : State) (f : Chip → Chip) :
    (s.updChip f).hostMem = s.hostMem := rfl
@[simp] theorem State.updChip_engines (s : State) (f : Chip → Chip) :
    (s.updChip f).engines = s.engines := rfl
@[simp] theorem State.updChip_stages (s : State) (f : Chip → Chip) :
    (s.updChip f).stages = s.stages := rfl
@[simp] theorem State.updChip_job (s : State) (f : Chip → Chip) :
    (s.updChip f).job = s.job := rfl
@[simp] theorem State.updChip_host (s : State) (f : Chip → Chip) :
    (s.updChip f).host = s.host := rfl
@[simp] theorem State.updChip_ports (s : State) (f : Chip → Chip) :
    (s.updChip f).ports = s.ports := rfl
@[simp] theorem State.updChip_routes (s : State) (f : Chip → Chip) :
    (s.updChip f).routes = s.routes := rfl
@[simp] theorem State.updChip_transit (s : State) (f : Chip → Chip) :
    (s.updChip f).transit = s.transit := rfl
@[simp] theorem State.updChip_phrases (s : State) (f : Chip → Chip) :
    (s.updChip f).phrases = s.phrases := rfl
@[simp] theorem State.updChip_channels (s : State) (f : Chip → Chip) :
    (s.updChip f).channels = s.channels := rfl
@[simp] theorem State.updChip_inFlight (s : State) (f : Chip → Chip) :
    (s.updChip f).inFlight = s.inFlight := rfl
@[simp] theorem State.updChip_appo (s : State) (f : Chip → Chip) :
    (s.updChip f).appo = s.appo := rfl
@[simp] theorem State.updChip_ingest (s : State) (f : Chip → Chip) :
    (s.updChip f).ingest = s.ingest := rfl
@[simp] theorem State.updChip_faults (s : State) (f : Chip → Chip) :
    (s.updChip f).faults = s.faults := rfl
@[simp] theorem State.updChip_flash (s : State) (f : Chip → Chip) :
    (s.updChip f).flash = s.flash := rfl
@[simp] theorem State.updChip_mgmt (s : State) (f : Chip → Chip) :
    (s.updChip f).mgmt = s.mgmt := rfl
@[simp] theorem State.updChip_evSeq (s : State) (f : Chip → Chip) :
    (s.updChip f).evSeq = s.evSeq := rfl
@[simp] theorem State.updChip_running (s : State) (f : Chip → Chip) :
    (s.updChip f).running = s.running := rfl
@[simp] theorem State.updChip_sent (s : State) (f : Chip → Chip) :
    (s.updChip f).sent = s.sent := rfl

/-! ### updJob -/

@[simp] theorem State.updJob_pending (s : State) (f : Job → Job) :
    (s.updJob f).pending = s.pending := rfl
@[simp] theorem State.updJob_freeCount (s : State) (f : Job → Job) :
    (s.updJob f).freeCount = s.freeCount := rfl
@[simp] theorem State.updJob_chip (s : State) (f : Job → Job) :
    (s.updJob f).chip = s.chip := rfl
@[simp] theorem State.updJob_mem (s : State) (f : Job → Job) :
    (s.updJob f).mem = s.mem := rfl
@[simp] theorem State.updJob_badWords (s : State) (f : Job → Job) :
    (s.updJob f).badWords = s.badWords := rfl
@[simp] theorem State.updJob_hostMem (s : State) (f : Job → Job) :
    (s.updJob f).hostMem = s.hostMem := rfl
@[simp] theorem State.updJob_engines (s : State) (f : Job → Job) :
    (s.updJob f).engines = s.engines := rfl
@[simp] theorem State.updJob_stages (s : State) (f : Job → Job) :
    (s.updJob f).stages = s.stages := rfl
@[simp] theorem State.updJob_job (s : State) (f : Job → Job) :
    (s.updJob f).job = f s.job := rfl
@[simp] theorem State.updJob_host (s : State) (f : Job → Job) :
    (s.updJob f).host = s.host := rfl
@[simp] theorem State.updJob_ports (s : State) (f : Job → Job) :
    (s.updJob f).ports = s.ports := rfl
@[simp] theorem State.updJob_routes (s : State) (f : Job → Job) :
    (s.updJob f).routes = s.routes := rfl
@[simp] theorem State.updJob_transit (s : State) (f : Job → Job) :
    (s.updJob f).transit = s.transit := rfl
@[simp] theorem State.updJob_phrases (s : State) (f : Job → Job) :
    (s.updJob f).phrases = s.phrases := rfl
@[simp] theorem State.updJob_channels (s : State) (f : Job → Job) :
    (s.updJob f).channels = s.channels := rfl
@[simp] theorem State.updJob_inFlight (s : State) (f : Job → Job) :
    (s.updJob f).inFlight = s.inFlight := rfl
@[simp] theorem State.updJob_appo (s : State) (f : Job → Job) :
    (s.updJob f).appo = s.appo := rfl
@[simp] theorem State.updJob_ingest (s : State) (f : Job → Job) :
    (s.updJob f).ingest = s.ingest := rfl
@[simp] theorem State.updJob_faults (s : State) (f : Job → Job) :
    (s.updJob f).faults = s.faults := rfl
@[simp] theorem State.updJob_flash (s : State) (f : Job → Job) :
    (s.updJob f).flash = s.flash := rfl
@[simp] theorem State.updJob_mgmt (s : State) (f : Job → Job) :
    (s.updJob f).mgmt = s.mgmt := rfl
@[simp] theorem State.updJob_evSeq (s : State) (f : Job → Job) :
    (s.updJob f).evSeq = s.evSeq := rfl
@[simp] theorem State.updJob_running (s : State) (f : Job → Job) :
    (s.updJob f).running = s.running := rfl
@[simp] theorem State.updJob_sent (s : State) (f : Job → Job) :
    (s.updJob f).sent = s.sent := rfl

/-! ### updIngest -/

@[simp] theorem State.updIngest_pending (s : State) (f : Ingest → Ingest) :
    (s.updIngest f).pending = s.pending := rfl
@[simp] theorem State.updIngest_freeCount (s : State) (f : Ingest → Ingest) :
    (s.updIngest f).freeCount = s.freeCount := rfl
@[simp] theorem State.updIngest_chip (s : State) (f : Ingest → Ingest) :
    (s.updIngest f).chip = s.chip := rfl
@[simp] theorem State.updIngest_mem (s : State) (f : Ingest → Ingest) :
    (s.updIngest f).mem = s.mem := rfl
@[simp] theorem State.updIngest_badWords (s : State) (f : Ingest → Ingest) :
    (s.updIngest f).badWords = s.badWords := rfl
@[simp] theorem State.updIngest_hostMem (s : State) (f : Ingest → Ingest) :
    (s.updIngest f).hostMem = s.hostMem := rfl
@[simp] theorem State.updIngest_engines (s : State) (f : Ingest → Ingest) :
    (s.updIngest f).engines = s.engines := rfl
@[simp] theorem State.updIngest_stages (s : State) (f : Ingest → Ingest) :
    (s.updIngest f).stages = s.stages := rfl
@[simp] theorem State.updIngest_job (s : State) (f : Ingest → Ingest) :
    (s.updIngest f).job = s.job := rfl
@[simp] theorem State.updIngest_host (s : State) (f : Ingest → Ingest) :
    (s.updIngest f).host = s.host := rfl
@[simp] theorem State.updIngest_ports (s : State) (f : Ingest → Ingest) :
    (s.updIngest f).ports = s.ports := rfl
@[simp] theorem State.updIngest_routes (s : State) (f : Ingest → Ingest) :
    (s.updIngest f).routes = s.routes := rfl
@[simp] theorem State.updIngest_transit (s : State) (f : Ingest → Ingest) :
    (s.updIngest f).transit = s.transit := rfl
@[simp] theorem State.updIngest_phrases (s : State) (f : Ingest → Ingest) :
    (s.updIngest f).phrases = s.phrases := rfl
@[simp] theorem State.updIngest_channels (s : State) (f : Ingest → Ingest) :
    (s.updIngest f).channels = s.channels := rfl
@[simp] theorem State.updIngest_inFlight (s : State) (f : Ingest → Ingest) :
    (s.updIngest f).inFlight = s.inFlight := rfl
@[simp] theorem State.updIngest_appo (s : State) (f : Ingest → Ingest) :
    (s.updIngest f).appo = s.appo := rfl
@[simp] theorem State.updIngest_ingest (s : State) (f : Ingest → Ingest) :
    (s.updIngest f).ingest = f s.ingest := rfl
@[simp] theorem State.updIngest_faults (s : State) (f : Ingest → Ingest) :
    (s.updIngest f).faults = s.faults := rfl
@[simp] theorem State.updIngest_flash (s : State) (f : Ingest → Ingest) :
    (s.updIngest f).flash = s.flash := rfl
@[simp] theorem State.updIngest_mgmt (s : State) (f : Ingest → Ingest) :
    (s.updIngest f).mgmt = s.mgmt := rfl
@[simp] theorem State.updIngest_evSeq (s : State) (f : Ingest → Ingest) :
    (s.updIngest f).evSeq = s.evSeq := rfl
@[simp] theorem State.updIngest_running (s : State) (f : Ingest → Ingest) :
    (s.updIngest f).running = s.running := rfl
@[simp] theorem State.updIngest_sent (s : State) (f : Ingest → Ingest) :
    (s.updIngest f).sent = s.sent := rfl

/-! ### updFaults -/

@[simp] theorem State.updFaults_pending (s : State) (f : Faults → Faults) :
    (s.updFaults f).pending = s.pending := rfl
@[simp] theorem State.updFaults_freeCount (s : State) (f : Faults → Faults) :
    (s.updFaults f).freeCount = s.freeCount := rfl
@[simp] theorem State.updFaults_chip (s : State) (f : Faults → Faults) :
    (s.updFaults f).chip = s.chip := rfl
@[simp] theorem State.updFaults_mem (s : State) (f : Faults → Faults) :
    (s.updFaults f).mem = s.mem := rfl
@[simp] theorem State.updFaults_badWords (s : State) (f : Faults → Faults) :
    (s.updFaults f).badWords = s.badWords := rfl
@[simp] theorem State.updFaults_hostMem (s : State) (f : Faults → Faults) :
    (s.updFaults f).hostMem = s.hostMem := rfl
@[simp] theorem State.updFaults_engines (s : State) (f : Faults → Faults) :
    (s.updFaults f).engines = s.engines := rfl
@[simp] theorem State.updFaults_stages (s : State) (f : Faults → Faults) :
    (s.updFaults f).stages = s.stages := rfl
@[simp] theorem State.updFaults_job (s : State) (f : Faults → Faults) :
    (s.updFaults f).job = s.job := rfl
@[simp] theorem State.updFaults_host (s : State) (f : Faults → Faults) :
    (s.updFaults f).host = s.host := rfl
@[simp] theorem State.updFaults_ports (s : State) (f : Faults → Faults) :
    (s.updFaults f).ports = s.ports := rfl
@[simp] theorem State.updFaults_routes (s : State) (f : Faults → Faults) :
    (s.updFaults f).routes = s.routes := rfl
@[simp] theorem State.updFaults_transit (s : State) (f : Faults → Faults) :
    (s.updFaults f).transit = s.transit := rfl
@[simp] theorem State.updFaults_phrases (s : State) (f : Faults → Faults) :
    (s.updFaults f).phrases = s.phrases := rfl
@[simp] theorem State.updFaults_channels (s : State) (f : Faults → Faults) :
    (s.updFaults f).channels = s.channels := rfl
@[simp] theorem State.updFaults_inFlight (s : State) (f : Faults → Faults) :
    (s.updFaults f).inFlight = s.inFlight := rfl
@[simp] theorem State.updFaults_appo (s : State) (f : Faults → Faults) :
    (s.updFaults f).appo = s.appo := rfl
@[simp] theorem State.updFaults_ingest (s : State) (f : Faults → Faults) :
    (s.updFaults f).ingest = s.ingest := rfl
@[simp] theorem State.updFaults_faults (s : State) (f : Faults → Faults) :
    (s.updFaults f).faults = f s.faults := rfl
@[simp] theorem State.updFaults_flash (s : State) (f : Faults → Faults) :
    (s.updFaults f).flash = s.flash := rfl
@[simp] theorem State.updFaults_mgmt (s : State) (f : Faults → Faults) :
    (s.updFaults f).mgmt = s.mgmt := rfl
@[simp] theorem State.updFaults_evSeq (s : State) (f : Faults → Faults) :
    (s.updFaults f).evSeq = s.evSeq := rfl
@[simp] theorem State.updFaults_running (s : State) (f : Faults → Faults) :
    (s.updFaults f).running = s.running := rfl
@[simp] theorem State.updFaults_sent (s : State) (f : Faults → Faults) :
    (s.updFaults f).sent = s.sent := rfl

/-! ### updMgmt -/

@[simp] theorem State.updMgmt_pending (s : State) (f : Mgmt → Mgmt) :
    (s.updMgmt f).pending = s.pending := rfl
@[simp] theorem State.updMgmt_freeCount (s : State) (f : Mgmt → Mgmt) :
    (s.updMgmt f).freeCount = s.freeCount := rfl
@[simp] theorem State.updMgmt_chip (s : State) (f : Mgmt → Mgmt) :
    (s.updMgmt f).chip = s.chip := rfl
@[simp] theorem State.updMgmt_mem (s : State) (f : Mgmt → Mgmt) :
    (s.updMgmt f).mem = s.mem := rfl
@[simp] theorem State.updMgmt_badWords (s : State) (f : Mgmt → Mgmt) :
    (s.updMgmt f).badWords = s.badWords := rfl
@[simp] theorem State.updMgmt_hostMem (s : State) (f : Mgmt → Mgmt) :
    (s.updMgmt f).hostMem = s.hostMem := rfl
@[simp] theorem State.updMgmt_engines (s : State) (f : Mgmt → Mgmt) :
    (s.updMgmt f).engines = s.engines := rfl
@[simp] theorem State.updMgmt_stages (s : State) (f : Mgmt → Mgmt) :
    (s.updMgmt f).stages = s.stages := rfl
@[simp] theorem State.updMgmt_job (s : State) (f : Mgmt → Mgmt) :
    (s.updMgmt f).job = s.job := rfl
@[simp] theorem State.updMgmt_host (s : State) (f : Mgmt → Mgmt) :
    (s.updMgmt f).host = s.host := rfl
@[simp] theorem State.updMgmt_ports (s : State) (f : Mgmt → Mgmt) :
    (s.updMgmt f).ports = s.ports := rfl
@[simp] theorem State.updMgmt_routes (s : State) (f : Mgmt → Mgmt) :
    (s.updMgmt f).routes = s.routes := rfl
@[simp] theorem State.updMgmt_transit (s : State) (f : Mgmt → Mgmt) :
    (s.updMgmt f).transit = s.transit := rfl
@[simp] theorem State.updMgmt_phrases (s : State) (f : Mgmt → Mgmt) :
    (s.updMgmt f).phrases = s.phrases := rfl
@[simp] theorem State.updMgmt_channels (s : State) (f : Mgmt → Mgmt) :
    (s.updMgmt f).channels = s.channels := rfl
@[simp] theorem State.updMgmt_inFlight (s : State) (f : Mgmt → Mgmt) :
    (s.updMgmt f).inFlight = s.inFlight := rfl
@[simp] theorem State.updMgmt_appo (s : State) (f : Mgmt → Mgmt) :
    (s.updMgmt f).appo = s.appo := rfl
@[simp] theorem State.updMgmt_ingest (s : State) (f : Mgmt → Mgmt) :
    (s.updMgmt f).ingest = s.ingest := rfl
@[simp] theorem State.updMgmt_faults (s : State) (f : Mgmt → Mgmt) :
    (s.updMgmt f).faults = s.faults := rfl
@[simp] theorem State.updMgmt_flash (s : State) (f : Mgmt → Mgmt) :
    (s.updMgmt f).flash = s.flash := rfl
@[simp] theorem State.updMgmt_mgmt (s : State) (f : Mgmt → Mgmt) :
    (s.updMgmt f).mgmt = f s.mgmt := rfl
@[simp] theorem State.updMgmt_evSeq (s : State) (f : Mgmt → Mgmt) :
    (s.updMgmt f).evSeq = s.evSeq := rfl
@[simp] theorem State.updMgmt_running (s : State) (f : Mgmt → Mgmt) :
    (s.updMgmt f).running = s.running := rfl
@[simp] theorem State.updMgmt_sent (s : State) (f : Mgmt → Mgmt) :
    (s.updMgmt f).sent = s.sent := rfl

/-! ### send -/

@[simp] theorem State.send_pending (s : State) (x : Sent) :
    (s.send x).pending = s.pending := rfl
@[simp] theorem State.send_freeCount (s : State) (x : Sent) :
    (s.send x).freeCount = s.freeCount := rfl
@[simp] theorem State.send_chip (s : State) (x : Sent) :
    (s.send x).chip = s.chip := rfl
@[simp] theorem State.send_mem (s : State) (x : Sent) :
    (s.send x).mem = s.mem := rfl
@[simp] theorem State.send_badWords (s : State) (x : Sent) :
    (s.send x).badWords = s.badWords := rfl
@[simp] theorem State.send_hostMem (s : State) (x : Sent) :
    (s.send x).hostMem = s.hostMem := rfl
@[simp] theorem State.send_engines (s : State) (x : Sent) :
    (s.send x).engines = s.engines := rfl
@[simp] theorem State.send_stages (s : State) (x : Sent) :
    (s.send x).stages = s.stages := rfl
@[simp] theorem State.send_job (s : State) (x : Sent) :
    (s.send x).job = s.job := rfl
@[simp] theorem State.send_host (s : State) (x : Sent) :
    (s.send x).host = s.host := rfl
@[simp] theorem State.send_ports (s : State) (x : Sent) :
    (s.send x).ports = s.ports := rfl
@[simp] theorem State.send_routes (s : State) (x : Sent) :
    (s.send x).routes = s.routes := rfl
@[simp] theorem State.send_transit (s : State) (x : Sent) :
    (s.send x).transit = s.transit := rfl
@[simp] theorem State.send_phrases (s : State) (x : Sent) :
    (s.send x).phrases = s.phrases := rfl
@[simp] theorem State.send_channels (s : State) (x : Sent) :
    (s.send x).channels = s.channels := rfl
@[simp] theorem State.send_inFlight (s : State) (x : Sent) :
    (s.send x).inFlight = s.inFlight := rfl
@[simp] theorem State.send_appo (s : State) (x : Sent) :
    (s.send x).appo = s.appo := rfl
@[simp] theorem State.send_ingest (s : State) (x : Sent) :
    (s.send x).ingest = s.ingest := rfl
@[simp] theorem State.send_faults (s : State) (x : Sent) :
    (s.send x).faults = s.faults := rfl
@[simp] theorem State.send_flash (s : State) (x : Sent) :
    (s.send x).flash = s.flash := rfl
@[simp] theorem State.send_mgmt (s : State) (x : Sent) :
    (s.send x).mgmt = s.mgmt := rfl
@[simp] theorem State.send_evSeq (s : State) (x : Sent) :
    (s.send x).evSeq = s.evSeq := rfl
@[simp] theorem State.send_running (s : State) (x : Sent) :
    (s.send x).running = s.running := rfl
@[simp] theorem State.send_sent (s : State) (x : Sent) :
    (s.send x).sent = x :: s.sent := rfl

/-! ### store -/

@[simp] theorem State.store_pending (s : State) (a : Nat) (bs : List Byte) :
    (s.store a bs).pending = s.pending := rfl
@[simp] theorem State.store_freeCount (s : State) (a : Nat) (bs : List Byte) :
    (s.store a bs).freeCount = s.freeCount := rfl
@[simp] theorem State.store_chip (s : State) (a : Nat) (bs : List Byte) :
    (s.store a bs).chip = s.chip := rfl
@[simp] theorem State.store_mem (s : State) (a : Nat) (bs : List Byte) :
    (s.store a bs).mem = memWriteBytes s.mem a bs := rfl
@[simp] theorem State.store_badWords (s : State) (a : Nat) (bs : List Byte) :
    (s.store a bs).badWords = s.badWords := rfl
@[simp] theorem State.store_hostMem (s : State) (a : Nat) (bs : List Byte) :
    (s.store a bs).hostMem = s.hostMem := rfl
@[simp] theorem State.store_engines (s : State) (a : Nat) (bs : List Byte) :
    (s.store a bs).engines = s.engines := rfl
@[simp] theorem State.store_stages (s : State) (a : Nat) (bs : List Byte) :
    (s.store a bs).stages = s.stages := rfl
@[simp] theorem State.store_job (s : State) (a : Nat) (bs : List Byte) :
    (s.store a bs).job = s.job := rfl
@[simp] theorem State.store_host (s : State) (a : Nat) (bs : List Byte) :
    (s.store a bs).host = s.host := rfl
@[simp] theorem State.store_ports (s : State) (a : Nat) (bs : List Byte) :
    (s.store a bs).ports = s.ports := rfl
@[simp] theorem State.store_routes (s : State) (a : Nat) (bs : List Byte) :
    (s.store a bs).routes = s.routes := rfl
@[simp] theorem State.store_transit (s : State) (a : Nat) (bs : List Byte) :
    (s.store a bs).transit = s.transit := rfl
@[simp] theorem State.store_phrases (s : State) (a : Nat) (bs : List Byte) :
    (s.store a bs).phrases = s.phrases := rfl
@[simp] theorem State.store_channels (s : State) (a : Nat) (bs : List Byte) :
    (s.store a bs).channels = s.channels := rfl
@[simp] theorem State.store_inFlight (s : State) (a : Nat) (bs : List Byte) :
    (s.store a bs).inFlight = s.inFlight := rfl
@[simp] theorem State.store_appo (s : State) (a : Nat) (bs : List Byte) :
    (s.store a bs).appo = s.appo := rfl
@[simp] theorem State.store_ingest (s : State) (a : Nat) (bs : List Byte) :
    (s.store a bs).ingest = s.ingest := rfl
@[simp] theorem State.store_faults (s : State) (a : Nat) (bs : List Byte) :
    (s.store a bs).faults = s.faults := rfl
@[simp] theorem State.store_flash (s : State) (a : Nat) (bs : List Byte) :
    (s.store a bs).flash = s.flash := rfl
@[simp] theorem State.store_mgmt (s : State) (a : Nat) (bs : List Byte) :
    (s.store a bs).mgmt = s.mgmt := rfl
@[simp] theorem State.store_evSeq (s : State) (a : Nat) (bs : List Byte) :
    (s.store a bs).evSeq = s.evSeq := rfl
@[simp] theorem State.store_running (s : State) (a : Nat) (bs : List Byte) :
    (s.store a bs).running = s.running := rfl
@[simp] theorem State.store_sent (s : State) (a : Nat) (bs : List Byte) :
    (s.store a bs).sent = s.sent := rfl

/-! ### mend -/

@[simp] theorem State.mend_pending (s : State) (a n : Nat) :
    (s.mend a n).pending = s.pending := rfl
@[simp] theorem State.mend_freeCount (s : State) (a n : Nat) :
    (s.mend a n).freeCount = s.freeCount := rfl
@[simp] theorem State.mend_chip (s : State) (a n : Nat) :
    (s.mend a n).chip = s.chip := rfl
@[simp] theorem State.mend_mem (s : State) (a n : Nat) :
    (s.mend a n).mem = s.mem := rfl
@[simp] theorem State.mend_hostMem (s : State) (a n : Nat) :
    (s.mend a n).hostMem = s.hostMem := rfl
@[simp] theorem State.mend_engines (s : State) (a n : Nat) :
    (s.mend a n).engines = s.engines := rfl
@[simp] theorem State.mend_stages (s : State) (a n : Nat) :
    (s.mend a n).stages = s.stages := rfl
@[simp] theorem State.mend_job (s : State) (a n : Nat) :
    (s.mend a n).job = s.job := rfl
@[simp] theorem State.mend_host (s : State) (a n : Nat) :
    (s.mend a n).host = s.host := rfl
@[simp] theorem State.mend_ports (s : State) (a n : Nat) :
    (s.mend a n).ports = s.ports := rfl
@[simp] theorem State.mend_routes (s : State) (a n : Nat) :
    (s.mend a n).routes = s.routes := rfl
@[simp] theorem State.mend_transit (s : State) (a n : Nat) :
    (s.mend a n).transit = s.transit := rfl
@[simp] theorem State.mend_phrases (s : State) (a n : Nat) :
    (s.mend a n).phrases = s.phrases := rfl
@[simp] theorem State.mend_channels (s : State) (a n : Nat) :
    (s.mend a n).channels = s.channels := rfl
@[simp] theorem State.mend_inFlight (s : State) (a n : Nat) :
    (s.mend a n).inFlight = s.inFlight := rfl
@[simp] theorem State.mend_appo (s : State) (a n : Nat) :
    (s.mend a n).appo = s.appo := rfl
@[simp] theorem State.mend_ingest (s : State) (a n : Nat) :
    (s.mend a n).ingest = s.ingest := rfl
@[simp] theorem State.mend_faults (s : State) (a n : Nat) :
    (s.mend a n).faults = s.faults := rfl
@[simp] theorem State.mend_flash (s : State) (a n : Nat) :
    (s.mend a n).flash = s.flash := rfl
@[simp] theorem State.mend_mgmt (s : State) (a n : Nat) :
    (s.mend a n).mgmt = s.mgmt := rfl
@[simp] theorem State.mend_evSeq (s : State) (a n : Nat) :
    (s.mend a n).evSeq = s.evSeq := rfl
@[simp] theorem State.mend_running (s : State) (a n : Nat) :
    (s.mend a n).running = s.running := rfl
@[simp] theorem State.mend_sent (s : State) (a n : Nat) :
    (s.mend a n).sent = s.sent := rfl

/-! ### Parts after an update -/

theorem State.updEng_eng (s : State) (k i : Nat) (f : EngineState → EngineState) :
    (s.updEng k f).eng i = if i = k then f (s.eng k) else s.eng i := by
  show sget {} (supd {} k f s.engines) i = _
  rw [sget_supd]; rfl

@[simp] theorem State.updEng_eng_self (s : State) (k : Nat) (f : EngineState → EngineState) :
    (s.updEng k f).eng k = f (s.eng k) := by
  simp [State.updEng_eng]

theorem State.updEng_eng_of_ne (s : State) {k i : Nat} (f : EngineState → EngineState) (h : i ≠ k) :
    (s.updEng k f).eng i = s.eng i := by
  simp [State.updEng_eng, h]

theorem State.updStage_stage (s : State) (k i : Nat) (f : Stage → Stage) :
    (s.updStage k f).stage i = if i = k then f (s.stage k) else s.stage i := by
  show sget {} (supd {} k f s.stages) i = _
  rw [sget_supd]; rfl

@[simp] theorem State.updStage_stage_self (s : State) (k : Nat) (f : Stage → Stage) :
    (s.updStage k f).stage k = f (s.stage k) := by
  simp [State.updStage_stage]

theorem State.updStage_stage_of_ne (s : State) {k i : Nat} (f : Stage → Stage) (h : i ≠ k) :
    (s.updStage k f).stage i = s.stage i := by
  simp [State.updStage_stage, h]

theorem State.updPort_port (s : State) (k i : Nat) (f : Port → Port) :
    (s.updPort k f).port i = if i = k then f (s.port k) else s.port i := by
  show sget {} (supd {} k f s.ports) i = _
  rw [sget_supd]; rfl

@[simp] theorem State.updPort_port_self (s : State) (k : Nat) (f : Port → Port) :
    (s.updPort k f).port k = f (s.port k) := by
  simp [State.updPort_port]

theorem State.updPort_port_of_ne (s : State) {k i : Nat} (f : Port → Port) (h : i ≠ k) :
    (s.updPort k f).port i = s.port i := by
  simp [State.updPort_port, h]

theorem State.updAp_ap (s : State) (k i : Nat) (f : Appo → Appo) :
    (s.updAp k f).ap i = if i = k then f (s.ap k) else s.ap i := by
  show sget {} (supd {} k f s.appo) i = _
  rw [sget_supd]; rfl

@[simp] theorem State.updAp_ap_self (s : State) (k : Nat) (f : Appo → Appo) :
    (s.updAp k f).ap k = f (s.ap k) := by
  simp [State.updAp_ap]

theorem State.updAp_ap_of_ne (s : State) {k i : Nat} (f : Appo → Appo) (h : i ≠ k) :
    (s.updAp k f).ap i = s.ap i := by
  simp [State.updAp_ap, h]

theorem State.updMailbox_mailbox (s : State) (k i : Nat) (f : MailboxRegs → MailboxRegs) :
    (s.updMailbox k f).mailbox i = if i = k then f (s.mailbox k) else s.mailbox i := by
  show sget {} (supd {} k f s.host.mailboxes) i = _
  rw [sget_supd]; rfl

@[simp] theorem State.updMailbox_mailbox_self (s : State) (k : Nat) (f : MailboxRegs → MailboxRegs) :
    (s.updMailbox k f).mailbox k = f (s.mailbox k) := by
  simp [State.updMailbox_mailbox]

theorem State.updFw_fw (s : State) (k i : Nat) (f : Firewall → Firewall) :
    (s.updFw k f).fw i = if i = k then f (s.fw k) else s.fw i := by
  show sget {} (supd {} k f s.host.firewalls) i = _
  rw [sget_supd]; rfl

@[simp] theorem State.updFw_fw_self (s : State) (k : Nat) (f : Firewall → Firewall) :
    (s.updFw k f).fw k = f (s.fw k) := by
  simp [State.updFw_fw]

@[simp] theorem State.updStage_eng (s : State) (v : Nat) (f : Stage → Stage) (i : Nat) :
    (s.updStage v f).eng i = s.eng i := rfl
@[simp] theorem State.updPort_eng (s : State) (p : Nat) (f : Port → Port) (i : Nat) :
    (s.updPort p f).eng i = s.eng i := rfl
@[simp] theorem State.updMailbox_eng (s : State) (m : Nat) (f : MailboxRegs → MailboxRegs) (i : Nat) :
    (s.updMailbox m f).eng i = s.eng i := rfl
@[simp] theorem State.updAp_eng (s : State) (p : Nat) (f : Appo → Appo) (i : Nat) :
    (s.updAp p f).eng i = s.eng i := rfl
@[simp] theorem State.updFw_eng (s : State) (p : Nat) (f : Firewall → Firewall) (i : Nat) :
    (s.updFw p f).eng i = s.eng i := rfl
@[simp] theorem State.updHost_eng (s : State) (f : HostIf → HostIf) (i : Nat) :
    (s.updHost f).eng i = s.eng i := rfl
@[simp] theorem State.updChip_eng (s : State) (f : Chip → Chip) (i : Nat) :
    (s.updChip f).eng i = s.eng i := rfl
@[simp] theorem State.updJob_eng (s : State) (f : Job → Job) (i : Nat) :
    (s.updJob f).eng i = s.eng i := rfl
@[simp] theorem State.updIngest_eng (s : State) (f : Ingest → Ingest) (i : Nat) :
    (s.updIngest f).eng i = s.eng i := rfl
@[simp] theorem State.updFaults_eng (s : State) (f : Faults → Faults) (i : Nat) :
    (s.updFaults f).eng i = s.eng i := rfl
@[simp] theorem State.updMgmt_eng (s : State) (f : Mgmt → Mgmt) (i : Nat) :
    (s.updMgmt f).eng i = s.eng i := rfl
@[simp] theorem State.send_eng (s : State) (x : Sent) (i : Nat) :
    (s.send x).eng i = s.eng i := rfl
@[simp] theorem State.store_eng (s : State) (a : Nat) (bs : List Byte) (i : Nat) :
    (s.store a bs).eng i = s.eng i := rfl
@[simp] theorem State.mend_eng (s : State) (a n : Nat) (i : Nat) :
    (s.mend a n).eng i = s.eng i := rfl
@[simp] theorem State.updEng_stage (s : State) (k : Nat) (f : EngineState → EngineState) (i : Nat) :
    (s.updEng k f).stage i = s.stage i := rfl
@[simp] theorem State.updPort_stage (s : State) (p : Nat) (f : Port → Port) (i : Nat) :
    (s.updPort p f).stage i = s.stage i := rfl
@[simp] theorem State.updMailbox_stage (s : State) (m : Nat) (f : MailboxRegs → MailboxRegs) (i : Nat) :
    (s.updMailbox m f).stage i = s.stage i := rfl
@[simp] theorem State.updAp_stage (s : State) (p : Nat) (f : Appo → Appo) (i : Nat) :
    (s.updAp p f).stage i = s.stage i := rfl
@[simp] theorem State.updFw_stage (s : State) (p : Nat) (f : Firewall → Firewall) (i : Nat) :
    (s.updFw p f).stage i = s.stage i := rfl
@[simp] theorem State.updHost_stage (s : State) (f : HostIf → HostIf) (i : Nat) :
    (s.updHost f).stage i = s.stage i := rfl
@[simp] theorem State.updChip_stage (s : State) (f : Chip → Chip) (i : Nat) :
    (s.updChip f).stage i = s.stage i := rfl
@[simp] theorem State.updJob_stage (s : State) (f : Job → Job) (i : Nat) :
    (s.updJob f).stage i = s.stage i := rfl
@[simp] theorem State.updIngest_stage (s : State) (f : Ingest → Ingest) (i : Nat) :
    (s.updIngest f).stage i = s.stage i := rfl
@[simp] theorem State.updFaults_stage (s : State) (f : Faults → Faults) (i : Nat) :
    (s.updFaults f).stage i = s.stage i := rfl
@[simp] theorem State.updMgmt_stage (s : State) (f : Mgmt → Mgmt) (i : Nat) :
    (s.updMgmt f).stage i = s.stage i := rfl
@[simp] theorem State.send_stage (s : State) (x : Sent) (i : Nat) :
    (s.send x).stage i = s.stage i := rfl
@[simp] theorem State.store_stage (s : State) (a : Nat) (bs : List Byte) (i : Nat) :
    (s.store a bs).stage i = s.stage i := rfl
@[simp] theorem State.mend_stage (s : State) (a n : Nat) (i : Nat) :
    (s.mend a n).stage i = s.stage i := rfl
@[simp] theorem State.updEng_port (s : State) (k : Nat) (f : EngineState → EngineState) (i : Nat) :
    (s.updEng k f).port i = s.port i := rfl
@[simp] theorem State.updStage_port (s : State) (v : Nat) (f : Stage → Stage) (i : Nat) :
    (s.updStage v f).port i = s.port i := rfl
@[simp] theorem State.updMailbox_port (s : State) (m : Nat) (f : MailboxRegs → MailboxRegs) (i : Nat) :
    (s.updMailbox m f).port i = s.port i := rfl
@[simp] theorem State.updAp_port (s : State) (p : Nat) (f : Appo → Appo) (i : Nat) :
    (s.updAp p f).port i = s.port i := rfl
@[simp] theorem State.updFw_port (s : State) (p : Nat) (f : Firewall → Firewall) (i : Nat) :
    (s.updFw p f).port i = s.port i := rfl
@[simp] theorem State.updHost_port (s : State) (f : HostIf → HostIf) (i : Nat) :
    (s.updHost f).port i = s.port i := rfl
@[simp] theorem State.updChip_port (s : State) (f : Chip → Chip) (i : Nat) :
    (s.updChip f).port i = s.port i := rfl
@[simp] theorem State.updJob_port (s : State) (f : Job → Job) (i : Nat) :
    (s.updJob f).port i = s.port i := rfl
@[simp] theorem State.updIngest_port (s : State) (f : Ingest → Ingest) (i : Nat) :
    (s.updIngest f).port i = s.port i := rfl
@[simp] theorem State.updFaults_port (s : State) (f : Faults → Faults) (i : Nat) :
    (s.updFaults f).port i = s.port i := rfl
@[simp] theorem State.updMgmt_port (s : State) (f : Mgmt → Mgmt) (i : Nat) :
    (s.updMgmt f).port i = s.port i := rfl
@[simp] theorem State.send_port (s : State) (x : Sent) (i : Nat) :
    (s.send x).port i = s.port i := rfl
@[simp] theorem State.store_port (s : State) (a : Nat) (bs : List Byte) (i : Nat) :
    (s.store a bs).port i = s.port i := rfl
@[simp] theorem State.mend_port (s : State) (a n : Nat) (i : Nat) :
    (s.mend a n).port i = s.port i := rfl
@[simp] theorem State.updEng_ap (s : State) (k : Nat) (f : EngineState → EngineState) (i : Nat) :
    (s.updEng k f).ap i = s.ap i := rfl
@[simp] theorem State.updStage_ap (s : State) (v : Nat) (f : Stage → Stage) (i : Nat) :
    (s.updStage v f).ap i = s.ap i := rfl
@[simp] theorem State.updPort_ap (s : State) (p : Nat) (f : Port → Port) (i : Nat) :
    (s.updPort p f).ap i = s.ap i := rfl
@[simp] theorem State.updMailbox_ap (s : State) (m : Nat) (f : MailboxRegs → MailboxRegs) (i : Nat) :
    (s.updMailbox m f).ap i = s.ap i := rfl
@[simp] theorem State.updFw_ap (s : State) (p : Nat) (f : Firewall → Firewall) (i : Nat) :
    (s.updFw p f).ap i = s.ap i := rfl
@[simp] theorem State.updHost_ap (s : State) (f : HostIf → HostIf) (i : Nat) :
    (s.updHost f).ap i = s.ap i := rfl
@[simp] theorem State.updChip_ap (s : State) (f : Chip → Chip) (i : Nat) :
    (s.updChip f).ap i = s.ap i := rfl
@[simp] theorem State.updJob_ap (s : State) (f : Job → Job) (i : Nat) :
    (s.updJob f).ap i = s.ap i := rfl
@[simp] theorem State.updIngest_ap (s : State) (f : Ingest → Ingest) (i : Nat) :
    (s.updIngest f).ap i = s.ap i := rfl
@[simp] theorem State.updFaults_ap (s : State) (f : Faults → Faults) (i : Nat) :
    (s.updFaults f).ap i = s.ap i := rfl
@[simp] theorem State.updMgmt_ap (s : State) (f : Mgmt → Mgmt) (i : Nat) :
    (s.updMgmt f).ap i = s.ap i := rfl
@[simp] theorem State.send_ap (s : State) (x : Sent) (i : Nat) :
    (s.send x).ap i = s.ap i := rfl
@[simp] theorem State.store_ap (s : State) (a : Nat) (bs : List Byte) (i : Nat) :
    (s.store a bs).ap i = s.ap i := rfl
@[simp] theorem State.mend_ap (s : State) (a n : Nat) (i : Nat) :
    (s.mend a n).ap i = s.ap i := rfl
@[simp] theorem State.updEng_mailbox (s : State) (k : Nat) (f : EngineState → EngineState) (i : Nat) :
    (s.updEng k f).mailbox i = s.mailbox i := rfl
@[simp] theorem State.updStage_mailbox (s : State) (v : Nat) (f : Stage → Stage) (i : Nat) :
    (s.updStage v f).mailbox i = s.mailbox i := rfl
@[simp] theorem State.updPort_mailbox (s : State) (p : Nat) (f : Port → Port) (i : Nat) :
    (s.updPort p f).mailbox i = s.mailbox i := rfl
@[simp] theorem State.updAp_mailbox (s : State) (p : Nat) (f : Appo → Appo) (i : Nat) :
    (s.updAp p f).mailbox i = s.mailbox i := rfl
@[simp] theorem State.updChip_mailbox (s : State) (f : Chip → Chip) (i : Nat) :
    (s.updChip f).mailbox i = s.mailbox i := rfl
@[simp] theorem State.updJob_mailbox (s : State) (f : Job → Job) (i : Nat) :
    (s.updJob f).mailbox i = s.mailbox i := rfl
@[simp] theorem State.updIngest_mailbox (s : State) (f : Ingest → Ingest) (i : Nat) :
    (s.updIngest f).mailbox i = s.mailbox i := rfl
@[simp] theorem State.updFaults_mailbox (s : State) (f : Faults → Faults) (i : Nat) :
    (s.updFaults f).mailbox i = s.mailbox i := rfl
@[simp] theorem State.updMgmt_mailbox (s : State) (f : Mgmt → Mgmt) (i : Nat) :
    (s.updMgmt f).mailbox i = s.mailbox i := rfl
@[simp] theorem State.send_mailbox (s : State) (x : Sent) (i : Nat) :
    (s.send x).mailbox i = s.mailbox i := rfl
@[simp] theorem State.store_mailbox (s : State) (a : Nat) (bs : List Byte) (i : Nat) :
    (s.store a bs).mailbox i = s.mailbox i := rfl
@[simp] theorem State.mend_mailbox (s : State) (a n : Nat) (i : Nat) :
    (s.mend a n).mailbox i = s.mailbox i := rfl
@[simp] theorem State.updEng_fw (s : State) (k : Nat) (f : EngineState → EngineState) (i : Nat) :
    (s.updEng k f).fw i = s.fw i := rfl
@[simp] theorem State.updStage_fw (s : State) (v : Nat) (f : Stage → Stage) (i : Nat) :
    (s.updStage v f).fw i = s.fw i := rfl
@[simp] theorem State.updPort_fw (s : State) (p : Nat) (f : Port → Port) (i : Nat) :
    (s.updPort p f).fw i = s.fw i := rfl
@[simp] theorem State.updAp_fw (s : State) (p : Nat) (f : Appo → Appo) (i : Nat) :
    (s.updAp p f).fw i = s.fw i := rfl
@[simp] theorem State.updChip_fw (s : State) (f : Chip → Chip) (i : Nat) :
    (s.updChip f).fw i = s.fw i := rfl
@[simp] theorem State.updJob_fw (s : State) (f : Job → Job) (i : Nat) :
    (s.updJob f).fw i = s.fw i := rfl
@[simp] theorem State.updIngest_fw (s : State) (f : Ingest → Ingest) (i : Nat) :
    (s.updIngest f).fw i = s.fw i := rfl
@[simp] theorem State.updFaults_fw (s : State) (f : Faults → Faults) (i : Nat) :
    (s.updFaults f).fw i = s.fw i := rfl
@[simp] theorem State.updMgmt_fw (s : State) (f : Mgmt → Mgmt) (i : Nat) :
    (s.updMgmt f).fw i = s.fw i := rfl
@[simp] theorem State.send_fw (s : State) (x : Sent) (i : Nat) :
    (s.send x).fw i = s.fw i := rfl
@[simp] theorem State.store_fw (s : State) (a : Nat) (bs : List Byte) (i : Nat) :
    (s.store a bs).fw i = s.fw i := rfl
@[simp] theorem State.mend_fw (s : State) (a n : Nat) (i : Nat) :
    (s.mend a n).fw i = s.fw i := rfl

end Sys2Proof.Machine
end

