-- ==== Sys2Proof/Laws/Frames.lean ====
section
/-!
SUPPORT. Sys2Proof/Laws/Frames.lean: what raising an event, halting a stage, a failed access and passing control on can
change, once for each shared operation.
-/
namespace Sys2Proof.Machine

/-! ### Events -/

theorem eventOnly_refl (s : State) : EventOnly s s := rfl

theorem eventOnly_trans {s t u : State} (h : EventOnly s t) (h' : EventOnly t u) : EventOnly s u := by
  unfold EventOnly at *
  rw [h', h]

theorem sendMsix_eventOnly (v : Nat) (s : State) : EventOnly s (sendMsix v s) := by
  unfold sendMsix; repeat' split
  all_goals rfl

theorem statusIrq_eventOnly (s : State) : EventOnly s (statusIrq s) := by
  unfold statusIrq; split
  · exact sendMsix_eventOnly 63 s
  · rfl

theorem putEntry_eventOnly (m flags : Nat) (rest : List Byte) (s : State) : EventOnly s (putEntry m flags rest s) := rfl

theorem signalMailbox_eventOnly (m : Nat) (s : State) : EventOnly s (signalMailbox m s) := by
  unfold signalMailbox; dsimp only; split
  · split
    · exact sendMsix_eventOnly _ s
    · rfl
  · rfl

theorem hostEvent_eventOnly (code unit cls seq : Nat) (bs : List Byte) (s : State) :
    EventOnly s (hostEvent code unit cls seq bs s) := by
  unfold hostEvent; dsimp only
  split <;> split
  · exact eventOnly_trans (eventOnly_trans (putEntry_eventOnly 0 2 _ s) (putEntry_eventOnly 0 6 _ _))
      (signalMailbox_eventOnly 0 _)
  · rfl
  · exact eventOnly_trans (putEntry_eventOnly 0 2 _ s) (signalMailbox_eventOnly 0 _)
  · rfl

theorem appoFlush_eventOnly (p : Nat) (xs : List (BitVec 512 × List Byte)) :
    ∀ s : State, EventOnly s (appoFlush p xs s) := by
  induction xs with
  | nil => intro s; rfl
  | cons x t ih =>
    intro s
    unfold appoFlush
    split
    · rfl
    · refine eventOnly_trans ?_ (ih _)
      rfl

theorem appoSend_eventOnly (p cls tag len status mbox addr : Nat) (data : List Byte) (s : State) :
    EventOnly s (appoSend p cls tag len status mbox addr data s) := by
  unfold appoSend; dsimp only; split
  · exact appoFlush_eventOnly ..
  · rfl
  · rfl

theorem guestEvent_eventOnly (code unit cls seq : Nat) (bs : List Byte) (s : State) :
    EventOnly s (guestEvent code unit cls seq bs s) := by
  unfold guestEvent; dsimp only; split
  · exact appoSend_eventOnly ..
  · split
    · exact eventOnly_trans (appoSend_eventOnly ..) (appoSend_eventOnly ..)
    · rfl

/-- Raising an event changes nothing but the event counters, the mailboxes, the management queues and what is sent. -/
theorem raise_eventOnly (code unit cls : Nat) (items : List (Nat × Nat)) (s : State) :
    EventOnly s (raise code unit cls items s) := by
  unfold raise; split
  · rfl
  · refine eventOnly_trans (eventOnly_trans ?_ (hostEvent_eventOnly ..)) (guestEvent_eventOnly ..)
    rfl

theorem raiseParser_eventOnly (code : Nat) (items : List (Nat × Nat)) (s : State) :
    EventOnly s (raiseParser code items s) := raise_eventOnly ..

theorem jobEvent_eventOnly (code reason : Nat) (s : State) : EventOnly s (jobEvent code reason s) := raise_eventOnly ..

/-! ### Halts -/

theorem haltOnly_of_eventOnly {s t : State} (h : EventOnly s t) : HaltOnly s t := by
  unfold EventOnly at h
  unfold HaltOnly
  rw [h]

theorem haltOnly_refl (s : State) : HaltOnly s s := rfl

theorem haltOnly_trans {s t u : State} (h : HaltOnly s t) (h' : HaltOnly t u) : HaltOnly s u := by
  unfold HaltOnly at *
  rw [h', h]

theorem forEach_haltOnly {α : Type} (xs : List α) (f : α → State → State) (hf : ∀ x s, HaltOnly s (f x s)) :
    ∀ s : State, HaltOnly s (forEach xs f s) := by
  induction xs with
  | nil => intro s; rfl
  | cons x t ih => intro s; exact haltOnly_trans (hf x s) (ih (f x s))

theorem updEng_haltOnly (s : State) (k : Nat) (f : EngineState → EngineState) : HaltOnly s (s.updEng k f) := rfl

theorem updStage_haltOnly (s : State) (v : Nat) (f : Stage → Stage) : HaltOnly s (s.updStage v f) := rfl

/-- Halting a stage changes nothing but stages and engines. -/
theorem haltStage_haltOnly (v code : Nat) (final : Bool) (s : State) : HaltOnly s (haltStage v code final s) := by
  unfold haltStage; dsimp only; split
  · rfl
  · split
    · split <;> rfl
    · split
      · exact haltOnly_trans (updStage_haltOnly s v _)
          (forEach_haltOnly _ _ (fun k s => updEng_haltOnly s k EngineState.halt) _)
      · exact haltOnly_trans (haltOnly_trans (updStage_haltOnly s v _)
          (forEach_haltOnly _ _ (fun k s => updEng_haltOnly s k EngineState.halt) _)) (updEng_haltOnly _ _ _)

theorem haltOf_haltOnly (v : Option Nat) (code : Nat) (s : State) : HaltOnly s (haltOf v code s) := by
  unfold haltOf; split
  · exact haltStage_haltOnly ..
  · rfl

theorem haltUpdate_haltOnly (v code : Nat) (s : State) : HaltOnly s (haltUpdate v code s) := rfl

theorem vecFault_haltOnly (k reason : Nat) (s : State) : HaltOnly s (vecFault k reason s) := by
  unfold vecFault; dsimp only
  refine haltOnly_trans (haltOnly_of_eventOnly (raise_eventOnly 0x0107 (engUnit k).1 (engUnit k).2
    [(4, (s.eng k).pc), (1, reason)] s)) ?_
  split
  · split
    · exact haltUpdate_haltOnly ..
    · rfl
  · exact haltOf_haltOnly ..

theorem addrFault_haltOnly (unit cls : Nat) (v : Option Nat) (addr : Nat) (s : State) :
    HaltOnly s (addrFault unit cls v addr s) :=
  haltOnly_trans (haltOnly_of_eventOnly (raise_eventOnly ..)) (haltOf_haltOnly ..)

theorem dieAbsent_haltOnly (unit cls : Nat) (v : Option Nat) (die addr : Nat) (s : State) :
    HaltOnly s (dieAbsent unit cls v die addr s) :=
  haltOnly_trans (haltOnly_of_eventOnly (raise_eventOnly ..)) (haltOf_haltOnly ..)

theorem lgBranch_haltOnly (k : Nat) (s : State) : HaltOnly s (lgBranch k s) :=
  haltOnly_trans (haltOnly_of_eventOnly (raise_eventOnly ..)) (haltOf_haltOnly ..)

/-! ### Control -/

theorem landNull_haltOnly (k t : Nat) (s : State) : HaltOnly s (landNull k t s) := by
  unfold landNull; split
  · rfl
  · split
    · rfl
    · split
      · rfl
      · split
        · exact lgBranch_haltOnly ..
        · rfl

theorem land_haltOnly (k t : Nat) (branch : Bool) (s : State) : HaltOnly s (land k t branch s) := by
  unfold land; split
  · exact landNull_haltOnly ..
  · split
    · rfl
    · split
      · exact lgBranch_haltOnly ..
      · rfl

theorem branchTo_haltOnly (k t : Nat) (s : State) : HaltOnly s (branchTo k t s) :=
  haltOnly_trans (updEng_haltOnly s k _) (land_haltOnly ..)

/-! ### What these frames keep -/

theorem EventOnly.mem_eq {s t : State} (h : EventOnly s t) : t.mem = s.mem := by rw [h]
theorem EventOnly.engines_eq {s t : State} (h : EventOnly s t) : t.engines = s.engines := by rw [h]
theorem EventOnly.stages_eq {s t : State} (h : EventOnly s t) : t.stages = s.stages := by rw [h]
theorem EventOnly.chip_eq {s t : State} (h : EventOnly s t) : t.chip = s.chip := by rw [h]
theorem EventOnly.job_eq {s t : State} (h : EventOnly s t) : t.job = s.job := by rw [h]
theorem EventOnly.ports_eq {s t : State} (h : EventOnly s t) : t.ports = s.ports := by rw [h]
theorem EventOnly.ingest_eq {s t : State} (h : EventOnly s t) : t.ingest = s.ingest := by rw [h]
theorem EventOnly.faults_eq {s t : State} (h : EventOnly s t) : t.faults = s.faults := by rw [h]
theorem EventOnly.flash_eq {s t : State} (h : EventOnly s t) : t.flash = s.flash := by rw [h]
theorem EventOnly.running_eq {s t : State} (h : EventOnly s t) : t.running = s.running := by rw [h]
theorem HaltOnly.mem_eq {s t : State} (h : HaltOnly s t) : t.mem = s.mem := by rw [h]
theorem HaltOnly.chip_eq {s t : State} (h : HaltOnly s t) : t.chip = s.chip := by rw [h]
theorem HaltOnly.job_eq {s t : State} (h : HaltOnly s t) : t.job = s.job := by rw [h]
theorem HaltOnly.ports_eq {s t : State} (h : HaltOnly s t) : t.ports = s.ports := by rw [h]
theorem HaltOnly.faults_eq {s t : State} (h : HaltOnly s t) : t.faults = s.faults := by rw [h]
theorem HaltOnly.flash_eq {s t : State} (h : HaltOnly s t) : t.flash = s.flash := by rw [h]

end Sys2Proof.Machine
end

