-- ==== Sys2Proof/Laws/KeepOps.lean ====
section
/-!
SUPPORT. Sys2Proof/Laws/KeepOps.lean: the shared operations keep the invariant.
-/
namespace Sys2Proof.Machine

/-- `Keep`, asked of a state that is written out field by field. -/
def KeepLit (q : List Instr) (n : Nat) (s : State) : Prop := Keep q n s

theorem keep_lit (q : List Instr) (n : Nat) {p : List Instr} {fc : Nat} {c : Chip} {m : Memory} {bw : List Nat} {hm : Memory}
    {en : Store EngineState} {st : Store Stage} {j : Job} {ho : HostIf} {po : Store Port} {ro : List Nat}
    {tr : List OutMsg} {ph : Store Phrase} {cs : Store Nat} {nf : Store (List PhraseMsg)} {ap : Store Appo} {ig : Ingest} {fa : Faults} {fl : Flash}
    {mg : Mgmt} {ev : Store W32} {ru : List Running} {se : List Sent} :
    Keep q n (State.mk p fc c m bw hm en st j ho po ro tr ph cs nf ap ig fa fl mg ev ru se) =
      KeepLit q n (State.mk p fc c m bw hm en st j ho po ro tr ph cs nf ap ig fa fl mg ev ru se) := rfl

/-- A state that differs only where `Keep` does not look. -/
theorem keep_mk {q : List Instr} {n : Nat} {s : State} {fc : Nat} {bw : List Nat}
    {en : Store EngineState} {st : Store Stage} {ho : HostIf} {po : Store Port} {ro : List Nat} {tr : List OutMsg}
    {ph : Store Phrase} {cs : Store Nat} {nf : Store (List PhraseMsg)} {ap : Store Appo} {ig : Ingest} {fa : Faults} {mg : Mgmt} {ev : Store W32}
    {ru : List Running} {se : List Sent} (h : Keep q n s) :
    KeepLit q n
      (State.mk s.pending fc s.chip s.mem bw s.hostMem en st s.job ho po ro tr ph cs nf ap ig fa s.flash mg ev ru se) :=
  h

theorem keep_mk_chip {q : List Instr} {n : Nat} {s : State} {fc : Nat} {bw : List Nat} {c : Chip}
    {en : Store EngineState} {st : Store Stage} {ho : HostIf} {po : Store Port} {ro : List Nat} {tr : List OutMsg}
    {ph : Store Phrase} {cs : Store Nat} {nf : Store (List PhraseMsg)} {ap : Store Appo} {ig : Ingest} {fa : Faults} {mg : Mgmt} {ev : Store W32}
    {ru : List Running} {se : List Sent} (h : Keep q n s) (hb : c.bringup = s.chip.bringup)
    (hs : c.service = s.chip.service) (ho' : c.outOfService = s.chip.outOfService) :
    KeepLit q n
      (State.mk s.pending fc c s.mem bw s.hostMem en st s.job ho po ro tr ph cs nf ap ig fa s.flash mg ev ru se) := by
  obtain ⟨h1, h2, h3, h4, h5, h6, h7⟩ := h
  exact ⟨h1, h2, h3, h4, by simpa [hb] using h5, by simpa [hb, hs, ho'] using h6, h7⟩

theorem keep_mk_job {q : List Instr} {n : Nat} {s : State} {fc : Nat} {bw : List Nat} {j : Job}
    {en : Store EngineState} {st : Store Stage} {ho : HostIf} {po : Store Port} {ro : List Nat} {tr : List OutMsg}
    {ph : Store Phrase} {cs : Store Nat} {nf : Store (List PhraseMsg)} {ap : Store Appo} {ig : Ingest} {fa : Faults} {mg : Mgmt} {ev : Store W32}
    {ru : List Running} {se : List Sent} (h : Keep q n s) (hj : j.state ≤ 4) :
    KeepLit q n
      (State.mk s.pending fc s.chip s.mem bw s.hostMem en st j ho po ro tr ph cs nf ap ig fa s.flash mg ev ru se) := by
  obtain ⟨h1, h2, h3, h4, h5, h6, _⟩ := h
  exact ⟨h1, h2, h3, h4, h5, h6, hj⟩

theorem keep_mk_flash {q : List Instr} {n : Nat} {s : State} {fc : Nat} {bw : List Nat} {fl : Flash}
    {en : Store EngineState} {st : Store Stage} {ho : HostIf} {po : Store Port} {ro : List Nat} {tr : List OutMsg}
    {ph : Store Phrase} {cs : Store Nat} {nf : Store (List PhraseMsg)} {ap : Store Appo} {ig : Ingest} {fa : Faults} {mg : Mgmt} {ev : Store W32}
    {ru : List Running} {se : List Sent} (h : Keep q n s) (hf : s.flash.svn ≤ fl.svn) :
    KeepLit q n
      (State.mk s.pending fc s.chip s.mem bw s.hostMem en st s.job ho po ro tr ph cs nf ap ig fa fl mg ev ru se) := by
  obtain ⟨h1, h2, h3⟩ := h
  exact ⟨h1, Nat.le_trans h2 hf, h3⟩

theorem keep_mk_hostMem {q : List Instr} {n : Nat} {s : State} {fc : Nat} {bw : List Nat} {a : Nat} {bs : List Byte}
    {en : Store EngineState} {st : Store Stage} {ho : HostIf} {po : Store Port} {ro : List Nat} {tr : List OutMsg}
    {ph : Store Phrase} {cs : Store Nat} {nf : Store (List PhraseMsg)} {ap : Store Appo} {ig : Ingest} {fa : Faults} {mg : Mgmt} {ev : Store W32}
    {ru : List Running} {se : List Sent} (h : Keep q n s) :
    KeepLit q n
      (State.mk s.pending fc s.chip s.mem bw (memWriteBytes s.hostMem a bs) en st s.job ho po ro tr ph cs nf ap ig fa
        s.flash mg ev ru se) := by
  obtain ⟨h1, h2, h3, h4, h5⟩ := h
  exact ⟨h1, h2, h3, wf_memWriteBytes bs _ _ h4, h5⟩

theorem State.updEng_keep {q : List Instr} {n : Nat} (s : State) (k : Nat) (f : EngineState → EngineState)
    (h : Keep q n s) : Keep q n (s.updEng k f) := h

theorem State.updStage_keep {Q : List Instr} {V : Nat} (s : State) (v : Nat) (f : Stage → Stage) (hK : Keep Q V s) :
    Keep Q V (State.updStage s v f) := by
  unfold State.updStage
  try dsimp only
  repeat' (first
    | with_reducible exact hK | with_reducible assumption | (show _ = _; rfl) | split
    | (simp only [keep_lit]; first | with_reducible apply keep_mk | with_reducible apply keep_mk_hostMem | with_reducible apply keep_mk_chip | with_reducible apply keep_mk_flash)
    | intro _)

theorem State.updPort_keep {Q : List Instr} {V : Nat} (s : State) (p : Nat) (f : Port → Port) (hK : Keep Q V s) :
    Keep Q V (State.updPort s p f) := by
  unfold State.updPort
  try dsimp only
  repeat' (first
    | with_reducible exact hK | with_reducible assumption | (show _ = _; rfl) | split
    | (simp only [keep_lit]; first | with_reducible apply keep_mk | with_reducible apply keep_mk_hostMem | with_reducible apply keep_mk_chip | with_reducible apply keep_mk_flash)
    | intro _)

theorem State.updMailbox_keep {Q : List Instr} {V : Nat} (s : State) (m : Nat) (f : MailboxRegs → MailboxRegs)
    (hK : Keep Q V s) :
    Keep Q V (State.updMailbox s m f) := by
  unfold State.updMailbox
  try dsimp only
  repeat' (first
    | with_reducible exact hK | with_reducible assumption | (show _ = _; rfl) | split
    | (simp only [keep_lit]; first | with_reducible apply keep_mk | with_reducible apply keep_mk_hostMem | with_reducible apply keep_mk_chip | with_reducible apply keep_mk_flash)
    | intro _)

theorem State.updAp_keep {Q : List Instr} {V : Nat} (s : State) (p : Nat) (f : Appo → Appo) (hK : Keep Q V s) :
    Keep Q V (State.updAp s p f) := by
  unfold State.updAp
  try dsimp only
  repeat' (first
    | with_reducible exact hK | with_reducible assumption | (show _ = _; rfl) | split
    | (simp only [keep_lit]; first | with_reducible apply keep_mk | with_reducible apply keep_mk_hostMem | with_reducible apply keep_mk_chip | with_reducible apply keep_mk_flash)
    | intro _)

/-- What an outcome keeps: nothing is asked of a fault or a refusal. -/
def KeepOut (q : List Instr) (n : Nat) : Host.Outcome State Fault Refusal → Prop
  | .next t => Keep q n t
  | _ => True

theorem keepOut_next {q : List Instr} {n : Nat} {s : State} (h : Keep q n s) : KeepOut q n (.next s) := h

theorem State.updChip_keep {q : List Instr} {n : Nat} (s : State) (f : Chip → Chip) (h : Keep q n s)
    (hb : ∀ c, (f c).bringup = c.bringup) (hs : ∀ c, (f c).service = c.service)
    (ho : ∀ c, (f c).outOfService = c.outOfService) : Keep q n (s.updChip f) := by
  obtain ⟨h1, h2, h3, h4, h5, h6, h7⟩ := h
  exact ⟨h1, h2, h3, h4, by simpa [State.updChip, hb] using h5, by simpa [State.updChip, hb, hs, ho] using h6, h7⟩

theorem State.updJob_keep {q : List Instr} {n : Nat} (s : State) (f : Job → Job) (h : Keep q n s)
    (hj : ∀ j, (f j).state ≤ 4) : Keep q n (s.updJob f) := by
  obtain ⟨h1, h2, h3, h4, h5, h6, h7⟩ := h
  exact ⟨h1, h2, h3, h4, h5, h6, hj _⟩

theorem State.updJob_keep_same {q : List Instr} {n : Nat} (s : State) (f : Job → Job) (h : Keep q n s)
    (hj : ∀ j, (f j).state = j.state) : Keep q n (s.updJob f) := by
  obtain ⟨h1, h2, h3, h4, h5, h6, h7⟩ := h
  exact ⟨h1, h2, h3, h4, h5, h6, by simpa [State.updJob, hj] using h7⟩

theorem State.updIngest_keep {Q : List Instr} {V : Nat} (s : State) (f : Ingest → Ingest) (hK : Keep Q V s) :
    Keep Q V (State.updIngest s f) := by
  unfold State.updIngest
  try dsimp only
  repeat' (first
    | with_reducible exact hK | with_reducible assumption | (show _ = _; rfl) | split
    | (simp only [keep_lit]; first | with_reducible apply keep_mk | with_reducible apply keep_mk_hostMem | with_reducible apply keep_mk_chip | with_reducible apply keep_mk_flash)
    | intro _)

theorem State.updFaults_keep {Q : List Instr} {V : Nat} (s : State) (f : Faults → Faults) (hK : Keep Q V s) :
    Keep Q V (State.updFaults s f) := by
  unfold State.updFaults
  try dsimp only
  repeat' (first
    | with_reducible exact hK | with_reducible assumption | (show _ = _; rfl) | split
    | (simp only [keep_lit]; first | with_reducible apply keep_mk | with_reducible apply keep_mk_hostMem | with_reducible apply keep_mk_chip | with_reducible apply keep_mk_flash)
    | intro _)

theorem State.updMgmt_keep {Q : List Instr} {V : Nat} (s : State) (f : Mgmt → Mgmt) (hK : Keep Q V s) :
    Keep Q V (State.updMgmt s f) := by
  unfold State.updMgmt
  try dsimp only
  repeat' (first
    | with_reducible exact hK | with_reducible assumption | (show _ = _; rfl) | split
    | (simp only [keep_lit]; first | with_reducible apply keep_mk | with_reducible apply keep_mk_hostMem | with_reducible apply keep_mk_chip | with_reducible apply keep_mk_flash)
    | intro _)

theorem State.send_keep {Q : List Instr} {V : Nat} (s : State) (x : Sent) (hK : Keep Q V s) :
    Keep Q V (State.send s x) := by
  unfold State.send
  try dsimp only
  repeat' (first
    | with_reducible exact hK | with_reducible assumption | (show _ = _; rfl) | split
    | (simp only [keep_lit]; first | with_reducible apply keep_mk | with_reducible apply keep_mk_hostMem | with_reducible apply keep_mk_chip | with_reducible apply keep_mk_flash)
    | intro _)

theorem State.store_keep {q : List Instr} {n : Nat} (s : State) (a : Nat) (bs : List Byte) (h : Keep q n s) :
    Keep q n (s.store a bs) := by
  obtain ⟨h1, h2, h3, h4⟩ := h
  exact ⟨h1, h2, wf_memWriteBytes bs _ _ h3, h4⟩

theorem hostMem_keep {q : List Instr} {n : Nat} (s : State) (a : Nat) (bs : List Byte) (h : Keep q n s) :
    Keep q n { s with hostMem := memWriteBytes s.hostMem a bs } := by
  obtain ⟨h1, h2, h3, h4, h5⟩ := h
  exact ⟨h1, h2, h3, wf_memWriteBytes bs _ _ h4, h5⟩

theorem forEach_keep {q : List Instr} {n : Nat} {α : Type} (xs : List α) (f : α → State → State) (s : State)
    (hf : ∀ x y, Keep q n y → Keep q n (f x y)) (h : Keep q n s) : Keep q n (forEach xs f s) := by
  unfold forEach
  induction xs generalizing s with
  | nil => exact h
  | cons x t ih => exact ih _ (hf x s h)

theorem sendMsix_keep {Q : List Instr} {V : Nat} (v : Nat) (s : State) (hK : Keep Q V s) :
    Keep Q V (sendMsix v s) := by
  unfold sendMsix
  try dsimp only
  repeat' (first
    | with_reducible exact hK | with_reducible assumption | with_reducible apply State.send_keep | (show _ = _; rfl)
    | split
    | (simp only [keep_lit]; first | with_reducible apply keep_mk | with_reducible apply keep_mk_hostMem | with_reducible apply keep_mk_chip | with_reducible apply keep_mk_flash)
    | intro _)

theorem statusIrq_keep {Q : List Instr} {V : Nat} (s : State) (hK : Keep Q V s) :
    Keep Q V (statusIrq s) := by
  unfold statusIrq
  try dsimp only
  repeat' (first
    | with_reducible exact hK | with_reducible assumption | with_reducible apply sendMsix_keep | split | intro _)

theorem putEntry_keep {Q : List Instr} {V : Nat} (m : Nat) (flags : Nat) (rest : List Byte) (s : State)
    (hK : Keep Q V s) :
    Keep Q V (putEntry m flags rest s) := by
  unfold putEntry
  try dsimp only
  repeat' (first
    | with_reducible exact hK | with_reducible assumption | with_reducible apply State.updMailbox_keep
    | (show _ = _; rfl) | split
    | (simp only [keep_lit]; first | with_reducible apply keep_mk | with_reducible apply keep_mk_hostMem | with_reducible apply keep_mk_chip | with_reducible apply keep_mk_flash)
    | intro _)

theorem signalMailbox_keep {Q : List Instr} {V : Nat} (m : Nat) (s : State) (hK : Keep Q V s) :
    Keep Q V (signalMailbox m s) := by
  unfold signalMailbox
  try dsimp only
  repeat' (first
    | with_reducible exact hK | with_reducible assumption | with_reducible apply State.updMailbox_keep
    | with_reducible apply sendMsix_keep | (show _ = _; rfl) | split
    | (simp only [keep_lit]; first | with_reducible apply keep_mk | with_reducible apply keep_mk_hostMem | with_reducible apply keep_mk_chip | with_reducible apply keep_mk_flash)
    | intro _)

theorem hostEvent_keep {Q : List Instr} {V : Nat} (code unit cls seq : Nat) (bs : List Byte) (s : State)
    (hK : Keep Q V s) :
    Keep Q V (hostEvent code unit cls seq bs s) := by
  unfold hostEvent
  try dsimp only
  repeat' (first
    | with_reducible exact hK | with_reducible assumption | with_reducible apply putEntry_keep
    | with_reducible apply signalMailbox_keep | (show _ = _; rfl) | split
    | (simp only [keep_lit]; first | with_reducible apply keep_mk | with_reducible apply keep_mk_hostMem | with_reducible apply keep_mk_chip | with_reducible apply keep_mk_flash)
    | intro _)

theorem appoFlush_keep {q : List Instr} {n : Nat} (p : Nat) (xs : List (BitVec 512 × List Byte)) :
    ∀ s : State, Keep q n s → Keep q n (appoFlush p xs s) := by
  induction xs with
  | nil => intro s h; exact h
  | cons x t ih =>
    intro s h
    unfold appoFlush
    split
    · exact h
    · exact ih _ h

theorem appoSend_keep {Q : List Instr} {V : Nat} (p cls tag len status mbox addr : Nat) (data : List Byte) (s : State)
    (hK : Keep Q V s) :
    Keep Q V (appoSend p cls tag len status mbox addr data s) := by
  unfold appoSend
  try dsimp only
  repeat' (first
    | with_reducible exact hK | with_reducible assumption | with_reducible apply State.updAp_keep
    | with_reducible apply appoFlush_keep | (show _ = _; rfl) | split
    | (simp only [keep_lit]; first | with_reducible apply keep_mk | with_reducible apply keep_mk_hostMem | with_reducible apply keep_mk_chip | with_reducible apply keep_mk_flash)
    | intro _)

theorem guestRequest_keep {Q : List Instr} {V : Nat} (a n : Nat) (write : Bool) (place engine : Nat) (data : List Byte) (s : State)
    (hK : Keep Q V s) :
    Keep Q V (guestRequest a n write place engine data s) := by
  unfold guestRequest
  try dsimp only
  repeat' (first
    | with_reducible exact hK | with_reducible assumption | with_reducible apply State.updAp_keep
    | with_reducible apply appoSend_keep | (show _ = _; rfl) | split
    | (simp only [keep_lit]; first | with_reducible apply keep_mk | with_reducible apply keep_mk_hostMem | with_reducible apply keep_mk_chip | with_reducible apply keep_mk_flash)
    | intro _)

theorem guestEvent_keep {Q : List Instr} {V : Nat} (code unit cls seq : Nat) (bs : List Byte) (s : State)
    (hK : Keep Q V s) :
    Keep Q V (guestEvent code unit cls seq bs s) := by
  unfold guestEvent
  try dsimp only
  repeat' (first
    | with_reducible exact hK | with_reducible assumption | with_reducible apply appoSend_keep | split | intro _)

theorem raise_keep {Q : List Instr} {V : Nat} (code unit cls : Nat) (items : List (Nat × Nat)) (s : State)
    (hK : Keep Q V s) :
    Keep Q V (raise code unit cls items s) := by
  unfold raise
  try dsimp only
  repeat' (first
    | with_reducible exact hK | with_reducible assumption | with_reducible apply State.updMgmt_keep
    | with_reducible apply hostEvent_keep | with_reducible apply guestEvent_keep | (show _ = _; rfl) | split
    | (simp only [keep_lit]; first | with_reducible apply keep_mk | with_reducible apply keep_mk_hostMem | with_reducible apply keep_mk_chip | with_reducible apply keep_mk_flash)
    | intro _)

theorem raiseParser_keep {Q : List Instr} {V : Nat} (code : Nat) (items : List (Nat × Nat)) (s : State)
    (hK : Keep Q V s) :
    Keep Q V (raiseParser code items s) := by
  unfold raiseParser
  try dsimp only
  repeat' (first
    | with_reducible exact hK | with_reducible assumption | with_reducible apply raise_keep | split | intro _)

theorem noteRecord_keep {Q : List Instr} {V : Nat} (r : RecordReq) (s : State) (hK : Keep Q V s) :
    Keep Q V (noteRecord r s) := by
  unfold noteRecord
  try dsimp only
  repeat' (first
    | with_reducible exact hK | with_reducible assumption | with_reducible apply State.updFaults_keep
    | (show _ = _; rfl) | split
    | (simp only [keep_lit]; first | with_reducible apply keep_mk | with_reducible apply keep_mk_hostMem | with_reducible apply keep_mk_chip | with_reducible apply keep_mk_flash)
    | intro _)

theorem haltStage_keep {Q : List Instr} {V : Nat} (v code : Nat) (final : Bool) (s : State) (hK : Keep Q V s) :
    Keep Q V (haltStage v code final s) := by
  unfold haltStage
  try dsimp only
  repeat' (first
    | with_reducible exact hK | with_reducible assumption | with_reducible apply State.updEng_keep
    | with_reducible apply State.updStage_keep | with_reducible apply forEach_keep | (show _ = _; rfl) | split
    | (simp only [keep_lit]; first | with_reducible apply keep_mk | with_reducible apply keep_mk_hostMem | with_reducible apply keep_mk_chip | with_reducible apply keep_mk_flash)
    | intro _)

theorem haltOf_keep {Q : List Instr} {V : Nat} (v : Option Nat) (code : Nat) (s : State) (hK : Keep Q V s) :
    Keep Q V (haltOf v code s) := by
  unfold haltOf
  try dsimp only
  repeat' (first
    | with_reducible exact hK | with_reducible assumption | with_reducible apply haltStage_keep | (show _ = _; rfl)
    | split
    | (simp only [keep_lit]; first | with_reducible apply keep_mk | with_reducible apply keep_mk_hostMem | with_reducible apply keep_mk_chip | with_reducible apply keep_mk_flash)
    | intro _)

theorem haltUpdate_keep {Q : List Instr} {V : Nat} (v code : Nat) (s : State) (hK : Keep Q V s) :
    Keep Q V (haltUpdate v code s) := by
  unfold haltUpdate
  try dsimp only
  repeat' (first
    | with_reducible exact hK | with_reducible assumption | with_reducible apply State.updEng_keep
    | with_reducible apply State.updStage_keep | (show _ = _; rfl) | split
    | (simp only [keep_lit]; first | with_reducible apply keep_mk | with_reducible apply keep_mk_hostMem | with_reducible apply keep_mk_chip | with_reducible apply keep_mk_flash)
    | intro _)

theorem vecFault_keep {Q : List Instr} {V : Nat} (k reason : Nat) (s : State) (hK : Keep Q V s) :
    Keep Q V (vecFault k reason s) := by
  unfold vecFault
  try dsimp only
  repeat' (first
    | with_reducible exact hK | with_reducible assumption | with_reducible apply raise_keep
    | with_reducible apply haltOf_keep | with_reducible apply haltUpdate_keep | (show _ = _; rfl) | split
    | (simp only [keep_lit]; first | with_reducible apply keep_mk | with_reducible apply keep_mk_hostMem | with_reducible apply keep_mk_chip | with_reducible apply keep_mk_flash)
    | intro _)

theorem addrFault_keep {Q : List Instr} {V : Nat} (unit cls : Nat) (v : Option Nat) (addr : Nat) (s : State)
    (hK : Keep Q V s) :
    Keep Q V (addrFault unit cls v addr s) := by
  unfold addrFault
  try dsimp only
  repeat' (first
    | with_reducible exact hK | with_reducible assumption | with_reducible apply raise_keep
    | with_reducible apply haltOf_keep | split | intro _)

theorem dieAbsent_keep {Q : List Instr} {V : Nat} (unit cls : Nat) (v : Option Nat) (die addr : Nat) (s : State)
    (hK : Keep Q V s) :
    Keep Q V (dieAbsent unit cls v die addr s) := by
  unfold dieAbsent
  try dsimp only
  repeat' (first
    | with_reducible exact hK | with_reducible assumption | with_reducible apply raise_keep
    | with_reducible apply haltOf_keep | split | intro _)

theorem State.mend_keep {Q : List Instr} {V : Nat} (s : State) (a n : Nat) (hK : Keep Q V s) :
    Keep Q V (State.mend s a n) := by
  unfold State.mend
  try dsimp only
  repeat' (first
    | with_reducible exact hK | with_reducible assumption | (show _ = _; rfl) | split
    | (simp only [keep_lit]; first | with_reducible apply keep_mk | with_reducible apply keep_mk_hostMem | with_reducible apply keep_mk_chip | with_reducible apply keep_mk_flash)
    | intro _)

theorem memBadNoHalt_keep {Q : List Instr} {V : Nat} (v : Option Nat) (w issuer issuerCls : Nat) (s : State)
    (hK : Keep Q V s) :
    Keep Q V (memBadNoHalt v w issuer issuerCls s) := by
  unfold memBadNoHalt
  try dsimp only
  repeat' (first
    | with_reducible exact hK | with_reducible assumption | with_reducible apply raise_keep
    | with_reducible apply noteRecord_keep | split | intro _)

theorem memBad_keep {Q : List Instr} {V : Nat} (v : Option Nat) (w issuer issuerCls : Nat) (s : State)
    (hK : Keep Q V s) :
    Keep Q V (memBad v w issuer issuerCls s) := by
  unfold memBad
  try dsimp only
  repeat' (first
    | with_reducible exact hK | with_reducible assumption | with_reducible apply haltOf_keep
    | with_reducible apply memBadNoHalt_keep | split | intro _)

theorem accessFault_keep {Q : List Instr} {V : Nat} (k unit cls a : Nat) (r : Access) (s : State) (hK : Keep Q V s) :
    Keep Q V (accessFault k unit cls a r s) := by
  unfold accessFault
  try dsimp only
  repeat' (first
    | with_reducible exact hK | with_reducible assumption | with_reducible apply raise_keep
    | with_reducible apply haltOf_keep | with_reducible apply vecFault_keep | with_reducible apply addrFault_keep
    | with_reducible apply dieAbsent_keep | with_reducible apply memBad_keep | (show _ = _; rfl) | split
    | (simp only [keep_lit]; first | with_reducible apply keep_mk | with_reducible apply keep_mk_hostMem | with_reducible apply keep_mk_chip | with_reducible apply keep_mk_flash)
    | intro _)

theorem hourEnd_keep {Q : List Instr} {V : Nat} (s : State) (hK : Keep Q V s) :
    Keep Q V (hourEnd s) := by
  unfold hourEnd
  try dsimp only
  repeat' (first
    | with_reducible exact hK | with_reducible assumption | with_reducible apply State.updFaults_keep
    | with_reducible apply forEach_keep | with_reducible apply noteRecord_keep | (show _ = _; rfl) | split
    | (simp only [keep_lit]; first | with_reducible apply keep_mk | with_reducible apply keep_mk_hostMem | with_reducible apply keep_mk_chip | with_reducible apply keep_mk_flash)
    | intro _)

theorem idleTick_keep {Q : List Instr} {V : Nat} (s : State) (hK : Keep Q V s) :
    Keep Q V (idleTick s) := by
  unfold idleTick
  try dsimp only
  repeat' (first
    | with_reducible exact hK | with_reducible assumption | with_reducible apply State.updChip_keep
    | with_reducible apply State.updFaults_keep | with_reducible apply hourEnd_keep | (show _ = _; rfl) | split
    | (simp only [keep_lit]; first | with_reducible apply keep_mk | with_reducible apply keep_mk_hostMem | with_reducible apply keep_mk_chip | with_reducible apply keep_mk_flash)
    | intro _)

theorem instrFault_keep {Q : List Instr} {V : Nat} (k a : Nat) (s : State) (hK : Keep Q V s) :
    Keep Q V (instrFault k a s) := by
  unfold instrFault
  try dsimp only
  repeat' (first
    | with_reducible exact hK | with_reducible assumption | with_reducible apply State.mend_keep
    | with_reducible apply memBad_keep | split | intro _)

theorem unitFault_keep {Q : List Instr} {V : Nat} (k : Nat) (x : Nat × Nat) (w : Nat) (s : State) (hK : Keep Q V s) :
    Keep Q V (unitFault k x w s) := by
  unfold unitFault
  try dsimp only
  repeat' (first
    | with_reducible exact hK | with_reducible assumption | with_reducible apply raise_keep
    | with_reducible apply noteRecord_keep | with_reducible apply haltOf_keep | split | intro _)

theorem regFault_keep {Q : List Instr} {V : Nat} (k reg : Nat) (s : State) (hK : Keep Q V s) :
    Keep Q V (regFault k reg s) := by
  unfold regFault
  try dsimp only
  repeat' (first
    | with_reducible exact hK | with_reducible assumption | with_reducible apply unitFault_keep | split | intro _)

theorem queueFault_keep {Q : List Instr} {V : Nat} (k : Nat) (dma : Bool) (s : State) (hK : Keep Q V s) :
    Keep Q V (queueFault k dma s) := by
  unfold queueFault
  try dsimp only
  repeat' (first
    | with_reducible exact hK | with_reducible assumption | with_reducible apply unitFault_keep | split | intro _)

theorem lgBranch_keep {Q : List Instr} {V : Nat} (k : Nat) (s : State) (hK : Keep Q V s) :
    Keep Q V (lgBranch k s) := by
  unfold lgBranch
  try dsimp only
  repeat' (first
    | with_reducible exact hK | with_reducible assumption | with_reducible apply raise_keep
    | with_reducible apply haltOf_keep | split | intro _)

theorem landNull_keep {Q : List Instr} {V : Nat} (k t : Nat) (s : State) (hK : Keep Q V s) :
    Keep Q V (landNull k t s) := by
  unfold landNull
  try dsimp only
  repeat' (first
    | with_reducible exact hK | with_reducible assumption | with_reducible apply State.updEng_keep
    | with_reducible apply lgBranch_keep | (show _ = _; rfl) | split
    | (simp only [keep_lit]; first | with_reducible apply keep_mk | with_reducible apply keep_mk_hostMem | with_reducible apply keep_mk_chip | with_reducible apply keep_mk_flash)
    | intro _)

theorem exitGroup_keep {Q : List Instr} {V : Nat} (k g hi : Nat) (s : State) (hK : Keep Q V s) :
    Keep Q V (exitGroup k g hi s) := by
  unfold exitGroup
  try dsimp only
  repeat' (first
    | with_reducible exact hK | with_reducible assumption | with_reducible apply State.updEng_keep
    | (show _ = _; rfl) | split
    | (simp only [keep_lit]; first | with_reducible apply keep_mk | with_reducible apply keep_mk_hostMem | with_reducible apply keep_mk_chip | with_reducible apply keep_mk_flash)
    | intro _)

theorem land_keep {Q : List Instr} {V : Nat} (k t : Nat) (branch : Bool) (s : State) (hK : Keep Q V s) :
    Keep Q V (land k t branch s) := by
  unfold land
  try dsimp only
  repeat' (first
    | with_reducible exact hK | with_reducible assumption | with_reducible apply State.updEng_keep
    | with_reducible apply lgBranch_keep | with_reducible apply landNull_keep | with_reducible apply exitGroup_keep
    | (show _ = _; rfl) | split
    | (simp only [keep_lit]; first | with_reducible apply keep_mk | with_reducible apply keep_mk_hostMem | with_reducible apply keep_mk_chip | with_reducible apply keep_mk_flash)
    | intro _)

theorem advanceFrom_keep {Q : List Instr} {V : Nat} (k last : Nat) (s : State) (hK : Keep Q V s) :
    Keep Q V (advanceFrom k last s) := by
  unfold advanceFrom
  try dsimp only
  repeat' (first
    | with_reducible exact hK | with_reducible assumption | with_reducible apply State.updEng_keep
    | with_reducible apply land_keep | (show _ = _; rfl) | split
    | (simp only [keep_lit]; first | with_reducible apply keep_mk | with_reducible apply keep_mk_hostMem | with_reducible apply keep_mk_chip | with_reducible apply keep_mk_flash)
    | intro _)

theorem advance_keep {Q : List Instr} {V : Nat} (k : Nat) (s : State) (hK : Keep Q V s) :
    Keep Q V (advance k s) := by
  unfold advance
  try dsimp only
  repeat' (first
    | with_reducible exact hK | with_reducible assumption | with_reducible apply advanceFrom_keep | split | intro _)

theorem branchTo_keep {Q : List Instr} {V : Nat} (k t : Nat) (s : State) (hK : Keep Q V s) :
    Keep Q V (branchTo k t s) := by
  unfold branchTo
  try dsimp only
  repeat' (first
    | with_reducible exact hK | with_reducible assumption | with_reducible apply State.updEng_keep
    | with_reducible apply land_keep | (show _ = _; rfl) | split
    | (simp only [keep_lit]; first | with_reducible apply keep_mk | with_reducible apply keep_mk_hostMem | with_reducible apply keep_mk_chip | with_reducible apply keep_mk_flash)
    | intro _)

theorem issue_keep {Q : List Instr} {V : Nat} (e : Engine) (op : Nat) (w : VFields) (go : State → State) (s : State) (hgo : ∀ y, Keep Q V y → Keep Q V (go y))
    (hK : Keep Q V s) :
    KeepOut Q V (issue e op w go s) := by
  unfold issue
  try dsimp only
  repeat' (first
    | with_reducible apply keepOut_next | with_reducible exact hK | with_reducible assumption
    | with_reducible apply hgo | with_reducible apply vecFault_keep | with_reducible apply instrFault_keep
    | with_reducible apply regFault_keep | (show _ = _; rfl) | split
    | (simp only [keep_lit]; first | with_reducible apply keep_mk | with_reducible apply keep_mk_hostMem | with_reducible apply keep_mk_chip | with_reducible apply keep_mk_flash)
    | intro _)

theorem issueRegs_keep {Q : List Instr} {V : Nat} (e : Engine) (op : Nat) (w : VFields) (f : EngineState → EngineState) (s : State)
    (hK : Keep Q V s) :
    KeepOut Q V (issueRegs e op w f s) := by
  unfold issueRegs
  try dsimp only
  repeat' (first
    | with_reducible exact hK | with_reducible assumption | with_reducible apply State.updEng_keep
    | with_reducible apply advance_keep | with_reducible apply issue_keep | split | intro _)

theorem State.updCells_keep {Q : List Instr} {V : Nat} (s : State) (v : Nat) (f : EngineState → EngineState)
    (hK : Keep Q V s) :
    Keep Q V (State.updCells s v f) := by
  unfold State.updCells
  try dsimp only
  repeat' (first
    | with_reducible exact hK | with_reducible assumption | with_reducible apply State.updEng_keep
    | with_reducible apply forEach_keep | split | intro _)

theorem nullOverflow_keep {Q : List Instr} {V : Nat} (k : Nat) (s : State) (hK : Keep Q V s) :
    Keep Q V (nullOverflow k s) := by
  unfold nullOverflow
  try dsimp only
  repeat' (first
    | with_reducible exact hK | with_reducible assumption | with_reducible apply State.updStage_keep
    | (show _ = _; rfl) | split
    | (simp only [keep_lit]; first | with_reducible apply keep_mk | with_reducible apply keep_mk_hostMem | with_reducible apply keep_mk_chip | with_reducible apply keep_mk_flash)
    | intro _)

theorem keepEvents_keep {Q : List Instr} {V : Nat} (k : Nat) (ts : List TileRun) (s : State) (hK : Keep Q V s) :
    Keep Q V (keepEvents k ts s) := by
  unfold keepEvents
  try dsimp only
  repeat' (first
    | with_reducible exact hK | with_reducible assumption | with_reducible apply State.updEng_keep
    | with_reducible apply nullOverflow_keep | split | intro _)

theorem discardTiles_keep {Q : List Instr} {V : Nat} (k : Nat) (p : TileRun → Bool) (s : State) (hK : Keep Q V s) :
    Keep Q V (discardTiles k p s) := by
  unfold discardTiles
  try dsimp only
  repeat' (first
    | with_reducible exact hK | with_reducible assumption | with_reducible apply State.updEng_keep
    | with_reducible apply keepEvents_keep | (show _ = _; rfl) | split
    | (simp only [keep_lit]; first | with_reducible apply keep_mk | with_reducible apply keep_mk_hostMem | with_reducible apply keep_mk_chip | with_reducible apply keep_mk_flash)
    | intro _)

theorem discardEnded_keep {Q : List Instr} {V : Nat} (k : Nat) (s : State) (hK : Keep Q V s) :
    Keep Q V (discardEnded k s) := by
  unfold discardEnded
  try dsimp only
  repeat' (first
    | with_reducible exact hK | with_reducible assumption | with_reducible apply discardTiles_keep | split | intro _)

theorem startAt_keep {Q : List Instr} {V : Nat} (v pc : Nat) (s : State) (hK : Keep Q V s) :
    Keep Q V (startAt v pc s) := by
  unfold startAt
  try dsimp only
  repeat' (first
    | with_reducible exact hK | with_reducible assumption | with_reducible apply State.updEng_keep
    | with_reducible apply forEach_keep | with_reducible apply landNull_keep | (show _ = _; rfl) | split
    | (simp only [keep_lit]; first | with_reducible apply keep_mk | with_reducible apply keep_mk_hostMem | with_reducible apply keep_mk_chip | with_reducible apply keep_mk_flash)
    | intro _)

theorem newRun_keep {Q : List Instr} {V : Nat} (v : Nat) (s : State) (hK : Keep Q V s) :
    Keep Q V (newRun v s) := by
  unfold newRun
  try dsimp only
  repeat' (first
    | with_reducible exact hK | with_reducible assumption | with_reducible apply State.updStage_keep
    | with_reducible apply State.updCells_keep | with_reducible apply startAt_keep | (show _ = _; rfl) | split
    | (simp only [keep_lit]; first | with_reducible apply keep_mk | with_reducible apply keep_mk_hostMem | with_reducible apply keep_mk_chip | with_reducible apply keep_mk_flash)
    | intro _)

theorem logEntry_keep {Q : List Instr} {V : Nat} (v : Nat) (a : LogArgs) (s : State) (hK : Keep Q V s) :
    Keep Q V (logEntry v a s) := by
  unfold logEntry
  try dsimp only
  repeat' (first
    | with_reducible exact hK | with_reducible assumption | with_reducible apply State.updStage_keep
    | with_reducible apply State.mend_keep | (show _ = _; rfl) | split
    | (simp only [keep_lit]; first | with_reducible apply keep_mk | with_reducible apply keep_mk_hostMem | with_reducible apply keep_mk_chip | with_reducible apply keep_mk_flash)
    | intro _)

theorem nullPropagate_keep {Q : List Instr} {V : Nat} (v : Nat) (s : State) (hK : Keep Q V s) :
    Keep Q V (nullPropagate v s) := by
  unfold nullPropagate
  try dsimp only
  repeat' (first
    | with_reducible exact hK | with_reducible assumption | with_reducible apply State.updStage_keep
    | with_reducible apply logEntry_keep | (show _ = _; rfl) | split
    | (simp only [keep_lit]; first | with_reducible apply keep_mk | with_reducible apply keep_mk_hostMem | with_reducible apply keep_mk_chip | with_reducible apply keep_mk_flash)
    | intro _)

theorem readPred_keep {Q : List Instr} {V : Nat} (v i : Nat) (s : State) (hK : Keep Q V s) :
    Keep Q V (readPred v i s) := by
  unfold readPred
  try dsimp only
  repeat' (first
    | with_reducible exact hK | with_reducible assumption | with_reducible apply State.updStage_keep
    | with_reducible apply raise_keep | with_reducible apply memBadNoHalt_keep | (show _ = _; rfl) | split
    | (simp only [keep_lit]; first | with_reducible apply keep_mk | with_reducible apply keep_mk_hostMem | with_reducible apply keep_mk_chip | with_reducible apply keep_mk_flash)
    | intro _)

end Sys2Proof.Machine
end

