-- ==== Sys2Proof/Laws/KeepVec.lean ====
section
/-!
SUPPORT. Sys2Proof/Laws/KeepVec.lean: the vector instructions and tiles keep the invariant.
-/
namespace Sys2Proof.Machine

theorem execFadd_keep {Q : List Instr} {V : Nat} (e : Engine) (w : VFields) (s : State) (hK : Keep Q V s) :
    KeepOut Q V (execFadd e w s) := by
  unfold execFadd
  try dsimp only
  repeat' (first
    | with_reducible exact hK | with_reducible assumption | with_reducible apply issueRegs_keep | split | intro _)

theorem execFsub_keep {Q : List Instr} {V : Nat} (e : Engine) (w : VFields) (s : State) (hK : Keep Q V s) :
    KeepOut Q V (execFsub e w s) := by
  unfold execFsub
  try dsimp only
  repeat' (first
    | with_reducible exact hK | with_reducible assumption | with_reducible apply issueRegs_keep | split | intro _)

theorem execFmul_keep {Q : List Instr} {V : Nat} (e : Engine) (w : VFields) (s : State) (hK : Keep Q V s) :
    KeepOut Q V (execFmul e w s) := by
  unfold execFmul
  try dsimp only
  repeat' (first
    | with_reducible exact hK | with_reducible assumption | with_reducible apply issueRegs_keep | split | intro _)

theorem execFma_keep {Q : List Instr} {V : Nat} (e : Engine) (w : VFields) (s : State) (hK : Keep Q V s) :
    KeepOut Q V (execFma e w s) := by
  unfold execFma
  try dsimp only
  repeat' (first
    | with_reducible exact hK | with_reducible assumption | with_reducible apply issueRegs_keep | split | intro _)

theorem execFmin_keep {Q : List Instr} {V : Nat} (e : Engine) (w : VFields) (s : State) (hK : Keep Q V s) :
    KeepOut Q V (execFmin e w s) := by
  unfold execFmin
  try dsimp only
  repeat' (first
    | with_reducible exact hK | with_reducible assumption | with_reducible apply issueRegs_keep | split | intro _)

theorem execFmax_keep {Q : List Instr} {V : Nat} (e : Engine) (w : VFields) (s : State) (hK : Keep Q V s) :
    KeepOut Q V (execFmax e w s) := by
  unfold execFmax
  try dsimp only
  repeat' (first
    | with_reducible exact hK | with_reducible assumption | with_reducible apply issueRegs_keep | split | intro _)

theorem execFdiv_keep {Q : List Instr} {V : Nat} (e : Engine) (w : VFields) (s : State) (hK : Keep Q V s) :
    KeepOut Q V (execFdiv e w s) := by
  unfold execFdiv
  try dsimp only
  repeat' (first
    | with_reducible exact hK | with_reducible assumption | with_reducible apply issueRegs_keep | split | intro _)

theorem execFsqrt_keep {Q : List Instr} {V : Nat} (e : Engine) (w : VFields) (s : State) (hK : Keep Q V s) :
    KeepOut Q V (execFsqrt e w s) := by
  unfold execFsqrt
  try dsimp only
  repeat' (first
    | with_reducible exact hK | with_reducible assumption | with_reducible apply issueRegs_keep | split | intro _)

theorem execFrsq_keep {Q : List Instr} {V : Nat} (e : Engine) (w : VFields) (s : State) (hK : Keep Q V s) :
    KeepOut Q V (execFrsq e w s) := by
  unfold execFrsq
  try dsimp only
  repeat' (first
    | with_reducible exact hK | with_reducible assumption | with_reducible apply issueRegs_keep | split | intro _)

theorem execFexp2_keep {Q : List Instr} {V : Nat} (e : Engine) (w : VFields) (s : State) (hK : Keep Q V s) :
    KeepOut Q V (execFexp2 e w s) := by
  unfold execFexp2
  try dsimp only
  repeat' (first
    | with_reducible exact hK | with_reducible assumption | with_reducible apply issueRegs_keep | split | intro _)

theorem execFlog2_keep {Q : List Instr} {V : Nat} (e : Engine) (w : VFields) (s : State) (hK : Keep Q V s) :
    KeepOut Q V (execFlog2 e w s) := by
  unfold execFlog2
  try dsimp only
  repeat' (first
    | with_reducible exact hK | with_reducible assumption | with_reducible apply issueRegs_keep | split | intro _)

theorem execFcospi_keep {Q : List Instr} {V : Nat} (e : Engine) (w : VFields) (s : State) (hK : Keep Q V s) :
    KeepOut Q V (execFcospi e w s) := by
  unfold execFcospi
  try dsimp only
  repeat' (first
    | with_reducible exact hK | with_reducible assumption | with_reducible apply issueRegs_keep | split | intro _)

theorem execFabs_keep {Q : List Instr} {V : Nat} (e : Engine) (w : VFields) (s : State) (hK : Keep Q V s) :
    KeepOut Q V (execFabs e w s) := by
  unfold execFabs
  try dsimp only
  repeat' (first
    | with_reducible exact hK | with_reducible assumption | with_reducible apply issueRegs_keep | split | intro _)

theorem execFneg_keep {Q : List Instr} {V : Nat} (e : Engine) (w : VFields) (s : State) (hK : Keep Q V s) :
    KeepOut Q V (execFneg e w s) := by
  unfold execFneg
  try dsimp only
  repeat' (first
    | with_reducible exact hK | with_reducible assumption | with_reducible apply issueRegs_keep | split | intro _)

theorem execFcmp_keep {Q : List Instr} {V : Nat} (e : Engine) (w : VFields) (s : State) (hK : Keep Q V s) :
    KeepOut Q V (execFcmp e w s) := by
  unfold execFcmp
  try dsimp only
  repeat' (first
    | with_reducible exact hK | with_reducible assumption | with_reducible apply issueRegs_keep | split | intro _)

theorem execFsel_keep {Q : List Instr} {V : Nat} (e : Engine) (w : VFields) (s : State) (hK : Keep Q V s) :
    KeepOut Q V (execFsel e w s) := by
  unfold execFsel
  try dsimp only
  repeat' (first
    | with_reducible exact hK | with_reducible assumption | with_reducible apply issueRegs_keep | split | intro _)

theorem execIadd_keep {Q : List Instr} {V : Nat} (e : Engine) (w : VFields) (s : State) (hK : Keep Q V s) :
    KeepOut Q V (execIadd e w s) := by
  unfold execIadd
  try dsimp only
  repeat' (first
    | with_reducible exact hK | with_reducible assumption | with_reducible apply issueRegs_keep | split | intro _)

theorem execIsub_keep {Q : List Instr} {V : Nat} (e : Engine) (w : VFields) (s : State) (hK : Keep Q V s) :
    KeepOut Q V (execIsub e w s) := by
  unfold execIsub
  try dsimp only
  repeat' (first
    | with_reducible exact hK | with_reducible assumption | with_reducible apply issueRegs_keep | split | intro _)

theorem execImul_keep {Q : List Instr} {V : Nat} (e : Engine) (w : VFields) (s : State) (hK : Keep Q V s) :
    KeepOut Q V (execImul e w s) := by
  unfold execImul
  try dsimp only
  repeat' (first
    | with_reducible exact hK | with_reducible assumption | with_reducible apply issueRegs_keep | split | intro _)

theorem execIand_keep {Q : List Instr} {V : Nat} (e : Engine) (w : VFields) (s : State) (hK : Keep Q V s) :
    KeepOut Q V (execIand e w s) := by
  unfold execIand
  try dsimp only
  repeat' (first
    | with_reducible exact hK | with_reducible assumption | with_reducible apply issueRegs_keep | split | intro _)

theorem execIor_keep {Q : List Instr} {V : Nat} (e : Engine) (w : VFields) (s : State) (hK : Keep Q V s) :
    KeepOut Q V (execIor e w s) := by
  unfold execIor
  try dsimp only
  repeat' (first
    | with_reducible exact hK | with_reducible assumption | with_reducible apply issueRegs_keep | split | intro _)

theorem execIxor_keep {Q : List Instr} {V : Nat} (e : Engine) (w : VFields) (s : State) (hK : Keep Q V s) :
    KeepOut Q V (execIxor e w s) := by
  unfold execIxor
  try dsimp only
  repeat' (first
    | with_reducible exact hK | with_reducible assumption | with_reducible apply issueRegs_keep | split | intro _)

theorem execIshl_keep {Q : List Instr} {V : Nat} (e : Engine) (w : VFields) (s : State) (hK : Keep Q V s) :
    KeepOut Q V (execIshl e w s) := by
  unfold execIshl
  try dsimp only
  repeat' (first
    | with_reducible exact hK | with_reducible assumption | with_reducible apply issueRegs_keep | split | intro _)

theorem execIshr_keep {Q : List Instr} {V : Nat} (e : Engine) (w : VFields) (s : State) (hK : Keep Q V s) :
    KeepOut Q V (execIshr e w s) := by
  unfold execIshr
  try dsimp only
  repeat' (first
    | with_reducible exact hK | with_reducible assumption | with_reducible apply issueRegs_keep | split | intro _)

theorem execIsra_keep {Q : List Instr} {V : Nat} (e : Engine) (w : VFields) (s : State) (hK : Keep Q V s) :
    KeepOut Q V (execIsra e w s) := by
  unfold execIsra
  try dsimp only
  repeat' (first
    | with_reducible exact hK | with_reducible assumption | with_reducible apply issueRegs_keep | split | intro _)

theorem execImin_keep {Q : List Instr} {V : Nat} (e : Engine) (w : VFields) (s : State) (hK : Keep Q V s) :
    KeepOut Q V (execImin e w s) := by
  unfold execImin
  try dsimp only
  repeat' (first
    | with_reducible exact hK | with_reducible assumption | with_reducible apply issueRegs_keep | split | intro _)

theorem execImax_keep {Q : List Instr} {V : Nat} (e : Engine) (w : VFields) (s : State) (hK : Keep Q V s) :
    KeepOut Q V (execImax e w s) := by
  unfold execImax
  try dsimp only
  repeat' (first
    | with_reducible exact hK | with_reducible assumption | with_reducible apply issueRegs_keep | split | intro _)

theorem execIcmp_keep {Q : List Instr} {V : Nat} (e : Engine) (w : VFields) (s : State) (hK : Keep Q V s) :
    KeepOut Q V (execIcmp e w s) := by
  unfold execIcmp
  try dsimp only
  repeat' (first
    | with_reducible exact hK | with_reducible assumption | with_reducible apply issueRegs_keep | split | intro _)

theorem execIpack_keep {Q : List Instr} {V : Nat} (e : Engine) (w : VFields) (s : State) (hK : Keep Q V s) :
    KeepOut Q V (execIpack e w s) := by
  unfold execIpack
  try dsimp only
  repeat' (first
    | with_reducible exact hK | with_reducible assumption | with_reducible apply issueRegs_keep | split | intro _)

theorem execIunpk_keep {Q : List Instr} {V : Nat} (e : Engine) (w : VFields) (s : State) (hK : Keep Q V s) :
    KeepOut Q V (execIunpk e w s) := by
  unfold execIunpk
  try dsimp only
  repeat' (first
    | with_reducible exact hK | with_reducible assumption | with_reducible apply issueRegs_keep | split | intro _)

theorem execVperm_keep {Q : List Instr} {V : Nat} (e : Engine) (w : VFields) (s : State) (hK : Keep Q V s) :
    KeepOut Q V (execVperm e w s) := by
  unfold execVperm
  try dsimp only
  repeat' (first
    | with_reducible exact hK | with_reducible assumption | with_reducible apply issueRegs_keep | split | intro _)

theorem execSadd_keep {Q : List Instr} {V : Nat} (e : Engine) (w : VFields) (s : State) (hK : Keep Q V s) :
    KeepOut Q V (execSadd e w s) := by
  unfold execSadd
  try dsimp only
  repeat' (first
    | with_reducible exact hK | with_reducible assumption | with_reducible apply issueRegs_keep | split | intro _)

theorem execSsub_keep {Q : List Instr} {V : Nat} (e : Engine) (w : VFields) (s : State) (hK : Keep Q V s) :
    KeepOut Q V (execSsub e w s) := by
  unfold execSsub
  try dsimp only
  repeat' (first
    | with_reducible exact hK | with_reducible assumption | with_reducible apply issueRegs_keep | split | intro _)

theorem execSmul_keep {Q : List Instr} {V : Nat} (e : Engine) (w : VFields) (s : State) (hK : Keep Q V s) :
    KeepOut Q V (execSmul e w s) := by
  unfold execSmul
  try dsimp only
  repeat' (first
    | with_reducible exact hK | with_reducible assumption | with_reducible apply issueRegs_keep | split | intro _)

theorem execSand_keep {Q : List Instr} {V : Nat} (e : Engine) (w : VFields) (s : State) (hK : Keep Q V s) :
    KeepOut Q V (execSand e w s) := by
  unfold execSand
  try dsimp only
  repeat' (first
    | with_reducible exact hK | with_reducible assumption | with_reducible apply issueRegs_keep | split | intro _)

theorem execSor_keep {Q : List Instr} {V : Nat} (e : Engine) (w : VFields) (s : State) (hK : Keep Q V s) :
    KeepOut Q V (execSor e w s) := by
  unfold execSor
  try dsimp only
  repeat' (first
    | with_reducible exact hK | with_reducible assumption | with_reducible apply issueRegs_keep | split | intro _)

theorem execSxor_keep {Q : List Instr} {V : Nat} (e : Engine) (w : VFields) (s : State) (hK : Keep Q V s) :
    KeepOut Q V (execSxor e w s) := by
  unfold execSxor
  try dsimp only
  repeat' (first
    | with_reducible exact hK | with_reducible assumption | with_reducible apply issueRegs_keep | split | intro _)

theorem execSshl_keep {Q : List Instr} {V : Nat} (e : Engine) (w : VFields) (s : State) (hK : Keep Q V s) :
    KeepOut Q V (execSshl e w s) := by
  unfold execSshl
  try dsimp only
  repeat' (first
    | with_reducible exact hK | with_reducible assumption | with_reducible apply issueRegs_keep | split | intro _)

theorem execSshr_keep {Q : List Instr} {V : Nat} (e : Engine) (w : VFields) (s : State) (hK : Keep Q V s) :
    KeepOut Q V (execSshr e w s) := by
  unfold execSshr
  try dsimp only
  repeat' (first
    | with_reducible exact hK | with_reducible assumption | with_reducible apply issueRegs_keep | split | intro _)

theorem execSsra_keep {Q : List Instr} {V : Nat} (e : Engine) (w : VFields) (s : State) (hK : Keep Q V s) :
    KeepOut Q V (execSsra e w s) := by
  unfold execSsra
  try dsimp only
  repeat' (first
    | with_reducible exact hK | with_reducible assumption | with_reducible apply issueRegs_keep | split | intro _)

theorem execSli_keep {Q : List Instr} {V : Nat} (e : Engine) (w : VFields) (s : State) (hK : Keep Q V s) :
    KeepOut Q V (execSli e w s) := by
  unfold execSli
  try dsimp only
  repeat' (first
    | with_reducible exact hK | with_reducible assumption | with_reducible apply issueRegs_keep | split | intro _)

theorem execSlui_keep {Q : List Instr} {V : Nat} (e : Engine) (w : VFields) (s : State) (hK : Keep Q V s) :
    KeepOut Q V (execSlui e w s) := by
  unfold execSlui
  try dsimp only
  repeat' (first
    | with_reducible exact hK | with_reducible assumption | with_reducible apply issueRegs_keep | split | intro _)

theorem execVbcs_keep {Q : List Instr} {V : Nat} (e : Engine) (w : VFields) (s : State) (hK : Keep Q V s) :
    KeepOut Q V (execVbcs e w s) := by
  unfold execVbcs
  try dsimp only
  repeat' (first
    | with_reducible exact hK | with_reducible assumption | with_reducible apply issueRegs_keep | split | intro _)

theorem execVext_keep {Q : List Instr} {V : Nat} (e : Engine) (w : VFields) (s : State) (hK : Keep Q V s) :
    KeepOut Q V (execVext e w s) := by
  unfold execVext
  try dsimp only
  repeat' (first
    | with_reducible exact hK | with_reducible assumption | with_reducible apply issueRegs_keep | split | intro _)

theorem execPand_keep {Q : List Instr} {V : Nat} (e : Engine) (w : VFields) (s : State) (hK : Keep Q V s) :
    KeepOut Q V (execPand e w s) := by
  unfold execPand
  try dsimp only
  repeat' (first
    | with_reducible exact hK | with_reducible assumption | with_reducible apply issueRegs_keep | split | intro _)

theorem execPor_keep {Q : List Instr} {V : Nat} (e : Engine) (w : VFields) (s : State) (hK : Keep Q V s) :
    KeepOut Q V (execPor e w s) := by
  unfold execPor
  try dsimp only
  repeat' (first
    | with_reducible exact hK | with_reducible assumption | with_reducible apply issueRegs_keep | split | intro _)

theorem execPxor_keep {Q : List Instr} {V : Nat} (e : Engine) (w : VFields) (s : State) (hK : Keep Q V s) :
    KeepOut Q V (execPxor e w s) := by
  unfold execPxor
  try dsimp only
  repeat' (first
    | with_reducible exact hK | with_reducible assumption | with_reducible apply issueRegs_keep | split | intro _)

theorem execPandn_keep {Q : List Instr} {V : Nat} (e : Engine) (w : VFields) (s : State) (hK : Keep Q V s) :
    KeepOut Q V (execPandn e w s) := by
  unfold execPandn
  try dsimp only
  repeat' (first
    | with_reducible exact hK | with_reducible assumption | with_reducible apply issueRegs_keep | split | intro _)

theorem execPset_keep {Q : List Instr} {V : Nat} (e : Engine) (w : VFields) (s : State) (hK : Keep Q V s) :
    KeepOut Q V (execPset e w s) := by
  unfold execPset
  try dsimp only
  repeat' (first
    | with_reducible exact hK | with_reducible assumption | with_reducible apply issueRegs_keep | split | intro _)

theorem execPexp_keep {Q : List Instr} {V : Nat} (e : Engine) (w : VFields) (s : State) (hK : Keep Q V s) :
    KeepOut Q V (execPexp e w s) := by
  unfold execPexp
  try dsimp only
  repeat' (first
    | with_reducible exact hK | with_reducible assumption | with_reducible apply issueRegs_keep | split | intro _)

theorem execPcnt_keep {Q : List Instr} {V : Nat} (e : Engine) (w : VFields) (s : State) (hK : Keep Q V s) :
    KeepOut Q V (execPcnt e w s) := by
  unfold execPcnt
  try dsimp only
  repeat' (first
    | with_reducible exact hK | with_reducible assumption | with_reducible apply issueRegs_keep | split | intro _)

theorem issueConv_keep {Q : List Instr} {V : Nat} (e : Engine) (op : Nat) (w : VFields) (f : EngineState → EngineState) (s : State)
    (hK : Keep Q V s) :
    KeepOut Q V (issueConv e op w f s) := by
  unfold issueConv
  try dsimp only
  repeat' (first
    | with_reducible exact hK | with_reducible assumption | with_reducible apply State.updEng_keep
    | with_reducible apply vecFault_keep | with_reducible apply advance_keep | with_reducible apply issue_keep
    | split | intro _)

theorem execCvt_keep {Q : List Instr} {V : Nat} (e : Engine) (w : VFields) (s : State) (hK : Keep Q V s) :
    KeepOut Q V (execCvt e w s) := by
  unfold execCvt
  try dsimp only
  repeat' (first
    | with_reducible exact hK | with_reducible assumption | with_reducible apply issueConv_keep | split | intro _)

theorem execAmaxb_keep {Q : List Instr} {V : Nat} (e : Engine) (w : VFields) (s : State) (hK : Keep Q V s) :
    KeepOut Q V (execAmaxb e w s) := by
  unfold execAmaxb
  try dsimp only
  repeat' (first
    | with_reducible exact hK | with_reducible assumption | with_reducible apply issueConv_keep | split | intro _)

theorem execAmaxt_keep {Q : List Instr} {V : Nat} (e : Engine) (w : VFields) (s : State) (hK : Keep Q V s) :
    KeepOut Q V (execAmaxt e w s) := by
  unfold execAmaxt
  try dsimp only
  repeat' (first
    | with_reducible exact hK | with_reducible assumption | with_reducible apply issueConv_keep | split | intro _)

theorem execSum_keep {Q : List Instr} {V : Nat} (e : Engine) (w : VFields) (s : State) (hK : Keep Q V s) :
    KeepOut Q V (execSum e w s) := by
  unfold execSum
  try dsimp only
  repeat' (first
    | with_reducible exact hK | with_reducible assumption | with_reducible apply issueRegs_keep | split | intro _)

theorem execSgn_keep {Q : List Instr} {V : Nat} (e : Engine) (w : VFields) (s : State) (hK : Keep Q V s) :
    KeepOut Q V (execSgn e w s) := by
  unfold execSgn
  try dsimp only
  repeat' (first
    | with_reducible exact hK | with_reducible assumption | with_reducible apply issueRegs_keep | split | intro _)

theorem execTsgn_keep {Q : List Instr} {V : Nat} (e : Engine) (w : VFields) (s : State) (hK : Keep Q V s) :
    KeepOut Q V (execTsgn e w s) := by
  unfold execTsgn
  try dsimp only
  repeat' (first
    | with_reducible exact hK | with_reducible assumption | with_reducible apply issueRegs_keep | split | intro _)

theorem execSrnd_keep {Q : List Instr} {V : Nat} (e : Engine) (w : VFields) (s : State) (hK : Keep Q V s) :
    KeepOut Q V (execSrnd e w s) := by
  unfold execSrnd
  try dsimp only
  repeat' (first
    | with_reducible exact hK | with_reducible assumption | with_reducible apply issueRegs_keep | split | intro _)

theorem engFault_keep {Q : List Instr} {V : Nat} (k : Nat) (f : Nat × Option Access) (s : State) (hK : Keep Q V s) :
    Keep Q V (engFault k f s) := by
  unfold engFault
  try dsimp only
  repeat' (first
    | with_reducible exact hK | with_reducible assumption | with_reducible apply vecFault_keep
    | with_reducible apply accessFault_keep | (show _ = _; rfl) | split
    | (simp only [keep_lit]; first | with_reducible apply keep_mk | with_reducible apply keep_mk_hostMem | with_reducible apply keep_mk_chip | with_reducible apply keep_mk_flash)
    | intro _)

theorem storeAll_keep {Q : List Instr} {V : Nat} (ws : List (Nat × List Byte)) (s : State) (hK : Keep Q V s) :
    Keep Q V (storeAll ws s) := by
  unfold storeAll
  try dsimp only
  repeat' (first
    | with_reducible exact hK | with_reducible assumption | with_reducible apply State.store_keep
    | with_reducible apply forEach_keep | with_reducible apply State.mend_keep | split | intro _)

theorem loadOp_keep {Q : List Instr} {V : Nat} (k align : Nat) (ranges : List (Nat × Nat)) (f : List (List Byte) → EngineState → EngineState) (s : State)
    (hK : Keep Q V s) :
    Keep Q V (loadOp k align ranges f s) := by
  unfold loadOp
  try dsimp only
  repeat' (first
    | with_reducible exact hK | with_reducible assumption | with_reducible apply State.updEng_keep
    | with_reducible apply advance_keep | with_reducible apply engFault_keep | (show _ = _; rfl) | split
    | (simp only [keep_lit]; first | with_reducible apply keep_mk | with_reducible apply keep_mk_hostMem | with_reducible apply keep_mk_chip | with_reducible apply keep_mk_flash)
    | intro _)

theorem storeOp_keep {Q : List Instr} {V : Nat} (k align : Nat) (ws : List (Nat × List Byte)) (s : State)
    (hK : Keep Q V s) :
    Keep Q V (storeOp k align ws s) := by
  unfold storeOp
  try dsimp only
  repeat' (first
    | with_reducible exact hK | with_reducible assumption | with_reducible apply advance_keep
    | with_reducible apply engFault_keep | with_reducible apply storeAll_keep | (show _ = _; rfl) | split
    | (simp only [keep_lit]; first | with_reducible apply keep_mk | with_reducible apply keep_mk_hostMem | with_reducible apply keep_mk_chip | with_reducible apply keep_mk_flash)
    | intro _)

theorem execVld_keep {Q : List Instr} {V : Nat} (e : Engine) (w : VFields) (s : State) (hK : Keep Q V s) :
    KeepOut Q V (execVld e w s) := by
  unfold execVld
  try dsimp only
  repeat' (first
    | with_reducible exact hK | with_reducible assumption | with_reducible apply issue_keep
    | with_reducible apply loadOp_keep | split | intro _)

theorem execVst_keep {Q : List Instr} {V : Nat} (e : Engine) (w : VFields) (s : State) (hK : Keep Q V s) :
    KeepOut Q V (execVst e w s) := by
  unfold execVst
  try dsimp only
  repeat' (first
    | with_reducible exact hK | with_reducible assumption | with_reducible apply vecFault_keep
    | with_reducible apply issue_keep | with_reducible apply storeOp_keep | split | intro _)

theorem execVlds_keep {Q : List Instr} {V : Nat} (e : Engine) (w : VFields) (s : State) (hK : Keep Q V s) :
    KeepOut Q V (execVlds e w s) := by
  unfold execVlds
  try dsimp only
  repeat' (first
    | with_reducible exact hK | with_reducible assumption | with_reducible apply issue_keep
    | with_reducible apply loadOp_keep | (show _ = _; rfl) | split
    | (simp only [keep_lit]; first | with_reducible apply keep_mk | with_reducible apply keep_mk_hostMem | with_reducible apply keep_mk_chip | with_reducible apply keep_mk_flash)
    | intro _)

theorem execVsts_keep {Q : List Instr} {V : Nat} (e : Engine) (w : VFields) (s : State) (hK : Keep Q V s) :
    KeepOut Q V (execVsts e w s) := by
  unfold execVsts
  try dsimp only
  repeat' (first
    | with_reducible exact hK | with_reducible assumption | with_reducible apply issue_keep
    | with_reducible apply storeOp_keep | split | intro _)

theorem execSld_keep {Q : List Instr} {V : Nat} (e : Engine) (w : VFields) (s : State) (hK : Keep Q V s) :
    KeepOut Q V (execSld e w s) := by
  unfold execSld
  try dsimp only
  repeat' (first
    | with_reducible exact hK | with_reducible assumption | with_reducible apply issue_keep
    | with_reducible apply loadOp_keep | split | intro _)

theorem execSst_keep {Q : List Instr} {V : Nat} (e : Engine) (w : VFields) (s : State) (hK : Keep Q V s) :
    KeepOut Q V (execSst e w s) := by
  unfold execSst
  try dsimp only
  repeat' (first
    | with_reducible exact hK | with_reducible assumption | with_reducible apply issue_keep
    | with_reducible apply storeOp_keep | split | intro _)

theorem execPld_keep {Q : List Instr} {V : Nat} (e : Engine) (w : VFields) (s : State) (hK : Keep Q V s) :
    KeepOut Q V (execPld e w s) := by
  unfold execPld
  try dsimp only
  repeat' (first
    | with_reducible exact hK | with_reducible assumption | with_reducible apply issue_keep
    | with_reducible apply loadOp_keep | split | intro _)

theorem execPst_keep {Q : List Instr} {V : Nat} (e : Engine) (w : VFields) (s : State) (hK : Keep Q V s) :
    KeepOut Q V (execPst e w s) := by
  unfold execPst
  try dsimp only
  repeat' (first
    | with_reducible exact hK | with_reducible assumption | with_reducible apply issue_keep
    | with_reducible apply storeOp_keep | split | intro _)

theorem execNop_keep {Q : List Instr} {V : Nat} (e : Engine) (w : VFields) (s : State) (hK : Keep Q V s) :
    KeepOut Q V (execNop e w s) := by
  unfold execNop
  try dsimp only
  repeat' (first
    | with_reducible exact hK | with_reducible assumption | with_reducible apply advance_keep
    | with_reducible apply issue_keep | split | intro _)

theorem ruleEnd_keep {Q : List Instr} {V : Nat} (k : Nat) (s : State) (hK : Keep Q V s) :
    Keep Q V (ruleEnd k s) := by
  unfold ruleEnd
  try dsimp only
  repeat' (first
    | with_reducible exact hK | with_reducible assumption | with_reducible apply State.updEng_keep
    | with_reducible apply raise_keep | with_reducible apply haltOf_keep | (show _ = _; rfl) | split
    | (simp only [keep_lit]; first | with_reducible apply keep_mk | with_reducible apply keep_mk_hostMem | with_reducible apply keep_mk_chip | with_reducible apply keep_mk_flash)
    | intro _)

theorem cellEnd_keep {Q : List Instr} {V : Nat} (k : Nat) (s : State) (hK : Keep Q V s) :
    Keep Q V (cellEnd k s) := by
  unfold cellEnd
  try dsimp only
  repeat' (first
    | with_reducible exact hK | with_reducible assumption | with_reducible apply State.updEng_keep
    | with_reducible apply nullPropagate_keep | (show _ = _; rfl) | split
    | (simp only [keep_lit]; first | with_reducible apply keep_mk | with_reducible apply keep_mk_hostMem | with_reducible apply keep_mk_chip | with_reducible apply keep_mk_flash)
    | intro _)

theorem execEnd_keep {Q : List Instr} {V : Nat} (e : Engine) (w : VFields) (s : State) (hK : Keep Q V s) :
    KeepOut Q V (execEnd e w s) := by
  unfold execEnd
  try dsimp only
  repeat' (first
    | with_reducible exact hK | with_reducible assumption | with_reducible apply issue_keep
    | with_reducible apply ruleEnd_keep | with_reducible apply cellEnd_keep | split | intro _)

theorem execBr_keep {Q : List Instr} {V : Nat} (e : Engine) (w : VFields) (s : State) (hK : Keep Q V s) :
    KeepOut Q V (execBr e w s) := by
  unfold execBr
  try dsimp only
  repeat' (first
    | with_reducible exact hK | with_reducible assumption | with_reducible apply branchTo_keep
    | with_reducible apply issue_keep | split | intro _)

theorem execBrc_keep {Q : List Instr} {V : Nat} (e : Engine) (w : VFields) (s : State) (hK : Keep Q V s) :
    KeepOut Q V (execBrc e w s) := by
  unfold execBrc
  try dsimp only
  repeat' (first
    | with_reducible exact hK | with_reducible assumption | with_reducible apply advance_keep
    | with_reducible apply branchTo_keep | with_reducible apply issue_keep | split | intro _)

theorem loopOp_keep {Q : List Instr} {V : Nat} (k : Nat) (w : VFields) (s : State) (hK : Keep Q V s) :
    Keep Q V (loopOp k w s) := by
  unfold loopOp
  try dsimp only
  repeat' (first
    | with_reducible exact hK | with_reducible assumption | with_reducible apply State.updEng_keep
    | with_reducible apply vecFault_keep | with_reducible apply land_keep | with_reducible apply advanceFrom_keep
    | (show _ = _; rfl) | split
    | (simp only [keep_lit]; first | with_reducible apply keep_mk | with_reducible apply keep_mk_hostMem | with_reducible apply keep_mk_chip | with_reducible apply keep_mk_flash)
    | intro _)

theorem execLoop_keep {Q : List Instr} {V : Nat} (e : Engine) (w : VFields) (s : State) (hK : Keep Q V s) :
    KeepOut Q V (execLoop e w s) := by
  unfold execLoop
  try dsimp only
  repeat' (first
    | with_reducible exact hK | with_reducible assumption | with_reducible apply issue_keep
    | with_reducible apply loopOp_keep | split | intro _)

theorem execSync_keep {Q : List Instr} {V : Nat} (e : Engine) (w : VFields) (s : State) (hK : Keep Q V s) :
    KeepOut Q V (execSync e w s) := by
  unfold execSync
  try dsimp only
  repeat' (first
    | with_reducible exact hK | with_reducible assumption | with_reducible apply State.updEng_keep
    | with_reducible apply issue_keep | (show _ = _; rfl) | split
    | (simp only [keep_lit]; first | with_reducible apply keep_mk | with_reducible apply keep_mk_hostMem | with_reducible apply keep_mk_chip | with_reducible apply keep_mk_flash)
    | intro _)

theorem execWait_keep {Q : List Instr} {V : Nat} (e : Engine) (w : VFields) (s : State) (hK : Keep Q V s) :
    KeepOut Q V (execWait e w s) := by
  unfold execWait
  try dsimp only
  repeat' (first
    | with_reducible exact hK | with_reducible assumption | with_reducible apply advance_keep
    | with_reducible apply issue_keep | split | intro _)

theorem tileGo_keep {Q : List Instr} {V : Nat} (k : Nat) (w : VFields) (s : State) (hK : Keep Q V s) :
    Keep Q V (tileGo k w s) := by
  unfold tileGo
  try dsimp only
  repeat' (first
    | with_reducible exact hK | with_reducible assumption | with_reducible apply State.updEng_keep
    | with_reducible apply vecFault_keep | with_reducible apply accessFault_keep | with_reducible apply advance_keep
    | (show _ = _; rfl) | split
    | (simp only [keep_lit]; first | with_reducible apply keep_mk | with_reducible apply keep_mk_hostMem | with_reducible apply keep_mk_chip | with_reducible apply keep_mk_flash)
    | intro _)

theorem execTileGo_keep {Q : List Instr} {V : Nat} (e : Engine) (w : VFields) (s : State) (hK : Keep Q V s) :
    KeepOut Q V (execTileGo e w s) := by
  unfold execTileGo
  try dsimp only
  repeat' (first
    | with_reducible exact hK | with_reducible assumption | with_reducible apply issue_keep
    | with_reducible apply tileGo_keep | split | intro _)

theorem dmaGo_keep {Q : List Instr} {V : Nat} (k : Nat) (w : VFields) (s : State) (hK : Keep Q V s) :
    Keep Q V (dmaGo k w s) := by
  unfold dmaGo
  try dsimp only
  repeat' (first
    | with_reducible exact hK | with_reducible assumption | with_reducible apply State.updEng_keep
    | with_reducible apply vecFault_keep | with_reducible apply advance_keep | (show _ = _; rfl) | split
    | (simp only [keep_lit]; first | with_reducible apply keep_mk | with_reducible apply keep_mk_hostMem | with_reducible apply keep_mk_chip | with_reducible apply keep_mk_flash)
    | intro _)

theorem execDmaGo_keep {Q : List Instr} {V : Nat} (e : Engine) (w : VFields) (s : State) (hK : Keep Q V s) :
    KeepOut Q V (execDmaGo e w s) := by
  unfold execDmaGo
  try dsimp only
  repeat' (first
    | with_reducible exact hK | with_reducible assumption | with_reducible apply issue_keep
    | with_reducible apply dmaGo_keep | split | intro _)

theorem execXred_keep {Q : List Instr} {V : Nat} (e : Engine) (w : VFields) (s : State) (hK : Keep Q V s) :
    KeepOut Q V (execXred e w s) := by
  unfold execXred
  try dsimp only
  repeat' (first
    | with_reducible exact hK | with_reducible assumption | with_reducible apply State.updEng_keep
    | with_reducible apply issue_keep | (show _ = _; rfl) | split
    | (simp only [keep_lit]; first | with_reducible apply keep_mk | with_reducible apply keep_mk_hostMem | with_reducible apply keep_mk_chip | with_reducible apply keep_mk_flash)
    | intro _)

theorem execFlags_keep {Q : List Instr} {V : Nat} (e : Engine) (w : VFields) (s : State) (hK : Keep Q V s) :
    KeepOut Q V (execFlags e w s) := by
  unfold execFlags
  try dsimp only
  repeat' (first
    | with_reducible exact hK | with_reducible assumption | with_reducible apply issueRegs_keep | split | intro _)

theorem xredFinish_keep {Q : List Instr} {V : Nat} (k : Nat) (r : W64 × Fl) (s : State) (hK : Keep Q V s) :
    Keep Q V (xredFinish k r s) := by
  unfold xredFinish
  try dsimp only
  repeat' (first
    | with_reducible exact hK | with_reducible assumption | with_reducible apply State.updEng_keep
    | with_reducible apply advance_keep | (show _ = _; rfl) | split
    | (simp only [keep_lit]; first | with_reducible apply keep_mk | with_reducible apply keep_mk_hostMem | with_reducible apply keep_mk_chip | with_reducible apply keep_mk_flash)
    | intro _)

theorem releaseBarrier_keep {Q : List Instr} {V : Nat} (v : Nat) (s : State) (hK : Keep Q V s) :
    Keep Q V (releaseBarrier v s) := by
  unfold releaseBarrier
  try dsimp only
  repeat' (first
    | with_reducible exact hK | with_reducible assumption | with_reducible apply State.updEng_keep
    | with_reducible apply forEach_keep | with_reducible apply advance_keep | with_reducible apply newRun_keep
    | with_reducible apply xredFinish_keep | (show _ = _; rfl) | split
    | (simp only [keep_lit]; first | with_reducible apply keep_mk | with_reducible apply keep_mk_hostMem | with_reducible apply keep_mk_chip | with_reducible apply keep_mk_flash)
    | intro _)

theorem execStageBarrierRelease_keep {Q : List Instr} {V : Nat} (v : Fin 16) (s : State) (hK : Keep Q V s) :
    KeepOut Q V (execStageBarrierRelease v s) := by
  unfold execStageBarrierRelease
  try dsimp only
  repeat' (first
    | with_reducible apply keepOut_next | with_reducible exact hK | with_reducible assumption
    | with_reducible apply releaseBarrier_keep | split | intro _)

theorem refuseTile_keep {Q : List Instr} {V : Nat} (k : Nat) (t : TileReq) (reason : Nat) (s : State)
    (hK : Keep Q V s) :
    Keep Q V (refuseTile k t reason s) := by
  unfold refuseTile
  try dsimp only
  repeat' (first
    | with_reducible exact hK | with_reducible assumption | with_reducible apply raise_keep
    | with_reducible apply haltOf_keep | split | intro _)

theorem groupMismatch_keep {Q : List Instr} {V : Nat} (k : Nat) (t : TileReq) (s : State) (hK : Keep Q V s) :
    Keep Q V (groupMismatch k t s) := by
  unfold groupMismatch
  try dsimp only
  repeat' (first
    | with_reducible exact hK | with_reducible assumption | with_reducible apply raise_keep
    | with_reducible apply haltOf_keep | split | intro _)

theorem abortStage_keep {Q : List Instr} {V : Nat} (v : Nat) (s : State) (hK : Keep Q V s) :
    Keep Q V (abortStage v s) := by
  unfold abortStage
  try dsimp only
  repeat' (first
    | with_reducible exact hK | with_reducible assumption | with_reducible apply State.updEng_keep
    | with_reducible apply State.updFaults_keep | with_reducible apply forEach_keep
    | with_reducible apply discardTiles_keep | (show _ = _; rfl) | split
    | (simp only [keep_lit]; first | with_reducible apply keep_mk | with_reducible apply keep_mk_hostMem | with_reducible apply keep_mk_chip | with_reducible apply keep_mk_flash)
    | intro _)

theorem groupOverflow_keep {Q : List Instr} {V : Nat} (k group : Nat) (s : State) (hK : Keep Q V s) :
    Keep Q V (groupOverflow k group s) := by
  unfold groupOverflow
  try dsimp only
  repeat' (first
    | with_reducible exact hK | with_reducible assumption | with_reducible apply State.updStage_keep
    | with_reducible apply nullOverflow_keep | with_reducible apply abortStage_keep | (show _ = _; rfl) | split
    | (simp only [keep_lit]; first | with_reducible apply keep_mk | with_reducible apply keep_mk_hostMem | with_reducible apply keep_mk_chip | with_reducible apply keep_mk_flash)
    | intro _)

theorem tileAccessFault_keep {Q : List Instr} {V : Nat} (k : Nat) (d : BitVec 1024) (f : Nat × Access) (s : State)
    (hK : Keep Q V s) :
    Keep Q V (tileAccessFault k d f s) := by
  unfold tileAccessFault
  try dsimp only
  repeat' (first
    | with_reducible exact hK | with_reducible assumption | with_reducible apply addrFault_keep
    | with_reducible apply accessFault_keep | (show _ = _; rfl) | split
    | (simp only [keep_lit]; first | with_reducible apply keep_mk | with_reducible apply keep_mk_hostMem | with_reducible apply keep_mk_chip | with_reducible apply keep_mk_flash)
    | intro _)

theorem checkResponse_keep {Q : List Instr} {V : Nat} (log : Bool) (s : State) (hK : Keep Q V s) :
    Keep Q V (checkResponse log s) := by
  unfold checkResponse
  try dsimp only
  repeat' (first
    | with_reducible exact hK | with_reducible assumption
    | ((with_reducible refine State.updJob_keep_same _ _ ?_ ?_); rotate_left; intro _; rfl)
    | ((with_reducible refine State.updJob_keep _ _ ?_ ?_); rotate_left; intro _; exact Nat.le_of_ble_eq_true rfl)
    | (show _ = _; rfl) | split
    | (simp only [keep_lit]; first | with_reducible apply keep_mk | with_reducible apply keep_mk_hostMem | with_reducible apply keep_mk_chip | with_reducible apply keep_mk_flash)
    | intro _)

theorem shadowMismatch_keep {Q : List Instr} {V : Nat} (k : Nat) (t : TileRun) (home partner : Nat) (s : State)
    (h : Keep Q V s) : Keep Q V (shadowMismatch k t home partner s).1 := by
  unfold shadowMismatch
  dsimp only
  repeat' (first | with_reducible exact h | with_reducible apply checkResponse_keep | with_reducible apply noteRecord_keep | with_reducible apply raise_keep | with_reducible apply State.updFaults_keep | with_reducible apply State.mend_keep | split)

theorem setTile_keep {Q : List Instr} {V : Nat} (k i : Nat) (t : TileRun) (s : State) (hK : Keep Q V s) :
    Keep Q V (setTile k i t s) := by
  unfold setTile
  try dsimp only
  repeat' (first
    | with_reducible exact hK | with_reducible assumption | with_reducible apply State.updEng_keep
    | (show _ = _; rfl) | split
    | (simp only [keep_lit]; first | with_reducible apply keep_mk | with_reducible apply keep_mk_hostMem | with_reducible apply keep_mk_chip | with_reducible apply keep_mk_flash)
    | intro _)

theorem dropTile_keep {Q : List Instr} {V : Nat} (k i : Nat) (s : State) (hK : Keep Q V s) :
    Keep Q V (dropTile k i s) := by
  unfold dropTile
  try dsimp only
  repeat' (first
    | with_reducible exact hK | with_reducible assumption | with_reducible apply State.updEng_keep
    | with_reducible apply keepEvents_keep | (show _ = _; rfl) | split
    | (simp only [keep_lit]; first | with_reducible apply keep_mk | with_reducible apply keep_mk_hostMem | with_reducible apply keep_mk_chip | with_reducible apply keep_mk_flash)
    | intro _)

theorem writeBack_keep {Q : List Instr} {V : Nat} (k i : Nat) (t : TileRun) (homeErr partnerErr : List W32) (s : State)
    (hK : Keep Q V s) :
    Keep Q V (writeBack k i t homeErr partnerErr s) := by
  unfold writeBack
  try dsimp only
  repeat' (first
    | with_reducible exact hK | with_reducible assumption | with_reducible apply State.updEng_keep
    | with_reducible apply State.updStage_keep | with_reducible apply State.store_keep
    | with_reducible apply forEach_keep | with_reducible apply State.mend_keep
    | with_reducible apply groupOverflow_keep | with_reducible apply tileAccessFault_keep
    | with_reducible apply shadowMismatch_keep | with_reducible apply setTile_keep
    | with_reducible apply dropTile_keep | (show _ = _; rfl) | split
    | (simp only [keep_lit]; first | with_reducible apply keep_mk | with_reducible apply keep_mk_hostMem | with_reducible apply keep_mk_chip | with_reducible apply keep_mk_flash)
    | intro _)

theorem drain_keep {Q : List Instr} {V : Nat} (k i : Nat) (t : TileRun) (homeErr partnerErr : List W32) (s : State)
    (hK : Keep Q V s) :
    Keep Q V (drain k i t homeErr partnerErr s) := by
  unfold drain
  try dsimp only
  repeat' (first
    | with_reducible exact hK | with_reducible assumption | with_reducible apply tileAccessFault_keep
    | with_reducible apply writeBack_keep | (show _ = _; rfl) | split
    | (simp only [keep_lit]; first | with_reducible apply keep_mk | with_reducible apply keep_mk_hostMem | with_reducible apply keep_mk_chip | with_reducible apply keep_mk_flash)
    | intro _)

theorem execSubtileDrain_keep {Q : List Instr} {V : Nat} (e : Engine) (i : Nat) (homeErr partnerErr : List W32) (s : State)
    (hK : Keep Q V s) :
    KeepOut Q V (execSubtileDrain e i homeErr partnerErr s) := by
  unfold execSubtileDrain
  try dsimp only
  repeat' (first
    | with_reducible apply keepOut_next | with_reducible exact hK | with_reducible assumption
    | with_reducible apply drain_keep | (show _ = _; rfl) | split
    | (simp only [keep_lit]; first | with_reducible apply keep_mk | with_reducible apply keep_mk_hostMem | with_reducible apply keep_mk_chip | with_reducible apply keep_mk_flash)
    | intro _)

theorem execTileComplete_keep {Q : List Instr} {V : Nat} (e : Engine) (i : Nat) (s : State) (hK : Keep Q V s) :
    KeepOut Q V (execTileComplete e i s) := by
  unfold execTileComplete
  try dsimp only
  repeat' (first
    | with_reducible apply keepOut_next | with_reducible exact hK | with_reducible assumption
    | with_reducible apply dropTile_keep | (show _ = _; rfl) | split
    | (simp only [keep_lit]; first | with_reducible apply keep_mk | with_reducible apply keep_mk_hostMem | with_reducible apply keep_mk_chip | with_reducible apply keep_mk_flash)
    | intro _)

theorem takeTiles_keep {Q : List Instr} {V : Nat} (k n : Nat) : ∀ s : State, Keep Q V s → Keep Q V (takeTiles k n s) := by
  induction n with
  | zero => intro s h; exact h
  | succ n ih =>
    intro s h
    unfold takeTiles
    dsimp only
    repeat' (first
    | with_reducible exact h | with_reducible apply queueFault_keep | with_reducible apply refuseTile_keep
    | with_reducible apply groupMismatch_keep | with_reducible apply ih | with_reducible apply State.updEng_keep | split)

theorem startTile_keep {Q : List Instr} {V : Nat} (k i : Nat) (s : State) (hK : Keep Q V s) :
    Keep Q V (startTile k i s) := by
  unfold startTile
  try dsimp only
  repeat' (first
    | with_reducible exact hK | with_reducible assumption | with_reducible apply tileAccessFault_keep
    | with_reducible apply setTile_keep | with_reducible apply dropTile_keep | (show _ = _; rfl) | split
    | (simp only [keep_lit]; first | with_reducible apply keep_mk | with_reducible apply keep_mk_hostMem | with_reducible apply keep_mk_chip | with_reducible apply keep_mk_flash)
    | intro _)

theorem execTileAccept_keep {Q : List Instr} {V : Nat} (e : Engine) (s : State) (hK : Keep Q V s) :
    KeepOut Q V (execTileAccept e s) := by
  unfold execTileAccept
  try dsimp only
  repeat' (first
    | with_reducible apply keepOut_next | with_reducible exact hK | with_reducible assumption
    | with_reducible apply forEach_keep | with_reducible apply takeTiles_keep | with_reducible apply startTile_keep
    | split | intro _)

theorem execCaptureComplete_keep {Q : List Instr} {V : Nat} (e : Engine) (i : Nat) (s : State) (hK : Keep Q V s) :
    KeepOut Q V (execCaptureComplete e i s) := by
  unfold execCaptureComplete
  try dsimp only
  repeat' (first
    | with_reducible apply keepOut_next | with_reducible exact hK | with_reducible assumption
    | with_reducible apply setTile_keep | (show _ = _; rfl) | split
    | (simp only [keep_lit]; first | with_reducible apply keep_mk | with_reducible apply keep_mk_hostMem | with_reducible apply keep_mk_chip | with_reducible apply keep_mk_flash)
    | intro _)

theorem State.put_keep {Q : List Instr} {V : Nat} (s : State) (a : Nat) (bs : List Byte) (hK : Keep Q V s) :
    Keep Q V (State.put s a bs) := by
  unfold State.put
  try dsimp only
  repeat' (first
    | with_reducible exact hK | with_reducible assumption | with_reducible apply State.store_keep
    | with_reducible apply State.mend_keep | (show _ = _; rfl) | split
    | (simp only [keep_lit]; first | with_reducible apply keep_mk | with_reducible apply keep_mk_hostMem | with_reducible apply keep_mk_chip | with_reducible apply keep_mk_flash)
    | intro _)

theorem State.putWhole_keep {Q : List Instr} {V : Nat} (v : Option Nat) (issuer issuerCls a : Nat) (bs : List Byte) (s : State)
    (hK : Keep Q V s) :
    Keep Q V (State.putWhole v issuer issuerCls a bs s) := by
  unfold State.putWhole
  try dsimp only
  repeat' (first
    | with_reducible exact hK | with_reducible assumption | with_reducible apply memBad_keep
    | with_reducible apply State.put_keep | (show _ = _; rfl) | split
    | (simp only [keep_lit]; first | with_reducible apply keep_mk | with_reducible apply keep_mk_hostMem | with_reducible apply keep_mk_chip | with_reducible apply keep_mk_flash)
    | intro _)

theorem guestRequests_keep {Q : List Instr} {V : Nat} (k : Nat) (q : DmaReq) (i0 i1 : Nat) (s : State)
    (hK : Keep Q V s) :
    Keep Q V (guestRequests k q i0 i1 s) := by
  unfold guestRequests
  try dsimp only
  repeat' (first
    | with_reducible exact hK | with_reducible assumption | with_reducible apply forEach_keep
    | with_reducible apply guestRequest_keep | split | intro _)

theorem guestMove_keep {Q : List Instr} {V : Nat} (k : Nat) (q : DmaReq) (s : State) (hK : Keep Q V s) :
    Keep Q V (guestMove k q s) := by
  unfold guestMove
  try dsimp only
  repeat' (first
    | with_reducible exact hK | with_reducible assumption | with_reducible apply State.updEng_keep
    | with_reducible apply guestRequests_keep | (show _ = _; rfl) | split
    | (simp only [keep_lit]; first | with_reducible apply keep_mk | with_reducible apply keep_mk_hostMem | with_reducible apply keep_mk_chip | with_reducible apply keep_mk_flash)
    | intro _)

theorem dmaMove_keep {Q : List Instr} {V : Nat} (k : Nat) (q : DmaReq) (s : State) (hK : Keep Q V s) :
    Keep Q V (dmaMove k q s) := by
  unfold dmaMove
  try dsimp only
  repeat' (first
    | with_reducible exact hK | with_reducible assumption | with_reducible apply State.updEng_keep
    | with_reducible apply addrFault_keep | with_reducible apply accessFault_keep
    | with_reducible apply State.put_keep | with_reducible apply guestMove_keep | (show _ = _; rfl) | split
    | (simp only [keep_lit]; first | with_reducible apply keep_mk | with_reducible apply keep_mk_hostMem | with_reducible apply keep_mk_chip | with_reducible apply keep_mk_flash)
    | intro _)

theorem execDmaTransferComplete_keep {Q : List Instr} {V : Nat} (e : Engine) (s : State) (hK : Keep Q V s) :
    KeepOut Q V (execDmaTransferComplete e s) := by
  unfold execDmaTransferComplete
  try dsimp only
  repeat' (first
    | with_reducible apply keepOut_next | with_reducible exact hK | with_reducible assumption
    | with_reducible apply queueFault_keep | with_reducible apply dmaMove_keep | (show _ = _; rfl) | split
    | (simp only [keep_lit]; first | with_reducible apply keep_mk | with_reducible apply keep_mk_hostMem | with_reducible apply keep_mk_chip | with_reducible apply keep_mk_flash)
    | intro _)

end Sys2Proof.Machine
end

