-- ==== Sys2Proof/Laws/KeepStage.lean ====
section
/-!
SUPPORT. Sys2Proof/Laws/KeepStage.lean: Clauses, Tenses, layer groups and updates keep the invariant.
-/
namespace Sys2Proof.Machine

theorem queueOn_keep {Q : List Instr} {V : Nat} (p : Nat) (m : OutMsg) (s : State) (hK : Keep Q V s) :
    Keep Q V (queueOn p m s) := by
  unfold queueOn
  try dsimp only
  repeat' (first
    | with_reducible exact hK | with_reducible assumption | with_reducible apply State.updPort_keep
    | (show _ = _; rfl) | split
    | (simp only [keep_lit]; first | with_reducible apply keep_mk | with_reducible apply keep_mk_hostMem | with_reducible apply keep_mk_chip | with_reducible apply keep_mk_flash)
    | intro _)

theorem queueColl_keep {Q : List Instr} {V : Nat} (m : OutMsg) (s : State) (hK : Keep Q V s) :
    Keep Q V (queueColl m s) := by
  unfold queueColl
  try dsimp only
  repeat' (first
    | with_reducible exact hK | with_reducible assumption | with_reducible apply queueOn_keep | (show _ = _; rfl)
    | split
    | (simp only [keep_lit]; first | with_reducible apply keep_mk | with_reducible apply keep_mk_hostMem | with_reducible apply keep_mk_chip | with_reducible apply keep_mk_flash)
    | intro _)

theorem queueClause_keep {Q : List Instr} {V : Nat} (v : Nat) (backward : Bool) (dst : Nat) (c : BitVec 512) (s : State)
    (hK : Keep Q V s) :
    Keep Q V (queueClause v backward dst c s) := by
  unfold queueClause
  try dsimp only
  repeat' (first
    | with_reducible exact hK | with_reducible assumption | with_reducible apply queueColl_keep | (show _ = _; rfl)
    | split
    | (simp only [keep_lit]; first | with_reducible apply keep_mk | with_reducible apply keep_mk_hostMem | with_reducible apply keep_mk_chip | with_reducible apply keep_mk_flash)
    | intro _)

theorem tenseBad_keep {Q : List Instr} {V : Nat} (v w : Nat) (s : State) (hK : Keep Q V s) :
    Keep Q V (tenseBad v w s) := by
  unfold tenseBad
  try dsimp only
  repeat' (first
    | with_reducible exact hK | with_reducible assumption | with_reducible apply memBad_keep | split | intro _)

theorem agreementFault_keep {Q : List Instr} {V : Nat} (v reason commit shard : Nat) (s : State) (hK : Keep Q V s) :
    Keep Q V (agreementFault v reason commit shard s) := by
  unfold agreementFault
  try dsimp only
  repeat' (first
    | with_reducible exact hK | with_reducible assumption | with_reducible apply raise_keep
    | with_reducible apply haltStage_keep | split | intro _)

theorem tenseRecord_keep {Q : List Instr} {V : Nat} (v kind verdict commit shard : Nat) (s : State)
    (hK : Keep Q V s) :
    Keep Q V (tenseRecord v kind verdict commit shard s) := by
  unfold tenseRecord
  try dsimp only
  repeat' (first
    | with_reducible exact hK | with_reducible assumption | with_reducible apply noteRecord_keep | split | intro _)

theorem fillView_keep {Q : List Instr} {V : Nat} (v : Nat) (backward : Bool) (commit : Nat) (glitch : Option Nat) (s : State)
    (hK : Keep Q V s) :
    Keep Q V (fillView v backward commit glitch s) := by
  unfold fillView
  try dsimp only
  repeat' (first
    | with_reducible exact hK | with_reducible assumption | with_reducible apply State.updStage_keep
    | with_reducible apply State.store_keep | with_reducible apply State.mend_keep
    | with_reducible apply tenseBad_keep | with_reducible apply agreementFault_keep
    | with_reducible apply tenseRecord_keep | (show _ = _; rfl) | split
    | (simp only [keep_lit]; first | with_reducible apply keep_mk | with_reducible apply keep_mk_hostMem | with_reducible apply keep_mk_chip | with_reducible apply keep_mk_flash)
    | intro _)

theorem execViewFill_keep {Q : List Instr} {V : Nat} (v : Fin 16) (backward : Bool) (glitch : Option (Fin 32)) (s : State)
    (hK : Keep Q V s) :
    KeepOut Q V (execViewFill v backward glitch s) := by
  unfold execViewFill
  try dsimp only
  repeat' (first
    | with_reducible apply keepOut_next | with_reducible exact hK | with_reducible assumption
    | with_reducible apply fillView_keep | (show _ = _; rfl) | split
    | (simp only [keep_lit]; first | with_reducible apply keep_mk | with_reducible apply keep_mk_hostMem | with_reducible apply keep_mk_chip | with_reducible apply keep_mk_flash)
    | intro _)

theorem pastEncode_keep {Q : List Instr} {V : Nat} (v : Nat) (s : State) (hK : Keep Q V s) :
    Keep Q V (pastEncode v s) := by
  unfold pastEncode
  try dsimp only
  repeat' (first
    | with_reducible exact hK | with_reducible assumption | with_reducible apply State.updStage_keep
    | with_reducible apply State.store_keep | with_reducible apply State.mend_keep
    | with_reducible apply tenseBad_keep | (show _ = _; rfl) | split
    | (simp only [keep_lit]; first | with_reducible apply keep_mk | with_reducible apply keep_mk_hostMem | with_reducible apply keep_mk_chip | with_reducible apply keep_mk_flash)
    | intro _)

theorem execPastEncode_keep {Q : List Instr} {V : Nat} (v : Fin 16) (s : State) (hK : Keep Q V s) :
    KeepOut Q V (execPastEncode v s) := by
  unfold execPastEncode
  try dsimp only
  repeat' (first
    | with_reducible apply keepOut_next | with_reducible exact hK | with_reducible assumption
    | with_reducible apply pastEncode_keep | split | intro _)

theorem rebase_keep {Q : List Instr} {V : Nat} (v i : Nat) (s : State) (hK : Keep Q V s) :
    Keep Q V (rebase v i s) := by
  unfold rebase
  try dsimp only
  repeat' (first
    | with_reducible exact hK | with_reducible assumption | with_reducible apply State.updStage_keep
    | with_reducible apply State.store_keep | with_reducible apply State.mend_keep
    | with_reducible apply tenseBad_keep | (show _ = _; rfl) | split
    | (simp only [keep_lit]; first | with_reducible apply keep_mk | with_reducible apply keep_mk_hostMem | with_reducible apply keep_mk_chip | with_reducible apply keep_mk_flash)
    | intro _)

theorem execRebase_keep {Q : List Instr} {V : Nat} (v : Fin 16) (i : Fin 8) (s : State) (hK : Keep Q V s) :
    KeepOut Q V (execRebase v i s) := by
  unfold execRebase
  try dsimp only
  repeat' (first
    | with_reducible apply keepOut_next | with_reducible exact hK | with_reducible assumption
    | with_reducible apply rebase_keep | split | intro _)

theorem spill_keep {Q : List Instr} {V : Nat} (v i : Nat) (s : State) (hK : Keep Q V s) :
    Keep Q V (spill v i s) := by
  unfold spill
  try dsimp only
  repeat' (first
    | with_reducible exact hK | with_reducible assumption | with_reducible apply State.updStage_keep
    | with_reducible apply State.put_keep | with_reducible apply tenseBad_keep | (show _ = _; rfl) | split
    | (simp only [keep_lit]; first | with_reducible apply keep_mk | with_reducible apply keep_mk_hostMem | with_reducible apply keep_mk_chip | with_reducible apply keep_mk_flash)
    | intro _)

theorem execSpill_keep {Q : List Instr} {V : Nat} (v : Fin 16) (i : Fin 8) (s : State) (hK : Keep Q V s) :
    KeepOut Q V (execSpill v i s) := by
  unfold execSpill
  try dsimp only
  repeat' (first
    | with_reducible apply keepOut_next | with_reducible exact hK | with_reducible assumption
    | with_reducible apply spill_keep | split | intro _)

theorem shardSend_keep {Q : List Instr} {V : Nat} (v : Nat) (s : State) (hK : Keep Q V s) :
    Keep Q V (shardSend v s) := by
  unfold shardSend
  try dsimp only
  repeat' (first
    | with_reducible exact hK | with_reducible assumption | with_reducible apply State.updStage_keep
    | with_reducible apply forEach_keep | with_reducible apply queueColl_keep | with_reducible apply tenseBad_keep
    | (show _ = _; rfl) | split
    | (simp only [keep_lit]; first | with_reducible apply keep_mk | with_reducible apply keep_mk_hostMem | with_reducible apply keep_mk_chip | with_reducible apply keep_mk_flash)
    | intro _)

theorem execShardSend_keep {Q : List Instr} {V : Nat} (v : Fin 16) (s : State) (hK : Keep Q V s) :
    KeepOut Q V (execShardSend v s) := by
  unfold execShardSend
  try dsimp only
  repeat' (first
    | with_reducible apply keepOut_next | with_reducible exact hK | with_reducible assumption
    | with_reducible apply shardSend_keep | split | intro _)

theorem submit_keep {Q : List Instr} {V : Nat} (v j : Nat) (s : State) (hK : Keep Q V s) :
    Keep Q V (submit v j s) := by
  unfold submit
  try dsimp only
  repeat' (first
    | with_reducible exact hK | with_reducible assumption | with_reducible apply State.updStage_keep
    | with_reducible apply forEach_keep | with_reducible apply dieAbsent_keep | with_reducible apply memBad_keep
    | with_reducible apply queueColl_keep | (show _ = _; rfl) | split
    | (simp only [keep_lit]; first | with_reducible apply keep_mk | with_reducible apply keep_mk_hostMem | with_reducible apply keep_mk_chip | with_reducible apply keep_mk_flash)
    | intro _)

theorem resubmit_keep {Q : List Instr} {V : Nat} (v : Nat) (s : State) (hK : Keep Q V s) :
    Keep Q V (resubmit v s) := by
  unfold resubmit
  try dsimp only
  repeat' (first
    | with_reducible exact hK | with_reducible assumption | with_reducible apply State.updPort_keep
    | with_reducible apply forEach_keep | with_reducible apply submit_keep | (show _ = _; rfl) | split
    | (simp only [keep_lit]; first | with_reducible apply keep_mk | with_reducible apply keep_mk_hostMem | with_reducible apply keep_mk_chip | with_reducible apply keep_mk_flash)
    | intro _)

theorem trySubmit_keep {Q : List Instr} {V : Nat} (v fuel : Nat) : ∀ s : State, Keep Q V s →
    Keep Q V (trySubmit v fuel s) := by
  induction fuel with
  | zero => intro s h; exact h
  | succ n ih =>
    intro s h
    unfold trySubmit
    dsimp only
    split
    · exact ih _ (submit_keep _ _ _ h)
    · exact h

theorem releaseMb_keep {Q : List Instr} {V : Nat} (v mb : Nat) (s : State) (hK : Keep Q V s) :
    Keep Q V (releaseMb v mb s) := by
  unfold releaseMb
  try dsimp only
  repeat' (first
    | with_reducible exact hK | with_reducible assumption | with_reducible apply State.updEng_keep
    | with_reducible apply State.updStage_keep | with_reducible apply trySubmit_keep | (show _ = _; rfl) | split
    | (simp only [keep_lit]; first | with_reducible apply keep_mk | with_reducible apply keep_mk_hostMem | with_reducible apply keep_mk_chip | with_reducible apply keep_mk_flash)
    | intro _)

theorem reducedComplete_keep {Q : List Instr} {V : Nat} (v : Nat) (s : State) (hK : Keep Q V s) :
    Keep Q V (reducedComplete v s) := by
  unfold reducedComplete
  try dsimp only
  repeat' (first
    | with_reducible exact hK | with_reducible assumption | with_reducible apply State.updStage_keep
    | with_reducible apply State.store_keep | with_reducible apply State.mend_keep
    | with_reducible apply trySubmit_keep | (show _ = _; rfl) | split
    | (simp only [keep_lit]; first | with_reducible apply keep_mk | with_reducible apply keep_mk_hostMem | with_reducible apply keep_mk_chip | with_reducible apply keep_mk_flash)
    | intro _)

theorem execReducedShardComplete_keep {Q : List Instr} {V : Nat} (v : Fin 16) (s : State) (hK : Keep Q V s) :
    KeepOut Q V (execReducedShardComplete v s) := by
  unfold execReducedShardComplete
  try dsimp only
  repeat' (first
    | with_reducible apply keepOut_next | with_reducible exact hK | with_reducible assumption
    | with_reducible apply reducedComplete_keep | split | intro _)

theorem writeClause_keep {Q : List Instr} {V : Nat} (a : Nat) (c : BitVec 512) (s : State) (hK : Keep Q V s) :
    Keep Q V (writeClause a c s) := by
  unfold writeClause
  try dsimp only
  repeat' (first
    | with_reducible exact hK | with_reducible assumption | with_reducible apply State.store_keep
    | with_reducible apply State.mend_keep | split | intro _)

theorem clauseInvalid_keep {Q : List Instr} {V : Nat} (k reason : Nat) (s : State) (hK : Keep Q V s) :
    Keep Q V (clauseInvalid k reason s) := by
  unfold clauseInvalid
  try dsimp only
  repeat' (first
    | with_reducible exact hK | with_reducible assumption | with_reducible apply raise_keep
    | with_reducible apply haltOf_keep | split | intro _)

theorem placeClause_keep {Q : List Instr} {V : Nat} (v : Nat) (backward : Bool) (c : BitVec 512) (s : State)
    (hK : Keep Q V s) :
    Keep Q V (placeClause v backward c s) := by
  unfold placeClause
  try dsimp only
  repeat' (first
    | with_reducible exact hK | with_reducible assumption | with_reducible apply State.updStage_keep
    | with_reducible apply queueClause_keep | with_reducible apply releaseMb_keep
    | with_reducible apply writeClause_keep | (show _ = _; rfl) | split
    | (simp only [keep_lit]; first | with_reducible apply keep_mk | with_reducible apply keep_mk_hostMem | with_reducible apply keep_mk_chip | with_reducible apply keep_mk_flash)
    | intro _)

theorem oversize_keep {Q : List Instr} {V : Nat} (unit cls halted src dst len limit : Nat) (s : State)
    (hK : Keep Q V s) :
    Keep Q V (oversize unit cls halted src dst len limit s) := by
  unfold oversize
  try dsimp only
  repeat' (first
    | with_reducible exact hK | with_reducible assumption | with_reducible apply raise_keep
    | with_reducible apply haltOf_keep | split | intro _)

theorem clsPut_keep {Q : List Instr} {V : Nat} (k : Nat) (w : VFields) (s : State) (hK : Keep Q V s) :
    Keep Q V (clsPut k w s) := by
  unfold clsPut
  try dsimp only
  repeat' (first
    | with_reducible exact hK | with_reducible assumption | with_reducible apply State.updStage_keep
    | with_reducible apply addrFault_keep | with_reducible apply memBad_keep | with_reducible apply advance_keep
    | with_reducible apply clauseInvalid_keep | with_reducible apply placeClause_keep
    | with_reducible apply oversize_keep | (show _ = _; rfl) | split
    | (simp only [keep_lit]; first | with_reducible apply keep_mk | with_reducible apply keep_mk_hostMem | with_reducible apply keep_mk_chip | with_reducible apply keep_mk_flash)
    | intro _)

theorem execClsPut_keep {Q : List Instr} {V : Nat} (e : Engine) (w : VFields) (s : State) (hK : Keep Q V s) :
    KeepOut Q V (execClsPut e w s) := by
  unfold execClsPut
  try dsimp only
  repeat' (first
    | with_reducible exact hK | with_reducible assumption | with_reducible apply issue_keep
    | with_reducible apply clsPut_keep | split | intro _)

theorem placeHeld_keep {Q : List Instr} {V : Nat} (v : Nat) (backward : Bool) (s : State) (hK : Keep Q V s) :
    Keep Q V (placeHeld v backward s) := by
  unfold placeHeld
  try dsimp only
  repeat' (first
    | with_reducible exact hK | with_reducible assumption | with_reducible apply State.updStage_keep
    | with_reducible apply forEach_keep | with_reducible apply placeClause_keep | (show _ = _; rfl) | split
    | (simp only [keep_lit]; first | with_reducible apply keep_mk | with_reducible apply keep_mk_hostMem | with_reducible apply keep_mk_chip | with_reducible apply keep_mk_flash)
    | intro _)

theorem takeReturn_keep {Q : List Instr} {V : Nat} (k v : Nat) (w : VFields) (c : BitVec 512) (s : State)
    (hK : Keep Q V s) :
    Keep Q V (takeReturn k v w c s) := by
  unfold takeReturn
  try dsimp only
  repeat' (first
    | with_reducible exact hK | with_reducible assumption | with_reducible apply State.updEng_keep
    | with_reducible apply State.updStage_keep | with_reducible apply advance_keep | (show _ = _; rfl) | split
    | (simp only [keep_lit]; first | with_reducible apply keep_mk | with_reducible apply keep_mk_hostMem | with_reducible apply keep_mk_chip | with_reducible apply keep_mk_flash)
    | intro _)

theorem takeEmpty_keep {Q : List Instr} {V : Nat} (k v : Nat) (w : VFields) (s : State) (hK : Keep Q V s) :
    Keep Q V (takeEmpty k v w s) := by
  unfold takeEmpty
  try dsimp only
  repeat' (first
    | with_reducible exact hK | with_reducible assumption | with_reducible apply State.updEng_keep
    | with_reducible apply State.updStage_keep | with_reducible apply advance_keep | (show _ = _; rfl) | split
    | (simp only [keep_lit]; first | with_reducible apply keep_mk | with_reducible apply keep_mk_hostMem | with_reducible apply keep_mk_chip | with_reducible apply keep_mk_flash)
    | intro _)

theorem wantView_keep {Q : List Instr} {V : Nat} (v : Nat) (backward : Bool) (commit : Nat) (s : State)
    (hK : Keep Q V s) :
    Keep Q V (wantView v backward commit s) := by
  unfold wantView
  try dsimp only
  repeat' (first
    | with_reducible exact hK | with_reducible assumption | with_reducible apply State.updStage_keep
    | (show _ = _; rfl) | split
    | (simp only [keep_lit]; first | with_reducible apply keep_mk | with_reducible apply keep_mk_hostMem | with_reducible apply keep_mk_chip | with_reducible apply keep_mk_flash)
    | intro _)

theorem releaseAtTake_keep {Q : List Instr} {V : Nat} (v : Nat) (s : State) (hK : Keep Q V s) :
    Keep Q V (releaseAtTake v s) := by
  unfold releaseAtTake
  try dsimp only
  repeat' (first
    | with_reducible exact hK | with_reducible assumption | with_reducible apply State.updStage_keep
    | with_reducible apply releaseMb_keep | (show _ = _; rfl) | split
    | (simp only [keep_lit]; first | with_reducible apply keep_mk | with_reducible apply keep_mk_hostMem | with_reducible apply keep_mk_chip | with_reducible apply keep_mk_flash)
    | intro _)

theorem takeNew_keep {Q : List Instr} {V : Nat} (k v : Nat) (backward : Bool) (w : VFields) (c : BitVec 512) (s : State)
    (hK : Keep Q V s) :
    Keep Q V (takeNew k v backward w c s) := by
  unfold takeNew
  try dsimp only
  repeat' (first
    | with_reducible exact hK | with_reducible assumption | with_reducible apply State.updStage_keep
    | with_reducible apply State.updIngest_keep | with_reducible apply State.mend_keep
    | with_reducible apply writeClause_keep | with_reducible apply takeReturn_keep
    | with_reducible apply releaseAtTake_keep | (show _ = _; rfl) | split
    | (simp only [keep_lit]; first | with_reducible apply keep_mk | with_reducible apply keep_mk_hostMem | with_reducible apply keep_mk_chip | with_reducible apply keep_mk_flash)
    | intro _)

theorem takeAgain_keep {Q : List Instr} {V : Nat} (k v : Nat) (backward : Bool) (w : VFields) (s : State)
    (hK : Keep Q V s) :
    Keep Q V (takeAgain k v backward w s) := by
  unfold takeAgain
  try dsimp only
  repeat' (first
    | with_reducible exact hK | with_reducible assumption | with_reducible apply State.updStage_keep
    | with_reducible apply memBad_keep | with_reducible apply takeReturn_keep | with_reducible apply wantView_keep
    | (show _ = _; rfl) | split
    | (simp only [keep_lit]; first | with_reducible apply keep_mk | with_reducible apply keep_mk_hostMem | with_reducible apply keep_mk_chip | with_reducible apply keep_mk_flash)
    | intro _)

theorem clsTake_keep {Q : List Instr} {V : Nat} (k : Nat) (w : VFields) (s : State) (hK : Keep Q V s) :
    Keep Q V (clsTake k w s) := by
  unfold clsTake
  try dsimp only
  repeat' (first
    | with_reducible exact hK | with_reducible assumption | with_reducible apply State.updEng_keep
    | with_reducible apply memBad_keep | with_reducible apply clauseInvalid_keep
    | with_reducible apply takeEmpty_keep | with_reducible apply wantView_keep | with_reducible apply takeNew_keep
    | with_reducible apply takeAgain_keep | (show _ = _; rfl) | split
    | (simp only [keep_lit]; first | with_reducible apply keep_mk | with_reducible apply keep_mk_hostMem | with_reducible apply keep_mk_chip | with_reducible apply keep_mk_flash)
    | intro _)

theorem execClsTake_keep {Q : List Instr} {V : Nat} (e : Engine) (w : VFields) (s : State) (hK : Keep Q V s) :
    KeepOut Q V (execClsTake e w s) := by
  unfold execClsTake
  try dsimp only
  repeat' (first
    | with_reducible exact hK | with_reducible assumption | with_reducible apply issue_keep
    | with_reducible apply clsTake_keep | split | intro _)

theorem deliver_keep {Q : List Instr} {V : Nat} (v : Nat) (backward : Bool) (c : BitVec 512) (payload : List Byte) (s : State)
    (hK : Keep Q V s) :
    Keep Q V (deliver v backward c payload s) := by
  unfold deliver
  try dsimp only
  repeat' (first
    | with_reducible exact hK | with_reducible assumption | with_reducible apply State.updStage_keep
    | with_reducible apply State.store_keep | with_reducible apply State.mend_keep
    | with_reducible apply writeClause_keep | (show _ = _; rfl) | split
    | (simp only [keep_lit]; first | with_reducible apply keep_mk | with_reducible apply keep_mk_hostMem | with_reducible apply keep_mk_chip | with_reducible apply keep_mk_flash)
    | intro _)

theorem deliverLocal_keep {Q : List Instr} {V : Nat} (v : Nat) (backward : Bool) (s : State) (hK : Keep Q V s) :
    Keep Q V (deliverLocal v backward s) := by
  unfold deliverLocal
  try dsimp only
  repeat' (first
    | with_reducible exact hK | with_reducible assumption | with_reducible apply State.updStage_keep
    | with_reducible apply dieAbsent_keep | with_reducible apply memBad_keep | with_reducible apply deliver_keep
    | (show _ = _; rfl) | split
    | (simp only [keep_lit]; first | with_reducible apply keep_mk | with_reducible apply keep_mk_hostMem | with_reducible apply keep_mk_chip | with_reducible apply keep_mk_flash)
    | intro _)

theorem execClauseDelivery_keep {Q : List Instr} {V : Nat} (v : Fin 16) (backward : Bool) (s : State)
    (hK : Keep Q V s) :
    KeepOut Q V (execClauseDelivery v backward s) := by
  unfold execClauseDelivery
  try dsimp only
  repeat' (first
    | with_reducible apply keepOut_next | with_reducible exact hK | with_reducible assumption
    | with_reducible apply deliverLocal_keep | split | intro _)

theorem prewiden_keep {Q : List Instr} {V : Nat} (v : Nat) (d : BitVec 256) (s : State) (hK : Keep Q V s) :
    Keep Q V (prewiden v d s) := by
  unfold prewiden
  try dsimp only
  repeat' (first
    | with_reducible exact hK | with_reducible assumption | with_reducible apply State.updStage_keep
    | with_reducible apply logEntry_keep | (show _ = _; rfl) | split
    | (simp only [keep_lit]; first | with_reducible apply keep_mk | with_reducible apply keep_mk_hostMem | with_reducible apply keep_mk_chip | with_reducible apply keep_mk_flash)
    | intro _)

theorem applyShadow_keep {Q : List Instr} {V : Nat} (v : Nat) (s : State) (hK : Keep Q V s) :
    Keep Q V (applyShadow v s) := by
  unfold applyShadow
  try dsimp only
  repeat' (first
    | with_reducible exact hK | with_reducible assumption | with_reducible apply State.updStage_keep
    | ((with_reducible refine State.updJob_keep_same _ _ ?_ ?_); rotate_left; intro _; rfl)
    | ((with_reducible refine State.updJob_keep _ _ ?_ ?_); rotate_left; intro _; exact Nat.le_of_ble_eq_true rfl)
    | (show _ = _; rfl) | split
    | (simp only [keep_lit]; first | with_reducible apply keep_mk | with_reducible apply keep_mk_hostMem | with_reducible apply keep_mk_chip | with_reducible apply keep_mk_flash)
    | intro _)

theorem groupEntry_keep {Q : List Instr} {V : Nat} (v : Nat) (d : BitVec 256) (s : State) (hK : Keep Q V s) :
    Keep Q V (groupEntry v d s) := by
  unfold groupEntry
  try dsimp only
  repeat' (first
    | with_reducible exact hK | with_reducible assumption | with_reducible apply State.updStage_keep
    | with_reducible apply memBad_keep | with_reducible apply State.updCells_keep
    | with_reducible apply nullPropagate_keep | with_reducible apply prewiden_keep
    | with_reducible apply applyShadow_keep | (show _ = _; rfl) | split
    | (simp only [keep_lit]; first | with_reducible apply keep_mk | with_reducible apply keep_mk_hostMem | with_reducible apply keep_mk_chip | with_reducible apply keep_mk_flash)
    | intro _)

theorem execLayerGroupEntry_keep {Q : List Instr} {V : Nat} (v : Fin 16) (s : State) (hK : Keep Q V s) :
    KeepOut Q V (execLayerGroupEntry v s) := by
  unfold execLayerGroupEntry
  try dsimp only
  repeat' (first
    | with_reducible apply keepOut_next | with_reducible exact hK | with_reducible assumption
    | with_reducible apply groupEntry_keep | (show _ = _; rfl) | split
    | (simp only [keep_lit]; first | with_reducible apply keep_mk | with_reducible apply keep_mk_hostMem | with_reducible apply keep_mk_chip | with_reducible apply keep_mk_flash)
    | intro _)

theorem groupOutcome_keep {Q : List Instr} {V : Nat} (v : Nat) (d : BitVec 256) (x : Exec) (s : State)
    (hK : Keep Q V s) :
    Keep Q V (groupOutcome v d x s) := by
  unfold groupOutcome
  try dsimp only
  repeat' (first
    | with_reducible exact hK | with_reducible assumption | with_reducible apply State.updStage_keep
    | with_reducible apply forEach_keep | with_reducible apply logEntry_keep | with_reducible apply readPred_keep
    | (show _ = _; rfl) | split
    | (simp only [keep_lit]; first | with_reducible apply keep_mk | with_reducible apply keep_mk_hostMem | with_reducible apply keep_mk_chip | with_reducible apply keep_mk_flash)
    | intro _)

theorem groupEnd_keep {Q : List Instr} {V : Nat} (v : Nat) (d : BitVec 256) (x : Exec) (s : State) (hK : Keep Q V s) :
    Keep Q V (groupEnd v d x s) := by
  unfold groupEnd
  try dsimp only
  repeat' (first
    | with_reducible exact hK | with_reducible assumption | with_reducible apply State.updEng_keep
    | with_reducible apply State.updStage_keep | with_reducible apply forEach_keep
    | with_reducible apply haltStage_keep | with_reducible apply advanceFrom_keep
    | with_reducible apply State.updCells_keep | with_reducible apply placeHeld_keep
    | with_reducible apply groupOutcome_keep | (show _ = _; rfl) | split
    | (simp only [keep_lit]; first | with_reducible apply keep_mk | with_reducible apply keep_mk_hostMem | with_reducible apply keep_mk_chip | with_reducible apply keep_mk_flash)
    | intro _)

theorem execLayerGroupEnd_keep {Q : List Instr} {V : Nat} (v : Fin 16) (s : State) (hK : Keep Q V s) :
    KeepOut Q V (execLayerGroupEnd v s) := by
  unfold execLayerGroupEnd
  try dsimp only
  repeat' (first
    | with_reducible apply keepOut_next | with_reducible exact hK | with_reducible assumption
    | with_reducible apply groupEnd_keep | (show _ = _; rfl) | split
    | (simp only [keep_lit]; first | with_reducible apply keep_mk | with_reducible apply keep_mk_hostMem | with_reducible apply keep_mk_chip | with_reducible apply keep_mk_flash)
    | intro _)

theorem replayStart_keep {Q : List Instr} {V : Nat} (v : Nat) (d : BitVec 256) (x : Exec) (lost : Nat) (s : State)
    (hK : Keep Q V s) :
    Keep Q V (replayStart v d x lost s) := by
  unfold replayStart
  try dsimp only
  repeat' (first
    | with_reducible exact hK | with_reducible assumption | with_reducible apply State.updStage_keep
    | with_reducible apply State.updCells_keep | with_reducible apply logEntry_keep | (show _ = _; rfl) | split
    | (simp only [keep_lit]; first | with_reducible apply keep_mk | with_reducible apply keep_mk_hostMem | with_reducible apply keep_mk_chip | with_reducible apply keep_mk_flash)
    | intro _)

theorem execReplayStart_keep {Q : List Instr} {V : Nat} (v : Fin 16) (lost : W32) (s : State) (hK : Keep Q V s) :
    KeepOut Q V (execReplayStart v lost s) := by
  unfold execReplayStart
  try dsimp only
  repeat' (first
    | with_reducible apply keepOut_next | with_reducible exact hK | with_reducible assumption
    | with_reducible apply replayStart_keep | (show _ = _; rfl) | split
    | (simp only [keep_lit]; first | with_reducible apply keep_mk | with_reducible apply keep_mk_hostMem | with_reducible apply keep_mk_chip | with_reducible apply keep_mk_flash)
    | intro _)

theorem putField_keep {Q : List Instr} {V : Nat} (a x : Nat) (s : State) (hK : Keep Q V s) :
    Keep Q V (putField a x s) := by
  unfold putField
  try dsimp only
  repeat' (first
    | with_reducible exact hK | with_reducible assumption | with_reducible apply State.store_keep
    | with_reducible apply State.mend_keep | split | intro _)

theorem writeRecords_keep {Q : List Instr} {V : Nat} (v building : Nat) (s : State) (hK : Keep Q V s) :
    Keep Q V (writeRecords v building s) := by
  unfold writeRecords
  try dsimp only
  repeat' (first
    | with_reducible exact hK | with_reducible assumption | with_reducible apply forEach_keep
    | with_reducible apply putField_keep | (show _ = _; rfl) | split
    | (simp only [keep_lit]; first | with_reducible apply keep_mk | with_reducible apply keep_mk_hostMem | with_reducible apply keep_mk_chip | with_reducible apply keep_mk_flash)
    | intro _)

theorem firmwareWrites_keep {Q : List Instr} {V : Nat} (xs : List (Nat × List Byte)) (s : State) (hK : Keep Q V s) :
    Keep Q V (firmwareWrites xs s) := by
  unfold firmwareWrites
  try dsimp only
  repeat' (first
    | with_reducible exact hK | with_reducible assumption | with_reducible apply State.store_keep
    | with_reducible apply forEach_keep | with_reducible apply State.mend_keep
    | with_reducible apply memBadNoHalt_keep | (show _ = _; rfl) | split
    | (simp only [keep_lit]; first | with_reducible apply keep_mk | with_reducible apply keep_mk_hostMem | with_reducible apply keep_mk_chip | with_reducible apply keep_mk_flash)
    | intro _)

theorem placeRule_keep {Q : List Instr} {V : Nat} (v : Nat) (r : Rule) (rows : List Nat) (s : State)
    (hK : Keep Q V s) :
    Keep Q V (placeRule v r rows s) := by
  unfold placeRule
  try dsimp only
  repeat' (first
    | with_reducible exact hK | with_reducible assumption | with_reducible apply State.updEng_keep
    | with_reducible apply State.updStage_keep | (show _ = _; rfl) | split
    | (simp only [keep_lit]; first | with_reducible apply keep_mk | with_reducible apply keep_mk_hostMem | with_reducible apply keep_mk_chip | with_reducible apply keep_mk_flash)
    | intro _)

theorem placeLoad_keep {Q : List Instr} {V : Nat} (v : Nat) (x : LoadWait) (s : State) (hK : Keep Q V s) :
    Keep Q V (placeLoad v x s) := by
  unfold placeLoad
  try dsimp only
  repeat' (first
    | with_reducible exact hK | with_reducible assumption | with_reducible apply firmwareWrites_keep
    | with_reducible apply placeRule_keep | (show _ = _; rfl) | split
    | (simp only [keep_lit]; first | with_reducible apply keep_mk | with_reducible apply keep_mk_hostMem | with_reducible apply keep_mk_chip | with_reducible apply keep_mk_flash)
    | intro _)

theorem applyLoads_keep {Q : List Instr} {V : Nat} (v commit : Nat) (s : State) (hK : Keep Q V s) :
    Keep Q V (applyLoads v commit s) := by
  unfold applyLoads
  try dsimp only
  repeat' (first
    | with_reducible exact hK | with_reducible assumption | with_reducible apply State.updStage_keep
    | with_reducible apply forEach_keep | with_reducible apply placeLoad_keep | (show _ = _; rfl) | split
    | (simp only [keep_lit]; first | with_reducible apply keep_mk | with_reducible apply keep_mk_hostMem | with_reducible apply keep_mk_chip | with_reducible apply keep_mk_flash)
    | intro _)

theorem queueLoads_keep {Q : List Instr} {V : Nat} (v : Nat) (xs : List LoadWait) (s : State) (hK : Keep Q V s) :
    Keep Q V (queueLoads v xs s) := by
  unfold queueLoads
  try dsimp only
  repeat' (first
    | with_reducible exact hK | with_reducible assumption | with_reducible apply State.updStage_keep
    | with_reducible apply applyLoads_keep | (show _ = _; rfl) | split
    | (simp only [keep_lit]; first | with_reducible apply keep_mk | with_reducible apply keep_mk_hostMem | with_reducible apply keep_mk_chip | with_reducible apply keep_mk_flash)
    | intro _)

theorem writeVote_keep {Q : List Instr} {V : Nat} (v : Nat) (s : State) (hK : Keep Q V s) :
    Keep Q V (writeVote v s) := by
  unfold writeVote
  try dsimp only
  repeat' (first
    | with_reducible exact hK | with_reducible assumption | with_reducible apply State.updStage_keep
    | with_reducible apply firmwareWrites_keep | (show _ = _; rfl) | split
    | (simp only [keep_lit]; first | with_reducible apply keep_mk | with_reducible apply keep_mk_hostMem | with_reducible apply keep_mk_chip | with_reducible apply keep_mk_flash)
    | intro _)

theorem startUpdate_keep {Q : List Instr} {V : Nat} (v k slot : Nat) (s : State) (hK : Keep Q V s) :
    Keep Q V (startUpdate v k slot s) := by
  unfold startUpdate
  try dsimp only
  repeat' (first
    | with_reducible exact hK | with_reducible assumption | with_reducible apply State.updEng_keep
    | with_reducible apply State.updStage_keep | with_reducible apply State.store_keep
    | with_reducible apply forEach_keep | with_reducible apply State.mend_keep
    | with_reducible apply discardEnded_keep | with_reducible apply tenseBad_keep
    | with_reducible apply writeRecords_keep | with_reducible apply applyLoads_keep
    | with_reducible apply writeVote_keep | (show _ = _; rfl) | split
    | (simp only [keep_lit]; first | with_reducible apply keep_mk | with_reducible apply keep_mk_hostMem | with_reducible apply keep_mk_chip | with_reducible apply keep_mk_flash)
    | (show _ ≤ max _ _; omega) | intro _)

theorem tenseLimit_keep {Q : List Instr} {V : Nat} (v : Nat) (s : State) (hK : Keep Q V s) :
    Keep Q V (tenseLimit v s) := by
  unfold tenseLimit
  try dsimp only
  repeat' (first
    | with_reducible exact hK | with_reducible assumption | with_reducible apply raise_keep
    | with_reducible apply haltStage_keep | split | intro _)

theorem execUpdateStart_keep {Q : List Instr} {V : Nat} (v : Fin 16) (s : State) (hK : Keep Q V s) :
    KeepOut Q V (execUpdateStart v s) := by
  unfold execUpdateStart
  try dsimp only
  repeat' (first
    | with_reducible apply keepOut_next | with_reducible exact hK | with_reducible assumption
    | with_reducible apply startUpdate_keep | with_reducible apply tenseLimit_keep | (show _ = _; rfl) | split
    | (simp only [keep_lit]; first | with_reducible apply keep_mk | with_reducible apply keep_mk_hostMem | with_reducible apply keep_mk_chip | with_reducible apply keep_mk_flash)
    | intro _)

theorem gmaxOp_keep {Q : List Instr} {V : Nat} (k v : Nat) (w : VFields) (s : State) (hK : Keep Q V s) :
    Keep Q V (gmaxOp k v w s) := by
  unfold gmaxOp
  try dsimp only
  repeat' (first
    | with_reducible exact hK | with_reducible assumption | with_reducible apply State.updEng_keep
    | with_reducible apply State.updStage_keep | with_reducible apply forEach_keep
    | with_reducible apply advance_keep | with_reducible apply queueColl_keep | (show _ = _; rfl) | split
    | (simp only [keep_lit]; first | with_reducible apply keep_mk | with_reducible apply keep_mk_hostMem | with_reducible apply keep_mk_chip | with_reducible apply keep_mk_flash)
    | (show _ ≤ max _ _; omega) | intro _)

theorem execGmax_keep {Q : List Instr} {V : Nat} (e : Engine) (w : VFields) (s : State) (hK : Keep Q V s) :
    KeepOut Q V (execGmax e w s) := by
  unfold execGmax
  try dsimp only
  repeat' (first
    | with_reducible exact hK | with_reducible assumption | with_reducible apply issue_keep
    | with_reducible apply gmaxOp_keep | (show _ = _; rfl) | split
    | (simp only [keep_lit]; first | with_reducible apply keep_mk | with_reducible apply keep_mk_hostMem | with_reducible apply keep_mk_chip | with_reducible apply keep_mk_flash)
    | intro _)

theorem digestInit_keep {Q : List Instr} {V : Nat} (k : Nat) (w : VFields) (s : State) (hK : Keep Q V s) :
    Keep Q V (digestInit k w s) := by
  unfold digestInit
  try dsimp only
  repeat' (first
    | with_reducible exact hK | with_reducible assumption | with_reducible apply State.updStage_keep
    | with_reducible apply vecFault_keep | with_reducible apply advance_keep | (show _ = _; rfl) | split
    | (simp only [keep_lit]; first | with_reducible apply keep_mk | with_reducible apply keep_mk_hostMem | with_reducible apply keep_mk_chip | with_reducible apply keep_mk_flash)
    | intro _)

theorem execDigestInit_keep {Q : List Instr} {V : Nat} (e : Engine) (w : VFields) (s : State) (hK : Keep Q V s) :
    KeepOut Q V (execDigestInit e w s) := by
  unfold execDigestInit
  try dsimp only
  repeat' (first
    | with_reducible exact hK | with_reducible assumption | with_reducible apply issue_keep
    | with_reducible apply digestInit_keep | (show _ = _; rfl) | split
    | (simp only [keep_lit]; first | with_reducible apply keep_mk | with_reducible apply keep_mk_hostMem | with_reducible apply keep_mk_chip | with_reducible apply keep_mk_flash)
    | intro _)

theorem digestAdd_keep {Q : List Instr} {V : Nat} (k : Nat) (w : VFields) (s : State) (hK : Keep Q V s) :
    Keep Q V (digestAdd k w s) := by
  unfold digestAdd
  try dsimp only
  repeat' (first
    | with_reducible exact hK | with_reducible assumption | with_reducible apply State.updStage_keep
    | with_reducible apply vecFault_keep | with_reducible apply advance_keep | (show _ = _; rfl) | split
    | (simp only [keep_lit]; first | with_reducible apply keep_mk | with_reducible apply keep_mk_hostMem | with_reducible apply keep_mk_chip | with_reducible apply keep_mk_flash)
    | intro _)

theorem execDigestAdd_keep {Q : List Instr} {V : Nat} (e : Engine) (w : VFields) (s : State) (hK : Keep Q V s) :
    KeepOut Q V (execDigestAdd e w s) := by
  unfold execDigestAdd
  try dsimp only
  repeat' (first
    | with_reducible exact hK | with_reducible assumption | with_reducible apply issue_keep
    | with_reducible apply digestAdd_keep | (show _ = _; rfl) | split
    | (simp only [keep_lit]; first | with_reducible apply keep_mk | with_reducible apply keep_mk_hostMem | with_reducible apply keep_mk_chip | with_reducible apply keep_mk_flash)
    | intro _)

theorem verifyShard_keep {Q : List Instr} {V : Nat} (v r dig : Nat) (s : State) (hK : Keep Q V s) :
    Keep Q V (verifyShard v r dig s) := by
  unfold verifyShard
  try dsimp only
  repeat' (first
    | with_reducible exact hK | with_reducible assumption | with_reducible apply State.updStage_keep
    | with_reducible apply State.store_keep | with_reducible apply State.mend_keep | (show _ = _; rfl) | split
    | (simp only [keep_lit]; first | with_reducible apply keep_mk | with_reducible apply keep_mk_hostMem | with_reducible apply keep_mk_chip | with_reducible apply keep_mk_flash)
    | intro _)

theorem verifyOwn_keep {Q : List Instr} {V : Nat} (v : Nat) (s : State) (hK : Keep Q V s) :
    Keep Q V (verifyOwn v s) := by
  unfold verifyOwn
  try dsimp only
  repeat' (first
    | with_reducible exact hK | with_reducible assumption | with_reducible apply tenseBad_keep
    | with_reducible apply verifyShard_keep | (show _ = _; rfl) | split
    | (simp only [keep_lit]; first | with_reducible apply keep_mk | with_reducible apply keep_mk_hostMem | with_reducible apply keep_mk_chip | with_reducible apply keep_mk_flash)
    | intro _)

theorem digestFinal_keep {Q : List Instr} {V : Nat} (k : Nat) (w : VFields) (s : State) (hK : Keep Q V s) :
    Keep Q V (digestFinal k w s) := by
  unfold digestFinal
  try dsimp only
  repeat' (first
    | with_reducible exact hK | with_reducible assumption | with_reducible apply State.updEng_keep
    | with_reducible apply State.updStage_keep | with_reducible apply vecFault_keep
    | with_reducible apply advance_keep | with_reducible apply verifyOwn_keep | (show _ = _; rfl) | split
    | (simp only [keep_lit]; first | with_reducible apply keep_mk | with_reducible apply keep_mk_hostMem | with_reducible apply keep_mk_chip | with_reducible apply keep_mk_flash)
    | intro _)

theorem execDigestFinal_keep {Q : List Instr} {V : Nat} (e : Engine) (w : VFields) (s : State) (hK : Keep Q V s) :
    KeepOut Q V (execDigestFinal e w s) := by
  unfold execDigestFinal
  try dsimp only
  repeat' (first
    | with_reducible exact hK | with_reducible assumption | with_reducible apply issue_keep
    | with_reducible apply digestFinal_keep | (show _ = _; rfl) | split
    | (simp only [keep_lit]; first | with_reducible apply keep_mk | with_reducible apply keep_mk_hostMem | with_reducible apply keep_mk_chip | with_reducible apply keep_mk_flash)
    | intro _)

theorem commitOp_keep {Q : List Instr} {V : Nat} (k : Nat) (w : VFields) (s : State) (hK : Keep Q V s) :
    Keep Q V (commitOp k w s) := by
  unfold commitOp
  try dsimp only
  repeat' (first
    | with_reducible exact hK | with_reducible assumption | with_reducible apply State.updEng_keep
    | with_reducible apply State.updStage_keep | with_reducible apply vecFault_keep
    | with_reducible apply advance_keep | (show _ = _; rfl) | split
    | (simp only [keep_lit]; first | with_reducible apply keep_mk | with_reducible apply keep_mk_hostMem | with_reducible apply keep_mk_chip | with_reducible apply keep_mk_flash)
    | intro _)

theorem execCommit_keep {Q : List Instr} {V : Nat} (e : Engine) (w : VFields) (s : State) (hK : Keep Q V s) :
    KeepOut Q V (execCommit e w s) := by
  unfold execCommit
  try dsimp only
  repeat' (first
    | with_reducible exact hK | with_reducible assumption | with_reducible apply issue_keep
    | with_reducible apply commitOp_keep | split | intro _)

theorem agreeMismatch_keep {Q : List Instr} {V : Nat} (v reason commit kind mask : Nat) (s : State)
    (hK : Keep Q V s) :
    Keep Q V (agreeMismatch v reason commit kind mask s) := by
  unfold agreeMismatch
  try dsimp only
  repeat' (first
    | with_reducible exact hK | with_reducible assumption | with_reducible apply raise_keep
    | with_reducible apply noteRecord_keep | with_reducible apply checkResponse_keep | split | intro _)

theorem compareExchange_keep {Q : List Instr} {V : Nat} (v commit : Nat) (rs : List AgreeRecord) (s : State)
    (hK : Keep Q V s) :
    Keep Q V (compareExchange v commit rs s) := by
  unfold compareExchange
  try dsimp only
  repeat' (first
    | with_reducible exact hK | with_reducible assumption | with_reducible apply forEach_keep
    | with_reducible apply agreeMismatch_keep | split | intro _)

theorem dropOldest_keep {Q : List Instr} {V : Nat} (v : Nat) (s : State) (hK : Keep Q V s) :
    Keep Q V (dropOldest v s) := by
  unfold dropOldest
  try dsimp only
  repeat' (first
    | with_reducible exact hK | with_reducible assumption | with_reducible apply State.updStage_keep
    | with_reducible apply agreeMismatch_keep | (show _ = _; rfl) | split
    | (simp only [keep_lit]; first | with_reducible apply keep_mk | with_reducible apply keep_mk_hostMem | with_reducible apply keep_mk_chip | with_reducible apply keep_mk_flash)
    | intro _)

theorem addRecord_keep {Q : List Instr} {V : Nat} (v : Nat) (r : AgreeRecord) (s : State) (hK : Keep Q V s) :
    Keep Q V (addRecord v r s) := by
  unfold addRecord
  try dsimp only
  repeat' (first
    | with_reducible exact hK | with_reducible assumption | with_reducible apply State.updStage_keep
    | with_reducible apply agreeMismatch_keep | with_reducible apply compareExchange_keep
    | with_reducible apply dropOldest_keep | (show _ = _; rfl) | split
    | (simp only [keep_lit]; first | with_reducible apply keep_mk | with_reducible apply keep_mk_hostMem | with_reducible apply keep_mk_chip | with_reducible apply keep_mk_flash)
    | intro _)

theorem sendAgreement_keep {Q : List Instr} {V : Nat} (v : Nat) (s : State) (hK : Keep Q V s) :
    Keep Q V (sendAgreement v s) := by
  unfold sendAgreement
  try dsimp only
  repeat' (first
    | with_reducible exact hK | with_reducible assumption | with_reducible apply forEach_keep
    | with_reducible apply queueColl_keep | with_reducible apply tenseBad_keep | with_reducible apply addRecord_keep
    | (show _ = _; rfl) | split
    | (simp only [keep_lit]; first | with_reducible apply keep_mk | with_reducible apply keep_mk_hostMem | with_reducible apply keep_mk_chip | with_reducible apply keep_mk_flash)
    | intro _)

theorem dropShards_keep {Q : List Instr} {V : Nat} (stage commit : Nat) (s : State) (hK : Keep Q V s) :
    Keep Q V (dropShards stage commit s) := by
  unfold dropShards
  try dsimp only
  repeat' (first
    | with_reducible exact hK | with_reducible assumption | with_reducible apply State.updPort_keep
    | with_reducible apply forEach_keep | (show _ = _; rfl) | split
    | (simp only [keep_lit]; first | with_reducible apply keep_mk | with_reducible apply keep_mk_hostMem | with_reducible apply keep_mk_chip | with_reducible apply keep_mk_flash)
    | intro _)

theorem skipEvent_keep {Q : List Instr} {V : Nat} (v j : Nat) (s : State) (hK : Keep Q V s) :
    Keep Q V (skipEvent v j s) := by
  unfold skipEvent
  try dsimp only
  repeat' (first
    | with_reducible exact hK | with_reducible assumption | with_reducible apply raise_keep | split | intro _)

theorem releaseCommit_keep {Q : List Instr} {V : Nat} (k : Nat) (vd : Option Nat) (x : Nat) (s : State)
    (hK : Keep Q V s) :
    Keep Q V (releaseCommit k vd x s) := by
  unfold releaseCommit
  try dsimp only
  repeat' (first
    | with_reducible exact hK | with_reducible assumption | with_reducible apply State.updEng_keep
    | with_reducible apply advance_keep | (show _ = _; rfl) | split
    | (simp only [keep_lit]; first | with_reducible apply keep_mk | with_reducible apply keep_mk_hostMem | with_reducible apply keep_mk_chip | with_reducible apply keep_mk_flash)
    | intro _)

theorem settleUpdate_keep {Q : List Instr} {V : Nat} (v j : Nat) (skip : Bool) (s : State) (hK : Keep Q V s) :
    Keep Q V (settleUpdate v j skip s) := by
  unfold settleUpdate
  try dsimp only
  repeat' (first
    | with_reducible exact hK | with_reducible assumption | with_reducible apply State.updStage_keep
    | with_reducible apply sendAgreement_keep | with_reducible apply dropShards_keep
    | with_reducible apply skipEvent_keep | split | intro _)

theorem finalPhase_keep {Q : List Instr} {V : Nat} (v j : Nat) (vd : Option Nat) (skip : Bool) (s : State)
    (hK : Keep Q V s) :
    Keep Q V (finalPhase v j vd skip s) := by
  unfold finalPhase
  try dsimp only
  repeat' (first
    | with_reducible exact hK | with_reducible assumption | with_reducible apply State.updEng_keep
    | with_reducible apply haltStage_keep | with_reducible apply trySubmit_keep
    | with_reducible apply releaseCommit_keep | with_reducible apply settleUpdate_keep | split | intro _)

theorem settleHold_keep {Q : List Instr} {V : Nat} (s : State) (hK : Keep Q V s) :
    Keep Q V (settleHold s) := by
  unfold settleHold
  try dsimp only
  repeat' (first
    | with_reducible exact hK | with_reducible assumption | with_reducible apply forEach_keep
    | with_reducible apply haltStage_keep | split | intro _)

theorem holdForCheck_keep {Q : List Instr} {V : Nat} (v : Nat) (s : State) (hK : Keep Q V s) :
    Keep Q V (holdForCheck v s) := by
  unfold holdForCheck
  try dsimp only
  repeat' (first
    | with_reducible exact hK | with_reducible assumption | with_reducible apply State.updStage_keep
    | with_reducible apply settleHold_keep | (show _ = _; rfl) | split
    | (simp only [keep_lit]; first | with_reducible apply keep_mk | with_reducible apply keep_mk_hostMem | with_reducible apply keep_mk_chip | with_reducible apply keep_mk_flash)
    | intro _)

theorem execCommitFinalPhase_keep {Q : List Instr} {V : Nat} (v : Fin 16) (s : State) (hK : Keep Q V s) :
    KeepOut Q V (execCommitFinalPhase v s) := by
  unfold execCommitFinalPhase
  try dsimp only
  repeat' (first
    | with_reducible apply keepOut_next | with_reducible exact hK | with_reducible assumption
    | with_reducible apply finalPhase_keep | with_reducible apply holdForCheck_keep | (show _ = _; rfl) | split
    | (simp only [keep_lit]; first | with_reducible apply keep_mk | with_reducible apply keep_mk_hostMem | with_reducible apply keep_mk_chip | with_reducible apply keep_mk_flash)
    | intro _)

end Sys2Proof.Machine
end

