-- ==== Sys2Proof/Laws/KeepLink.lean ====
section
/-!
SUPPORT. Sys2Proof/Laws/KeepLink.lean: mailboxes, Conjunction links and fault handling keep the invariant.
-/
namespace Sys2Proof.Machine

theorem mctpMessage_keep {Q : List Instr} {V : Nat} (bs : List Byte) (s : State) (hK : Keep Q V s) :
    Keep Q V (mctpMessage bs s) := by
  unfold mctpMessage
  try dsimp only
  repeat' (first
    | with_reducible exact hK | with_reducible assumption | with_reducible apply State.send_keep
    | with_reducible apply forEach_keep | split | intro _)

theorem complete_keep {Q : List Instr} {V : Nat} (mb : Mailbox) (opcode id respAddr status : Nat) (result resp : List Byte) (s : State)
    (hK : Keep Q V s) :
    Keep Q V (complete mb opcode id respAddr status result resp s) := by
  unfold complete
  try dsimp only
  repeat' (first
    | with_reducible exact hK | with_reducible assumption | with_reducible apply forEach_keep
    | with_reducible apply putEntry_keep | with_reducible apply signalMailbox_keep
    | with_reducible apply appoSend_keep | with_reducible apply guestRequest_keep
    | with_reducible apply mctpMessage_keep | (show _ = _; rfl) | split
    | (simp only [keep_lit]; first | with_reducible apply keep_mk | with_reducible apply keep_mk_hostMem | with_reducible apply keep_mk_chip | with_reducible apply keep_mk_flash)
    | intro _)

theorem completeRunning_keep {Q : List Instr} {V : Nat} (r : Running) (status : Nat) (result : List Byte) (s : State)
    (hK : Keep Q V s) :
    Keep Q V (completeRunning r status result s) := by
  unfold completeRunning
  try dsimp only
  repeat' (first
    | with_reducible exact hK | with_reducible assumption | with_reducible apply complete_keep | (show _ = _; rfl)
    | split
    | (simp only [keep_lit]; first | with_reducible apply keep_mk | with_reducible apply keep_mk_hostMem | with_reducible apply keep_mk_chip | with_reducible apply keep_mk_flash)
    | intro _)

theorem completeOp_keep {Q : List Instr} {V : Nat} (op status : Nat) (result : List Byte) (s : State)
    (hK : Keep Q V s) :
    Keep Q V (completeOp op status result s) := by
  unfold completeOp
  try dsimp only
  repeat' (first
    | with_reducible exact hK | with_reducible assumption | with_reducible apply completeRunning_keep
    | (show _ = _; rfl) | split
    | (simp only [keep_lit]; first | with_reducible apply keep_mk | with_reducible apply keep_mk_hostMem | with_reducible apply keep_mk_chip | with_reducible apply keep_mk_flash)
    | intro _)

/-- What a reply keeps. -/
def KeepReply (q : List Instr) (n : Nat) : Reply → Prop
  | .refuse _ => True
  | .done _ _ s => Keep q n s
  | .failed _ s => Keep q n s
  | .goesOn s => Keep q n s

theorem keepReply_refuse {q : List Instr} {n : Nat} (r : Refuse) : KeepReply q n (.refuse r) := trivial
theorem keepReply_done {q : List Instr} {n : Nat} (a b : List Byte) (s : State) (h : Keep q n s) :
    KeepReply q n (.done a b s) := h
theorem keepReply_failed {q : List Instr} {n : Nat} (r : Refuse) (s : State) (h : Keep q n s) :
    KeepReply q n (.failed r s) := h
theorem keepReply_goesOn {q : List Instr} {n : Nat} (s : State) (h : Keep q n s) : KeepReply q n (.goesOn s) := h
theorem Reply.no_keep {q : List Instr} {n : Nat} (a : Nat) : KeepReply q n (Reply.no a) := trivial
theorem Reply.noStage_keep {q : List Instr} {n : Nat} (a b : Nat) : KeepReply q n (Reply.noStage a b) := trivial
theorem Reply.noAt_keep {q : List Instr} {n : Nat} (a b : Nat) : KeepReply q n (Reply.noAt a b) := trivial
theorem Reply.ok_keep {q : List Instr} {n : Nat} (s : State) (h : Keep q n s) : KeepReply q n (Reply.ok s) := h

theorem takeEntry_keep {Q : List Instr} {V : Nat} (c : Cmd) (s : State) (hK : Keep Q V s) :
    Keep Q V (takeEntry c s) := by
  unfold takeEntry
  try dsimp only
  repeat' (first
    | with_reducible exact hK | with_reducible assumption | with_reducible apply State.updMailbox_keep
    | (show _ = _; rfl) | split
    | (simp only [keep_lit]; first | with_reducible apply keep_mk | with_reducible apply keep_mk_hostMem | with_reducible apply keep_mk_chip | with_reducible apply keep_mk_flash)
    | intro _)

theorem serve_keep {Q : List Instr} {V : Nat} (c : Cmd) (p : CmdSpec) (go : State → Reply) (s : State)
    (hgo : ∀ y, Keep Q V y → KeepReply Q V (go y)) (hK : Keep Q V s) : Keep Q V (serve c p go s) := by
  unfold serve
  dsimp only
  have ht := takeEntry_keep c s hK
  split
  · exact hK
  · split
    · exact complete_keep _ _ _ _ _ _ _ _ ht
    · split
      · exact complete_keep _ _ _ _ _ _ _ _ ht
      · have hr := hgo _ ht
        split
        · exact complete_keep _ _ _ _ _ _ _ _ ht
        · next e => rw [e] at hr; exact complete_keep _ _ _ _ _ _ _ _ hr
        · next e => rw [e] at hr; exact complete_keep _ _ _ _ _ _ _ _ hr
        · next e => rw [e] at hr; exact hr

theorem runCmd_keep {Q : List Instr} {V : Nat} (c : Cmd) (p : CmdSpec) (go : State → Reply) (s : State) (hgo : ∀ y, Keep Q V y → KeepReply Q V (go y))
    (hK : Keep Q V s) :
    KeepOut Q V (runCmd c p go s) := by
  unfold runCmd
  try dsimp only
  repeat' (first
    | with_reducible apply keepOut_next | with_reducible exact hK | with_reducible assumption
    | with_reducible apply hgo | with_reducible apply serve_keep | split | intro _)

theorem jobEvent_keep {Q : List Instr} {V : Nat} (code reason : Nat) (s : State) (hK : Keep Q V s) :
    Keep Q V (jobEvent code reason s) := by
  unfold jobEvent
  try dsimp only
  repeat' (first
    | with_reducible exact hK | with_reducible assumption | with_reducible apply raiseParser_keep | split | intro _)

theorem State.updHost_keep {Q : List Instr} {V : Nat} (s : State) (f : HostIf → HostIf) (hK : Keep Q V s) :
    Keep Q V (State.updHost s f) := by
  unfold State.updHost
  try dsimp only
  repeat' (first
    | with_reducible exact hK | with_reducible assumption | (show _ = _; rfl) | split
    | (simp only [keep_lit]; first | with_reducible apply keep_mk | with_reducible apply keep_mk_hostMem | with_reducible apply keep_mk_chip | with_reducible apply keep_mk_flash)
    | intro _)

theorem bar2Refused_keep {Q : List Instr} {V : Nat} (s : State) (hK : Keep Q V s) :
    Keep Q V (bar2Refused s) := by
  unfold bar2Refused
  try dsimp only
  repeat' (first
    | with_reducible exact hK | with_reducible assumption | with_reducible apply State.updHost_keep
    | (show _ = _; rfl) | split
    | (simp only [keep_lit]; first | with_reducible apply keep_mk | with_reducible apply keep_mk_hostMem | with_reducible apply keep_mk_chip | with_reducible apply keep_mk_flash)
    | intro _)

theorem moveChunk_keep {Q : List Instr} {V : Nat} (c : Chunk) (s : State) (hK : Keep Q V s) :
    Keep Q V (moveChunk c s) := by
  unfold moveChunk
  try dsimp only
  repeat' (first
    | with_reducible exact hK | with_reducible assumption | with_reducible apply State.putWhole_keep
    | with_reducible apply bar2Refused_keep | split | intro _)

theorem drainBar2_keep {Q : List Instr} {V : Nat} (s : State) (hK : Keep Q V s) :
    Keep Q V (drainBar2 s) := by
  unfold drainBar2
  try dsimp only
  repeat' (first
    | with_reducible exact hK | with_reducible assumption | with_reducible apply forEach_keep
    | with_reducible apply State.updHost_keep | with_reducible apply moveChunk_keep | (show _ = _; rfl) | split
    | (simp only [keep_lit]; first | with_reducible apply keep_mk | with_reducible apply keep_mk_hostMem | with_reducible apply keep_mk_chip | with_reducible apply keep_mk_flash)
    | intro _)

theorem transmit_keep {Q : List Instr} {V : Nat} (p : Nat) (h : BitVec 256) (src : Option Nat) (data : List Byte) (s : State)
    (hK : Keep Q V s) :
    Keep Q V (transmit p h src data s) := by
  unfold transmit
  try dsimp only
  repeat' (first
    | with_reducible exact hK | with_reducible assumption | with_reducible apply State.send_keep | split | intro _)

theorem sendAck_keep {Q : List Instr} {V : Nat} (p type : Nat) (s : State) (hK : Keep Q V s) :
    Keep Q V (sendAck p type s) := by
  unfold sendAck
  try dsimp only
  repeat' (first
    | with_reducible exact hK | with_reducible assumption | with_reducible apply State.updPort_keep
    | with_reducible apply transmit_keep | (show _ = _; rfl) | split
    | (simp only [keep_lit]; first | with_reducible apply keep_mk | with_reducible apply keep_mk_hostMem | with_reducible apply keep_mk_chip | with_reducible apply keep_mk_flash)
    | intro _)

theorem nak_keep {Q : List Instr} {V : Nat} (p : Nat) (s : State) (hK : Keep Q V s) :
    Keep Q V (nak p s) := by
  unfold nak
  try dsimp only
  repeat' (first
    | with_reducible exact hK | with_reducible assumption | with_reducible apply State.updPort_keep
    | with_reducible apply sendAck_keep | (show _ = _; rfl) | split
    | (simp only [keep_lit]; first | with_reducible apply keep_mk | with_reducible apply keep_mk_hostMem | with_reducible apply keep_mk_chip | with_reducible apply keep_mk_flash)
    | intro _)

theorem sourceFault_keep {Q : List Instr} {V : Nat} (p owner : Nat) (s t : State) (h : Keep Q V s) :
    ∀ l : List (Nat × Nat), sourceFault p owner s l = some t → Keep Q V t := by
  intro l
  induction l with
  | nil => intro e; cases e
  | cons x l ih =>
    intro e
    unfold sourceFault at e
    dsimp only at e
    split at e
    · cases e; exact dieAbsent_keep _ _ _ _ _ _ h
    · split at e
      · cases e; exact memBad_keep _ _ _ _ _ h
      · exact ih e

theorem framePayload_keep {Q : List Instr} {V : Nat} (p owner : Nat) (first : List (Nat × Nat)) (src : Option Nat)
    (data : List Byte) (n : Nat) (s t : State) (h : Keep Q V s) (e : framePayload p owner first src data n s = .error t) :
    Keep Q V t := by
  unfold framePayload at e
  split at e
  · next e' => cases e; exact sourceFault_keep _ _ _ _ h _ e'
  · cases e

theorem sendNew_keep {Q : List Instr} {V : Nat} (p i : Nat) (s : State) (h : Keep Q V s) : Keep Q V (sendNew p i s) := by
  unfold sendNew
  split
  · exact h
  · dsimp only
    split
    · next e => exact framePayload_keep _ _ _ _ _ _ _ _ h e
    · exact State.updPort_keep _ _ _ (transmit_keep _ _ _ _ _ h)

theorem pumpPort_keep {Q : List Instr} {V : Nat} (p fuel : Nat) : ∀ s : State, Keep Q V s →
    Keep Q V (pumpPort p fuel s) := by
  induction fuel with
  | zero => intro s h; exact h
  | succ n ih =>
    intro s h
    unfold pumpPort
    split
    · split
      · exact ih _ (sendNew_keep _ _ _ h)
      · exact h
    · exact h

theorem sendCredits_keep {Q : List Instr} {V : Nat} (p rank fuel : Nat) : ∀ (es : List (BitVec 128)) (s : State),
    Keep Q V s → Keep Q V (sendCredits p rank fuel es s) := by
  induction fuel with
  | zero => intro es s h; exact h
  | succ n ih =>
    intro es s h
    unfold sendCredits
    dsimp only
    split
    · exact h
    · exact ih _ _ (transmit_keep _ _ _ _ _ h)

theorem creditsOut_keep {Q : List Instr} {V : Nat} (p : Nat) (es : List (Nat × BitVec 128)) (s : State)
    (hK : Keep Q V s) :
    Keep Q V (creditsOut p es s) := by
  unfold creditsOut
  try dsimp only
  repeat' (first
    | with_reducible exact hK | with_reducible assumption | with_reducible apply forEach_keep
    | with_reducible apply sendCredits_keep | split | intro _)

theorem reportCredits_keep {Q : List Instr} {V : Nat} (p : Nat) (s : State) (hK : Keep Q V s) :
    Keep Q V (reportCredits p s) := by
  unfold reportCredits
  try dsimp only
  repeat' (first
    | with_reducible exact hK | with_reducible assumption | with_reducible apply State.updPort_keep
    | with_reducible apply creditsOut_keep | (show _ = _; rfl) | split
    | (simp only [keep_lit]; first | with_reducible apply keep_mk | with_reducible apply keep_mk_hostMem | with_reducible apply keep_mk_chip | with_reducible apply keep_mk_flash)
    | intro _)

theorem passCredit_keep {Q : List Instr} {V : Nat} (m : OutMsg) (s : State) (hK : Keep Q V s) :
    Keep Q V (passCredit m s) := by
  unfold passCredit
  try dsimp only
  repeat' (first
    | with_reducible exact hK | with_reducible assumption | with_reducible apply transmit_keep | (show _ = _; rfl)
    | split
    | (simp only [keep_lit]; first | with_reducible apply keep_mk | with_reducible apply keep_mk_hostMem | with_reducible apply keep_mk_chip | with_reducible apply keep_mk_flash)
    | intro _)

theorem drainTransit_keep {Q : List Instr} {V : Nat} (s : State) (hK : Keep Q V s) :
    Keep Q V (drainTransit s) := by
  unfold drainTransit
  try dsimp only
  repeat' (first
    | with_reducible exact hK | with_reducible assumption | with_reducible apply forEach_keep
    | with_reducible apply queueColl_keep | with_reducible apply passCredit_keep | (show _ = _; rfl) | split
    | (simp only [keep_lit]; first | with_reducible apply keep_mk | with_reducible apply keep_mk_hostMem | with_reducible apply keep_mk_chip | with_reducible apply keep_mk_flash)
    | intro _)

theorem pump_keep {Q : List Instr} {V : Nat} (s : State) (hK : Keep Q V s) :
    Keep Q V (pump s) := by
  unfold pump
  try dsimp only
  repeat' (first
    | with_reducible exact hK | with_reducible assumption | with_reducible apply forEach_keep
    | with_reducible apply pumpPort_keep | with_reducible apply reportCredits_keep
    | with_reducible apply drainTransit_keep | split | intro _)

theorem takeAck_keep {Q : List Instr} {V : Nat} (p ack : Nat) (s : State) (hK : Keep Q V s) :
    Keep Q V (takeAck p ack s) := by
  unfold takeAck
  try dsimp only
  repeat' (first
    | with_reducible exact hK | with_reducible assumption | with_reducible apply State.updPort_keep
    | (show _ = _; rfl) | split
    | (simp only [keep_lit]; first | with_reducible apply keep_mk | with_reducible apply keep_mk_hostMem | with_reducible apply keep_mk_chip | with_reducible apply keep_mk_flash)
    | intro _)

theorem enterRetraining_keep {Q : List Instr} {V : Nat} (p : Nat) (s : State) (hK : Keep Q V s) :
    Keep Q V (enterRetraining p s) := by
  unfold enterRetraining
  try dsimp only
  repeat' (first
    | with_reducible exact hK | with_reducible assumption | with_reducible apply State.updPort_keep
    | (show _ = _; rfl) | split
    | (simp only [keep_lit]; first | with_reducible apply keep_mk | with_reducible apply keep_mk_hostMem | with_reducible apply keep_mk_chip | with_reducible apply keep_mk_flash)
    | intro _)

theorem resendAll_keep {Q : List Instr} {V : Nat} (p : Nat) (ts : List TxFrame) : ∀ s : State, Keep Q V s →
    Keep Q V (resendAll p ts s) := by
  induction ts with
  | nil => intro s h; exact h
  | cons t ts ih =>
    intro s h
    unfold resendAll
    split
    · next e => exact framePayload_keep _ _ _ _ _ _ _ _ h e
    · exact ih _ (State.updPort_keep _ _ _ (transmit_keep _ _ _ _ _ h))

theorem goBack_keep {Q : List Instr} {V : Nat} (p : Nat) (s : State) (hK : Keep Q V s) :
    Keep Q V (goBack p s) := by
  unfold goBack
  try dsimp only
  repeat' (first
    | with_reducible exact hK | with_reducible assumption | with_reducible apply State.updPort_keep
    | with_reducible apply enterRetraining_keep | with_reducible apply resendAll_keep | (show _ = _; rfl) | split
    | (simp only [keep_lit]; first | with_reducible apply keep_mk | with_reducible apply keep_mk_hostMem | with_reducible apply keep_mk_chip | with_reducible apply keep_mk_flash)
    | intro _)

theorem unpin_keep {Q : List Instr} {V : Nat} (stage commit : Nat) (s : State) (hK : Keep Q V s) :
    Keep Q V (unpin stage commit s) := by
  unfold unpin
  try dsimp only
  repeat' (first
    | with_reducible exact hK | with_reducible assumption | with_reducible apply State.updStage_keep
    | (show _ = _; rfl) | split
    | (simp only [keep_lit]; first | with_reducible apply keep_mk | with_reducible apply keep_mk_hostMem | with_reducible apply keep_mk_chip | with_reducible apply keep_mk_flash)
    | intro _)

theorem endExport_keep {Q : List Instr} {V : Nat} (p status : Nat) (s : State) (hK : Keep Q V s) :
    Keep Q V (endExport p status s) := by
  unfold endExport
  try dsimp only
  repeat' (first
    | with_reducible exact hK | with_reducible assumption | with_reducible apply State.updPort_keep
    | ((with_reducible refine State.updJob_keep_same _ _ ?_ ?_); rotate_left; intro _; rfl)
    | ((with_reducible refine State.updJob_keep _ _ ?_ ?_); rotate_left; intro _; exact Nat.le_of_ble_eq_true rfl)
    | with_reducible apply completeRunning_keep | with_reducible apply unpin_keep | (show _ = _; rfl) | split
    | (simp only [keep_lit]; first | with_reducible apply keep_mk | with_reducible apply keep_mk_hostMem | with_reducible apply keep_mk_chip | with_reducible apply keep_mk_flash)
    | intro _)

theorem abandonExport_keep {Q : List Instr} {V : Nat} (p : Nat) (s : State) (hK : Keep Q V s) :
    Keep Q V (abandonExport p s) := by
  unfold abandonExport
  try dsimp only
  repeat' (first
    | with_reducible exact hK | with_reducible assumption | with_reducible apply forEach_keep
    | with_reducible apply raise_keep | with_reducible apply endExport_keep | split | intro _)

theorem downEffect_keep {Q : List Instr} {V : Nat} (p : Nat) (s : State) (hK : Keep Q V s) :
    Keep Q V (downEffect p s) := by
  unfold downEffect
  try dsimp only
  repeat' (first
    | with_reducible exact hK | with_reducible assumption | with_reducible apply forEach_keep
    | with_reducible apply haltStage_keep | with_reducible apply abandonExport_keep | split | intro _)

theorem downRecord_keep {Q : List Instr} {V : Nat} (p reason attempts : Nat) (s : State) (hK : Keep Q V s) :
    Keep Q V (downRecord p reason attempts s) := by
  unfold downRecord
  try dsimp only
  repeat' (first
    | with_reducible exact hK | with_reducible assumption | with_reducible apply noteRecord_keep | split | intro _)

theorem portDown_keep {Q : List Instr} {V : Nat} (p reason : Nat) (s : State) (hK : Keep Q V s) :
    Keep Q V (portDown p reason s) := by
  unfold portDown
  try dsimp only
  repeat' (first
    | with_reducible exact hK | with_reducible assumption | with_reducible apply State.updPort_keep
    | with_reducible apply raise_keep | with_reducible apply downEffect_keep | with_reducible apply downRecord_keep
    | (show _ = _; rfl) | split
    | (simp only [keep_lit]; first | with_reducible apply keep_mk | with_reducible apply keep_mk_hostMem | with_reducible apply keep_mk_chip | with_reducible apply keep_mk_flash)
    | intro _)

theorem enterUp_keep {Q : List Instr} {V : Nat} (p : Nat) (s : State) (hK : Keep Q V s) :
    Keep Q V (enterUp p s) := by
  unfold enterUp
  try dsimp only
  repeat' (first
    | with_reducible exact hK | with_reducible assumption | with_reducible apply State.updPort_keep
    | with_reducible apply raise_keep | (show _ = _; rfl) | split
    | (simp only [keep_lit]; first | with_reducible apply keep_mk | with_reducible apply keep_mk_hostMem | with_reducible apply keep_mk_chip | with_reducible apply keep_mk_flash)
    | intro _)

theorem sendHello_keep {Q : List Instr} {V : Nat} (p : Nat) (s : State) (hK : Keep Q V s) :
    Keep Q V (sendHello p s) := by
  unfold sendHello
  try dsimp only
  repeat' (first
    | with_reducible exact hK | with_reducible assumption | with_reducible apply transmit_keep | split | intro _)

theorem execHelloTimer_keep {Q : List Instr} {V : Nat} (p : Fin 8) (s : State) (hK : Keep Q V s) :
    KeepOut Q V (execHelloTimer p s) := by
  unfold execHelloTimer
  try dsimp only
  repeat' (first
    | with_reducible apply keepOut_next | with_reducible exact hK | with_reducible assumption
    | with_reducible apply State.updPort_keep | with_reducible apply enterUp_keep
    | with_reducible apply sendHello_keep | (show _ = _; rfl) | split
    | (simp only [keep_lit]; first | with_reducible apply keep_mk | with_reducible apply keep_mk_hostMem | with_reducible apply keep_mk_chip | with_reducible apply keep_mk_flash)
    | intro _)

theorem execResendTimeout_keep {Q : List Instr} {V : Nat} (p : Fin 8) (s : State) (hK : Keep Q V s) :
    KeepOut Q V (execResendTimeout p s) := by
  unfold execResendTimeout
  try dsimp only
  repeat' (first
    | with_reducible apply keepOut_next | with_reducible exact hK | with_reducible assumption
    | with_reducible apply goBack_keep | split | intro _)

theorem execRetryWindowExpiry_keep {Q : List Instr} {V : Nat} (p : Fin 8) (s : State) (hK : Keep Q V s) :
    KeepOut Q V (execRetryWindowExpiry p s) := by
  unfold execRetryWindowExpiry
  try dsimp only
  repeat' (first
    | with_reducible apply keepOut_next | with_reducible exact hK | with_reducible assumption
    | with_reducible apply enterRetraining_keep | split | intro _)

theorem execRetrainingAttemptEnd_keep {Q : List Instr} {V : Nat} (p : Fin 8) (ok signal : Bool) (s : State)
    (hK : Keep Q V s) :
    KeepOut Q V (execRetrainingAttemptEnd p ok signal s) := by
  unfold execRetrainingAttemptEnd
  try dsimp only
  repeat' (first
    | with_reducible apply keepOut_next | with_reducible exact hK | with_reducible assumption
    | with_reducible apply State.updPort_keep | with_reducible apply resendAll_keep
    | with_reducible apply portDown_keep | (show _ = _; rfl) | split
    | (simp only [keep_lit]; first | with_reducible apply keep_mk | with_reducible apply keep_mk_hostMem | with_reducible apply keep_mk_chip | with_reducible apply keep_mk_flash)
    | intro _)

theorem execPortTrainingAttempt_keep {Q : List Instr} {V : Nat} (p : Fin 8) (signal ok : Bool) (s : State)
    (hK : Keep Q V s) :
    KeepOut Q V (execPortTrainingAttempt p signal ok s) := by
  unfold execPortTrainingAttempt
  try dsimp only
  repeat' (first
    | with_reducible apply keepOut_next | with_reducible exact hK | with_reducible assumption
    | with_reducible apply State.updPort_keep | (show _ = _; rfl) | split
    | (simp only [keep_lit]; first | with_reducible apply keep_mk | with_reducible apply keep_mk_hostMem | with_reducible apply keep_mk_chip | with_reducible apply keep_mk_flash)
    | intro _)

theorem execAckTimer_keep {Q : List Instr} {V : Nat} (p : Fin 8) (s : State) (hK : Keep Q V s) :
    KeepOut Q V (execAckTimer p s) := by
  unfold execAckTimer
  try dsimp only
  repeat' (first
    | with_reducible apply keepOut_next | with_reducible exact hK | with_reducible assumption
    | with_reducible apply State.updPort_keep | with_reducible apply sendAck_keep | (show _ = _; rfl) | split
    | (simp only [keep_lit]; first | with_reducible apply keep_mk | with_reducible apply keep_mk_hostMem | with_reducible apply keep_mk_chip | with_reducible apply keep_mk_flash)
    | intro _)

theorem execCreditRepeatTimer_keep {Q : List Instr} {V : Nat} (p : Fin 8) (s : State) (hK : Keep Q V s) :
    KeepOut Q V (execCreditRepeatTimer p s) := by
  unfold execCreditRepeatTimer
  try dsimp only
  repeat' (first
    | with_reducible apply keepOut_next | with_reducible exact hK | with_reducible assumption
    | with_reducible apply creditsOut_keep | split | intro _)

theorem execDeliveryTimeout_keep {Q : List Instr} {V : Nat} (p : Fin 8) (k : Nat) (s : State) (hK : Keep Q V s) :
    KeepOut Q V (execDeliveryTimeout p k s) := by
  unfold execDeliveryTimeout
  try dsimp only
  repeat' (first
    | with_reducible apply keepOut_next | with_reducible exact hK | with_reducible assumption
    | with_reducible apply raise_keep | with_reducible apply haltStage_keep | (show _ = _; rfl) | split
    | (simp only [keep_lit]; first | with_reducible apply keep_mk | with_reducible apply keep_mk_hostMem | with_reducible apply keep_mk_chip | with_reducible apply keep_mk_flash)
    | intro _)

theorem execAnswerTimeout_keep {Q : List Instr} {V : Nat} (v : Fin 16) (backward : Bool) (s : State)
    (hK : Keep Q V s) :
    KeepOut Q V (execAnswerTimeout v backward s) := by
  unfold execAnswerTimeout
  try dsimp only
  repeat' (first
    | with_reducible apply keepOut_next | with_reducible exact hK | with_reducible assumption
    | with_reducible apply raise_keep | with_reducible apply haltStage_keep | split | intro _)

theorem protoError_keep {Q : List Instr} {V : Nat} (p : Nat) (s : State) (hK : Keep Q V s) :
    Keep Q V (protoError p s) := by
  unfold protoError
  try dsimp only
  repeat' (first
    | with_reducible exact hK | with_reducible assumption | with_reducible apply State.updPort_keep
    | with_reducible apply raise_keep | (show _ = _; rfl) | split
    | (simp only [keep_lit]; first | with_reducible apply keep_mk | with_reducible apply keep_mk_hostMem | with_reducible apply keep_mk_chip | with_reducible apply keep_mk_flash)
    | intro _)

theorem acceptSeq_keep {Q : List Instr} {V : Nat} (p : Nat) (h : BitVec 256) (s : State) (hK : Keep Q V s) :
    Keep Q V (acceptSeq p h s) := by
  unfold acceptSeq
  try dsimp only
  repeat' (first
    | with_reducible exact hK | with_reducible assumption | with_reducible apply State.updPort_keep
    | (show _ = _; rfl) | split
    | (simp only [keep_lit]; first | with_reducible apply keep_mk | with_reducible apply keep_mk_hostMem | with_reducible apply keep_mk_chip | with_reducible apply keep_mk_flash)
    | intro _)

theorem ackDue_keep {Q : List Instr} {V : Nat} (p : Nat) (s : State) (hK : Keep Q V s) :
    Keep Q V (ackDue p s) := by
  unfold ackDue
  try dsimp only
  repeat' (first
    | with_reducible exact hK | with_reducible assumption | with_reducible apply sendAck_keep | split | intro _)

theorem receive_keep {Q : List Instr} {V : Nat} (p : Nat) (f : Frame) (go : State → State) (s : State) (hgo : ∀ y, Keep Q V y → Keep Q V (go y))
    (hK : Keep Q V s) :
    Keep Q V (receive p f go s) := by
  unfold receive
  try dsimp only
  repeat' (first
    | with_reducible exact hK | with_reducible assumption | with_reducible apply hgo
    | with_reducible apply State.updPort_keep | with_reducible apply nak_keep | with_reducible apply takeAck_keep
    | with_reducible apply protoError_keep | with_reducible apply acceptSeq_keep | with_reducible apply ackDue_keep
    | split | intro _)

theorem forwardFrame_keep {Q : List Instr} {V : Nat} (p : Nat) (f : Frame) (s : State) (hK : Keep Q V s) :
    Keep Q V (forwardFrame p f s) := by
  unfold forwardFrame
  try dsimp only
  repeat' (first
    | with_reducible exact hK | with_reducible assumption | with_reducible apply State.updPort_keep
    | with_reducible apply queueColl_keep | with_reducible apply passCredit_keep | (show _ = _; rfl) | split
    | (simp only [keep_lit]; first | with_reducible apply keep_mk | with_reducible apply keep_mk_hostMem | with_reducible apply keep_mk_chip | with_reducible apply keep_mk_flash)
    | intro _)

theorem collective_keep {Q : List Instr} {V : Nat} (p : Nat) (f : Frame) (go : State → State) (s : State) (hgo : ∀ y, Keep Q V y → Keep Q V (go y))
    (hK : Keep Q V s) :
    Keep Q V (collective p f go s) := by
  unfold collective
  try dsimp only
  repeat' (first
    | with_reducible exact hK | with_reducible assumption | with_reducible apply hgo
    | with_reducible apply forwardFrame_keep | split | intro _)

theorem clauseRoute_keep {Q : List Instr} {V : Nat} (src dst : Nat) (s : State) (hK : Keep Q V s) :
    Keep Q V (clauseRoute src dst s) := by
  unfold clauseRoute
  try dsimp only
  repeat' (first
    | with_reducible exact hK | with_reducible assumption | with_reducible apply raise_keep | split | intro _)

theorem clauseGap_keep {Q : List Instr} {V : Nat} (v src dst expected found : Nat) (s : State) (hK : Keep Q V s) :
    Keep Q V (clauseGap v src dst expected found s) := by
  unfold clauseGap
  try dsimp only
  repeat' (first
    | with_reducible exact hK | with_reducible assumption | with_reducible apply raise_keep
    | with_reducible apply haltStage_keep | split | intro _)

theorem countDup_keep {Q : List Instr} {V : Nat} (v : Nat) (backward : Bool) (s : State) (hK : Keep Q V s) :
    Keep Q V (countDup v backward s) := by
  unfold countDup
  try dsimp only
  repeat' (first
    | with_reducible exact hK | with_reducible assumption | with_reducible apply State.updStage_keep
    | (show _ = _; rfl) | split
    | (simp only [keep_lit]; first | with_reducible apply keep_mk | with_reducible apply keep_mk_hostMem | with_reducible apply keep_mk_chip | with_reducible apply keep_mk_flash)
    | intro _)

theorem refusePayload_keep {Q : List Instr} {V : Nat} (p v : Nat) (backward : Bool) (seq ends : Nat) (s : State)
    (hK : Keep Q V s) :
    Keep Q V (refusePayload p v backward seq ends s) := by
  unfold refusePayload
  try dsimp only
  repeat' (first
    | with_reducible exact hK | with_reducible assumption | with_reducible apply State.updStage_keep
    | with_reducible apply oversize_keep | (show _ = _; rfl) | split
    | (simp only [keep_lit]; first | with_reducible apply keep_mk | with_reducible apply keep_mk_hostMem | with_reducible apply keep_mk_chip | with_reducible apply keep_mk_flash)
    | intro _)

theorem payloadFrame_keep {Q : List Instr} {V : Nat} (p v : Nat) (f : Frame) (s : State) (hK : Keep Q V s) :
    Keep Q V (payloadFrame p v f s) := by
  unfold payloadFrame
  try dsimp only
  repeat' (first
    | with_reducible exact hK | with_reducible assumption | with_reducible apply State.store_keep
    | with_reducible apply dieAbsent_keep | with_reducible apply State.mend_keep
    | with_reducible apply refusePayload_keep | split | intro _)

theorem clauseArrives_keep {Q : List Instr} {V : Nat} (p v : Nat) (backward : Bool) (c : BitVec 512) (s : State)
    (hK : Keep Q V s) :
    Keep Q V (clauseArrives p v backward c s) := by
  unfold clauseArrives
  try dsimp only
  repeat' (first
    | with_reducible exact hK | with_reducible assumption | with_reducible apply dieAbsent_keep
    | with_reducible apply oversize_keep | with_reducible apply deliver_keep | with_reducible apply clauseGap_keep
    | with_reducible apply countDup_keep | (show _ = _; rfl) | split
    | (simp only [keep_lit]; first | with_reducible apply keep_mk | with_reducible apply keep_mk_hostMem | with_reducible apply keep_mk_chip | with_reducible apply keep_mk_flash)
    | intro _)

theorem contribFrame_keep {Q : List Instr} {V : Nat} (v : Nat) (f : Frame) (s : State) (hK : Keep Q V s) :
    Keep Q V (contribFrame v f s) := by
  unfold contribFrame
  try dsimp only
  repeat' (first
    | with_reducible exact hK | with_reducible assumption | with_reducible apply State.updStage_keep
    | (show _ = _; rfl) | split
    | (simp only [keep_lit]; first | with_reducible apply keep_mk | with_reducible apply keep_mk_hostMem | with_reducible apply keep_mk_chip | with_reducible apply keep_mk_flash)
    | intro _)

theorem gmaxFrame_keep {Q : List Instr} {V : Nat} (v : Nat) (f : Frame) (s : State) (hK : Keep Q V s) :
    Keep Q V (gmaxFrame v f s) := by
  unfold gmaxFrame
  try dsimp only
  repeat' (first
    | with_reducible exact hK | with_reducible assumption | with_reducible apply State.updStage_keep
    | (show _ = _; rfl) | split
    | (simp only [keep_lit]; first | with_reducible apply keep_mk | with_reducible apply keep_mk_hostMem | with_reducible apply keep_mk_chip | with_reducible apply keep_mk_flash)
    | intro _)

theorem writeRanges_keep {Q : List Instr} {V : Nat} (a : Nat) (rs : List (Nat × Nat)) : ∀ (bs : List Byte) (s : State),
    Keep Q V s → Keep Q V (writeRanges a rs bs s) := by
  induction rs with
  | nil => intro bs s h; exact h
  | cons r rs ih => intro bs s h; exact ih _ _ (State.mend_keep _ _ _ (State.store_keep _ _ _ h))

theorem shardArrives_keep {Q : List Instr} {V : Nat} (v owner r commit addr : Nat) (bs : List Byte) (s : State)
    (hK : Keep Q V s) :
    Keep Q V (shardArrives v owner r commit addr bs s) := by
  unfold shardArrives
  try dsimp only
  repeat' (first
    | with_reducible exact hK | with_reducible assumption | with_reducible apply State.updStage_keep
    | with_reducible apply queueColl_keep | with_reducible apply tenseBad_keep
    | with_reducible apply agreementFault_keep | with_reducible apply tenseRecord_keep
    | with_reducible apply verifyShard_keep | with_reducible apply writeRanges_keep | (show _ = _; rfl) | split
    | (simp only [keep_lit]; first | with_reducible apply keep_mk | with_reducible apply keep_mk_hostMem | with_reducible apply keep_mk_chip | with_reducible apply keep_mk_flash)
    | intro _)

theorem tenseFrame_keep {Q : List Instr} {V : Nat} (v : Nat) (f : Frame) (s : State) (hK : Keep Q V s) :
    Keep Q V (tenseFrame v f s) := by
  unfold tenseFrame
  try dsimp only
  repeat' (first
    | with_reducible exact hK | with_reducible assumption | with_reducible apply State.updStage_keep
    | with_reducible apply shardArrives_keep | (show _ = _; rfl) | split
    | (simp only [keep_lit]; first | with_reducible apply keep_mk | with_reducible apply keep_mk_hostMem | with_reducible apply keep_mk_chip | with_reducible apply keep_mk_flash)
    | intro _)

theorem tenseReq_keep {Q : List Instr} {V : Nat} (v : Nat) (h : BitVec 256) (s : State) (hK : Keep Q V s) :
    Keep Q V (tenseReq v h s) := by
  unfold tenseReq
  try dsimp only
  repeat' (first
    | with_reducible exact hK | with_reducible assumption | with_reducible apply queueColl_keep
    | with_reducible apply tenseBad_keep | with_reducible apply agreementFault_keep | (show _ = _; rfl) | split
    | (simp only [keep_lit]; first | with_reducible apply keep_mk | with_reducible apply keep_mk_hostMem | with_reducible apply keep_mk_chip | with_reducible apply keep_mk_flash)
    | intro _)

theorem freeEntries_keep {Q : List Instr} {V : Nat} (cls id accepted : Nat) (s : State) (hK : Keep Q V s) :
    Keep Q V (freeEntries cls id accepted s) := by
  unfold freeEntries
  try dsimp only
  repeat' (first
    | with_reducible exact hK | with_reducible assumption | with_reducible apply State.updStage_keep
    | with_reducible apply forEach_keep | (show _ = _; rfl) | split
    | (simp only [keep_lit]; first | with_reducible apply keep_mk | with_reducible apply keep_mk_hostMem | with_reducible apply keep_mk_chip | with_reducible apply keep_mk_flash)
    | intro _)

theorem takeCredit_keep {Q : List Instr} {V : Nat} (p rank : Nat) (e : BitVec 128) (s : State) (hK : Keep Q V s) :
    Keep Q V (takeCredit p rank e s) := by
  unfold takeCredit
  try dsimp only
  repeat' (first
    | with_reducible exact hK | with_reducible assumption | with_reducible apply State.updPort_keep
    | with_reducible apply forEach_keep | with_reducible apply endExport_keep
    | with_reducible apply freeEntries_keep | (show _ = _; rfl) | split
    | (simp only [keep_lit]; first | with_reducible apply keep_mk | with_reducible apply keep_mk_hostMem | with_reducible apply keep_mk_chip | with_reducible apply keep_mk_flash)
    | intro _)

theorem creditEntriesIn_keep {Q : List Instr} {V : Nat} (p : Nat) (f : Frame) (s : State) (hK : Keep Q V s) :
    Keep Q V (creditEntriesIn p f s) := by
  unfold creditEntriesIn
  try dsimp only
  repeat' (first
    | with_reducible exact hK | with_reducible assumption | with_reducible apply forEach_keep
    | with_reducible apply takeCredit_keep | split | intro _)

theorem ofType_keep {Q : List Instr} {V : Nat} (ts : List Nat) (f : Frame) (go : State → State) (s : State) (hgo : ∀ y, Keep Q V y → Keep Q V (go y))
    (hK : Keep Q V s) :
    KeepOut Q V (ofType ts f go s) := by
  unfold ofType
  try dsimp only
  repeat' (first
    | with_reducible apply keepOut_next | with_reducible exact hK | with_reducible assumption
    | with_reducible apply hgo | split | intro _)

theorem execDataFrame_keep {Q : List Instr} {V : Nat} (p : Fin 8) (f : Frame) (s : State) (hK : Keep Q V s) :
    KeepOut Q V (execDataFrame p f s) := by
  unfold execDataFrame
  try dsimp only
  repeat' (first
    | with_reducible exact hK | with_reducible assumption | with_reducible apply receive_keep
    | with_reducible apply collective_keep | with_reducible apply payloadFrame_keep
    | with_reducible apply contribFrame_keep | with_reducible apply ofType_keep | (show _ = _; rfl) | split
    | (simp only [keep_lit]; first | with_reducible apply keep_mk | with_reducible apply keep_mk_hostMem | with_reducible apply keep_mk_chip | with_reducible apply keep_mk_flash)
    | intro _)

theorem execClauseFrame_keep {Q : List Instr} {V : Nat} (p : Fin 8) (f : Frame) (s : State) (hK : Keep Q V s) :
    KeepOut Q V (execClauseFrame p f s) := by
  unfold execClauseFrame
  try dsimp only
  repeat' (first
    | with_reducible exact hK | with_reducible assumption | with_reducible apply receive_keep
    | with_reducible apply clauseRoute_keep | with_reducible apply clauseArrives_keep
    | with_reducible apply ofType_keep | (show _ = _; rfl) | split
    | (simp only [keep_lit]; first | with_reducible apply keep_mk | with_reducible apply keep_mk_hostMem | with_reducible apply keep_mk_chip | with_reducible apply keep_mk_flash)
    | intro _)

theorem execAckFrame_keep {Q : List Instr} {V : Nat} (p : Fin 8) (f : Frame) (s : State) (hK : Keep Q V s) :
    KeepOut Q V (execAckFrame p f s) := by
  unfold execAckFrame
  try dsimp only
  repeat' (first
    | with_reducible exact hK | with_reducible assumption | with_reducible apply State.updPort_keep
    | with_reducible apply receive_keep | with_reducible apply ofType_keep | (show _ = _; rfl) | split
    | (simp only [keep_lit]; first | with_reducible apply keep_mk | with_reducible apply keep_mk_hostMem | with_reducible apply keep_mk_chip | with_reducible apply keep_mk_flash)
    | intro _)

theorem execNakFrame_keep {Q : List Instr} {V : Nat} (p : Fin 8) (f : Frame) (s : State) (hK : Keep Q V s) :
    KeepOut Q V (execNakFrame p f s) := by
  unfold execNakFrame
  try dsimp only
  repeat' (first
    | with_reducible exact hK | with_reducible assumption | with_reducible apply State.updPort_keep
    | with_reducible apply goBack_keep | with_reducible apply receive_keep | with_reducible apply ofType_keep
    | (show _ = _; rfl) | split
    | (simp only [keep_lit]; first | with_reducible apply keep_mk | with_reducible apply keep_mk_hostMem | with_reducible apply keep_mk_chip | with_reducible apply keep_mk_flash)
    | intro _)

theorem execTenseReqFrame_keep {Q : List Instr} {V : Nat} (p : Fin 8) (f : Frame) (s : State) (hK : Keep Q V s) :
    KeepOut Q V (execTenseReqFrame p f s) := by
  unfold execTenseReqFrame
  try dsimp only
  repeat' (first
    | with_reducible exact hK | with_reducible assumption | with_reducible apply receive_keep
    | with_reducible apply collective_keep | with_reducible apply tenseReq_keep | with_reducible apply ofType_keep
    | (show _ = _; rfl) | split
    | (simp only [keep_lit]; first | with_reducible apply keep_mk | with_reducible apply keep_mk_hostMem | with_reducible apply keep_mk_chip | with_reducible apply keep_mk_flash)
    | intro _)

theorem execTenseDataFrame_keep {Q : List Instr} {V : Nat} (p : Fin 8) (f : Frame) (s : State) (hK : Keep Q V s) :
    KeepOut Q V (execTenseDataFrame p f s) := by
  unfold execTenseDataFrame
  try dsimp only
  repeat' (first
    | with_reducible exact hK | with_reducible assumption | with_reducible apply receive_keep
    | with_reducible apply collective_keep | with_reducible apply tenseFrame_keep | with_reducible apply ofType_keep
    | (show _ = _; rfl) | split
    | (simp only [keep_lit]; first | with_reducible apply keep_mk | with_reducible apply keep_mk_hostMem | with_reducible apply keep_mk_chip | with_reducible apply keep_mk_flash)
    | intro _)

theorem execVoteFrame_keep {Q : List Instr} {V : Nat} (p : Fin 8) (f : Frame) (s : State) (hK : Keep Q V s) :
    KeepOut Q V (execVoteFrame p f s) := by
  unfold execVoteFrame
  try dsimp only
  repeat' (first
    | with_reducible exact hK | with_reducible assumption | with_reducible apply receive_keep
    | with_reducible apply collective_keep | with_reducible apply contribFrame_keep
    | with_reducible apply gmaxFrame_keep | with_reducible apply ofType_keep | (show _ = _; rfl) | split
    | (simp only [keep_lit]; first | with_reducible apply keep_mk | with_reducible apply keep_mk_hostMem | with_reducible apply keep_mk_chip | with_reducible apply keep_mk_flash)
    | intro _)

theorem execDigestFrame_keep {Q : List Instr} {V : Nat} (p : Fin 8) (f : Frame) (s : State) (hK : Keep Q V s) :
    KeepOut Q V (execDigestFrame p f s) := by
  unfold execDigestFrame
  try dsimp only
  repeat' (first
    | with_reducible exact hK | with_reducible assumption | with_reducible apply addRecord_keep
    | with_reducible apply receive_keep | with_reducible apply collective_keep | with_reducible apply ofType_keep
    | (show _ = _; rfl) | split
    | (simp only [keep_lit]; first | with_reducible apply keep_mk | with_reducible apply keep_mk_hostMem | with_reducible apply keep_mk_chip | with_reducible apply keep_mk_flash)
    | intro _)

theorem execCreditFrame_keep {Q : List Instr} {V : Nat} (p : Fin 8) (f : Frame) (s : State) (hK : Keep Q V s) :
    KeepOut Q V (execCreditFrame p f s) := by
  unfold execCreditFrame
  try dsimp only
  repeat' (first
    | with_reducible exact hK | with_reducible assumption | with_reducible apply receive_keep
    | with_reducible apply collective_keep | with_reducible apply creditEntriesIn_keep
    | with_reducible apply ofType_keep | split | intro _)

theorem helloJoin_keep {Q : List Instr} {V : Nat} (p : Nat) (x : Hello) (s : State) (hK : Keep Q V s) :
    Keep Q V (helloJoin p x s) := by
  unfold helloJoin
  try dsimp only
  repeat' (first
    | with_reducible exact hK | with_reducible assumption | with_reducible apply State.updPort_keep
    | with_reducible apply raise_keep | with_reducible apply enterUp_keep | (show _ = _; rfl) | split
    | (simp only [keep_lit]; first | with_reducible apply keep_mk | with_reducible apply keep_mk_hostMem | with_reducible apply keep_mk_chip | with_reducible apply keep_mk_flash)
    | intro _)

theorem execHelloFrame_keep {Q : List Instr} {V : Nat} (p : Fin 8) (f : Frame) (s : State) (hK : Keep Q V s) :
    KeepOut Q V (execHelloFrame p f s) := by
  unfold execHelloFrame
  try dsimp only
  repeat' (first
    | with_reducible exact hK | with_reducible assumption | with_reducible apply State.updPort_keep
    | with_reducible apply takeAck_keep | with_reducible apply portDown_keep | with_reducible apply protoError_keep
    | with_reducible apply ofType_keep | with_reducible apply helloJoin_keep | (show _ = _; rfl) | split
    | (simp only [keep_lit]; first | with_reducible apply keep_mk | with_reducible apply keep_mk_hostMem | with_reducible apply keep_mk_chip | with_reducible apply keep_mk_flash)
    | intro _)

theorem State.updChip_keep_service {Q : List Instr} {V : Nat} (s : State) (f : Chip → Chip) (h : Keep Q V s)
    (hb : (f s.chip).bringup ≤ 5) (hs : (f s.chip).service = serviceOf (f s.chip).outOfService (f s.chip).bringup) :
    Keep Q V (s.updChip f) := by
  obtain ⟨h1, h2, h3, h4, _, _, h7⟩ := h
  exact ⟨h1, h2, h3, h4, hb, hs, h7⟩

theorem goOutOfService_keep {Q : List Instr} {V : Nat} (seq : Nat) (s : State) (hK : Keep Q V s) :
    Keep Q V (goOutOfService seq s) := by
  unfold goOutOfService
  split
  · exact hK
  · exact statusIrq_keep _ (noteRecord_keep _ _ (raiseParser_keep _ _ _
      (State.updChip_keep_service _ _ hK hK.2.2.2.2.1 rfl)))

theorem consequence_keep {Q : List Instr} {V : Nat} (unit cls phys seq : Nat) (s : State) (hK : Keep Q V s) :
    Keep Q V (consequence unit cls phys seq s) := by
  unfold consequence
  try dsimp only
  repeat' (first
    | with_reducible exact hK | with_reducible assumption | with_reducible apply State.updFaults_keep
    | with_reducible apply raise_keep | with_reducible apply noteRecord_keep
    | with_reducible apply goOutOfService_keep | (show _ = _; rfl) | split
    | (simp only [keep_lit]; first | with_reducible apply keep_mk | with_reducible apply keep_mk_hostMem | with_reducible apply keep_mk_chip | with_reducible apply keep_mk_flash)
    | intro _)

theorem classifyAs_keep {Q : List Instr} {V : Nat} (r : RecordReq) (unit cls phys : Nat) (s : State)
    (hK : Keep Q V s) :
    Keep Q V (classifyAs r unit cls phys s) := by
  unfold classifyAs
  try dsimp only
  repeat' (first
    | with_reducible exact hK | with_reducible assumption | with_reducible apply State.updFaults_keep
    | with_reducible apply raise_keep | with_reducible apply noteRecord_keep | with_reducible apply consequence_keep
    | (show _ = _; rfl) | split
    | (simp only [keep_lit]; first | with_reducible apply keep_mk | with_reducible apply keep_mk_hostMem | with_reducible apply keep_mk_chip | with_reducible apply keep_mk_flash)
    | intro _)

theorem classify_keep {Q : List Instr} {V : Nat} (r : RecordReq) (s : State) (hK : Keep Q V s) :
    Keep Q V (classify r s) := by
  unfold classify
  try dsimp only
  repeat' (first
    | with_reducible exact hK | with_reducible assumption | with_reducible apply classifyAs_keep | split | intro _)

theorem writeRecord_keep {Q : List Instr} {V : Nat} (s : State) (hK : Keep Q V s) :
    Keep Q V (writeRecord s) := by
  unfold writeRecord
  try dsimp only
  repeat' (first
    | with_reducible exact hK | with_reducible assumption | with_reducible apply State.updFaults_keep
    | with_reducible apply classify_keep | (show _ = _; rfl) | split
    | (simp only [keep_lit]; first | with_reducible apply keep_mk | with_reducible apply keep_mk_hostMem | with_reducible apply keep_mk_chip | with_reducible apply keep_mk_flash)
    | intro _)

theorem flushRecords_keep {Q : List Instr} {V : Nat} (s : State) (hK : Keep Q V s) :
    Keep Q V (flushRecords s) := by
  unfold flushRecords
  try dsimp only
  repeat' (first
    | with_reducible exact hK | with_reducible assumption | with_reducible apply forEach_keep
    | with_reducible apply writeRecord_keep | split | intro _)

theorem execFaultRecordWrite_keep {Q : List Instr} {V : Nat} (s : State) (hK : Keep Q V s) :
    KeepOut Q V (execFaultRecordWrite s) := by
  unfold execFaultRecordWrite
  try dsimp only
  repeat' (first
    | with_reducible apply keepOut_next | with_reducible exact hK | with_reducible assumption
    | with_reducible apply writeRecord_keep | split | intro _)

theorem demote_keep {Q : List Instr} {V : Nat} (s : State) (hK : Keep Q V s) :
    Keep Q V (demote s) := by
  unfold demote
  try dsimp only
  repeat' (first
    | with_reducible exact hK | with_reducible assumption | with_reducible apply State.updFaults_keep
    | with_reducible apply noteRecord_keep | (show _ = _; rfl) | split
    | (simp only [keep_lit]; first | with_reducible apply keep_mk | with_reducible apply keep_mk_hostMem | with_reducible apply keep_mk_chip | with_reducible apply keep_mk_flash)
    | intro _)

theorem setCapture_keep {Q : List Instr} {V : Nat} (i : Nat) (c : Option Capture) (s : State) (hK : Keep Q V s) :
    Keep Q V (setCapture i c s) := by
  unfold setCapture
  try dsimp only
  repeat' (first
    | with_reducible exact hK | with_reducible assumption | with_reducible apply State.updFaults_keep
    | (show _ = _; rfl) | split
    | (simp only [keep_lit]; first | with_reducible apply keep_mk | with_reducible apply keep_mk_hostMem | with_reducible apply keep_mk_chip | with_reducible apply keep_mk_flash)
    | intro _)

theorem judgeSuspect_keep {Q : List Instr} {V : Nat} (i : Nat) (c : Capture) (k : Nat) (own again ref : W128)
    (r : RepeatResult) (s : State) (h : Keep Q V s) : Keep Q V (judgeSuspect i c k own again ref r s).1 := by
  unfold judgeSuspect
  dsimp only
  repeat' (first | with_reducible exact h | with_reducible apply classifyAs_keep | with_reducible apply noteRecord_keep | split)

theorem captureLost_keep {Q : List Instr} {V : Nat} (i : Nat) (c : Capture) (w : Nat) (s : State) (hK : Keep Q V s) :
    Keep Q V (captureLost i c w s) := by
  unfold captureLost
  try dsimp only
  repeat' (first
    | with_reducible exact hK | with_reducible assumption | with_reducible apply noteRecord_keep
    | with_reducible apply State.mend_keep | with_reducible apply memBadNoHalt_keep
    | with_reducible apply setCapture_keep | split | intro _)

theorem captureRepeat_keep {Q : List Instr} {V : Nat} (i : Nat) (c : Capture) (r : RepeatResult) (s : State)
    (hK : Keep Q V s) :
    Keep Q V (captureRepeat i c r s) := by
  unfold captureRepeat
  try dsimp only
  repeat' (first
    | with_reducible exact hK | with_reducible assumption | with_reducible apply classify_keep
    | with_reducible apply setCapture_keep | with_reducible apply judgeSuspect_keep | (show _ = _; rfl) | split
    | (simp only [keep_lit]; first | with_reducible apply keep_mk | with_reducible apply keep_mk_hostMem | with_reducible apply keep_mk_chip | with_reducible apply keep_mk_flash)
    | intro _)

theorem execCaptureRepeat_keep {Q : List Instr} {V : Nat} (k : Fin 16) (r : RepeatResult) (s : State)
    (hK : Keep Q V s) :
    KeepOut Q V (execCaptureRepeat k r s) := by
  unfold execCaptureRepeat
  try dsimp only
  repeat' (first
    | with_reducible apply keepOut_next | with_reducible exact hK | with_reducible assumption
    | with_reducible apply captureLost_keep | with_reducible apply captureRepeat_keep | (show _ = _; rfl) | split
    | (simp only [keep_lit]; first | with_reducible apply keep_mk | with_reducible apply keep_mk_hostMem | with_reducible apply keep_mk_chip | with_reducible apply keep_mk_flash)
    | intro _)

theorem endRepeats_keep {Q : List Instr} {V : Nat} (s : State) (hK : Keep Q V s) :
    Keep Q V (endRepeats s) := by
  unfold endRepeats
  try dsimp only
  repeat' (first
    | with_reducible exact hK | with_reducible assumption | with_reducible apply State.updFaults_keep
    | (show _ = _; rfl) | split
    | (simp only [keep_lit]; first | with_reducible apply keep_mk | with_reducible apply keep_mk_hostMem | with_reducible apply keep_mk_chip | with_reducible apply keep_mk_flash)
    | intro _)

theorem unpark_keep {Q : List Instr} {V : Nat} (op : Nat) (s : State) (hK : Keep Q V s) :
    Keep Q V (unpark op s) := by
  unfold unpark
  try dsimp only
  repeat' (first
    | with_reducible exact hK | with_reducible assumption | with_reducible apply State.updChip_keep
    | with_reducible apply raiseParser_keep | (show _ = _; rfl) | split
    | (simp only [keep_lit]; first | with_reducible apply keep_mk | with_reducible apply keep_mk_hostMem | with_reducible apply keep_mk_chip | with_reducible apply keep_mk_flash)
    | intro _)

theorem forget_keep {Q : List Instr} {V : Nat} (p : Nat → Bool) (s : State) (hK : Keep Q V s) : Keep Q V (forget p s) := by
  obtain ⟨h1, h2, h3, h4⟩ := hK
  exact ⟨h1, h2, swf_filter 0 _ _ h3, h4⟩

theorem startTest_keep {Q : List Instr} {V : Nat} (c : Cmd) (scope unit mask : Nat) (s : State) (hK : Keep Q V s) :
    KeepReply Q V (startTest c scope unit mask s) := by
  unfold startTest
  try dsimp only
  repeat' (first
    | with_reducible apply Reply.no_keep | with_reducible apply Reply.noAt_keep
    | with_reducible apply keepReply_goesOn | with_reducible exact hK | with_reducible assumption
    | ((with_reducible refine State.updJob_keep_same _ _ ?_ ?_); rotate_left; intro _; rfl)
    | ((with_reducible refine State.updJob_keep _ _ ?_ ?_); rotate_left; intro _; exact Nat.le_of_ble_eq_true rfl)
    | with_reducible apply State.updFaults_keep | with_reducible apply unpark_keep
    | with_reducible apply forget_keep | (show _ = _; rfl) | split
    | (simp only [keep_lit]; first | with_reducible apply keep_mk | with_reducible apply keep_mk_hostMem | with_reducible apply keep_mk_chip | with_reducible apply keep_mk_flash)
    | intro _)

theorem fieldTest_keep {Q : List Instr} {V : Nat} (c : Cmd) (s : State) (hK : Keep Q V s) :
    KeepReply Q V (fieldTest c s) := by
  unfold fieldTest
  try dsimp only
  repeat' (first
    | with_reducible apply Reply.noAt_keep | with_reducible exact hK | with_reducible assumption
    | with_reducible apply startTest_keep | split | intro _)

theorem execFieldTest_keep {Q : List Instr} {V : Nat} (c : Cmd) (s : State) (hK : Keep Q V s) :
    KeepOut Q V (execFieldTest c s) := by
  unfold execFieldTest
  try dsimp only
  repeat' (first
    | with_reducible exact hK | with_reducible assumption | with_reducible apply runCmd_keep
    | with_reducible apply fieldTest_keep | split | intro _)

theorem bistRun_keep {Q : List Instr} {V : Nat} (c : Cmd) (s : State) (hK : Keep Q V s) :
    KeepReply Q V (bistRun c s) := by
  unfold bistRun
  try dsimp only
  repeat' (first
    | with_reducible apply Reply.noAt_keep | with_reducible exact hK | with_reducible assumption
    | with_reducible apply startTest_keep | split | intro _)

theorem execBistRun_keep {Q : List Instr} {V : Nat} (c : Cmd) (s : State) (hK : Keep Q V s) :
    KeepOut Q V (execBistRun c s) := by
  unfold execBistRun
  try dsimp only
  repeat' (first
    | with_reducible exact hK | with_reducible assumption | with_reducible apply runCmd_keep
    | with_reducible apply bistRun_keep | split | intro _)

theorem testVerdict_keep {Q : List Instr} {V : Nat} (t : TestResult) (s : State) (hK : Keep Q V s) :
    Keep Q V (testVerdict t s) := by
  unfold testVerdict
  try dsimp only
  repeat' (first
    | with_reducible exact hK | with_reducible assumption | with_reducible apply classify_keep | split | intro _)

theorem endTest_keep {Q : List Instr} {V : Nat} (f : FieldTest) (ts : List TestResult) (s : State) (hK : Keep Q V s) :
    Keep Q V (endTest f ts s) := by
  unfold endTest
  try dsimp only
  repeat' (first
    | with_reducible exact hK | with_reducible assumption | with_reducible apply State.updFaults_keep
    | with_reducible apply forEach_keep | with_reducible apply raiseParser_keep
    | with_reducible apply completeRunning_keep | with_reducible apply endRepeats_keep
    | with_reducible apply testVerdict_keep | (show _ = _; rfl) | split
    | (simp only [keep_lit]; first | with_reducible apply keep_mk | with_reducible apply keep_mk_hostMem | with_reducible apply keep_mk_chip | with_reducible apply keep_mk_flash)
    | intro _)

theorem execFieldTestDone_keep {Q : List Instr} {V : Nat} (ts : List TestResult) (s : State) (hK : Keep Q V s) :
    KeepOut Q V (execFieldTestDone ts s) := by
  unfold execFieldTestDone
  try dsimp only
  repeat' (first
    | with_reducible apply keepOut_next | with_reducible exact hK | with_reducible assumption
    | with_reducible apply endTest_keep | (show _ = _; rfl) | split
    | (simp only [keep_lit]; first | with_reducible apply keep_mk | with_reducible apply keep_mk_hostMem | with_reducible apply keep_mk_chip | with_reducible apply keep_mk_flash)
    | intro _)

theorem checkFraction_keep {Q : List Instr} {V : Nat} (c : Cmd) (s : State) (hK : Keep Q V s) :
    KeepReply Q V (checkFraction c s) := by
  unfold checkFraction
  try dsimp only
  repeat' (first
    | with_reducible apply Reply.noAt_keep | with_reducible apply Reply.ok_keep
    | with_reducible apply keepReply_refuse | with_reducible exact hK | with_reducible assumption
    | with_reducible apply State.updStage_keep | with_reducible apply forEach_keep | (show _ = _; rfl) | split
    | (simp only [keep_lit]; first | with_reducible apply keep_mk | with_reducible apply keep_mk_hostMem | with_reducible apply keep_mk_chip | with_reducible apply keep_mk_flash)
    | intro _)

theorem execCheckFractionSet_keep {Q : List Instr} {V : Nat} (c : Cmd) (s : State) (hK : Keep Q V s) :
    KeepOut Q V (execCheckFractionSet c s) := by
  unfold execCheckFractionSet
  try dsimp only
  repeat' (first
    | with_reducible exact hK | with_reducible assumption | with_reducible apply runCmd_keep
    | with_reducible apply checkFraction_keep | split | intro _)

theorem agreeInterval_keep {Q : List Instr} {V : Nat} (c : Cmd) (s : State) (hK : Keep Q V s) :
    KeepReply Q V (agreeInterval c s) := by
  unfold agreeInterval
  try dsimp only
  repeat' (first
    | with_reducible apply Reply.noAt_keep | with_reducible apply Reply.ok_keep | with_reducible exact hK
    | with_reducible assumption
    | ((with_reducible refine State.updJob_keep_same _ _ ?_ ?_); rotate_left; intro _; rfl)
    | ((with_reducible refine State.updJob_keep _ _ ?_ ?_); rotate_left; intro _; exact Nat.le_of_ble_eq_true rfl)
    | (show _ = _; rfl) | split
    | (simp only [keep_lit]; first | with_reducible apply keep_mk | with_reducible apply keep_mk_hostMem | with_reducible apply keep_mk_chip | with_reducible apply keep_mk_flash)
    | intro _)

theorem execAgreeIntervalSet_keep {Q : List Instr} {V : Nat} (c : Cmd) (s : State) (hK : Keep Q V s) :
    KeepOut Q V (execAgreeIntervalSet c s) := by
  unfold execAgreeIntervalSet
  try dsimp only
  repeat' (first
    | with_reducible exact hK | with_reducible assumption | with_reducible apply runCmd_keep
    | with_reducible apply agreeInterval_keep | split | intro _)

theorem historyRead_keep {Q : List Instr} {V : Nat} (c : Cmd) (s : State) (hK : Keep Q V s) :
    KeepReply Q V (historyRead c s) := by
  unfold historyRead
  try dsimp only
  repeat' (first
    | with_reducible apply Reply.noAt_keep | with_reducible apply keepReply_refuse
    | with_reducible apply keepReply_done | with_reducible apply keepReply_failed | with_reducible exact hK
    | with_reducible assumption | with_reducible apply setCapture_keep | with_reducible apply captureLost_keep
    | (show _ = _; rfl) | split
    | (simp only [keep_lit]; first | with_reducible apply keep_mk | with_reducible apply keep_mk_hostMem | with_reducible apply keep_mk_chip | with_reducible apply keep_mk_flash)
    | intro _)

theorem execFaultHistoryRead_keep {Q : List Instr} {V : Nat} (c : Cmd) (s : State) (hK : Keep Q V s) :
    KeepOut Q V (execFaultHistoryRead c s) := by
  unfold execFaultHistoryRead
  try dsimp only
  repeat' (first
    | with_reducible exact hK | with_reducible assumption | with_reducible apply runCmd_keep
    | with_reducible apply historyRead_keep | split | intro _)

end Sys2Proof.Machine
end

