-- ==== Sys2Proof/Laws/KeepDie.lean ====
section
/-!
SUPPORT. Sys2Proof/Laws/KeepDie.lean: Phrases, guests, ingest and job commands keep the invariant.
-/
namespace Sys2Proof.Machine

theorem State.updPhrase_keep {Q : List Instr} {V : Nat} (s : State) (die peer idx : Nat) (f : Phrase → Phrase)
    (hK : Keep Q V s) :
    Keep Q V (State.updPhrase s die peer idx f) := by
  unfold State.updPhrase
  try dsimp only
  repeat' (first
    | with_reducible exact hK | with_reducible assumption | (show _ = _; rfl) | split
    | (simp only [keep_lit]; first | with_reducible apply keep_mk | with_reducible apply keep_mk_hostMem | with_reducible apply keep_mk_chip | with_reducible apply keep_mk_flash)
    | intro _)

theorem phraseWrite_keep {Q : List Instr} {V : Nat} (src dst a : Nat) (data : List Byte) (s : State)
    (hK : Keep Q V s) :
    Keep Q V (phraseWrite src dst a data s) := by
  unfold phraseWrite
  try dsimp only
  repeat' (first
    | with_reducible exact hK | with_reducible assumption | with_reducible apply guestRequest_keep
    | with_reducible apply addrFault_keep | with_reducible apply dieAbsent_keep
    | with_reducible apply State.putWhole_keep | split | intro _)

theorem resendFrom_keep {Q : List Instr} {V : Nat} (die peer idx : Nat) (s : State) (hK : Keep Q V s) :
    Keep Q V (resendFrom die peer idx s) := by
  unfold resendFrom
  try dsimp only
  repeat' (first
    | with_reducible exact hK | with_reducible assumption | with_reducible apply State.send_keep | split | intro _)

theorem issueAll_keep {Q : List Instr} {V : Nat} (src dst role : Nat) (ms : List PhraseMsg) :
    ∀ (done : List PhraseMsg) (s : State), Keep Q V s → Keep Q V (issueAll src dst role done ms s).2 := by
  induction ms with
  | nil => intro done s h; exact h
  | cons m t ih =>
    intro done s h
    unfold issueAll
    split
    · exact ih _ _ h
    · split
      · exact h
      · refine ih _ _ ?_
        have h2 : Keep Q V { s.updPhrase src dst (s.turn src dst role) (fun p =>
            { p with group := (s.phrase src dst (s.turn src dst role)).group + BitVec.ofNat 8 (cdiv m.flits 8)
                     flits := p.flits + BitVec.ofNat 10 m.flits
                     fails := p.fails + bit (!m.crcOk), failed := p.failed || !m.crcOk }) with
            channels := supd 0 (phraseKey src dst role) (· + 1) s.channels } :=
          by
          simp only [State.updPhrase, keep_lit]; exact keep_mk h
        split
        · exact h2
        · exact resendFrom_keep _ _ _ _ h2

theorem landMessages_keep {Q : List Instr} {V : Nat} (land : PhraseMsg → State → State)
    (hland : ∀ x y, Keep Q V y → Keep Q V (land x y)) (ms : List PhraseMsg) :
    ∀ s : State, Keep Q V s → Keep Q V (landMessages land ms s).1 := by
  induction ms with
  | nil => intro s h; exact h
  | cons m t ih =>
    intro s h
    unfold landMessages
    split
    · exact ih _ (hland _ _ h)
    · exact h

theorem settleChannel_keep {Q : List Instr} {V : Nat} (land : PhraseMsg → State → State) (src dst role : Nat)
    (f : List PhraseMsg → List PhraseMsg) (s : State) (hland : ∀ x y, Keep Q V y → Keep Q V (land x y))
    (hK : Keep Q V s) : Keep Q V (settleChannel land src dst role f s) :=
  landMessages_keep land hland _ _ (issueAll_keep src dst role _ _ _ hK)

theorem sendMessage_keep {Q : List Instr} {V : Nat} (land : PhraseMsg → State → State) (src dst role a : Nat)
    (data : List Byte) (ok : Bool) (s : State) (hland : ∀ x y, Keep Q V y → Keep Q V (land x y)) (hK : Keep Q V s) :
    Keep Q V (sendMessage land src dst role a data ok s) := settleChannel_keep _ _ _ _ _ _ hland hK

theorem performMessage_keep {Q : List Instr} {V : Nat} (src dst role : Nat) (m : PhraseMsg) (s : State)
    (hK : Keep Q V s) :
    Keep Q V (performMessage src dst role m s) := by
  unfold performMessage
  try dsimp only
  repeat' (first
    | with_reducible exact hK | with_reducible assumption | with_reducible apply dieAbsent_keep
    | with_reducible apply phraseWrite_keep | with_reducible apply sendMessage_keep | split | intro _)

theorem settlePhrase_keep {Q : List Instr} {V : Nat} (src dst idx : Nat) (f : List PhraseMsg → List PhraseMsg) (s : State)
    (hK : Keep Q V s) : Keep Q V (settlePhrase src dst idx f s) := by
  unfold settlePhrase
  split
  · exact hK
  · exact settleChannel_keep _ _ _ _ _ _ (fun x y h => performMessage_keep _ _ _ _ _ h) hK

theorem execPhraseMessage_keep {Q : List Instr} {V : Nat} (src dst : Fin 8) (role : Fin 5) (addr : BitVec 48) (m : PhraseFlits) (s : State)
    (hK : Keep Q V s) :
    KeepOut Q V (execPhraseMessage src dst role addr m s) := by
  unfold execPhraseMessage
  try dsimp only
  repeat' (first
    | with_reducible apply keepOut_next | with_reducible exact hK | with_reducible assumption
    | with_reducible apply sendMessage_keep | with_reducible apply performMessage_keep | split | intro _)

theorem execPhraseFlowControl_keep {Q : List Instr} {V : Nat} (die peer : Fin 8) (idx : Fin 64) (word : W32) (s : State)
    (hK : Keep Q V s) :
    KeepOut Q V (execPhraseFlowControl die peer idx word s) := by
  unfold execPhraseFlowControl
  try dsimp only
  repeat' (first
    | with_reducible apply keepOut_next | with_reducible exact hK | with_reducible assumption
    | with_reducible apply State.updPhrase_keep | with_reducible apply resendFrom_keep
    | with_reducible apply settlePhrase_keep | (show _ = _; rfl) | split
    | (simp only [keep_lit]; first | with_reducible apply keep_mk | with_reducible apply keep_mk_hostMem | with_reducible apply keep_mk_chip | with_reducible apply keep_mk_flash)
    | intro _)

theorem bothWays_keep {Q : List Instr} {V : Nat} (die peer idx : Nat) (f : Phrase → Phrase) (s : State)
    (hK : Keep Q V s) :
    Keep Q V (bothWays die peer idx f s) := by
  unfold bothWays
  try dsimp only
  repeat' (first
    | with_reducible exact hK | with_reducible assumption | with_reducible apply State.updPhrase_keep | split
    | intro _)

theorem execPhraseRetrain_keep {Q : List Instr} {V : Nat} (die peer : Fin 8) (idx : Fin 64) (s : State)
    (hK : Keep Q V s) :
    KeepOut Q V (execPhraseRetrain die peer idx s) := by
  unfold execPhraseRetrain
  try dsimp only
  repeat' (first
    | with_reducible apply keepOut_next | with_reducible exact hK | with_reducible assumption
    | with_reducible apply bothWays_keep | (show _ = _; rfl) | split
    | (simp only [keep_lit]; first | with_reducible apply keep_mk | with_reducible apply keep_mk_hostMem | with_reducible apply keep_mk_chip | with_reducible apply keep_mk_flash)
    | intro _)

theorem clearDie_keep {Q : List Instr} {V : Nat} (d : Nat) (s : State) (hK : Keep Q V s) :
    Keep Q V (clearDie d s) := by
  unfold clearDie
  try dsimp only
  repeat' (first
    | with_reducible exact hK | with_reducible assumption | with_reducible apply State.updEng_keep
    | with_reducible apply State.updStage_keep | with_reducible apply State.updIngest_keep
    | with_reducible apply forEach_keep | with_reducible apply forget_keep | (show _ = _; rfl) | split
    | (simp only [keep_lit]; first | with_reducible apply keep_mk | with_reducible apply keep_mk_hostMem | with_reducible apply keep_mk_chip | with_reducible apply keep_mk_flash)
    | intro _)

theorem loseDie_keep {Q : List Instr} {V : Nat} (d mask : Nat) (s : State) (hK : Keep Q V s) :
    Keep Q V (loseDie d mask s) := by
  unfold loseDie
  try dsimp only
  repeat' (first
    | with_reducible exact hK | with_reducible assumption | with_reducible apply State.updChip_keep
    | with_reducible apply forEach_keep | with_reducible apply raise_keep | with_reducible apply noteRecord_keep
    | with_reducible apply haltStage_keep | with_reducible apply clearDie_keep | (show _ = _; rfl) | split
    | (simp only [keep_lit]; first | with_reducible apply keep_mk | with_reducible apply keep_mk_hostMem | with_reducible apply keep_mk_chip | with_reducible apply keep_mk_flash)
    | intro _)

theorem execDieLost_keep {Q : List Instr} {V : Nat} (d : Fin 8) (mask : Byte) (s : State) (hK : Keep Q V s) :
    KeepOut Q V (execDieLost d mask s) := by
  unfold execDieLost
  try dsimp only
  repeat' (first
    | with_reducible apply keepOut_next | with_reducible exact hK | with_reducible assumption
    | with_reducible apply loseDie_keep | split | intro _)

theorem phraseBack_keep {Q : List Instr} {V : Nat} (src dst idx : Nat) (s : State) (hK : Keep Q V s) :
    Keep Q V (phraseBack src dst idx s) := by
  unfold phraseBack
  try dsimp only
  repeat' (first
    | with_reducible exact hK | with_reducible assumption | with_reducible apply State.updPhrase_keep
    | with_reducible apply settlePhrase_keep | (show _ = _; rfl) | split
    | (simp only [keep_lit]; first | with_reducible apply keep_mk | with_reducible apply keep_mk_hostMem | with_reducible apply keep_mk_chip | with_reducible apply keep_mk_flash)
    | intro _)

theorem phraseGone_keep {Q : List Instr} {V : Nat} (src dst idx : Nat) (s : State) (hK : Keep Q V s) :
    Keep Q V (phraseGone src dst idx s) := by
  unfold phraseGone
  dsimp only
  split
  · exact hK
  · split
    · refine settleChannel_keep _ _ _ _ _ _ (fun x y h => performMessage_keep _ _ _ _ _ h) ?_
      simp only [keep_lit]; exact keep_mk hK
    · exact settleChannel_keep _ _ _ _ _ _ (fun x y h => performMessage_keep _ _ _ _ _ h) hK

theorem execPhraseRetrainEnd_keep {Q : List Instr} {V : Nat} (die peer : Fin 8) (idx : Fin 64) (ok : Bool) (resends : W32) (s : State)
    (hK : Keep Q V s) :
    KeepOut Q V (execPhraseRetrainEnd die peer idx ok resends s) := by
  unfold execPhraseRetrainEnd
  try dsimp only
  repeat' (first
    | with_reducible apply keepOut_next | with_reducible exact hK | with_reducible assumption
    | with_reducible apply raise_keep | with_reducible apply noteRecord_keep | with_reducible apply bothWays_keep
    | with_reducible apply loseDie_keep | with_reducible apply phraseBack_keep
    | with_reducible apply phraseGone_keep | (show _ = _; rfl) | split
    | (simp only [keep_lit]; first | with_reducible apply keep_mk | with_reducible apply keep_mk_hostMem | with_reducible apply keep_mk_chip | with_reducible apply keep_mk_flash)
    | (show _ ≤ max _ _; omega) | intro _)

theorem execDieRejoin_keep {Q : List Instr} {V : Nat} (a : DieAnswer) (tests : List TestResult) (s : State)
    (hK : Keep Q V s) :
    KeepOut Q V (execDieRejoin a tests s) := by
  unfold execDieRejoin
  try dsimp only
  repeat' (first
    | with_reducible apply keepOut_next | with_reducible exact hK | with_reducible assumption
    | with_reducible apply State.updChip_keep | with_reducible apply State.updIngest_keep
    | with_reducible apply forEach_keep | with_reducible apply raiseParser_keep
    | with_reducible apply goOutOfService_keep | with_reducible apply testVerdict_keep | (show _ = _; rfl) | split
    | (simp only [keep_lit]; first | with_reducible apply keep_mk | with_reducible apply keep_mk_hostMem | with_reducible apply keep_mk_chip | with_reducible apply keep_mk_flash)
    | intro _)

theorem appoLink_keep {Q : List Instr} {V : Nat} (p cls seq : Nat) (s : State) (hK : Keep Q V s) :
    Keep Q V (appoLink p cls seq s) := by
  unfold appoLink
  try dsimp only
  repeat' (first
    | with_reducible exact hK | with_reducible assumption | with_reducible apply State.send_keep | split | intro _)

theorem appoAck_keep {Q : List Instr} {V : Nat} (p : Nat) (s : State) (hK : Keep Q V s) :
    Keep Q V (appoAck p s) := by
  unfold appoAck
  try dsimp only
  repeat' (first
    | with_reducible exact hK | with_reducible assumption | with_reducible apply State.updAp_keep
    | with_reducible apply appoLink_keep | (show _ = _; rfl) | split
    | (simp only [keep_lit]; first | with_reducible apply keep_mk | with_reducible apply keep_mk_hostMem | with_reducible apply keep_mk_chip | with_reducible apply keep_mk_flash)
    | intro _)

theorem appoNak_keep {Q : List Instr} {V : Nat} (p : Nat) (s : State) (hK : Keep Q V s) :
    Keep Q V (appoNak p s) := by
  unfold appoNak
  try dsimp only
  repeat' (first
    | with_reducible exact hK | with_reducible assumption | with_reducible apply appoLink_keep | split | intro _)

theorem State.updFw_keep {Q : List Instr} {V : Nat} (s : State) (p : Nat) (f : Firewall → Firewall)
    (hK : Keep Q V s) :
    Keep Q V (State.updFw s p f) := by
  unfold State.updFw
  try dsimp only
  repeat' (first
    | with_reducible exact hK | with_reducible assumption | (show _ = _; rfl) | split
    | (simp only [keep_lit]; first | with_reducible apply keep_mk | with_reducible apply keep_mk_hostMem | with_reducible apply keep_mk_chip | with_reducible apply keep_mk_flash)
    | intro _)

theorem guestProtocol_keep {Q : List Instr} {V : Nat} (p : Nat) (s : State) (hK : Keep Q V s) :
    Keep Q V (guestProtocol p s) := by
  unfold guestProtocol
  try dsimp only
  repeat' (first
    | with_reducible exact hK | with_reducible assumption | with_reducible apply State.updAp_keep
    | with_reducible apply raise_keep | with_reducible apply State.updFw_keep | (show _ = _; rfl) | split
    | (simp only [keep_lit]; first | with_reducible apply keep_mk | with_reducible apply keep_mk_hostMem | with_reducible apply keep_mk_chip | with_reducible apply keep_mk_flash)
    | intro _)

theorem appoReceive_keep {Q : List Instr} {V : Nat} (p : Nat) (m : AppMsg) (go : State → State) (s : State) (hgo : ∀ y, Keep Q V y → Keep Q V (go y))
    (hK : Keep Q V s) :
    Keep Q V (appoReceive p m go s) := by
  unfold appoReceive
  try dsimp only
  repeat' (first
    | with_reducible exact hK | with_reducible assumption | with_reducible apply hgo
    | with_reducible apply State.updAp_keep | with_reducible apply appoAck_keep | with_reducible apply appoNak_keep
    | with_reducible apply guestProtocol_keep | (show _ = _; rfl) | split
    | (simp only [keep_lit]; first | with_reducible apply keep_mk | with_reducible apply keep_mk_hostMem | with_reducible apply keep_mk_chip | with_reducible apply keep_mk_flash)
    | intro _)

theorem appoResend_keep {Q : List Instr} {V : Nat} (p : Nat) (s : State) (hK : Keep Q V s) :
    Keep Q V (appoResend p s) := by
  unfold appoResend
  try dsimp only
  repeat' (first
    | with_reducible exact hK | with_reducible assumption | with_reducible apply State.send_keep
    | with_reducible apply forEach_keep | split | intro _)

theorem appoLinkIn_keep {Q : List Instr} {V : Nat} (p cls : Nat) (m : AppMsg) (go : State → State) (s : State) (hgo : ∀ y, Keep Q V y → Keep Q V (go y))
    (hK : Keep Q V s) :
    KeepOut Q V (appoLinkIn p cls m go s) := by
  unfold appoLinkIn
  try dsimp only
  repeat' (first
    | with_reducible apply keepOut_next | with_reducible exact hK | with_reducible assumption
    | with_reducible apply hgo | with_reducible apply appoAck_keep | with_reducible apply appoNak_keep
    | with_reducible apply guestProtocol_keep | split | intro _)

theorem execAppositionAck_keep {Q : List Instr} {V : Nat} (p : Fin 2) (m : AppMsg) (s : State) (hK : Keep Q V s) :
    KeepOut Q V (execAppositionAck p m s) := by
  unfold execAppositionAck
  try dsimp only
  repeat' (first
    | with_reducible exact hK | with_reducible assumption | with_reducible apply State.updAp_keep
    | with_reducible apply appoFlush_keep | with_reducible apply appoLinkIn_keep | split | intro _)

theorem execAppositionNak_keep {Q : List Instr} {V : Nat} (p : Fin 2) (m : AppMsg) (s : State) (hK : Keep Q V s) :
    KeepOut Q V (execAppositionNak p m s) := by
  unfold execAppositionNak
  try dsimp only
  repeat' (first
    | with_reducible exact hK | with_reducible assumption | with_reducible apply State.updAp_keep
    | with_reducible apply appoFlush_keep | with_reducible apply appoResend_keep
    | with_reducible apply appoLinkIn_keep | (show _ = _; rfl) | split
    | (simp only [keep_lit]; first | with_reducible apply keep_mk | with_reducible apply keep_mk_hostMem | with_reducible apply keep_mk_chip | with_reducible apply keep_mk_flash)
    | intro _)

theorem execAppositionAckTimer_keep {Q : List Instr} {V : Nat} (p : Fin 2) (s : State) (hK : Keep Q V s) :
    KeepOut Q V (execAppositionAckTimer p s) := by
  unfold execAppositionAckTimer
  try dsimp only
  repeat' (first
    | with_reducible apply keepOut_next | with_reducible exact hK | with_reducible assumption
    | with_reducible apply appoAck_keep | split | intro _)

theorem guestDown_keep {Q : List Instr} {V : Nat} (p : Nat) (s : State) (hK : Keep Q V s) :
    Keep Q V (guestDown p s) := by
  unfold guestDown
  try dsimp only
  repeat' (first
    | with_reducible exact hK | with_reducible assumption | with_reducible apply State.updAp_keep
    | with_reducible apply forEach_keep | with_reducible apply raise_keep | with_reducible apply dieAbsent_keep
    | (show _ = _; rfl) | split
    | (simp only [keep_lit]; first | with_reducible apply keep_mk | with_reducible apply keep_mk_hostMem | with_reducible apply keep_mk_chip | with_reducible apply keep_mk_flash)
    | intro _)

theorem execGuestDown_keep {Q : List Instr} {V : Nat} (p : Fin 2) (s : State) (hK : Keep Q V s) :
    KeepOut Q V (execGuestDown p s) := by
  unfold execGuestDown
  try dsimp only
  repeat' (first
    | with_reducible apply keepOut_next | with_reducible exact hK | with_reducible assumption
    | with_reducible apply guestDown_keep | split | intro _)

theorem execAppositionRetrain_keep {Q : List Instr} {V : Nat} (p : Fin 2) (ok : Bool) (s : State) (hK : Keep Q V s) :
    KeepOut Q V (execAppositionRetrain p ok s) := by
  unfold execAppositionRetrain
  try dsimp only
  repeat' (first
    | with_reducible apply keepOut_next | with_reducible exact hK | with_reducible assumption
    | with_reducible apply State.updAp_keep | with_reducible apply appoFlush_keep
    | with_reducible apply appoResend_keep | with_reducible apply guestDown_keep | (show _ = _; rfl) | split
    | (simp only [keep_lit]; first | with_reducible apply keep_mk | with_reducible apply keep_mk_hostMem | with_reducible apply keep_mk_chip | with_reducible apply keep_mk_flash)
    | intro _)

theorem guestUp_keep {Q : List Instr} {V : Nat} (p : Nat) (rate : BitVec 2) (s : State) (hK : Keep Q V s) :
    Keep Q V (guestUp p rate s) := by
  unfold guestUp
  try dsimp only
  repeat' (first
    | with_reducible exact hK | with_reducible assumption | with_reducible apply State.updAp_keep
    | (show _ = _; rfl) | split
    | (simp only [keep_lit]; first | with_reducible apply keep_mk | with_reducible apply keep_mk_hostMem | with_reducible apply keep_mk_chip | with_reducible apply keep_mk_flash)
    | intro _)

theorem execGuestUp_keep {Q : List Instr} {V : Nat} (p : Fin 2) (identity : W64) (rate : BitVec 2) (s : State)
    (hK : Keep Q V s) :
    KeepOut Q V (execGuestUp p identity rate s) := by
  unfold execGuestUp
  try dsimp only
  repeat' (first
    | with_reducible apply keepOut_next | with_reducible exact hK | with_reducible assumption
    | with_reducible apply raise_keep | with_reducible apply guestUp_keep | split | intro _)

theorem guestDenied_keep {Q : List Instr} {V : Nat} (p status a : Nat) (s : State) (hK : Keep Q V s) :
    Keep Q V (guestDenied p status a s) := by
  unfold guestDenied
  try dsimp only
  repeat' (first
    | with_reducible exact hK | with_reducible assumption | with_reducible apply State.updAp_keep
    | with_reducible apply raise_keep | with_reducible apply State.updFw_keep | (show _ = _; rfl) | split
    | (simp only [keep_lit]; first | with_reducible apply keep_mk | with_reducible apply keep_mk_hostMem | with_reducible apply keep_mk_chip | with_reducible apply keep_mk_flash)
    | intro _)

theorem guestRead_keep {Q : List Instr} {V : Nat} (p : Nat) (h : BitVec 512) (s : State) (hK : Keep Q V s) :
    Keep Q V (guestRead p h s) := by
  unfold guestRead
  try dsimp only
  repeat' (first
    | with_reducible exact hK | with_reducible assumption | with_reducible apply appoSend_keep
    | with_reducible apply memBadNoHalt_keep | with_reducible apply guestDenied_keep | (show _ = _; rfl) | split
    | (simp only [keep_lit]; first | with_reducible apply keep_mk | with_reducible apply keep_mk_hostMem | with_reducible apply keep_mk_chip | with_reducible apply keep_mk_flash)
    | intro _)

theorem execAppositionReadReq_keep {Q : List Instr} {V : Nat} (p : Fin 2) (m : AppMsg) (s : State) (hK : Keep Q V s) :
    KeepOut Q V (execAppositionReadReq p m s) := by
  unfold execAppositionReadReq
  try dsimp only
  repeat' (first
    | with_reducible apply keepOut_next | with_reducible exact hK | with_reducible assumption
    | with_reducible apply appoReceive_keep | with_reducible apply guestRead_keep | split | intro _)

theorem guestWrite_keep {Q : List Instr} {V : Nat} (p : Nat) (m : AppMsg) (s : State) (hK : Keep Q V s) :
    Keep Q V (guestWrite p m s) := by
  unfold guestWrite
  try dsimp only
  repeat' (first
    | with_reducible exact hK | with_reducible assumption | with_reducible apply appoSend_keep
    | with_reducible apply State.putWhole_keep | with_reducible apply guestDenied_keep | (show _ = _; rfl) | split
    | (simp only [keep_lit]; first | with_reducible apply keep_mk | with_reducible apply keep_mk_hostMem | with_reducible apply keep_mk_chip | with_reducible apply keep_mk_flash)
    | intro _)

theorem execAppositionWrite_keep {Q : List Instr} {V : Nat} (p : Fin 2) (m : AppMsg) (s : State) (hK : Keep Q V s) :
    KeepOut Q V (execAppositionWrite p m s) := by
  unfold execAppositionWrite
  try dsimp only
  repeat' (first
    | with_reducible apply keepOut_next | with_reducible exact hK | with_reducible assumption
    | with_reducible apply appoReceive_keep | with_reducible apply guestWrite_keep | split | intro _)

theorem guestAnswer_keep {Q : List Instr} {V : Nat} (p : Nat) (m : AppMsg) (s : State) (hK : Keep Q V s) :
    Keep Q V (guestAnswer p m s) := by
  unfold guestAnswer
  try dsimp only
  repeat' (first
    | with_reducible exact hK | with_reducible assumption | with_reducible apply State.updAp_keep
    | with_reducible apply guestRequest_keep | with_reducible apply dieAbsent_keep
    | with_reducible apply State.putWhole_keep | (show _ = _; rfl) | split
    | (simp only [keep_lit]; first | with_reducible apply keep_mk | with_reducible apply keep_mk_hostMem | with_reducible apply keep_mk_chip | with_reducible apply keep_mk_flash)
    | intro _)

theorem execAppositionReadData_keep {Q : List Instr} {V : Nat} (p : Fin 2) (m : AppMsg) (s : State)
    (hK : Keep Q V s) :
    KeepOut Q V (execAppositionReadData p m s) := by
  unfold execAppositionReadData
  try dsimp only
  repeat' (first
    | with_reducible apply keepOut_next | with_reducible exact hK | with_reducible assumption
    | with_reducible apply appoReceive_keep | with_reducible apply guestAnswer_keep | split | intro _)

theorem execAppositionWriteAck_keep {Q : List Instr} {V : Nat} (p : Fin 2) (m : AppMsg) (s : State)
    (hK : Keep Q V s) :
    KeepOut Q V (execAppositionWriteAck p m s) := by
  unfold execAppositionWriteAck
  try dsimp only
  repeat' (first
    | with_reducible apply keepOut_next | with_reducible exact hK | with_reducible assumption
    | with_reducible apply State.updAp_keep | with_reducible apply appoReceive_keep | (show _ = _; rfl) | split
    | (simp only [keep_lit]; first | with_reducible apply keep_mk | with_reducible apply keep_mk_hostMem | with_reducible apply keep_mk_chip | with_reducible apply keep_mk_flash)
    | intro _)

theorem guestEventIn_keep {Q : List Instr} {V : Nat} (p : Nat) (m : AppMsg) (s : State) (hK : Keep Q V s) :
    Keep Q V (guestEventIn p m s) := by
  unfold guestEventIn
  try dsimp only
  repeat' (first
    | with_reducible exact hK | with_reducible assumption | with_reducible apply State.updAp_keep
    | with_reducible apply raise_keep | with_reducible apply State.updFw_keep
    | with_reducible apply guestDenied_keep | (show _ = _; rfl) | split
    | (simp only [keep_lit]; first | with_reducible apply keep_mk | with_reducible apply keep_mk_hostMem | with_reducible apply keep_mk_chip | with_reducible apply keep_mk_flash)
    | intro _)

theorem execAppositionEvent_keep {Q : List Instr} {V : Nat} (p : Fin 2) (m : AppMsg) (s : State) (hK : Keep Q V s) :
    KeepOut Q V (execAppositionEvent p m s) := by
  unfold execAppositionEvent
  try dsimp only
  repeat' (first
    | with_reducible apply keepOut_next | with_reducible exact hK | with_reducible assumption
    | with_reducible apply appoReceive_keep | with_reducible apply guestEventIn_keep | split | intro _)

theorem takeOffline_keep {Q : List Instr} {V : Nat} (x : IngestNs) (s : State) (hK : Keep Q V s) :
    Keep Q V (takeOffline x s) := by
  unfold takeOffline
  try dsimp only
  repeat' (first
    | with_reducible exact hK | with_reducible assumption | with_reducible apply State.updIngest_keep
    | with_reducible apply forEach_keep | with_reducible apply raise_keep | (show _ = _; rfl) | split
    | (simp only [keep_lit]; first | with_reducible apply keep_mk | with_reducible apply keep_mk_hostMem | with_reducible apply keep_mk_chip | with_reducible apply keep_mk_flash)
    | intro _)

theorem readFailed_keep {Q : List Instr} {V : Nat} (x : IngestNs) (place : Nat) (fatal : Bool) (s : State)
    (hK : Keep Q V s) :
    Keep Q V (readFailed x place fatal s) := by
  unfold readFailed
  try dsimp only
  repeat' (first
    | with_reducible exact hK | with_reducible assumption | with_reducible apply State.updIngest_keep
    | with_reducible apply takeOffline_keep | (show _ = _; rfl) | split
    | (simp only [keep_lit]; first | with_reducible apply keep_mk | with_reducible apply keep_mk_hostMem | with_reducible apply keep_mk_chip | with_reducible apply keep_mk_flash)
    | intro _)

theorem dropBadContext_keep {Q : List Instr} {V : Nat} (d : BitVec 256) (s : State) (hK : Keep Q V s) :
    Keep Q V (dropBadContext d s) := by
  unfold dropBadContext
  try dsimp only
  repeat' (first
    | with_reducible exact hK | with_reducible assumption | with_reducible apply State.updIngest_keep
    | with_reducible apply State.mend_keep | with_reducible apply memBadNoHalt_keep | (show _ = _; rfl) | split
    | (simp only [keep_lit]; first | with_reducible apply keep_mk | with_reducible apply keep_mk_hostMem | with_reducible apply keep_mk_chip | with_reducible apply keep_mk_flash)
    | intro _)

theorem claimContext_keep {Q : List Instr} {V : Nat} (place : Nat) (d : BitVec 256) (s : State) (hK : Keep Q V s) :
    Keep Q V (claimContext place d s) := by
  unfold claimContext
  try dsimp only
  repeat' (first
    | with_reducible exact hK | with_reducible assumption | with_reducible apply State.updIngest_keep
    | with_reducible apply dropBadContext_keep | (show _ = _; rfl) | split
    | (simp only [keep_lit]; first | with_reducible apply keep_mk | with_reducible apply keep_mk_hostMem | with_reducible apply keep_mk_chip | with_reducible apply keep_mk_flash)
    | intro _)

theorem releaseContext_keep {Q : List Instr} {V : Nat} (place : Nat) (f : BitVec 512 → BitVec 512) (s : State)
    (hK : Keep Q V s) :
    Keep Q V (releaseContext place f s) := by
  unfold releaseContext
  try dsimp only
  repeat' (first
    | with_reducible exact hK | with_reducible assumption | with_reducible apply State.updIngest_keep
    | (show _ = _; rfl) | split
    | (simp only [keep_lit]; first | with_reducible apply keep_mk | with_reducible apply keep_mk_hostMem | with_reducible apply keep_mk_chip | with_reducible apply keep_mk_flash)
    | intro _)

theorem execNvmeReadCompletion_keep {Q : List Instr} {V : Nat} (ns : Fin 32) (place : Nat) (ok : Option (BitVec 256)) (fatal : Bool) (s : State)
    (hK : Keep Q V s) :
    KeepOut Q V (execNvmeReadCompletion ns place ok fatal s) := by
  unfold execNvmeReadCompletion
  try dsimp only
  repeat' (first
    | with_reducible apply keepOut_next | with_reducible exact hK | with_reducible assumption
    | with_reducible apply State.updIngest_keep | with_reducible apply takeOffline_keep
    | with_reducible apply readFailed_keep | with_reducible apply claimContext_keep | (show _ = _; rfl) | split
    | (simp only [keep_lit]; first | with_reducible apply keep_mk | with_reducible apply keep_mk_hostMem | with_reducible apply keep_mk_chip | with_reducible apply keep_mk_flash)
    | intro _)

theorem execNvmeReadTimeout_keep {Q : List Instr} {V : Nat} (ns : Fin 32) (place : Nat) (s : State)
    (hK : Keep Q V s) :
    KeepOut Q V (execNvmeReadTimeout ns place s) := by
  unfold execNvmeReadTimeout
  try dsimp only
  repeat' (first
    | with_reducible apply keepOut_next | with_reducible exact hK | with_reducible assumption
    | with_reducible apply readFailed_keep | (show _ = _; rfl) | split
    | (simp only [keep_lit]; first | with_reducible apply keep_mk | with_reducible apply keep_mk_hostMem | with_reducible apply keep_mk_chip | with_reducible apply keep_mk_flash)
    | intro _)

theorem fillSlot_keep {Q : List Instr} {V : Nat} (place clip reason concealed tscale : Nat) (data : List Byte) (s : State)
    (hK : Keep Q V s) :
    Keep Q V (fillSlot place clip reason concealed tscale data s) := by
  unfold fillSlot
  try dsimp only
  repeat' (first
    | with_reducible exact hK | with_reducible assumption | with_reducible apply State.updIngest_keep
    | with_reducible apply State.put_keep | (show _ = _; rfl) | split
    | (simp only [keep_lit]; first | with_reducible apply keep_mk | with_reducible apply keep_mk_hostMem | with_reducible apply keep_mk_chip | with_reducible apply keep_mk_flash)
    | intro _)

theorem dropClip_keep {Q : List Instr} {V : Nat} (place clip reason : Nat) (s : State) (hK : Keep Q V s) :
    Keep Q V (dropClip place clip reason s) := by
  unfold dropClip
  try dsimp only
  repeat' (first
    | with_reducible exact hK | with_reducible assumption | with_reducible apply fillSlot_keep | split | intro _)

theorem decodeClip_keep {Q : List Instr} {V : Nat} (place e clip : Nat) (d : BitVec 256) (object : List Byte) (bytesRead : Nat) (s : State)
    (hK : Keep Q V s) :
    Keep Q V (decodeClip place e clip d object bytesRead s) := by
  unfold decodeClip
  try dsimp only
  repeat' (first
    | with_reducible exact hK | with_reducible assumption | with_reducible apply State.updIngest_keep
    | with_reducible apply claimContext_keep | with_reducible apply releaseContext_keep
    | with_reducible apply fillSlot_keep | with_reducible apply dropClip_keep | (show _ = _; rfl) | split
    | (simp only [keep_lit]; first | with_reducible apply keep_mk | with_reducible apply keep_mk_hostMem | with_reducible apply keep_mk_chip | with_reducible apply keep_mk_flash)
    | intro _)

theorem execClipDecode_keep {Q : List Instr} {V : Nat} (place : Nat) (desc : BitVec 256) (r : ClipRead) (s : State)
    (hK : Keep Q V s) :
    KeepOut Q V (execClipDecode place desc r s) := by
  unfold execClipDecode
  try dsimp only
  repeat' (first
    | with_reducible apply keepOut_next | with_reducible exact hK | with_reducible assumption
    | with_reducible apply dropClip_keep | with_reducible apply decodeClip_keep | (show _ = _; rfl) | split
    | (simp only [keep_lit]; first | with_reducible apply keep_mk | with_reducible apply keep_mk_hostMem | with_reducible apply keep_mk_chip | with_reducible apply keep_mk_flash)
    | intro _)

theorem epochEvents_keep {Q : List Instr} {V : Nat} (k : Nat) (s : State) (hK : Keep Q V s) :
    Keep Q V (epochEvents k s) := by
  unfold epochEvents
  try dsimp only
  repeat' (first
    | with_reducible exact hK | with_reducible assumption | with_reducible apply State.updIngest_keep
    | with_reducible apply forEach_keep | with_reducible apply raise_keep | (show _ = _; rfl) | split
    | (simp only [keep_lit]; first | with_reducible apply keep_mk | with_reducible apply keep_mk_hostMem | with_reducible apply keep_mk_chip | with_reducible apply keep_mk_flash)
    | intro _)

theorem placeBatch_keep {Q : List Instr} {V : Nat} (v : Nat) (s : State) (hK : Keep Q V s) :
    Keep Q V (placeBatch v s) := by
  unfold placeBatch
  try dsimp only
  repeat' (first
    | with_reducible exact hK | with_reducible assumption | with_reducible apply State.updIngest_keep
    | with_reducible apply deliver_keep | with_reducible apply epochEvents_keep | (show _ = _; rfl) | split
    | (simp only [keep_lit]; first | with_reducible apply keep_mk | with_reducible apply keep_mk_hostMem | with_reducible apply keep_mk_chip | with_reducible apply keep_mk_flash)
    | intro _)

theorem execIngestPlace_keep {Q : List Instr} {V : Nat} (s : State) (hK : Keep Q V s) :
    KeepOut Q V (execIngestPlace s) := by
  unfold execIngestPlace
  try dsimp only
  repeat' (first
    | with_reducible apply keepOut_next | with_reducible exact hK | with_reducible assumption
    | with_reducible apply State.updIngest_keep | with_reducible apply dieAbsent_keep
    | with_reducible apply memBadNoHalt_keep | with_reducible apply memBad_keep
    | with_reducible apply placeBatch_keep | (show _ = _; rfl) | split
    | (simp only [keep_lit]; first | with_reducible apply keep_mk | with_reducible apply keep_mk_hostMem | with_reducible apply keep_mk_chip | with_reducible apply keep_mk_flash)
    | intro _)

theorem execIngestRejoin_keep {Q : List Instr} {V : Nat} (s : State) (hK : Keep Q V s) :
    KeepOut Q V (execIngestRejoin s) := by
  unfold execIngestRejoin
  try dsimp only
  repeat' (first
    | with_reducible apply keepOut_next | with_reducible exact hK | with_reducible assumption
    | with_reducible apply State.updIngest_keep | with_reducible apply raiseParser_keep | (show _ = _; rfl) | split
    | (simp only [keep_lit]; first | with_reducible apply keep_mk | with_reducible apply keep_mk_hostMem | with_reducible apply keep_mk_chip | with_reducible apply keep_mk_flash)
    | intro _)

theorem ingestOpen_keep {Q : List Instr} {V : Nat} (c : Cmd) (s : State) (hK : Keep Q V s) :
    KeepReply Q V (ingestOpen c s) := by
  unfold ingestOpen
  try dsimp only
  repeat' (first
    | with_reducible apply Reply.no_keep | with_reducible apply Reply.noAt_keep | with_reducible apply Reply.ok_keep
    | with_reducible exact hK | with_reducible assumption | with_reducible apply State.updIngest_keep
    | (show _ = _; rfl) | split
    | (simp only [keep_lit]; first | with_reducible apply keep_mk | with_reducible apply keep_mk_hostMem | with_reducible apply keep_mk_chip | with_reducible apply keep_mk_flash)
    | intro _)

theorem execIngestOpen_keep {Q : List Instr} {V : Nat} (c : Cmd) (s : State) (hK : Keep Q V s) :
    KeepOut Q V (execIngestOpen c s) := by
  unfold execIngestOpen
  try dsimp only
  repeat' (first
    | with_reducible exact hK | with_reducible assumption | with_reducible apply runCmd_keep
    | with_reducible apply ingestOpen_keep | split | intro _)

theorem ingestEpoch_keep {Q : List Instr} {V : Nat} (c : Cmd) (s : State) (hK : Keep Q V s) :
    KeepReply Q V (ingestEpoch c s) := by
  unfold ingestEpoch
  try dsimp only
  repeat' (first
    | with_reducible apply Reply.noAt_keep | with_reducible apply Reply.ok_keep | with_reducible exact hK
    | with_reducible assumption | with_reducible apply State.updIngest_keep | (show _ = _; rfl) | split
    | (simp only [keep_lit]; first | with_reducible apply keep_mk | with_reducible apply keep_mk_hostMem | with_reducible apply keep_mk_chip | with_reducible apply keep_mk_flash)
    | intro _)

theorem execIngestEpoch_keep {Q : List Instr} {V : Nat} (c : Cmd) (s : State) (hK : Keep Q V s) :
    KeepOut Q V (execIngestEpoch c s) := by
  unfold execIngestEpoch
  try dsimp only
  repeat' (first
    | with_reducible exact hK | with_reducible assumption | with_reducible apply runCmd_keep
    | with_reducible apply ingestEpoch_keep | split | intro _)

theorem ingestPosition_keep {Q : List Instr} {V : Nat} (c : Cmd) (s : State) (hK : Keep Q V s) :
    KeepReply Q V (ingestPosition c s) := by
  unfold ingestPosition
  try dsimp only
  repeat' (first
    | with_reducible apply Reply.noAt_keep | with_reducible apply keepReply_done | with_reducible exact hK
    | with_reducible assumption | with_reducible apply State.updIngest_keep | (show _ = _; rfl) | split
    | (simp only [keep_lit]; first | with_reducible apply keep_mk | with_reducible apply keep_mk_hostMem | with_reducible apply keep_mk_chip | with_reducible apply keep_mk_flash)
    | intro _)

theorem execIngestPosition_keep {Q : List Instr} {V : Nat} (c : Cmd) (s : State) (hK : Keep Q V s) :
    KeepOut Q V (execIngestPosition c s) := by
  unfold execIngestPosition
  try dsimp only
  repeat' (first
    | with_reducible exact hK | with_reducible assumption | with_reducible apply runCmd_keep
    | with_reducible apply ingestPosition_keep | split | intro _)

theorem devInfo_keep {Q : List Instr} {V : Nat} (c : Cmd) (s : State) (hK : Keep Q V s) :
    KeepReply Q V (devInfo c s) := by
  unfold devInfo
  try dsimp only
  repeat' (first
    | with_reducible apply keepReply_done | with_reducible exact hK | with_reducible assumption | split | intro _)

theorem execDevInfo_keep {Q : List Instr} {V : Nat} (c : Cmd) (s : State) (hK : Keep Q V s) :
    KeepOut Q V (execDevInfo c s) := by
  unfold execDevInfo
  try dsimp only
  repeat' (first
    | with_reducible exact hK | with_reducible assumption | with_reducible apply runCmd_keep
    | with_reducible apply devInfo_keep | split | intro _)

theorem jobOf_state (c : Cmd) : (jobOf c).state = 1 := by
  unfold jobOf
  dsimp only
  split <;> rfl

theorem jobCreate_keep {Q : List Instr} {V : Nat} (c : Cmd) (s : State) (hK : Keep Q V s) :
    KeepReply Q V (jobCreate c s) := by
  unfold jobCreate
  repeat' (first | with_reducible exact hK | with_reducible apply Reply.no_keep | with_reducible apply Reply.noAt_keep | with_reducible apply Reply.ok_keep | with_reducible apply unpark_keep | with_reducible apply demote_keep | with_reducible apply drainBar2_keep | ((with_reducible refine State.updJob_keep _ _ ?_ ?_); rotate_left; intro _; exact Nat.le_trans (Nat.le_of_eq (jobOf_state c)) (by decide)) | split | dsimp only)

theorem execJobCreate_keep {Q : List Instr} {V : Nat} (c : Cmd) (s : State) (hK : Keep Q V s) :
    KeepOut Q V (execJobCreate c s) := by
  unfold execJobCreate
  try dsimp only
  repeat' (first
    | with_reducible exact hK | with_reducible assumption | with_reducible apply runCmd_keep
    | with_reducible apply jobCreate_keep | split | intro _)

theorem rehome_keep {Q : List Instr} {V : Nat} (s : State) (hK : Keep Q V s) :
    Keep Q V (rehome s) := by
  unfold rehome
  try dsimp only
  repeat' (first
    | with_reducible exact hK | with_reducible assumption | with_reducible apply State.updPort_keep
    | with_reducible apply forEach_keep | with_reducible apply queueColl_keep | (show _ = _; rfl) | split
    | (simp only [keep_lit]; first | with_reducible apply keep_mk | with_reducible apply keep_mk_hostMem | with_reducible apply keep_mk_chip | with_reducible apply keep_mk_flash)
    | intro _)

theorem setRole_keep {Q : List Instr} {V : Nat} (p role : Nat) (s : State) (hK : Keep Q V s) :
    Keep Q V (setRole p role s) := by
  unfold setRole
  try dsimp only
  repeat' (first
    | with_reducible exact hK | with_reducible assumption | with_reducible apply State.updPort_keep
    | with_reducible apply forEach_keep | with_reducible apply queueColl_keep | (show _ = _; rfl) | split
    | (simp only [keep_lit]; first | with_reducible apply keep_mk | with_reducible apply keep_mk_hostMem | with_reducible apply keep_mk_chip | with_reducible apply keep_mk_flash)
    | intro _)

theorem portRoleSet_keep {Q : List Instr} {V : Nat} (c : Cmd) (s : State) (hK : Keep Q V s) :
    KeepReply Q V (portRoleSet c s) := by
  unfold portRoleSet
  try dsimp only
  repeat' (first
    | with_reducible apply Reply.noAt_keep | with_reducible apply Reply.ok_keep
    | with_reducible apply keepReply_refuse | with_reducible exact hK | with_reducible assumption
    | with_reducible apply forEach_keep | with_reducible apply portDown_keep | with_reducible apply rehome_keep
    | with_reducible apply setRole_keep | (show _ = _; rfl) | split
    | (simp only [keep_lit]; first | with_reducible apply keep_mk | with_reducible apply keep_mk_hostMem | with_reducible apply keep_mk_chip | with_reducible apply keep_mk_flash)
    | intro _)

theorem execPortRoleSet_keep {Q : List Instr} {V : Nat} (c : Cmd) (s : State) (hK : Keep Q V s) :
    KeepOut Q V (execPortRoleSet c s) := by
  unfold execPortRoleSet
  try dsimp only
  repeat' (first
    | with_reducible exact hK | with_reducible assumption | with_reducible apply runCmd_keep
    | with_reducible apply portRoleSet_keep | split | intro _)

theorem State.freshRecords_keep {Q : List Instr} {V : Nat} (s : State) (v : Nat) (hK : Keep Q V s) :
    Keep Q V (State.freshRecords s v) := by
  unfold State.freshRecords
  try dsimp only
  repeat' (first
    | with_reducible exact hK | with_reducible assumption | with_reducible apply State.mend_keep | split | intro _)

theorem startStage_keep {Q : List Instr} {V : Nat} (v : Nat) (s : State) (hK : Keep Q V s) :
    Keep Q V (startStage v s) := by
  unfold startStage
  try dsimp only
  repeat' (first
    | with_reducible exact hK | with_reducible assumption | with_reducible apply State.updEng_keep
    | with_reducible apply State.updStage_keep | with_reducible apply State.updCells_keep
    | with_reducible apply startAt_keep | with_reducible apply State.freshRecords_keep | split | intro _)

theorem jobStart_keep {Q : List Instr} {V : Nat} (s : State) (hK : Keep Q V s) :
    KeepReply Q V (jobStart s) := by
  unfold jobStart
  try dsimp only
  repeat' (first
    | with_reducible apply Reply.no_keep | with_reducible apply Reply.noStage_keep
    | with_reducible apply Reply.ok_keep | with_reducible exact hK | with_reducible assumption
    | with_reducible apply State.updPort_keep
    | ((with_reducible refine State.updJob_keep_same _ _ ?_ ?_); rotate_left; intro _; rfl)
    | ((with_reducible refine State.updJob_keep _ _ ?_ ?_); rotate_left; intro _; exact Nat.le_of_ble_eq_true rfl)
    | with_reducible apply State.updIngest_keep | with_reducible apply forEach_keep
    | with_reducible apply jobEvent_keep | with_reducible apply startStage_keep | (show _ = _; rfl) | split
    | (simp only [keep_lit]; first | with_reducible apply keep_mk | with_reducible apply keep_mk_hostMem | with_reducible apply keep_mk_chip | with_reducible apply keep_mk_flash)
    | intro _)

theorem execJobStart_keep {Q : List Instr} {V : Nat} (c : Cmd) (s : State) (hK : Keep Q V s) :
    KeepOut Q V (execJobStart c s) := by
  unfold execJobStart
  try dsimp only
  repeat' (first
    | with_reducible exact hK | with_reducible assumption | with_reducible apply runCmd_keep
    | with_reducible apply jobStart_keep | split | intro _)

theorem pauseGroup_keep {Q : List Instr} {V : Nat} (v : Nat) (s : State) (hK : Keep Q V s) :
    Keep Q V (pauseGroup v s) := by
  unfold pauseGroup
  try dsimp only
  repeat' (first
    | with_reducible exact hK | with_reducible assumption | with_reducible apply State.updStage_keep
    | with_reducible apply haltStage_keep | (show _ = _; rfl) | split
    | (simp only [keep_lit]; first | with_reducible apply keep_mk | with_reducible apply keep_mk_hostMem | with_reducible apply keep_mk_chip | with_reducible apply keep_mk_flash)
    | intro _)

theorem pauseBoundary_keep {Q : List Instr} {V : Nat} (v target : Nat) (s : State) (hK : Keep Q V s) :
    Keep Q V (pauseBoundary v target s) := by
  unfold pauseBoundary
  try dsimp only
  repeat' (first
    | with_reducible exact hK | with_reducible assumption | with_reducible apply State.updStage_keep
    | with_reducible apply haltStage_keep | (show _ = _; rfl) | split
    | (simp only [keep_lit]; first | with_reducible apply keep_mk | with_reducible apply keep_mk_hostMem | with_reducible apply keep_mk_chip | with_reducible apply keep_mk_flash)
    | intro _)

theorem stopIngest_keep {Q : List Instr} {V : Nat} (boundary : Bool) (s : State) (hK : Keep Q V s) :
    Keep Q V (stopIngest boundary s) := by
  unfold stopIngest
  try dsimp only
  repeat' (first
    | with_reducible exact hK | with_reducible assumption | with_reducible apply State.updIngest_keep
    | (show _ = _; rfl) | split
    | (simp only [keep_lit]; first | with_reducible apply keep_mk | with_reducible apply keep_mk_hostMem | with_reducible apply keep_mk_chip | with_reducible apply keep_mk_flash)
    | intro _)

theorem jobPause_keep {Q : List Instr} {V : Nat} (c : Cmd) (s : State) (hK : Keep Q V s) :
    KeepReply Q V (jobPause c s) := by
  unfold jobPause
  try dsimp only
  repeat' (first
    | with_reducible apply Reply.noAt_keep | with_reducible apply keepReply_goesOn | with_reducible exact hK
    | with_reducible assumption
    | ((with_reducible refine State.updJob_keep_same _ _ ?_ ?_); rotate_left; intro _; rfl)
    | ((with_reducible refine State.updJob_keep _ _ ?_ ?_); rotate_left; intro _; exact Nat.le_of_ble_eq_true rfl)
    | with_reducible apply forEach_keep | with_reducible apply haltStage_keep | with_reducible apply pauseGroup_keep
    | with_reducible apply pauseBoundary_keep | with_reducible apply stopIngest_keep | (show _ = _; rfl) | split
    | (simp only [keep_lit]; first | with_reducible apply keep_mk | with_reducible apply keep_mk_hostMem | with_reducible apply keep_mk_chip | with_reducible apply keep_mk_flash)
    | intro _)

theorem execJobPause_keep {Q : List Instr} {V : Nat} (c : Cmd) (s : State) (hK : Keep Q V s) :
    KeepOut Q V (execJobPause c s) := by
  unfold execJobPause
  try dsimp only
  repeat' (first
    | with_reducible exact hK | with_reducible assumption | with_reducible apply runCmd_keep
    | with_reducible apply jobPause_keep | split | intro _)

theorem enterPaused_keep {Q : List Instr} {V : Nat} (s : State) (hK : Keep Q V s) :
    Keep Q V (enterPaused s) := by
  unfold enterPaused
  try dsimp only
  repeat' (first
    | with_reducible exact hK | with_reducible assumption
    | ((with_reducible refine State.updJob_keep_same _ _ ?_ ?_); rotate_left; intro _; rfl)
    | ((with_reducible refine State.updJob_keep _ _ ?_ ?_); rotate_left; intro _; exact Nat.le_of_ble_eq_true rfl)
    | with_reducible apply State.updIngest_keep | with_reducible apply completeOp_keep
    | with_reducible apply jobEvent_keep | with_reducible apply endRepeats_keep | (show _ = _; rfl) | split
    | (simp only [keep_lit]; first | with_reducible apply keep_mk | with_reducible apply keep_mk_hostMem | with_reducible apply keep_mk_chip | with_reducible apply keep_mk_flash)
    | intro _)

theorem execPauseComplete_keep {Q : List Instr} {V : Nat} (s : State) (hK : Keep Q V s) :
    KeepOut Q V (execPauseComplete s) := by
  unfold execPauseComplete
  try dsimp only
  repeat' (first
    | with_reducible apply keepOut_next | with_reducible exact hK | with_reducible assumption
    | with_reducible apply settleHold_keep | with_reducible apply enterPaused_keep | split | intro _)

theorem restartGroup_keep {Q : List Instr} {V : Nat} (v : Nat) (d : BitVec 256) (rung : Nat) (s : State)
    (hK : Keep Q V s) :
    Keep Q V (restartGroup v d rung s) := by
  unfold restartGroup
  try dsimp only
  repeat' (first
    | with_reducible exact hK | with_reducible assumption | with_reducible apply State.updEng_keep
    | with_reducible apply State.updStage_keep | with_reducible apply forEach_keep | (show _ = _; rfl) | split
    | (simp only [keep_lit]; first | with_reducible apply keep_mk | with_reducible apply keep_mk_hostMem | with_reducible apply keep_mk_chip | with_reducible apply keep_mk_flash)
    | intro _)

theorem resumeStage_keep {Q : List Instr} {V : Nat} (v : Nat) (s : State) (hK : Keep Q V s) :
    Keep Q V (resumeStage v s) := by
  unfold resumeStage
  try dsimp only
  repeat' (first
    | with_reducible exact hK | with_reducible assumption | with_reducible apply State.updStage_keep
    | with_reducible apply forEach_keep | with_reducible apply State.updCells_keep
    | with_reducible apply discardEnded_keep | with_reducible apply startAt_keep
    | with_reducible apply resubmit_keep | with_reducible apply trySubmit_keep
    | with_reducible apply restartGroup_keep | (show _ = _; rfl) | split
    | (simp only [keep_lit]; first | with_reducible apply keep_mk | with_reducible apply keep_mk_hostMem | with_reducible apply keep_mk_chip | with_reducible apply keep_mk_flash)
    | intro _)

theorem jobResume_keep {Q : List Instr} {V : Nat} (s : State) (hK : Keep Q V s) :
    KeepReply Q V (jobResume s) := by
  unfold jobResume
  try dsimp only
  repeat' (first
    | with_reducible apply Reply.no_keep | with_reducible apply Reply.noStage_keep
    | with_reducible apply Reply.ok_keep | with_reducible exact hK | with_reducible assumption
    | with_reducible apply State.updChip_keep
    | ((with_reducible refine State.updJob_keep_same _ _ ?_ ?_); rotate_left; intro _; rfl)
    | ((with_reducible refine State.updJob_keep _ _ ?_ ?_); rotate_left; intro _; exact Nat.le_of_ble_eq_true rfl)
    | with_reducible apply State.updIngest_keep | with_reducible apply forEach_keep
    | with_reducible apply jobEvent_keep | with_reducible apply resumeStage_keep | (show _ = _; rfl) | split
    | (simp only [keep_lit]; first | with_reducible apply keep_mk | with_reducible apply keep_mk_hostMem | with_reducible apply keep_mk_chip | with_reducible apply keep_mk_flash)
    | intro _)

theorem execJobResume_keep {Q : List Instr} {V : Nat} (c : Cmd) (s : State) (hK : Keep Q V s) :
    KeepOut Q V (execJobResume c s) := by
  unfold execJobResume
  try dsimp only
  repeat' (first
    | with_reducible exact hK | with_reducible assumption | with_reducible apply runCmd_keep
    | with_reducible apply jobResume_keep | split | intro _)

theorem endJob_keep {Q : List Instr} {V : Nat} (s : State) (hK : Keep Q V s) : Keep Q V (endJob s) := by
  unfold endJob
  dsimp only
  repeat' (first | with_reducible exact hK | with_reducible assumption | with_reducible apply raiseParser_keep | with_reducible apply endRepeats_keep | with_reducible apply State.updIngest_keep | with_reducible apply State.updChip_keep | with_reducible apply forEach_keep | with_reducible apply portDown_keep | with_reducible apply haltStage_keep | (intro c; show _ = _; rfl) | (simp only [keep_lit]; with_reducible apply keep_mk_job) | exact Nat.zero_le 4 | split | intro _)

theorem endAdvance_keep {Q : List Instr} {V : Nat} (status : Nat) (s : State) (hK : Keep Q V s) :
    Keep Q V (endAdvance status s) := by
  unfold endAdvance
  try dsimp only
  repeat' (first
    | with_reducible exact hK | with_reducible assumption | with_reducible apply State.updChip_keep
    | with_reducible apply advance_keep | with_reducible apply completeRunning_keep | (show _ = _; rfl) | split
    | (simp only [keep_lit]; first | with_reducible apply keep_mk | with_reducible apply keep_mk_hostMem | with_reducible apply keep_mk_chip | with_reducible apply keep_mk_flash)
    | intro _)

theorem stopAdvance_keep {Q : List Instr} {V : Nat} (s : State) (hK : Keep Q V s) :
    Keep Q V (stopAdvance s) := by
  unfold stopAdvance
  try dsimp only
  repeat' (first
    | with_reducible exact hK | with_reducible assumption | with_reducible apply State.updChip_keep
    | with_reducible apply advance_keep | with_reducible apply endAdvance_keep | (show _ = _; rfl) | split
    | (simp only [keep_lit]; first | with_reducible apply keep_mk | with_reducible apply keep_mk_hostMem | with_reducible apply keep_mk_chip | with_reducible apply keep_mk_flash)
    | intro _)

theorem abortControl_keep {Q : List Instr} {V : Nat} (s : State) (hK : Keep Q V s) :
    Keep Q V (abortControl s) := by
  unfold abortControl
  try dsimp only
  repeat' (first
    | with_reducible exact hK | with_reducible assumption | with_reducible apply State.updFaults_keep
    | with_reducible apply forEach_keep | with_reducible apply completeRunning_keep | (show _ = _; rfl) | split
    | (simp only [keep_lit]; first | with_reducible apply keep_mk | with_reducible apply keep_mk_hostMem | with_reducible apply keep_mk_chip | with_reducible apply keep_mk_flash)
    | intro _)

theorem haltAll_keep {Q : List Instr} {V : Nat} (s : State) (hK : Keep Q V s) :
    Keep Q V (haltAll s) := by
  unfold haltAll
  try dsimp only
  repeat' (first
    | with_reducible exact hK | with_reducible assumption | with_reducible apply endJob_keep
    | with_reducible apply stopAdvance_keep | with_reducible apply abortControl_keep | split | intro _)

theorem haltOne_keep {Q : List Instr} {V : Nat} (v : Nat) (s : State) (hK : Keep Q V s) :
    Keep Q V (haltOne v s) := by
  unfold haltOne
  try dsimp only
  repeat' (first
    | with_reducible exact hK | with_reducible assumption | with_reducible apply raiseParser_keep
    | with_reducible apply haltStage_keep | split | intro _)

theorem haltCmd_keep {Q : List Instr} {V : Nat} (c : Cmd) (s : State) (hK : Keep Q V s) :
    KeepReply Q V (haltCmd c s) := by
  unfold haltCmd
  try dsimp only
  repeat' (first
    | with_reducible apply Reply.ok_keep | with_reducible apply keepReply_refuse
    | with_reducible apply keepReply_goesOn | with_reducible exact hK | with_reducible assumption
    | with_reducible apply State.updChip_keep | with_reducible apply forEach_keep
    | with_reducible apply haltAll_keep | with_reducible apply haltOne_keep | (show _ = _; rfl) | split
    | (simp only [keep_lit]; first | with_reducible apply keep_mk | with_reducible apply keep_mk_hostMem | with_reducible apply keep_mk_chip | with_reducible apply keep_mk_flash)
    | intro _)

theorem execHalt_keep {Q : List Instr} {V : Nat} (c : Cmd) (s : State) (hK : Keep Q V s) :
    KeepOut Q V (execHalt c s) := by
  unfold execHalt
  try dsimp only
  repeat' (first
    | with_reducible exact hK | with_reducible assumption | with_reducible apply runCmd_keep
    | with_reducible apply haltCmd_keep | split | intro _)

theorem stageFlags_keep {Q : List Instr} {V : Nat} (c : Cmd) (s : State) (hK : Keep Q V s) :
    KeepReply Q V (stageFlags c s) := by
  unfold stageFlags
  try dsimp only
  repeat' (first
    | with_reducible apply keepReply_refuse | with_reducible apply keepReply_done | with_reducible exact hK
    | with_reducible assumption | with_reducible apply State.updStage_keep | with_reducible apply forEach_keep
    | with_reducible apply State.updCells_keep | (show _ = _; rfl) | split
    | (simp only [keep_lit]; first | with_reducible apply keep_mk | with_reducible apply keep_mk_hostMem | with_reducible apply keep_mk_chip | with_reducible apply keep_mk_flash)
    | intro _)

theorem execStageFlags_keep {Q : List Instr} {V : Nat} (c : Cmd) (s : State) (hK : Keep Q V s) :
    KeepOut Q V (execStageFlags c s) := by
  unfold execStageFlags
  try dsimp only
  repeat' (first
    | with_reducible exact hK | with_reducible assumption | with_reducible apply runCmd_keep
    | with_reducible apply stageFlags_keep | split | intro _)

theorem numlogDone_keep {Q : List Instr} {V : Nat} (c : Cmd) (x : Nat × Nat) (s : State) (hK : Keep Q V s) :
    Keep Q V (numlogDone c x s) := by
  unfold numlogDone
  try dsimp only
  repeat' (first
    | with_reducible exact hK | with_reducible assumption | with_reducible apply State.updStage_keep
    | with_reducible apply memBadNoHalt_keep | (show _ = _; rfl) | split
    | (simp only [keep_lit]; first | with_reducible apply keep_mk | with_reducible apply keep_mk_hostMem | with_reducible apply keep_mk_chip | with_reducible apply keep_mk_flash)
    | (show _ ≤ max _ _; omega) | intro _)

theorem numlogRead_keep {Q : List Instr} {V : Nat} (c : Cmd) (s : State) (hK : Keep Q V s) :
    KeepReply Q V (numlogRead c s) := by
  unfold numlogRead
  try dsimp only
  repeat' (first
    | with_reducible apply keepReply_refuse | with_reducible apply keepReply_done | with_reducible exact hK
    | with_reducible assumption | with_reducible apply forEach_keep | with_reducible apply numlogDone_keep | split
    | intro _)

theorem execNumlogRead_keep {Q : List Instr} {V : Nat} (c : Cmd) (s : State) (hK : Keep Q V s) :
    KeepOut Q V (execNumlogRead c s) := by
  unfold execNumlogRead
  try dsimp only
  repeat' (first
    | with_reducible exact hK | with_reducible assumption | with_reducible apply runCmd_keep
    | with_reducible apply numlogRead_keep | split | intro _)

end Sys2Proof.Machine
end

