-- ==== Sys2Proof/Laws/KeepHost.lean ====
section
/-!
SUPPORT. Sys2Proof/Laws/KeepHost.lean: loads, checkpoints and the host interface keep the invariant.
-/
namespace Sys2Proof.Machine

theorem installTense_keep {Q : List Instr} {V : Nat} (v commit : Nat) (adig : W128) (img heads moments table : List Byte) (s : State)
    (hK : Keep Q V s) :
    Keep Q V (installTense v commit adig img heads moments table s) := by
  unfold installTense
  try dsimp only
  repeat' (first
    | with_reducible exact hK | with_reducible assumption | with_reducible apply State.updStage_keep
    | with_reducible apply State.store_keep | with_reducible apply State.mend_keep | (show _ = _; rfl) | split
    | (simp only [keep_lit]; first | with_reducible apply keep_mk | with_reducible apply keep_mk_hostMem | with_reducible apply keep_mk_chip | with_reducible apply keep_mk_flash)
    | intro _)

theorem installIngest_keep {Q : List Instr} {V : Nat} (bs : List Byte) (s : State) (hK : Keep Q V s) :
    Keep Q V (installIngest bs s) := by
  unfold installIngest
  try dsimp only
  repeat' (first
    | with_reducible exact hK | with_reducible assumption | with_reducible apply State.updIngest_keep
    | (show _ = _; rfl) | split
    | (simp only [keep_lit]; first | with_reducible apply keep_mk | with_reducible apply keep_mk_hostMem | with_reducible apply keep_mk_chip | with_reducible apply keep_mk_flash)
    | intro _)

theorem writeCode_keep {Q : List Instr} {V : Nat} (g : Stage) (s : State) (hK : Keep Q V s) :
    Keep Q V (writeCode g s) := by
  unfold writeCode
  try dsimp only
  repeat' (first
    | with_reducible exact hK | with_reducible assumption | with_reducible apply State.store_keep
    | with_reducible apply forEach_keep | with_reducible apply State.mend_keep | split | intro _)

theorem loadImage_keep {Q : List Instr} {V : Nat} (c : Cmd) (m : StageImage) (s : State) (hK : Keep Q V s) :
    KeepReply Q V (loadImage c m s) := by
  unfold loadImage
  try dsimp only
  repeat' (first
    | with_reducible apply Reply.noStage_keep | with_reducible apply Reply.ok_keep
    | with_reducible apply keepReply_refuse | with_reducible apply keepReply_failed
    | with_reducible apply keepReply_goesOn | with_reducible exact hK | with_reducible assumption
    | with_reducible apply State.updStage_keep
    | ((with_reducible refine State.updJob_keep_same _ _ ?_ ?_); rotate_left; intro _; rfl)
    | ((with_reducible refine State.updJob_keep _ _ ?_ ?_); rotate_left; intro _; exact Nat.le_of_ble_eq_true rfl)
    | with_reducible apply State.updCells_keep | with_reducible apply installTense_keep
    | with_reducible apply writeCode_keep | (show _ = _; rfl) | split
    | (simp only [keep_lit]; first | with_reducible apply keep_mk | with_reducible apply keep_mk_hostMem | with_reducible apply keep_mk_chip | with_reducible apply keep_mk_flash)
    | intro _)

theorem stageLoad_keep {Q : List Instr} {V : Nat} (c : Cmd) (m : StageImage) (s : State) (hK : Keep Q V s) :
    KeepReply Q V (stageLoad c m s) := by
  unfold stageLoad
  try dsimp only
  repeat' (first
    | with_reducible apply Reply.noAt_keep | with_reducible apply Reply.ok_keep | with_reducible exact hK
    | with_reducible assumption
    | ((with_reducible refine State.updJob_keep_same _ _ ?_ ?_); rotate_left; intro _; rfl)
    | ((with_reducible refine State.updJob_keep _ _ ?_ ?_); rotate_left; intro _; exact Nat.le_of_ble_eq_true rfl)
    | with_reducible apply loadImage_keep | (show _ = _; rfl) | split
    | (simp only [keep_lit]; first | with_reducible apply keep_mk | with_reducible apply keep_mk_hostMem | with_reducible apply keep_mk_chip | with_reducible apply keep_mk_flash)
    | intro _)

theorem execStageLoad_keep {Q : List Instr} {V : Nat} (c : Cmd) (m : StageImage) (s : State) (hK : Keep Q V s) :
    KeepOut Q V (execStageLoad c m s) := by
  unfold execStageLoad
  try dsimp only
  repeat' (first
    | with_reducible exact hK | with_reducible assumption | with_reducible apply runCmd_keep
    | with_reducible apply stageLoad_keep | split | intro _)

theorem tenseConfig_keep {Q : List Instr} {V : Nat} (c : Cmd) (s : State) (hK : Keep Q V s) :
    KeepReply Q V (tenseConfig c s) := by
  unfold tenseConfig
  try dsimp only
  repeat' (first
    | with_reducible apply Reply.no_keep | with_reducible apply keepReply_refuse
    | with_reducible apply keepReply_done | with_reducible exact hK | with_reducible assumption
    | with_reducible apply State.updStage_keep | with_reducible apply forEach_keep | (show _ = _; rfl) | split
    | (simp only [keep_lit]; first | with_reducible apply keep_mk | with_reducible apply keep_mk_hostMem | with_reducible apply keep_mk_chip | with_reducible apply keep_mk_flash)
    | intro _)

theorem execTenseConfig_keep {Q : List Instr} {V : Nat} (c : Cmd) (s : State) (hK : Keep Q V s) :
    KeepOut Q V (execTenseConfig c s) := by
  unfold execTenseConfig
  try dsimp only
  repeat' (first
    | with_reducible exact hK | with_reducible assumption | with_reducible apply runCmd_keep
    | with_reducible apply tenseConfig_keep | split | intro _)

theorem installRule_keep {Q : List Instr} {V : Nat} (v commit : Nat) (r : RuleSource) (s : State) (hK : Keep Q V s) :
    Keep Q V (installRule v commit r s) := by
  unfold installRule
  try dsimp only
  repeat' (first
    | with_reducible exact hK | with_reducible assumption | with_reducible apply queueLoads_keep | (show _ = _; rfl)
    | split
    | (simp only [keep_lit]; first | with_reducible apply keep_mk | with_reducible apply keep_mk_hostMem | with_reducible apply keep_mk_chip | with_reducible apply keep_mk_flash)
    | intro _)

theorem ruleLoad_keep {Q : List Instr} {V : Nat} (c : Cmd) (s : State) (hK : Keep Q V s) :
    KeepReply Q V (ruleLoad c s) := by
  unfold ruleLoad
  try dsimp only
  repeat' (first
    | with_reducible apply Reply.ok_keep | with_reducible apply keepReply_refuse | with_reducible exact hK
    | with_reducible assumption | with_reducible apply forEach_keep | with_reducible apply installRule_keep
    | (show _ = _; rfl) | split
    | (simp only [keep_lit]; first | with_reducible apply keep_mk | with_reducible apply keep_mk_hostMem | with_reducible apply keep_mk_chip | with_reducible apply keep_mk_flash)
    | intro _)

theorem execRuleLoad_keep {Q : List Instr} {V : Nat} (c : Cmd) (s : State) (hK : Keep Q V s) :
    KeepOut Q V (execRuleLoad c s) := by
  unfold execRuleLoad
  try dsimp only
  repeat' (first
    | with_reducible exact hK | with_reducible assumption | with_reducible apply runCmd_keep
    | with_reducible apply ruleLoad_keep | split | intro _)

theorem tableLoad_keep {Q : List Instr} {V : Nat} (c : Cmd) (s : State) (field : Nat) (refuse : Stage → Nat → Option (Nat × Nat)) (addr : Stage → Nat → Nat)
    (hK : Keep Q V s) :
    KeepReply Q V (tableLoad c s field refuse addr) := by
  unfold tableLoad
  try dsimp only
  repeat' (first
    | with_reducible apply Reply.ok_keep | with_reducible apply keepReply_refuse | with_reducible exact hK
    | with_reducible assumption | with_reducible apply forEach_keep | with_reducible apply queueLoads_keep
    | (show _ = _; rfl) | split
    | (simp only [keep_lit]; first | with_reducible apply keep_mk | with_reducible apply keep_mk_hostMem | with_reducible apply keep_mk_chip | with_reducible apply keep_mk_flash)
    | intro _)

theorem execSchedTableLoad_keep {Q : List Instr} {V : Nat} (c : Cmd) (s : State) (hK : Keep Q V s) :
    KeepOut Q V (execSchedTableLoad c s) := by
  unfold execSchedTableLoad
  try dsimp only
  repeat' (first
    | with_reducible exact hK | with_reducible assumption | with_reducible apply runCmd_keep
    | with_reducible apply tableLoad_keep | split | intro _)

theorem execFreezeMaskLoad_keep {Q : List Instr} {V : Nat} (c : Cmd) (s : State) (hK : Keep Q V s) :
    KeepOut Q V (execFreezeMaskLoad c s) := by
  unfold execFreezeMaskLoad
  try dsimp only
  repeat' (first
    | with_reducible exact hK | with_reducible assumption | with_reducible apply runCmd_keep
    | with_reducible apply tableLoad_keep | split | intro _)

theorem checkpoint_keep {Q : List Instr} {V : Nat} (c : Cmd) (s : State) (hK : Keep Q V s) :
    KeepReply Q V (checkpoint c s) := by
  unfold checkpoint
  try dsimp only
  repeat' (first
    | with_reducible apply Reply.noStage_keep | with_reducible apply Reply.noAt_keep
    | with_reducible apply keepReply_refuse | with_reducible apply keepReply_done
    | with_reducible apply keepReply_failed | with_reducible apply keepReply_goesOn | with_reducible exact hK
    | with_reducible assumption | with_reducible apply memBad_keep | (show _ = _; rfl) | split
    | (simp only [keep_lit]; first | with_reducible apply keep_mk | with_reducible apply keep_mk_hostMem | with_reducible apply keep_mk_chip | with_reducible apply keep_mk_flash)
    | intro _)

theorem execCheckpoint_keep {Q : List Instr} {V : Nat} (c : Cmd) (s : State) (hK : Keep Q V s) :
    KeepOut Q V (execCheckpoint c s) := by
  unfold execCheckpoint
  try dsimp only
  repeat' (first
    | with_reducible exact hK | with_reducible assumption | with_reducible apply runCmd_keep
    | with_reducible apply checkpoint_keep | split | intro _)

theorem installCells_keep {Q : List Instr} {V : Nat} (v : Nat) (sec : Option (List Byte)) (s : State)
    (hK : Keep Q V s) :
    Keep Q V (installCells v sec s) := by
  unfold installCells
  try dsimp only
  repeat' (first
    | with_reducible exact hK | with_reducible assumption | with_reducible apply State.updEng_keep
    | with_reducible apply forEach_keep | (show _ = _; rfl) | split
    | (simp only [keep_lit]; first | with_reducible apply keep_mk | with_reducible apply keep_mk_hostMem | with_reducible apply keep_mk_chip | with_reducible apply keep_mk_flash)
    | intro _)

theorem restoreStage_keep {Q : List Instr} {V : Nat} (xs : List Section) (v : Nat) (s : State) (hK : Keep Q V s) :
    Keep Q V (restoreStage xs v s) := by
  unfold restoreStage
  try dsimp only
  repeat' (first
    | with_reducible exact hK | with_reducible assumption | with_reducible apply State.updEng_keep
    | with_reducible apply State.updStage_keep | with_reducible apply installTense_keep
    | with_reducible apply installCells_keep | (show _ = _; rfl) | split
    | (simp only [keep_lit]; first | with_reducible apply keep_mk | with_reducible apply keep_mk_hostMem | with_reducible apply keep_mk_chip | with_reducible apply keep_mk_flash)
    | intro _)

theorem restoreLinks_keep {Q : List Instr} {V : Nat} (s : State) (hK : Keep Q V s) :
    Keep Q V (restoreLinks s) := by
  unfold restoreLinks
  try dsimp only
  repeat' (first
    | with_reducible exact hK | with_reducible assumption | with_reducible apply State.updPort_keep
    | ((with_reducible refine State.updJob_keep_same _ _ ?_ ?_); rotate_left; intro _; rfl)
    | ((with_reducible refine State.updJob_keep _ _ ?_ ?_); rotate_left; intro _; exact Nat.le_of_ble_eq_true rfl)
    | with_reducible apply forEach_keep | with_reducible apply abandonExport_keep
    | with_reducible apply portDown_keep | (show _ = _; rfl) | split
    | (simp only [keep_lit]; first | with_reducible apply keep_mk | with_reducible apply keep_mk_hostMem | with_reducible apply keep_mk_chip | with_reducible apply keep_mk_flash)
    | intro _)

theorem restoreCommon_keep {Q : List Instr} {V : Nat} (xs : List Section) (s : State) (hK : Keep Q V s) :
    Keep Q V (restoreCommon xs s) := by
  unfold restoreCommon
  try dsimp only
  repeat' (first
    | with_reducible exact hK | with_reducible assumption | with_reducible apply State.updEng_keep
    | with_reducible apply forEach_keep | with_reducible apply installIngest_keep | split | intro _)

theorem restore_keep {Q : List Instr} {V : Nat} (c : Cmd) (s : State) (hK : Keep Q V s) :
    KeepReply Q V (restore c s) := by
  unfold restore
  try dsimp only
  repeat' (first
    | with_reducible apply Reply.no_keep | with_reducible apply Reply.noStage_keep
    | with_reducible apply Reply.noAt_keep | with_reducible apply Reply.ok_keep
    | with_reducible apply keepReply_goesOn | with_reducible exact hK | with_reducible assumption
    | with_reducible apply forEach_keep | with_reducible apply restoreStage_keep
    | with_reducible apply restoreLinks_keep | with_reducible apply restoreCommon_keep | (show _ = _; rfl) | split
    | (simp only [keep_lit]; first | with_reducible apply keep_mk | with_reducible apply keep_mk_hostMem | with_reducible apply keep_mk_chip | with_reducible apply keep_mk_flash)
    | intro _)

theorem execRestore_keep {Q : List Instr} {V : Nat} (c : Cmd) (s : State) (hK : Keep Q V s) :
    KeepOut Q V (execRestore c s) := by
  unfold execRestore
  try dsimp only
  repeat' (first
    | with_reducible exact hK | with_reducible assumption | with_reducible apply runCmd_keep
    | with_reducible apply restore_keep | split | intro _)

theorem State.drawn_keep {Q : List Instr} {V : Nat} (s : State) (hK : Keep Q V s) :
    Keep Q V (State.drawn s) := by
  unfold State.drawn
  try dsimp only
  repeat' (first
    | with_reducible exact hK | with_reducible assumption | (show _ = _; rfl) | split
    | (simp only [keep_lit]; first | with_reducible apply keep_mk | with_reducible apply keep_mk_hostMem | with_reducible apply keep_mk_chip | with_reducible apply keep_mk_flash)
    | intro _)

theorem startExport_keep {Q : List Instr} {V : Nat} (p : Nat) (x : Nat × TenseSlot × Bool) (s : State)
    (hK : Keep Q V s) :
    Keep Q V (startExport p x s) := by
  unfold startExport
  try dsimp only
  repeat' (first
    | with_reducible exact hK | with_reducible assumption | with_reducible apply State.updStage_keep
    | ((with_reducible refine State.updJob_keep_same _ _ ?_ ?_); rotate_left; intro _; rfl)
    | ((with_reducible refine State.updJob_keep _ _ ?_ ?_); rotate_left; intro _; exact Nat.le_of_ble_eq_true rfl)
    | with_reducible apply queueOn_keep | with_reducible apply State.drawn_keep | (show _ = _; rfl) | split
    | (simp only [keep_lit]; first | with_reducible apply keep_mk | with_reducible apply keep_mk_hostMem | with_reducible apply keep_mk_chip | with_reducible apply keep_mk_flash)
    | intro _)

theorem tenseExport_keep {Q : List Instr} {V : Nat} (c : Cmd) (s : State) (hK : Keep Q V s) :
    KeepReply Q V (tenseExport c s) := by
  unfold tenseExport
  try dsimp only
  repeat' (first
    | with_reducible apply Reply.noStage_keep | with_reducible apply Reply.noAt_keep
    | with_reducible apply keepReply_refuse | with_reducible apply keepReply_failed
    | with_reducible apply keepReply_goesOn | with_reducible exact hK | with_reducible assumption
    | ((with_reducible refine State.updJob_keep_same _ _ ?_ ?_); rotate_left; intro _; rfl)
    | ((with_reducible refine State.updJob_keep _ _ ?_ ?_); rotate_left; intro _; exact Nat.le_of_ble_eq_true rfl)
    | with_reducible apply forEach_keep | with_reducible apply raise_keep | with_reducible apply memBad_keep
    | with_reducible apply queueOn_keep | with_reducible apply startExport_keep | (show _ = _; rfl) | split
    | (simp only [keep_lit]; first | with_reducible apply keep_mk | with_reducible apply keep_mk_hostMem | with_reducible apply keep_mk_chip | with_reducible apply keep_mk_flash)
    | intro _)

theorem execTenseExport_keep {Q : List Instr} {V : Nat} (c : Cmd) (s : State) (hK : Keep Q V s) :
    KeepOut Q V (execTenseExport c s) := by
  unfold execTenseExport
  try dsimp only
  repeat' (first
    | with_reducible apply keepOut_next | with_reducible exact hK | with_reducible assumption
    | with_reducible apply runCmd_keep | with_reducible apply tenseExport_keep | split | intro _)

theorem onReg_keep {Q : List Instr} {V : Nat} (on : State → Bool) (f : State → State) (s : State) (hf : ∀ y, Keep Q V y → Keep Q V (f y))
    (hK : Keep Q V s) :
    KeepOut Q V (onReg on f s) := by
  unfold onReg
  try dsimp only
  repeat' (first
    | with_reducible apply keepOut_next | with_reducible exact hK | with_reducible assumption
    | with_reducible apply hf | split | intro _)

theorem setDone_keep {Q : List Instr} {V : Nat} (s : State) (hK : Keep Q V s) :
    Keep Q V (setDone s) := by
  unfold setDone
  try dsimp only
  repeat' (first
    | with_reducible exact hK | with_reducible assumption | with_reducible apply State.updChip_keep
    | with_reducible apply statusIrq_keep | (show _ = _; rfl) | split
    | (simp only [keep_lit]; first | with_reducible apply keep_mk | with_reducible apply keep_mk_hostMem | with_reducible apply keep_mk_chip | with_reducible apply keep_mk_flash)
    | intro _)

theorem dmaStops_keep {Q : List Instr} {V : Nat} (k : Nat) (s : State) (hK : Keep Q V s) :
    Keep Q V (dmaStops k s) := by
  unfold dmaStops
  try dsimp only
  repeat' (first
    | with_reducible exact hK | with_reducible assumption | with_reducible apply State.put_keep | (show _ = _; rfl)
    | split
    | (simp only [keep_lit]; first | with_reducible apply keep_mk | with_reducible apply keep_mk_hostMem | with_reducible apply keep_mk_chip | with_reducible apply keep_mk_flash)
    | intro _)

theorem startFence_keep {Q : List Instr} {V : Nat} (s : State) (hK : Keep Q V s) :
    Keep Q V (startFence s) := by
  unfold startFence
  try dsimp only
  repeat' (first
    | with_reducible exact hK | with_reducible assumption | with_reducible apply State.updChip_keep
    | with_reducible apply State.updIngest_keep | with_reducible apply forEach_keep
    | with_reducible apply haltStage_keep | with_reducible apply dmaStops_keep | (show _ = _; rfl) | split
    | (simp only [keep_lit]; first | with_reducible apply keep_mk | with_reducible apply keep_mk_hostMem | with_reducible apply keep_mk_chip | with_reducible apply keep_mk_flash)
    | intro _)

theorem fence_keep {Q : List Instr} {V : Nat} (s : State) (hK : Keep Q V s) :
    Keep Q V (fence s) := by
  unfold fence
  try dsimp only
  repeat' (first
    | with_reducible exact hK | with_reducible assumption | with_reducible apply setDone_keep
    | with_reducible apply startFence_keep | split | intro _)

theorem hardFence_keep {Q : List Instr} {V : Nat} (s : State) (hK : Keep Q V s) :
    Keep Q V (hardFence s) := by
  unfold hardFence
  try dsimp only
  repeat' (first
    | with_reducible exact hK | with_reducible assumption | with_reducible apply setDone_keep
    | with_reducible apply startFence_keep | split | intro _)

theorem execFenceGo_keep {Q : List Instr} {V : Nat} (s : State) (hK : Keep Q V s) :
    KeepOut Q V (execFenceGo s) := by
  unfold execFenceGo
  try dsimp only
  repeat' (first
    | with_reducible exact hK | with_reducible assumption | with_reducible apply onReg_keep
    | with_reducible apply fence_keep | split | intro _)

theorem finishFence_keep {Q : List Instr} {V : Nat} (s : State) (hK : Keep Q V s) :
    Keep Q V (finishFence s) := by
  unfold finishFence
  try dsimp only
  repeat' (first
    | with_reducible exact hK | with_reducible assumption | with_reducible apply State.updChip_keep
    | ((with_reducible refine State.updJob_keep_same _ _ ?_ ?_); rotate_left; intro _; rfl)
    | ((with_reducible refine State.updJob_keep _ _ ?_ ?_); rotate_left; intro _; exact Nat.le_of_ble_eq_true rfl)
    | with_reducible apply forEach_keep | with_reducible apply completeRunning_keep
    | with_reducible apply enterPaused_keep | with_reducible apply haltAll_keep | with_reducible apply setDone_keep
    | (show _ = _; rfl) | split
    | (simp only [keep_lit]; first | with_reducible apply keep_mk | with_reducible apply keep_mk_hostMem | with_reducible apply keep_mk_chip | with_reducible apply keep_mk_flash)
    | intro _)

theorem execFenceComplete_keep {Q : List Instr} {V : Nat} (s : State) (hK : Keep Q V s) :
    KeepOut Q V (execFenceComplete s) := by
  unfold execFenceComplete
  try dsimp only
  repeat' (first
    | with_reducible apply keepOut_next | with_reducible exact hK | with_reducible assumption
    | with_reducible apply finishFence_keep | split | intro _)

theorem execThermalSeenClear_keep {Q : List Instr} {V : Nat} (s : State) (hK : Keep Q V s) :
    KeepOut Q V (execThermalSeenClear s) := by
  unfold execThermalSeenClear
  try dsimp only
  repeat' (first
    | with_reducible exact hK | with_reducible assumption | with_reducible apply State.updChip_keep
    | with_reducible apply onReg_keep | (show _ = _; rfl) | split
    | (simp only [keep_lit]; first | with_reducible apply keep_mk | with_reducible apply keep_mk_hostMem | with_reducible apply keep_mk_chip | with_reducible apply keep_mk_flash)
    | intro _)

theorem setBar2_keep {Q : List Instr} {V : Nat} (x : W64) (s : State) (hK : Keep Q V s) :
    Keep Q V (setBar2 x s) := by
  unfold setBar2
  try dsimp only
  repeat' (first
    | with_reducible exact hK | with_reducible assumption | with_reducible apply State.updHost_keep
    | with_reducible apply drainBar2_keep | (show _ = _; rfl) | split
    | (simp only [keep_lit]; first | with_reducible apply keep_mk | with_reducible apply keep_mk_hostMem | with_reducible apply keep_mk_chip | with_reducible apply keep_mk_flash)
    | intro _)

theorem execBar2WindowWrite_keep {Q : List Instr} {V : Nat} (x : W64) (s : State) (hK : Keep Q V s) :
    KeepOut Q V (execBar2WindowWrite x s) := by
  unfold execBar2WindowWrite
  try dsimp only
  repeat' (first
    | with_reducible exact hK | with_reducible assumption | with_reducible apply onReg_keep
    | with_reducible apply setBar2_keep | split | intro _)

theorem execBar2Write_keep {Q : List Instr} {V : Nat} (off : BitVec 36) (data : List Byte) (poisoned : Bool) (s : State)
    (hK : Keep Q V s) :
    KeepOut Q V (execBar2Write off data poisoned s) := by
  unfold execBar2Write
  try dsimp only
  repeat' (first
    | with_reducible exact hK | with_reducible assumption | with_reducible apply State.updHost_keep
    | with_reducible apply bar2Refused_keep | with_reducible apply onReg_keep | (show _ = _; rfl) | split
    | (simp only [keep_lit]; first | with_reducible apply keep_mk | with_reducible apply keep_mk_hostMem | with_reducible apply keep_mk_chip | with_reducible apply keep_mk_flash)
    | intro _)

theorem execBar2Read_keep {Q : List Instr} {V : Nat} (off : BitVec 36) (len : Nat) (s : State) (hK : Keep Q V s) :
    KeepOut Q V (execBar2Read off len s) := by
  unfold execBar2Read
  try dsimp only
  repeat' (first
    | with_reducible exact hK | with_reducible assumption | with_reducible apply State.send_keep
    | with_reducible apply memBadNoHalt_keep | with_reducible apply bar2Refused_keep
    | with_reducible apply drainBar2_keep | with_reducible apply onReg_keep | (show _ = _; rfl) | split
    | (simp only [keep_lit]; first | with_reducible apply keep_mk | with_reducible apply keep_mk_hostMem | with_reducible apply keep_mk_chip | with_reducible apply keep_mk_flash)
    | intro _)

theorem execHostDmaChunk_keep {Q : List Instr} {V : Nat} (engine : Fin 8) (waited : Bool) (s : State)
    (hK : Keep Q V s) :
    KeepOut Q V (execHostDmaChunk engine waited s) := by
  unfold execHostDmaChunk
  try dsimp only
  repeat' (first
    | with_reducible apply keepOut_next | with_reducible exact hK | with_reducible assumption
    | with_reducible apply State.updHost_keep | with_reducible apply moveChunk_keep | (show _ = _; rfl) | split
    | (simp only [keep_lit]; first | with_reducible apply keep_mk | with_reducible apply keep_mk_hostMem | with_reducible apply keep_mk_chip | with_reducible apply keep_mk_flash)
    | intro _)

theorem refuseReg_keep {Q : List Instr} {V : Nat} (m status : Nat) (s : State) (hK : Keep Q V s) :
    Keep Q V (refuseReg m status s) := by
  unfold refuseReg
  try dsimp only
  repeat' (first
    | with_reducible exact hK | with_reducible assumption | with_reducible apply State.updMailbox_keep
    | (show _ = _; rfl) | split
    | (simp only [keep_lit]; first | with_reducible apply keep_mk | with_reducible apply keep_mk_hostMem | with_reducible apply keep_mk_chip | with_reducible apply keep_mk_flash)
    | intro _)

theorem writeCtrl_keep {Q : List Instr} {V : Nat} (m : Nat) (x : W32) (s : State) (hK : Keep Q V s) :
    Keep Q V (writeCtrl m x s) := by
  unfold writeCtrl
  try dsimp only
  repeat' (first
    | with_reducible exact hK | with_reducible assumption | with_reducible apply State.updMailbox_keep
    | with_reducible apply refuseReg_keep | (show _ = _; rfl) | split
    | (simp only [keep_lit]; first | with_reducible apply keep_mk | with_reducible apply keep_mk_hostMem | with_reducible apply keep_mk_chip | with_reducible apply keep_mk_flash)
    | intro _)

theorem execMailboxEnable_keep {Q : List Instr} {V : Nat} (m : Fin 32) (ctrl : W32) (s : State) (hK : Keep Q V s) :
    KeepOut Q V (execMailboxEnable m ctrl s) := by
  unfold execMailboxEnable
  try dsimp only
  repeat' (first
    | with_reducible exact hK | with_reducible assumption | with_reducible apply onReg_keep
    | with_reducible apply writeCtrl_keep | split | intro _)

theorem execMailboxDisable_keep {Q : List Instr} {V : Nat} (m : Fin 32) (ctrl : W32) (s : State) (hK : Keep Q V s) :
    KeepOut Q V (execMailboxDisable m ctrl s) := by
  unfold execMailboxDisable
  try dsimp only
  repeat' (first
    | with_reducible exact hK | with_reducible assumption | with_reducible apply onReg_keep
    | with_reducible apply writeCtrl_keep | split | intro _)

theorem readCommands_keep {Q : List Instr} {V : Nat} (m : Nat) (s : State) (hK : Keep Q V s) :
    Keep Q V (readCommands m s) := by
  unfold readCommands
  try dsimp only
  repeat' (first
    | with_reducible exact hK | with_reducible assumption | with_reducible apply State.updMailbox_keep | split
    | intro _)

theorem doorbell_keep {Q : List Instr} {V : Nat} (m : Nat) (x : W32) (s : State) (hK : Keep Q V s) :
    Keep Q V (doorbell m x s) := by
  unfold doorbell
  try dsimp only
  repeat' (first
    | with_reducible exact hK | with_reducible assumption | with_reducible apply State.updMailbox_keep
    | with_reducible apply drainBar2_keep | with_reducible apply refuseReg_keep
    | with_reducible apply readCommands_keep | (show _ = _; rfl) | split
    | (simp only [keep_lit]; first | with_reducible apply keep_mk | with_reducible apply keep_mk_hostMem | with_reducible apply keep_mk_chip | with_reducible apply keep_mk_flash)
    | intro _)

theorem execCmdTail_keep {Q : List Instr} {V : Nat} (m : Fin 32) (x : W32) (wrote : List (W64 × List Byte)) (s : State)
    (hK : Keep Q V s) :
    KeepOut Q V (execCmdTail m x wrote s) := by
  unfold execCmdTail
  try dsimp only
  repeat' (first
    | with_reducible exact hK | with_reducible assumption | with_reducible apply forEach_keep
    | with_reducible apply onReg_keep | with_reducible apply doorbell_keep | (show _ = _; rfl) | split
    | (simp only [keep_lit]; first | with_reducible apply keep_mk | with_reducible apply keep_mk_hostMem | with_reducible apply keep_mk_chip | with_reducible apply keep_mk_flash)
    | intro _)

theorem execCmpHead_keep {Q : List Instr} {V : Nat} (m : Fin 32) (x : W32) (s : State) (hK : Keep Q V s) :
    KeepOut Q V (execCmpHead m x s) := by
  unfold execCmpHead
  try dsimp only
  repeat' (first
    | with_reducible exact hK | with_reducible assumption | with_reducible apply State.updMailbox_keep
    | with_reducible apply onReg_keep | with_reducible apply refuseReg_keep | (show _ = _; rfl) | split
    | (simp only [keep_lit]; first | with_reducible apply keep_mk | with_reducible apply keep_mk_hostMem | with_reducible apply keep_mk_chip | with_reducible apply keep_mk_flash)
    | intro _)

theorem execFwCtrlWrite_keep {Q : List Instr} {V : Nat} (p : Fin 2) (x : W32) (s : State) (hK : Keep Q V s) :
    KeepOut Q V (execFwCtrlWrite p x s) := by
  unfold execFwCtrlWrite
  try dsimp only
  repeat' (first
    | with_reducible exact hK | with_reducible assumption | with_reducible apply State.updFw_keep
    | with_reducible apply onReg_keep | (show _ = _; rfl) | split
    | (simp only [keep_lit]; first | with_reducible apply keep_mk | with_reducible apply keep_mk_hostMem | with_reducible apply keep_mk_chip | with_reducible apply keep_mk_flash)
    | intro _)

theorem writeHalf_keep {Q : List Instr} {V : Nat} (o : Nat) (x : W32) (old : W64) (set : W64 → State → State) (s : State) (hset : ∀ x y, Keep Q V y → Keep Q V (set x y))
    (hK : Keep Q V s) :
    Keep Q V (writeHalf o x old set s) := by
  unfold writeHalf
  try dsimp only
  repeat' (first
    | with_reducible exact hK | with_reducible assumption | with_reducible apply hset
    | with_reducible apply State.updHost_keep | (show _ = _; rfl) | split
    | (simp only [keep_lit]; first | with_reducible apply keep_mk | with_reducible apply keep_mk_hostMem | with_reducible apply keep_mk_chip | with_reducible apply keep_mk_flash)
    | intro _)

theorem writeMsix_keep {Q : List Instr} {V : Nat} (i : Nat) (x : W32) (s : State) (hK : Keep Q V s) :
    Keep Q V (writeMsix i x s) := by
  unfold writeMsix
  try dsimp only
  repeat' (first
    | with_reducible exact hK | with_reducible assumption | with_reducible apply sendMsix_keep
    | with_reducible apply State.updHost_keep | (show _ = _; rfl) | split
    | (simp only [keep_lit]; first | with_reducible apply keep_mk | with_reducible apply keep_mk_hostMem | with_reducible apply keep_mk_chip | with_reducible apply keep_mk_flash)
    | intro _)

theorem writeReg_keep {Q : List Instr} {V : Nat} (o : Nat) (x : W32) (s : State) (hK : Keep Q V s) :
    Keep Q V (writeReg o x s) := by
  unfold writeReg
  try dsimp only
  repeat' (first
    | with_reducible exact hK | with_reducible assumption | with_reducible apply State.updMailbox_keep
    | with_reducible apply State.updChip_keep | with_reducible apply State.updFw_keep
    | with_reducible apply setBar2_keep | with_reducible apply writeHalf_keep | with_reducible apply writeMsix_keep
    | (show _ = _; rfl) | split
    | (simp only [keep_lit]; first | with_reducible apply keep_mk | with_reducible apply keep_mk_hostMem | with_reducible apply keep_mk_chip | with_reducible apply keep_mk_flash)
    | intro _)

theorem execRegisterWrite_keep {Q : List Instr} {V : Nat} (off : W16) (x : W32) (s : State) (hK : Keep Q V s) :
    KeepOut Q V (execRegisterWrite off x s) := by
  unfold execRegisterWrite
  try dsimp only
  repeat' (first
    | with_reducible exact hK | with_reducible assumption | with_reducible apply onReg_keep
    | with_reducible apply writeReg_keep | split | intro _)

theorem clearRc_keep {Q : List Instr} {V : Nat} (o : Nat) (s : State) (hK : Keep Q V s) :
    Keep Q V (clearRc o s) := by
  unfold clearRc
  try dsimp only
  repeat' (first
    | with_reducible exact hK | with_reducible assumption | with_reducible apply State.updHost_keep
    | with_reducible apply State.updFw_keep | (show _ = _; rfl) | split
    | (simp only [keep_lit]; first | with_reducible apply keep_mk | with_reducible apply keep_mk_hostMem | with_reducible apply keep_mk_chip | with_reducible apply keep_mk_flash)
    | intro _)

theorem readClear_keep {Q : List Instr} {V : Nat} (o : Nat) (s : State) (hK : Keep Q V s) :
    Keep Q V (readClear o s) := by
  unfold readClear
  try dsimp only
  repeat' (first
    | with_reducible exact hK | with_reducible assumption | with_reducible apply State.send_keep
    | with_reducible apply clearRc_keep | split | intro _)

theorem execRcRegisterRead_keep {Q : List Instr} {V : Nat} (off : W16) (s : State) (hK : Keep Q V s) :
    KeepOut Q V (execRcRegisterRead off s) := by
  unfold execRcRegisterRead
  try dsimp only
  repeat' (first
    | with_reducible exact hK | with_reducible assumption | with_reducible apply onReg_keep
    | with_reducible apply readClear_keep | split | intro _)

theorem execMsiXCoalesceTimeout_keep {Q : List Instr} {V : Nat} (m : Fin 32) (s : State) (hK : Keep Q V s) :
    KeepOut Q V (execMsiXCoalesceTimeout m s) := by
  unfold execMsiXCoalesceTimeout
  try dsimp only
  repeat' (first
    | with_reducible apply keepOut_next | with_reducible exact hK | with_reducible assumption
    | with_reducible apply State.updMailbox_keep | with_reducible apply sendMsix_keep | (show _ = _; rfl) | split
    | (simp only [keep_lit]; first | with_reducible apply keep_mk | with_reducible apply keep_mk_hostMem | with_reducible apply keep_mk_chip | with_reducible apply keep_mk_flash)
    | intro _)

theorem execMsiXUnmask_keep {Q : List Instr} {V : Nat} (v : Fin 64) (s : State) (hK : Keep Q V s) :
    KeepOut Q V (execMsiXUnmask v s) := by
  unfold execMsiXUnmask
  try dsimp only
  repeat' (first
    | with_reducible exact hK | with_reducible assumption | with_reducible apply onReg_keep
    | with_reducible apply writeMsix_keep | split | intro _)

theorem dropHostCommands_keep {Q : List Instr} {V : Nat} (s : State) (hK : Keep Q V s) :
    Keep Q V (dropHostCommands s) := by
  unfold dropHostCommands
  try dsimp only
  repeat' (first
    | with_reducible exact hK | with_reducible assumption | with_reducible apply State.updChip_keep
    | with_reducible apply State.updFaults_keep | with_reducible apply advance_keep | (show _ = _; rfl) | split
    | (simp only [keep_lit]; first | with_reducible apply keep_mk | with_reducible apply keep_mk_hostMem | with_reducible apply keep_mk_chip | with_reducible apply keep_mk_flash)
    | intro _)

theorem functionReset_keep {Q : List Instr} {V : Nat} (s : State) (hK : Keep Q V s) :
    Keep Q V (functionReset s) := by
  unfold functionReset
  try dsimp only
  repeat' (first
    | with_reducible exact hK | with_reducible assumption | with_reducible apply State.updChip_keep
    | with_reducible apply State.updHost_keep | with_reducible apply drainBar2_keep
    | with_reducible apply endJob_keep | with_reducible apply finishFence_keep
    | with_reducible apply dropHostCommands_keep | (show _ = _; rfl) | split
    | (simp only [keep_lit]; first | with_reducible apply keep_mk | with_reducible apply keep_mk_hostMem | with_reducible apply keep_mk_chip | with_reducible apply keep_mk_flash)
    | intro _)

theorem execFunctionLevelReset_keep {Q : List Instr} {V : Nat} (s : State) (hK : Keep Q V s) :
    KeepOut Q V (execFunctionLevelReset s) := by
  unfold execFunctionLevelReset
  try dsimp only
  repeat' (first
    | with_reducible exact hK | with_reducible assumption | with_reducible apply onReg_keep
    | with_reducible apply functionReset_keep | split | intro _)

theorem execHostReset_keep {Q : List Instr} {V : Nat} (perst : Bool) (s : State) (hK : Keep Q V s) :
    KeepOut Q V (execHostReset perst s) := by
  unfold execHostReset
  try dsimp only
  repeat' (first
    | with_reducible apply keepOut_next | with_reducible exact hK | with_reducible assumption
    | with_reducible apply State.updChip_keep | with_reducible apply functionReset_keep | (show _ = _; rfl) | split
    | (simp only [keep_lit]; first | with_reducible apply keep_mk | with_reducible apply keep_mk_hostMem | with_reducible apply keep_mk_chip | with_reducible apply keep_mk_flash)
    | intro _)

theorem execPerstRelease_keep {Q : List Instr} {V : Nat} (s : State) (hK : Keep Q V s) :
    KeepOut Q V (execPerstRelease s) := by
  unfold execPerstRelease
  try dsimp only
  repeat' (first
    | with_reducible apply keepOut_next | with_reducible exact hK | with_reducible assumption
    | with_reducible apply State.updChip_keep | (show _ = _; rfl) | split
    | (simp only [keep_lit]; first | with_reducible apply keep_mk | with_reducible apply keep_mk_hostMem | with_reducible apply keep_mk_chip | with_reducible apply keep_mk_flash)
    | intro _)

theorem execPowerStateChange_keep {Q : List Instr} {V : Nat} (d3 : Bool) (s : State) (hK : Keep Q V s) :
    KeepOut Q V (execPowerStateChange d3 s) := by
  unfold execPowerStateChange
  try dsimp only
  repeat' (first
    | with_reducible exact hK | with_reducible assumption | with_reducible apply State.updHost_keep
    | with_reducible apply onReg_keep | (show _ = _; rfl) | split
    | (simp only [keep_lit]; first | with_reducible apply keep_mk | with_reducible apply keep_mk_hostMem | with_reducible apply keep_mk_chip | with_reducible apply keep_mk_flash)
    | intro _)

end Sys2Proof.Machine
end

