-- ==== Sys2Proof/Laws/KeepChip.lean ====
section
/-!
SUPPORT. Sys2Proof/Laws/KeepChip.lean: bring-up, resets, cooling and management keep the invariant.
-/
namespace Sys2Proof.Machine

theorem commitFirmware_keep {Q : List Instr} {V : Nat} (s : State) (hK : Keep Q V s) :
    Keep Q V (commitFirmware s) := by
  unfold commitFirmware
  try dsimp only
  repeat' (first
    | with_reducible exact hK | with_reducible assumption | with_reducible apply State.updChip_keep
    | with_reducible apply raiseParser_keep | with_reducible apply flushRecords_keep | (show _ = _; rfl) | split
    | (simp only [keep_lit]; first | with_reducible apply keep_mk | with_reducible apply keep_mk_hostMem | with_reducible apply keep_mk_chip | with_reducible apply keep_mk_flash)
    | (show _ ≤ max _ _; omega) | with_reducible exact Nat.le_refl _ | intro _)

theorem packageReset_keep {Q : List Instr} {V : Nat} (cause : Byte) (count : W32) (s : State) (hK : Keep Q V s) :
    Keep Q V (packageReset cause count s) := by
  obtain ⟨h1, h2, h3, h4, h5, h6, h7⟩ := hK
  refine ⟨h1, h2, rfl, h4, Nat.zero_le 5, ?_, Nat.zero_le 4⟩
  show (if s.chip.outOfService = true then 3 else 0) = serviceOf s.chip.outOfService 0
  cases s.chip.outOfService <;> rfl

theorem sourceReset_keep {Q : List Instr} {V : Nat} (cause : Byte) (s : State) (hK : Keep Q V s) :
    Keep Q V (sourceReset cause s) := by
  unfold sourceReset
  try dsimp only
  repeat' (first
    | with_reducible exact hK | with_reducible assumption | with_reducible apply packageReset_keep | split | intro _)

theorem execModuleReset_keep {Q : List Instr} {V : Nat} (s : State) (hK : Keep Q V s) :
    KeepOut Q V (execModuleReset s) := by
  unfold execModuleReset
  try dsimp only
  repeat' (first
    | with_reducible apply keepOut_next | with_reducible exact hK | with_reducible assumption
    | with_reducible apply State.updChip_keep | with_reducible apply sourceReset_keep | (show _ = _; rfl) | split
    | (simp only [keep_lit]; first | with_reducible apply keep_mk | with_reducible apply keep_mk_hostMem | with_reducible apply keep_mk_chip | with_reducible apply keep_mk_flash)
    | intro _)

theorem execModuleResetRelease_keep {Q : List Instr} {V : Nat} (s : State) (hK : Keep Q V s) :
    KeepOut Q V (execModuleResetRelease s) := by
  unfold execModuleResetRelease
  try dsimp only
  repeat' (first
    | with_reducible apply keepOut_next | with_reducible exact hK | with_reducible assumption
    | with_reducible apply State.updChip_keep | (show _ = _; rfl) | split
    | (simp only [keep_lit]; first | with_reducible apply keep_mk | with_reducible apply keep_mk_hostMem | with_reducible apply keep_mk_chip | with_reducible apply keep_mk_flash)
    | intro _)

theorem execRefclkLoss_keep {Q : List Instr} {V : Nat} (s : State) (hK : Keep Q V s) :
    KeepOut Q V (execRefclkLoss s) := by
  unfold execRefclkLoss
  try dsimp only
  repeat' (first
    | with_reducible apply keepOut_next | with_reducible exact hK | with_reducible assumption
    | with_reducible apply State.updChip_keep | with_reducible apply sourceReset_keep | (show _ = _; rfl) | split
    | (simp only [keep_lit]; first | with_reducible apply keep_mk | with_reducible apply keep_mk_hostMem | with_reducible apply keep_mk_chip | with_reducible apply keep_mk_flash)
    | intro _)

theorem execRefclkReturn_keep {Q : List Instr} {V : Nat} (s : State) (hK : Keep Q V s) :
    KeepOut Q V (execRefclkReturn s) := by
  unfold execRefclkReturn
  try dsimp only
  repeat' (first
    | with_reducible apply keepOut_next | with_reducible exact hK | with_reducible assumption
    | with_reducible apply State.updChip_keep | (show _ = _; rfl) | split
    | (simp only [keep_lit]; first | with_reducible apply keep_mk | with_reducible apply keep_mk_hostMem | with_reducible apply keep_mk_chip | with_reducible apply keep_mk_flash)
    | intro _)

theorem execHubReset_keep {Q : List Instr} {V : Nat} (s : State) (hK : Keep Q V s) :
    KeepOut Q V (execHubReset s) := by
  unfold execHubReset
  try dsimp only
  repeat' (first
    | with_reducible apply keepOut_next | with_reducible exact hK | with_reducible assumption
    | with_reducible apply sourceReset_keep | split | intro _)

theorem execPowerOn_keep {Q : List Instr} {V : Nat} (s : State) (hK : Keep Q V s) :
    KeepOut Q V (execPowerOn s) := by
  unfold execPowerOn
  try dsimp only
  repeat' (first
    | with_reducible apply keepOut_next | with_reducible exact hK | with_reducible assumption
    | with_reducible apply State.updChip_keep | with_reducible apply packageReset_keep | (show _ = _; rfl) | split
    | (simp only [keep_lit]; first | with_reducible apply keep_mk | with_reducible apply keep_mk_hostMem | with_reducible apply keep_mk_chip | with_reducible apply keep_mk_flash)
    | intro _)

theorem powerDown_keep {Q : List Instr} {V : Nat} (latch : Bool) (s : State) (hK : Keep Q V s) :
    Keep Q V (powerDown latch s) := by
  unfold powerDown
  try dsimp only
  repeat' (first
    | with_reducible exact hK | with_reducible assumption | with_reducible apply State.updChip_keep
    | with_reducible apply packageReset_keep | (show _ = _; rfl) | split
    | (simp only [keep_lit]; first | with_reducible apply keep_mk | with_reducible apply keep_mk_hostMem | with_reducible apply keep_mk_chip | with_reducible apply keep_mk_flash)
    | intro _)

theorem execPowerOff_keep {Q : List Instr} {V : Nat} (s : State) (hK : Keep Q V s) :
    KeepOut Q V (execPowerOff s) := by
  unfold execPowerOff
  try dsimp only
  repeat' (first
    | with_reducible apply keepOut_next | with_reducible exact hK | with_reducible assumption
    | with_reducible apply powerDown_keep | split | intro _)

theorem execRegulatorOvertemp_keep {Q : List Instr} {V : Nat} (s : State) (hK : Keep Q V s) :
    KeepOut Q V (execRegulatorOvertemp s) := by
  unfold execRegulatorOvertemp
  try dsimp only
  repeat' (first
    | with_reducible apply keepOut_next | with_reducible exact hK | with_reducible assumption
    | with_reducible apply powerDown_keep | split | intro _)

theorem enterState_keep {Q : List Instr} {V : Nat} (k : Nat) (s : State) (hK : Keep Q V s) (hk : k ≤ 5) :
    Keep Q V (enterState k s) :=
  statusIrq_keep _ (raiseParser_keep _ _ _ (State.updChip_keep_service _ _ hK hk rfl))

theorem wipeHbm_keep {Q : List Instr} {V : Nat} (s : State) (hK : Keep Q V s) :
    Keep Q V (wipeHbm s) := by
  unfold wipeHbm
  try dsimp only
  repeat' (first
    | with_reducible exact hK | with_reducible assumption | with_reducible apply forget_keep | split | intro _)

theorem beginFull_keep {Q : List Instr} {V : Nat} (s : State) (hK : Keep Q V s) :
    Keep Q V (beginFull s) := by
  unfold beginFull
  try dsimp only
  repeat' (first
    | with_reducible exact hK | with_reducible assumption | with_reducible apply State.updChip_keep
    | with_reducible apply advance_keep | with_reducible apply wipeHbm_keep | (show _ = _; rfl) | split
    | (simp only [keep_lit]; first | with_reducible apply keep_mk | with_reducible apply keep_mk_hostMem | with_reducible apply keep_mk_chip | with_reducible apply keep_mk_flash)
    | intro _)

theorem arrive_keep {Q : List Instr} {V : Nat} (s : State) (hK : Keep Q V s) :
    Keep Q V (arrive s) := by
  unfold arrive
  try dsimp only
  repeat' (first
    | with_reducible exact hK | with_reducible assumption | with_reducible apply endAdvance_keep
    | with_reducible apply beginFull_keep | (show _ = _; rfl) | split
    | (simp only [keep_lit]; first | with_reducible apply keep_mk | with_reducible apply keep_mk_hostMem | with_reducible apply keep_mk_chip | with_reducible apply keep_mk_flash)
    | intro _)

theorem stopBringup_keep {Q : List Instr} {V : Nat} (status : Nat) (s : State) (hK : Keep Q V s) :
    Keep Q V (stopBringup status s) := by
  unfold stopBringup
  try dsimp only
  repeat' (first
    | with_reducible exact hK | with_reducible assumption | with_reducible apply State.updChip_keep
    | with_reducible apply endAdvance_keep | (show _ = _; rfl) | split
    | (simp only [keep_lit]; first | with_reducible apply keep_mk | with_reducible apply keep_mk_hostMem | with_reducible apply keep_mk_chip | with_reducible apply keep_mk_flash)
    | intro _)

theorem stopAtUnit_keep {Q : List Instr} {V : Nat} (step unit cls : Nat) (s : State) (hK : Keep Q V s) :
    Keep Q V (stopAtUnit step unit cls s) := by
  unfold stopAtUnit
  try dsimp only
  repeat' (first
    | with_reducible exact hK | with_reducible assumption | with_reducible apply raiseParser_keep
    | with_reducible apply stopBringup_keep | split | intro _)

theorem execRomEntry_keep {Q : List Instr} {V : Nat} (slotId : BitVec 3) (s : State) (hK : Keep Q V s) :
    KeepOut Q V (execRomEntry slotId s) := by
  unfold execRomEntry
  try dsimp only
  repeat' (first
    | with_reducible apply keepOut_next | with_reducible exact hK | with_reducible assumption
    | with_reducible apply State.updChip_keep | with_reducible apply enterState_keep | (show _ = _; rfl) | split
    | (simp only [keep_lit]; first | with_reducible apply keep_mk | with_reducible apply keep_mk_hostMem | with_reducible apply keep_mk_chip | with_reducible apply keep_mk_flash)
    | decide | intro _)

theorem enterParser_keep {Q : List Instr} {V : Nat} (slot : Nat) (ev : List (Nat × Nat × Nat)) (s : State)
    (hK : Keep Q V s) :
    Keep Q V (enterParser slot ev s) := by
  unfold enterParser
  try dsimp only
  repeat' (first
    | with_reducible exact hK | with_reducible assumption | with_reducible apply State.updChip_keep
    | with_reducible apply State.updMgmt_keep | with_reducible apply forEach_keep
    | with_reducible apply raiseParser_keep | with_reducible apply enterState_keep | (show _ = _; rfl) | split
    | (simp only [keep_lit]; first | with_reducible apply keep_mk | with_reducible apply keep_mk_hostMem | with_reducible apply keep_mk_chip | with_reducible apply keep_mk_flash)
    | decide | with_reducible exact Nat.le_refl _ | intro _)

theorem Flash.fallBack_svn (f : Flash) : f.fallBack.1.svn = f.svn := by
  unfold Flash.fallBack Flash.record
  dsimp only
  repeat' split
  all_goals rfl

theorem Flash.choose_svn (f : Flash) : f.choose.2.1.svn = f.svn := by
  unfold Flash.choose
  dsimp only
  repeat' split
  all_goals exact f.fallBack_svn

theorem execFirmwareBoot_keep {Q : List Instr} {V : Nat} (s : State) (hK : Keep Q V s) :
    KeepOut Q V (execFirmwareBoot s) := by
  have hf : Keep Q V { s with flash := s.flash.choose.2.1 } := by
    obtain ⟨h1, h2, h3⟩ := hK
    exact ⟨h1, by rw [Flash.choose_svn]; exact h2, h3⟩
  unfold execFirmwareBoot
  apply keepOut_next
  split
  · exact hK
  · dsimp only
    split
    · exact enterParser_keep _ _ _ hf
    · exact statusIrq_keep _ (State.updChip_keep _ _ hf (fun _ => rfl) (fun _ => rfl) (fun _ => rfl))

theorem failPhrase_keep {Q : List Instr} {V : Nat} (u : W16) (s : State) (hK : Keep Q V s) :
    Keep Q V (failPhrase u s) := by
  unfold failPhrase
  try dsimp only
  repeat' (first
    | with_reducible exact hK | with_reducible assumption | with_reducible apply classify_keep | split | intro _)

theorem guestTrain_keep {Q : List Instr} {V : Nat} (as : List DieAnswer) (p : Nat) (s : State) (hK : Keep Q V s) :
    Keep Q V (guestTrain as p s) := by
  unfold guestTrain
  try dsimp only
  repeat' (first
    | with_reducible exact hK | with_reducible assumption | with_reducible apply State.updAp_keep
    | with_reducible apply raise_keep | with_reducible apply guestUp_keep | (show _ = _; rfl) | split
    | (simp only [keep_lit]; first | with_reducible apply keep_mk | with_reducible apply keep_mk_hostMem | with_reducible apply keep_mk_chip | with_reducible apply keep_mk_flash)
    | intro _)

theorem discovered_keep {Q : List Instr} {V : Nat} (as : List DieAnswer) (s : State) (hK : Keep Q V s) :
    Keep Q V (discovered as s) := by
  unfold discovered
  try dsimp only
  repeat' (first
    | with_reducible exact hK | with_reducible assumption | with_reducible apply State.updChip_keep
    | with_reducible apply State.updIngest_keep | with_reducible apply commitFirmware_keep
    | with_reducible apply enterState_keep | with_reducible apply arrive_keep | with_reducible apply guestTrain_keep
    | (show _ = _; rfl) | split
    | (simp only [keep_lit]; first | with_reducible apply keep_mk | with_reducible apply keep_mk_hostMem | with_reducible apply keep_mk_chip | with_reducible apply keep_mk_flash)
    | decide | with_reducible exact Nat.le_refl _ | intro _)

theorem execDiscovery_keep {Q : List Instr} {V : Nat} (as : List DieAnswer) (failed : List W16) (s : State)
    (hK : Keep Q V s) :
    KeepOut Q V (execDiscovery as failed s) := by
  unfold execDiscovery
  try dsimp only
  repeat' (first
    | with_reducible apply keepOut_next | with_reducible exact hK | with_reducible assumption
    | with_reducible apply State.updChip_keep | with_reducible apply forEach_keep
    | with_reducible apply raiseParser_keep | with_reducible apply endAdvance_keep
    | with_reducible apply stopBringup_keep | with_reducible apply stopAtUnit_keep
    | with_reducible apply failPhrase_keep | with_reducible apply discovered_keep | (show _ = _; rfl) | split
    | (simp only [keep_lit]; first | with_reducible apply keep_mk | with_reducible apply keep_mk_hostMem | with_reducible apply keep_mk_chip | with_reducible apply keep_mk_flash)
    | intro _)

theorem bringTests_keep {Q : List Instr} {V : Nat} (ts : List TestResult) (s : State) (h : Keep Q V s) :
    Keep Q V (bringTests ts s).1 := by
  have key : ∀ (ts : List TestResult) (p : State × Option TestResult), Keep Q V p.1 →
      Keep Q V (ts.foldl (fun (s, stop) t =>
        let s := testVerdict t s
        (s, stop.orElse fun _ => if fatalResult s t then some t else none)) p).1 := by
    intro ts
    induction ts with
    | nil => intro p hp; exact hp
    | cons t ts ih => intro p hp; exact ih _ (testVerdict_keep _ _ hp)
  exact key ts (s, none) h

theorem execReducedEntry_keep {Q : List Instr} {V : Nat} (tests : List TestResult) (s : State) (hK : Keep Q V s) :
    KeepOut Q V (execReducedEntry tests s) := by
  have hb := bringTests_keep tests s hK
  unfold execReducedEntry
  apply keepOut_next
  split
  · exact hK
  · split
    · next e => rw [e] at hb; exact stopAtUnit_keep _ _ _ _ hb
    · next e =>
      rw [e] at hb
      refine arrive_keep _ (enterState_keep _ _ ?_ (by decide))
      obtain ⟨h1, h2, h3⟩ := State.updChip_keep _ (fun c => { c with arithDiv := 16, hbmRate := 4 }) hb (fun _ => rfl)
        (fun _ => rfl) (fun _ => rfl)
      exact ⟨h1, h2, rfl, h3.2⟩

theorem fullEntry_keep {Q : List Instr} {V : Nat} (b : Bool) (tests : List TestResult) (s : State) (hK : Keep Q V s) :
    Keep Q V (if b then s
      else match bringTests tests s with
        | (s, some t) => stopAtUnit (fullStep t.unit.toNat t.cls.toNat) t.unit.toNat t.cls.toNat s
        | (s, none) => arrive (enterState 5 (wipeHbm s))) := by
  have hb := bringTests_keep tests s hK
  split
  · exact hK
  · split
    · next e => rw [e] at hb; exact stopAtUnit_keep _ _ _ _ hb
    · next e => rw [e] at hb; exact arrive_keep _ (enterState_keep _ _ (wipeHbm_keep _ hb) (by decide))

theorem execFullEntry_keep {Q : List Instr} {V : Nat} (tests : List TestResult) (s : State) (hK : Keep Q V s) :
    KeepOut Q V (execFullEntry tests s) :=
  fullEntry_keep _ tests s hK

theorem execReducedServiceRestored_keep {Q : List Instr} {V : Nat} (s : State) (hK : Keep Q V s) :
    KeepOut Q V (execReducedServiceRestored s) := by
  unfold execReducedServiceRestored
  try dsimp only
  repeat' (first
    | with_reducible apply keepOut_next | with_reducible exact hK | with_reducible assumption
    | with_reducible apply State.updChip_keep | with_reducible apply endAdvance_keep
    | with_reducible apply wipeHbm_keep | (show _ = _; rfl) | split
    | (simp only [keep_lit]; first | with_reducible apply keep_mk | with_reducible apply keep_mk_hostMem | with_reducible apply keep_mk_chip | with_reducible apply keep_mk_flash)
    | intro _)

theorem bringupAdvance_keep {Q : List Instr} {V : Nat} (c : Cmd) (s : State) (hK : Keep Q V s) :
    KeepReply Q V (bringupAdvance c s) := by
  unfold bringupAdvance
  try dsimp only
  repeat' (first
    | with_reducible apply Reply.noAt_keep | with_reducible apply keepReply_done
    | with_reducible apply keepReply_goesOn | with_reducible exact hK | with_reducible assumption
    | with_reducible apply State.updChip_keep | with_reducible apply advance_keep
    | with_reducible apply beginFull_keep | (show _ = _; rfl) | split
    | (simp only [keep_lit]; first | with_reducible apply keep_mk | with_reducible apply keep_mk_hostMem | with_reducible apply keep_mk_chip | with_reducible apply keep_mk_flash)
    | intro _)

theorem execBringupAdvance_keep {Q : List Instr} {V : Nat} (c : Cmd) (s : State) (hK : Keep Q V s) :
    KeepOut Q V (execBringupAdvance c s) := by
  unfold execBringupAdvance
  try dsimp only
  repeat' (first
    | with_reducible exact hK | with_reducible assumption | with_reducible apply runCmd_keep
    | with_reducible apply bringupAdvance_keep | split | intro _)

theorem lanePlanSet_keep {Q : List Instr} {V : Nat} (c : Cmd) (s : State) (hK : Keep Q V s) :
    KeepReply Q V (lanePlanSet c s) := by
  unfold lanePlanSet
  try dsimp only
  repeat' (first
    | with_reducible apply Reply.noAt_keep | with_reducible apply keepReply_done | with_reducible exact hK
    | with_reducible assumption | with_reducible apply flushRecords_keep | (show _ = _; rfl) | split
    | (simp only [keep_lit]; first | with_reducible apply keep_mk | with_reducible apply keep_mk_hostMem | with_reducible apply keep_mk_chip | with_reducible apply keep_mk_flash)
    | with_reducible exact Nat.le_refl _ | intro _)

theorem execLanePlanSet_keep {Q : List Instr} {V : Nat} (c : Cmd) (s : State) (hK : Keep Q V s) :
    KeepOut Q V (execLanePlanSet c s) := by
  unfold execLanePlanSet
  try dsimp only
  repeat' (first
    | with_reducible exact hK | with_reducible assumption | with_reducible apply runCmd_keep
    | with_reducible apply lanePlanSet_keep | split | intro _)

theorem parserStop_keep {Q : List Instr} {V : Nat} (s : State) (hK : Keep Q V s) :
    Keep Q V (parserStop s) := by
  unfold parserStop
  try dsimp only
  repeat' (first
    | with_reducible exact hK | with_reducible assumption | with_reducible apply State.updChip_keep
    | with_reducible apply State.updFaults_keep | with_reducible apply statusIrq_keep
    | with_reducible apply advance_keep | with_reducible apply hardFence_keep | (show _ = _; rfl) | split
    | (simp only [keep_lit]; first | with_reducible apply keep_mk | with_reducible apply keep_mk_hostMem | with_reducible apply keep_mk_chip | with_reducible apply keep_mk_flash)
    | intro _)

theorem execParserWatchdogExpiry_keep {Q : List Instr} {V : Nat} (s : State) (hK : Keep Q V s) :
    KeepOut Q V (execParserWatchdogExpiry s) := by
  unfold execParserWatchdogExpiry
  try dsimp only
  repeat' (first
    | with_reducible apply keepOut_next | with_reducible exact hK | with_reducible assumption
    | with_reducible apply parserStop_keep | split | intro _)

theorem parserMemory_keep {Q : List Instr} {V : Nat} (s : State) (hK : Keep Q V s) :
    Keep Q V (parserMemory s) := by
  unfold parserMemory
  try dsimp only
  repeat' (first
    | with_reducible exact hK | with_reducible assumption | with_reducible apply memBadNoHalt_keep
    | with_reducible apply captureLost_keep | with_reducible apply parserStop_keep | (show _ = _; rfl) | split
    | (simp only [keep_lit]; first | with_reducible apply keep_mk | with_reducible apply keep_mk_hostMem | with_reducible apply keep_mk_chip | with_reducible apply keep_mk_flash)
    | intro _)

theorem warn_keep {Q : List Instr} {V : Nat} (s : State) (hK : Keep Q V s) :
    Keep Q V (warn s) := by
  unfold warn
  try dsimp only
  repeat' (first
    | with_reducible exact hK | with_reducible assumption | with_reducible apply State.updChip_keep
    | with_reducible apply raise_keep | (show _ = _; rfl) | split
    | (simp only [keep_lit]; first | with_reducible apply keep_mk | with_reducible apply keep_mk_hostMem | with_reducible apply keep_mk_chip | with_reducible apply keep_mk_flash)
    | intro _)

theorem trip_keep {Q : List Instr} {V : Nat} (u : Nat) (s : State) (hK : Keep Q V s) :
    Keep Q V (trip u s) := by
  unfold trip
  try dsimp only
  repeat' (first
    | with_reducible exact hK | with_reducible assumption | with_reducible apply State.updChip_keep
    | with_reducible apply statusIrq_keep | with_reducible apply raise_keep | with_reducible apply stopAdvance_keep
    | with_reducible apply hardFence_keep | (show _ = _; rfl) | split
    | (simp only [keep_lit]; first | with_reducible apply keep_mk | with_reducible apply keep_mk_hostMem | with_reducible apply keep_mk_chip | with_reducible apply keep_mk_flash)
    | intro _)

theorem execThermalSensorScan_keep {Q : List Instr} {V : Nat} (dies hbms : List W16) (s : State) (hK : Keep Q V s) :
    KeepOut Q V (execThermalSensorScan dies hbms s) := by
  unfold execThermalSensorScan
  try dsimp only
  repeat' (first
    | with_reducible apply keepOut_next | with_reducible exact hK | with_reducible assumption
    | with_reducible apply State.updChip_keep | with_reducible apply warn_keep | with_reducible apply trip_keep
    | (show _ = _; rfl) | split
    | (simp only [keep_lit]; first | with_reducible apply keep_mk | with_reducible apply keep_mk_hostMem | with_reducible apply keep_mk_chip | with_reducible apply keep_mk_flash)
    | intro _)

theorem execThermLRelease_keep {Q : List Instr} {V : Nat} (s : State) (hK : Keep Q V s) :
    KeepOut Q V (execThermLRelease s) := by
  unfold execThermLRelease
  try dsimp only
  repeat' (first
    | with_reducible apply keepOut_next | with_reducible exact hK | with_reducible assumption
    | with_reducible apply State.updChip_keep | (show _ = _; rfl) | split
    | (simp only [keep_lit]; first | with_reducible apply keep_mk | with_reducible apply keep_mk_hostMem | with_reducible apply keep_mk_chip | with_reducible apply keep_mk_flash)
    | intro _)

theorem endTrip_keep {Q : List Instr} {V : Nat} (s : State) (hK : Keep Q V s) :
    Keep Q V (endTrip s) := by
  unfold endTrip
  try dsimp only
  repeat' (first
    | with_reducible exact hK | with_reducible assumption | with_reducible apply State.updChip_keep
    | with_reducible apply raise_keep | (show _ = _; rfl) | split
    | (simp only [keep_lit]; first | with_reducible apply keep_mk | with_reducible apply keep_mk_hostMem | with_reducible apply keep_mk_chip | with_reducible apply keep_mk_flash)
    | intro _)

theorem execThermalClear_keep {Q : List Instr} {V : Nat} (s : State) (hK : Keep Q V s) :
    KeepOut Q V (execThermalClear s) := by
  unfold execThermalClear
  try dsimp only
  repeat' (first
    | with_reducible apply keepOut_next | with_reducible exact hK | with_reducible assumption
    | with_reducible apply endTrip_keep | split | intro _)

theorem execPark_keep {Q : List Instr} {V : Nat} (s : State) (hK : Keep Q V s) :
    KeepOut Q V (execPark s) := by
  unfold execPark
  try dsimp only
  repeat' (first
    | with_reducible apply keepOut_next | with_reducible exact hK | with_reducible assumption
    | with_reducible apply State.updChip_keep | with_reducible apply raiseParser_keep | (show _ = _; rfl) | split
    | (simp only [keep_lit]; first | with_reducible apply keep_mk | with_reducible apply keep_mk_hostMem | with_reducible apply keep_mk_chip | with_reducible apply keep_mk_flash)
    | intro _)

theorem guestServe_keep {Q : List Instr} {V : Nat} (c : Cmd) (s : State) (hK : Keep Q V s) :
    Keep Q V (guestServe c s) := by
  unfold guestServe
  try dsimp only
  repeat' (first
    | with_reducible exact hK | with_reducible assumption | with_reducible apply Reply.no_keep
    | with_reducible apply Reply.ok_keep | with_reducible apply serve_keep | with_reducible apply historyRead_keep
    | with_reducible apply ingestPosition_keep | with_reducible apply devInfo_keep
    | with_reducible apply stageFlags_keep | with_reducible apply numlogRead_keep | (show _ = _; rfl) | split
    | (simp only [keep_lit]; first | with_reducible apply keep_mk | with_reducible apply keep_mk_hostMem | with_reducible apply keep_mk_chip | with_reducible apply keep_mk_flash)
    | intro _)

theorem mgmtServe_keep {Q : List Instr} {V : Nat} (c : Cmd) (s : State) (hK : Keep Q V s) :
    Keep Q V (mgmtServe c s) := by
  unfold mgmtServe
  try dsimp only
  repeat' (first
    | with_reducible exact hK | with_reducible assumption | with_reducible apply Reply.no_keep
    | with_reducible apply Reply.ok_keep | with_reducible apply serve_keep | with_reducible apply fieldTest_keep
    | with_reducible apply bistRun_keep | with_reducible apply historyRead_keep | with_reducible apply devInfo_keep
    | with_reducible apply haltCmd_keep | with_reducible apply stageFlags_keep
    | with_reducible apply numlogRead_keep | (show _ = _; rfl) | split
    | (simp only [keep_lit]; first | with_reducible apply keep_mk | with_reducible apply keep_mk_hostMem | with_reducible apply keep_mk_chip | with_reducible apply keep_mk_flash)
    | intro _)

theorem serveGuest_keep {Q : List Instr} {V : Nat} (p : Nat) (cs : List Cmd) : ∀ s : State, Keep Q V s →
    Keep Q V (serveGuest p cs s) := by
  induction cs with
  | nil => intro s h; exact h
  | cons c t ih =>
    intro s h
    unfold serveGuest
    split
    · exact ih _ (guestServe_keep _ _ (State.updAp_keep _ _ _ h))
    · exact h

theorem serveGuests_keep {Q : List Instr} {V : Nat} (s : State) (hK : Keep Q V s) :
    Keep Q V (serveGuests s) := by
  unfold serveGuests
  try dsimp only
  repeat' (first
    | with_reducible exact hK | with_reducible assumption | with_reducible apply serveGuest_keep | split | intro _)

theorem guestCommand_keep {Q : List Instr} {V : Nat} (p : Fin 2) (m : AppMsg) (s : State) (hK : Keep Q V s) :
    Keep Q V (guestCommand p m s) := by
  unfold guestCommand
  try dsimp only
  repeat' (first
    | with_reducible exact hK | with_reducible assumption | with_reducible apply State.updAp_keep
    | with_reducible apply complete_keep | with_reducible apply guestDenied_keep
    | with_reducible apply serveGuests_keep | (show _ = _; rfl) | split
    | (simp only [keep_lit]; first | with_reducible apply keep_mk | with_reducible apply keep_mk_hostMem | with_reducible apply keep_mk_chip | with_reducible apply keep_mk_flash)
    | intro _)

theorem execAppositionMailbox_keep {Q : List Instr} {V : Nat} (p : Fin 2) (m : AppMsg) (s : State) (hK : Keep Q V s) :
    KeepOut Q V (execAppositionMailbox p m s) := by
  unfold execAppositionMailbox
  try dsimp only
  repeat' (first
    | with_reducible apply keepOut_next | with_reducible exact hK | with_reducible assumption
    | with_reducible apply appoReceive_keep | with_reducible apply guestCommand_keep | split | intro _)

theorem onMgmt_keep {Q : List Instr} {V : Nat} (on : State → Bool) (f : State → State) (s : State) (hf : ∀ y, Keep Q V y → Keep Q V (f y))
    (hK : Keep Q V s) :
    KeepOut Q V (onMgmt on f s) := by
  unfold onMgmt
  try dsimp only
  repeat' (first
    | with_reducible apply keepOut_next | with_reducible exact hK | with_reducible assumption
    | with_reducible apply hf | split | intro _)

theorem execI3cAddressAssignment_keep {Q : List Instr} {V : Nat} (entdaa : Bool) (static addr : BitVec 7) (s : State)
    (hK : Keep Q V s) :
    KeepOut Q V (execI3cAddressAssignment entdaa static addr s) := by
  unfold execI3cAddressAssignment
  try dsimp only
  repeat' (first
    | with_reducible exact hK | with_reducible assumption | with_reducible apply State.updMgmt_keep
    | with_reducible apply onMgmt_keep | (show _ = _; rfl) | split
    | (simp only [keep_lit]; first | with_reducible apply keep_mk | with_reducible apply keep_mk_hostMem | with_reducible apply keep_mk_chip | with_reducible apply keep_mk_flash)
    | intro _)

theorem serveMgmtOn_keep {Q : List Instr} {V : Nat} (cs : List Cmd) : ∀ s : State, Keep Q V s →
    Keep Q V (serveMgmtOn cs s) := by
  induction cs with
  | nil => intro s h; exact h
  | cons c t ih =>
    intro s h
    unfold serveMgmtOn
    split
    · exact ih _ (mgmtServe_keep _ _ (State.updMgmt_keep _ _ h))
    · exact h

theorem serveMgmt_keep {Q : List Instr} {V : Nat} (s : State) (hK : Keep Q V s) :
    Keep Q V (serveMgmt s) := by
  unfold serveMgmt
  try dsimp only
  repeat' (first
    | with_reducible exact hK | with_reducible assumption | with_reducible apply serveMgmtOn_keep | split | intro _)

theorem mgmtCommand_keep {Q : List Instr} {V : Nat} (c : Cmd) (s : State) (hK : Keep Q V s) :
    Keep Q V (mgmtCommand c s) := by
  unfold mgmtCommand
  try dsimp only
  repeat' (first
    | with_reducible exact hK | with_reducible assumption | with_reducible apply State.updMgmt_keep
    | with_reducible apply complete_keep | with_reducible apply serveMgmt_keep | (show _ = _; rfl) | split
    | (simp only [keep_lit]; first | with_reducible apply keep_mk | with_reducible apply keep_mk_hostMem | with_reducible apply keep_mk_chip | with_reducible apply keep_mk_flash)
    | intro _)

theorem execManagementMailboxMessage_keep {Q : List Instr} {V : Nat} (c : Cmd) (s : State) (hK : Keep Q V s) :
    KeepOut Q V (execManagementMailboxMessage c s) := by
  unfold execManagementMailboxMessage
  try dsimp only
  repeat' (first
    | with_reducible apply keepOut_next | with_reducible exact hK | with_reducible assumption
    | with_reducible apply onMgmt_keep | with_reducible apply mgmtCommand_keep | (show _ = _; rfl) | split
    | (simp only [keep_lit]; first | with_reducible apply keep_mk | with_reducible apply keep_mk_hostMem | with_reducible apply keep_mk_chip | with_reducible apply keep_mk_flash)
    | intro _)

theorem execMctpMessageDrop_keep {Q : List Instr} {V : Nat} (type : Byte) (s : State) (hK : Keep Q V s) :
    KeepOut Q V (execMctpMessageDrop type s) := by
  unfold execMctpMessageDrop
  try dsimp only
  repeat' (first
    | with_reducible exact hK | with_reducible assumption | with_reducible apply State.updMgmt_keep
    | with_reducible apply onMgmt_keep | (show _ = _; rfl) | split
    | (simp only [keep_lit]; first | with_reducible apply keep_mk | with_reducible apply keep_mk_hostMem | with_reducible apply keep_mk_chip | with_reducible apply keep_mk_flash)
    | intro _)

theorem mctpSend_keep {Q : List Instr} {V : Nat} (type : Byte) (bs : List Byte) (s : State) (hK : Keep Q V s) :
    Keep Q V (mctpSend type bs s) := by
  unfold mctpSend
  try dsimp only
  repeat' (first
    | with_reducible exact hK | with_reducible assumption | with_reducible apply mctpMessage_keep | split | intro _)

theorem sendHead_keep {Q : List Instr} {V : Nat} (s : State) (hK : Keep Q V s) :
    Keep Q V (sendHead s) := by
  unfold sendHead
  try dsimp only
  repeat' (first
    | with_reducible exact hK | with_reducible assumption | with_reducible apply State.updMgmt_keep
    | with_reducible apply mctpSend_keep | (show _ = _; rfl) | split
    | (simp only [keep_lit]; first | with_reducible apply keep_mk | with_reducible apply keep_mk_hostMem | with_reducible apply keep_mk_chip | with_reducible apply keep_mk_flash)
    | intro _)

theorem sendEvents_keep {Q : List Instr} {V : Nat} (s : State) (hK : Keep Q V s) :
    Keep Q V (sendEvents s) := by
  unfold sendEvents
  try dsimp only
  repeat' (first
    | with_reducible exact hK | with_reducible assumption | with_reducible apply sendHead_keep | (show _ = _; rfl)
    | split
    | (simp only [keep_lit]; first | with_reducible apply keep_mk | with_reducible apply keep_mk_hostMem | with_reducible apply keep_mk_chip | with_reducible apply keep_mk_flash)
    | intro _)

theorem popEvent_keep {Q : List Instr} {V : Nat} (s : State) (hK : Keep Q V s) :
    Keep Q V (popEvent s) := by
  unfold popEvent
  try dsimp only
  repeat' (first
    | with_reducible exact hK | with_reducible assumption | with_reducible apply State.updMgmt_keep
    | with_reducible apply sendEvents_keep | (show _ = _; rfl) | split
    | (simp only [keep_lit]; first | with_reducible apply keep_mk | with_reducible apply keep_mk_hostMem | with_reducible apply keep_mk_chip | with_reducible apply keep_mk_flash)
    | intro _)

theorem retryEvent_keep {Q : List Instr} {V : Nat} (s : State) (hK : Keep Q V s) :
    Keep Q V (retryEvent s) := by
  unfold retryEvent
  try dsimp only
  repeat' (first
    | with_reducible exact hK | with_reducible assumption | with_reducible apply sendHead_keep
    | with_reducible apply popEvent_keep | (show _ = _; rfl) | split
    | (simp only [keep_lit]; first | with_reducible apply keep_mk | with_reducible apply keep_mk_hostMem | with_reducible apply keep_mk_chip | with_reducible apply keep_mk_flash)
    | intro _)

theorem execPlatformEventResponse_keep {Q : List Instr} {V : Nat} (ok : Bool) (s : State) (hK : Keep Q V s) :
    KeepOut Q V (execPlatformEventResponse ok s) := by
  unfold execPlatformEventResponse
  try dsimp only
  repeat' (first
    | with_reducible exact hK | with_reducible assumption | with_reducible apply onMgmt_keep
    | with_reducible apply popEvent_keep | with_reducible apply retryEvent_keep | (show _ = _; rfl) | split
    | (simp only [keep_lit]; first | with_reducible apply keep_mk | with_reducible apply keep_mk_hostMem | with_reducible apply keep_mk_chip | with_reducible apply keep_mk_flash)
    | intro _)

theorem execPlatformEventResendTimeout_keep {Q : List Instr} {V : Nat} (s : State) (hK : Keep Q V s) :
    KeepOut Q V (execPlatformEventResendTimeout s) := by
  unfold execPlatformEventResendTimeout
  try dsimp only
  repeat' (first
    | with_reducible exact hK | with_reducible assumption | with_reducible apply onMgmt_keep
    | with_reducible apply retryEvent_keep | split | intro _)

theorem execMctpControlMessage_keep {Q : List Instr} {V : Nat} (code : Byte) (data : List Byte) (s : State)
    (hK : Keep Q V s) :
    KeepOut Q V (execMctpControlMessage code data s) := by
  unfold execMctpControlMessage
  try dsimp only
  repeat' (first
    | with_reducible exact hK | with_reducible assumption | with_reducible apply State.updMgmt_keep
    | with_reducible apply onMgmt_keep | with_reducible apply mctpSend_keep | with_reducible apply sendEvents_keep
    | (show _ = _; rfl) | split
    | (simp only [keep_lit]; first | with_reducible apply keep_mk | with_reducible apply keep_mk_hostMem | with_reducible apply keep_mk_chip | with_reducible apply keep_mk_flash)
    | intro _)

theorem execPldmBaseRequest_keep {Q : List Instr} {V : Nat} (code : Byte) (data : List Byte) (s : State)
    (hK : Keep Q V s) :
    KeepOut Q V (execPldmBaseRequest code data s) := by
  unfold execPldmBaseRequest
  try dsimp only
  repeat' (first
    | with_reducible exact hK | with_reducible assumption | with_reducible apply State.updMgmt_keep
    | with_reducible apply onMgmt_keep | with_reducible apply mctpSend_keep | (show _ = _; rfl) | split
    | (simp only [keep_lit]; first | with_reducible apply keep_mk | with_reducible apply keep_mk_hostMem | with_reducible apply keep_mk_chip | with_reducible apply keep_mk_flash)
    | intro _)

theorem execGetPdr_keep {Q : List Instr} {V : Nat} (s : State) (hK : Keep Q V s) :
    KeepOut Q V (execGetPdr s) := by
  unfold execGetPdr
  try dsimp only
  repeat' (first
    | with_reducible exact hK | with_reducible assumption | with_reducible apply onMgmt_keep
    | with_reducible apply mctpSend_keep | split | intro _)

theorem fwAnswer_keep {Q : List Instr} {V : Nat} (code result : Byte) (s : State) (hK : Keep Q V s) :
    Keep Q V (fwAnswer code result s) := by
  unfold fwAnswer
  try dsimp only
  repeat' (first
    | with_reducible exact hK | with_reducible assumption | with_reducible apply mctpSend_keep | split | intro _)

theorem execRequestUpdate_keep {Q : List Instr} {V : Nat} (s : State) (hK : Keep Q V s) :
    KeepOut Q V (execRequestUpdate s) := by
  unfold execRequestUpdate
  try dsimp only
  repeat' (first
    | with_reducible exact hK | with_reducible assumption | with_reducible apply State.updMgmt_keep
    | with_reducible apply onMgmt_keep | with_reducible apply fwAnswer_keep | (show _ = _; rfl) | split
    | (simp only [keep_lit]; first | with_reducible apply keep_mk | with_reducible apply keep_mk_hostMem | with_reducible apply keep_mk_chip | with_reducible apply keep_mk_flash)
    | with_reducible exact Nat.le_refl _ | intro _)

theorem stagePiece_keep {Q : List Instr} {V : Nat} (u : FwUpdate) (component off : Nat) (data : List Byte) (s : State)
    (hK : Keep Q V s) :
    Keep Q V (stagePiece u component off data s) := by
  unfold stagePiece
  try dsimp only
  repeat' (first
    | with_reducible exact hK | with_reducible assumption | with_reducible apply State.updMgmt_keep
    | with_reducible apply flushRecords_keep | with_reducible apply fwAnswer_keep | (show _ = _; rfl) | split
    | (simp only [keep_lit]; first | with_reducible apply keep_mk | with_reducible apply keep_mk_hostMem | with_reducible apply keep_mk_chip | with_reducible apply keep_mk_flash)
    | (show _ ≤ max _ _; omega) | with_reducible exact Nat.le_refl _ | intro _)

theorem execFirmwareDataTransfer_keep {Q : List Instr} {V : Nat} (component : W16) (off : Nat) (data : List Byte) (s : State)
    (hK : Keep Q V s) :
    KeepOut Q V (execFirmwareDataTransfer component off data s) := by
  unfold execFirmwareDataTransfer
  try dsimp only
  repeat' (first
    | with_reducible exact hK | with_reducible assumption | with_reducible apply onMgmt_keep
    | with_reducible apply fwAnswer_keep | with_reducible apply stagePiece_keep | (show _ = _; rfl) | split
    | (simp only [keep_lit]; first | with_reducible apply keep_mk | with_reducible apply keep_mk_hostMem | with_reducible apply keep_mk_chip | with_reducible apply keep_mk_flash)
    | intro _)

theorem execVerifyComplete_keep {Q : List Instr} {V : Nat} (s : State) (hK : Keep Q V s) :
    KeepOut Q V (execVerifyComplete s) := by
  unfold execVerifyComplete
  try dsimp only
  repeat' (first
    | with_reducible exact hK | with_reducible assumption | with_reducible apply State.updMgmt_keep
    | with_reducible apply raiseParser_keep | with_reducible apply onMgmt_keep | with_reducible apply fwAnswer_keep
    | (show _ = _; rfl) | split
    | (simp only [keep_lit]; first | with_reducible apply keep_mk | with_reducible apply keep_mk_hostMem | with_reducible apply keep_mk_chip | with_reducible apply keep_mk_flash)
    | with_reducible exact Nat.le_refl _ | intro _)

theorem activate_keep {Q : List Instr} {V : Nat} (u : FwUpdate) (s : State) (hK : Keep Q V s) :
    Keep Q V (activate u s) := by
  unfold activate
  try dsimp only
  repeat' (first
    | with_reducible exact hK | with_reducible assumption | with_reducible apply State.updChip_keep
    | with_reducible apply State.updMgmt_keep | with_reducible apply raiseParser_keep
    | with_reducible apply flushRecords_keep | (show _ = _; rfl) | split
    | (simp only [keep_lit]; first | with_reducible apply keep_mk | with_reducible apply keep_mk_hostMem | with_reducible apply keep_mk_chip | with_reducible apply keep_mk_flash)
    | with_reducible exact Nat.le_refl _ | intro _)

theorem execActivateFirmware_keep {Q : List Instr} {V : Nat} (component : W16) (s : State) (hK : Keep Q V s) :
    KeepOut Q V (execActivateFirmware component s) := by
  unfold execActivateFirmware
  try dsimp only
  repeat' (first
    | with_reducible exact hK | with_reducible assumption | with_reducible apply onMgmt_keep
    | with_reducible apply fwAnswer_keep | with_reducible apply activate_keep | (show _ = _; rfl) | split
    | (simp only [keep_lit]; first | with_reducible apply keep_mk | with_reducible apply keep_mk_hostMem | with_reducible apply keep_mk_chip | with_reducible apply keep_mk_flash)
    | intro _)

theorem State.updSpdm_keep {Q : List Instr} {V : Nat} (s : State) (doe : Bool) (f : Spdm → Spdm) (hK : Keep Q V s) :
    Keep Q V (State.updSpdm s doe f) := by
  unfold State.updSpdm
  try dsimp only
  repeat' (first
    | with_reducible exact hK | with_reducible assumption | with_reducible apply State.updMgmt_keep
    | (show _ = _; rfl) | split
    | (simp only [keep_lit]; first | with_reducible apply keep_mk | with_reducible apply keep_mk_hostMem | with_reducible apply keep_mk_chip | with_reducible apply keep_mk_flash)
    | intro _)

theorem spdmSend_keep {Q : List Instr} {V : Nat} (doe : Bool) (bs : List Byte) (s : State) (hK : Keep Q V s) :
    Keep Q V (spdmSend doe bs s) := by
  unfold spdmSend
  try dsimp only
  repeat' (first
    | with_reducible exact hK | with_reducible assumption | with_reducible apply State.send_keep
    | with_reducible apply mctpMessage_keep | split | intro _)

theorem spdmError_keep {Q : List Instr} {V : Nat} (doe : Bool) (code data : Byte) (s : State) (hK : Keep Q V s) :
    Keep Q V (spdmError doe code data s) := by
  unfold spdmError
  try dsimp only
  repeat' (first
    | with_reducible exact hK | with_reducible assumption | with_reducible apply spdmSend_keep | split | intro _)

theorem onSpdm_keep {Q : List Instr} {V : Nat} (doe : Bool) (ready : Spdm → Bool) (f : State → State) (s : State) (hf : ∀ y, Keep Q V y → Keep Q V (f y))
    (hK : Keep Q V s) :
    KeepOut Q V (onSpdm doe ready f s) := by
  unfold onSpdm
  try dsimp only
  repeat' (first
    | with_reducible apply keepOut_next | with_reducible exact hK | with_reducible assumption
    | with_reducible apply hf | with_reducible apply spdmError_keep | split | intro _)

theorem execGetVersion_keep {Q : List Instr} {V : Nat} (doe : Bool) (s : State) (hK : Keep Q V s) :
    KeepOut Q V (execGetVersion doe s) := by
  unfold execGetVersion
  try dsimp only
  repeat' (first
    | with_reducible exact hK | with_reducible assumption | with_reducible apply State.updSpdm_keep
    | with_reducible apply spdmSend_keep | with_reducible apply onSpdm_keep | split | intro _)

theorem execGetCapabilities_keep {Q : List Instr} {V : Nat} (doe : Bool) (caps : W32) (s : State) (hK : Keep Q V s) :
    KeepOut Q V (execGetCapabilities doe caps s) := by
  unfold execGetCapabilities
  try dsimp only
  repeat' (first
    | with_reducible exact hK | with_reducible assumption | with_reducible apply State.updSpdm_keep
    | with_reducible apply spdmSend_keep | with_reducible apply onSpdm_keep | (show _ = _; rfl) | split
    | (simp only [keep_lit]; first | with_reducible apply keep_mk | with_reducible apply keep_mk_hostMem | with_reducible apply keep_mk_chip | with_reducible apply keep_mk_flash)
    | intro _)

theorem execNegotiateAlgorithms_keep {Q : List Instr} {V : Nat} (doe : Bool) (sig hash : W32) (s : State)
    (hK : Keep Q V s) :
    KeepOut Q V (execNegotiateAlgorithms doe sig hash s) := by
  unfold execNegotiateAlgorithms
  try dsimp only
  repeat' (first
    | with_reducible exact hK | with_reducible assumption | with_reducible apply State.updSpdm_keep
    | with_reducible apply spdmSend_keep | with_reducible apply onSpdm_keep | (show _ = _; rfl) | split
    | (simp only [keep_lit]; first | with_reducible apply keep_mk | with_reducible apply keep_mk_hostMem | with_reducible apply keep_mk_chip | with_reducible apply keep_mk_flash)
    | intro _)

theorem noteCerts_keep {Q : List Instr} {V : Nat} (doe : Bool) (bs : List Byte) (s : State) (hK : Keep Q V s) :
    Keep Q V (noteCerts doe bs s) := by
  unfold noteCerts
  try dsimp only
  repeat' (first
    | with_reducible exact hK | with_reducible assumption | with_reducible apply State.updSpdm_keep
    | (show _ = _; rfl) | split
    | (simp only [keep_lit]; first | with_reducible apply keep_mk | with_reducible apply keep_mk_hostMem | with_reducible apply keep_mk_chip | with_reducible apply keep_mk_flash)
    | intro _)

theorem execGetDigests_keep {Q : List Instr} {V : Nat} (doe : Bool) (s : State) (hK : Keep Q V s) :
    KeepOut Q V (execGetDigests doe s) := by
  unfold execGetDigests
  try dsimp only
  repeat' (first
    | with_reducible exact hK | with_reducible assumption | with_reducible apply spdmSend_keep
    | with_reducible apply onSpdm_keep | with_reducible apply noteCerts_keep | split | intro _)

theorem execGetCertificate_keep {Q : List Instr} {V : Nat} (doe : Bool) (slot : Fin 8) (off len : W16) (s : State)
    (hK : Keep Q V s) :
    KeepOut Q V (execGetCertificate doe slot off len s) := by
  unfold execGetCertificate
  try dsimp only
  repeat' (first
    | with_reducible exact hK | with_reducible assumption | with_reducible apply spdmSend_keep
    | with_reducible apply spdmError_keep | with_reducible apply onSpdm_keep | with_reducible apply noteCerts_keep
    | split | intro _)

theorem freshNonce_keep {Q : List Instr} {V : Nat} (s : State) (h : Keep Q V s) : Keep Q V (freshNonce s).2 := h

theorem spdmSign_keep {Q : List Instr} {V : Nat} (doe : Bool) (context : String) (transcript bs : List Byte) (s : State)
    (hK : Keep Q V s) :
    Keep Q V (spdmSign doe context transcript bs s) := by
  unfold spdmSign
  try dsimp only
  repeat' (first
    | with_reducible exact hK | with_reducible assumption | with_reducible apply State.drawn_keep
    | with_reducible apply spdmSend_keep | split | intro _)

theorem execChallenge_keep {Q : List Instr} {V : Nat} (doe : Bool) (slot : Fin 8) (nonce : List Byte) (s : State)
    (hK : Keep Q V s) :
    KeepOut Q V (execChallenge doe slot nonce s) := by
  unfold execChallenge
  try dsimp only
  repeat' (first
    | with_reducible exact hK | with_reducible assumption | with_reducible apply State.updSpdm_keep
    | with_reducible apply spdmError_keep | with_reducible apply onSpdm_keep | with_reducible apply freshNonce_keep
    | with_reducible apply spdmSign_keep | (show _ = _; rfl) | split
    | (simp only [keep_lit]; first | with_reducible apply keep_mk | with_reducible apply keep_mk_hostMem | with_reducible apply keep_mk_chip | with_reducible apply keep_mk_flash)
    | intro _)

theorem execGetMeasurements_keep {Q : List Instr} {V : Nat} (doe : Bool) (index : Byte) (slot : Fin 8) (nonce : List Byte) (s : State)
    (hK : Keep Q V s) :
    KeepOut Q V (execGetMeasurements doe index slot nonce s) := by
  unfold execGetMeasurements
  try dsimp only
  repeat' (first
    | with_reducible exact hK | with_reducible assumption | with_reducible apply State.updSpdm_keep
    | with_reducible apply spdmSend_keep | with_reducible apply spdmError_keep | with_reducible apply onSpdm_keep
    | with_reducible apply freshNonce_keep | with_reducible apply spdmSign_keep | (show _ = _; rfl) | split
    | (simp only [keep_lit]; first | with_reducible apply keep_mk | with_reducible apply keep_mk_hostMem | with_reducible apply keep_mk_chip | with_reducible apply keep_mk_flash)
    | intro _)

theorem execSpdmUnsupportedRequest_keep {Q : List Instr} {V : Nat} (doe : Bool) (code : Byte) (s : State)
    (hK : Keep Q V s) :
    KeepOut Q V (execSpdmUnsupportedRequest doe code s) := by
  unfold execSpdmUnsupportedRequest
  try dsimp only
  repeat' (first
    | with_reducible exact hK | with_reducible assumption | with_reducible apply spdmError_keep
    | with_reducible apply onSpdm_keep | split | intro _)

theorem execDoeDiscovery_keep {Q : List Instr} {V : Nat} (index : Byte) (s : State) (hK : Keep Q V s) :
    KeepOut Q V (execDoeDiscovery index s) := by
  unfold execDoeDiscovery
  try dsimp only
  repeat' (first
    | with_reducible apply keepOut_next | with_reducible exact hK | with_reducible assumption
    | with_reducible apply State.send_keep | (show _ = _; rfl) | split
    | (simp only [keep_lit]; first | with_reducible apply keep_mk | with_reducible apply keep_mk_hostMem | with_reducible apply keep_mk_chip | with_reducible apply keep_mk_flash)
    | intro _)

theorem execEventStreamDatagram_keep {Q : List Instr} {V : Nat} (s : State) (hK : Keep Q V s) :
    KeepOut Q V (execEventStreamDatagram s) := by
  unfold execEventStreamDatagram
  try dsimp only
  repeat' (first
    | with_reducible exact hK | with_reducible assumption | with_reducible apply State.updMgmt_keep
    | with_reducible apply State.send_keep | with_reducible apply onMgmt_keep | (show _ = _; rfl) | split
    | (simp only [keep_lit]; first | with_reducible apply keep_mk | with_reducible apply keep_mk_hostMem | with_reducible apply keep_mk_chip | with_reducible apply keep_mk_flash)
    | intro _)

theorem execArpRequest_keep {Q : List Instr} {V : Nat} (target sender : W32) (mac : List Byte) (s : State)
    (hK : Keep Q V s) :
    KeepOut Q V (execArpRequest target sender mac s) := by
  unfold execArpRequest
  try dsimp only
  repeat' (first
    | with_reducible exact hK | with_reducible assumption | with_reducible apply State.send_keep
    | with_reducible apply onMgmt_keep | split | intro _)

theorem tick_keep {Q : List Instr} {V : Nat} (s : State) (hK : Keep Q V s) :
    Keep Q V (tick s) := by
  unfold tick
  try dsimp only
  repeat' (first
    | with_reducible exact hK | with_reducible assumption | with_reducible apply idleTick_keep
    | with_reducible apply pump_keep | with_reducible apply parserMemory_keep
    | with_reducible apply serveGuests_keep | with_reducible apply serveMgmt_keep
    | with_reducible apply sendEvents_keep | split | intro _)

end Sys2Proof.Machine
end

