-- ==== Sys2Proof/Laws/Seal.lean ====
section
/-!
SUPPORT. Sys2Proof/Laws/Seal.lean: a Conjunction frame or an Apposition message with its CRC in place: the CRC that the
receiver computes is the one carried, and every other field of the header is as before.
-/
namespace Sys2Proof.Laws
open Sys2Proof.Machine

/-! ### CRC-32C -/

theorem crcBit_lt {c : Nat} (h : c < 2 ^ 32) : crcBit c < 2 ^ 32 := by
  unfold crcBit
  split
  · exact Nat.xor_lt_two_pow (by omega) (by decide)
  · omega

theorem crcGo_lt (bs : List Byte) {c : Nat} (h : c < 2 ^ 32) : crcGo c bs < 2 ^ 32 := by
  induction bs generalizing c with
  | nil => exact h
  | cons b t ih =>
    have hb : b.toNat < 2 ^ 32 := Nat.lt_of_lt_of_le b.isLt (by decide)
    have hx := Nat.xor_lt_two_pow h hb
    exact ih (crcBit_lt (crcBit_lt (crcBit_lt (crcBit_lt (crcBit_lt (crcBit_lt (crcBit_lt (crcBit_lt hx))))))))

/-- A CRC has 32 bits. -/
theorem crc32c_lt (bs : List Byte) : crc32c bs < 2 ^ 32 :=
  Nat.xor_lt_two_pow (crcGo_lt bs (by decide)) (by decide)

/-! ### Replacing the top bits of a number -/

theorem setBits_top_mod (n lo k x : Nat) : setBits n lo k x % 2 ^ lo = n % 2 ^ lo := by
  unfold setBits
  rw [Nat.shiftLeft_eq, Nat.shiftLeft_eq, Nat.pow_add, ← Nat.mul_assoc, Nat.mul_right_comm, Nat.add_assoc,
    Nat.mul_add_mod_self_right, Nat.mul_add_mod_self_right, Nat.mod_mod]

theorem setBits_top_field {n lo k : Nat} (x : Nat) (h : n < 2 ^ (lo + k)) :
    setBits n lo k x = x % 2 ^ k * 2 ^ lo + n % 2 ^ lo := by
  unfold setBits
  rw [Nat.shiftRight_eq_div_pow, Nat.div_eq_of_lt h, Nat.zero_shiftLeft, Nat.zero_add, Nat.shiftLeft_eq]

theorem setBits_top_lt {n lo k : Nat} (x : Nat) (h : n < 2 ^ (lo + k)) : setBits n lo k x < 2 ^ (lo + k) := by
  rw [setBits_top_field x h, Nat.pow_add, Nat.mul_comm (2 ^ lo)]
  have h1 := Nat.mod_lt x (Nat.two_pow_pos k)
  have h2 := Nat.mod_lt n (Nat.two_pow_pos lo)
  calc x % 2 ^ k * 2 ^ lo + n % 2 ^ lo < x % 2 ^ k * 2 ^ lo + 2 ^ lo := by omega
    _ = (x % 2 ^ k + 1) * 2 ^ lo := by rw [Nat.add_mul, Nat.one_mul]
    _ ≤ 2 ^ k * 2 ^ lo := Nat.mul_le_mul_right _ h1

/-- Fields below bit `lo` of a number depend on it modulo `2 ^ lo` alone. -/
theorem bits_mod {n hi lo m : Nat} (h : hi < m) (hl : lo ≤ hi) : bits (n % 2 ^ m) hi lo = bits n hi lo := by
  unfold bits
  rw [Nat.shiftRight_eq_div_pow, Nat.shiftRight_eq_div_pow, ← Nat.mod_mul_right_div_self, ← Nat.mod_mul_right_div_self,
    ← Nat.pow_add, Nat.mod_mod_of_dvd]
  exact Nat.pow_dvd_pow 2 (by omega)

/-! ### Frames -/

theorem setHeader_crc_toNat (h : BitVec 256) (x : Nat) :
    (setHeader h 255 224 x).toNat = x % 2 ^ 32 * 2 ^ 224 + h.toNat % 2 ^ 224 := by
  unfold setHeader
  have hh : h.toNat < 2 ^ (224 + 32) := h.isLt
  rw [BitVec.toNat_ofNat, Nat.mod_eq_of_lt (setBits_top_lt x hh), setBits_top_field x hh]

theorem bits_setCrc {h : BitVec 256} {hi lo : Nat} (x : Nat) (hh : hi < 224) (hl : lo ≤ hi) :
    bits (setHeader h 255 224 x).toNat hi lo = bits h.toNat hi lo := by
  rw [← bits_mod hh hl, setHeader_crc_toNat, Nat.mul_comm, Nat.mul_add_mod, Nat.mod_mod, bits_mod hh hl]

/-- The frame of header `h` with its CRC in place. -/
def sealed (h : BitVec 256) (payload : List Byte) : Frame := ⟨setHeader h 255 224 (frameCrc h payload), payload⟩

@[simp] theorem sealed_payload (h : BitVec 256) (b : List Byte) : (sealed h b).payload = b := rfl
@[simp] theorem hType_sealed (h : BitVec 256) (b : List Byte) : hType (sealed h b).header = hType h :=
  bits_setCrc _ (by decide) (by decide)
@[simp] theorem hPlen_sealed (h : BitVec 256) (b : List Byte) : hPlen (sealed h b).header = hPlen h :=
  bits_setCrc _ (by decide) (by decide)
@[simp] theorem hSub_sealed (h : BitVec 256) (b : List Byte) : hSub (sealed h b).header = hSub h :=
  bits_setCrc _ (by decide) (by decide)
@[simp] theorem hDst_sealed (h : BitVec 256) (b : List Byte) : hDst (sealed h b).header = hDst h :=
  bits_setCrc _ (by decide) (by decide)
@[simp] theorem hSrc_sealed (h : BitVec 256) (b : List Byte) : hSrc (sealed h b).header = hSrc h :=
  bits_setCrc _ (by decide) (by decide)
@[simp] theorem hStage_sealed (h : BitVec 256) (b : List Byte) : hStage (sealed h b).header = hStage h :=
  bits_setCrc _ (by decide) (by decide)
@[simp] theorem hTag_sealed (h : BitVec 256) (b : List Byte) : hTag (sealed h b).header = hTag h :=
  bits_setCrc _ (by decide) (by decide)
@[simp] theorem hOffset_sealed (h : BitVec 256) (b : List Byte) : hOffset (sealed h b).header = hOffset h :=
  bits_setCrc _ (by decide) (by decide)
@[simp] theorem hJob_sealed (h : BitVec 256) (b : List Byte) : hJob (sealed h b).header = hJob h :=
  bits_setCrc _ (by decide) (by decide)
@[simp] theorem hSeq_sealed (h : BitVec 256) (b : List Byte) : hSeq (sealed h b).header = hSeq h :=
  bits_setCrc _ (by decide) (by decide)
@[simp] theorem hAck_sealed (h : BitVec 256) (b : List Byte) : hAck (sealed h b).header = hAck h :=
  bits_setCrc _ (by decide) (by decide)

theorem getLsbD_setCrc {h : BitVec 256} {i : Nat} (x : Nat) (hi : i < 224) :
    (setHeader h 255 224 x).getLsbD i = h.getLsbD i := by
  have e := bits_setCrc (h := h) x hi (Nat.le_refl i)
  unfold bits at e
  rw [show i + 1 - i = 1 by omega, Nat.pow_one] at e
  rw [BitVec.getLsbD, BitVec.getLsbD, Nat.testBit_eq_decide_div_mod_eq, Nat.testBit_eq_decide_div_mod_eq,
    ← Nat.shiftRight_eq_div_pow, ← Nat.shiftRight_eq_div_pow, e]

@[simp] theorem hLast_sealed (h : BitVec 256) (b : List Byte) : hLast (sealed h b).header = hLast h :=
  getLsbD_setCrc _ (by decide)

/-- The protocol check reads no bit of the CRC. -/
@[simp] theorem protoBad_sealed (role : Nat) (h : BitVec 256) (b : List Byte) :
    protoBad role (sealed h b).header = protoBad role h := by
  have e1 : bits (sealed h b).header.toNat 23 21 = bits h.toNat 23 21 := bits_setCrc _ (by decide) (by decide)
  have e2 : bits (sealed h b).header.toNat 15 10 = bits h.toNat 15 10 := bits_setCrc _ (by decide) (by decide)
  have e3 : bits (sealed h b).header.toNat 8 4 = bits h.toNat 8 4 := bits_setCrc _ (by decide) (by decide)
  unfold protoBad subReserved admits
  rw [e1, e2, e3, hType_sealed, hSub_sealed, hPlen_sealed]

/-- The CRC of a frame does not depend on the CRC that it carries. -/
theorem frameCrc_setCrc (h : BitVec 256) (x : Nat) (b : List Byte) :
    frameCrc (setHeader h 255 224 x) b = frameCrc h b := by
  have e : setHeader (setHeader h 255 224 x) 255 224 0 = setHeader h 255 224 0 := by
    apply BitVec.eq_of_toNat_eq
    rw [setHeader_crc_toNat, setHeader_crc_toNat, setHeader_crc_toNat, Nat.mul_comm (x % 2 ^ 32),
      Nat.mul_add_mod, Nat.mod_mod]
  unfold frameCrc
  rw [e]

theorem hCrc_setCrc (h : BitVec 256) (x : Nat) : hCrc (setHeader h 255 224 x) = x % 2 ^ 32 := by
  rw [hCrc, setHeader_crc_toNat, bits, Nat.shiftRight_eq_div_pow, Nat.mul_comm, Nat.mul_add_div
    (Nat.two_pow_pos 224), Nat.div_eq_of_lt (Nat.mod_lt _ (Nat.two_pow_pos 224)), Nat.add_zero, Nat.mod_mod]

/-- The CRC that a receiver computes is the one that the frame carries (R339). -/
theorem crc_sealed (h : BitVec 256) (b : List Byte) : frameCrc (sealed h b).header b = hCrc (sealed h b).header := by
  have lt : frameCrc h b < 2 ^ 32 := crc32c_lt _
  rw [sealed, frameCrc_setCrc, hCrc_setCrc, Nat.mod_eq_of_lt lt]

/-- The checks of Table 13.5a but the CRC's, on a header. -/
def headerOk (p : Nat) (h : BitVec 256) (s : State) : Bool :=
  (s.port p).state == 2 && (!sequenced (hType h) || hSeq h == (s.port p).expected) && hJob h == s.portJob p &&
    !protoBad (s.port p).role h

theorem frameOk_sealed_iff (p : Nat) (h : BitVec 256) (b : List Byte) (s : State) :
    FrameOk p (sealed h b) s ↔ headerOk p h s = true := by
  simp only [FrameOk, headerOk, sealed_payload, crc_sealed, hType_sealed, hSeq_sealed, hJob_sealed, protoBad_sealed,
    Bool.and_eq_true, beq_iff_eq, Bool.not_eq_true', Bool.or_eq_true, true_and, and_assoc]
  cases sequenced (hType h) <;> simp

theorem linkIn_sealed (p : Nat) (h : BitVec 256) (b : List Byte) (s : State) :
    linkIn p (sealed h b) s = linkIn p ⟨h, b⟩ s := by
  unfold linkIn acceptSeq State.strayStage
  simp only [hType_sealed, hAck_sealed, hSeq_sealed, hStage_sealed]

/-! ### Apposition messages -/

/-- The message of header `h` with its CRC in place (R326). -/
def aSealed (h : BitVec 512) (d : List Byte) : AppMsg := ⟨BitVec.ofNat 512 (appoCrc h d * 2 ^ 480 + h.toNat % 2 ^ 480), d⟩

theorem aSealed_toNat (h : BitVec 512) (d : List Byte) :
    (aSealed h d).header.toNat = appoCrc h d * 2 ^ 480 + h.toNat % 2 ^ 480 := by
  have h1 : appoCrc h d < 2 ^ 32 := crc32c_lt _
  have h2 := Nat.mod_lt h.toNat (Nat.two_pow_pos 480)
  rw [aSealed, BitVec.toNat_ofNat]
  apply Nat.mod_eq_of_lt
  calc appoCrc h d * 2 ^ 480 + h.toNat % 2 ^ 480 < appoCrc h d * 2 ^ 480 + 2 ^ 480 := by omega
    _ = (appoCrc h d + 1) * 2 ^ 480 := by rw [Nat.add_mul, Nat.one_mul]
    _ ≤ 2 ^ 32 * 2 ^ 480 := Nat.mul_le_mul_right _ h1
    _ = 2 ^ 512 := by rw [← Nat.pow_add]

theorem aSealed_mod (h : BitVec 512) (d : List Byte) : (aSealed h d).header.toNat % 2 ^ 480 = h.toNat % 2 ^ 480 := by
  rw [aSealed_toNat, Nat.mul_comm, Nat.mul_add_mod, Nat.mod_mod]

theorem bits_aSealed {h : BitVec 512} {hi lo : Nat} (d : List Byte) (hh : hi < 480) (hl : lo ≤ hi) :
    bits (aSealed h d).header.toNat hi lo = bits h.toNat hi lo := by
  rw [← bits_mod hh hl, aSealed_mod, bits_mod hh hl]

@[simp] theorem aSealed_data (h : BitVec 512) (d : List Byte) : (aSealed h d).data = d := rfl
@[simp] theorem aClass_sealed (h : BitVec 512) (d : List Byte) : aClass (aSealed h d).header = aClass h :=
  bits_aSealed d (by decide) (by decide)
@[simp] theorem aMbox_sealed (h : BitVec 512) (d : List Byte) : aMbox (aSealed h d).header = aMbox h :=
  bits_aSealed d (by decide) (by decide)
@[simp] theorem aStatus_sealed (h : BitVec 512) (d : List Byte) : aStatus (aSealed h d).header = aStatus h :=
  bits_aSealed d (by decide) (by decide)
@[simp] theorem aLen_sealed (h : BitVec 512) (d : List Byte) : aLen (aSealed h d).header = aLen h :=
  bits_aSealed d (by decide) (by decide)
@[simp] theorem aTag_sealed (h : BitVec 512) (d : List Byte) : aTag (aSealed h d).header = aTag h :=
  bits_aSealed d (by decide) (by decide)
@[simp] theorem aAddr_sealed (h : BitVec 512) (d : List Byte) : aAddr (aSealed h d).header = aAddr h :=
  bits_aSealed d (by decide) (by decide)
@[simp] theorem aSeq_sealed (h : BitVec 512) (d : List Byte) : aSeq (aSealed h d).header = aSeq h := by
  unfold aSeq
  rw [bits_aSealed d (by decide) (by decide)]

theorem aBeats_sealed (h : BitVec 512) (d : List Byte) : aBeats (aSealed h d).header = aBeats h := by
  unfold aBeats
  rw [aClass_sealed, aLen_sealed, aStatus_sealed]

/-- The check of the message reads no bit of the CRC. -/
@[simp] theorem aBad_sealed (h : BitVec 512) (d : List Byte) : aBad (aSealed h d) = aBad ⟨h, d⟩ := by
  have e1 : bits (aSealed h d).header.toNat 479 128 = bits h.toNat 479 128 := bits_aSealed d (by decide) (by decide)
  have e2 : bits (aSealed h d).header.toNat 31 9 = bits h.toNat 31 9 := bits_aSealed d (by decide) (by decide)
  have e3 : bits (aSealed h d).header.toNat 7 4 = bits h.toNat 7 4 := bits_aSealed d (by decide) (by decide)
  unfold aBad
  dsimp only
  rw [e1, e2, e3, aBeats_sealed, aSealed_data]

/-- The CRC that a receiver computes is the one that the message carries. -/
theorem crc_aSealed (h : BitVec 512) (d : List Byte) : appoCrc (aSealed h d).header d = aCrc (aSealed h d).header := by
  have e : appoCrc (aSealed h d).header d = appoCrc h d := by unfold appoCrc; rw [aSealed_mod]
  have lt : appoCrc h d < 2 ^ 32 := crc32c_lt _
  rw [e, aCrc, bits, aSealed_toNat, Nat.shiftRight_eq_div_pow, Nat.mul_comm, Nat.mul_add_div (Nat.two_pow_pos 480),
    Nat.div_eq_of_lt (Nat.mod_lt _ (Nat.two_pow_pos 480)), Nat.add_zero, Nat.mod_eq_of_lt lt]

end Sys2Proof.Laws
end

