-- ==== Sys2Proof/Laws/Vec.lean ====
section
/-!
SUPPORT. Sys2Proof/Laws/Vec.lean: registers of a vector engine read back as written, packed elements, and what the
lane-wise operation does.
-/
namespace Sys2Proof.Machine

/-! ### Registers -/

theorem rs_ws (e : EngineState) (i j : Nat) (x : W64) :
    (e.ws i x).rs j = if j = 0 then 0 else if j = i then x else e.rs j := by
  unfold EngineState.rs EngineState.ws
  by_cases hj : j = 0
  · simp [hj]
  · by_cases hi : i = 0
    · subst hi; simp [hj]
    · simp [hj, hi, sget_sset]

theorem rv_wv (e : EngineState) (k i j x : Nat) :
    (e.wv k i x).rv j = if j = i then (BitVec.ofNat 8192 (x % 2 ^ vbits k)).toNat else e.rv j := by
  unfold EngineState.rv EngineState.wv
  simp only [sget_sset]
  split <;> rfl

theorem rp_wp (e : EngineState) (k i j x : Nat) :
    (e.wp k i x).rp k j =
      if j = 0 then 2 ^ lanesOf k - 1 else if j = i then x % 2 ^ lanesOf k % 2 ^ 256 else e.rp k j := by
  unfold EngineState.rp EngineState.wp
  by_cases hj : j = 0
  · simp [hj]
  · by_cases hi : i = 0
    · subst hi; simp [hj]
    · simp only [hj, hi, if_false, sget_sset]
      split <;> simp

theorem lanesOf_cases (k : Nat) : lanesOf k = 64 ∨ lanesOf k = 256 := by
  unfold lanesOf laneCount
  split <;> simp

theorem vbits_le (k : Nat) : vbits k ≤ 8192 := by
  unfold vbits
  rcases lanesOf_cases k with h | h <;> omega

theorem rv_wv_self (e : EngineState) (k i x : Nat) (h : x < 2 ^ vbits k) : (e.wv k i x).rv i = x := by
  rw [rv_wv, if_pos rfl, Nat.mod_eq_of_lt h, BitVec.toNat_ofNat]
  exact Nat.mod_eq_of_lt (Nat.lt_of_lt_of_le h (Nat.pow_le_pow_right (by decide) (vbits_le k)))

/-! ### Packed elements (R49) -/

theorem packList_lt (w : Nat) (xs : List Nat) : packList w xs < 2 ^ (w * xs.length) := by
  induction xs with
  | nil => simp [packList]
  | cons x t ih =>
    have h1 : x % 2 ^ w < 2 ^ w := Nat.mod_lt _ (Nat.two_pow_pos w)
    have h2 : 2 ^ (w * (t.length + 1)) = 2 ^ (w * t.length) * 2 ^ w := by rw [Nat.mul_succ, Nat.pow_add]
    simp only [packList, Nat.shiftLeft_eq, List.length_cons, h2]
    have h3 : packList w t * 2 ^ w + 2 ^ w ≤ 2 ^ (w * t.length) * 2 ^ w := by
      rw [← Nat.succ_mul]
      exact Nat.mul_le_mul_right _ ih
    omega

theorem elemAt_packList (w : Nat) : ∀ (xs : List Nat) (j : Nat) (h : j < xs.length),
    elemAt w (packList w xs) j = xs[j] % 2 ^ w := by
  intro xs
  induction xs with
  | nil => intro j h; simp at h
  | cons x t ih =>
    intro j h
    have h1 : x % 2 ^ w < 2 ^ w := Nat.mod_lt _ (Nat.two_pow_pos w)
    unfold elemAt packList
    cases j with
    | zero => simp [Nat.shiftLeft_eq]
    | succ j =>
      have hj : j < t.length := by simpa using h
      have h2 : (x % 2 ^ w + packList w t <<< w) >>> (w * (j + 1)) = packList w t >>> (w * j) := by
        rw [Nat.mul_succ, Nat.add_comm (w * j) w, Nat.shiftRight_add, Nat.shiftLeft_eq, Nat.shiftRight_eq_div_pow _ w,
          Nat.add_mul_div_right _ _ (Nat.two_pow_pos w), Nat.div_eq_of_lt h1, Nat.zero_add]
      rw [h2]
      simpa [elemAt] using ih j hj

theorem elemAt_lt (w x i : Nat) : elemAt w x i < 2 ^ w := Nat.mod_lt _ (Nat.two_pow_pos w)

theorem elemsOf_mul (k wd : Nat) (h : wd = 16 ∨ wd = 32 ∨ wd = 64) : wd * elemsOf k wd = vbits k := by
  unfold elemsOf vbits
  rcases lanesOf_cases k with hl | hl <;> rcases h with h | h | h <;> subst h <;> rw [hl]

/-- A list of elements written to VD reads back element by element. -/
theorem elemAt_wv_packList (e : EngineState) (k d wd : Nat) (f : Nat → Nat) (hw : wd = 16 ∨ wd = 32 ∨ wd = 64) (j : Nat)
    (hj : j < elemsOf k wd) :
    elemAt wd ((e.wv k d (packList wd ((List.range (elemsOf k wd)).map f))).rv d) j = f j % 2 ^ wd := by
  have hlt := packList_lt wd ((List.range (elemsOf k wd)).map f)
  rw [List.length_map, List.length_range, elemsOf_mul k wd hw] at hlt
  rw [rv_wv_self _ _ _ _ hlt, elemAt_packList _ _ _ (by simpa using hj)]
  simp

theorem wv_other (e : EngineState) (k i x : Nat) (j : Nat) (h : j ≠ i) : (e.wv k i x).rv j = e.rv j := by
  rw [rv_wv, if_neg h]

/-! ### Lane-wise operations and issue -/

theorem testBit_foldl_or (xs : List (Nat × Nat)) (b : Nat) : ∀ a : Nat,
    ((xs.foldl (fun a r => a ||| r.2) a).testBit b = true ↔ a.testBit b = true ∨ ∃ x ∈ xs, x.2.testBit b = true) := by
  induction xs with
  | nil => simp
  | cons x t ih =>
    intro a
    simp only [List.foldl_cons, ih, Nat.testBit_or, Bool.or_eq_true, List.mem_cons, exists_eq_or_imp, or_assoc]

theorem orV_getLsbD (e : EngineState) (fl : Fl) (b : Nat) (hb : b < 4) :
    (e.orV fl).vflags.getLsbD b = (e.vflags.getLsbD b || fl.testBit b) := by
  unfold EngineState.orV
  simp only [BitVec.getLsbD_or, BitVec.getLsbD_ofNat, hb, decide_true, Bool.true_and]

/-- What the lane-wise operation does: the active elements of VD and the flags that they raise, and nothing else. -/
theorem mapLanes_spec (k : Nat) (w : VFields) (wd : Nat) (f : Nat → Nat × Fl) (r : EngineState)
    (hw : wd = 16 ∨ wd = 32 ∨ wd = 64) :
    VecFrame w.vd.toNat r (mapLanes k w wd f r) ∧ LaneResult k w wd f r (mapLanes k w wd f r) := by
  refine ⟨⟨rfl, rfl, fun i hi => wv_other _ _ _ _ _ hi⟩, fun j hj => ?_, fun b hb => ?_⟩
  · have h := elemAt_wv_packList r k w.vd.toNat wd
      (fun j => if onElem (r.mask k w) wd j then (f j).1 else elemAt wd (r.rv w.vd.toNat) j) hw j hj
    have e : (mapLanes k w wd f r).rv w.vd.toNat = (r.wv k w.vd.toNat (packList wd ((List.range (elemsOf k wd)).map
        fun j => if onElem (r.mask k w) wd j then (f j).1 else elemAt wd (r.rv w.vd.toNat) j))).rv w.vd.toNat := by
      have hf : (fun x : Nat × Fl => x.1) ∘ (fun j => if onElem (r.mask k w) wd j then f j
          else (elemAt wd (r.rv w.vd.toNat) j, 0)) =
          fun j => if onElem (r.mask k w) wd j then (f j).1 else elemAt wd (r.rv w.vd.toNat) j := by
        funext j
        simp only [Function.comp]
        split <;> rfl
      unfold mapLanes
      simp only [List.map_map, hf]
      rfl
    rw [e, h]
    split
    · rfl
    · exact Nat.mod_eq_of_lt (elemAt_lt _ _ _)
  · unfold mapLanes
    simp only [orV_getLsbD _ _ _ hb, Bool.or_eq_true]
    rw [testBit_foldl_or]
    simp only [Nat.zero_testBit, Bool.false_eq_true, false_or, List.mem_map, List.mem_range]
    constructor
    · rintro (h | ⟨x, ⟨j, hj, rfl⟩, hx⟩)
      · exact Or.inl h
      · by_cases ho : onElem (r.mask k w) wd j
        · exact Or.inr ⟨j, hj, ho, by simpa [ho] using hx⟩
        · simp [ho] at hx
    · rintro (h | ⟨j, hj, ho, hx⟩)
      · exact Or.inl h
      · exact Or.inr ⟨_, ⟨j, hj, rfl⟩, by simpa [ho] using hx⟩

/-- The word that an engine fetches lies inside its code. -/
theorem fetches_pc {s : State} {k op : Nat} {w : VFields} (h : s.fetches k op w = true) :
    (s.eng k).pc < (s.code k).length := by
  unfold State.fetches at h
  simp only [Bool.and_eq_true, beq_iff_eq] at h
  exact (List.getElem?_eq_some_iff.mp h.1).1

/-- An instruction that can issue runs its operation. -/
theorem issue_of_canIssue (e : Engine) (op : Nat) (w : VFields) (go : State → State) (s : State)
    (h : CanIssue e op w s) : issue e op w go s = .next (go s) := by
  obtain ⟨h1, h2, h3, h4⟩ := h
  have hpc := fetches_pc h2
  unfold issue
  simp only [h1, h2, h3, h4, Bool.not_true, Bool.false_eq_true, if_false]
  rw [if_neg (by omega)]

/-- An instruction that changes only its engine changes the registers as `f` says, and goes on. -/
theorem issueRegs_of_canIssue (e : Engine) (op : Nat) (w : VFields) (f : EngineState → EngineState) (s : State)
    (h : CanIssue e op w s) : issueRegs e op w f s = .next (advance (engKey e) (s.updEng (engKey e) f)) :=
  issue_of_canIssue e op w _ s h

theorem updEng_const (s : State) (k : Nat) (f : EngineState → EngineState) :
    (s.updEng k fun _ => f (s.eng k)) = s.updEng k f := rfl

end Sys2Proof.Machine
end

