-- ==== Sys2Proof/Tests/Slice0.lean ====
section
/-!
SUPPORT. Sys2Proof/Tests/Slice0.lean: the model's own small tests, and for each statement that has hypotheses a state and
operands that meet them.
-/
namespace Sys2Proof.Tests
open Sys2Proof.Machine Sys2Proof.Laws

/-! One proof at a time: the many small evaluations would otherwise hold a thread each. -/
set_option Elab.async false

/-! ### States to test on -/

/-- Instruction fields, all zero. -/
def w0 : VFields := ⟨0, 0, 0, 0, 0, false, 0, 0, 0⟩
/-- Fields with these register numbers and format. -/
def wr (vd va vb : BitVec 5) (fmt : BitVec 4) : VFields := { w0 with vd := vd, va := va, vb := vb, fmt := fmt }
/-- Cell 0 of compute die 1. -/
def cell0 : Engine := .cell 0 0
/-- The Inflector of compute die 1. -/
def infl0 : Engine := .inflector 0

/-- A stage image of cell 0 with eight words of code. -/
def image0 : StageImage := { emptyImage with stage := 7, die := 1, cells := [0], code := List.replicate 8 0 }
/-- That stage, loaded and started. -/
def stage0 : Stage := { loaded := true, started := true, image := image0 }
/-- Stage 0 holds `g` and engines hold `es`. -/
def on (g : Stage) (es : Store EngineState) : State := { stages := [(0, g)], engines := es }
/-- Cell 0 runs for `stage0` with registers `e`. -/
def running (e : EngineState) : State := on stage0 [(128, { e with stat := .running })]
/-- The Inflector runs the rule of `stage0` with registers `e`. -/
def ruling (e : EngineState) : State :=
  on { stage0 with rule := some ⟨List.replicate 8 0, 0, false, 0⟩ }
    [(225, { e with stat := .running, ruleStage := some 0 })]

/-- `s` with the word of an instruction where engine `e` fetches its next one. -/
def holding (e : Engine) (op : Nat) (w : VFields) (s : State) : State :=
  let put (c : List W64) : List W64 := c.set (s.eng (engKey e)).pc (wordOf op w)
  { s with stages := s.stages.map fun x => (x.1, { x.2 with
      image := { x.2.image with code := put x.2.image.code }, rule := x.2.rule.map fun r => { r with code := put r.code } }) }

/-- With the instruction's word in place the engine can issue it, and `P` holds. -/
def Meets (e : Engine) (op : Nat) (w : VFields) (s : State) (P : State → Prop) : Prop :=
  CanIssue e op w (holding e op w s) ∧ P (holding e op w s)

/-- With the instruction's word in place the engine can issue it. -/
def Can (e : Engine) (op : Nat) (w : VFields) (s : State) : Prop := CanIssue e op w (holding e op w s)

/-! ### Witnesses: the vector instructions

Each theorem `witness_<statement>` shows states and operands that meet the hypotheses of the statement's clauses. -/

theorem witness_LaneFloat :
    (∀ x ∈ float2Rows, Can cell0 x.1 (wr 3 1 2 0) (running {})) ∧
    (∀ x ∈ float2Rows, Can infl0 x.1 (wr 3 1 2 0xE) (ruling {})) ∧
    (∀ x ∈ float1Rows, Can cell0 x.1 (wr 3 1 0 1) (running {})) ∧
    Can cell0 0x23 { wr 3 1 2 0 with vc := 4, pred := 1, pneg := true } (running {}) := by
  unfold Can CanIssue; decide +kernel

theorem witness_SgnAndTsgn :
    Can cell0 0x54 (wr 3 1 0 0) (running {}) ∧ Can infl0 0x54 (wr 3 1 0 0xE) (ruling {}) ∧
    (Can cell0 0x55 { wr 3 1 0 0 with mode := 1, imm := 0xF00000 } (running {}) ∧
      bitAt (1 : BitVec 4).toNat 0 = true) ∧
    (Can cell0 0x55 (wr 3 1 0 1) (running {}) ∧ bitAt w0.mode.toNat 0 = false) := by
  unfold Can CanIssue; decide +kernel

theorem witness_IntegerAndScalar :
    (∀ x ∈ int2Rows, Can cell0 x.1 (wr 3 1 2 0xF) (running {})) ∧
    (∀ x ∈ int2Rows, Can cell0 x.1 { wr 3 1 0 0xF with mode := 1, imm := 0xFFFFFF } (running {})) ∧
    (∀ op ∈ [0x3E, 0x2F], Can cell0 op (wr 3 1 2 0xF) (running {})) ∧
    (∀ op ∈ [0x3D, 0x3C], Can cell0 op { wr 3 1 0 0xF with imm := 0x300000 } (running {})) ∧
    Can cell0 0x4B (wr 3 1 0 0xF) (running {}) ∧
    (∀ x ∈ scalar2Rows, Can cell0 x.1 (wr 0 1 2 0) (running {})) ∧
    (∀ x ∈ scalar2Rows, Can cell0 x.1 { wr 3 1 0 0 with mode := 1, imm := 0x800000 } (running {})) ∧
    (∀ op ∈ [0x49, 0x4A], Can cell0 op { wr 3 0 0 0 with imm := 0xFFFFFF } (running {})) ∧
    Can cell0 0x4C { wr 3 1 0 0 with imm := 63 } (running {}) ∧ Can cell0 0x66 (wr 3 7 0 0) (running {}) ∧
    Can cell0 0x3B { wr 7 1 2 0xF with mode := 10 } (running {}) := by
  unfold Can CanIssue; decide +kernel

theorem witness_ComparesAndPredicates :
    Can cell0 0x2E { wr 7 1 2 0 with mode := 4 } (running {}) ∧
    Can infl0 0x2E { wr 0 1 2 0xE with mode := 4 } (ruling {}) ∧
    Can cell0 0x3B { wr 0 1 0 0xF with mode := 11, imm := 5 } (running {}) ∧
    (∀ x ∈ pred2Rows, Can cell0 x.1 (wr 1 2 3 0) (running {})) ∧
    Can cell0 0x64 { wr 1 0 0 0 with imm := 64 } (running {}) ∧
    Can cell0 0x65 { wr 1 2 0 0 with imm := 7 } (running {}) := by
  unfold Can CanIssue; decide +kernel

/-- A state in reduced service. -/
def reducedOf (s : State) : State := { s with chip := { s.chip with bringup := 4, service := 1 } }

theorem witness_Conversion :
    Meets cell0 0x50 { wr 3 1 0 1 with imm := 0 } (running {}) (serviceBad · (wr 3 1 0 1) = false) ∧
    (Can cell0 0x50 (wr 3 1 0 0) (running {}) ∧ onRegSide 0 (fSrc (wr 3 1 0 0)) 0 = true) ∧
    Meets cell0 0x50 (wr 3 1 2 7) (running {}) (fun s => serviceBad s (wr 3 1 2 7) = false ∧
      onRegSide 7 (fSrc (wr 3 1 2 7)) 7 = false ∧ (convRun s.job.seed 128 (wr 3 1 2 7) (s.eng 128)).scales.length = 2 ∧
      vbits 128 = 32 * lanesOf 128) ∧
    (∀ x ∈ [(0x50, wr 3 1 0 2), (0x52, wr 3 1 0 2), (0x51, wr 3 1 0 7)],
      Meets cell0 x.1 x.2 (reducedOf (running {})) fun s => serviceBad s x.2 = true ∧ s.stageOf 128 = some 0 ∧
        (s.stage 0).loaded = true ∧ (s.stage 0).haltCode = 0) ∧
    Meets infl0 0x50 (wr 3 1 0 2) (reducedOf (ruling {})) fun s => serviceBad s (wr 3 1 0 2) = true ∧
      s.stageOf 225 = some 0 ∧ isInflector 225 = true := by
  unfold Meets Can CanIssue; decide +kernel

theorem witness_Reductions :
    Meets cell0 0x51 (wr 3 1 0 7) (running {}) (serviceBad · (wr 3 1 0 7) = false) ∧
    Meets cell0 0x52 (wr 3 1 0 2) (running {}) (serviceBad · (wr 3 1 0 2) = false) ∧
    (∀ f ∈ [0, 1, 0xF], Can cell0 0x53 (wr 3 1 0 f) (running {})) ∧ Can infl0 0x53 (wr 3 1 0 0xE) (ruling {}) := by
  unfold Meets Can CanIssue; decide +kernel

theorem witness_StochasticRounding :
    (Can cell0 0x56 { wr 3 0 0 0xF with mode := 1, imm := 0x3FF } (running {}) ∧ bitAt (1 : BitVec 4).toNat 0 = true) ∧
    (Can cell0 0x56 (wr 3 1 2 0xF) (running {}) ∧ bitAt w0.mode.toNat 0 = false) ∧
    (Can cell0 0x56 (wr 3 1 2 0) (running {}) ∧ w0.fmt ≠ 0xF) := by
  unfold Can CanIssue; decide +kernel

/-- A transfer that waits, with tag 3. -/
def dma3 : DmaReq := ⟨2 ^ 40, 2 ^ 40 + 4096, 64, 3, 0, false⟩

theorem witness_FlagsAndWaits :
    Can cell0 0 w0 (running {}) ∧ Can cell0 0x58 { wr 3 0 0 0 with imm := 0x1FF } (running {}) ∧
    Can cell0 5 w0 (running {}) ∧ Can cell0 0x57 { wr 3 1 0 0 with mode := 2 } (running {}) ∧
    Meets cell0 1 w0 (running {}) (fun s => isInflector 128 = false ∧ s.stageOfCell 128 = some 0 ∧
      (s.stage 0).nullOvf = none) ∧
    Meets infl0 1 w0 (ruling { committed := true }) (fun s => isInflector 225 = true ∧ (s.eng 225).tags = [] ∧
      (s.eng 225).committed = true) ∧
    Meets cell0 6 { w0 with imm := 4 } (running { dmaQ := [dma3] }) (fun s => (s.eng 128).tags.filter (· == 4) = []) ∧
    Meets cell0 6 { w0 with mode := 1 } (running { dmaQ := [dma3] }) (fun s => (s.eng 128).tags ≠ []) := by
  unfold Meets Can CanIssue; decide +kernel

/-- Base of cell store 0 of die 1. -/
def store0 : Nat := 2 ^ 40 + 2 ^ 39
/-- `stage0` with a grant of its whole cell store and of 1 MiB of HBM. -/
def granted0 : Stage := { stage0 with image := { image0 with grants := [⟨store0, 2 ^ 21, true⟩, ⟨2 ^ 40, 2 ^ 20, true⟩] } }
/-- Cell 0 runs for `granted0`; s1 holds the cell store's base, s2 its last 8 bytes, s3 an address that is not aligned. -/
def loading : State := on granted0 [(128, { stat := .running, sregs :=
  [(1, BitVec.ofNat 64 store0), (2, BitVec.ofNat 64 (store0 + 2 ^ 21 - 8)), (3, BitVec.ofNat 64 (store0 + 4)), (4, 4)] })]

theorem witness_LoadsAndStores :
    Meets cell0 0x10 { wr 3 1 0 0 with mode := 4 } loading (fun s =>
      AccessesOk s 128 64 false [((s.eng 128).addr 1 w0, 256)]) ∧
    Meets cell0 0x12 { wr 3 1 4 0 with imm := 4 } loading (fun s => AccessesOk s 128 4 false
      ((activeLanes 128 { wr 3 1 4 0 with imm := 4 } (s.eng 128)).map fun i =>
        (laneAddr (s.eng 128) 1 4 { wr 3 1 4 0 with imm := 4 } i, 4))) ∧
    Meets cell0 0x14 { wr 0 2 0 0 with mode := 7 } loading (fun s =>
      AccessesOk s 128 8 false [((s.eng 128).addr 2 w0, 8)]) ∧
    Meets cell0 0x16 (wr 0 2 0 0) loading (fun s => AccessesOk s 128 8 false [((s.eng 128).addr 2 w0, 8)]) ∧
    Meets cell0 0x11 { wr 0 3 1 0 with mode := 1 } loading (fun s =>
      (s.eng 128).addr 1 { wr 0 3 1 0 with mode := 1 } % 32 = 0 ∧ AccessesOk s 128 1 true
        ((vstWrites 128 { wr 0 3 1 0 with mode := 1 } (s.eng 128)).map fun x => (x.1, x.2.length))) ∧
    Meets cell0 0x13 { wr 0 3 1 0 with vc := 4 } loading (fun s => AccessesOk s 128 4 true
      ((activeLanes 128 { wr 0 3 1 0 with vc := 4 } (s.eng 128)).map fun i =>
        (laneAddr (s.eng 128) 1 4 { wr 0 3 1 0 with vc := 4 } i, 4))) ∧
    Meets cell0 0x15 { wr 0 3 2 0 with mode := 3 } loading (fun s =>
      AccessesOk s 128 8 true [((s.eng 128).addr 2 w0, 8)]) ∧
    Meets cell0 0x17 (wr 0 3 2 0) loading (fun s => AccessesOk s 128 8 true [((s.eng 128).addr 2 w0, 8)]) := by
  unfold Meets CanIssue AccessesOk; decide +kernel

theorem witness_AccessFaultMovesNothing :
    Meets cell0 0x10 { wr 5 3 0 0 with mode := 4 } loading (fun s =>
      ¬ AccessesOk s 128 64 false [((s.eng 128).addr 3 w0, 256)]) ∧
    Meets cell0 0x14 { wr 5 0 0 0 with mode := 3 } loading (fun s =>
      ¬ AccessesOk s 128 8 false [((s.eng 128).addr 0 w0, 8)]) ∧
    Meets cell0 0x16 (wr 5 3 0 0) loading (fun s => ¬ AccessesOk s 128 8 false [((s.eng 128).addr 3 w0, 8)]) ∧
    Meets cell0 0x15 { wr 0 5 3 0 with mode := 3 } loading (fun s =>
      ¬ AccessesOk s 128 8 true [((s.eng 128).addr 3 w0, 8)]) ∧
    Meets cell0 0x17 (wr 0 5 0 0) loading (fun s => ¬ AccessesOk s 128 8 true [((s.eng 128).addr 0 w0, 8)] ∧
      s.stageOf 128 = some 0 ∧ (s.stage 0).loaded = true ∧ (s.stage 0).haltCode = 0) := by
  unfold Meets CanIssue AccessesOk; decide +kernel

/-- A loop over the instructions 1 to 2 with `n` passes left. -/
def loop12 (n : Nat) : LoopFrame := ⟨1, 2, n⟩

theorem witness_SequenceAndBranches :
    (loopNext 2 (activeLoops 128 (running { pc := 2 })) = (3, []) ∧ (running { pc := 2 }).inGroup 128 = none) ∧
    loopNext 2 (activeLoops 128 (running { pc := 2, loops := [loop12 1] })) = (3, []) ∧
    (activeLoops 128 (running { pc := 2, loops := [loop12 2] }) = [loop12 2] ∧ (loop12 2).last = 2 ∧ (loop12 2).left > 1 ∧
      (running { pc := 2, loops := [loop12 2] }).inGroup 128 = none) ∧
    Can cell0 2 { w0 with imm := 7 } (running {}) ∧ Can cell0 3 { w0 with va := 1, imm := 7 } (running {}) ∧
    brcTaken 0 ((running {}).eng 128 |>.rs 1) ≠ brcTaken 1 ((running {}).eng 128 |>.rs 1) ∧
    Meets cell0 4 { w0 with va := 1, imm := 7 } (running {}) (fun s => (s.eng 128).loops.length < 4 ∧
      ((s.eng 128).rs 1).toNat % 2 ^ 32 = 0) ∧
    Meets cell0 4 { w0 with va := 4, imm := 7 } (running { sregs := [(4, 4)] }) (fun s => (s.eng 128).loops.length < 4 ∧
      ((s.eng 128).rs 4).toNat % 2 ^ 32 ≠ 0) ∧
    Meets cell0 4 { w0 with va := 1, imm := 7 } (running { loops := List.replicate 4 (loop12 2) }) (fun s =>
      ¬ (s.eng 128).loops.length < 4) := by
  unfold Meets Can CanIssue; decide +kernel

theorem witness_plainTarget (n : Nat) : ∃ s, PlainTarget 128 n s ∧ s.inGroup 128 = none ∧ s.issuing 128 = true := by
  refine ⟨running {}, Or.inr ⟨0, by decide, by rfl, by rfl⟩, by decide, by decide⟩

/-! ### Witnesses: tiles, transfers, digests -/

/-- A number from fields: (lowest bit, value). -/
def fields (xs : List (Nat × Nat)) : Nat := xs.foldl (fun a x => a + x.2 * 2 ^ x.1) 0
/-- A tile of one row, one column and K = 1, FP32, on HBM of die 1. -/
def desc1 : BitVec 1024 := BitVec.ofNat 1024 (fields
  [(0, 1), (64, 1), (96, 1), (128, 1), (256, 2 ^ 40), (448, 2 ^ 40 + 64), (640, 2 ^ 40 + 128)])
/-- The descriptor as queued. -/
def req1 : TileReq := ⟨store0, desc1, 0, 5, false⟩
/-- That tile started, its subtile not yet written, and written. -/
def run1 (next : Nat) (hold : Option Nat) : TileRun :=
  { addr := store0, desc := desc1, group := 0, ordinal := 5, stage := some 0, shadow := false, started := true, next := next
    bank0 := subtileSums [] 0 desc1 0, hold := hold }
/-- Cell 0 runs for `granted0` with these queues, s1 the cell store's base, s2 to s4 a transfer. -/
def tiling (q : List TileReq) (f : List TileRun) (d : List DmaReq) : State :=
  on granted0 [(128, { stat := .running, tileQ := q, inFlight := f, dmaQ := d, sregs :=
    [(1, BitVec.ofNat 64 store0), (2, BitVec.ofNat 64 (2 ^ 40)), (3, BitVec.ofNat 64 (2 ^ 40 + 4096)), (4, 64)] })]
/-- The same tile queued and in flight on the Inflector. -/
def tilingInfl (q : List TileReq) (f : List TileRun) : State :=
  on { granted0 with image := { granted0.image with imageSize := 16, buffers := [2 ^ 40] } }
    [(225, { stat := .running, tileQ := q, inFlight := f, ruleStage := some 0 })]
/-- Engine `k` with its head descriptor taken. -/
def takenOf (k : Nat) (q : TileReq) (s : State) : State := s.updEng k fun r => { r with
  tileQ := r.tileQ.drop 1
  inFlight := r.inFlight ++ [{ addr := q.addr, desc := q.desc, group := q.group, ordinal := q.ordinal, stage := s.stageOf k
                               shadow := s.selected k q.desc q.ordinal }] }

theorem witness_Tiles :
    (∀ n ∈ [0, 64], Meets cell0 7 { w0 with va := 1 } (tiling (List.replicate n req1) [] []) fun s =>
      ((s.eng 128).rs 1).toNat % 128 = 0 ∧ checkAccess s 128 (descReach 128) store0 128 false = .ok ∧
      (s.eng 128).tileQ.length = n) ∧
    (∀ n ∈ [0, 16], Meets cell0 8 { w0 with va := 2, vb := 3, vc := 4, imm := 0xFF } (tiling [] [] (List.replicate n dma3))
      fun s => (s.eng 128).dmaQ.length = n ∧ ((s.eng 128).rs 4).toNat = 64) ∧
    (let s := tilingInfl [req1] [];
      (s.eng 225).inFlight = [] ∧ (s.eng 225).tileQ = [req1] ∧ descReason 225 s.grade s.reduced desc1 = none ∧
      dGroup desc1 = req1.group ∧ (takenOf 225 req1 s).mayStart 225 0 = true ∧
      tileFault (s.stageOf 225) (takenOf 225 req1 s) 225 false (subReads desc1 0).all = none) ∧
    (let s := tilingInfl [req1] [run1 0 none];
      (takenOf 225 req1 s).mayStart 225 0 = false ∧ (takenOf 225 req1 s).mayStart 225 1 = false) ∧
    (let s := tiling [{ req1 with desc := 0 }] [] [];
      (descReason 128 s.grade s.reduced 0).isSome = true ∧ s.stageOf 128 = some 0 ∧ (s.stage 0).loaded = true ∧
      (s.stage 0).haltCode = 0 ∧ isInflector 128 = false ∧ { req1 with bad := true }.bad = true) ∧
    (((tiling [] [run1 1 none] []).eng 128).inFlight[0]? = some (run1 1 none) ∧ subtileCount desc1 ≤ 1 ∧
      0 < subtileCount desc1 ∧ (run1 1 (some 3)).hold ≠ none) := by
  unfold Meets CanIssue; decide +kernel

theorem witness_SubtileDrain :
    let s := tiling [] [run1 0 none] []
    let t := run1 0 none
    let out := epilogue t t.bank (xorCodes (t.bank.map (·.code)) [])
    ((s.eng 128).inFlight[0]? = some t ∧ t.started = true ∧ t.hold = none ∧ 0 < subtileCount desc1 ∧
      subtileCount desc1 ≤ 1) ∧
    tileFault t.stage s 128 true (out.writes.map fun w => (w.1, w.2.length)) = none ∧
    t.shadow = false ∧ (out.addFlags ||| out.outFlags ||| out.sumFlags) % 2 = 0 ∧ out.writes ≠ [] := by
  decide +kernel

/-- A transfer between HBM and the host area. -/
def dmaHost : DmaReq := ⟨2 ^ 40, 2 ^ 47, 64, 3, 0, false⟩
/-- A transfer from an address that is not granted. -/
def dmaBad : DmaReq := ⟨2 ^ 41, 2 ^ 40, 64, 3, 0, false⟩
/-- `granted0` with a grant of host memory as well. -/
def grantedHost : Stage := { granted0 with image := { granted0.image with
  grants := ⟨2 ^ 47, 4096, true⟩ :: granted0.image.grants } }

theorem witness_Transfer :
    (((tiling [] [] [dma3]).eng 128).dmaQ = [dma3] ∧
      checkAccess (tiling [] [] [dma3]) 128 (dmaReach 128) dma3.src 64 false = .ok ∧
      checkAccess (tiling [] [] [dma3]) 128 (dmaReach 128) dma3.dst 64 true = .ok ∧ isGuest dma3.src = false ∧
      isGuest dma3.dst = false ∧ dma3.dst < 2 ^ 47) ∧
    (checkAccess (on grantedHost [(128, { dmaQ := [dmaHost] })]) 128 (dmaReach 128) dmaHost.src 64 false = .ok ∧
      checkAccess (on grantedHost [(128, { dmaQ := [dmaHost] })]) 128 (dmaReach 128) dmaHost.dst 64 true = .ok ∧
      isGuest dmaHost.dst = false ∧ 2 ^ 47 ≤ dmaHost.dst) ∧
    (checkAccess (tiling [] [] [dmaBad]) 128 (dmaReach 128) dmaBad.src 64 false ≠ .ok ∧
      (tiling [] [] [dmaBad]).stageOf 128 = some 0 ∧ ((tiling [] [] [dmaBad]).stage 0).loaded = true ∧
      ((tiling [] [] [dmaBad]).stage 0).haltCode = 0) := by
  decide +kernel

/-- The Inflector runs the rule of `g`, whose code is NOP but for END at instruction 1, with registers `e`. -/
def rulingOn (g : Stage) (e : EngineState) : State :=
  on { g with rule := some ⟨[0, 0x0100000000000000, 0, 0], 0, false, 0⟩ }
    [(225, { e with stat := .running, ruleStage := some 0 })]

/-- The state with this job. -/
def inJob (j : Job) (s : State) : State := { s with job := j }
/-- A stage with GMAX values of ranks below `n`. -/
def gmaxStage (n : Nat) : Stage :=
  { stage0 with update := { gmaxVals := (List.range n).map fun r => ⟨1, 0, r, 0x3F800000⟩ } }

theorem witness_DigestMaximumAndCommit :
    Meets infl0 0x71 (wr 0 0 0 0) (rulingOn stage0 {}) (fun s => s.hostsStage 225 0 = true) ∧
    Meets infl0 0x71 { wr 0 5 0 0 with mode := 1, imm := 1024 } (rulingOn { stage0 with dig := .opened } {})
      (fun s => s.hostsStage 225 0 = true ∧ (s.stage 0).dig = .opened) ∧
    Meets infl0 0x71 { wr 30 0 0 0 with mode := 2 } (rulingOn { stage0 with dig := .opened } {})
      (fun s => s.hostsStage 225 0 = true ∧ (s.stage 0).dig = .opened ∧ s.badWords = []) ∧
    Meets infl0 0x70 (wr 3 1 0 0) (rulingOn stage0 {}) (fun s => s.stageOf 225 = some 0 ∧ s.job.z ≤ 1) ∧
    (∀ n ∈ [1, 2], Meets infl0 0x70 (wr 3 1 0 0) (inJob { z := 2 } (rulingOn (gmaxStage n) {})) fun s =>
      1 < s.job.z ∧ (∃ y ∈ (s.stage 0).update.gmaxVals, y.rank = s.job.rank) ∧
        (s.stage 0).update.gmaxVals.length = n) ∧
    Meets infl0 0x72 (wr 3 1 0 0) (rulingOn stage0 { sregs := [(1, 5)] }) (fun s => s.hostsStage 225 5 = false) ∧
    Meets infl0 0x72 (wr 3 0 0 0) (rulingOn stage0 {}) (fun s => s.hostsStage 225 0 = true ∧ (s.stage 0).dig ≠ .closed) ∧
    Meets infl0 0x72 (wr 3 0 0 0) (rulingOn { stage0 with dig := .closed } { dmaQ := [dma3] })
      (fun s => s.hostsStage 225 0 = true ∧ (s.eng 225).tags ≠ []) ∧
    Meets infl0 0x72 (wr 3 0 0 0) (rulingOn { stage0 with dig := .closed } { pc := 2 })
      (fun s => s.hostsStage 225 0 = true ∧ s.endsNext 225 = false ∧ (s.eng 225).tags = []) ∧
    Meets infl0 0x72 (wr 3 0 0 0) (rulingOn { stage0 with dig := .closed } {})
      (fun s => s.hostsStage 225 0 = true ∧ s.endsNext 225 = true ∧ (s.eng 225).tags = []) := by
  unfold Meets CanIssue; decide +kernel

/-! ### Witnesses: Clauses, barriers, layer groups -/

/-- A parameter block from its fields. -/
def blockOf (xs : List (Nat × Nat)) : BitVec 1024 := BitVec.ofNat 1024 (fields xs)
/-- Middle position: predecessor 6, successor 8, U = 1, four entries in every queue, slots of 4 KiB in HBM of die 1. -/
def block0 : BitVec 1024 := blockOf [(64, 1), (96, 6), (112, 8), (128, 2 ^ 40 + 0x10000), (176, 4), (192, 4096),
  (224, 4096), (256, 2 ^ 40 + 0x20000), (304, 4), (320, 16), (352, 16), (384, 4), (400, 4), (448, 2 ^ 47), (512, 2 ^ 20)]
/-- `granted0` with that block. -/
def queued0 : Stage := { granted0 with image := { granted0.image with block := block0 } }
/-- The block of the stage that follows it, at the last position. -/
def block1 : BitVec 1024 := blockOf
  [(64, 1), (96, 7), (112, 0xFFFF), (128, 2 ^ 40 + 0x30000), (176, 4), (192, 4096), (384, 4), (400, 4)]
/-- The stage that follows it. -/
def queued1 : Stage := { queued0 with image := { queued0.image with stage := 8, cells := [1], block := block1 } }
/-- Two stages and the engine of cell 0. -/
def two (g h : Stage) (e : EngineState) : State := { stages := [(0, g), (1, h)], engines := [(128, e)] }
/-- A V Clause of micro-batch 9 with 256 bytes of payload at the start of HBM. -/
def clauseV : BitVec 512 := BitVec.ofNat 512 (fields [(0, 1), (64, 9), (128, 2 ^ 40), (192, 1)])
/-- Cell 0 about to place it. -/
def putting (g : Stage) : State := two g queued1 { stat := .running, vregs := [(5, BitVec.setWidth 8192 clauseV)] }
/-- A stage inside a layer group that spans its code. -/
def inGroup1 (g : Stage) : Stage := { g with
  exec := some ⟨1, 0, false, none⟩
  image := { g.image with groups := [BitVec.ofNat 256 (fields [(0, 2), (16, 1), (48, 6), (80, 7)])] } }

theorem witness_clausePut :
    Meets cell0 0xA (wr 0 5 0 0) (putting queued0) (fun s => s.stageOfCell 128 = some 0 ∧
      BitVec.ofNat 512 ((s.eng 128).rv 5 % 2 ^ 512) = clauseV ∧ putReason (s.stage 0) false clauseV = none ∧
      clauseLen clauseV ≤ s.lenLimit (s.stage 0) false ∧ (s.stage 0).payloadOk clauseV = true ∧ clauseKind clauseV = 1 ∧
      (s.stage 0).outFree false = true ∧ s.inGroup 128 = none ∧ (s.findStage (s.stage 0).succ).isSome = true) ∧
    Meets cell0 0xA (wr 0 5 0 0) (putting { queued0 with forwardOut := { items := List.replicate 4 0 } }) (fun s =>
      ((s.stage 0).outQ false).reserved = 0 ∧ (s.stage 0).outFree false = false) ∧
    Meets cell0 0xA (wr 0 5 0 0) (putting (inGroup1 queued0)) (fun s => (s.stage 0).outFree false = true ∧
      (s.inGroup 128).isSome = true ∧ putReason (s.stage 0) false clauseV = none) := by
  unfold Meets CanIssue; decide +kernel

/-- A present Tense of COMMIT 3 and a free slot. -/
def tenses0 : List TenseSlot := [{ state := 2, commit := 3, addr := 2 ^ 40 + 0x40000 }, {}]
/-- A stage with a Clause to take, its view filled. -/
def taking0 : Stage := { queued0 with forwardIn := { items := [clauseV] }, tenses := tenses0, viewForward := some 3 }

theorem witness_ClausePutAndTake :
    Meets cell0 9 (wr 5 0 0 0) (two taking0 queued1 { stat := .running }) (fun s => s.stageOfCell 128 = some 0 ∧
      (s.stage 0).forwardIn.replay = 0 ∧ (s.stage 0).forwardIn.items = [clauseV] ∧
      ((s.stage 0).records.any fun r => r.mb == clauseMb clauseV) = false ∧ (s.stage 0).backwardIn.items = [] ∧
      (s.stage 0).takeReady clauseV = true ∧ (s.stage 0).viewForward = some (s.stage 0).presentCommit ∧
      s.badIn (inEntry (s.stage 0) 0 false (clauseSeq clauseV)) 64 = none) ∧
    Meets cell0 9 (wr 5 0 0 0) (two { queued0 with backwardIn := { items := [clauseV] } } queued1 { stat := .running })
      (fun s => s.stageOfCell 128 = some 0 ∧ (s.stage 0).forwardIn.items = [] ∧ (s.stage 0).backwardIn.items ≠ []) := by
  unfold Meets CanIssue; decide +kernel

/-- Stage 7's out-queue holds the Clause for stage 8. -/
def delivering (n : Nat) : State :=
  two { queued0 with forwardOut := { items := [clauseV] } } { queued1 with forwardIn := { delivered := n } } {}

theorem witness_ClauseDelivery :
    (let s := delivering 0;
      s.findStage (s.stage 1).predecessor = some 0 ∧ ((s.stage 0).outQ false).items = [clauseV] ∧
      (s.stage 0).live = true ∧ (s.stage 1).loaded = true ∧ (s.stage 1).credit false = true ∧
      s.absent ((s.stage 1).slotAddr false 0 / 2 ^ 40) = false ∧ s.absent (clauseAddr clauseV / 2 ^ 40) = false ∧
      s.backwardWaits 1 1 = false ∧
      s.badAmong [(outEntry (s.stage 0) 0 false (clauseSeq clauseV), 64), (clauseAddr clauseV, 256)] = none) ∧
    ((delivering 4).stage 1).credit false = false ∧
    (let s := two { queued0 with forwardOut := { items := [clauseV] } }
       { queued1 with backwardOut := { items := [clauseV] } } {};
      s.backwardWaits 1 1 = true) := by
  decide +kernel

/-- `stage0` on the cells 0 and 1, both in this status. -/
def twoCells (g : Stage) (a b : EStat) : State :=
  on { g with image := { g.image with cells := [0, 1] } } [(128, { stat := a }), (129, { stat := b })]

theorem witness_StageBarrier :
    (((twoCells stage0 .waitSync .waitSync).stage 0).live = true ∧
      ((twoCells stage0 .waitSync .waitSync).stage 0).cellKeys = [128, 129] ∧
      ∀ k ∈ [128, 129], ((twoCells stage0 .waitSync .waitSync).eng k).stat = .waitSync ∧
        ((twoCells stage0 .waitSync .waitSync).eng k).dmaQ = []) ∧
    (∀ k ∈ [128, 129], ((twoCells stage0 (.waitXred 5 2 3) (.waitXred 6 2 4)).eng k).stat =
      .waitXred (if k = 128 then 5 else 6) 2 (if k = 128 then 3 else 4)) ∧
    ((∀ k ∈ [128, 129], ((twoCells stage0 .waitEnd .waitEnd).eng k).stat = .waitEnd) ∧ [128, 129].Nodup ∧
      (∀ k ∈ [128, 129], isInflector k = false ∧ (twoCells stage0 .waitEnd .waitEnd).stageOfCell k = some 0) ∧
      ((twoCells stage0 .waitEnd .waitEnd).stage 0).image.groups = []) := by
  decide +kernel

/-- Group 1 of two rungs: instructions 0 to 2 and 3 to 5. -/
def group1 : BitVec 256 := BitVec.ofNat 256 (fields [(0, 2), (16, 1), (48, 2), (64, 3), (80, 5)])
/-- `stage0` with that group. -/
def grouped : Stage := { stage0 with image := { image0 with groups := [group1] } }

theorem witness_GroupEntryAndReplay :
    (grouped.live = true ∧ grouped.exec = none ∧ (twoCells grouped (.waitEntry 1) (.waitEntry 1)).entryGroup 0 = some 1 ∧
      grouped.decl 1 = some group1 ∧ declId group1 = 1) ∧
    (let s := twoCells { grouped with exec := some ⟨1, 0, false, some (128, 128)⟩ } .aborted .aborted;
      (s.stage 0).live = true ∧ (s.stage 0).exec = some ⟨1, 0, false, some (128, 128)⟩ ∧
      (s.stage 0).decl 1 = some group1 ∧ s.cellsAll 0 (fun e => e.stat == .aborted && e.dmaQ.isEmpty) = true) := by
  decide +kernel

/-- Both cells have left group 1, executed at rung 1. -/
def exiting (p : Nat) : State :=
  twoCells { grouped with exec := some ⟨1, 1, false, none⟩, pauseAt := p } (.waitExit 1) (.waitExit 1)
/-- The same where the group has one rung, so that the null group follows it. -/
def exitingNull : State := twoCells
  { grouped with exec := some ⟨1, 0, false, none⟩
                 image := { image0 with groups := [BitVec.ofNat 256 (fields [(0, 1), (16, 1), (48, 2)])] } }
  (.waitExit 1) (.waitExit 1)

theorem witness_GroupEnd :
    (∀ s ∈ [exiting 1, exitingNull], (s.stage 0).live = true ∧ (s.stage 0).exec.isSome = true ∧
      (s.stage 0).decl 1 = (s.stage 0).image.groups.head? ∧ ((s.stage 0).decl 1).map declId = some 1 ∧
      s.groupDone 0 1 = true ∧ (s.stage 0).async = false ∧ (s.stage 0).forwardOut.heldBack = [] ∧
      (s.stage 0).backwardOut.heldBack = [] ∧ (s.stage 0).preds = [] ∧ (s.stage 0).cellKeys = [128, 129] ∧
      ∀ k ∈ [128, 129], isInflector k = false ∧ s.stageOfCell k = some 0) ∧
    ((exiting 1).stage 0).pauseAt = 1 ∧ (exitingNull.stage 0).pauseAt ≠ 1 ∧
    (∀ k ∈ [128, 129], (exitingNull.stage 0).entryAt (loopNext 2 (exitingNull.eng k).loops).1 = none ∧
      (exitingNull.stage 0).inAnyRange (loopNext 2 (exitingNull.eng k).loops).1 = false) := by
  decide +kernel

/-! ### Witnesses: Tenses, gradients, updates -/

/-- One page of image, of which 16 bytes are the working copy: buffers, view and digest tables in HBM of die 1. -/
def imaged : StageImage := { granted0.image with
  imageSize := 16, buffers := [2 ^ 40 + 0x40000, 2 ^ 40 + 0x50000], forwardView := 2 ^ 40 + 0x60000
  backwardView := 2 ^ 40 + 0x70000, sdigArea := 2 ^ 40 + 0x80000, deltaArea := 2 ^ 40 + 0x90000, block := block0 }
/-- The present Tense of COMMIT 3 in the first buffer. -/
def present3 : TenseSlot := { state := 2, commit := 3, addr := 2 ^ 40 + 0x40000, sdigAddr := 2 ^ 40 + 0x80000 }
/-- A stage with that Tense and slots `ts`. -/
def tensed (ts : List TenseSlot) : Stage := { stage0 with image := imaged, tenses := present3 :: ts }
/-- The digest table holds the digest of an all-zero image, or not. -/
def viewing (good : Bool) : State :=
  let s := on { tensed [] with wantForward := some 3 } []
  if good then { s with mem := memPutNat [] (2 ^ 40 + 0x80000) 16 (shardDigest (List.replicate 16 0)) } else s

theorem witness_viewFill :
    ((viewing true).stage 0).live = true ∧ ((viewing true).stage 0).wantForward = some 3 ∧
    (((viewing true).stage 0).tenses.find? fun t => t.holds && t.commit == 3) = some present3 ∧
    (∀ b ∈ [true, false], (viewing b).badAmong ((present3.sdigAddr, 16 * (viewing b).job.z) ::
      ((viewing b).stage 0).sourceRanges present3) = none) ∧
    present3.sdigAddr + 512 > imaged.forwardView + 4096 ∧ imaged.forwardView + 4096 ≤ present3.sdigAddr ∧
    (viewing true).job.z = 1 ∧ (viewing false).job.z = 1 ∧
    shardDigest (shardBytes (((viewing true).stage 0).shardRanges 1 0)
      ((viewing true).materialise ((viewing true).stage 0) present3)) = (viewing true).sdig present3 0 ∧
    shardDigest (shardBytes (((viewing false).stage 0).shardRanges 1 0)
      ((viewing false).materialise ((viewing false).stage 0) present3)) ≠ (viewing false).sdig present3 0 := by
  decide +kernel

/-- An old present that still holds its slot. -/
def past2 (st : Nat) : TenseSlot := { state := st, commit := 2, addr := 2 ^ 40 + 0x50000, refs := 1 }
/-- Its delta is due. -/
def encoding : Stage := { tensed [past2 3] with flip := some ⟨2, 1, false, [], some 1, 0⟩, pastBudget := 4096 }
/-- A delta that waits for its rebase. -/
def rebasing : Stage := { tensed [past2 4] with flip := some ⟨2, 1, true, [1], none, 0⟩ }
/-- A delta above its budget, with room for a host copy. -/
def spilling : Stage := { tensed [{ past2 4 with dsize := 1 }] with spillSize := 8192 }

theorem witness_TenseLogic :
    (encoding.live = true ∧ (encoding.tenses.find? fun t => t.state == 2) = some present3 ∧
      encoding.flip = some ⟨2, 1, false, [], some 1, 0⟩ ∧
      (on encoding []).badAmong [(2 ^ 40 + 0x50000, 4096), (2 ^ 40 + 0x40000, 4096)] = none ∧
      encoding.deltaBytes + (encodeDelta 1 ((on encoding []).imageAt encoding (2 ^ 40 + 0x50000))
        ((on encoding []).imageAt encoding (2 ^ 40 + 0x40000))).length ≤ encoding.pastBudget ∧
      encoding.tenses[1]? = some (past2 3)) ∧
    (rebasing.live = true ∧ (rebasing.tenses.find? fun t => t.state == 2) = some present3 ∧
      rebasing.flip = some ⟨2, 1, true, [1], none, 0⟩ ∧ rebasing.tenses[1]? = some (past2 4) ∧
      (on rebasing []).badAmong ((present3.addr, 4096) :: rebasing.sourceRanges (past2 4)) = none) ∧
    (spilling.live = true ∧ (spilling.tenses.find? fun t => t.state == 2) = some present3 ∧
      spilling.tenses[1]? = some { past2 4 with dsize := 1 } ∧
      (∀ u ∈ spilling.tenses, u.state = 4 → u.commit ≤ 2) ∧ spilling.spillRoom = true ∧
      Stage.spillDue (on spilling []) spilling = true ∧
      (on spilling []).badAmong (spilling.sourceRanges { past2 4 with dsize := 1 }) = none ∧
      2 ^ 47 ≤ spilling.spillPlace) := by
  decide +kernel

theorem witness_DeltaRoundTrip : ∃ img base : List Byte, img.length = 4096 * 1 ∧ base.length = 4096 * 1 ∧
    img ≠ base ∧ 257 * 1 + 1 ≤ 2 ^ 30 :=
  ⟨List.replicate 4096 1, List.replicate 4096 0, by rw [List.length_replicate], by rw [List.length_replicate],
    by decide +kernel, by decide⟩

theorem witness_DigestInPieces : ∃ a : List Byte, a.length % 16 = 0 ∧ a ≠ [] :=
  ⟨List.replicate 16 1, by decide⟩

/-- The BUILDING Tense of COMMIT 4, whose shard is due. -/
def building4 : TenseSlot := { state := 1, commit := 4, addr := 2 ^ 40 + 0x50000 }
/-- Two modules, one subgroup. -/
def job2 : Job := { state := 1, id := 5, g := 2, z := 2 }
/-- A stage whose COMMIT waits. -/
def committing0 : Stage := { tensed [building4] with dig := .closed, committing := some (some 3) }
/-- A whole contribution. -/
def contrib (r : Nat) : Contribution := ⟨1, r, false, [1], true⟩
/-- Both contributions of update 1 are in. -/
def reducing : Stage := { stage0 with update := { submitted := 1, contributions := [contrib 0, contrib 1] } }

theorem witness_GradientAndVote :
    ((inJob job2 (on committing0 [])).stage 0).live = true ∧
    (committing0.tenses.find? fun t => t.state == 1) = some building4 ∧ committing0.dig = .closed ∧
    1 < job2.z ∧ (inJob job2 (on committing0 [])).badAmong
      ((committing0.shardRanges 2 0).map fun r => (building4.addr + r.1, r.2)) = none ∧
    committing0.update.shardSent = false ∧
    ({ committing0 with update := { shardSent := true } } : Stage).update.shardSent = true ∧
    (reducing.live = true ∧ reducing.update.reduced = none ∧ (reducing.contribsOf 1 2).length = 2 ∧
      1 ≤ reducing.update.submitted ∧ reducing.readyUpdates ≤ reducing.update.submitted) ∧
    (∀ c ∈ [1, 3, 0, 3], c = 0 ∨ c = 1 ∨ c = 3) := by
  decide +kernel

theorem witness_votes : [1, 3, 0, 3].Perm [3, 3, 1, 0] := by decide

/-- A stage that the Inflector can start an update of, its present COMMIT `c`. -/
def ready0 (c : Nat) : Stage := { stage0 with
  image := imaged, tenses := [{ present3 with commit := c }, {}], rule := some ⟨[0], 0, false, 0xD⟩
  update := { reduced := some ⟨1, false, []⟩ } }
/-- Its Inflector is idle. -/
def readied (c : Nat) : State := on (ready0 c) [(225, { ready := [0] })]
/-- A COMMIT whose gather is complete, with this verdict. -/
def final0 (skip : Bool) : Stage := { tensed [{ building4 with shards := 1 }] with
  committing := some (some 3), takes := 1, update := { building := some 1, verdict := some skip } }

/-- A rule waits for COMMIT `n`. -/
def loading3 (n : Nat) : State :=
  on { ready0 3 with loads := [⟨n, some (⟨[0], 0, false, 0xD⟩, []), []⟩] } [(225, { ready := [0] })]

theorem witness_UpdateRun :
    (∀ c ∈ [3, 0xFFFFFFFF], ((readied c).eng 225).stat = .idle ∧ (readied c).nextUpdate 225 = some 0 ∧
      ((readied c).stage 0).findTense (fun t => t.state == 0) = some 1 ∧ ((readied c).stage 0).presentCommit = c ∧
      (readied c).badAmong ((((readied c).stage 0).plainParts 1).map fun x => (2 ^ 40 + 0x40000 + x.1, x.2)) = none) ∧
    (∀ n ∈ [3, 4], let s := loading3 n; s.nextUpdate 225 = some 0 ∧ (s.eng 225).stat = .idle ∧
      (s.stage 0).findTense (fun t => t.state == 0) = some 1 ∧ (s.stage 0).presentCommit = 3 ∧
      (n = 4 → ∀ x ∈ (s.stage 0).loads, 3 < x.commit) ∧
      (n = 3 → ∃ x ∈ (s.stage 0).loads, x.commit ≤ 3 ∧ x.rule.isSome = true)) ∧
    (∀ b ∈ [true, false], (final0 b).committing = some (some 3) ∧ (final0 b).update.building = some 1 ∧
      (final0 b).verdictOf 1 = some b ∧ (final0 b).live = true ∧
      (∃ x ∈ (final0 b).tenses, x.state = 1 ∧ x.shards = 1) ∧ 1 * (final0 b).u + (final0 b).lag ≤ (final0 b).takes ∧
      (final0 b).pauseAt = 0 ∧ (on (final0 b) []).checking = false ∧ (on (final0 b) []).chip.parserHeld = false) ∧
    ({ agreeD := 0 } : Job).agreeD = 0 := by
  decide +kernel

/-! ### Witnesses: Conjunction -/

/-- A frame header of this type with JOB 5, SEQ 0 and these further fields. -/
def hd (t : Nat) (xs : List (Nat × Nat)) : BitVec 256 := BitVec.ofNat 256 (fields ((0, t) :: (128, 5) :: xs))
/-- Port 0 is `q` and the job has number 5. -/
def ported (q : Port) (s : State) : State := { s with ports := [(0, q)], job := { s.job with state := 1, id := 5 } }

/-- The port of a stage's predecessor, at its first frame. -/
def upPort : Port := { state := 2, role := 1 }

theorem witness_FrameChecks :
    (∀ x ∈ frameRows, ∃ t ∈ x.1, t = hType (sealed (hd t []) []).header) ∧ ((ported {} {}).port 0).state ≠ 2 ∧
    (((ported upPort {}).port 0).state = 2 ∧ (∃ f : Frame, hType f.header = 1 ∧ frameCrc f.header f.payload ≠ hCrc f.header) ∧
      frameCrc (sealed (hd 1 [(160, 9)]) []).header [] = hCrc (sealed (hd 1 [(160, 9)]) []).header ∧
      sequenced 1 = true ∧ hSeq (sealed (hd 1 [(160, 9)]) []).header ≠ upPort.expected ∧
      hSeq (sealed (hd 1 []) []).header = upPort.expected ∧
      hJob (sealed (hd 1 []) []).header ≠ (inJob { id := 6 } (ported upPort {})).portJob 0) := by
  simp only [crc_sealed, hType_sealed, hSeq_sealed, hJob_sealed]
  refine ⟨by decide +kernel, by decide +kernel, by decide +kernel, ?_, trivial, by decide +kernel, by decide +kernel,
    by decide +kernel, by decide +kernel⟩
  rcases Nat.decEq (frameCrc (hd 1 []) []) 0 with h | h
  · exact ⟨⟨setHeader (hd 1 []) 255 224 0, []⟩, by decide +kernel, by rw [frameCrc_setCrc, hCrc_setCrc]; exact h⟩
  · exact ⟨⟨setHeader (hd 1 []) 255 224 1, []⟩, by decide +kernel, by rw [frameCrc_setCrc, hCrc_setCrc, h]; decide⟩

/-- A frame that waits for acknowledgement, sent again this many times. -/
def tx (resends seq : Nat) : TxFrame := ⟨BitVec.ofNat 256 (fields [(0, 2), (160, seq)]), none, [], 16, resends⟩
/-- A STAGE_UP port in UP with two such frames. -/
def up (resends : Nat) : Port := { state := 2, role := 1, unacked := [tx resends 3, tx resends 4] }
/-- A CREDIT entry of stage 8's forward stream. -/
def creditPayload : List Byte := leBytes 16 (fields [(0, 8), (32, 1), (64, 2), (96, 3)])

theorem witness_LinkFrames :
    sequenced (hType (sealed (hd 2 []) []).header) = true ∧
    (up 0).unacked = [] ++ tx 0 3 :: [tx 0 4] ∧ hSeq (tx 0 3).header = hAck (sealed (hd 3 [(192, 3)]) []).header ∧
    (∀ u ∈ (up 0).unacked, hSeq u.header ≠ hAck (sealed (hd 3 [(192, 9)]) []).header) ∧
    FrameOk 0 (sealed (hd 3 [(192, 3)]) []) (ported (up 0) {}) ∧
    (FrameOk 0 (sealed (hd 4 [(192, 4)]) []) (ported (up 0) {}) ∧
      ((linkIn 0 (sealed (hd 4 [(192, 4)]) []) (ported (up 0) {})).port 0).unacked = []) ∧
    (∀ n ∈ [0, 15, 16], FrameOk 0 (sealed (hd 4 [(192, 9)]) []) (ported (up n) {}) ∧
      ((linkIn 0 (sealed (hd 4 [(192, 9)]) []) (ported (up n) {})).port 0).resends = n ∧
      ((linkIn 0 (sealed (hd 4 [(192, 9)]) []) (ported (up n) {})).port 0).unacked = [tx n 3, tx n 4]) ∧
    (∀ u ∈ (up 0).unacked, u.src = none) ∧
    (FrameOk 0 (sealed (hd 10 [(16, 1)]) creditPayload) (ported (up 0) {}) ∧
      hPlen (sealed (hd 10 [(16, 1)]) creditPayload).header = 1 ∧ bits (leNat (creditPayload.take 16)) 19 16 ≤ 1) := by
  simp only [frameOk_sealed_iff, hType_sealed, hAck_sealed, hPlen_sealed, 
    linkIn_sealed]
  decide +kernel

/-- Stage 7 with `n` Clauses delivered. -/
def receiving (n : Nat) : State := ported upPort (on { queued0 with forwardIn := { delivered := n } } [])
/-- A CLAUSE frame that carries a Clause of this SEQ. -/
def clauseFrameOf (seq : Nat) : Frame := sealed (hd 2 [(16, 4), (48, 7)]) (leBytes 64 (setClause clauseV 127 96 seq).toNat)

theorem witness_StageFrames :
    (receiving 1).findStage 7 = some 0 ∧ upPort.role = 1 ∧
    (let f := sealed (hd 1 [(9, 1), (16, 2), (48, 7), (64, 1), (96, 4)]) [1, 2];
      FrameOk 0 f (receiving 1) ∧ hType f.header = 1 ∧ hStage f.header = 7 ∧ below (hTag f.header) 1 = false ∧
        16 * hOffset f.header + 16 * hPlen f.header ≤ queued0.slotLen false ∧
        (receiving 1).absent ((queued0.slotAddr false 1 + 64) / 2 ^ 40) = false) ∧
    (let f := sealed (hd 1 [(9, 1), (16, 2), (48, 7)]) [1, 2];
      FrameOk 0 f (receiving 1) ∧ below (hTag f.header) 1 = true) ∧
    (∀ n ∈ [0, 1, 2], FrameOk 0 (clauseFrameOf n) (receiving 1) ∧ hType (clauseFrameOf n).header = 2 ∧
      hStage (clauseFrameOf n).header = 7 ∧ clauseSeq (BitVec.ofNat 512 (leNat ((clauseFrameOf n).payload.take 64))) = n) ∧
    (below 0 1 = true ∧ below 1 1 = false ∧ below 2 1 = false) ∧
    (let f := sealed (hd 1 [(9, 1), (16, 2), (48, 7), (64, 1), (96, 255)]) [1, 2];
      FrameOk 0 f (receiving 1) ∧ below (hTag f.header) 1 = false ∧
        queued0.slotLen false < 16 * hOffset f.header + 16 * hPlen f.header) ∧
    (let f := sealed (hd 2 [(16, 4), (48, 7)]) (leBytes 64 (setClause (setClause clauseV 127 96 1) 215 192 17).toNat);
      FrameOk 0 f (receiving 1) ∧ clauseSeq (BitVec.ofNat 512 (leNat (f.payload.take 64))) = 1 ∧
        queued0.slotLen false < clauseLen (BitVec.ofNat 512 (leNat (f.payload.take 64))) * 256) ∧
    clauseLen clauseV * 256 ≤ queued0.slotLen false ∧
    (receiving 1).absent (queued0.slotAddr false 1 / 2 ^ 40) = false ∧ queued0.loaded = true ∧ queued0.haltCode = 0 := by
  simp only [clauseFrameOf]
  simp only [frameOk_sealed_iff, hType_sealed, hPlen_sealed, hStage_sealed, hTag_sealed, hOffset_sealed,
    sealed_payload]
  decide +kernel

theorem witness_ClauseArrival :
    (FrameOk 0 (clauseFrameOf 1) (receiving 1) ∧ ((receiving 1).port 0).role = 1 ∧ hType (clauseFrameOf 1).header = 2 ∧
      (receiving 1).findStage (hStage (clauseFrameOf 1).header) = some 0 ∧
      clauseSeq (BitVec.ofNat 512 (leNat ((clauseFrameOf 1).payload.take 64))) = 1 ∧ hSub (clauseFrameOf 1).header = 0) ∧
    (((receiving 1).stage 0).inQ false).delivered % 2 ^ 32 = 1 ∧ (((receiving 1).stage 0).inQ false).refused ≠ some 1 ∧
    clauseLen (setClause clauseV 127 96 1) * 256 ≤ ((receiving 1).stage 0).slotLen false ∧
    (receiving 1).deliveryDie ((receiving 1).stage 0) (((receiving 1).stage 0).slotAddr false 1) = none ∧
    (let f := sealed (hd 2 [(16, 4), (48, 9)]) [];
      FrameOk 0 f (receiving 1) ∧ hType f.header = 2 ∧ (receiving 1).findStage (hStage f.header) = none) := by
  simp only [clauseFrameOf]
  simp only [frameOk_sealed_iff, hType_sealed, hSub_sealed, hStage_sealed, sealed_payload]
  decide +kernel

/-- A COLLECTIVE port and a stage `g` in a job of two modules. -/
def collective (g : Stage) : State := ported { state := 2, role := 3 } (inJob job2 (on g []))

theorem witness_CollectiveFrames :
    (∀ x ∈ [(8, 1, 1, 0), (8, 0, 1, 0), (1, 64, 1, 0), (7, 1, 4, 0), (6, 1, 3, 0), (6, 1, 9, 0), (9, 0, 0, 0),
            (8, 1, 1, 1), (6, 1, 3, 1), (7, 1, 4, 1), (9, 0, 0, 1), (1, 64, 1, 1)],
      FrameOk 0 (sealed (hd x.1 [(16, 1), (24, x.2.1), (32, x.2.2.2), (40, 1), (48, 7), (64, x.2.2.1)]) [1])
        (collective (tensed [building4])) ∧
      hDst (sealed (hd x.1 [(16, 1), (24, x.2.1), (32, x.2.2.2), (40, 1), (48, 7), (64, x.2.2.1)]) [1]).header = x.2.2.2 ∧
      hLast (sealed (hd x.1 [(16, 1), (24, x.2.1), (32, x.2.2.2), (40, 1), (48, 7), (64, x.2.2.1)]) [1]).header = false) ∧
    (collective (tensed [building4])).job.rank = 0 ∧ (collective (tensed [building4])).findStage 7 = some 0 ∧
    (tensed [building4]).update.done < 1 ∧ (tensed [building4]).update.gmaxVals = [] ∧
    (tensed [building4]).update.reductions < 1 ∧ (tensed [building4]).update.contributions = [] ∧
    (∃ x ∈ (tensed [building4]).tenses, x.state = 1 ∧ x.commit = 4) ∧ (tensed [building4]).update.verified = [] ∧
    (tensed [building4]).loaded = true ∧ (tensed [building4]).haltCode = 0 ∧
    (∀ x ∈ (tensed [building4]).tenses, 1 ≤ x.state → x.state ≤ 5 → x.commit ≠ 9) ∧
    ((tensed [building4]).tenses.find? fun t => decide (1 ≤ t.state ∧ t.state ≤ 5) && t.commit == 3) = some present3 ∧
    (collective (tensed [building4])).badAmong ((tensed [building4]).sourceRanges present3) = none ∧
    (recordOf [1]).d ≠ (collective (tensed [building4])).job.agreeD ∧
    (collective (tensed [building4])).chip.parserHeld = false := by
  simp only [frameOk_sealed_iff, 
    hDst_sealed, hLast_sealed]
  decide +kernel

/-- A HELLO of a module with this serial number, role and job. -/
def helloFrameOf (serial role job : Nat) : Frame :=
  sealed (hd 5 []) (leBytes 8 serial ++ leBytes 4 job ++ [0, BitVec.ofNat 8 role, 1, 1, 0, 0, 0, 0] ++ leBytes 4 0)
/-- A JOINING collective port. -/
def joining (sent : Bool) : State := ported { state := 1, role := 3, helloSent := sent } {}

theorem witness_Joining :
    (∀ f ∈ [helloFrameOf 9 3 5, helloFrameOf 9 3 6], hType f.header = 5 ∧ frameCrc f.header f.payload = hCrc f.header ∧
      protoBad 3 f.header = false) ∧
    joinReason (joining false) 0 (helloOf (helloFrameOf 9 3 6).payload) = some 2 ∧
    (∃ x : Hello, x.role = 5 ∧ x.serial = 9 ∧ ∀ b, joinReason (ported { state := 1, role := 4, helloSent := b } {}) 0 x = none) ∧
    (let s := ported { state := 2, role := 1, partnerSerial := 4 } (on queued0 []);
      (helloOf (helloFrameOf 9 3 5).payload).serial ≠ (s.port 0).partnerSerial.toNat ∧ s.servedBy 1 = [0] ∧
      (s.stage 0).haltCode = 0) ∧
    (let s := ported { state := 2, role := 1, partnerSerial := 9 } (on queued0 []);
      (helloOf (helloFrameOf 9 3 5).payload).serial = (s.port 0).partnerSerial.toNat ∧
      (helloOf (helloFrameOf 9 3 5).payload).job = s.job.id.toNat ∧ protoBad 1 (helloFrameOf 9 3 5).header = false) ∧
    ((joining false).port 0).helloOk = false ∧
    ((ported { state := 1, role := 3, helloOk := true } {}).port 0).helloOk = true := by
  simp only [helloFrameOf, hType_sealed, protoBad_sealed, sealed_payload, List.forall_mem_cons, crc_sealed]
  refine ⟨by decide +kernel, by decide +kernel, ⟨⟨9, 0, 0, 5, 0, 0, 0, 0, []⟩, rfl, rfl, ?_⟩, by decide +kernel,
    by decide +kernel, by decide +kernel⟩
  intro b; cases b <;> decide +kernel

/-- A message of stage 0 that its port has begun to send. -/
def startedMsg : OutMsg := ⟨0, 2, 0, 8, 0, 0, 0, none, [], 0, 0, some clauseV, 0, true, false, none⟩

theorem witness_LinkAndClauseTimers :
    (∀ n ∈ [0, 15], ((ported (up n) {}).port 0).state = 2 ∧ (up n).unacked ≠ [] ∧ (up n).resends < 16 ∧
      ∀ u ∈ (up n).unacked, u.src = none) ∧ 16 ≤ (up 16).resends ∧ 0 < (up 1).resends ∧
    (∀ n ∈ [0, 1, 2], let q : Port := { state := 3, role := 3, attempts := n };
      q.state = 3 ∧ q.unacked = [] ∧ (q.attempts + 1 < 3 ↔ n ≠ 2)) ∧
    (let s := ported { state := 3, role := 3, attempts := 2 } (on stage0 []);
      (s.stage 0).loaded = true ∧ (s.stage 0).haltCode = 0) ∧
    (let s := ported { upPort with out := [startedMsg], sinceAck := 1 } (on queued0 []);
      (s.port 0).state = 2 ∧ (s.port 0).out[0]? = some startedMsg ∧ startedMsg.started = true ∧ startedMsg.cls ≤ 3 ∧
      startedMsg.owner < 16 ∧ (s.stage startedMsg.owner).live = true ∧ s.creditEntries 0 ≠ []) ∧
    (let g : Stage := { queued0 with forwardOut := { reserved := 1 } };
      g.live = true ∧ 0 < (g.outQ false).reserved ∧
      (∃ i, i < 8 ∧ ((ported { state := 3, role := 1 } (on g [])).port i).state = 3 ∧
        ((ported { state := 3, role := 1 } (on g [])).port i).role ≠ 0) ∧
      ∀ i, i < 8 → ((on g []).port i).state = 3 → ((on g []).port i).role = 0) := by
  refine ⟨by decide +kernel, by decide +kernel, by decide +kernel, by decide +kernel, by decide +kernel,
    by decide +kernel, by decide +kernel, by decide +kernel, ⟨0, by decide +kernel⟩, by decide +kernel⟩


/-! ### Witnesses: Phrases, dies, guests, ingest -/

/-- Dies 1 to 5 present, bundle plans of the hub and die 1, in full service. -/
def planned (ps : Store Phrase) (up : Chip → Chip) : State :=
  { chip := up { bringup := 5, service := 2, planInForce := true, lanePlan := [BitVec.ofNat 64 (fields
      [(4, 1), (8, 8), (16, 8), (24, 16), (32, 32)])] }, phrases := ps }
/-- One direction of Phrase 0 from die 1 to the hub. -/
def phrase1 (p : Phrase) : State := planned [(phraseKey 1 0 0, p)] id

theorem witness_phrasePlan : (planned [] id).chip.lanePlan.map planDies = [(0, 1)] ∧
    ((planned [] id).upPhrases 1 0 0) ≠ [] := by decide +kernel

/-- A write of 64 bytes into the hub's transfer SRAM, on a MEM Phrase of die 1. -/
def write64 : List Byte := List.replicate 64 5
/-- The CRCs of its groups. -/
def crcs64 : List (BitVec 24) := (chunksOf 8 3 (messageFlits 0 write64)).map fun g => BitVec.ofNat 24 (groupCrc g)
/-- The MEM channel of die 1 holds these messages; Phrase 8 is `p`. -/
def channel1 (p : Phrase) (ms : List PhraseMsg) : State :=
  { planned [(phraseKey 1 0 8, p)] id with inFlight := [(phraseKey 1 0 1, ms)] }
/-- A message of one byte that Phrase 8 has sent, whose last group is this one. -/
def sentMsg (last : Byte) : PhraseMsg := ⟨true, 8, last, true, false, 0x200, [1]⟩

theorem witness_PhraseLayer_messages :
    messageOk 0 write64 crcs64 = true ∧ messageOk 0 write64 [] = false ∧ write64.length = 64 ∧ roleCarries 1 1 0x100 = true ∧
    (0x100 : Nat) / 2 ^ 40 = 0 ∧ regionOf 0x100 ≠ .reserved ∧
    (∀ ms ∈ [[], [sentMsg 0]], let s := channel1 {} ms;
      s.phraseLive 1 0 8 = true ∧ s.upPhrases 1 0 1 ≠ [] ∧ s.turn 1 0 1 = 8 ∧ sget [] s.inFlight (phraseKey 1 0 1) = ms ∧
      (∀ x ∈ ms, x.sent = true ∧ x.accepted = false) ∧ (s.phrase 1 0 8).takes (1 + cdiv 64 32) = true ∧
      s.badPart 0x100 64 = none) ∧
    (let s := channel1 { group := 1 } [sentMsg 0];
      s.phraseLive 1 0 8 = true ∧ (s.phrase 1 0 8).state = 0 ∧ (s.bundlePlan 1 0).map (phraseRole · 8) = some 1 ∧
      ((sentMsg 0).last - (s.phrase 1 0 8).acked).toNat ≤ ((0 : Byte) - (s.phrase 1 0 8).acked).toNat ∧
      ((0 : Byte) - (s.phrase 1 0 8).acked).toNat ≤ (s.phrase 1 0 8).outstanding ∧ s.badPart 0x200 1 = none ∧
      (0x200 : Nat) / 2 ^ 40 = 0 ∧ regionOf 0x200 ≠ .reserved) ∧
    (let s := channel1 { state := 1, group := 1 } [sentMsg 0];
      s.phraseLive 1 0 8 = true ∧ (s.phrase 1 0 8).state = 1 ∧ (s.bundlePlan 1 0).map (phraseRole · 8) = some 1) := by
  decide +kernel

/-- A flow control word that acknowledges group `ack`, with this NAK bit. -/
def flowWord (ack nak : Nat) : W32 :=
  BitVec.ofNat 32 (fields [(0, 9), (15, nak), (16, ack), (24, crc8 (fields [(0, 9), (15, nak), (16, ack)]) 24 0)])

theorem witness_PhraseLayer :
    (∀ x ∈ [(1, 0), (255, 1)], let p := (phrase1 { group := 2, acked := 255 }).phrase 1 0 0
      let word := flowWord x.1 x.2
      (phrase1 { group := 2, acked := 255 }).phraseLive 1 0 0 = true ∧ (phrase1 { group := 2, acked := 255 }).inFlight = [] ∧
      p.state = 0 ∧ p.failed = false ∧ p.outstanding ≠ 0 ∧ crc8 (word.toNat % 2 ^ 24) 24 0 = bits word.toNat 31 24 ∧
      bitAt word.toNat 14 = false ∧ bitAt word.toNat 15 = (x.2 == 1) ∧
      (BitVec.ofNat 8 (bits word.toNat 23 16) = p.acked ↔ x.2 = 1) ∧
      (BitVec.ofNat 8 (bits word.toNat 23 16) - p.acked).toNat ≤ p.outstanding ∧
      (BitVec.ofNat 8 (bits word.toNat 23 16) - p.acked).toNat ≤ 64) ∧
    ((phrase1 { state := 3 }).phrase 1 0 0).state = 3 ∧
    (((phrase1 { fails := 8 }).phrase 1 0 0).state = 0 ∧ 8 ≤ ((phrase1 { fails := 8 }).phrase 1 0 0).fails) ∧
    (∀ n ∈ [0, 1, 2], ((phrase1 { state := 1, attempts := n }).phrase 1 0 0).state = 1 ∧
      ((phrase1 { state := 1, attempts := n }).phrase 1 0 0).attempts = n ∧ (phrase1 { state := 1, attempts := n }).inFlight = []) := by
  decide +kernel

/-- Die `d` is lost. -/
def lostDie (d : Nat) : State := planned [] fun c => { c with lost := 1#8 <<< d }

theorem witness_answerOk : answerOk (lostDie 5) ⟨5, Config.siteType 5, Config.siteSerial 5, 0⟩ = true ∧
    answerOk (lostDie 1) ⟨1, Config.siteType 1, Config.siteSerial 1, 0⟩ = false := by
  refine ⟨by simp [answerOk, show ((5 : Fin 8) : Nat) = 5 from rfl], ?_⟩
  simp only [answerOk, Config.fusedGrade]
  have h : ((0 : Byte).toNat == 56 + 4 * Config.gradeCode.val) = false := by simp; omega
  rw [h]
  simp

theorem witness_DieLossAndReturn :
    (3 ≤ (planned [] id).chip.bringup ∧ (∀ d ∈ [1, 5], (planned [] id).chip.lost.getLsbD d = false)) ∧
    ((planned [] id).stage 0 = {} ∧ (on stage0 []).stage 0 = stage0 ∧ stage0.image.die = 1 ∧ stage0.haltCode = 0) ∧
    (∀ d ∈ [1, 5], 3 ≤ (lostDie d).chip.bringup ∧ (lostDie d).chip.lost.getLsbD d = true) ∧
    (lostDie 1).chip.outOfService = false := by
  decide +kernel

/-- An Apposition header of this class and SEQ 0 with these further fields. -/
def ah (cls : Nat) (xs : List (Nat × Nat)) : BitVec 512 := BitVec.ofNat 512 (fields ((0, cls) :: xs))
/-- Port 0 is `a`; its firewall admits reads, writes and events in the first MiB of HBM of die 1. -/
def guested (a : Appo) : State :=
  { appo := [(0, a)], chip := { bringup := 5, service := 2 }
    host := { firewalls := [(0, { ctrl := 1, cls := 0xF, windows := [(0, BitVec.ofNat 64 (2 ^ 40)), (1, 0x100000), (2, 7)] })] } }
/-- A port in UP. -/
def upAp : Appo := { state := 3, identOk := true, rate := 1 }

/-- One data beat. -/
def beat : List Byte := List.replicate 64 5

/-- A sealed message of this class, to an address that the firewall admits or not, passes every check but the firewall's. -/
theorem witness_guestMessages :
    (∀ a ∈ [2 ^ 40, 2 ^ 41], let m := aSealed (ah 1 [(40, 2), (80, a)]) [];
      appoCrc m.header m.data = aCrc m.header ∧ aSeq m.header = upAp.rxSeq ∧ aBad m = false ∧ aClass m.header = 1 ∧
      aLen m.header = 2 ∧ aAddr m.header = a) ∧
    (∀ a ∈ [2 ^ 40, 2 ^ 41], let m := aSealed (ah 2 [(40, 1), (80, a)]) beat;
      appoCrc m.header m.data = aCrc m.header ∧ aSeq m.header = upAp.rxSeq ∧ aBad m = false ∧ aClass m.header = 2 ∧
      aAddr m.header = a) ∧
    (let m := aSealed (ah 6 [(40, 1)]) beat;
      appoCrc m.header m.data = aCrc m.header ∧ aSeq m.header = upAp.rxSeq ∧ aBad m = false ∧ aClass m.header = 6) := by
  simp only [aSealed_data, crc_aSealed, aSeq_sealed, aBad_sealed, aClass_sealed, aLen_sealed, aAddr_sealed]
  decide +kernel

theorem witness_GuestAndFirewall :
    (((guested upAp).ap 0).state = 3 ∧ upAp.sinceAck + 1 < 64 ∧ upAp.events < 999) ∧
    (judge (guested upAp) 0 false (2 ^ 40) 128 = 0 ∧ (guested upAp).badIn (2 ^ 40) 128 = none) ∧
    judge (guested upAp) 0 false (2 ^ 41) 128 = 1 ∧ judge (guested upAp) 0 true (2 ^ 40) beat.length = 0 ∧
    judge (guested upAp) 0 true (2 ^ 41) beat.length = 1 ∧ ((guested upAp).fw 0).ctrl.getLsbD 0 = true ∧
    ((guested upAp).fw 0).cls.getLsbD 3 = true ∧ (guested upAp).chip.parserHeld = false ∧
    ((on stage0 []).fw 0).ctrl.getLsbD 0 = false := by
  decide +kernel

/-- A port with two messages unacknowledged. -/
def sentAp (st attempts fails : Nat) : Appo :=
  { state := st, attempts := attempts, fails := fails, txSeq := 2, unacked := [(ah 1 [], []), (ah 1 [(64, 1)], [])] }
/-- Reads and writes that wait for their answers. -/
def waitingAp : Appo := { upAp with requests := [⟨4, true, 6 * 2 ^ 40, 0, 64, 0⟩, ⟨5, false, 6 * 2 ^ 40, 2 ^ 40, 64, 128⟩] }
/-- A transfer from a guest window that has sent its request. -/
def dmaGuest : DmaReq := ⟨6 * 2 ^ 40, 2 ^ 40, 64, 1, 1, false⟩

theorem witness_AppositionLink :
    (((guested (sentAp 3 0 0)).ap 0).state = 3 ∧ (sentAp 3 0 0).out = [] ∧
      (∀ c ∈ [7, 8], appoCrc (aSealed (ah c [(64, 1)]) []).header [] = aCrc (aSealed (ah c [(64, 1)]) []).header ∧
        aBad (aSealed (ah c [(64, 1)]) []) = false ∧ aClass (aSealed (ah c [(64, 1)]) []).header = c) ∧
      (sentAp 3 0 0).names (aSeq (aSealed (ah 8 [(64, 1)]) []).header + 1) = true ∧
      (sentAp 3 0 0).names (aSeq (aSealed (ah 7 [(64, 1)]) []).header) = true) ∧
    (appoCrc (aSealed (ah 4 [(48, 4)]) []).header [] = aCrc (aSealed (ah 4 [(48, 4)]) []).header ∧
      aSeq (aSealed (ah 4 [(48, 4)]) []).header = waitingAp.rxSeq ∧ aBad (aSealed (ah 4 [(48, 4)]) []) = false ∧
      waitingAp.sinceAck + 1 < 64 ∧ aClass (aSealed (ah 4 [(48, 4)]) []).header = 4) ∧
    (let d := List.replicate 64 (5 : Byte); let h := ah 3 [(40, 1), (48, 5)];
      appoCrc (aSealed h d).header d = aCrc (aSealed h d).header ∧ aBad (aSealed h d) = false ∧
      aClass (aSealed h d).header = 3 ∧ aStatus (aSealed h d).header = 0 ∧
      (waitingAp.requests.find? fun r => r.tag == aTag (aSealed h d).header && !r.write) =
        some ⟨5, false, 6 * 2 ^ 40, 2 ^ 40, 64, 128⟩ ∧
      (on stage0 [(128, { dmaQ := [dmaGuest] })]).awaits ⟨5, false, 6 * 2 ^ 40, 2 ^ 40, 64, 128⟩ = true ∧
      (on stage0 [(128, { dmaQ := [dmaGuest] })]).badPart (2 ^ 40) 64 = none ∧ isGuest (2 ^ 40) = false) ∧
    (16 ≤ (sentAp 3 0 16).fails ∧ (sentAp 3 0 16).retrained = false ∧ (sentAp 3 0 16).attempts = 0) ∧
    ((sentAp 2 2 0).state = 2 ∧ 2 ≤ (sentAp 2 2 0).attempts ∧ 2 ≤ (sentAp 3 0 0).state) ∧
    (let s := on stage0 [(128, { dmaQ := [dmaGuest] })];
      (s.eng 128).askedGuest = true ∧ s.stageOf 128 = some 0 ∧ (s.stage 0).loaded = true ∧ (s.eng 0).askedGuest = false) ∧
    (((guested { state := 1 }).ap 0).state = 1 ∧ (1 : BitVec 2) ≠ 0) := by
  simp only [crc_aSealed, aSeq_sealed, aBad_sealed, aClass_sealed, aStatus_sealed, aTag_sealed]
  decide +kernel

theorem witness_guestUp : ∃ x : W64, x ≠ Config.guestId 6 := by
  rcases Decidable.em ((0 : W64) = Config.guestId 6) with h | h
  · exact ⟨1, by rw [← h]; decide⟩
  · exact ⟨0, h⟩

theorem witness_ClipOrder : (4 < 5 ∧ 3 < 5) ∧ ({} : Ingest).params.w = 1024 ∧
    (4 < ({ params := { n := 5 } } : Ingest).params.n ∧ 1 ≤ ({ params := { n := 5 } } : Ingest).params.w) := by decide

/-- Namespace 3 behind storage port 2. -/
def ns3 : IngestNs := ⟨3, false, 2, 1, 0⟩
/-- An open ingest die with `n` clips in a micro-batch of one. -/
def open0 (f : Ingest → Ingest) : State :=
  { chip := { bringup := 5, service := 2 }, job := { state := 2, id := 5 }
    ingest := f { isOpen := true, params := { n := 8, c := 1, w := 4, namespaces := [ns3] } } }
/-- A stage at position 0 that runs, with four receive slots. -/
def first0 : Stage := { granted0 with
  image := { granted0.image with position := 0, block := blockOf [(64, 1), (96, 0xFFFF), (112, 8), (128, 2 ^ 40), (176, 4),
    (192, 4096)] } }
/-- A clip that has been dropped waits in its slot. -/
def dropped : ReservoirSlot := ⟨0, 0, 1, 1, 0, 0x3F800000⟩

theorem witness_Ingest :
    (∀ n ∈ [0, 2, 3], let s := open0 fun g => { g with retries := [(0, n)] };
      s.ingestUp = true ∧ s.ingest.offline.contains 3 = false ∧ s.reads 0 = true ∧ s.ingest.ns 3 = some ns3 ∧
      sget 0 s.ingest.retries 0 = n) ∧
    (let s := open0 id;
      s.ingestUp = true ∧ s.ingest.awaitPosition = false ∧ s.job.state ≠ 0 ∧ s.localOf 0 = some 0 ∧ s.ingest.placed ≤ 0 ∧
      0 * s.ingest.params.c + 0 % s.ingest.params.c < s.ingest.placed * s.ingest.params.c + s.ingest.params.w ∧
      s.ingest.ended 0 = false ∧ s.ingest.slots.length < s.ingest.params.w ∧ s.ingest.offline = [] ∧
      s.offloadWaits = false ∧ (s.descOf 5 0).getLsbD 0 = false) ∧
    (let s := { open0 (fun g => { g with slots := [dropped] }) with stages := [(0, first0)] };
      s.stage0 = some 0 ∧ (s.stage 0).live = true ∧ (s.stage 0).credit false = true ∧ s.ingest.stopped = false ∧
      s.ingest.stopAt = none ∧ s.ingest.endRaised = false ∧ s.ingest.ended (s.placeOf 0 0) = false ∧
      (∀ c, c < s.ingest.params.c → s.clipReady 0 c = true) ∧ s.copyBad 0 = none ∧
      s.deliveryDie (s.stage 0) ((s.stage 0).slotAddr false 0) = none ∧ s.badAmong [queueState 0 0] = none) ∧
    ((open0 fun g => { g with rejoinPending := true }).ingest.rejoinPending = true) := by
  decide +kernel

/-- Sixteen bits, the high byte first. -/
def be (n : Nat) : List Byte := [BitVec.ofNat 8 (n / 256), BitVec.ofNat 8 n]
/-- A packet that starts the payload of a PID, stuffed with 0xFF. -/
def packetOf (pid : Nat) (payload : List Byte) : List Byte :=
  let x := [0x47, BitVec.ofNat 8 (0x40 + pid / 256), BitVec.ofNat 8 pid, 0x10] ++ payload
  x ++ List.replicate (188 - x.length) 0xFF
/-- A PSI section with its CRC, behind its pointer field. -/
def sectionOf (table n : Nat) (body : List Byte) : List Byte :=
  let x := [BitVec.ofNat 8 table] ++ be (0xB000 + body.length + 9) ++ be n ++ [0xC1, 0, 0] ++ body
  [0] ++ x ++ (leBytes 4 (crcMpeg x 0xFFFFFFFF)).reverse
/-- A program 1 with an H.264 stream on PID 33: PAT, PMT, and one PES packet with PTS 90000. -/
def stream1 : List Byte := packetOf 0 (sectionOf 0 1 (be 1 ++ be (0xE000 + 32))) ++
  packetOf 32 (sectionOf 2 1 (be (0xE000 + 33) ++ be 0xF000 ++ [0x1B] ++ be (0xE000 + 33) ++ be 0xF000)) ++
  packetOf 33 [0, 0, 1, 0xE0, 0, 0, 0x80, 0x80, 5, 0x21, 0, 5, 0xBF, 0x21, 0, 0, 1, 9]

/-- The PAT and the PMT lead to the video's PID; its PES packet has the PTS written in it. -/
theorem test_demux : (match demux (BitVec.ofNat 256 (15 * 2 ^ 40 + 14 * 2 ^ 36)) stream1 with
  | some m => m.codec == 1 && m.vpid == 33 && m.apid == 0 && m.timescale == 90000 && !m.scrambled &&
      m.video.map (·.pts) == [some 90000]
  | none => false) = true := by decide +kernel
/-- A PAT whose CRC fails is none. -/
theorem test_demux_crc : demux (BitVec.ofNat 256 (15 * 2 ^ 40)) (stream1.set 12 1) = none := by decide +kernel

/-- A valid descriptor in namespace 3 of an object of `n` bytes, its codec the stream's and no audio wanted. -/
def descIn3 (n : Nat) : BitVec 256 := BitVec.ofNat 256 (1 + 3 * 2 ^ 27 + 14 * 2 ^ 36 + 15 * 2 ^ 40 + n * 2 ^ 160)

theorem witness_Ingest_reads :
    (let s := open0 id; let d := s.descOf (s.ingest.clipOf (s.ingest.at' 0).1 (s.ingest.at' 0).2) (descIn3 564);
      d.getLsbD 0 = true ∧ descBad d = false ∧ bits d.toNat 31 27 = 3 ∧ s.ingest.pins = [] ∧ s.ingest.contextOf d = none ∧
      firstFree s.ingest.contexts 0 < contextCount) ∧
    (let s := open0 fun g => { g with pins := [(0, 0)] };
      s.ingestUp = true ∧ s.reads 0 = true ∧ ∃ y ∈ s.ingest.pins, y.1 = 0) := by
  decide +kernel

theorem witness_ClipDecoding : ∀ failed ∈ [[], [0]], let s := open0 fun g => { g with failedReads := failed }
    let g := s.ingest
    let clip := g.clipOf (g.at' 0).1 (g.at' 0).2
    let d := s.descOf clip (descIn3 564)
    s.ingestUp = true ∧ g.awaitPosition = false ∧ s.job.state ≠ 0 ∧ s.localOf 0 = some 0 ∧ g.placed ≤ 0 ∧
      0 * g.params.c + 0 % g.params.c < g.placed * g.params.c + g.params.w ∧ g.ended 0 = false ∧
      g.slots.length < g.params.w ∧ g.slots = [] ∧ g.offline = [] ∧ s.offloadWaits = false ∧ d.getLsbD 0 = true ∧ descBad d = false ∧
      (g.ns (bits d.toNat 31 27)).isSome = true ∧ ((claimContext 0 d s).ingest.pins.find? fun x => x.1 == 0) = some (0, 0) ∧
      g.failedReads.contains 0 = !failed.isEmpty ∧
      demux d (s.objectOf d []) = none ∧ (demux d (s.objectOf d stream1)).isSome = true ∧
      g.params.reservoir + (g.freeSlot + 1) * g.params.clipBytes ≤ 2 ^ 47 := by
  decide +kernel

/-! ### Witnesses: mailbox commands -/

/-- A command of host mailbox 0. -/
def cmdOf (op : Nat) (xs : List (Nat × Nat)) (payload : List Byte) : Cmd :=
  ⟨.host 0, BitVec.ofNat 512 (fields ((0, op) :: xs)), payload, false⟩
/-- Full service, a job in state `j`, and mailbox 0 with one command in its ring of 64 entries. -/
def hosted (j : Job) : State :=
  { chip := { bringup := 5, service := 2 }, job := j
    host := { mailboxes := [(0, { ctrl := 0x601, cmdTail := 1, cmdBase := 0x1000, cmpBase := 0x2000 })] } }
/-- That state with stages and engines. -/
def withStages (s : State) (gs : Store Stage) : State := { s with stages := gs }

theorem witness_CommandEntries :
    (∀ x ∈ cmdRows, ∃ op ∈ allOpcodes, op = (x.1 (cmdOf op [] []) (hosted {})).opcode ∧
      canTake { hosted {} with chip := { bringup := 1 } } (cmdOf op [] []) (x.1 (cmdOf op [] []) (hosted {})).control = false ∧
      canTake (hosted {}) (cmdOf op [(17, 1)] []) (x.1 (cmdOf op [(17, 1)] []) (hosted {})).control = true ∧
      (commonCheck (takeEntry (cmdOf op [(17, 1)] []) (hosted {})) (cmdOf op [(17, 1)] [])
        (x.1 (cmdOf op [(17, 1)] []) (hosted {}))).isSome = true) ∧
    (cmdOf 1 [] []).opcode = 1 ∧ (cmdOf 0x77 [] []).opcode = 0x77 ∧ allOpcodes.contains 0x77 = false ∧
    canTake (hosted {}) (cmdOf 0x77 [] []) true = true ∧ ((hosted {}).mailbox 0).size = 64 := by
  decide +kernel

/-! ### Witnesses: jobs, halts, images, rules, tables -/

/-- A running job. -/
def job5 (st : Nat) : Job := { state := st, id := 5 }
/-- A loaded stage 7 in virtual stage 0 of a job in state `st`. -/
def staged (st : Nat) (g : Stage) : State := withStages (hosted (job5 st)) [(0, g)]

theorem witness_Reports :
    Accepted (cmdOf 1 [(128, 64), (224, 128)] []) (devInfoSpec (cmdOf 1 [(128, 64), (224, 128)] [])) (hosted {}) ∧
    Accepted (cmdOf 1 [(16, 1), (128, 64), (224, 1152)] []) (devInfoSpec (cmdOf 1 [(16, 1), (128, 64), (224, 1152)] []))
      (hosted {}) ∧
    Accepted (cmdOf 0x42 [(128, 64), (224, 4096)] []) (ingestPositionSpec (cmdOf 0x42 [(128, 64), (224, 4096)] []) (hosted {}))
      (hosted {}) ∧ (cmdOf 0x42 [(128, 64), (224, 4096)] []).expert = false ∧
    (let c := cmdOf 0x54 [(128, 64), (224, 4096)] []; Accepted c historySpec (hosted {}) ∧ c.expert = false) ∧
    (let c := cmdOf 0x60 [(128, 64), (224, 4096), (256, 7)] [];
      Accepted c stageFlagsSpec (staged 2 stage0) ∧ (staged 2 stage0).unknownStage (c.arg 0 2) = false ∧ c.expert = false ∧
      64 * ((staged 2 stage0).named (c.arg 0 2)).length ≤ c.respLen) ∧
    (let c := cmdOf 0x61 [(128, 64), (224, 4096), (256, 7)] [];
      Accepted c numlogSpec (staged 2 stage0) ∧ (staged 2 stage0).findStage (c.arg 0 2) = some 0 ∧ c.expert = false ∧
        c.arg 0 2 ≠ 0xFFFF ∧ (staged 2 stage0).badWords = []) ∧
    (let c := cmdOf 0x61 [(128, 64), (224, 4096), (256, 0xFFFF)] [];
      Accepted c numlogSpec (staged 2 stage0) ∧ c.arg 0 2 = 0xFFFF ∧ (staged 2 stage0).loadedStages = [0] ∧ c.respLen = 4096) := by
  simp only [Accepted]; decide +kernel

/-- Where no word is bad, none is among any ranges. -/
theorem badAmong_nil (s : State) (h : s.badWords = []) (rs : List (Nat × Nat)) : s.badAmong rs = none := by
  simp [State.badAmong, State.badIn, h]

theorem witness_Reports_log : ∀ i < 4096, (staged 2 stage0).badAmong [logAddr 0 i] = none :=
  fun i _ => badAmong_nil _ rfl [logAddr 0 i]

/-- A stage with a rule that can start: it follows and precedes no other. -/
def startable : Stage := { stage0 with
  started := false, rule := some ⟨List.replicate 8 0, 0, false, 0⟩
  image := { image0 with block := blockOf [(96, 0xFFFF), (112, 0xFFFF)] } }

theorem witness_JobLife :
    (let c := cmdOf 0x10 [(256, 5)] []; Accepted c jobCreateSpec (hosted {}) ∧ (jobOf c).badField = none ∧
      (hosted {}).chip.outOfService = false) ∧
    (let c := cmdOf 0x13 [] []; let s := staged 1 startable;
      Accepted c jobStartSpec s ∧ s.loadedStages ≠ [] ∧ (∀ v ∈ s.loadedStages, s.unready v = false) ∧ s.jobRetired = false) ∧
    (∀ x ∈ [0, 1], let c := cmdOf 0x14 [(16, 1), (256, x)] [];
      Accepted c jobPauseSpec (staged 2 stage0) ∧ (if c.expert then c.arg 0 1 else 0) = x) ∧
    (staged 3 { stage0 with haltCode := 0x702 }).paused = true ∧
    (let c := cmdOf 0x15 [] []; let s := staged 4 { stage0 with haltCode := 0x702 };
      Accepted c jobResumeSpec s ∧ (∀ v ∈ s.loadedStages, (s.stage v).haltFinal = false ∧ (s.stage v).updateHalt = 0) ∧ s.job.overwritten = false ∧
      s.jobRetired = false) := by
  simp only [Accepted]; decide +kernel

theorem witness_HaltAndFence :
    (let c := cmdOf 0x16 [] []; Accepted c haltSpec (staged 2 stage0) ∧ c.expert = false ∧
      (staged 2 stage0).chip.fencing = false) ∧
    (let c := cmdOf 0x16 [(16, 1), (256, 7)] []; Accepted c haltSpec (staged 2 stage0) ∧ c.expert = true ∧
      (staged 2 stage0).findStage (c.arg 0 2) = some 0 ∧ c.arg 0 2 ≠ 0xFFFF) ∧
    State.reset.barsOn = false ∧
    ((staged 2 stage0).barsOn = true ∧ (staged 2 stage0).chip.fenceDone = false ∧ (staged 2 stage0).jobRuns = true ∧
      (hosted {}).barsOn = true ∧ (hosted {}).chip.fencing = false ∧ (hosted {}).jobRuns = false) ∧
    (let s := { staged 2 stage0 with chip := { (hosted {}).chip with fencing := true } };
      s.chip.fencing = true ∧ s.jobRuns = true ∧ s.chip.haltWaits = [] ∧ (∀ v ∈ s.loadedStages, ∀ k ∈ (s.stage v).cellKeys,
        (s.eng k).dmaQ = []) ∧ (let c := cmdOf 0x16 [] []; Accepted c haltSpec s ∧ c.expert = false)) ∧
    ({ (hosted {}).chip with fencing := true, haltWaits := [⟨.host 0, 9, 0x16⟩] }).haltWaits ≠ [] := by
  simp only [Accepted]; decide +kernel

/-- A whole image: 16 bytes of working copy, its block, queues and gradient slot in granted HBM of die 1, its own areas
outside the grants, and no parameter group. -/
def loadable (g : Nat) : StageImage := { imaged with
  grade := g, gradSlots := [2 ^ 40 + 0xA0000], grants := [⟨2 ^ 40, 0x40000, true⟩, ⟨2 ^ 40 + 0xA0000, 0x10000, true⟩]
  blockAddr := 2 ^ 40, ruleArea := 2 ^ 40 + 0xC0000
  block := blockOf [(64, 1), (96, 0xFFFF), (112, 0xFFFF), (128, 2 ^ 40 + 0x10000), (176, 4), (192, 4096), (224, 4096),
    (256, 2 ^ 40 + 0x20000), (304, 4), (384, 4), (400, 4)] }
/-- The directory entry of a section of zeros of stage 7 at byte 4096. -/
def entry7 (kind n : Nat) : List Byte :=
  leBytes 16 (fields [(0, kind), (16, 7), (64, 4096)]) ++ leBytes 16 n ++ leBytes 16 (pd [List.replicate n 0]) ++ leBytes 16 0
/-- The checkpoint's header and directory. -/
def directory7 : List Byte :=
  (leBytes 64 (fields [(0, 1), (32, 5), (72, 1), (96, 4), (160, 4144)]) ++ entry7 1 16 ++ entry7 2 0 ++ entry7 3 0 ++ entry7 4 48)
/-- It stands at 32 KiB of host memory. -/
def withSaved (s : State) : State := { s with hostMem := memWriteBytes [] 0x8000 directory7 }
/-- Does it hold a value? -/
def isOk {ε α : Type} (x : Except ε α) : Bool := match x with
  | .ok _ => true
  | .error _ => false
theorem ok_of_isOk {ε α : Type} {x : Except ε α} (h : isOk x = true) : ∃ a, x = .ok a := by
  cases x with
  | ok a => exact ⟨a, rfl⟩
  | error e => cases h

theorem grade_le (s : State) : s.grade ≤ 64 := by
  have := Config.gradeCode.isLt
  unfold State.grade Config.fusedGrade; omega

theorem witness_StageImages :
    (let c := cmdOf 0x11 [(16, 1), (64, 64), (192, 64)] [];
      Accepted c stageLoadSpec (hosted (job5 1)) ∧ c.expert = true ∧ c.arg 8 1 = 0 ∧ c.arg 0 8 = 0) ∧
    (let c := cmdOf 0x11 [(64, 64), (192, 64), (384, 0x8000), (448, 4144)] []; let s := withSaved (hosted (job5 1));
      Accepted c stageLoadSpec s ∧ c.expert = false ∧
      (∀ g ∈ [0, 100], (loadable g).groups.any declReserved = false ∧
        ∀ x ∈ blockReserved, bits (loadable g).block.toNat x.1 x.2 = 0) ∧
      s.imageOk (stageOfImage (loadable 0)) = true ∧ s.imageOk (stageOfImage { loadable 0 with blockAddr := 1 }) = false ∧
      s.absent (loadable 0).die = false ∧ c.arg 16 8 % 64 = 0 ∧ c.arg 16 8 ≠ 0 ∧ s.offloadWaits = false) := by
  simp only [Accepted]; decide +kernel

theorem witness_StageImages_grade (s : State) : (loadable 0).grade ≤ s.grade ∧ s.grade < (loadable 100).grade :=
  ⟨Nat.zero_le _, Nat.lt_of_le_of_lt (grade_le s) (by decide)⟩

theorem witness_StageImages_state : ∃ x, initialState (withSaved (hosted (job5 1))) (stageOfImage (loadable 0))
    (cmdOf 0x11 [(64, 64), (192, 64), (384, 0x8000), (448, 4144)] []) = .ok x :=
  ok_of_isOk (by decide +kernel)

/-- A curve of two knots. -/
def curve2 : List Byte := leBytes 16 2 ++ leBytes 16 0 ++ leBytes 16 1
/-- A stage with one parameter group of 256 elements, and a rule or none. -/
def grouped1 (r : Option Rule) : Stage := { loaded := true, image := { imaged with
  paramGroups := [⟨256, 0, 0, 0, 1, some (0, 0, 0, 0, curve2)⟩] }, rule := r }
/-- A rule that waits for nothing. -/
def rule0 : Rule := ⟨List.replicate 8 0, 0, false, 0xD⟩

theorem witness_RulesTablesAndBudgets :
    (let c := cmdOf 0x32 [(256, 7), (272, 1)] []; let s := staged 1 (grouped1 none);
      Accepted c (ruleLoadSpec c s) s ∧ s.badWords = [] ∧ s.unknownStage (c.arg 0 2) = false ∧ s.named (c.arg 0 2) = [0] ∧
      isOk (ruleFor c s 0) = true ∧ (s.stage 0).update.building = none ∧ (s.stage 0).loads = []) ∧
    (let c := cmdOf 0x32 [(256, 7), (272, 1)] []; let s := staged 4 { grouped1 none with update := { building := some 1 } };
      Accepted c (ruleLoadSpec c s) s ∧ isOk (ruleFor c s 0) = true) ∧
    (let s := staged 4 (grouped1 (some rule0));
      (s.stage 0).rule.isSome = true ∧ (s.stage 0).groupsNamed 0 = [0] ∧
      (s.stage 0).tableOpen 9 = true ∧ (s.stage 0).loads = [] ∧ (s.stage 0).presentCommit < 9 ∧ s.named 7 = [0] ∧ s.unknownStage 7 = false ∧
      (let c := cmdOf 0x30 [(16, 1), (64, 64), (192, 48), (256, 7), (288, 9)] curve2;
        Accepted c (tableSpec c 0x30 1040) s ∧ curveRefusal c.pay = none ∧ c.arg 4 4 = 9 ∧ c.arg 0 2 = 7 ∧ c.arg 2 2 = 0) ∧
      (let c := cmdOf 0x31 [(64, 64), (192, 2), (256, 7)] [3, 0];
        Accepted c (tableSpec c 0x31 16777216) s ∧ c.arg 0 2 = 7 ∧ c.arg 2 2 = 0 ∧
        maskRefusal s.job.z c.pay (s.stage 0) 0 = none)) ∧
    (let s := staged 1 (grouped1 none);
      (let c := cmdOf 0x20 [(128, 64), (224, 512)] []; Accepted c tenseConfigSpec s ∧ s.loadedStages = [0] ∧
        512 * (s.named 0xFFFF).length ≤ c.respLen ∧ c.expert = false ∧
        (s.stage 0).configOk (2 * (s.stage 0).pages * 4096) 0 = true) ∧
      (let c := cmdOf 0x20 [(16, 1), (128, 64), (224, 512), (256, 7), (320, 4096)] []; Accepted c tenseConfigSpec s ∧
        s.unknownStage (c.arg 0 2) = false ∧ (s.named (c.arg 0 2)).length = 1 ∧ c.expert = true ∧
        (s.stage 0).configOk (c.arg 8 8) (c.arg 16 8) = true)) := by
  simp only [Accepted]; decide +kernel

/-! ### Witnesses: checkpoints, settings, tests and history -/

theorem witness_SectionFormat : let xs : List Section := [⟨1, 7, 0, 3, [5]⟩];
    (∀ x ∈ xs, 1 ≤ x.kind ∧ x.kind ≤ 8 ∧ x.stage < 2 ^ 16 ∧ x.shard < 2 ^ 8 ∧ x.commit < 2 ^ 32) ∧ xs.length < 2 ^ 32 ∧
    (packSections 5 0 1 xs).length = 4097 := by decide +kernel

/-- A job without a stage on a module that has lost its compute dies: nothing to save. -/
def bare : State := { hosted (job5 1) with chip := { (hosted {}).chip with lost := 0x1E } }
/-- Sections that a module can install. -/
def restorable (s : State) (x : Except Nat (List Section)) : Bool := match x with
  | .ok xs => (xs.all fun x => sectionOk s x) && (s.missing xs).isNone
  | .error _ => false
theorem of_restorable {s : State} {x : Except Nat (List Section)} (h : restorable s x = true) :
    ∃ xs, x = .ok xs ∧ (∀ y ∈ xs, sectionOk s y = true) ∧ s.missing xs = none := by
  cases x with
  | error e => cases h
  | ok xs =>
    simp only [restorable, Bool.and_eq_true, List.all_eq_true, Option.isNone_iff_eq_none] at h
    exact ⟨xs, rfl, h.1, h.2⟩

/-- A loaded stage to restore, and its checkpoint. -/
def restoring7 : State := withSaved (staged 1 (stageOfImage (loadable 0)))
/-- A stage to export, with an EXPORT port in UP on port 3. -/
def exporting7 (busy : Bool) : State :=
  { staged 2 (tensed []) with
    mem := (viewing true).mem, ports := [(3, { state := 2, role := 4 })]
    job := { job5 2 with exporting := if busy then [(3, 0, 7, 3)] else [] } }

theorem witness_CheckpointRestoreExport :
    (let c := cmdOf 0x22 [(256, 64), (320, 4096)] []; let d := cmdOf 0x22 [(256, 64), (320, 64)] [];
      Accepted c checkpointSpec bare ∧ Accepted d checkpointSpec bare ∧ c.arg 0 8 % 64 = 0 ∧ c.arg 0 8 ≠ 0 ∧ c.arg 0 8 = d.arg 0 8 ∧
      bare.loadedStages = [] ∧ bare.checkpointBad = none ∧ bare.offloadWaits = false ∧
      ({ bare with job := { bare.job with offloadMib := 0 } }).offloadWaits = true ∧
      allSections bare false = [] ∧ allSections bare true = [] ∧ d.arg 8 8 < 4096 ∧ c.arg 8 8 = 4096) ∧
    (let c := cmdOf 0x23 [(256, 0x8000), (320, 4144)] [];
      Accepted c restoreSpec restoring7 ∧ c.arg 0 8 % 64 = 0 ∧ c.arg 0 8 = 0x8000 ∧ c.arg 8 8 = 4144 ∧
      restoring7.loadedStages = [0] ∧ restoring7.offloadWaits = false ∧ restoring7.absent (restoring7.stage 0).image.die = false) ∧
    (let c := cmdOf 0x21 [(256, 7)] []; let s := exporting7 false;
      Accepted c exportSpec s ∧ exportWaits c s = false ∧ s.findStage (c.arg 0 2) = some 0 ∧ c.expert = false ∧
      c.arg 0 2 ≠ 0xFFFF ∧ (s.stage 0).exported c = some present3 ∧ exportPort c s = some 3 ∧
      s.badAmong ((s.stage 0).slotRecord 0 present3.commit ++ (s.stage 0).sourceRanges present3) = none ∧
      exportBad s (s.stage 0) present3 (s.materialise (s.stage 0) present3) = false ∧
      exportWaits c (exporting7 true) = true) := by
  simp only [Accepted]; decide +kernel

theorem witness_CheckpointRestoreExport_length : (packSections 5 0 1 []).length = 4096 := by decide +kernel

theorem witness_CheckpointRestoreExport_sections : ∃ xs, unpackSections (memBytes restoring7.hostMem 0x8000 4144) = .ok xs ∧
    (∀ y ∈ xs, sectionOk restoring7 y = true) ∧ restoring7.missing xs = none := of_restorable (by decide +kernel)

/-- Namespace 0 behind storage port 0. -/
def portNs : List Byte := leBytes 16 (fields [(32, 1)])
/-- A clip table and its clips in host memory: namespace 0. -/
def hostNs : List Byte := leBytes 16 (fields [(8, 1), (64, 0x100000)])
/-- A first stage whose slot takes the basic payload, in a job in state `st` with ingest open or not. -/
def ingestOf (st : Nat) (o : Bool) : State :=
  { staged st { granted0 with image := { granted0.image with position := 0, block := blockOf [(192, 2 ^ 31)] } } with
    ingest := { isOpen := o, params := { n := 8, namespaces := [⟨0, true, 0, 0, 0x100000⟩] } } }
/-- An expert INGEST_OPEN: the defaults of the model's block, and one namespace. -/
def expertOpen : List Byte :=
  fit 96 (leBytes 4 0 ++ [4, 1024, 256, 256, 12, 24, 2, 16, 16, 12].flatMap (leBytes 2) ++ leBytes 4 0 ++ leBytes 4 1 ++
    leBytes 8 9 ++ leBytes 4 0x3F800000 ++ leBytes 4 0x3F800000 ++ leBytes 4 0x3F800000 ++ leBytes 12 0 ++
    leBytes 8 (2 ^ 40) ++ leBytes 8 (2 ^ 34)) ++ hostNs

theorem witness_Settings :
    (let c := cmdOf 0x12 [(256, 1)] []; let s := hosted (job5 1);
      Accepted c (portRoleSpec c) s ∧ c.expert = false ∧ c.len = 0 ∧ routeTable c.pay = [] ∧ s.reduced = false ∧
      (∀ p, p < 8 → (s.port p).state = 0 ∧ c.arg p 1 ≤ 4 ∧ s.portRetired p = false)) ∧
    (let c := cmdOf 0x12 [(16, 1), (64, 64), (192, 128), (256, 3), (264, 2)] (List.replicate 128 0xF3); let s := hosted (job5 1);
      Accepted c (portRoleSpec c) s ∧ c.expert = true ∧ c.len = 128 ∧ c.arg 0 1 = 3 ∧ c.arg 1 1 = 2 ∧ c.arg 2 1 = 0 ∧
      (∀ r ∈ routeTable c.pay, r < 8 ∨ 15 ≤ r)) ∧
    (let s := ingestOf 1 true; s.ingest.isOpen = true ∧
      (let c := cmdOf 0x41 [(16, 1), (256, 2), (320, 5), (448, 3)] []; Accepted c ingestEpochSpec s ∧ c.expert = true ∧
        c.arg 8 8 < s.ingest.params.n ∧ c.arg 0 8 < c.arg 24 8) ∧
      Accepted (cmdOf 0x41 [] []) ingestEpochSpec s ∧
      (let c := cmdOf 0x42 [(16, 1), (256, 2), (320, 5), (128, 64), (224, 208)] []; Accepted c (ingestPositionSpec c s) s ∧
        c.expert = true ∧ c.arg 8 8 < s.ingest.params.n)) ∧
    (let c := cmdOf 0x50 [(16, 1), (256, 4), (272, 7), (288, 1), (320, 99)] []; let s := staged 2 stage0;
      Accepted c checkFractionSpec s ∧ c.expert = true ∧ c.arg 0 1 ≤ 4 ∧ c.arg 4 1 ≤ 1 ∧ s.unknownStage (c.arg 2 2) = false) ∧
    (let c := cmdOf 0x50 [(256, 4)] []; Accepted c checkFractionSpec (staged 2 stage0) ∧ c.expert = false ∧ c.arg 0 1 ≤ 4) ∧
    (let c := cmdOf 0x51 [(256, 16)] []; Accepted c agreeSpec (hosted (job5 1)) ∧ 1 ≤ c.arg 0 4 ∧ c.arg 0 4 ≤ 65535 ∧
      c.expert = false) := by
  simp only [Accepted]; decide +kernel

theorem witness_Settings_ingestOpen : let s := ingestOf 1 false;
    (let c := cmdOf 0x40 [(64, 64), (192, 16), (384, 8)] portNs; let b := basicIngest c s;
      let p := { b with reservoir := basicArea (s.stage 0).image.die (b.w * b.clipBytes), reservoirLen := b.w * b.clipBytes };
      Accepted c ingestOpenSpec s ∧ s.stage0 = some 0 ∧ c.expert = false ∧ 16 ≤ c.len ∧ c.len % 16 = 0 ∧ c.len / 16 ≤ 32 ∧
      ingestReserved false c.pay = none ∧ s.ingest.n0 < p.n ∧ p.ok = true ∧
      p.payload ≤ (s.stage 0).finSlot ∧ p.w * p.clipBytes ≤ p.reservoirLen) ∧
    (let c := cmdOf 0x40 [(16, 1), (64, 64), (192, 112), (384, 8)] expertOpen; let p := expertIngest c;
      Accepted c ingestOpenSpec s ∧ c.expert = true ∧ 112 ≤ c.len ∧ (c.len - 96) % 16 = 0 ∧ (c.len - 96) / 16 ≤ 32 ∧
      ingestReserved true c.pay = none ∧ s.ingest.n0 < p.n ∧
      areaInHbm (s.stage 0).image.die p.reservoir p.reservoirLen = true ∧ c.payNat 0 4 ≤ 255 ∧ p.ok = true ∧ nsRefusal s p = none ∧
      p.payload ≤ (s.stage 0).finSlot ∧ p.w * p.clipBytes ≤ p.reservoirLen) := by
  simp only [Accepted]; decide +kernel

/-- Full service with these faults. -/
def faulty (f : Faults) : State := { hosted {} with faults := f }
/-- A TRANSIENT record of cell 0 of die 1. -/
def req0 : RecordReq := ⟨8192, 0, 3, 4, 1, 7, 0xFFFF, 0, 0⟩
/-- A capture of cell 0, with these digests. -/
def capture0 (h p : W128) : Capture := ⟨128, desc1, 0, 0, 0, [], h, p, false, 9, 7, false⟩
/-- What goes wrong in the repeats of home and partner, and in the arbiter's: masks on the accumulators. -/
def repeated (h p a : List W32) (f : Option (Fin 64)) : RepeatResult := ⟨h, p, a, h, p, f, false⟩
/-- The digest of the captured subtile where nothing goes wrong. -/
def clean : W128 := (capture0 0 0).digest []
/-- The vote of a repeat. -/
def voteOf (r : RepeatResult) : Option W128 :=
  majority ((capture0 0 0).digest r.home) ((capture0 0 0).digest r.partner) ((capture0 0 0).digest r.arbiter)
/-- A field test of the whole module with every test. -/
def fullTest : FieldTest := ⟨2, 0, 15, false, ⟨.host 0, 0, 0x52⟩⟩

theorem witness_TestsAndHistory :
    ((let c := cmdOf 0x52 [] []; Accepted c fieldTestSpec (hosted {}) ∧ c.expert = false) ∧
      (let c := cmdOf 0x53 [] []; Accepted c bistSpec (hosted {}) ∧ c.expert = false) ∧
      (hosted {}).scopeUnit 2 0 = true ∧ (hosted {}).chip.thermalTrip = false ∧ (hosted {}).testBusy 2 0 = false ∧
      (hosted {}).faults.test = none) ∧
    (let c := cmdOf 0x52 [(16, 1), (272, 8192), (288, 1)] []; Accepted c fieldTestSpec (hosted {}) ∧ c.expert = true ∧
      c.arg 0 1 = 0 ∧ c.arg 4 1 ≠ 0 ∧ (hosted {}).scopeUnit (c.arg 0 1) (c.arg 2 2) = true) ∧
    (let c := cmdOf 0x53 [(16, 1), (256, 1), (272, 8192), (288, 1), (296, 16)] []; Accepted c bistSpec (hosted {}) ∧
      c.expert = true ∧ c.arg 4 1 ≤ 2 ∧ 1 ≤ c.arg 5 1 ∧ c.arg 5 1 ≤ 16 ∧
      (hosted {}).scopeUnit (c.arg 0 1) (c.arg 2 2) = true) := by
  simp only [Accepted]; decide +kernel

theorem witness_TestsAndHistory_records :
    ((faulty { test := some fullTest }).faults.test = some fullTest ∧ bitAt fullTest.mask 3 = true ∧
      (faulty { test := some fullTest }).toRepeat = false ∧
      (faulty { test := some fullTest, captures := [(0, some (capture0 1 2))] }).toRepeat = true) ∧
    (let s := faulty { toWrite := [(req0, 0)] };
      s.chip.parserHeld = false ∧ s.chip.powered = true ∧ 2 ≤ s.chip.bringup ∧
      (∀ n ∈ [0, 2], let x := faultRecord req0 2 0
        let f := { s.faults with records := ringPut (List.replicate n (faultRecord req0 0 0)) x, seq := 3, toWrite := [] }
        ((f.eventWindow (f.eventUnit x)).1 = 3 ↔ n = 2) ∧ f.eventUnit x = (recUnit x, recClass x))) ∧
    (let s := faulty { captures := [(0, some (capture0 1 2))] };
      sget none s.faults.captures 0 = some (capture0 1 2) ∧ (capture0 1 2).kept = false ∧ (capture0 1 2).tried = false ∧
      s.loadedStages = [] ∧ s.badIn (captureAddr 0) (capture0 1 2).bytes.length = none) := by
  decide +kernel

/-- A result of the logic test of the hub's unit 96, its signature at first and in the repeat. -/
def logicTest (first again : W128) : TestResult := ⟨6144, 0, 0, 0, first, again⟩

theorem logicTest_reference (a b : W128) : testReference (logicTest a b) = testReference (logicTest 0 0) := rfl
theorem logicTest_names (s : State) (a b : W128) : testNames s (logicTest a b) = true := by
  simp only [testNames, logicTest]; rfl

theorem witness_TestsAndHistory_results : fullTest.holds (logicTest 0 0) = true ∧
    (∃ x, (logicTest x x).first ≠ testReference (logicTest x x)) ∧ ∃ x, (logicTest x x).first = testReference (logicTest x x) := by
  refine ⟨by decide +kernel, ?_, _, (logicTest_reference _ _).symm⟩
  rcases Decidable.em ((0 : W128) = testReference (logicTest 0 0)) with h | h
  · exact ⟨1, by rw [logicTest_reference, ← h]; decide⟩
  · exact ⟨0, h⟩

theorem witness_TestsAndHistory_votes :
    voteOf (repeated [1] [2] [4] none) = none ∧
    (voteOf (repeated [] [] [] none) = some clean ∧ (1 : W128) ≠ clean) ∧
    (let r := repeated [1] [] [] (some 0);
      voteOf r = some clean ∧ (capture0 1 clean).digest r.home ≠ clean ∧ (capture0 1 clean).digest r.homeAgain ≠ clean ∧
      r.failArray = some 0 ∧ dBase desc1 ≤ (0 : Fin 64).val ∧ (0 : Fin 64).val < dBase desc1 + dArrays desc1) ∧
    partnerOf (capture0 clean 1).engine ≠ (capture0 clean 1).engine := by
  decide +kernel

/-! ### Witnesses: the host interface, resets, bring-up, cooling -/

/-- Full service, with this host interface. -/
def host0 (h : HostIf) : State := { hosted {} with host := h }
/-- BAR2 open at the start of the HBM of die 1. -/
def window1 (cs : List Chunk) : HostIf := { bar2Base := 1024, bar2En := true, chunks := cs }
/-- A chunk of 4 bytes. -/
def chunk1 : Chunk := ⟨1, true, 2 ^ 40 + 8, 4, [1, 2, 3, 4]⟩

theorem witness_Bar2 :
    ((host0 {}).regsOn = true ∧ State.reset.regsOn = false) ∧
    ((host0 (window1 [])).barsOn = true ∧ 4 ≤ (host0 (window1 [])).chip.bringup ∧ [1, 2, 3].length ≤ 512 ∧ (8 : BitVec 36).toNat + [1, 2, 3].length ≤ 2 ^ 36 ∧
      (host0 {}).host.bar2Addr 8 = none ∧ (host0 (window1 [])).host.bar2Addr 8 = some (2 ^ 40 + 8) ∧
      (host0 (window1 [])).absent ((2 ^ 40 + 8) / 2 ^ 40) = false ∧ 2 ^ 40 + 8 < 2 ^ 47 ∧
      (host0 (window1 [])).badPart (2 ^ 40 + 8) 3 = none ∧ (host0 (window1 [])).host.chunks = []) ∧
    (let s := host0 (window1 [chunk1, chunk1]); s.host.chunks = chunk1 :: [chunk1] ∧ (∀ x ∈ chunk1 :: [chunk1], x.cls = 1) ∧
      0 < s.partition 1 ∧ s.absent (chunk1.addr / 2 ^ 40) = false ∧ chunk1.addr < 2 ^ 47 ∧ s.badPart chunk1.addr chunk1.data.length = none) := by
  decide +kernel

theorem witness_Bar2_bases : ∀ x ∈ [(2 ^ 40, true), (2 ^ 40 + 80 * 2 ^ 30, true), (2 ^ 40 + 81 * 2 ^ 30, false), (0, false),
    (5 * 2 ^ 40, false)], bar2BaseOk (BitVec.ofNat 18 (bits x.1 47 30)) = x.2 := by decide +kernel

/-- Full service, with this chip. -/
def chipped (f : Chip → Chip) : State := { hosted {} with chip := f (hosted {}).chip }

theorem witness_HostRegisters :
    (let s := host0 {}; s.regsOn = true ∧ (s.mailbox 1).enabled = false ∧
      (∀ x ∈ [4, 12], let c : W32 := BitVec.ofNat 32 (1 + x * 2 ^ 8); c.getLsbD 0 = true ∧ bits c.toNat 11 8 = x) ∧
      (s.mailbox 1).cmdBase.toNat % 4096 = 0 ∧ (s.mailbox 1).cmpBase.toNat % 4096 = 0 ∧ 3 ≤ s.chip.bringup) ∧
    (∀ x ∈ [3, 13], let c : W32 := BitVec.ofNat 32 (1 + x * 2 ^ 8); c.getLsbD 0 = true ∧
      (bits c.toNat 11 8 < 4 ∨ 12 < bits c.toNat 11 8)) ∧
    (let s := hosted {}; (0x602#32).getLsbD 0 = false ∧ (s.mailbox 0).enabled = true ∧ (63#32).toNat < (s.mailbox 0).size ∧
      (s.mailbox 0).size ≤ (64#32).toNat ∧ s.host.chunks = []) ∧
    ((host0 { firewalls := [(1, { ctrl := 2 })] }).fw 1).locked = true ∧
    (let s := host0 { mailboxes := [(3, { timer := true })] }; (s.mailbox 3).timer = true ∧ s.chip.parserHeld = false ∧
      s.host.msixOn = true ∧ s.host.msixMasked = false) ∧
    ((chipped fun c => { c with bringup := 1 }).barsOn = true ∧ (chipped fun c => { c with bringup := 1 }).regsOn = false) := by
  decide +kernel

theorem witness_Resets :
    (hosted {}).endpointOn = true ∧ (chipped fun c => { c with perst := true }).endpointOn = false ∧
    (chipped fun c => { c with refclk := false }).chip.held = true ∧ (hosted {}).chip.held = false ∧
    (hosted {}).chip.powered = true ∧ (hosted {}).host.chunks = [] ∧
    (∀ l, (chipped fun c => { c with powered := false, regulatorLatched := l }).chip.powered = false ∧
      (chipped fun c => { c with powered := false, regulatorLatched := l }).chip.regulatorLatched = l) := by
  decide +kernel

/-- A module in bring-up state `n`. -/
def at0 (n : Nat) (f : State → State) : State := f { chip := { bringup := n } }
/-- Answers that agree with the manifest; no guest site answers. -/
def agreeing : List DieAnswer := [1, 2, 3, 4, 5].map fun d : Fin 8 =>
  ⟨d, Config.siteType d.val, Config.siteSerial d.val, BitVec.ofNat 8 Config.fusedGrade⟩
/-- Die 1 answers with another type. -/
def differing : List DieAnswer := [⟨1, Config.siteType 1 + 1, 0, 0⟩]

theorem fused_lt : Config.fusedGrade < 256 := by
  have := Config.gradeCode.isLt
  unfold Config.fusedGrade; omega

theorem agreeing_answer (d : Fin 8) (h : 1 ≤ d.val) (h5 : d.val ≤ 5) : siteAnswer agreeing d.val =
    some ⟨d, Config.siteType d.val, Config.siteSerial d.val, BitVec.ofNat 8 Config.fusedGrade⟩ := by
  match d with
  | 0 => cases h
  | 1 | 2 | 3 | 4 | 5 => rfl

theorem agreeing_site (d : Fin 8) (h : 1 ≤ d.val) : siteDiff agreeing d.val = none := by
  have hf := fused_lt
  by_cases h5 : d.val ≤ 5
  · simp only [siteDiff, agreeing_answer d h h5, siteGrade]
    have : (Config.siteType d.val).toNat ≠ 0 := by
      unfold Config.siteType
      by_cases h4 : d.val ≤ 4
      · simp [h, h4]
      · simp [show d.val = 5 by omega]
    by_cases h4 : d.val ≤ 4 <;> simp [h4, h, this, show ¬ 6 ≤ d.val by omega, Nat.mod_eq_of_lt hf]
  · have : siteAnswer agreeing d.val = none := by
      match d with
      | 6 | 7 => rfl
      | 0 | 1 | 2 | 3 | 4 | 5 => exact absurd (by decide) h5
    simp [siteDiff, this, h5]

theorem witness_BootAndDiscovery_agree : manifestDiff agreeing = none := by
  simp only [manifestDiff, List.findSome?_eq_none_iff, List.mem_map, List.mem_range, Option.map_eq_none_iff]
  rintro _ ⟨d, hd, rfl⟩
  exact agreeing_site ⟨d + 1, by omega⟩ (Nat.succ_le_succ (Nat.zero_le d))

theorem witness_BootAndDiscovery_differ : ∃ x y, manifestDiff differing = some (1, x, y) := ⟨2, 3, by decide +kernel⟩

theorem witness_BootAndDiscovery :
    (at0 0 id).climbs 0 = true ∧ ((at0 1 id).climbs 1 = true ∧ (at0 1 id).chip.bootFail = false) ∧
    ((at0 2 id).climbs 2 = true ∧ (at0 2 id).chip.fwSlot ≠ 2 ∧ (at0 2 id).chip.advance = none) ∧
    (isPhrase 0x1A40 = true ∧ isDiscoverPhrase 0x1A40 = true ∧ isPhrase 0x1A41 = true ∧ isDiscoverPhrase 0x1A41 = false) := by
  decide +kernel

/-- A module in PARSER whose measurements are those of the slot it runs. -/
def measured : State := { chip := { bringup := 2 }, mgmt := { measurements := bootMeasurements (Config.slotImage 0) } }

theorem witness_BootAndDiscovery_microcode : measured.microcodeBad = none ∧ measured.climbs 2 = true ∧
    measured.chip.fwSlot ≠ 2 ∧ measured.chip.advance = none :=
  ⟨by simp [State.microcodeBad, measured, bootMeasurements, sget, Flash.slot], by decide +kernel⟩

/-- A module in PARSER whose measurement of section kind 2 is another. -/
def mismeasured : State :=
  { chip := { bringup := 2 }, mgmt := { measurements := [(9, 0 :: sha256 (kindBytes (Config.slotImage 0) 2))] } }

theorem witness_BootAndDiscovery_differs : mismeasured.microcodeBad = some 2 := by
  simp [State.microcodeBad, mismeasured, sget, Flash.slot]

/-- A pending advance to FULL from REDUCED, being restored or not. -/
def advancing (restoring : Bool) : State :=
  let a : Advance := ⟨5, some ⟨.host 0, 9, 2⟩, true, restoring⟩
  { chip := { bringup := 4, service := 1, autoTo := 4, advance := some a }, running := [⟨.host 0, 9, 2⟩] }
theorem witness_ServiceEntries :
    ((at0 3 id).climbs 3 = true ∧ 4 ≤ (at0 3 id).chip.autoTo ∧ (at0 3 id).chip.advance = none) ∧
    (∀ x, (advancing x).climbs 4 = true ∧ (advancing x).chip.advance = some ⟨5, some ⟨.host 0, 9, 2⟩, true, x⟩ ∧
      (advancing x).chip.thermalTrip = false) := by
  decide +kernel

theorem witness_ServiceEntries_results (s : State) : ∃ x, fatalResult s (logicTest x x) = true := by
  obtain ⟨-, ⟨x, h⟩, -⟩ := witness_TestsAndHistory_results
  refine ⟨x, ?_⟩
  simp only [fatalResult, logicTest_names, testOutcome, if_neg h,
    if_neg (show ¬ (logicTest x x).again = testReference (logicTest x x) from h)]
  have u : (logicTest x x).unit.toNat = 6144 := by simp [logicTest]
  have c : (logicTest x x).cls.toNat = 0 := by simp [logicTest]
  simp only [u, c, show isCellArray 6144 0 = false by decide, show isCjPort 6144 0 = false by decide,
    show isStoragePort 6144 0 = false by decide]
  rfl

/-- The mailbox open in bring-up state `n`. -/
def rising (n : Nat) : State := chipped fun c => { c with bringup := n, service := 0 }

theorem witness_ServiceEntries_commands :
    (∀ x ∈ [(3, 3), (4, 4), (4, 5), (3, 5), (2, 4)], let c := cmdOf 2 [(16, 1), (256, x.2)] [];
      Accepted c advanceSpec (rising x.1) ∧ c.expert = true ∧ c.arg 0 1 = x.2) ∧
    Accepted (cmdOf 2 [] []) advanceSpec (rising 3) ∧ (rising 2).faults.toWrite = [] ∧
    (let c := cmdOf 3 [] []; Accepted c (lanePlanSpec c) (rising 2) ∧
      planOk (if c.expert then planEntries c else defaultPlan) = true) ∧
    (let c := cmdOf 3 [(16, 1), (64, 64), (192, 72)] (defaultPlan.flatMap fun x => leBytes 8 x.toNat);
      Accepted c (lanePlanSpec c) (rising 2) ∧ planOk (if c.expert then planEntries c else defaultPlan) = true) := by
  simp only [Accepted]; decide +kernel

/-- Readings of eighteen sensors, all `x`. -/
def readings (n : Nat) (x : W16) : List W16 := List.replicate n x

/-- Is a sensor of a present die at its trip threshold when every die reads `x`? -/
def hotDies (x : W16) : Bool :=
  (((dieSensors ++ stackSensors).zip (readings 6 x ++ readings 12 0)).filter fun y =>
    !(hosted {}).chip.lost.getLsbD (y.1 / 8192)).any fun y => decide (tripAt y.1 ≤ y.2.toInt)

theorem witness_WatchdogAndThermal :
    (2 ≤ (staged 2 stage0).chip.bringup ∧ (staged 2 stage0).chip.parserHeld = false ∧ (staged 2 stage0).jobRuns = true ∧
      (staged 2 stage0).chip.fencing = false ∧ (hosted {}).jobRuns = false) ∧
    ((readings 6 420).length = 6 ∧ (readings 12 0).length = 12 ∧ (hosted {}).chip.held = false ∧ 1 ≤ (hosted {}).chip.bringup) ∧
    hotDies 420 = true ∧ hotDies 419 = false ∧
    (∀ u ∈ (hosted {}).sensorUnits, (hosted {}).reading u ≤ warnAt u - 20) ∧
    (let s := chipped fun c => { c with thermalTrip := true }; s.chip.thermalTrip = true ∧
      ∀ u ∈ s.sensorUnits, s.reading u < clearAt u) ∧
    (hosted {}).mayPark = true ∧ State.reset.mayPark = false := by
  decide +kernel

/-! ### Witnesses: management, firmware, SPDM, the step -/

/-- Full service with an I3C address, an enabled network of address 192.168.1.7, byte 0 the lowest, and no host command. -/
def managed (f : Mgmt → Mgmt) : State :=
  { hosted {} with host := {}, mgmt := f { i3cAddr := some 9, net := leBytes 8 1 ++ leBytes 4 0x0701A8C0 } }
/-- A command of management mailbox 0. -/
def mgmtCmd (op : Nat) (xs : List (Nat × Nat)) : Cmd := ⟨.mgmt 0, BitVec.ofNat 512 (fields ((0, op) :: xs)), [], false⟩
/-- A guest's mailbox message: an entry as its data beat. -/
def guestEntry (op : Nat) (xs : List (Nat × Nat)) : List Byte := leBytes 64 (fields ((0, op) :: xs))
/-- Port 0 in UP, with a firewall that admits mailboxes and an outbound window for the answer. -/
def guestMailbox : State := { guested upAp with
  host := { firewalls := [(0, { ctrl := 1, cls := 0xF, windows := [(1, 0x100000), (2, 15)] })] } }

theorem witness_Management :
    ((managed fun m => { m with i3cAddr := none }).mgmtOn = true ∧ (managed fun m => { m with i3cAddr := none }).mgmt.i3cAddr = none ∧
      (0x30 : BitVec 7).toNat = 0x30 + (managed id).chip.slotId.toNat) ∧
    ((managed id).mctpOn = true ∧ (managed id).mgmt.i3cAddr ≠ none ∧ (managed id).netOn = true) ∧
    (∀ n ∈ [1, 7, 8], (managed fun m => { m with plq := [([5], n)] }).mgmt.plq = ([5], n) :: [] ∧ n ≠ 0 ∧
      (managed fun m => { m with plq := [([5], n)] }).mctpOn = true) ∧
    (0x0701A8C0#32).toNat = leNat ((managed id).netField 8 4) ∧
    (∀ n ∈ [0, 14, 15], let s := { managed fun m => { m with waiting := List.replicate n (mgmtCmd 2 []) } with
          running := [⟨.mgmt 0, 0, 0x52⟩] }
      s.mctpOn = true ∧
        ((s.running.filter fun r => r.mb == .mgmt 0).length + (s.waitingOn (.mgmt 0)).length < 16 ↔ n ≠ 15) ∧
        let s1 := { s with mgmt := { s.mgmt with waiting := s.mgmt.waiting ++ [mgmtCmd 1 []] } }
        ∀ d ∈ s1.mgmt.waiting, canTake s1 d (testOpcodes.contains d.opcode) = false) ∧
    (managed id).mgmt.waiting = [] ∧
    (∀ op ∈ [0x10, 1], canTake (managed id) (mgmtCmd op []) false = true ∧ allOpcodes.contains (mgmtCmd op []).opcode = true) ∧
    mgmtOpcodes.contains (mgmtCmd 0x10 []).opcode = false ∧
    commonCheck (managed id) (mgmtCmd 1 [(224, 128)]) (devInfoSpec (mgmtCmd 1 [(224, 128)])) = none := by
  decide +kernel

theorem witness_Management_guest : ∀ x ∈ [(0x10, 0), (1, 1), (1, 0)],
    let d := guestEntry x.1 [(16, x.2), (128, 64), (224, 128)]
    let m := aSealed (ah 5 [(40, 1)]) d
    let s1 := guestMailbox.updAp 0 fun a => { a with rxSeq := a.rxSeq + 1, sinceAck := a.sinceAck + 1, rxFails := 0 }
    let c : Cmd := ⟨.guest 0 (if aMbox m.header = 1 then 1 else 0), BitVec.ofNat 512 (leNat m.data), [], false⟩
    (guestMailbox.ap 0).state = 3 ∧ aClass m.header = 5 ∧ appoCrc m.header m.data = aCrc m.header ∧
      aSeq m.header = (guestMailbox.ap 0).rxSeq ∧ aBad m = false ∧ (guestMailbox.ap 0).sinceAck + 1 < 64 ∧
      (guestMailbox.fw 0).ctrl.getLsbD 0 = true ∧ (guestMailbox.fw 0).cls.getLsbD 2 = true ∧ canTake s1 c false = true ∧
      allOpcodes.contains c.opcode = true ∧
      (([0x01, 0x42, 0x54, 0x60, 0x61].contains c.opcode = false ∨ c.expert = true) ∨
        (c.opcode = 1 ∧ c.expert = false ∧ commonCheck s1 c (devInfoSpec c) = none)) := by
  simp only [aSealed_data, crc_aSealed, aSeq_sealed, aBad_sealed, aClass_sealed, aMbox_sealed]
  decide +kernel

/-- A module with an update under way, running the recovery slot or slot A. -/
def updating (u : Option FwUpdate) : State := managed fun m => { m with update := u }
/-- An update of slot B. -/
def updateB (component : Nat) (verified : Bool) : FwUpdate := ⟨component, true, [], 0, verified⟩

theorem witness_FirmwareUpdate :
    (updating none).mctpOn = true ∧ (updating none).mgmt.update = none ∧
    (let s := updating (some (updateB 1 true)); s.mgmt.update = some (updateB 1 true) ∧ s.mgmt.update ≠ none ∧
      24 * 2 ^ 20 - 1 + [(7 : Byte)].length ≤ 24 * 2 ^ 20 ∧ s.chip.fwSlot ≠ (if (updateB 1 true).slotB then 1 else 0) ∧
      s.flash.activeB ≠ (updateB 1 true).slotB ∧ s.chip.fwSlot ≤ 2) ∧
    (∀ n ∈ [1, 2], (updating (some (updateB n true))).mgmt.update = some (updateB n true) ∧ (updateB n true).verified = true ∧
      (updateB n true).component = (BitVec.ofNat 16 n).toNat) ∧
    ((updateB 1 false).verified = false) := by
  decide +kernel

/-- A connection after `n` of its three steps. -/
def connected (n : Nat) : Spdm := { version := decide (n ≥ 1), caps := decide (n ≥ 2), algs := decide (n ≥ 3) }

theorem witness_SpdmAndDoe : ∀ n ∈ [0, 1, 2, 3], let s := managed fun m => { m with spdm0 := connected n, spdm1 := connected n };
    s.spdmOn true = true ∧ s.spdmOn false = true ∧ ∀ doe, (s.spdm doe).version = decide (n ≥ 1) ∧
      (s.spdm doe).caps = decide (n ≥ 2) ∧ (s.spdm doe).algs = decide (n ≥ 3) := by
  decide +kernel

theorem witness_SpdmAndDoe_index : (8 < (9 : Byte).toNat ∧ (9 : Byte).toNat ≠ 0xFF) ∧ (1 ≤ (8 : Byte).toNat ∧ (8 : Byte).toNat ≤ 8) := by
  decide

theorem witness_StepRunsTheFront : State.reset.pending = [] := rfl

theorem witness_StepKeepsTheInvariant : Machine.Inv State.reset ∧ Machine.Inv (staged 2 stage0) ∧ step State.reset = .next (tick State.reset) := by
  refine ⟨?_, ?_, rfl⟩ <;> simp only [Machine.Inv] <;> decide +kernel

/-! ### Ill-formed operands are refused -/

/-- Bytes of no matter. -/
def zeros (n : Nat) : List Byte := List.replicate n 0

theorem wf_refuses_frame : (Instr.dataFrame 0 ⟨0, zeros 481⟩).wf = false ∧ (Instr.dataFrame 0 ⟨0, zeros 480⟩).wf = true := by
  decide +kernel
theorem wf_refuses_message : (Instr.appositionWrite 0 ⟨0, zeros 63⟩).wf = false ∧
    (Instr.appositionWrite 0 ⟨0, zeros 4160⟩).wf = false ∧ (Instr.appositionWrite 0 ⟨0, zeros 64⟩).wf = true := by decide +kernel
theorem wf_refuses_command : (Instr.jobCreate (cmdOf 0x10 [] [1])).wf = false ∧
    (Instr.jobCreate (cmdOf 0x10 [(192, 1)] [1])).wf = true := by decide +kernel
theorem wf_refuses_image : (Instr.stageLoad (cmdOf 0x11 [] []) { image0 with cells := [96] }).wf = false ∧
    (Instr.stageLoad (cmdOf 0x11 [] []) { image0 with cells := [3, 2] }).wf = false ∧
    (Instr.stageLoad (cmdOf 0x11 [] []) { image0 with stage := 65536 }).wf = false ∧
    (Instr.stageLoad (cmdOf 0x11 [] []) image0).wf = true := by decide +kernel
theorem wf_refuses_errors : errorsOk (List.replicate 16385 0) = false := by
  rw [errorsOk, List.length_replicate]; decide
theorem wf_refuses_phrase : (Instr.phraseMessage 0 1 0 0 ⟨0, zeros 4097, []⟩).wf = false := by
  simp only [Instr.wf, zeros, List.length_replicate]; decide
theorem wf_refuses_doorbell : (Instr.cmdTail 0 0 [(0xFFFFFFFFFFFFFFFF, [1, 2])]).wf = false := by decide +kernel
theorem wf_refuses_bar2 : (Instr.bar2Read 0 0).wf = false ∧ (Instr.bar2Read 0 4097).wf = false ∧
    (Instr.bar2Write 0 (zeros 513) false).wf = false ∧ (Instr.bar2Write 0xFFFFFFFFF [1, 2] false).wf = false := by decide +kernel
theorem wf_refuses_discovery : (Instr.discovery [⟨1, 0, 0, 0⟩, ⟨1, 0, 0, 0⟩] []).wf = false := by decide +kernel
theorem wf_refuses_scan : (Instr.thermalSensorScan [] []).wf = false := by decide +kernel
theorem wf_refuses_transfer : (Instr.firmwareDataTransfer 1 (2 ^ 32) [1]).wf = false := by decide +kernel
theorem wf_refuses_nonce : (Instr.challenge false 0 []).wf = false ∧ (Instr.getMeasurements false 1 0 [1]).wf = false := by
  decide +kernel
theorem wf_refuses_mac : (Instr.arpRequest 0 0 [1]).wf = false := by decide +kernel

/-! ### One step each, against the spec's worked examples and tables -/

/-- The state a command answers, or the state before reset where it stops. -/
def after (i : Instr) (s : State) : State := match exec i s with
  | .next t => t
  | _ => {}
/-- Cell 0 after an instruction in this state, its word where the cell fetches. -/
def cellAfter (op : Nat) (i : Engine → VFields → Instr) (w : VFields) (s : State) : EngineState :=
  (after (i cell0 w) (holding cell0 op w s)).eng 128

/-- The unit addresses of the worked example under Table 1.4. -/
theorem test_unit_addresses : [unitAddr 2 37 5, unitAddr 4 96 10, unitAddr 1 102 0, unitAddr 0 107 17, unitAddr 5 99 21] =
    [0x4945, 0x980A, 0x3980, 0x1AD1, 0xB8D5] := by decide
/-- The addresses of the worked example under Table 1.6. -/
theorem test_address_map : regionOf 0x028004A00000 = .cellStore 2 37 ∧ regionOf 0x030C00000000 = .hbm 3 1 := by decide +kernel

/-- The worked conversion of Table 2.14: 16 elements in v3, A_t 10.5 in s6, the block's maximum in lane 8 of v5. -/
def converting : State := running { sregs := [(6, 0x41280000)], vregs := [(3, BitVec.ofNat 8192 (packList 32
  [0x402CCCCD, 0xBF8CCCCD, 0x3ECCCCCD, 0x3D4CCCCD, 0xBF19999A, 0x3FF33333, 0x00000000, 0xC00CCCCD, 0x3E051EB8, 0x3F666666, 0xBEB33333, 0x3FB33333, 0x3D8F5C29, 0xBCA3D70A, 0x3F0CCCCD, 0xBFCCCCCD])), (5, BitVec.ofNat 8192 (0x402CCCCD * 2 ^ 256))] }
/-- CVT.eq4 v8, v3, v5, v9 .p2 src=f32 sa=s6 ss=s7 -/
def cvtEq4 : VFields := { wr 8 3 5 0xC with vc := 9, imm := 0x2031C0 }
theorem test_cvt_eq4 : let r := cellAfter 0x50 .cvt cvtEq4 converting;
    leBytes 8 (r.rv 8 / 2 ^ 512) = [0xC7, 0x02, 0x6B, 0xE0, 0x41, 0x59, 0x00, 0xD2] ∧ r.rv 9 / 2 ^ 64 % 256 = 0x6F ∧
    (r.rs 7).toNat = 0x3B800000 ∧ r.vflags = 0b0110 := by decide +kernel
theorem test_cvt_eq4_losses : (cellAfter 0x50 .cvt cvtEq4 converting).lost = 3 := by decide +kernel

/-- R97: 2^-160 added to 1.0 sets NX alone; -0 and -0 give -0; an overflow saturates where SAT is 1. -/
theorem test_acc_add : accAdd fFP32 .rne false (.fin false 1 0) (.fin false 1 (-160)) = (.fin false (2 ^ 23) (-23), flNX) ∧
    codeOf fFP32 (accAdd fFP32 .rne false (.fin true 0 0) (.fin true 0 0)).1 = 0x80000000 ∧
    (codeOf fFP32 (accAdd fFP32 .rne true (.fin false 1 127) (.fin false 1 127)).1,
      (accAdd fFP32 .rne true (.fin false 1 127) (.fin false 1 127)).2) = (0x7F7FFFFF, flOV + flNX) := by decide +kernel
/-- Three partial sums of the canonical worked sum of Table 4.7, pair by pair. -/
theorem test_tree : codeOf fFP32 (tree fFP32 false ([.fin false 1 0] ++ List.replicate 5 (.fin false 2048 (-24)))).1 =
    0x3F801400 := by decide +kernel

/-- The log entry of the worked example under Table 5.4. -/
theorem test_log_entry : (logWord 5000000123 0xA31 1234 7 6 ⟨0, 0, 1, 37, false, false, 0x4380, 61710⟩).toNat =
    0x0000F10E06610001 + 0x0000000700254380 * 2 ^ 64 + 0x00000A31000004D2 * 2 ^ 128 + 0x000000012A05F27B * 2 ^ 192 := by
  decide +kernel
/-- The two histories of the worked example under R132, with L = 65 504. -/
theorem test_predictor : widenOf [0x46A41000, 0x46A73000, 0x46AB1800, 0x46AE3800, 0x46B22000, 0x46B60800, 0x46BAB800, 0x46BEA000, 0x46C35000, 0x46C80000, 0x46CCB000, 0x46D22800, 0x46D6D800, 0x46DAC000, 0x46DAC000, 0x46F0A000] 0x477FE000 = true ∧
    widenOf [0x46A41000, 0x46A73000, 0x46AB1800, 0x46AE3800, 0x46B22000, 0x46B60800, 0x46BAB800, 0x46BEA000, 0x46C35000, 0x46C80000, 0x46CCB000, 0x46D22800, 0x46D6D800, 0x46DAC000, 0x46DAC000, 0x46DF7000] 0x477FE000 = false := by decide +kernel
/-- The votes of the worked example in 9: e0 to e3 of eight replicas. -/
theorem test_votes : [[1, 1, 1, 1, 1, 3, 3, 0], [3, 3, 3, 3, 1, 1, 1, 1], [0, 0, 0, 0, 0, 0, 0, 3], [1, 3, 1, 3, 1, 3, 1, 1]].map
    voteCode = [1, 0, 3, 1] := by decide +kernel
/-- Their vote byte. -/
theorem test_vote_byte : packBytes 2 [1, 0, 3, 1] = [0x71] := by decide +kernel
/-- The digest of the three letters a, b, c that FIPS 180-4's own example has. -/
theorem test_sha256 : (sha256 [0x61, 0x62, 0x63]).take 4 = [0xBA, 0x78, 0x16, 0xBF] := by decide +kernel
/-- The check value of CRC-32C for the digits 1 to 9. -/
theorem test_crc32c : crc32c [0x31, 0x32, 0x33, 0x34, 0x35, 0x36, 0x37, 0x38, 0x39] = 0xE3069283 := by decide +kernel


/-! Vector instructions of cell 0. -/

/-- The same 32 bits in all 64 lanes. -/
def lanes (a : Nat) : BitVec 8192 := BitVec.ofNat 8192 (a * ((2 ^ 2048 - 1) / (2 ^ 32 - 1)))
/-- Two registers. -/
def lanes2 (a b : Nat) : State := running { vregs := [(1, lanes a), (2, lanes b)] }
/-- Lane 0 of v3 and the vector flags after v3 = v1 op v2 in this format. -/
def lane3 (op : Nat) (i : Engine → VFields → Instr) (fmt : BitVec 4) (a b : Nat) : Nat × BitVec 4 :=
  let r := cellAfter op i (wr 3 1 2 fmt) (lanes2 a b)
  (r.rv 3 % 2 ^ 32, r.vflags)
/-- The same after v3 = op v1. -/
def lane1 (op : Nat) (i : Engine → VFields → Instr) (a : Nat) : Nat × BitVec 4 :=
  let r := cellAfter op i (wr 3 1 0 0) (lanes2 a 0)
  (r.rv 3 % 2 ^ 32, r.vflags)

/-- 1.0 + 2.0 in FP32; the largest number doubled is +Inf with OV and NX. -/
theorem test_fadd : lane3 0x20 .fadd 0 0x3F800000 0x40000000 = (0x40400000, 0) ∧
    lane3 0x20 .fadd 0 0x7F7FFFFF 0x7F7FFFFF = (0x7F800000, 0b0101) := by decide +kernel
/-- +Inf - +Inf is the canonical NaN with NV. -/
theorem test_fsub : lane3 0x21 .fsub 0 0x7F800000 0x7F800000 = (0x7FC00000, 0b1000) := by decide +kernel
/-- 1.5 × -2.0 = -3.0. -/
theorem test_fmul : lane3 0x22 .fmul 0 0x3FC00000 0xC0000000 = (0xC0400000, 0) := by decide +kernel
/-- 1 / 3 rounds to nearest, inexact; 0 / 0 is NaN. -/
theorem test_fdiv : lane3 0x26 .fdiv 0 0x3F800000 0x40400000 = (0x3EAAAAAB, 0b0100) ∧ lane3 0x26 .fdiv 0 0 0 = (0x7FC00000, 0b1000) := by
  decide +kernel
/-- The square root of 2. -/
theorem test_fsqrt : lane1 0x27 .fsqrt 0x40000000 = (0x3FB504F3, 0b0100) := by decide +kernel
/-- 2^3 = 8, and log2 of 8 is 3, both exact. -/
theorem test_exp_log : lane1 0x29 .fexp2 0x40400000 = (0x41000000, 0) ∧ lane1 0x2A .flog2 0x41000000 = (0x40400000, 0) := by
  decide +kernel
/-- 2 × 3 + 1 with the accumulator in v4. -/
theorem test_fma : (cellAfter 0x23 .fma { wr 3 1 2 0 with vc := 4 } (running { vregs := [(1, 0x40000000), (2, 0x40400000),
    (4, 0x3F800000)] })).rv 3 % 2 ^ 32 = 0x40E00000 := by decide +kernel
/-- Wrapping sums, an arithmetic shift, a left shift by the amount modulo 32, and a signed minimum. -/
theorem test_integers : (lane3 0x30 .iadd 0xF 0xFFFFFFFF 2).1 = 1 ∧ (lane3 0x38 .isra 0xF 0x80000000 4).1 = 0xF8000000 ∧
    (lane3 0x36 .ishl 0xF 1 33).1 = 2 ∧ (lane3 0x39 .imin 0xF 0xFFFFFFFF 1).1 = 0xFFFFFFFF := by decide +kernel
/-- A scalar sum wraps at 64 bits. -/
theorem test_sadd : ((cellAfter 0x40 .sadd (wr 3 1 2 0) (running { sregs := [(1, BitVec.ofNat 64 (2 ^ 64 - 1)), (2, 3)] })).rs 3).toNat =
    2 := by decide +kernel
/-- A vector load reads 256 bytes at s1, lowest byte in the lowest lane. -/
theorem test_vld : (cellAfter 0x10 .vld { wr 3 1 0 0 with mode := 4 } { loading with mem := [(2 ^ 40 + 2 ^ 39, 5), (2 ^ 40 + 2 ^ 39 + 255, 6)] }).rv 3 =
    5 + 6 * 2 ^ 2040 := by decide +kernel
/-- A scalar store of 8 bytes at s1. -/
theorem test_sst : memBytes (after (.sst cell0 { wr 0 4 1 0 with mode := 3 }) (holding cell0 0x15 { wr 0 4 1 0 with mode := 3 } loading)).mem (2 ^ 40 + 2 ^ 39) 8 =
    [4, 0, 0, 0, 0, 0, 0, 0] := by decide +kernel
/-- The engine moves on by one instruction. -/
theorem test_nop : (cellAfter 0 .nop w0 (running {})).pc = 1 := by decide +kernel

/-! Commands of the host and the block's own events. -/

/-- Mailbox 1 of the worked example of Table 14.15: a ring of 16, its indexes at 14, then 15. -/
def ring16 (tail : W32) : State := { staged 2 { stage0 with image := { image0 with stage := 102 } } with
  host := { mailboxes := [(1, { ctrl := 0x08010403, cmdTail := 0, cmdHead := tail, cmpHead := 14, cmpTail := tail, phase := true
                                cmdBase := 0x10000, cmpBase := 0x20000 })] } }
/-- The entry of the worked example. -/
def entry101 : Cmd := ⟨.host 1, BitVec.ofNat 512 (0x0000010100010060 + 0x0000000412300000 * 2 ^ 128 + 0x0000004000000000 * 2 ^ 192 +
  0x0000000000010066 * 2 ^ 256), [], false⟩
/-- Entries 14 and 15 are read and CMD_HEAD becomes 0; completion entry 14 has PHASE 1, CMP_TAIL becomes 15, the timer starts. -/
theorem test_stage_flags_ring : let r := (after (.stageFlags entry101) (ring16 14)).mailbox 1;
    (r.cmdHead, r.waiting, r.cmpTail, r.phase, r.timer) = (0, 1, 15, true, true) ∧
    memBytes (after (.stageFlags entry101) (ring16 14)).hostMem (0x20000 + 64 * 14) 8 = [1, 0, 0, 0, 1, 1, 0, 0] := by decide +kernel
/-- The second entry wraps: CMP_TAIL 0, phase 0. -/
theorem test_stage_flags_wrap : let r := (after (.stageFlags entry101) (ring16 15)).mailbox 1;
    (r.cmdHead, r.cmpTail, r.phase) = (0, 0, false) := by decide +kernel
/-- An opcode of no command completes with ST_OPCODE, at bytes 18 and 19 of its entry. -/
theorem test_unknown_opcode : memBytes (after (.jobCreate (cmdOf 0x77 [] [])) (hosted {})).hostMem (0x2000 + 16) 4 =
    [0x77, 0, 1, 0] := by decide +kernel
/-- A job of identity 0 is refused with ST_RANGE at offset 32. -/
theorem test_job_create : (after (.jobCreate (cmdOf 0x10 [] [])) (hosted {})).job.state = 0 ∧
    memBytes (after (.jobCreate (cmdOf 0x10 [] [])) (hosted {})).hostMem (0x2000 + 18) 2 = [6, 0] ∧
    memBytes (after (.jobCreate (cmdOf 0x10 [] [])) (hosted {})).hostMem (0x2000 + 34) 4 = [32, 0, 0, 0] := by decide +kernel
/-- BAR2 bytes written are read back. -/
theorem test_bar2 : (after (.bar2Read 8 3) (after (.bar2Write 8 [1, 2, 3] false) (host0 (window1 [])))).sent.head? =
    some (.read [1, 2, 3]) := by decide +kernel
/-- A ring of 2^3 entries is refused with ST_RING. -/
theorem test_mailbox_enable : ((after (.mailboxEnable 1 0x301) (host0 {})).mailbox 1).cfgStatus = 4 := by decide +kernel
/-- A die at 105 °C trips, at 104.75 °C it does not. -/
theorem test_thermal_trip : (after (.thermalSensorScan (readings 6 420) (readings 12 0)) (hosted {})).chip.thermalTrip = true ∧
    (after (.thermalSensorScan (readings 6 419) (readings 12 0)) (hosted {})).chip.thermalTrip = false := by decide +kernel
/-- A module reset counts one more and has cause 2. -/
theorem test_module_reset : (after .moduleReset (hosted {})).chip.resetCause = 2 ∧
    (after .moduleReset (hosted {})).chip.resetCount = 1 := by decide +kernel
/-- ROM follows RESET. -/
theorem test_rom_entry : (after (.romEntry 5) State.reset).chip.bringup = 1 ∧ (after (.romEntry 5) State.reset).chip.slotId = 5 := by
  decide +kernel
/-- The first step from reset, with nothing queued, lets time pass. -/
theorem test_step_idle : (match step State.reset with
  | .next t => t.chip.uptime.toNat
  | _ => 7) ≤ 1 := by decide +kernel

/-- Table 10.4: the hour's corrected errors of unit (1, 100, 0) become one MEM_CORRECTED record with their count. -/
theorem test_hour_end :
    let s := ({} : State).updFaults fun f => { f with corrected := [(unitAddr 1 100 0 * 16, 7)] }
    (hourEnd s).faults.toWrite = [(⟨unitAddr 1 100 0, 0, 0, 8, 5, 0xFFFF, 0xFFFF, 7, 0⟩, 0)] ∧ (hourEnd s).faults.corrected = [] := by
  decide

end Sys2Proof.Tests
end

/-!
The statements on number formats: what FLAGS, the barriers and WAIT do (O8), the drain of a subtile (O13) and CVT (O5).
-/
namespace Sys2Proof.NumberFormats
open Sys2Proof.Machine

/-! ### One key written twice -/

section
variable {α : Type}

theorem sdrop_of_ne (k : Nat) (m : Store α) (h : ∀ x ∈ m, x.1 ≠ k) : sdrop k m = m :=
  List.filter_eq_self.mpr fun x hx => by simpa using h x hx

theorem sdrop_sput (k : Nat) (v : α) (m : Store α) : sdrop k (sput k v m) = sdrop k m := by
  induction m with
  | nil => simp [sput, sdrop]
  | cons x t ih =>
    simp only [sput]
    split
    · simp [sdrop]
    · simp only [sdrop, List.filter_cons] at ih ⊢
      rw [ih]

theorem sdrop_sset [DecidableEq α] (d : α) (k : Nat) (v : α) (m : Store α) : sdrop k (sset d k v m) = sdrop k m := by
  have hdrop : sdrop k (sdrop k m) = sdrop k m := sdrop_of_ne k _ (sdrop_ne k m)
  unfold sset
  split
  · exact hdrop
  · rw [sdrop_sput, hdrop]

/-- The second write to a key is the one that stands. -/
theorem sset_sset [DecidableEq α] (d : α) (k : Nat) (u v : α) (m : Store α) :
    sset d k v (sset d k u m) = sset d k v m := by
  have h : sset d k v (sset d k u m) =
      if v = d then sdrop k (sset d k u m) else sput k v (sdrop k (sset d k u m)) := rfl
  rw [h, sdrop_sset]
  rfl

end

theorem updEng_updEng (s : State) (k : Nat) (f g : EngineState → EngineState) :
    (s.updEng k f).updEng k g = s.updEng k fun e => g (f e) := by
  unfold State.updEng supd
  simp only [sget_sset_self, sset_sset]

/-! ### An engine whose registers stand -/

@[simp] theorem updEng_stageOfCell (s : State) (k i : Nat) (f : EngineState → EngineState) :
    (s.updEng k f).stageOfCell i = s.stageOfCell i := rfl

theorem inGroup_updEng_same (s : State) (k : Nat) : (s.updEng k fun _ => s.eng k).inGroup k = s.inGroup k := by
  unfold State.inGroup
  simp

/-- An instruction that leaves every register as it was goes on from the state as it was. -/
theorem advance_updEng_same (k : Nat) (s : State) : advance k (s.updEng k fun _ => s.eng k) = advance k s := by
  unfold advance advanceFrom
  simp only [State.updEng_eng_self, inGroup_updEng_same, updEng_updEng]
  rfl

/-! ### Operations of FLAGS, END and WAIT -/

theorem flagsOp_frame (r : EngineState) (i m : Nat) (x : W64) :
    (r.ws i x).clearFlags m = { r with
      sregs := ((r.ws i x).clearFlags m).sregs, vflags := ((r.ws i x).clearFlags m).vflags
      aflags := ((r.ws i x).clearFlags m).aflags, lost := ((r.ws i x).clearFlags m).lost } := by
  unfold EngineState.clearFlags EngineState.ws
  split <;> rfl

@[simp] theorem clearFlags_rs (r : EngineState) (m i : Nat) : (r.clearFlags m).rs i = r.rs i := rfl
@[simp] theorem ws_vflags (r : EngineState) (i : Nat) (x : W64) : (r.ws i x).vflags = r.vflags := by
  unfold EngineState.ws; split <;> rfl
@[simp] theorem ws_aflags (r : EngineState) (i : Nat) (x : W64) : (r.ws i x).aflags = r.aflags := by
  unfold EngineState.ws; split <;> rfl
@[simp] theorem ws_lost (r : EngineState) (i : Nat) (x : W64) : (r.ws i x).lost = r.lost := by
  unfold EngineState.ws; split <;> rfl

/-- Bit `b` of a flag field that lies at bit `lo` of an immediate. -/
theorem getLsbD_flagField (m : BitVec 24) (lo b : Nat) (hb : b < 4) :
    (BitVec.ofNat 4 (bits m.toNat (lo + 3) lo)).getLsbD b = m.getLsbD (lo + b) := by
  unfold bits
  rw [show lo + 3 + 1 - lo = 4 by omega, BitVec.getLsbD_ofNat, Nat.testBit_mod_two_pow, Nat.testBit_shiftRight]
  simp only [hb, decide_true, Bool.true_and]
  rfl

theorem clearFlags_vflags (r : EngineState) (m : BitVec 24) (b : Nat) (hb : b < 4) :
    (r.clearFlags m.toNat).vflags.getLsbD b = (r.vflags.getLsbD b && !m.getLsbD b) := by
  have h := getLsbD_flagField m 0 b hb
  simp only [Nat.zero_add] at h
  simp only [EngineState.clearFlags, BitVec.getLsbD_and, BitVec.getLsbD_not, h, hb, decide_true, Bool.true_and]

theorem clearFlags_aflags (r : EngineState) (m : BitVec 24) (b : Nat) (hb : b < 4) :
    (r.clearFlags m.toNat).aflags.getLsbD b = (r.aflags.getLsbD b && !m.getLsbD (4 + b)) := by
  have h := getLsbD_flagField m 4 b hb
  simp only [EngineState.clearFlags, BitVec.getLsbD_and, BitVec.getLsbD_not, h, hb, decide_true, Bool.true_and]

theorem clearFlags_lost (r : EngineState) (m : BitVec 24) :
    (r.clearFlags m.toNat).lost = if m.getLsbD 8 then 0 else r.lost := rfl

/-- A cell at END waits, and no null-group overflow is kept for the barrier to log. -/
theorem cellEnd_of_no_overflow (k v : Nat) (s : State) (hv : s.stageOfCell k = some v) (ho : (s.stage v).nullOvf = none) :
    cellEnd k s = s.updEng k fun e => { e with stat := .waitEnd } := by
  unfold cellEnd
  simp only [updEng_stageOfCell, hv]
  split
  · simp [nullPropagate, ho]
  · rfl

/-- The end of a committed rule with nothing outstanding (R226). -/
theorem ruleEnd_of_committed (k : Nat) (s : State) (ht : (s.eng k).tags = []) (hc : (s.eng k).committed = true) :
    ruleEnd k s = s.updEng k fun e =>
      { e with stat := .idle, ruleStage := none, committed := false, loops := [], outerLoops := 0 } := by
  unfold ruleEnd
  simp [ht, hc]

/-- The outstanding tags that WAIT names (R164). -/
def waitNamed (w : VFields) (ts : List Nat) : List Nat :=
  if w.mode = 1 then ts else ts.filter (· == w.imm.toNat % 256)

/-- WAIT's own test says whether it names anything. -/
theorem waitBusy_iff (w : VFields) (ts : List Nat) :
    (if w.mode = 1 then !ts.isEmpty else ts.contains (bits w.imm.toNat 7 0)) = true ↔ waitNamed w ts ≠ [] := by
  have hb : bits w.imm.toNat 7 0 = w.imm.toNat % 256 := rfl
  unfold waitNamed
  split
  · simp
  · rw [hb]; simp

theorem execWait_of_canIssue (e : Engine) (w : VFields) (s : State) (h : CanIssue e 0x06 w s) :
    execWait e w s = .next (if waitNamed w (s.eng (engKey e)).tags ≠ [] then s else advance (engKey e) s) := by
  rw [execWait, issue_of_canIssue _ _ _ _ _ h]
  simp only [waitBusy_iff]

/-! ### What `exec` runs -/

section
variable (e : Engine) (w : VFields) (s : State)

theorem exec_nop_eq : exec (.nop e w) s = execNop e w s := rfl
theorem exec_flags_eq : exec (.flags e w) s = execFlags e w s := rfl
theorem exec_sync_eq : exec (.sync e w) s = execSync e w s := rfl
theorem exec_xred_eq : exec (.xred e w) s = execXred e w s := rfl
theorem exec_endRun_eq : exec (.endRun e w) s = execEnd e w s := rfl
theorem exec_wait_eq : exec (.wait e w) s = execWait e w s := rfl

end

/-- Settles O8: each instruction's operation, once issued, is the change that the statement names; one that changes no
register goes on from the state as it was. -/
theorem flagsAndWaits : Obligations.FlagsAndWaits := by
  unfold Obligations.FlagsAndWaits
  refine ⟨⟨?nop, ?flags⟩, ?sync, ?xred, ?cellEnd, ?ruleEnd, ?wait⟩
  case nop =>
    intro e w s h
    rw [Completes, advance_updEng_same, exec_nop_eq, execNop, issue_of_canIssue _ _ _ _ _ h]
  case flags =>
    intro e w s h
    let r := s.eng (engKey e)
    refine ⟨(r.ws w.vd.toNat r.flagWords).clearFlags w.imm.toNat, ?_, flagsOp_frame _ _ _ _, fun i hi => ?_, ?_,
      fun b hb => ?_, fun b hb => ?_, ?_⟩
    · rw [Completes, exec_flags_eq, execFlags, issueRegs_of_canIssue _ _ _ _ _ h]
      rfl
    · by_cases h0 : i = 0
      · subst h0; rfl
      · simp [rs_ws, h0, hi, r]
    · simp [rs_ws, EngineState.flagWords, r]
    · simp [clearFlags_vflags _ _ b hb, r]
    · simp [clearFlags_aflags _ _ b hb, r]
    · rw [clearFlags_lost, ws_lost]
  case sync =>
    intro e w s h
    rw [exec_sync_eq, execSync, issue_of_canIssue _ _ _ _ _ h]
  case xred =>
    intro e w s h
    rw [exec_xred_eq, execXred, issue_of_canIssue _ _ _ _ _ h]
  case cellEnd =>
    intro e w s v h hc hv ho
    rw [exec_endRun_eq, execEnd, issue_of_canIssue _ _ _ _ _ h, hc, if_neg Bool.false_ne_true,
      cellEnd_of_no_overflow _ v s hv ho]
  case ruleEnd =>
    intro e w s h hi ht hc
    rw [exec_endRun_eq, execEnd, issue_of_canIssue _ _ _ _ _ h, hi, if_pos rfl, ruleEnd_of_committed _ s ht hc]
  case wait =>
    intro e w s h
    change (waitNamed w (s.eng (engKey e)).tags = [] → _) ∧ (waitNamed w (s.eng (engKey e)).tags ≠ [] → _)
    refine ⟨fun hn => ?_, fun hn => ?_⟩
    · rw [Completes, advance_updEng_same, exec_wait_eq, execWait_of_canIssue e w s h, if_neg (not_not_intro hn)]
    · rw [exec_wait_eq, execWait_of_canIssue e w s h, if_pos hn]

/-! ### Runs of bytes written one after another -/

theorem getD_of_lt {α : Type} {xs : List α} (d : α) {j : Nat} (h : j < xs.length) : xs.getD j d = xs[j] := by
  rw [List.getD_eq_getElem?_getD, List.getElem?_eq_getElem h, Option.getD_some]

/-- Runs of bytes written into a memory in order. -/
def putRuns (ws : List (Nat × List Byte)) (m : Memory) : Memory := ws.foldl (fun m x => memWriteBytes m x.1 x.2) m

/-- The same into package memory, where a word written whole loses its mark (R36). -/
def storeRuns (ws : List (Nat × List Byte)) (s : State) : State :=
  forEach ws (fun w s => (s.store w.1 w.2).mend w.1 w.2.length) s

/-- `x` and `y` share no address. -/
def Apart (x y : Nat × List Byte) : Prop := y.1 + y.2.length ≤ x.1 ∨ x.1 + x.2.length ≤ y.1

theorem memRead_putRuns_of_out (ws : List (Nat × List Byte)) (a : Nat) : ∀ m : Memory,
    (∀ x ∈ ws, ¬ (x.1 ≤ a ∧ a < x.1 + x.2.length)) → memRead (putRuns ws m) a = memRead m a := by
  induction ws with
  | nil => intro m _; rfl
  | cons x t ih =>
    intro m h
    have hx := h x (by simp)
    calc memRead (putRuns t (memWriteBytes m x.1 x.2)) a
        = memRead (memWriteBytes m x.1 x.2) a := ih _ fun y hy => h y (by simp [hy])
      _ = memRead m a := memRead_memWriteBytes_of_out _ _ _ _ (by omega)

/-- A run that no other run meets reads back as written. -/
theorem memRead_putRuns_of_mem (x : Nat × List Byte) (j : Nat) (hj : j < x.2.length) (ws : List (Nat × List Byte)) :
    ∀ m : Memory, x ∈ ws → (∀ y ∈ ws, y = x ∨ Apart x y) → memRead (putRuns ws m) (x.1 + j) = x.2.getD j 0 := by
  induction ws with
  | nil => intro m hx _; simp at hx
  | cons y t ih =>
    intro m hx hy
    by_cases hxt : x ∈ t
    · exact ih (memWriteBytes m y.1 y.2) hxt fun z hz => hy z (by simp [hz])
    · obtain rfl : x = y := (List.mem_cons.mp hx).resolve_right hxt
      have hout : ∀ z ∈ t, ¬ (z.1 ≤ x.1 + j ∧ x.1 + j < z.1 + z.2.length) := by
        intro z hz
        rcases hy z (by simp [hz]) with rfl | h
        · exact absurd hz hxt
        · unfold Apart at h; omega
      calc memRead (putRuns t (memWriteBytes m x.1 x.2)) (x.1 + j)
          = memRead (memWriteBytes m x.1 x.2) (x.1 + j) := memRead_putRuns_of_out t _ _ hout
        _ = x.2[j] := memRead_memWriteBytes_of_in _ _ _ _ hj
        _ = x.2.getD j 0 := (getD_of_lt _ hj).symm

/-- `t` differs from `s` at most in package memory and in the words marked as bad. -/
def MemOnly (s t : State) : Prop := t = { s with mem := t.mem, badWords := t.badWords }

theorem memOnly_trans {s t u : State} (h : MemOnly s t) (h' : MemOnly t u) : MemOnly s u := by
  unfold MemOnly at *
  rw [h', h]

theorem storeRuns_memOnly (ws : List (Nat × List Byte)) : ∀ s : State, MemOnly s (storeRuns ws s) := by
  induction ws with
  | nil => intro s; rfl
  | cons x t ih => intro s; exact memOnly_trans (t := (s.store x.1 x.2).mend x.1 x.2.length) rfl (ih _)

theorem storeRuns_mem (ws : List (Nat × List Byte)) : ∀ s : State, (storeRuns ws s).mem = putRuns ws s.mem := by
  induction ws with
  | nil => intro s; rfl
  | cons x t ih => intro s; exact ih ((s.store x.1 x.2).mend x.1 x.2.length)

@[simp] theorem storeRuns_eng (ws : List (Nat × List Byte)) (s : State) (k : Nat) : (storeRuns ws s).eng k = s.eng k := by
  rw [storeRuns_memOnly ws s]; rfl

@[simp] theorem storeRuns_stage (ws : List (Nat × List Byte)) (s : State) (v : Nat) :
    (storeRuns ws s).stage v = s.stage v := by
  rw [storeRuns_memOnly ws s]; rfl

/-- `t` differs from `s` at most where a drain acts: memory, marks, engines and stages. -/
def DrainOnly (s t : State) : Prop :=
  t = { s with mem := t.mem, badWords := t.badWords, engines := t.engines, stages := t.stages }

theorem drainOnly_trans {s t u : State} (h : DrainOnly s t) (h' : DrainOnly t u) : DrainOnly s u := by
  unfold DrainOnly at *
  rw [h', h]

theorem drainOnly_of_memOnly {s t : State} (h : MemOnly s t) : DrainOnly s t := by
  unfold MemOnly at h
  unfold DrainOnly
  rw [h]

theorem updEng_drainOnly (s : State) (k : Nat) (f : EngineState → EngineState) : DrainOnly s (s.updEng k f) := rfl

/-! ### The subtile after the one that drains (R68) -/

/-- The tile as its next subtile drains: unless it is the last, the sums of the one after it stream into the other bank. -/
def streamAhead (s : State) (t : TileRun) : TileRun :=
  if t.ending = true ∨ subtileCount t.desc ≤ t.next + 1 then t
  else t.fill (t.next + 1) (subtileSums s.mem s.job.seed t.desc (t.next + 1))

theorem bank_fill_succ (t : TileRun) (xs : List AccElem) : (t.fill (t.next + 1) xs).bank = t.bank := by
  rcases Nat.mod_two_eq_zero_or_one t.next with h | h
  · have h' : (t.next + 1) % 2 = 1 := by omega
    simp [TileRun.bank, TileRun.fill, h, h']
  · have h' : (t.next + 1) % 2 = 0 := by omega
    simp [TileRun.bank, TileRun.fill, h, h']

section
variable (s : State) (t : TileRun)

/-- Nothing but the banks differs. -/
theorem streamAhead_frame :
    streamAhead s t = { t with bank0 := (streamAhead s t).bank0, bank1 := (streamAhead s t).bank1 } := by
  unfold streamAhead TileRun.fill
  split
  · rfl
  · split <;> rfl

@[simp] theorem streamAhead_stage : (streamAhead s t).stage = t.stage := by rw [streamAhead_frame]
@[simp] theorem streamAhead_desc : (streamAhead s t).desc = t.desc := by rw [streamAhead_frame]
@[simp] theorem streamAhead_shadow : (streamAhead s t).shadow = t.shadow := by rw [streamAhead_frame]
@[simp] theorem streamAhead_ending : (streamAhead s t).ending = t.ending := by rw [streamAhead_frame]
/-- The epilogue sees no bank but the one that drains. -/
@[simp] theorem epilogue_streamAhead : epilogue (streamAhead s t) = epilogue t := by
  rw [streamAhead_frame]; rfl

@[simp] theorem streamAhead_bank : (streamAhead s t).bank = t.bank := by
  unfold streamAhead
  split
  · rfl
  · exact bank_fill_succ t _

theorem streamAhead_of_ending (h : t.ending = true) : streamAhead s t = t := if_pos (Or.inl h)

end

/-- Unless the operands of the subtile after it may not be read, a drain writes back the tile with those sums streamed. -/
theorem drain_eq_writeBack (k i : Nat) (t : TileRun) (he pe : List W32) (s : State)
    (h : (t.ending = true ∨ subtileCount t.desc ≤ t.next + 1) ∨
      tileFault t.stage s k false (subReads t.desc (t.next + 1)).all = none) :
    drain k i t he pe s = writeBack k i (streamAhead s t) he pe s := by
  unfold drain streamAhead
  by_cases hl : t.ending = true ∨ subtileCount t.desc ≤ t.next + 1
  · simp [hl]
  · simp [hl, h.resolve_left hl]

/-! ### What a drain leaves (R63, R66, R89, R256) -/

/-- All flags that a drained subtile sets. -/
def drainFlags (out : SubOut) : Fl := out.addFlags ||| out.outFlags ||| out.sumFlags

/-- The engine after the next subtile of its tile `i`, which is `t`, has drained with `out`. -/
def drainEng (i : Nat) (t : TileRun) (out : SubOut) (r : EngineState) : EngineState :=
  { r with
    aflags := r.aflags ||| BitVec.ofNat 4 (drainFlags out) ||| BitVec.ofNat 4 (if t.ending = true then t.events else 0)
    inFlight := if t.ending = true then r.inFlight.eraseIdx i else r.inFlight.set i (t.drained out none) }

/-- A tile with long sums makes its stage note it (R105). -/
def noteLong (t : TileRun) (s : State) : State :=
  match t.stage with
  | some v => if longCount t.desc > 1 then s.updStage v fun g => { g with longsum := true } else s
  | none => s

@[simp] theorem noteLong_mem (t : TileRun) (s : State) : (noteLong t s).mem = s.mem := by
  unfold noteLong; split
  · split <;> rfl
  · rfl

@[simp] theorem noteLong_eng (t : TileRun) (s : State) (k : Nat) : (noteLong t s).eng k = s.eng k := by
  unfold noteLong; split
  · split <;> rfl
  · rfl

theorem noteLong_drainOnly (t : TileRun) (s : State) : DrainOnly s (noteLong t s) := by
  unfold noteLong; split
  · split <;> rfl
  · rfl

theorem noteLong_stage (t : TileRun) (s : State) (v : Nat) : (noteLong t s).stage v =
    if t.stage = some v ∧ 1 < longCount t.desc then { s.stage v with longsum := true } else s.stage v := by
  unfold noteLong
  split
  · next u hu =>
    by_cases hl : longCount t.desc > 1
    · rw [if_pos hl, State.updStage_stage, hu]
      by_cases hv : v = u
      · subst hv; simp [hl]
      · simp [hv, Ne.symm hv]
    · simp [hl]
  · next hu => simp [hu]

/-- A tile whose adds set no A_OV leaves its sequencer's list, and its events stay in the flags (R63). -/
theorem dropTile_of_no_overflow {k i : Nat} {t : TileRun} {s : State} (h : (s.eng k).inFlight[i]? = some t)
    (he : t.events % 2 = 0) :
    dropTile k i s = s.updEng k fun r => EngineState.orA { r with inFlight := r.inFlight.eraseIdx i } t.events := by
  unfold dropTile keepEvents
  simp [h, he, updEng_updEng]

/-- What the next subtile of a tile writes and sets, with the home gang's errors `he`. -/
def drainOut (t : TileRun) (he : List W32) : SubOut := epilogue t t.bank (xorCodes (t.bank.map (·.code)) he)

/-- The tile leaves or goes on as `drainEng` says. -/
theorem drainEng_eq {k i : Nat} {t : TileRun} {s : State} (out : SubOut)
    (hend : t.ending = true → (s.eng k).inFlight[i]? = some t ∧ t.events % 2 = 0) :
    (if t.ending = true then dropTile k i (s.updEng k fun r => r.orA (drainFlags out))
      else setTile k i (t.drained out none) (s.updEng k fun r => r.orA (drainFlags out))) =
    s.updEng k (drainEng i t out) := by
  by_cases he : t.ending = true
  · obtain ⟨hi, hev⟩ := hend he
    have hi' : ((s.updEng k fun r => r.orA (drainFlags out)).eng k).inFlight[i]? = some t := by
      rw [State.updEng_eng_self]; exact hi
    rw [if_pos he, dropTile_of_no_overflow hi' hev, updEng_updEng]
    exact congrArg (s.updEng k) (funext fun r => by simp [EngineState.orA, drainEng, he])
  · rw [if_neg he, setTile, updEng_updEng]
    exact congrArg (s.updEng k) (funext fun r => by simp [EngineState.orA, drainEng, he])

/-- A subtile whose writes are admitted, whose digests agree and which sets no A_OV is written, and nothing else happens. -/
theorem writeBack_eq {k i : Nat} {t : TileRun} {he pe : List W32} {s : State}
    (hw : tileFault t.stage s k true ((drainOut t he).writes.map fun w => (w.1, w.2.length)) = none)
    (hd : t.shadow = false ∨ xorCodes (t.bank.map (·.code)) he = xorCodes (t.bank.map (·.code)) pe)
    (ho : drainFlags (drainOut t he) % 2 = 0)
    (hend : t.ending = true → (s.eng k).inFlight[i]? = some t ∧ t.events % 2 = 0) :
    writeBack k i t he pe s =
      noteLong t ((storeRuns (drainOut t he).writes s).updEng k (drainEng i t (drainOut t he))) := by
  have hm : ∀ fl, (t.shadow && subtileDigest (accBytes t.desc) (xorCodes (t.bank.map (·.code)) he) fl !=
      subtileDigest (accBytes t.desc) (xorCodes (t.bank.map (·.code)) pe) fl) = false := by
    intro fl
    rcases hd with h | h <;> simp [h]
  rw [← drainEng_eq (drainOut t he) (by simpa using hend)]
  unfold drainOut at hw
  unfold drainFlags drainOut at ho
  unfold writeBack
  dsimp only
  rw [hw]
  simp only [hm, ho]
  rfl

/-- Streaming ahead shows only in the tile that stays in flight. -/
theorem drainEng_streamAhead (i : Nat) (t : TileRun) (out : SubOut) (s : State) (r : EngineState) :
    drainEng i (streamAhead s t) out r = { r with
      aflags := r.aflags ||| BitVec.ofNat 4 (drainFlags out) ||| BitVec.ofNat 4 (if t.ending = true then t.events else 0)
      inFlight := if t.ending = true then r.inFlight.eraseIdx i
        else r.inFlight.set i ((streamAhead s t).drained out none) } := by
  by_cases h : t.ending = true
  · rw [streamAhead_of_ending s t h]
    simp only [drainEng, h, if_true]
  · simp only [drainEng, streamAhead_ending, h]
    rfl

theorem exec_subtileDrain_eq (e : Engine) (i : Nat) (he pe : List W32) (s : State) :
    exec (.subtileDrain e i he pe) s = execSubtileDrain e i he pe s := rfl

/-- A started tile that is not held drains once its block may reach the epilogue. -/
theorem execSubtileDrain_of_mayDrain {e : Engine} {i : Nat} {t : TileRun} (he pe : List W32) {s : State}
    (hi : (s.eng (engKey e)).inFlight[i]? = some t) (hstarted : t.started = true) (hhold : t.hold = none)
    (hnext : t.next < subtileCount t.desc) (hmay : s.mayDrain (engKey e) i t = true) :
    execSubtileDrain e i he pe s = .next (drain (engKey e) i t he pe s) := by
  have hu : t.undrained = true := by simp [TileRun.undrained, hstarted, hnext]
  simp [execSubtileDrain, hi, hu, hhold, hmay]

/-- Settles O13: the drain is the write-back of the tile with the next sums streamed into the other bank, and that is a run
of stores, one change of the engine and a note in the stage. -/
theorem subtileDrain : Obligations.SubtileDrain := by
  unfold Obligations.SubtileDrain
  intro e i he pe s t k n last codes out hi hstarted hhold hnext hmay hev hreads hwrites hsame hflags
  have hout : drainOut (streamAhead s t) he = out := by simp [drainOut, out, codes]
  have hend : (streamAhead s t).ending = true →
      (s.eng k).inFlight[i]? = some (streamAhead s t) ∧ (streamAhead s t).events % 2 = 0 := by
    intro h
    rw [streamAhead_ending] at h
    rw [streamAhead_of_ending s t h]
    exact ⟨hi, hev h⟩
  have hdrain : drain k i t he pe s =
      noteLong t ((storeRuns out.writes s).updEng k (drainEng i (streamAhead s t) out)) := by
    rw [drain_eq_writeBack k i t he pe s hreads,
      writeBack_eq (by rw [hout]; simpa using hwrites) (by simpa using hsame) (by rw [hout]; exact hflags) hend, hout]
    simp [noteLong]
  refine ⟨_, (exec_subtileDrain_eq e i he pe s).trans
    (execSubtileDrain_of_mayDrain he pe hi hstarted hhold hnext hmay), ?_⟩
  rw [hdrain]
  refine ⟨?_, fun a ha => ?_, fun x hx hy j hj => ?_, fun j hj => ?_, ?_, fun v => ?_⟩
  · exact drainOnly_trans (drainOnly_trans (drainOnly_of_memOnly (storeRuns_memOnly out.writes s))
      (updEng_drainOnly _ k _)) (noteLong_drainOnly t _)
  · simpa [storeRuns_mem] using memRead_putRuns_of_out out.writes a s.mem ha
  · simpa [storeRuns_mem] using memRead_putRuns_of_mem x j hj out.writes s.mem hx hy
  · simp [State.updEng_eng_of_ne _ _ hj]
  · rw [noteLong_eng, State.updEng_eng_self, storeRuns_eng, drainEng_streamAhead]
    rfl
  · simp [noteLong_stage]

/-! ### Bits and packed elements (R49) -/

theorem testBit_setBits (x lo n y b : Nat) : (setBits x lo n y).testBit b =
    if b < lo then x.testBit b else if b < lo + n then y.testBit (b - lo) else x.testBit b := by
  have hor : setBits x lo n y = ((x >>> (lo + n)) <<< n ||| y % 2 ^ n) <<< lo ||| x % 2 ^ lo := by
    rw [← Nat.shiftLeft_add_eq_or_of_lt (Nat.mod_lt x (Nat.two_pow_pos lo)),
      ← Nat.shiftLeft_add_eq_or_of_lt (Nat.mod_lt y (Nat.two_pow_pos n))]
    simp only [setBits, Nat.shiftLeft_eq, Nat.add_mul, Nat.pow_add, Nat.mul_assoc, Nat.mul_comm (2 ^ n) (2 ^ lo)]
  rw [hor]
  simp only [Nat.testBit_or, Nat.testBit_shiftLeft, Nat.testBit_mod_two_pow, Nat.testBit_shiftRight]
  by_cases h1 : b < lo
  · simp [h1, show ¬ lo ≤ b by omega]
  · by_cases h2 : b < lo + n
    · simp [h1, h2, show lo ≤ b by omega, show b - lo < n by omega, show ¬ n ≤ b - lo by omega]
    · simp [h1, h2, show lo ≤ b by omega, show ¬ b - lo < n by omega, show n ≤ b - lo by omega,
        show lo + n + (b - lo - n) = b by omega]

theorem testBit_elemAt (w x i b : Nat) : (elemAt w x i).testBit b = (decide (b < w) && x.testBit (w * i + b)) := by
  unfold elemAt
  rw [Nat.testBit_mod_two_pow, Nat.testBit_shiftRight]

/-- Two elements are equal when their bits are. -/
theorem elemAt_congr {w x y i j : Nat} (h : ∀ b, b < w → x.testBit (w * i + b) = y.testBit (w * j + b)) :
    elemAt w x i = elemAt w y j := by
  apply Nat.eq_of_testBit_eq
  intro b
  rw [testBit_elemAt, testBit_elemAt]
  by_cases hb : b < w
  · rw [h b hb]
  · simp [hb]

theorem testBit_rv_wv (r : EngineState) (k d x b : Nat) :
    ((r.wv k d x).rv d).testBit b = (decide (b < vbits k) && x.testBit b) := by
  have hle := vbits_le k
  rw [rv_wv, if_pos rfl, BitVec.toNat_ofNat, Nat.testBit_mod_two_pow, Nat.testBit_mod_two_pow]
  by_cases hb : b < vbits k
  · simp [hb, show b < 8192 by omega]
  · simp [hb]

/-! ### A run of elements put into a register (R151, R152) -/

/-- `x` with the elements `xs` of width `w` put in from element `p` on. -/
def putElems (w p : Nat) (xs : List Nat) (x : Nat) : Nat := setBits x (w * p) (w * xs.length) (packList w xs)

/-- An element of the run that lies inside the register. -/
theorem elemAt_putElems (r : EngineState) (k d w p j x : Nat) (xs : List Nat) (hj : j < xs.length)
    (hin : w * (p + j + 1) ≤ vbits k) :
    elemAt w ((r.wv k d (putElems w p xs x)).rv d) (p + j) = xs.getD j 0 % 2 ^ w := by
  have hlen : w * (j + 1) ≤ w * xs.length := Nat.mul_le_mul_left w hj
  rw [getD_of_lt _ hj, ← elemAt_packList w xs j hj]
  refine elemAt_congr fun b hb => ?_
  rw [Nat.mul_succ] at hin hlen
  have hpj : w * (p + j) = w * p + w * j := Nat.mul_add w p j
  rw [testBit_rv_wv, putElems, testBit_setBits, if_neg (by omega), if_pos (by omega),
    show w * (p + j) + b - w * p = w * j + b by omega]
  simp [show w * (p + j) + b < vbits k by omega]

/-- The bits on either side of the run stand. -/
theorem testBit_putElems_of_out (r : EngineState) (k d w p x b : Nat) (xs : List Nat) (hb : b < vbits k)
    (hout : b < w * p ∨ w * (p + xs.length) ≤ b) :
    ((r.wv k d (putElems w p xs x)).rv d).testBit b = x.testBit b := by
  rw [Nat.mul_add] at hout
  rw [testBit_rv_wv, putElems, testBit_setBits]
  rcases hout with h | h
  · simp [hb, h]
  · simp [hb, show ¬ b < w * p + w * xs.length by omega]

/-- So do the elements there. -/
theorem elemAt_putElems_of_out (r : EngineState) (k d w p j x : Nat) (xs : List Nat) (hin : w * (j + 1) ≤ vbits k)
    (hout : j < p ∨ p + xs.length ≤ j) :
    elemAt w ((r.wv k d (putElems w p xs x)).rv d) j = elemAt w x j := by
  refine elemAt_congr fun b hb => testBit_putElems_of_out r k d w p x _ xs ?_ ?_
  · rw [Nat.mul_succ] at hin; omega
  · rcases hout with h | h
    · have := Nat.mul_le_mul_left w h
      rw [Nat.mul_succ] at this; omega
    · have := Nat.mul_le_mul_left w h
      omega

/-! ### The parts of CVT's write (R151 to R153) -/

section
variable (k : Nat) (w : VFields) (o : ConvOut) (r : EngineState)

/-- The new value of VD: element by element on the register side, else the codes at PART. -/
def convValue (old : Nat) : Nat :=
  if onRegSide w.fmt.toNat (fSrc w) w.fmt.toNat then
    packList (fmtWidth w.fmt.toNat) ((List.range (elemsOf k (fmtWidth w.fmt.toNat))).map fun j =>
      match o.codes.getD j none with
      | some c => c
      | none => elemAt (fmtWidth w.fmt.toNat) old j)
  else putElems (fmtWidth w.fmt.toNat) (fPart w * o.codes.length) (o.codes.map fun c => c.getD 0) old

/-- The elements go to VD. -/
def convElems : EngineState := r.wv k w.vd.toNat (convValue k w o (r.rv w.vd.toNat))

/-- The block scales go to VC. -/
def convScales : EngineState :=
  if o.scales = [] then r else r.wv k w.vc.toNat (putElems 8 (convBase k w) o.scales (r.rv w.vc.toNat))

/-- The tensor scale goes to s[SS]. -/
def convTensor : EngineState :=
  match o.tscale with
  | some t => r.ws (fSs w) (BitVec.ofNat 64 t)
  | none => r

/-- CVT's write is these parts, one after the other, and then the flags and the lost elements. -/
theorem convWrite_eq : convWrite k w o r =
    { (convTensor w o (convScales k w o (convElems k w o r))).orV o.flags with
      lost := satAdd (convTensor w o (convScales k w o (convElems k w o r))).lost o.lost } := by
  have helems : convElems k w o r =
      if onRegSide w.fmt.toNat (fSrc w) w.fmt.toNat = true then
        r.wv k w.vd.toNat (packList (fmtWidth w.fmt.toNat) ((List.range (elemsOf k (fmtWidth w.fmt.toNat))).map fun j =>
          match o.codes.getD j none with
          | some c => c
          | none => elemAt (fmtWidth w.fmt.toNat) (r.rv w.vd.toNat) j))
      else r.wv k w.vd.toNat (setBits (r.rv w.vd.toNat) (fPart w * o.codes.length * fmtWidth w.fmt.toNat)
        (o.codes.length * fmtWidth w.fmt.toNat) (packList (fmtWidth w.fmt.toNat) (o.codes.map fun c => c.getD 0))) := by
    unfold convElems convValue putElems
    split
    · rfl
    · rw [List.length_map, Nat.mul_comm (fmtWidth _) (fPart w * _), Nat.mul_comm (fmtWidth _) o.codes.length]
  rw [helems]
  unfold convWrite convScales
  simp only [List.isEmpty_iff]
  rfl

/-- The tensor scale changes scalar registers alone. -/
theorem convTensor_frame : convTensor w o r = { r with sregs := (convTensor w o r).sregs } := by
  unfold convTensor EngineState.ws
  split
  · split <;> rfl
  · rfl

theorem convScales_frame :
    convScales k w o r = { r with vregs := (convScales k w o r).vregs, badRegs := (convScales k w o r).badRegs } := by
  unfold convScales
  split <;> rfl

theorem convWrite_frame : convWrite k w o r = { r with
    vregs := (convWrite k w o r).vregs, sregs := (convWrite k w o r).sregs, vflags := (convWrite k w o r).vflags
    lost := (convWrite k w o r).lost, badRegs := (convWrite k w o r).badRegs } := by
  rw [convWrite_eq, convTensor_frame, convScales_frame]
  rfl

theorem convWrite_vflags : (convWrite k w o r).vflags = r.vflags ||| BitVec.ofNat 4 o.flags := by
  rw [convWrite_eq, convTensor_frame, convScales_frame]
  rfl

theorem convWrite_lost : (convWrite k w o r).lost = satAdd r.lost o.lost := by
  rw [convWrite_eq, convTensor_frame, convScales_frame]
  rfl

/-- The scalar registers are those that the tensor scale leaves. -/
theorem convWrite_rs (i : Nat) : (convWrite k w o r).rs i =
    match o.tscale with
    | some t => (r.ws (fSs w) (BitVec.ofNat 64 t)).rs i
    | none => r.rs i := by
  rw [convWrite_eq]
  show (convTensor w o (convScales k w o (convElems k w o r))).rs i = _
  rw [convScales_frame]
  unfold convTensor EngineState.ws
  split
  · split <;> rfl
  · rfl

/-- The vector registers are those that the elements and the block scales leave. -/
theorem convWrite_rv (i : Nat) : (convWrite k w o r).rv i = (convScales k w o (convElems k w o r)).rv i := by
  rw [convWrite_eq]
  show (convTensor w o (convScales k w o (convElems k w o r))).rv i = _
  rw [convTensor_frame]
  rfl

/-- Block scales change VC alone. -/
theorem convScales_rv_of_ne {i : Nat} (h : i ≠ w.vc.toNat ∨ o.scales = []) : (convScales k w o r).rv i = r.rv i := by
  unfold convScales
  split
  · rfl
  · next hs => exact wv_other _ _ _ _ _ (h.resolve_right hs)

theorem convWrite_rv_of_ne {i : Nat} (hd : i ≠ w.vd.toNat) (hc : i ≠ w.vc.toNat ∨ o.scales = []) :
    (convWrite k w o r).rv i = r.rv i := by
  rw [convWrite_rv, convScales_rv_of_ne k w o _ hc]
  exact wv_other _ _ _ _ _ hd

/-- VD holds the elements, unless block scales are put into the same register. -/
theorem convWrite_rv_vd (h : w.vd ≠ w.vc ∨ o.scales = []) :
    (convWrite k w o r).rv w.vd.toNat = (r.wv k w.vd.toNat (convValue k w o (r.rv w.vd.toNat))).rv w.vd.toNat := by
  rw [convWrite_rv, convScales_rv_of_ne k w o _ (h.imp_left fun hne he => hne (BitVec.eq_of_toNat_eq he))]
  rfl

/-- VC holds the block scales, where there are any. -/
theorem convWrite_rv_vc (h : o.scales ≠ []) : (convWrite k w o r).rv w.vc.toNat =
    ((convElems k w o r).wv k w.vc.toNat
      (putElems 8 (convBase k w) o.scales ((convElems k w o r).rv w.vc.toNat))).rv w.vc.toNat := by
  rw [convWrite_rv, convScales, if_neg h]

theorem fmtWidth_of_onRegSide {f src dst : Nat} (h : onRegSide f src dst = true) :
    fmtWidth f = 16 ∨ fmtWidth f = 32 ∨ fmtWidth f = 64 := by
  have hl : fmtIsLane f = true := by
    unfold onRegSide at h
    split at h
    · exact (Bool.and_eq_true_iff.mp h).1
    · exact absurd h Bool.false_ne_true
  simp only [fmtIsLane, Bool.or_eq_true, beq_iff_eq] at hl
  rcases hl with ((rfl | rfl) | rfl) | rfl
  · exact Or.inr (Or.inl rfl)
  · exact Or.inl rfl
  · exact Or.inr (Or.inr rfl)
  · exact Or.inr (Or.inl rfl)

/-- On the register side the active elements of VD take their codes and the others stand (R151). -/
theorem elemAt_convWrite_regSide (h : w.vd ≠ w.vc ∨ o.scales = []) (hr : onRegSide w.fmt.toNat (fSrc w) w.fmt.toNat = true)
    {j : Nat} (hj : j < elemsOf k (fmtWidth w.fmt.toNat)) :
    elemAt (fmtWidth w.fmt.toNat) ((convWrite k w o r).rv w.vd.toNat) j =
      match o.codes.getD j none with
      | some c => c % 2 ^ fmtWidth w.fmt.toNat
      | none => elemAt (fmtWidth w.fmt.toNat) (r.rv w.vd.toNat) j := by
  rw [convWrite_rv_vd k w o r h, convValue, if_pos hr, elemAt_wv_packList _ _ _ _ _ (fmtWidth_of_onRegSide hr) j hj]
  split
  · rfl
  · exact Nat.mod_eq_of_lt (elemAt_lt _ _ _)

theorem convValue_packed (hr : onRegSide w.fmt.toNat (fSrc w) w.fmt.toNat = false) (old : Nat) : convValue k w o old =
    putElems (fmtWidth w.fmt.toNat) (fPart w * o.codes.length) (o.codes.map fun c => c.getD 0) old := by
  rw [convValue, hr, if_neg Bool.false_ne_true]

/-- Elsewhere the codes stand at PART (R152). -/
theorem elemAt_convWrite_packed (h : w.vd ≠ w.vc ∨ o.scales = [])
    (hr : onRegSide w.fmt.toNat (fSrc w) w.fmt.toNat = false) {j : Nat} (hj : j < o.codes.length)
    (hin : (fPart w * o.codes.length + j + 1) * fmtWidth w.fmt.toNat ≤ vbits k) :
    elemAt (fmtWidth w.fmt.toNat) ((convWrite k w o r).rv w.vd.toNat) (fPart w * o.codes.length + j) =
      ((o.codes.getD j none).getD 0) % 2 ^ fmtWidth w.fmt.toNat := by
  rw [Nat.mul_comm] at hin
  rw [convWrite_rv_vd k w o r h, convValue_packed k w o hr, elemAt_putElems _ _ _ _ _ _ _ _ (by simpa using hj) hin]
  simp [hj]

theorem testBit_convWrite_packed (h : w.vd ≠ w.vc ∨ o.scales = [])
    (hr : onRegSide w.fmt.toNat (fSrc w) w.fmt.toNat = false) {b : Nat} (hb : b < vbits k)
    (hout : b < fPart w * o.codes.length * fmtWidth w.fmt.toNat ∨
      (fPart w + 1) * o.codes.length * fmtWidth w.fmt.toNat ≤ b) :
    ((convWrite k w o r).rv w.vd.toNat).testBit b = (r.rv w.vd.toNat).testBit b := by
  rw [convWrite_rv_vd k w o r h, convValue_packed k w o hr]
  refine testBit_putElems_of_out _ _ _ _ _ _ _ _ hb ?_
  rwa [List.length_map, ← Nat.succ_mul, Nat.mul_comm (fmtWidth _), Nat.mul_comm (fmtWidth _)]

/-- The block scales stand in VC from block 0's place on (R150, R153). -/
theorem elemAt_convWrite_scales (h : o.scales ≠ []) {j : Nat} (hj : j < o.scales.length)
    (hin : 8 * (convBase k w + j + 1) ≤ vbits k) :
    elemAt 8 ((convWrite k w o r).rv w.vc.toNat) (convBase k w + j) = o.scales.getD j 0 % 256 := by
  rw [convWrite_rv_vc k w o r h]
  exact elemAt_putElems _ _ _ _ _ _ _ _ hj hin

theorem elemAt_convWrite_scales_of_out (h : o.scales ≠ []) (hne : w.vd ≠ w.vc) {j : Nat} (hin : 8 * (j + 1) ≤ vbits k)
    (hout : j < convBase k w ∨ convBase k w + o.scales.length ≤ j) :
    elemAt 8 ((convWrite k w o r).rv w.vc.toNat) j = elemAt 8 (r.rv w.vc.toNat) j := by
  have hvc : (convElems k w o r).rv w.vc.toNat = r.rv w.vc.toNat :=
    wv_other _ _ _ _ _ fun he => hne (BitVec.eq_of_toNat_eq he).symm
  rw [convWrite_rv_vc k w o r h, hvc]
  exact elemAt_putElems_of_out _ _ _ _ _ _ _ _ hin hout

theorem convWrite_rs_of_ne {i : Nat} (h : i ≠ fSs w ∨ o.tscale = none) : (convWrite k w o r).rs i = r.rs i := by
  rw [convWrite_rs]
  split
  · next t ht =>
    have hi : i ≠ fSs w := h.resolve_right (by simp [ht])
    rw [rs_ws, if_neg hi]
    by_cases h0 : i = 0
    · subst h0; rfl
    · rw [if_neg h0]
  · rfl

theorem convWrite_rs_scale {t : Nat} (ht : o.tscale = some t) (h0 : fSs w ≠ 0) :
    (convWrite k w o r).rs (fSs w) = BitVec.ofNat 64 t := by
  rw [convWrite_rs, ht]
  simp [rs_ws, h0]

end

/-! ### EV_VEC_FAULT of a conversion (R149, Table 6.3) -/

theorem eventOnly_stage {s t : State} (h : EventOnly s t) (v : Nat) : t.stage v = s.stage v := by
  rw [h]; rfl

theorem forEach_updEng_stage (ks : List Nat) (f : EngineState → EngineState) (v : Nat) : ∀ s : State,
    (forEach ks (fun k s => s.updEng k f) s).stage v = s.stage v := by
  induction ks with
  | nil => intro s; rfl
  | cons k t ih => intro s; exact ih (s.updEng k f)

/-- A loaded stage that has not halted halts with the code given. -/
theorem haltStage_stage {v : Nat} {s : State} (code : Nat) (final : Bool) (hl : (s.stage v).loaded = true)
    (h0 : (s.stage v).haltCode = 0) :
    ((haltStage v code final s).stage v).haltCode = code ∧ ((haltStage v code final s).stage v).haltFinal = final := by
  unfold haltStage
  by_cases hk : (s.stage v).commitKept s.job.z = true
  · simp [hl, h0, hk, forEach_updEng_stage]
  · simp [hl, h0, hk, forEach_updEng_stage, Stage.abandon]

/-- The update of a stage that halts keeps the first cause. -/
theorem haltUpdate_stage (v code : Nat) (s : State) :
    ((haltUpdate v code s).stage v).haltCode = (s.stage v).haltCode ∧
    ((haltUpdate v code s).stage v).updateHalt = if (s.stage v).updateHalt = 0 then code else (s.stage v).updateHalt := by
  unfold haltUpdate
  simp [Stage.abandon]

/-- EV_VEC_FAULT halts a cell's stage, or the update of an Inflector's stage. -/
theorem vecFault_halts {k v : Nat} (reason : Nat) {s : State} (hv : s.stageOf k = some v)
    (hl : (s.stage v).loaded = true) (h0 : (s.stage v).haltCode = 0) :
    (isInflector k = false → ((vecFault k reason s).stage v).haltCode = 0x0107 ∧
      ((vecFault k reason s).stage v).haltFinal = true) ∧
    (isInflector k = true → ((vecFault k reason s).stage v).haltCode = 0 ∧
      ((vecFault k reason s).stage v).updateHalt =
        if (s.stage v).updateHalt = 0 then 0x0107 else (s.stage v).updateHalt) := by
  let s' := raise 0x0107 (engUnit k).1 (engUnit k).2 [(4, (s.eng k).pc), (1, reason)] s
  have hs : s'.stage v = s.stage v := eventOnly_stage (raise_eventOnly _ _ _ _ s) v
  refine ⟨fun hi => ?_, fun hi => ?_⟩
  · have hf : vecFault k reason s = haltStage v 0x0107 true s' := by
      unfold vecFault
      simp only [hv, hi, haltOf, Bool.false_eq_true, if_false]
      rfl
    rw [hf]
    exact haltStage_stage 0x0107 true (by rw [hs, hl]) (by rw [hs, h0])
  · have hf : vecFault k reason s = haltUpdate v 0x0107 s' := by
      unfold vecFault
      simp only [hv, hi, if_true]
      rfl
    obtain ⟨hc, hu⟩ := haltUpdate_stage v 0x0107 s'
    rw [hf, hc, hu, hs]
    exact ⟨h0, rfl⟩

/-- CVT, AMAXB and AMAXT raise EV_VEC_FAULT where reduced service lacks their formats. -/
theorem issueConv_of_serviceBad {e : Engine} {op : Nat} {w : VFields} {s : State} (f : EngineState → EngineState)
    (h : CanIssue e op w s) (hb : serviceBad s w = true) : issueConv e op w f s = .next (vecFault (engKey e) 5 s) := by
  rw [issueConv, issue_of_canIssue _ _ _ _ _ h, if_pos hb]

/-- Otherwise the engine's registers become what the operation gives, and it goes on. -/
theorem issueConv_of_service {e : Engine} {op : Nat} {w : VFields} {s : State} (f : EngineState → EngineState)
    (h : CanIssue e op w s) (hb : serviceBad s w = false) :
    issueConv e op w f s = .next (advance (engKey e) (s.updEng (engKey e) fun _ => f (s.eng (engKey e)))) := by
  rw [issueConv, issue_of_canIssue _ _ _ _ _ h, hb, if_neg Bool.false_ne_true, updEng_const]

section
variable (e : Engine) (w : VFields) (s : State)

theorem exec_cvt_eq : exec (.cvt e w) s =
    issueConv e 0x50 w (fun r => convWrite (engKey e) w (convRun s.job.seed (engKey e) w r) r) s := rfl
theorem exec_amaxb_eq : exec (.amaxb e w) s = issueConv e 0x51 w (amaxBlocks (engKey e) w) s := rfl
theorem exec_amaxt_eq : exec (.amaxt e w) s = issueConv e 0x52 w (amaxTensor (engKey e) w) s := rfl

end

/-- Settles O5: CVT's write is cut into its elements, its block scales and its tensor scale, each a run of bits put into one
register; a refused conversion is EV_VEC_FAULT and its halt. -/
theorem conversion : Obligations.Conversion := by
  unfold Obligations.Conversion
  refine ⟨fun e w s h hb => ?_, fun e w s op i hi h hb => ?_⟩
  · let k := engKey e
    let r := s.eng k
    let o := convRun s.job.seed k w r
    refine ⟨convWrite k w o r, ?_, convWrite_frame k w o r, fun i hd hc => convWrite_rv_of_ne k w o r hd hc,
      fun i hi => convWrite_rs_of_ne k w o r hi, fun t ht h0 => convWrite_rs_scale k w o r ht h0,
      convWrite_vflags k w o r, convWrite_lost k w o r, fun hne hr j hj => elemAt_convWrite_regSide k w o r hne hr hj,
      fun hne hr => ⟨fun j hj hin => elemAt_convWrite_packed k w o r hne hr hj hin,
        fun b hb hout => testBit_convWrite_packed k w o r hne hr hb hout⟩,
      fun hs => ⟨fun j hj hin => elemAt_convWrite_scales k w o r hs hj hin,
        fun hne j hin hout => elemAt_convWrite_scales_of_out k w o r hs hne hin hout⟩⟩
    exact (exec_cvt_eq e w s).trans (issueConv_of_service _ h hb)
  · have hx : exec i s = .next (vecFault (engKey e) 5 s) := by
      rcases hi with ⟨rfl, rfl⟩ | ⟨rfl, rfl⟩ | ⟨rfl, rfl⟩
      · rw [exec_cvt_eq, issueConv_of_serviceBad _ h hb]
      · rw [exec_amaxb_eq, issueConv_of_serviceBad _ h hb]
      · rw [exec_amaxt_eq, issueConv_of_serviceBad _ h hb]
    refine ⟨hx, vecFault_haltOnly _ _ _, fun v hv hl h0 => ?_⟩
    exact vecFault_halts 5 hv hl h0

end Sys2Proof.NumberFormats

/-!
The statements on scaling and overflow replay: sequence, branches and loops (O11), CLS.PUT and CLS.TAKE (O16), and the end
of a layer group (O20).
-/
namespace Sys2Proof.OverflowReplay
open Sys2Proof.Machine Sys2Proof.NumberFormats

/-! ### Where control goes (R121, R162) -/

/-- A cell's layer group depends on its registers through its status alone. -/
theorem inGroup_updEng {s : State} {k : Nat} {f : EngineState → EngineState}
    (hf : (f (s.eng k)).stat = (s.eng k).stat) : (s.updEng k f).inGroup k = s.inGroup k := by
  unfold State.inGroup
  simp only [updEng_stageOfCell, State.updEng_stage, State.updEng_eng_self, hf]

theorem plainTarget_updEng {s : State} {k n : Nat} {f : EngineState → EngineState}
    (hf : (f (s.eng k)).stat = (s.eng k).stat) (h : PlainTarget k n s) : PlainTarget k n (s.updEng k f) := by
  unfold PlainTarget at h ⊢
  rw [inGroup_updEng hf]
  exact h

/-- At a plain target only the instruction index moves. -/
theorem land_of_plainTarget {s : State} {k n : Nat} (branch : Bool) (h : PlainTarget k n s) :
    land k n branch s = s.updEng k fun e => { e with pc := n } := by
  unfold PlainTarget at h
  unfold land
  cases hg : s.inGroup k with
  | some x =>
    simp only [hg] at h
    simp [h]
  | none =>
    simp only [hg] at h
    rcases h with hi | ⟨v, hv, he, ha⟩
    · simp [landNull, hi]
    · by_cases hi : isInflector k = true
      · simp [landNull, hi]
      · simp [landNull, hi, hv, he, ha]

/-- Landing at a plain target after the loops have changed. -/
theorem land_updEng_loops {s : State} {k n : Nat} (branch : Bool) (f : EngineState → List LoopFrame)
    (h : PlainTarget k n s) : land k n branch (s.updEng k fun e => { e with loops := f e }) =
      s.updEng k fun e => { e with pc := n, loops := f e } := by
  rw [land_of_plainTarget branch (plainTarget_updEng rfl h), updEng_updEng]

theorem advanceFrom_eq (k last : Nat) (s : State) : advanceFrom k last s =
    land k (loopNext last (activeLoops k s)).1 false (s.updEng k fun e =>
      { e with loops := (loopNext last (activeLoops k s)).2 ++ (s.eng k).loops.drop (activeLoops k s).length }) := by
  unfold advanceFrom activeLoops
  cases s.inGroup k <;> rfl

/-- The loops that act are the first of all active ones. -/
theorem take_length_activeLoops (k : Nat) (s : State) :
    (s.eng k).loops.take (activeLoops k s).length = activeLoops k s := by
  unfold activeLoops EngineState.innerLoops
  cases s.inGroup k <;> simp

theorem branchTo_eq (k t : Nat) (s : State) : branchTo k t s =
    land k t true (s.updEng k fun e => { e with
      loops := loopsAfterBranch t (activeLoops k s) ++ (s.eng k).loops.drop (activeLoops k s).length }) := by
  have h : branchTo k t s = land k t true (s.updEng k fun _ => { s.eng k with
      loops := loopsAfterBranch t ((s.eng k).loops.take (activeLoops k s).length) ++
        (s.eng k).loops.drop (activeLoops k s).length }) := by
    unfold branchTo activeLoops
    cases s.inGroup k <;> rfl
  rw [h, take_length_activeLoops]
  rfl

theorem advance_of_plainTarget {s : State} {k n : Nat} {t : List LoopFrame}
    (hn : loopNext (s.eng k).pc (activeLoops k s) = (n, t)) (h : PlainTarget k n s) :
    advance k s = s.updEng k fun r =>
      { r with pc := n, loops := t ++ (s.eng k).loops.drop (activeLoops k s).length } := by
  rw [advance, advanceFrom_eq, hn]
  exact land_updEng_loops false _ h

theorem loopNext_of_left {f : LoopFrame} {t : List LoopFrame} (h : f.left > 1) :
    loopNext f.last (f :: t) = (f.first, { f with left := f.left - 1 } :: t) := by
  simp [loopNext, h]

theorem branchTo_of_plainTarget {s : State} {k t : Nat} (h : PlainTarget k t s) :
    branchTo k t s = s.updEng k fun r => { r with
      pc := t, loops := loopsAfterBranch t (activeLoops k s) ++ (s.eng k).loops.drop (activeLoops k s).length } := by
  rw [branchTo_eq]
  exact land_updEng_loops true _ h

/-! ### BR, BRC and LOOP (R141, R162) -/

section
variable {e : Engine} {w : VFields} {s : State}

theorem exec_br_of_canIssue (h : CanIssue e 0x02 w s) :
    exec (.br e w) s = .next (branchTo (engKey e) w.imm.toNat s) :=
  issue_of_canIssue e 0x02 w _ s h

theorem exec_brc_of_canIssue (h : CanIssue e 0x03 w s) :
    exec (.brc e w) s = .next (if brcTaken w.mode.toNat ((s.eng (engKey e)).rs w.va.toNat) then
      branchTo (engKey e) w.imm.toNat s else advance (engKey e) s) := by
  change execBrc e w s = _
  rw [execBrc, issue_of_canIssue _ _ _ _ _ h]

theorem exec_loop_of_canIssue (h : CanIssue e 0x04 w s) :
    exec (.loop e w) s = .next (loopOp (engKey e) w s) :=
  issue_of_canIssue e 0x04 w _ s h

end

/-! ### Registers that stand whatever control meets -/

/-- Vector, scalar and predicate registers and the sticky flags are as before. -/
def RegsStand (r r' : EngineState) : Prop :=
  r'.sregs = r.sregs ∧ r'.vregs = r.vregs ∧ r'.pregs = r.pregs ∧ r'.vflags = r.vflags ∧ r'.aflags = r.aflags

/-- They are in every engine. -/
def AllRegsStand (s t : State) : Prop := ∀ k, RegsStand (s.eng k) (t.eng k)

theorem regsStand_refl (r : EngineState) : RegsStand r r := ⟨rfl, rfl, rfl, rfl, rfl⟩

theorem allRegsStand_refl (s : State) : AllRegsStand s s := fun _ => regsStand_refl _

theorem allRegsStand_trans {s t u : State} (h : AllRegsStand s t) (h' : AllRegsStand t u) : AllRegsStand s u := by
  intro k
  obtain ⟨hs, hv, hp, hf, ha⟩ := h k
  obtain ⟨hs', hv', hp', hf', ha'⟩ := h' k
  exact ⟨hs'.trans hs, hv'.trans hv, hp'.trans hp, hf'.trans hf, ha'.trans ha⟩

theorem allRegsStand_of_engines {s t : State} (h : t.engines = s.engines) : AllRegsStand s t := by
  intro k
  unfold State.eng
  rw [h]
  exact regsStand_refl _

theorem allRegsStand_updEng {f : EngineState → EngineState} (hf : ∀ r, RegsStand r (f r)) (s : State) (k : Nat) :
    AllRegsStand s (s.updEng k f) := by
  intro i
  rw [State.updEng_eng]
  split
  · next h => subst h; exact hf _
  · exact regsStand_refl _

/-- Moving the instruction index, the loops and the status changes no register. -/
theorem allRegsStand_control (pc : EngineState → Nat) (loops : EngineState → List LoopFrame) (stat : EngineState → EStat)
    (s : State) (k : Nat) :
    AllRegsStand s (s.updEng k fun r => { r with pc := pc r, loops := loops r, stat := stat r }) := by
  apply allRegsStand_updEng
  exact fun _ => ⟨rfl, rfl, rfl, rfl, rfl⟩

theorem forEach_allRegsStand {α : Type} {f : α → State → State} (hf : ∀ x s, AllRegsStand s (f x s)) (xs : List α) :
    ∀ s : State, AllRegsStand s (forEach xs f s) := by
  induction xs with
  | nil => exact allRegsStand_refl
  | cons x t ih => intro s; exact allRegsStand_trans (hf x s) (ih (f x s))

theorem halt_regsStand (r : EngineState) : RegsStand r r.halt := ⟨rfl, rfl, rfl, rfl, rfl⟩

theorem dropRun_regsStand (v : Nat) (r : EngineState) : RegsStand r (r.dropRun v) := by
  unfold EngineState.dropRun
  split
  · exact ⟨rfl, rfl, rfl, rfl, rfl⟩
  · exact regsStand_refl r

/-- A halt discards queues and loops; no register changes (R82). -/
theorem haltStage_allRegsStand (v code : Nat) (final : Bool) (s : State) :
    AllRegsStand s (haltStage v code final s) := by
  have hcells : ∀ (xs : List Nat) (g : Stage → Stage), AllRegsStand s
      (forEach xs (fun k s => s.updEng k EngineState.halt) (s.updStage v g)) := fun xs g =>
    allRegsStand_trans (allRegsStand_of_engines rfl)
      (forEach_allRegsStand (fun k s => allRegsStand_updEng halt_regsStand s k) xs _)
  unfold haltStage
  dsimp only
  split
  · exact allRegsStand_refl s
  · split
    · split
      · exact allRegsStand_of_engines rfl
      · exact allRegsStand_refl s
    · split
      · exact hcells _ _
      · exact allRegsStand_trans (hcells _ _) (allRegsStand_updEng (dropRun_regsStand v) _ _)

theorem lgBranch_allRegsStand (k : Nat) (s : State) : AllRegsStand s (lgBranch k s) := by
  refine allRegsStand_trans
    (allRegsStand_of_engines (raise_eventOnly 0x0105 (engUnit k).1 (engUnit k).2 [] s).engines_eq) ?_
  show AllRegsStand _ (haltOf _ _ _)
  unfold haltOf
  split
  · exact haltStage_allRegsStand _ _ _ _
  · exact allRegsStand_refl _

theorem landNull_allRegsStand (k t : Nat) (s : State) : AllRegsStand s (landNull k t s) := by
  unfold landNull
  split
  · exact allRegsStand_control _ _ _ s k
  · split
    · exact allRegsStand_refl s
    · split
      · exact allRegsStand_control _ _ _ s k
      · split
        · exact lgBranch_allRegsStand k s
        · exact allRegsStand_control _ _ _ s k

theorem land_allRegsStand (k t : Nat) (branch : Bool) (s : State) : AllRegsStand s (land k t branch s) := by
  unfold land
  split
  · exact landNull_allRegsStand k t s
  · split
    · exact allRegsStand_control _ _ _ s k
    · split
      · exact lgBranch_allRegsStand k s
      · exact allRegsStand_control _ _ _ s k

theorem advance_allRegsStand (k : Nat) (s : State) : AllRegsStand s (advance k s) :=
  allRegsStand_trans (allRegsStand_control _ _ _ s k) (land_allRegsStand k _ false _)

theorem advance_haltOnly (k : Nat) (s : State) : HaltOnly s (advance k s) :=
  haltOnly_trans (updEng_haltOnly s k _) (land_haltOnly k _ false _)

/-- Settles O11: going on is landing at the next instruction with the loops that are left, a branch is landing at its target,
and at a plain target only the instruction index and the loops of the engine change. -/
theorem sequenceAndBranches : Obligations.SequenceAndBranches := by
  unfold Obligations.SequenceAndBranches
  refine ⟨fun k s => ⟨fun n t hn h => advance_of_plainTarget hn h, fun f t hact hlast hleft h => ?again⟩,
    ⟨fun e w s h => ⟨fun hi => ?br, fun hi htaken => ?taken, fun hi htaken => ?notTaken⟩, fun e w s hi => ?loop⟩,
    fun k s => ?stands⟩
  case again =>
    exact advance_of_plainTarget (by rw [hact, ← hlast, loopNext_of_left hleft]) h
  case br => rw [exec_br_of_canIssue hi, branchTo_of_plainTarget h]
  case taken => rw [exec_brc_of_canIssue hi, if_pos htaken, branchTo_of_plainTarget h]
  case notTaken => rw [Completes, advance_updEng_same, exec_brc_of_canIssue hi, htaken, if_neg Bool.false_ne_true]
  case loop =>
    intro n free
    rw [exec_loop_of_canIssue hi, loopOp]
    refine ⟨fun hfull => ?_, fun hfree hn h => ?_, fun hfree hn => ?_⟩
    · rw [if_pos (Nat.le_of_not_lt hfull)]
    · rw [if_neg (Nat.not_le_of_lt hfree), if_neg hn]
      exact congrArg _ (land_updEng_loops false _ h)
    · rw [if_neg (Nat.not_le_of_lt hfree), if_pos hn]
  case stands =>
    obtain ⟨hs, hv, hp, hf, ha⟩ := advance_allRegsStand k s k
    refine ⟨advance_haltOnly k s, (advance_haltOnly k s).mem_eq, fun i => ?_, fun i => ?_, hp, hf, ha⟩
    · unfold EngineState.rs; rw [hs]
    · unfold EngineState.rv; rw [hv]

/-! ### One stage changed -/

theorem updStage_updStage (s : State) (v : Nat) (f f' : Stage → Stage) :
    (s.updStage v f).updStage v f' = s.updStage v fun g => f' (f g) := by
  unfold State.updStage supd
  simp only [sget_sset_self, sset_sset]

theorem updStage_congr {s : State} {v : Nat} {f f' : Stage → Stage} (h : f (s.stage v) = f' (s.stage v)) :
    s.updStage v f = s.updStage v f' := by
  change { s with stages := sset {} v (f (s.stage v)) s.stages } = { s with stages := sset {} v (f' (s.stage v)) s.stages }
  rw [h]

theorem updStage_onlyStage (s : State) (v : Nat) (f : Stage → Stage) :
    OnlyStage v (f (s.stage v)) s (s.updStage v f) :=
  ⟨rfl, State.updStage_stage_self s v f, fun _ h => State.updStage_stage_of_ne s f h⟩

theorem updEng_onlyEng (s : State) (k : Nat) (f : EngineState → EngineState) :
    OnlyEng k (f (s.eng k)) s (s.updEng k f) :=
  ⟨rfl, State.updEng_eng_self s k f, fun _ h => State.updEng_eng_of_ne s f h⟩

/-- A part of every stage that a change of stage `v` leaves. -/
theorem updStage_part {α : Type} {s : State} {v : Nat} {f : Stage → Stage} (p : Stage → α)
    (h : p (f (s.stage v)) = p (s.stage v)) (u : Nat) : p ((s.updStage v f).stage u) = p (s.stage u) := by
  rw [State.updStage_stage]
  split
  · next hu => subst hu; exact h
  · rfl

/-- A change of a stage that leaves its image, whether it is loaded, and its execution. -/
def KeepsImage (f : Stage → Stage) : Prop :=
  ∀ g, (f g).loaded = g.loaded ∧ (f g).image = g.image ∧ (f g).exec = g.exec

section
variable {f : Stage → Stage} (hf : KeepsImage f) (s : State) (v : Nat)
include hf

theorem loadedStages_updStage : (s.updStage v f).loadedStages = s.loadedStages := by
  unfold State.loadedStages
  simp only [updStage_part (·.loaded) (hf (s.stage v)).1]

theorem findStage_updStage (n : Nat) : (s.updStage v f).findStage n = s.findStage n := by
  unfold State.findStage
  simp only [loadedStages_updStage hf, updStage_part (·.image.stage) (congrArg (·.stage) (hf (s.stage v)).2.1)]

theorem cellKeys_updStage (u : Nat) : ((s.updStage v f).stage u).cellKeys = (s.stage u).cellKeys :=
  updStage_part Stage.cellKeys (by unfold Stage.cellKeys; rw [(hf (s.stage v)).2.1]) u

theorem stageOfCell_updStage (k : Nat) : (s.updStage v f).stageOfCell k = s.stageOfCell k := by
  unfold State.stageOfCell
  simp only [loadedStages_updStage hf, cellKeys_updStage hf]

theorem inGroup_updStage (k : Nat) : (s.updStage v f).inGroup k = s.inGroup k := by
  have hdecl : ∀ u id, ((s.updStage v f).stage u).decl id = (s.stage u).decl id := fun u id =>
    updStage_part (·.decl id) (by unfold Stage.decl; rw [(hf (s.stage v)).2.1]) u
  unfold State.inGroup
  simp only [stageOfCell_updStage hf, updStage_part (·.exec) (hf (s.stage v)).2.2, hdecl]
  rfl

end

/-! ### Bits of a Clause (Table 7.3) -/

theorem testBit_setClause_of_out (c : BitVec 512) {hi lo b : Nat} (x : Nat) (h : b < lo ∨ hi < b) :
    (setClause c hi lo x).toNat.testBit b = c.toNat.testBit b := by
  unfold setClause
  rw [BitVec.toNat_ofNat, Nat.testBit_mod_two_pow, testBit_setBits]
  have hout : (if b < lo then c.toNat.testBit b else if b < lo + (hi + 1 - lo) then x.testBit (b - lo)
      else c.toNat.testBit b) = c.toNat.testBit b := by
    split
    · rfl
    · rw [if_neg (by omega)]
  rw [hout]
  by_cases hb : b < 512
  · simp [hb]
  · have hc : c.toNat.testBit b = false := BitVec.getLsbD_of_ge c b (Nat.le_of_not_lt hb)
    simp [hb, hc]

/-- A field of a Clause that a write to bits `[hi:lo]` does not meet. -/
theorem bits_setClause_of_out (c : BitVec 512) {hi lo i j : Nat} (x : Nat) (h : i < lo ∨ hi < j) :
    bits (setClause c hi lo x).toNat i j = bits c.toNat i j := by
  apply Nat.eq_of_testBit_eq
  intro b
  unfold bits
  simp only [Nat.testBit_mod_two_pow, Nat.testBit_shiftRight]
  by_cases hb : b < i + 1 - j
  · simp only [hb, decide_true, Bool.true_and]
    exact testBit_setClause_of_out c x (by omega)
  · simp [hb]

/-- A Clause as its out-queue takes it: SRC_STAGE, DST_STAGE and SEQ are written (R176). -/
def stampClause (src dst seq : Nat) (c : BitVec 512) : BitVec 512 :=
  setClause (setClause (setClause c 31 16 src) 47 32 dst) 127 96 seq

section
variable (src dst seq : Nat) (c : BitVec 512)

theorem bits_stampClause {i j : Nat} (h : i < 16 ∨ 127 < j) :
    bits (stampClause src dst seq c).toNat i j = bits c.toNat i j := by
  unfold stampClause
  rw [bits_setClause_of_out _ _ (by omega), bits_setClause_of_out _ _ (by omega), bits_setClause_of_out _ _ (by omega)]

@[simp] theorem clauseKind_stampClause : clauseKind (stampClause src dst seq c) = clauseKind c :=
  bits_stampClause src dst seq c (by decide)

@[simp] theorem clauseLen_stampClause : clauseLen (stampClause src dst seq c) = clauseLen c :=
  bits_stampClause src dst seq c (by decide)

@[simp] theorem clauseS_stampClause : clauseS (stampClause src dst seq c) = clauseS c := by
  change (stampClause src dst seq c).toNat.testBit 4 = c.toNat.testBit 4
  unfold stampClause
  rw [testBit_setClause_of_out _ _ (by decide), testBit_setClause_of_out _ _ (by decide),
    testBit_setClause_of_out _ _ (by decide)]

end

/-! ### An entry of the Clause store -/

theorem getElem_leBytes (n : Nat) : ∀ (x i : Nat) (h : i < (leBytes n x).length),
    (leBytes n x)[i] = BitVec.ofNat 8 (x >>> (8 * i)) := by
  induction n with
  | zero => intro x i h; simp [leBytes] at h
  | succ n ih =>
    intro x i h
    cases i with
    | zero =>
      apply BitVec.eq_of_toNat_eq
      simp [leBytes]
    | succ i =>
      have hi : i < (leBytes n (x / 256)).length := by simpa [leBytes] using h
      have hx : x / 256 = x >>> 8 := (Nat.shiftRight_eq_div_pow x 8).symm
      calc (leBytes (n + 1) x)[i + 1]
          = (leBytes n (x / 256))[i] := rfl
        _ = BitVec.ofNat 8 ((x / 256) >>> (8 * i)) := ih _ i hi
        _ = BitVec.ofNat 8 (x >>> (8 * (i + 1))) := by
          rw [hx, ← Nat.shiftRight_add, Nat.add_comm 8, ← Nat.mul_succ]

/-- Memory after the low `n` bytes of a number have been written. -/
theorem memRead_memPutNat (m : Memory) (a n x b : Nat) : memRead (memPutNat m a n x) b =
    if a ≤ b ∧ b < a + n then BitVec.ofNat 8 (x >>> (8 * (b - a))) else memRead m b := by
  split
  · next h =>
    have hi : b - a < (leBytes n x).length := by rw [leBytes_length]; omega
    have hb : a + (b - a) = b := by omega
    have hread := memRead_memWriteBytes_of_in (leBytes n x) m a (b - a) hi
    rwa [hb, getElem_leBytes] at hread
  · next h => exact memRead_memWriteBytes_of_out _ _ _ _ (by rw [leBytes_length]; omega)

@[simp] theorem writeClause_stage (a : Nat) (c : BitVec 512) (s : State) (v : Nat) :
    (writeClause a c s).stage v = s.stage v := rfl

@[simp] theorem writeClause_eng (a : Nat) (c : BitVec 512) (s : State) (k : Nat) :
    (writeClause a c s).eng k = s.eng k := rfl

theorem writeClause_updStage (a : Nat) (c : BitVec 512) (s : State) (v : Nat) (f : Stage → Stage) :
    writeClause a c (s.updStage v f) = (writeClause a c s).updStage v f := rfl

theorem memRead_writeClause (a : Nat) (c : BitVec 512) (s : State) (b : Nat) : memRead (writeClause a c s).mem b =
    if a ≤ b ∧ b < a + 64 then BitVec.ofNat 8 (c.toNat >>> (8 * (b - a))) else memRead s.mem b :=
  memRead_memPutNat s.mem a 64 c.toNat b

/-! ### CLS.PUT (R125, R176 to R178) -/

/-- A placement uses the reservation that its take has made, where there is one (R184). -/
def unreserve (back : Bool) (g : Stage) : Stage := g.updOut back fun q => { q with reserved := q.reserved - 1 }

/-- A placement inside a layer group: the Clause is held back, with whether it has used a reservation (R125). -/
def holdBack (back : Bool) (c : BitVec 512) (g : Stage) : Stage := g.updOut back fun q =>
  { q with reserved := q.reserved - 1, heldBack := q.heldBack ++ [(c, decide (0 < q.reserved))] }

theorem unreserve_keepsImage (back : Bool) : KeepsImage (unreserve back) := by
  intro g
  cases back <;> exact ⟨rfl, rfl, rfl⟩

theorem updOut_eq_self {back : Bool} {g : Stage} {f : OutQueue → OutQueue} (h : f (g.outQ back) = g.outQ back) :
    g.updOut back f = g := by
  unfold Stage.outQ at h
  unfold Stage.updOut
  cases back
  · exact congrArg (fun q => { g with forwardOut := q }) h
  · exact congrArg (fun q => { g with backwardOut := q }) h

theorem unreserve_of_none {back : Bool} {g : Stage} (h : (g.outQ back).reserved = 0) : unreserve back g = g := by
  apply updOut_eq_self
  generalize g.outQ back = q at h
  cases q
  cases h
  rfl

/-- CLS.PUT of a verdict Clause notes in its stage, which was `g0`, the update whose verdict it carries (R244). -/
def noteVerdict (c : BitVec 512) (g0 g : Stage) : Stage :=
  { g with update := { g.update with
      placedBack := if clauseKind c = 3 then g0.verdictFor (clauseKind c == 4) else g.update.placedBack
      placedFwd := if clauseKind c = 4 then g0.verdictFor (clauseKind c == 4) else g.update.placedFwd } }

/-- A V or a B Clause carries no verdict. -/
theorem noteVerdict_of_kind {c : BitVec 512} (h : clauseKind c = 1 ∨ clauseKind c = 2) (g0 g : Stage) :
    noteVerdict c g0 g = g := by
  unfold noteVerdict
  rw [if_neg (show clauseKind c ≠ 3 by omega), if_neg (show clauseKind c ≠ 4 by omega)]

/-- What CLS.PUT of Clause `c` writes into its stage, which was `g0`, before the Clause is held back or placed. -/
def claim (back : Bool) (c : BitVec 512) (g0 g : Stage) : Stage :=
  noteVerdict c g0 (if decide ((g0.outQ back).reserved > 0) then unreserve back g else g)

theorem claim_of_kind {back : Bool} {c : BitVec 512} {g : Stage} (h : clauseKind c = 1 ∨ clauseKind c = 2) :
    claim back c g g = unreserve back g := by
  rw [claim, noteVerdict_of_kind h]
  split
  · rfl
  · next hr => exact (unreserve_of_none (by simpa using hr)).symm

/-- The Clause that CLS.PUT reads in its vector register. -/
def putClause (k : Nat) (w : VFields) (s : State) : BitVec 512 :=
  BitVec.ofNat 512 ((s.eng k).rv w.va.toNat % 2 ^ 512)

/-- CLS.PUT finds nothing to refuse in the Clause (Table 7.5, R177), which is a V or a B Clause. -/
structure PutValid (k v : Nat) (w : VFields) (s : State) : Prop where
  cell : s.stageOfCell k = some v
  reason : putReason (s.stage v) (w.mode == 1) (putClause k w s) = none
  len : clauseLen (putClause k w s) ≤ s.lenLimit (s.stage v) (w.mode == 1)
  payload : (s.stage v).payloadOk (putClause k w s) = true
  bad : s.badAmong [queueState v (2 + bit (w.mode == 1))] = none
  kind : clauseKind (putClause k w s) = 1 ∨ clauseKind (putClause k w s) = 2

/-- The stage and the Clause queues after a placement that goes through. -/
def put (k v : Nat) (back : Bool) (c : BitVec 512) (s : State) : State :=
  if (s.inGroup k).isSome then s.updStage v (holdBack back c) else placeClause v back c (s.updStage v (unreserve back))

theorem clsPut_of_valid {k v : Nat} {w : VFields} {s : State} (h : PutValid k v w s) :
    clsPut k w s =
      if ((s.stage v).outQ (w.mode == 1)).reserved = 0 ∧ (s.stage v).outFree (w.mode == 1) = false then s
      else advance k (put k v (w.mode == 1) (putClause k w s) s) := by
  obtain ⟨hcell, hreason, hlen, hpay, hbad, hkind⟩ := h
  let g := s.stage v
  let back := w.mode == 1
  let c := putClause k w s
  let s1 := s.updStage v (claim back c g)
  have hnov : (clauseKind (putClause k w s) == 3 || clauseKind (putClause k w s) == 4) = false := by
    rcases hkind with hk | hk <;> rw [hk] <;> rfl
  have hgo : clsPut k w s = if (!decide ((g.outQ back).reserved > 0) && !g.outFree back) = true then s
      else advance k (if (s1.inGroup k).isSome then s1.updStage v fun g' => g'.updOut back fun q =>
          { q with heldBack := q.heldBack ++ [(c, decide ((g.outQ back).reserved > 0))] }
        else placeClause v back c s1) := by
    unfold putClause at hreason hlen hpay hnov
    unfold clsPut
    simp only [hcell, hreason, hpay, hbad, Nat.not_lt_of_le hlen, hnov, if_false, Bool.not_true, Bool.false_eq_true,
      Bool.false_and, Bool.false_or]
    rfl
  have hs1 : s1 = s.updStage v (unreserve back) := updStage_congr (claim_of_kind hkind)
  have hfree : ((!decide ((g.outQ back).reserved > 0) && !g.outFree back) = true) =
      ((g.outQ back).reserved = 0 ∧ g.outFree back = false) := by simp
  have hput : (if (s1.inGroup k).isSome then s1.updStage v fun g' => g'.updOut back fun q =>
      { q with heldBack := q.heldBack ++ [(c, decide ((g.outQ back).reserved > 0))] }
      else placeClause v back c s1) = put k v back c s := by
    rw [hs1, inGroup_updStage (unreserve_keepsImage back), updStage_updStage]
    unfold put
    congr 1
    apply updStage_congr
    cases back <;> rfl
  rw [hgo, hput]
  simp only [hfree]
  rfl

/-- A forward Clause with its SRC_STAGE, DST_STAGE and SEQ enters forward-out (R176, R178). -/
def enterForward (c : BitVec 512) (g : Stage) : Stage :=
  { g with
    forwardOut := { g.forwardOut with items := g.forwardOut.items ++ [c], seq := g.forwardOut.seq + 1 }
    lenS := if clauseS c then satAdd g.lenS (clauseLen c) else g.lenS
    lenV := if clauseS c then g.lenV else satAdd g.lenV (clauseLen c) }

/-- The Clause as forward-out takes it. -/
def forwardClause (g : Stage) (c : BitVec 512) : BitVec 512 := stampClause g.image.stage g.succ g.forwardOut.seq c

/-- CLASS and LEN, which the counters read, are those of the Clause that was put. -/
theorem enterForward_unreserve (g : Stage) (c : BitVec 512) :
    enterForward (forwardClause g c) (unreserve false g) = { g with
      forwardOut := { g.forwardOut with
        reserved := g.forwardOut.reserved - 1, items := g.forwardOut.items ++ [forwardClause g c]
        seq := g.forwardOut.seq + 1 }
      lenS := if clauseS c then satAdd g.lenS (clauseLen c) else g.lenS
      lenV := if clauseS c then g.lenV else satAdd g.lenV (clauseLen c) } := by
  unfold enterForward
  rw [show clauseS (forwardClause g c) = clauseS c from clauseS_stampClause _ _ _ c,
    show clauseLen (forwardClause g c) = clauseLen c from clauseLen_stampClause _ _ _ c]
  rfl

/-- A V Clause for a stage of this module: its entry of the Clause store is written, and it enters forward-out. -/
theorem placeClause_forward {v : Nat} {c : BitVec 512} {s : State} (hk : clauseKind c = 1)
    (hd : (s.findStage (s.stage v).succ).isSome = true) :
    placeClause v false c s =
      (writeClause (outEntry (s.stage v) v false (s.stage v).forwardOut.seq) (forwardClause (s.stage v) c) s).updStage v
        (enterForward (forwardClause (s.stage v) c)) := by
  let g := s.stage v
  let c' := forwardClause g c
  let s1 := writeClause (outEntry g v false g.forwardOut.seq) c' s
  let enter : Stage → Stage := fun g =>
    let g := g.updOut false fun q => { q with items := q.items ++ [c'], seq := q.seq + 1 }
    if clauseS c' then { g with lenS := satAdd g.lenS (clauseLen c') } else { g with lenV := satAdd g.lenV (clauseLen c') }
  have hk' : clauseKind c' = 1 := (clauseKind_stampClause _ _ _ c).trans hk
  have henter : enter = enterForward c' := by
    funext g
    by_cases h : clauseS c' = true <;> simp [enter, enterForward, Stage.updOut, h]
  have hfind : ((s1.updStage v enter).findStage g.succ).isNone = false := by
    rw [findStage_updStage (by rw [henter]; exact fun _ => ⟨rfl, rfl, rfl⟩)]
    change (s.findStage g.succ).isNone = false
    rw [Option.isNone_eq_false_iff]
    exact hd
  have hk4 : (clauseKind c' == 4 && g.isFirst) = false := by rw [hk']; rfl
  have hplace : placeClause v false c s =
      let s2 := s1.updStage v enter
      let s3 := if (clauseKind c' == 4 && g.isFirst) = true then
        s2.updStage v fun g => { g with update := { g.update with verdict := some (clauseNf c') } } else s2
      if (s3.findStage g.succ).isNone = true then queueClause v false g.succ c' s3 else s3 := rfl
  rw [hplace]
  simp only [hk4, hfind, Bool.false_eq_true, if_false]
  exact congrArg (s1.updStage v) henter

/-- A V Clause goes forward: backward-out takes none of its kind (Table 7.5). -/
theorem forward_of_putReason {g : Stage} {back : Bool} {c : BitVec 512} (h : putReason g back c = none)
    (hk : clauseKind c = 1) : back = false := by
  cases back
  · rfl
  · exfalso
    simp only [putReason, hk] at h
    split at h
    · cases h
    · rw [if_pos (by rfl)] at h
      cases h

/-! ### CLS.TAKE (R183 to R185, R191, R203) -/

/-- A Clause as a taking cell reads it: TENSE_STAGE and TENSE_COMMIT are written (R183). -/
def tagClause (stage commit : Nat) (c : BitVec 512) : BitVec 512 := setClause (setClause c 303 288 stage) 287 256 commit

/-- Nothing keeps CLS.TAKE from taking the FORWARD Clause at the head of forward-in, and the view is filled. -/
structure TakeForward (k v : Nat) (w : VFields) (c : BitVec 512) (rest : List (BitVec 512)) (s : State) : Prop where
  cell : s.stageOfCell k = some v
  mode : w.mode ≠ 1
  replay : (s.stage v).forwardIn.replay = 0
  items : (s.stage v).forwardIn.items = c :: rest
  kind : clauseKind c = 1
  fresh : ((s.stage v).records.any fun r => r.mb == clauseMb c) = false
  noBackward : (s.stage v).backwardIn.items = []
  noReplay : (s.stage v).backwardIn.replay = 0
  ready : (s.stage v).takeReady c = true
  view : (s.stage v).viewForward = some (s.stage v).presentCommit
  bad : s.badAmong (queueState v 0 :: (inEntry (s.stage v) v false (clauseSeq c), 64) ::
    (s.stage v).slotRecord v (s.stage v).presentCommit) = none

theorem clsTake_of_takeForward {k v : Nat} {w : VFields} {c : BitVec 512} {rest : List (BitVec 512)} {s : State}
    (h : TakeForward k v w c rest s) : clsTake k w s = takeNew k v false w c s := by
  obtain ⟨hcell, hmode, hreplay, hitems, hkind, hfresh, hnoB, hnoR, hready, hview, hbad⟩ := h
  have hm : (w.mode == 1) = false := beq_eq_false_iff_ne.mpr hmode
  have hcommit : (s.stage v).takeCommit c = some (s.stage v).presentCommit := by simp [Stage.takeCommit, hkind]
  unfold clsTake
  simp only [hcell, hm, Stage.inQ, hreplay, hitems, hfresh, hnoB, hnoR, hready, hcommit, Bool.false_eq_true, if_false]
  simp [hkind, hbad, hview, bit]

/-- With nothing to take on forward-in, or while a take waits there, and something on backward-in, EMPTY is returned. -/
theorem clsTake_of_backward {k v : Nat} {w : VFields} {s : State} (hcell : s.stageOfCell k = some v) (hmode : w.mode ≠ 1)
    (hreplay : (s.stage v).forwardIn.replay = 0)
    (hwait : (s.stage v).forwardIn.items = [] ∨ (s.eng k).taking = true)
    (hback : (s.stage v).backwardIn.items ≠ [] ∨ 0 < (s.stage v).backwardIn.replay) :
    clsTake k w s = takeEmpty k v w s := by
  have hm : (w.mode == 1) = false := beq_eq_false_iff_ne.mpr hmode
  have hother : (!(s.stage v).backwardIn.items.isEmpty || decide ((s.stage v).backwardIn.replay > 0)) = true := by
    simpa using hback
  unfold clsTake
  simp only [hcell, hm, Stage.inQ, hreplay, hother, Bool.false_eq_true, if_false, Bool.not_false, Bool.true_and, if_true]
  rw [if_neg (Nat.lt_irrefl 0)]
  cases hitems : (s.stage v).forwardIn.items with
  | nil => rfl
  | cons c rest =>
    have htaking : (s.eng k).taking = true := hwait.resolve_left (by simp [hitems])
    simp only [htaking, if_true]

/-- What a FORWARD take binds and counts: the micro-batch's record, the reference to the present Tense (R183, R191). -/
def bindForward (c : BitVec 512) (g : Stage) : Stage :=
  { g with
    records := g.records ++ [⟨clauseMb c, g.presentCommit, [], g.freeRecord⟩]
    tenses := g.tenses.map fun t => if t.state = 2 then { t with refs := t.refs + 1 } else t
    takes := g.takes + 1
    takenV := if clauseS c then g.takenV else satInc g.takenV
    takenS := if clauseS c then satInc g.takenS else g.takenS }

/-- The out-queue in which a Clause of the stage goes on has one more reservation (R184). -/
def reserve (back : Bool) (g : Stage) : Stage := g.updOut back fun q => { q with reserved := q.reserved + 1 }

theorem takeEffects_forward {c : BitVec 512} (hk : clauseKind c = 1) (g : Stage) :
    g.takeEffects c = bindForward c (reserve g.isLast g) := by
  unfold Stage.takeEffects
  rw [hk]
  rfl

/-- The Clause leaves the entries that wait and is held, in its tagged form, until its take is settled (R179, R457). -/
def moveTaken (tagged : BitVec 512) (g : Stage) : Stage := g.updIn false fun q =>
  { q with items := q.items.drop 1, held := q.held ++ [tagged], rewindable := q.rewindable + 1 }

/-- It is the stage's current take, and no view is wanted. -/
def noteCurrent (tagged : BitVec 512) (g : Stage) : Stage := { g with
  current := some (clauseKind tagged, clauseMb tagged, clauseCommit tagged), wantForward := none, wantBackward := none }

/-- The stage after a FORWARD take. -/
def takenStage (c tagged : BitVec 512) (g : Stage) : Stage :=
  noteCurrent tagged (moveTaken tagged (bindForward c (reserve g.isLast g)))

theorem takenStage_outQ (c tagged : BitVec 512) (g : Stage) :
    ((takenStage c tagged g).outQ g.isLast).reserved = (g.outQ g.isLast).reserved + 1 := by
  unfold takenStage
  cases g.isLast <;> rfl

theorem takenStage_records (c tagged : BitVec 512) (g : Stage) :
    (takenStage c tagged g).records = g.records ++ [⟨clauseMb c, g.presentCommit, [], g.freeRecord⟩] := by
  unfold takenStage
  cases g.isLast <;> rfl

theorem takenStage_forwardIn (c tagged : BitVec 512) (g : Stage) : (takenStage c tagged g).forwardIn =
    { g.forwardIn with items := g.forwardIn.items.drop 1, held := g.forwardIn.held ++ [tagged]
                       rewindable := g.forwardIn.rewindable + 1 } := by
  unfold takenStage
  cases g.isLast <;> rfl

theorem takenStage_tenses (c tagged : BitVec 512) (g : Stage) : (takenStage c tagged g).tenses =
    g.tenses.map fun t => if t.state = 2 then { t with refs := t.refs + 1 } else t := by
  unfold takenStage
  cases g.isLast <;> rfl

theorem takenStage_takes (c tagged : BitVec 512) (g : Stage) : (takenStage c tagged g).takes = g.takes + 1 := by
  unfold takenStage
  cases g.isLast <;> rfl

/-- Bytes 0 to 63 of VD take the Clause, and the take waits no longer. -/
def readTaken (k : Nat) (w : VFields) (c : Nat) (r : EngineState) : EngineState :=
  { r.wv k w.vd.toNat (setBits (r.rv w.vd.toNat) 0 512 c) with taking := false }

/-- `t` differs from `s` at most where a take acts: engines, stages, ingest, memory and its marks. -/
def TakeOnly (s t : State) : Prop := t = { s with
  engines := t.engines, stages := t.stages, ingest := t.ingest, mem := t.mem, badWords := t.badWords }

theorem takeOnly_trans {s t u : State} (h : TakeOnly s t) (h' : TakeOnly t u) : TakeOnly s u := by
  unfold TakeOnly at *
  rw [h', h]

theorem updStage_updEng_takeOnly (s : State) (v k : Nat) (f : Stage → Stage) (f' : EngineState → EngineState) :
    TakeOnly s ((s.updStage v f).updEng k f') := rfl

/-- The state after a FORWARD take, before its engine goes on. -/
def takenState (k v : Nat) (w : VFields) (c tagged : BitVec 512) (s : State) : State :=
  let g := s.stage v
  let s := (writeClause (inEntry g v false (clauseSeq c)) tagged s).mend (mbAddr v g.freeRecord).1 64
  let s := s.updIngest fun i => { i with consumed := i.consumed + if g.isFirst then 1 else 0 }
  (s.updStage v (takenStage c tagged)).updEng k (readTaken k w tagged.toNat)

/-- A take at position 0 counts in what ingest has handed on (R297). -/
theorem updIngest_consumed (first : Bool) (s : State) :
    (if first then s.updIngest fun i => { i with consumed := i.consumed + 1 } else s) =
      s.updIngest fun i => { i with consumed := i.consumed + if first then 1 else 0 } := by
  cases first <;> rfl

theorem updIngest_updStage (s : State) (v : Nat) (f : Stage → Stage) (f' : Ingest → Ingest) :
    (s.updStage v f).updIngest f' = (s.updIngest f').updStage v f := rfl

theorem takeReturn_eq (k v : Nat) (w : VFields) (c : BitVec 512) (s : State) : takeReturn k v w c s =
    advance k ((s.updStage v (noteCurrent c)).updEng k (readTaken k w c.toNat)) := rfl

theorem takeNew_forward {k v : Nat} {w : VFields} {c : BitVec 512} {s : State} (hk : clauseKind c = 1) :
    takeNew k v false w c s = advance k
      (takenState k v w c (tagClause (s.stage v).image.stage (s.stage v).presentCommit c) s) := by
  let g := s.stage v
  let tagged := tagClause g.image.stage g.presentCommit c
  let s1 := (writeClause (inEntry g v false (clauseSeq c)) tagged s).mend (mbAddr v g.freeRecord).1 64
  let move : Stage → Stage := fun g => moveTaken tagged (g.takeEffects c)
  have hcommit : g.takeCommit c = some g.presentCommit := by simp [Stage.takeCommit, hk]
  have hstart : takeNew k v false w c s =
      takeReturn k v w tagged (if g.isFirst = true then
        (s1.updStage v move).updIngest fun i => { i with consumed := i.consumed + 1 } else s1.updStage v move) := by
    unfold takeNew
    simp only [hk, hcommit, g, Bool.false_eq_true, if_false, if_true, decide_true, Bool.true_and]
    rfl
  have hmove : (fun g => noteCurrent tagged (move g)) = takenStage c tagged := by
    funext g
    simp only [move, takeEffects_forward hk]
    rfl
  rw [hstart, updIngest_consumed, takeReturn_eq, updIngest_updStage, updStage_updStage, hmove]
  rfl

section
variable (k v : Nat) (w : VFields) (c tagged : BitVec 512) (s : State)

theorem takenState_takeOnly : TakeOnly s (takenState k v w c tagged s) :=
  let g := s.stage v
  let written := (writeClause (inEntry g v false (clauseSeq c)) tagged s).mend (mbAddr v g.freeRecord).1 64
  let counted := written.updIngest fun i => { i with consumed := i.consumed + if g.isFirst then 1 else 0 }
  have hwritten : TakeOnly s written := rfl
  have hcounted : TakeOnly written counted := rfl
  takeOnly_trans (takeOnly_trans hwritten hcounted) (updStage_updEng_takeOnly counted v k _ _)

theorem memRead_takenState (b : Nat) : memRead (takenState k v w c tagged s).mem b =
    if inEntry (s.stage v) v false (clauseSeq c) ≤ b ∧ b < inEntry (s.stage v) v false (clauseSeq c) + 64 then
      BitVec.ofNat 8 (tagged.toNat >>> (8 * (b - inEntry (s.stage v) v false (clauseSeq c)))) else memRead s.mem b := by
  have hmem : (takenState k v w c tagged s).mem =
      (writeClause (inEntry (s.stage v) v false (clauseSeq c)) tagged s).mem := rfl
  rw [hmem, memRead_writeClause]

theorem takenState_stage : (takenState k v w c tagged s).stage v = takenStage c tagged (s.stage v) := by
  simp [takenState]

theorem takenState_stage_of_ne {i : Nat} (h : i ≠ v) : (takenState k v w c tagged s).stage i = s.stage i := by
  simp [takenState, State.updStage_stage_of_ne _ _ h]

theorem takenState_eng : (takenState k v w c tagged s).eng k = readTaken k w tagged.toNat (s.eng k) := by
  simp [takenState]

theorem takenState_eng_of_ne {i : Nat} (h : i ≠ k) : (takenState k v w c tagged s).eng i = s.eng i := by
  simp [takenState, State.updEng_eng_of_ne _ _ h]

end

theorem exec_clsPut_of_canIssue {e : Engine} {w : VFields} {s : State} (h : CanIssue e 0x0A w s) :
    exec (.clsPut e w) s = .next (clsPut (engKey e) w s) :=
  issue_of_canIssue e 0x0A w _ s h

theorem exec_clsTake_of_canIssue {e : Engine} {w : VFields} {s : State} (h : CanIssue e 0x09 w s) :
    exec (.clsTake e w) s = .next (clsTake (engKey e) w s) :=
  issue_of_canIssue e 0x09 w _ s h

/-- A placement outside every layer group of a V Clause for a stage of this module (R176, R178). -/
theorem put_forward {k v : Nat} {c : BitVec 512} {s : State} (hg : s.inGroup k = none) (hk : clauseKind c = 1)
    (hd : (s.findStage (s.stage v).succ).isSome = true) :
    let c' := forwardClause (s.stage v) c
    put k v false c s = ((writeClause (outEntry (s.stage v) v false (s.stage v).forwardOut.seq) c' s).updStage v
      fun g => enterForward c' (unreserve false g)) := by
  have hs : (s.updStage v (unreserve false)).stage v = unreserve false (s.stage v) := State.updStage_stage_self _ _ _
  have hd' : ((s.updStage v (unreserve false)).findStage ((s.updStage v (unreserve false)).stage v).succ).isSome = true := by
    rw [findStage_updStage (unreserve_keepsImage false), hs]
    exact hd
  unfold put
  rw [hg, if_neg (by simp), placeClause_forward hk hd', hs, writeClause_updStage, updStage_updStage]
  rfl

/-- Settles O16: CLS.PUT of a valid Clause waits, or uses a reservation and holds the Clause back or places it; CLS.TAKE of a
FORWARD Clause with its view filled writes the tagged Clause, binds the micro-batch and hands the Clause to its cell. -/
theorem clausePutAndTake : Obligations.ClausePutAndTake := by
  unfold Obligations.ClausePutAndTake
  refine ⟨fun e w s v hi hcell => ?put, fun e w s v hi hcell => ?take⟩
  case put =>
    intro g back q c hreason hlen hpay hbad hkind
    have hput := clsPut_of_valid ⟨hcell, hreason, hlen, hpay, hbad, hkind⟩
    have hgo : 0 < q.reserved ∨ g.outFree back = true →
        exec (.clsPut e w) s = .next (advance (engKey e) (put (engKey e) v back c s)) := by
      intro hroom
      rw [exec_clsPut_of_canIssue hi, hput, if_neg]
      · rfl
      · rintro ⟨h0, hf⟩
        rcases hroom with h | h
        · exact absurd h0 (Nat.ne_of_gt h)
        · exact absurd (h.symm.trans hf) (by decide)
    refine ⟨fun h0 hf => ?wait, fun hroom hin => ?held, fun hroom hout hk hd => ?placed⟩
    case wait => rw [exec_clsPut_of_canIssue hi, hput, if_pos ⟨h0, hf⟩]
    case held =>
      refine ⟨_, hgo hroom, ?_⟩
      rw [put, if_pos hin]
      exact updStage_onlyStage s v (holdBack back c)
    case placed =>
      intro c' a
      have hb : back = false := forward_of_putReason hreason hk
      have hq : q = g.forwardOut := by simp [q, hb, Stage.outQ]
      have hc : c' = forwardClause g c := by simp only [c', hq]; rfl
      have ha : a = outEntry g v false g.forwardOut.seq := by simp only [a, hq]
      have hnext := hgo hroom
      rw [hb, put_forward hout hk hd] at hnext
      refine ⟨_, hnext, rfl, fun b => ?_, ?_, fun i h => State.updStage_stage_of_ne _ _ h⟩
      · rw [hc, ha]
        exact memRead_writeClause _ _ s b
      · rw [State.updStage_stage_self, hc, hq]
        exact enterForward_unreserve g c
  case take =>
    intro k g hmode hreplay
    refine ⟨fun c rest hitems hkind hfresh hnoB hnoR hready hview hbad => ?forward, fun hwait hback => ?empty⟩
    case forward =>
      intro a c'
      refine ⟨takenState k v w c c' s, ?_, takenState_takeOnly k v w c c' s, memRead_takenState k v w c c' s, rfl,
        fun i h => takenState_stage_of_ne k v w c c' s h, fun i h => takenState_eng_of_ne k v w c c' s h,
        takenState_eng k v w c c' s, ?_⟩
      · rw [exec_clsTake_of_canIssue hi,
          clsTake_of_takeForward ⟨hcell, hmode, hreplay, hitems, hkind, hfresh, hnoB, hnoR, hready, hview, hbad⟩,
          takeNew_forward hkind]
        rfl
      · rw [takenState_stage]
        refine ⟨?_, takenStage_records c c' g, takenStage_takes c c' g, takenStage_tenses c c' g, takenStage_outQ c c' g, rfl⟩
        rw [takenStage_forwardIn, hitems]
        rfl
    case empty =>
      let t' := s.updStage v fun g => { g with wantForward := none }
      refine ⟨t'.updEng k (readTaken k w 0), t', ?_, updStage_onlyStage s v _, updEng_onlyEng t' k _⟩
      rw [exec_clsTake_of_canIssue hi, clsTake_of_backward hcell hmode hreplay hwait hback]
      rfl


/-! ### The end of a layer group (R121, R254) -/

/-- Group 1, the instructions 0 to 2 at its one rung. -/
def endingGroup : BitVec 256 := BitVec.ofNat 256 (1 + 2 ^ 16 + 2 * 2 ^ 48)

/-- An execution of that group in a stage of cells 0 and 1. -/
def endingStage : Stage :=
  { loaded := true, started := true, exec := some ⟨1, 0, false, none⟩
    image := { emptyImage with
      stage := 7, die := 1, cells := [0, 1], code := List.replicate 8 0, groups := [endingGroup] } }

/-- Both cells have left the group. Each had issued five tiles in the null group when the stage code last started, so that a
resume there would have counted on from 5. -/
def endingState : State :=
  { stages := [(0, endingStage)]
    engines := [(128, { stat := .waitExit 1, restartOrdinal := 5 }), (129, { stat := .waitExit 1, restartOrdinal := 5 })] }

/-- The state meets what the statement asks of a group that ends, with no overflow, no Clause held and no predictor slot. -/
theorem endingState_ends : let s := endingState
    ((s.stage 0).live = true ∧ (s.stage 0).exec = some ⟨1, 0, false, none⟩ ∧ (s.stage 0).decl 1 = some endingGroup ∧
      declId endingGroup = 1 ∧ s.groupDone 0 1 = true ∧ (s.stage 0).async = false) ∧
    ((s.stage 0).forwardOut.heldBack = [] ∧ (s.stage 0).backwardOut.heldBack = [] ∧ ∀ p ∈ (s.stage 0).preds, p.group ≠ 1) ∧
    ((s.stage 0).cellKeys.Nodup ∧ (∀ k ∈ (s.stage 0).cellKeys, isInflector k = false ∧ s.stageOfCell k = some 0) ∧
      128 ∈ (s.stage 0).cellKeys) := by
  decide +kernel

/-- No pause waits, and the instruction after the group lies outside every group. -/
theorem endingState_goesOn : let s := endingState
    (s.stage 0).pauseAt ≠ 1 ∧
      ∀ k ∈ (s.stage 0).cellKeys, (s.stage 0).entryAt (loopNext (declEnd endingGroup 0) (s.eng k).loops).1 = none ∧
        (s.stage 0).inAnyRange (loopNext (declEnd endingGroup 0) (s.eng k).loops).1 = false := by
  decide +kernel

/-- The ordinal at which a resume of null-group code starts in engine `k` after a step; 0 where the machine stops. -/
def restartOrdinalAfter (k : Nat) (o : Host.Outcome State Fault Refusal) : Nat :=
  match o with
  | .next t => (t.eng k).restartOrdinal
  | _ => 0

/-- The group's end sets it to 0: tiles of the null group count from the last group end (R254). -/
theorem restartOrdinal_groupEnd : restartOrdinalAfter 128 (exec (.layerGroupEnd 0) endingState) = 0 := by
  decide +kernel

/-- Refutes O20: the statement keeps each cell's ordinal at which a resume of null-group code starts, and the group's end sets
it to 0 (R254), which shows where it was not 0. -/
theorem not_groupEnd : ¬ Obligations.GroupEnd := by
  unfold Obligations.GroupEnd
  intro h
  obtain ⟨⟨hlive, hexec, hdecl, hid, hdone, hasync⟩, ⟨hfwd, hback, hpreds⟩, hnodup, hcells, hmem⟩ := endingState_ends
  obtain ⟨hpause, hplain⟩ := endingState_goesOn
  obtain ⟨t, hnext, -, -, hafter⟩ := (h 0 endingState ⟨1, 0, false, none⟩ endingGroup hlive hexec hdecl hid hdone hasync
    hfwd hback hpreds hnodup hcells).2 hpause hplain
  have hkept : (t.eng 128).restartOrdinal = 5 := by
    rw [hafter 128 hmem]
    rfl
  have hzero : (t.eng 128).restartOrdinal = 0 := by
    have h0 := restartOrdinal_groupEnd
    rw [hnext] at h0
    exact h0
  omega

end Sys2Proof.OverflowReplay

/-!
The statements of the vector engine's instruction set, with the collective frames and the rule tables: the invariant along a
step (O59), the lane-wise and scalar instructions (O1 to O4), the reductions and SRND (O6, O7), DIGEST, GMAX and COMMIT
(O15, O23), the barrier of a stage (O18), collective frames (O29), and RULE_LOAD with the tables (O43).
-/
namespace Sys2Proof.VectorEngine
open Sys2Proof.Machine Sys2Proof.NumberFormats Sys2Proof.OverflowReplay

/-! ### The invariant along a step (R140, R401) -/

/-- Whatever the command, its next state keeps what a step may not undo: each arm of `exec` cites its own lemma. -/
theorem exec_keep {Q : List Instr} {V : Nat} (c : Instr) {s : State} (hK : Keep Q V s) : KeepOut Q V (exec c s) := by
  cases c with
  | nop e w => exact execNop_keep e w s hK
  | endRun e w => exact execEnd_keep e w s hK
  | br e w => exact execBr_keep e w s hK
  | brc e w => exact execBrc_keep e w s hK
  | loop e w => exact execLoop_keep e w s hK
  | sync e w => exact execSync_keep e w s hK
  | wait e w => exact execWait_keep e w s hK
  | tileGo e w => exact execTileGo_keep e w s hK
  | dmaGo e w => exact execDmaGo_keep e w s hK
  | clsTake e w => exact execClsTake_keep e w s hK
  | clsPut e w => exact execClsPut_keep e w s hK
  | vld e w => exact execVld_keep e w s hK
  | vst e w => exact execVst_keep e w s hK
  | vlds e w => exact execVlds_keep e w s hK
  | vsts e w => exact execVsts_keep e w s hK
  | sld e w => exact execSld_keep e w s hK
  | sst e w => exact execSst_keep e w s hK
  | pld e w => exact execPld_keep e w s hK
  | pst e w => exact execPst_keep e w s hK
  | fadd e w => exact execFadd_keep e w s hK
  | fsub e w => exact execFsub_keep e w s hK
  | fmul e w => exact execFmul_keep e w s hK
  | fma e w => exact execFma_keep e w s hK
  | fmin e w => exact execFmin_keep e w s hK
  | fmax e w => exact execFmax_keep e w s hK
  | fdiv e w => exact execFdiv_keep e w s hK
  | fsqrt e w => exact execFsqrt_keep e w s hK
  | frsq e w => exact execFrsq_keep e w s hK
  | fexp2 e w => exact execFexp2_keep e w s hK
  | flog2 e w => exact execFlog2_keep e w s hK
  | fcospi e w => exact execFcospi_keep e w s hK
  | fabs e w => exact execFabs_keep e w s hK
  | fneg e w => exact execFneg_keep e w s hK
  | fcmp e w => exact execFcmp_keep e w s hK
  | fsel e w => exact execFsel_keep e w s hK
  | iadd e w => exact execIadd_keep e w s hK
  | isub e w => exact execIsub_keep e w s hK
  | imul e w => exact execImul_keep e w s hK
  | iand e w => exact execIand_keep e w s hK
  | ior e w => exact execIor_keep e w s hK
  | ixor e w => exact execIxor_keep e w s hK
  | ishl e w => exact execIshl_keep e w s hK
  | ishr e w => exact execIshr_keep e w s hK
  | isra e w => exact execIsra_keep e w s hK
  | imin e w => exact execImin_keep e w s hK
  | imax e w => exact execImax_keep e w s hK
  | icmp e w => exact execIcmp_keep e w s hK
  | ipack e w => exact execIpack_keep e w s hK
  | iunpk e w => exact execIunpk_keep e w s hK
  | vperm e w => exact execVperm_keep e w s hK
  | sadd e w => exact execSadd_keep e w s hK
  | ssub e w => exact execSsub_keep e w s hK
  | smul e w => exact execSmul_keep e w s hK
  | sand e w => exact execSand_keep e w s hK
  | sor e w => exact execSor_keep e w s hK
  | sxor e w => exact execSxor_keep e w s hK
  | sshl e w => exact execSshl_keep e w s hK
  | sshr e w => exact execSshr_keep e w s hK
  | ssra e w => exact execSsra_keep e w s hK
  | sli e w => exact execSli_keep e w s hK
  | slui e w => exact execSlui_keep e w s hK
  | vbcs e w => exact execVbcs_keep e w s hK
  | vext e w => exact execVext_keep e w s hK
  | cvt e w => exact execCvt_keep e w s hK
  | amaxb e w => exact execAmaxb_keep e w s hK
  | amaxt e w => exact execAmaxt_keep e w s hK
  | sum e w => exact execSum_keep e w s hK
  | sgn e w => exact execSgn_keep e w s hK
  | tsgn e w => exact execTsgn_keep e w s hK
  | srnd e w => exact execSrnd_keep e w s hK
  | xred e w => exact execXred_keep e w s hK
  | flags e w => exact execFlags_keep e w s hK
  | pand e w => exact execPand_keep e w s hK
  | por e w => exact execPor_keep e w s hK
  | pxor e w => exact execPxor_keep e w s hK
  | pandn e w => exact execPandn_keep e w s hK
  | pset e w => exact execPset_keep e w s hK
  | pexp e w => exact execPexp_keep e w s hK
  | pcnt e w => exact execPcnt_keep e w s hK
  | gmax e w => exact execGmax_keep e w s hK
  | digestInit e w => exact execDigestInit_keep e w s hK
  | digestAdd e w => exact execDigestAdd_keep e w s hK
  | digestFinal e w => exact execDigestFinal_keep e w s hK
  | commit e w => exact execCommit_keep e w s hK
  | stageBarrierRelease v => exact execStageBarrierRelease_keep v s hK
  | tileAccept e => exact execTileAccept_keep e s hK
  | subtileDrain e k homeErr partnerErr => exact execSubtileDrain_keep e k homeErr partnerErr s hK
  | tileComplete e k => exact execTileComplete_keep e k s hK
  | captureComplete e k => exact execCaptureComplete_keep e k s hK
  | dmaTransferComplete e => exact execDmaTransferComplete_keep e s hK
  | layerGroupEntry v => exact execLayerGroupEntry_keep v s hK
  | layerGroupEnd v => exact execLayerGroupEnd_keep v s hK
  | replayStart v lostCycles => exact execReplayStart_keep v lostCycles s hK
  | clauseDelivery v backward => exact execClauseDelivery_keep v backward s hK
  | viewFill v backward glitch => exact execViewFill_keep v backward glitch s hK
  | pastEncode v => exact execPastEncode_keep v s hK
  | rebase v slot => exact execRebase_keep v slot s hK
  | spill v slot => exact execSpill_keep v slot s hK
  | shardSend v => exact execShardSend_keep v s hK
  | reducedShardComplete v => exact execReducedShardComplete_keep v s hK
  | updateStart v => exact execUpdateStart_keep v s hK
  | commitFinalPhase v => exact execCommitFinalPhase_keep v s hK
  | dataFrame p f => exact execDataFrame_keep p f s hK
  | clauseFrame p f => exact execClauseFrame_keep p f s hK
  | ackFrame p f => exact execAckFrame_keep p f s hK
  | nakFrame p f => exact execNakFrame_keep p f s hK
  | helloFrame p f => exact execHelloFrame_keep p f s hK
  | tenseReqFrame p f => exact execTenseReqFrame_keep p f s hK
  | tenseDataFrame p f => exact execTenseDataFrame_keep p f s hK
  | voteFrame p f => exact execVoteFrame_keep p f s hK
  | digestFrame p f => exact execDigestFrame_keep p f s hK
  | creditFrame p f => exact execCreditFrame_keep p f s hK
  | resendTimeout p => exact execResendTimeout_keep p s hK
  | retryWindowExpiry p => exact execRetryWindowExpiry_keep p s hK
  | retrainingAttemptEnd p ok signal => exact execRetrainingAttemptEnd_keep p ok signal s hK
  | portTrainingAttempt p signal ok => exact execPortTrainingAttempt_keep p signal ok s hK
  | helloTimer p => exact execHelloTimer_keep p s hK
  | ackTimer p => exact execAckTimer_keep p s hK
  | creditRepeatTimer p => exact execCreditRepeatTimer_keep p s hK
  | deliveryTimeout p k => exact execDeliveryTimeout_keep p k s hK
  | answerTimeout v backward => exact execAnswerTimeout_keep v backward s hK
  | phraseMessage src dst role addr data => exact execPhraseMessage_keep src dst role addr data s hK
  | phraseFlowControl die peer idx word => exact execPhraseFlowControl_keep die peer idx word s hK
  | phraseRetrain die peer idx => exact execPhraseRetrain_keep die peer idx s hK
  | phraseRetrainEnd die peer idx ok resends => exact execPhraseRetrainEnd_keep die peer idx ok resends s hK
  | dieLost d mask => exact execDieLost_keep d mask s hK
  | dieRejoin a tests => exact execDieRejoin_keep a tests s hK
  | appositionReadReq p m => exact execAppositionReadReq_keep p m s hK
  | appositionWrite p m => exact execAppositionWrite_keep p m s hK
  | appositionReadData p m => exact execAppositionReadData_keep p m s hK
  | appositionWriteAck p m => exact execAppositionWriteAck_keep p m s hK
  | appositionMailbox p m => exact execAppositionMailbox_keep p m s hK
  | appositionEvent p m => exact execAppositionEvent_keep p m s hK
  | appositionNak p m => exact execAppositionNak_keep p m s hK
  | appositionAck p m => exact execAppositionAck_keep p m s hK
  | appositionAckTimer p => exact execAppositionAckTimer_keep p s hK
  | appositionRetrain p ok => exact execAppositionRetrain_keep p ok s hK
  | guestDown p => exact execGuestDown_keep p s hK
  | guestUp p identity rate => exact execGuestUp_keep p identity rate s hK
  | nvmeReadCompletion ns place ok fatal => exact execNvmeReadCompletion_keep ns place ok fatal s hK
  | nvmeReadTimeout ns place => exact execNvmeReadTimeout_keep ns place s hK
  | clipDecode place desc r => exact execClipDecode_keep place desc r s hK
  | ingestPlace => exact execIngestPlace_keep s hK
  | ingestRejoin => exact execIngestRejoin_keep s hK
  | devInfo c => exact execDevInfo_keep c s hK
  | bringupAdvance c => exact execBringupAdvance_keep c s hK
  | lanePlanSet c => exact execLanePlanSet_keep c s hK
  | jobCreate c => exact execJobCreate_keep c s hK
  | stageLoad c img => exact execStageLoad_keep c img s hK
  | portRoleSet c => exact execPortRoleSet_keep c s hK
  | jobStart c => exact execJobStart_keep c s hK
  | jobPause c => exact execJobPause_keep c s hK
  | pauseComplete => exact execPauseComplete_keep s hK
  | jobResume c => exact execJobResume_keep c s hK
  | halt c => exact execHalt_keep c s hK
  | tenseConfig c => exact execTenseConfig_keep c s hK
  | tenseExport c => exact execTenseExport_keep c s hK
  | checkpoint c => exact execCheckpoint_keep c s hK
  | restore c => exact execRestore_keep c s hK
  | schedTableLoad c => exact execSchedTableLoad_keep c s hK
  | freezeMaskLoad c => exact execFreezeMaskLoad_keep c s hK
  | ruleLoad c => exact execRuleLoad_keep c s hK
  | ingestOpen c => exact execIngestOpen_keep c s hK
  | ingestEpoch c => exact execIngestEpoch_keep c s hK
  | ingestPosition c => exact execIngestPosition_keep c s hK
  | checkFractionSet c => exact execCheckFractionSet_keep c s hK
  | agreeIntervalSet c => exact execAgreeIntervalSet_keep c s hK
  | fieldTest c => exact execFieldTest_keep c s hK
  | bistRun c => exact execBistRun_keep c s hK
  | faultHistoryRead c => exact execFaultHistoryRead_keep c s hK
  | stageFlags c => exact execStageFlags_keep c s hK
  | numlogRead c => exact execNumlogRead_keep c s hK
  | captureRepeat k r => exact execCaptureRepeat_keep k r s hK
  | faultRecordWrite => exact execFaultRecordWrite_keep s hK
  | fenceGo => exact execFenceGo_keep s hK
  | fenceComplete => exact execFenceComplete_keep s hK
  | thermalSeenClear => exact execThermalSeenClear_keep s hK
  | bar2WindowWrite x => exact execBar2WindowWrite_keep x s hK
  | mailboxEnable m ctrl => exact execMailboxEnable_keep m ctrl s hK
  | mailboxDisable m ctrl => exact execMailboxDisable_keep m ctrl s hK
  | cmdTail m x wrote => exact execCmdTail_keep m x wrote s hK
  | cmpHead m x => exact execCmpHead_keep m x s hK
  | fwCtrlWrite p x => exact execFwCtrlWrite_keep p x s hK
  | registerWrite off x => exact execRegisterWrite_keep off x s hK
  | rcRegisterRead off => exact execRcRegisterRead_keep off s hK
  | bar2Read off len => exact execBar2Read_keep off len s hK
  | bar2Write off data poisoned => exact execBar2Write_keep off data poisoned s hK
  | hostDmaChunk engine waited => exact execHostDmaChunk_keep engine waited s hK
  | msiXCoalesceTimeout m => exact execMsiXCoalesceTimeout_keep m s hK
  | functionLevelReset => exact execFunctionLevelReset_keep s hK
  | hostReset perst => exact execHostReset_keep perst s hK
  | perstRelease => exact execPerstRelease_keep s hK
  | moduleReset => exact execModuleReset_keep s hK
  | moduleResetRelease => exact execModuleResetRelease_keep s hK
  | powerOn => exact execPowerOn_keep s hK
  | powerOff => exact execPowerOff_keep s hK
  | refclkLoss => exact execRefclkLoss_keep s hK
  | refclkReturn => exact execRefclkReturn_keep s hK
  | romEntry slotId => exact execRomEntry_keep slotId s hK
  | firmwareBoot => exact execFirmwareBoot_keep s hK
  | discovery answers badPhrases => exact execDiscovery_keep answers badPhrases s hK
  | reducedEntry tests => exact execReducedEntry_keep tests s hK
  | fullEntry tests => exact execFullEntry_keep tests s hK
  | parserWatchdogExpiry => exact execParserWatchdogExpiry_keep s hK
  | thermalSensorScan dies hbms => exact execThermalSensorScan_keep dies hbms s hK
  | thermLRelease => exact execThermLRelease_keep s hK
  | thermalClear => exact execThermalClear_keep s hK
  | regulatorOvertemp => exact execRegulatorOvertemp_keep s hK
  | park => exact execPark_keep s hK
  | mctpControlMessage code data => exact execMctpControlMessage_keep code data s hK
  | i3cAddressAssignment entdaa static addr => exact execI3cAddressAssignment_keep entdaa static addr s hK
  | managementMailboxMessage c => exact execManagementMailboxMessage_keep c s hK
  | getPdr => exact execGetPdr_keep s hK
  | platformEventResponse ok => exact execPlatformEventResponse_keep ok s hK
  | platformEventResendTimeout => exact execPlatformEventResendTimeout_keep s hK
  | requestUpdate => exact execRequestUpdate_keep s hK
  | firmwareDataTransfer component off data => exact execFirmwareDataTransfer_keep component off data s hK
  | verifyComplete => exact execVerifyComplete_keep s hK
  | activateFirmware component => exact execActivateFirmware_keep component s hK
  | getVersion doe => exact execGetVersion_keep doe s hK
  | getCapabilities doe caps => exact execGetCapabilities_keep doe caps s hK
  | negotiateAlgorithms doe sig hash => exact execNegotiateAlgorithms_keep doe sig hash s hK
  | getDigests doe => exact execGetDigests_keep doe s hK
  | getCertificate doe slot off len => exact execGetCertificate_keep doe slot off len s hK
  | challenge doe slot nonce => exact execChallenge_keep doe slot nonce s hK
  | getMeasurements doe index slot nonce => exact execGetMeasurements_keep doe index slot nonce s hK
  | eventStreamDatagram => exact execEventStreamDatagram_keep s hK
  | hubReset => exact execHubReset_keep s hK
  | fieldTestDone tests => exact execFieldTestDone_keep tests s hK
  | reducedServiceRestored => exact execReducedServiceRestored_keep s hK
  | pldmBaseRequest code data => exact execPldmBaseRequest_keep code data s hK
  | mctpMessageDrop type => exact execMctpMessageDrop_keep type s hK
  | spdmUnsupportedRequest doe code => exact execSpdmUnsupportedRequest_keep doe code s hK
  | doeDiscovery index => exact execDoeDiscovery_keep index s hK
  | arpRequest target sender mac => exact execArpRequest_keep target sender mac s hK
  | powerStateChange d3 => exact execPowerStateChange_keep d3 s hK
  | msiXUnmask v => exact execMsiXUnmask_keep v s hK

theorem execTenseExport_next (c : Cmd) (s : State) : ∃ t, execTenseExport c s = .next t := by
  unfold execTenseExport
  split
  · exact ⟨s, rfl⟩
  · exact ⟨_, rfl⟩

theorem execManagementMailboxMessage_next (c : Cmd) (s : State) : ∃ t, execManagementMailboxMessage c s = .next t := by
  unfold execManagementMailboxMessage
  split
  · exact ⟨_, rfl⟩
  · exact ⟨s, rfl⟩

/-- No arm of `exec` stops the block: but for two, each is written as a next state. -/
theorem exec_next (c : Instr) (s : State) : ∃ t, exec c s = .next t := by
  cases c
  case tenseExport c => exact execTenseExport_next c s
  case managementMailboxMessage c => exact execManagementMailboxMessage_next c s
  all_goals exact ⟨_, rfl⟩

theorem step_nil {s : State} (h : s.pending = []) : step s = .next (tick s) := by
  unfold step
  rw [h]

theorem step_cons {s : State} {c : Instr} {rest : List Instr} (h : s.pending = c :: rest) :
    step s = exec c { s with pending := rest } := by
  unfold step
  rw [h]

theorem step_next (s : State) : ∃ t, step s = .next t := by
  cases h : s.pending with
  | nil => exact ⟨_, step_nil h⟩
  | cons c rest =>
    rw [step_cons h]
    exact exec_next c _

theorem step_keep {s : State} (hI : Inv s) : KeepOut s.pending.tail s.flash.svn (step s) := by
  cases h : s.pending with
  | nil =>
    rw [step_nil h]
    exact tick_keep s ⟨h, Nat.le_refl _, hI⟩
  | cons c rest =>
    rw [step_cons h]
    exact exec_keep c ⟨rfl, Nat.le_refl _, hI⟩

/-- Settles O59: every arm of `exec` is a next state, and keeps the invariant, the queue behind it and the fused SVN. -/
theorem stepKeepsTheInvariant : Obligations.StepKeepsTheInvariant := by
  unfold Obligations.StepKeepsTheInvariant
  refine ⟨exec_next, fun s => ⟨step_next s, fun t hI ht => ?_⟩⟩
  have hK : KeepOut s.pending.tail s.flash.svn (.next t) := ht ▸ step_keep hI
  obtain ⟨hq, hsvn, hI'⟩ := hK
  exact ⟨hI', hsvn, hq⟩

/-! ### Instructions that change their engine alone -/

/-- An instruction that changes its engine's registers by `f` completes with what `f` makes of them. -/
theorem completes_of_issueRegs {e : Engine} {op : Nat} {w : VFields} {s : State} {i : Instr} {f : EngineState → EngineState}
    (hx : exec i s = issueRegs e op w f s) (h : CanIssue e op w s) : Completes e i s (f (s.eng (engKey e))) := by
  rw [Completes, hx, issueRegs_of_canIssue _ _ _ _ _ h, updEng_const]

/-- The word that issues was admitted at load (R140). -/
theorem wordOk_of_canIssue {e : Engine} {op : Nat} {w : VFields} {s : State} (h : CanIssue e op w s) :
    ∃ len, wordOk (isInflector (engKey e)) len op w = true := by
  obtain ⟨_, hf, _⟩ := h
  unfold State.fetches at hf
  exact ⟨_, (Bool.and_eq_true_iff.mp hf).2⟩

/-- What MODE changes in a row leaves its formats. -/
theorem rowFor_fmts {op mode : Nat} {r : OpRow} (h : rowFor op mode = some r) :
    ∃ r0, opRow op = some r0 ∧ r.fmts = r0.fmts := by
  unfold rowFor at h
  split at h
  · simp at h
  · next r0 h0 =>
    refine ⟨r0, h0, ?_⟩
    split at h
    · simp only [Option.some.injEq] at h; subst h; rfl
    · split at h
      · simp only [Option.some.injEq] at h; subst h; rfl
      · split at h
        · simp only [Option.some.injEq] at h; subst h; rfl
        · split at h <;> (simp only [Option.some.injEq] at h; subst h; rfl)

/-- FORMAT of an admitted word is one of its row. -/
theorem fmt_mem_of_wordOk {infl : Bool} {len op : Nat} {w : VFields} (h : wordOk infl len op w = true) :
    ∃ r0, opRow op = some r0 ∧ w.fmt.toNat ∈ r0.fmts := by
  unfold wordOk at h
  split at h
  · simp at h
  · next r hr =>
    obtain ⟨r0, h0, hf⟩ := rowFor_fmts hr
    simp only [Bool.and_eq_true, List.contains_iff_mem] at h
    refine ⟨r0, h0, ?_⟩
    rw [← hf]
    tauto

/-- Does the row of an opcode take formats of whole lanes only (Table 2.1)? -/
def laneRow (op : Nat) : Bool :=
  match opRow op with
  | some r => r.fmts.all fmtIsLane
  | none => false

theorem fmtIsLane_of_canIssue {e : Engine} {op : Nat} {w : VFields} {s : State} (hop : laneRow op = true)
    (h : CanIssue e op w s) : fmtIsLane w.fmt.toNat = true := by
  obtain ⟨_, hok⟩ := wordOk_of_canIssue h
  obtain ⟨r, hr, hf⟩ := fmt_mem_of_wordOk hok
  unfold laneRow at hop
  rw [hr] at hop
  exact List.all_eq_true.mp hop _ hf

theorem fmtIsLane_iff (c : Nat) : fmtIsLane c = true ↔ c = 0 ∨ c = 1 ∨ c = 14 ∨ c = 15 := by
  simp [fmtIsLane, or_assoc]

theorem fmtWidth_of_fmtIsLane {c : Nat} (h : fmtIsLane c = true) : fmtWidth c = 16 ∨ fmtWidth c = 32 ∨ fmtWidth c = 64 := by
  rcases (fmtIsLane_iff c).mp h with rfl | rfl | rfl | rfl
  · exact Or.inr (Or.inl rfl)
  · exact Or.inl rfl
  · exact Or.inr (Or.inr rfl)
  · exact Or.inr (Or.inl rfl)

/-- A lane format is computed in one of three float formats. -/
theorem laneFloat_of_fmtIsLane {w : VFields} (h : fmtIsLane w.fmt.toNat = true) :
    laneFloat w = fFP32 ∨ laneFloat w = fBF16 ∨ laneFloat w = fFP64 := by
  unfold laneFloat
  rcases (fmtIsLane_iff _).mp h with h | h | h | h <;> rw [h]
  · exact Or.inl rfl
  · exact Or.inr (Or.inl rfl)
  · exact Or.inr (Or.inr rfl)
  · exact Or.inl rfl

theorem laneFloat_width_eq {w : VFields} (h : fmtIsLane w.fmt.toNat = true) :
    (laneFloat w).width = fmtWidth w.fmt.toNat := by
  unfold laneFloat
  rcases (fmtIsLane_iff _).mp h with h | h | h | h <;> rw [h] <;> rfl

theorem laneFloat_width {w : VFields} (h : fmtIsLane w.fmt.toNat = true) :
    (laneFloat w).width = 16 ∨ (laneFloat w).width = 32 ∨ (laneFloat w).width = 64 :=
  laneFloat_width_eq h ▸ fmtWidth_of_fmtIsLane h

/-- A lane-wise instruction completes lane by lane (R139). -/
theorem completes_mapLanes {e : Engine} {op : Nat} {w : VFields} {s : State} {i : Instr} (wd : Nat)
    (f : EngineState → Nat → Nat × Fl) (hw : wd = 16 ∨ wd = 32 ∨ wd = 64)
    (hx : exec i s = issueRegs e op w (fun r => mapLanes (engKey e) w wd (f r) r) s) (h : CanIssue e op w s) :
    ∃ r, Completes e i s r ∧ VecFrame w.vd.toNat (s.eng (engKey e)) r ∧
      LaneResult (engKey e) w wd (f (s.eng (engKey e))) (s.eng (engKey e)) r :=
  ⟨_, completes_of_issueRegs hx h, mapLanes_spec _ _ _ _ _ hw⟩

/-- A lane-wise instruction whose operation raises no flag leaves the vector flags. -/
theorem vflags_of_laneResult {k wd : Nat} {w : VFields} {f : Nat → Nat × Fl} {r r' : EngineState}
    (h : LaneResult k w wd f r r') (hf : ∀ j, (f j).2 = 0) : r'.vflags = r.vflags := by
  obtain ⟨_, hfl⟩ := h
  apply BitVec.eq_of_getLsbD_eq
  intro b hb
  rw [Bool.eq_iff_iff, hfl b hb]
  simp [hf]

/-! ### Floating-point instructions (R142, R143) -/

theorem exec_of_float2Rows {x : Nat × (FloatFmt → Nat → Nat → Nat × Fl) × (Engine → VFields → Instr)}
    (hx : x ∈ float2Rows) (e : Engine) (w : VFields) (s : State) :
    laneRow x.1 = true ∧ exec (x.2.2 e w) s = issueRegs e x.1 w (float2 x.2.1 (engKey e) w) s := by
  simp only [float2Rows, List.mem_cons, List.not_mem_nil, or_false] at hx
  rcases hx with rfl | rfl | rfl | rfl | rfl | rfl <;> exact ⟨by decide, rfl⟩

theorem exec_of_float1Rows {x : Nat × (FloatFmt → Nat → Nat × Fl) × (Engine → VFields → Instr)}
    (hx : x ∈ float1Rows) (e : Engine) (w : VFields) (s : State) :
    laneRow x.1 = true ∧ exec (x.2.2 e w) s = issueRegs e x.1 w (float1 x.2.1 (engKey e) w) s := by
  simp only [float1Rows, List.mem_cons, List.not_mem_nil, or_false] at hx
  rcases hx with rfl | rfl | rfl | rfl | rfl | rfl | rfl | rfl <;> exact ⟨by decide, rfl⟩

/-- Settles O1: each row is a lane-wise operation in a format of whole lanes. -/
protected theorem laneFloat : Obligations.LaneFloat := by
  unfold Obligations.LaneFloat
  refine ⟨fun x hx e w s h => ?_, fun x hx e w s h => ?_, fun e w s h => ?_⟩
  · obtain ⟨hlane, hexec⟩ := exec_of_float2Rows hx e w s
    exact completes_mapLanes _ _ (laneFloat_width (fmtIsLane_of_canIssue hlane h)) hexec h
  · obtain ⟨hlane, hexec⟩ := exec_of_float1Rows hx e w s
    exact completes_mapLanes _ _ (laneFloat_width (fmtIsLane_of_canIssue hlane h)) hexec h
  · have hexec : exec (.fma e w) s = issueRegs e 0x23 w (float3 (engKey e) w) s := rfl
    exact completes_mapLanes _ _ (laneFloat_width (fmtIsLane_of_canIssue (by decide) h)) hexec h

/-! ### SGN and TSGN (R159, R160) -/

/-- The code of +1.0 in a lane format. -/
theorem decodeF_one {F : FloatFmt} (hF : F = fFP32 ∨ F = fBF16 ∨ F = fFP64) :
    decodeF F (F.bias * 2 ^ F.mb) = .fin false (2 ^ F.mb) (-(F.mb : Int)) := by
  rcases hF with rfl | rfl | rfl <;> decide

/-- The codes that SGN writes lie inside an element. -/
theorem fpSgn_lt {F : FloatFmt} (hF : F = fFP32 ∨ F = fBF16 ∨ F = fFP64) (a : Nat) : fpSgn F a < 2 ^ F.width := by
  have hq : F.qnan < 2 ^ F.width := by rcases hF with rfl | rfl | rfl <;> decide
  have hone : ∀ neg, F.signBit neg + F.bias * 2 ^ F.mb < 2 ^ F.width := by
    rcases hF with rfl | rfl | rfl <;> decide
  unfold fpSgn
  split
  · exact hq
  · exact hone _
  · split
    · exact Nat.two_pow_pos _
    · exact hone _

/-- SGN of an element, by its sign. -/
theorem fpSgn_eq (F : FloatFmt) (a : Nat) : fpSgn F a =
    match decodeF F a with
    | .nan => F.qnan
    | .inf neg => if neg then F.signBit true + F.bias * 2 ^ F.mb else F.bias * 2 ^ F.mb
    | .fin neg m _ => if m = 0 then 0
      else if neg then F.signBit true + F.bias * 2 ^ F.mb else F.bias * 2 ^ F.mb := by
  have hsign : ∀ neg, F.signBit neg + F.bias * 2 ^ F.mb =
      if neg then F.signBit true + F.bias * 2 ^ F.mb else F.bias * 2 ^ F.mb := by
    intro neg
    cases neg
    · simp [FloatFmt.signBit]
    · rfl
  unfold fpSgn
  cases decodeF F a with
  | nan => rfl
  | inf neg => exact hsign neg
  | fin neg m e => exact congrArg (fun y => if m = 0 then 0 else y) (hsign neg)

/-- Elements of a register from element `p` on. -/
theorem elemAt_shiftRight (w x p j : Nat) : elemAt w (x >>> (p * w)) j = elemAt w x (p + j) := by
  unfold elemAt
  rw [← Nat.shiftRight_add, Nat.mul_add, Nat.mul_comm p w]

/-- TSGN's code of one element, with its flag (R160). -/
def signCode (F : FloatFmt) (c : Nat) : Nat × Fl :=
  match decodeF F c with
  | .nan => (0, flNV)
  | .inf neg => (if neg then 3 else 1, 0)
  | .fin neg m _ => (if m = 0 then 0 else if neg then 3 else 1, 0)

theorem signCode_fst (F : FloatFmt) (c : Nat) : (signCode F c).1 % 2 ^ 2 =
    match decodeF F c with
    | .nan => 0
    | .inf neg => if neg then 3 else 1
    | .fin neg m _ => if m = 0 then 0 else if neg then 3 else 1 := by
  unfold signCode
  cases decodeF F c with
  | nan => rfl
  | inf neg => cases neg <;> rfl
  | fin neg m e =>
    dsimp only
    split
    · rfl
    · cases neg <;> rfl

theorem testBit_signCode_snd (F : FloatFmt) (c b : Nat) :
    (signCode F c).2.testBit b = true ↔ b = 3 ∧ decodeF F c = .nan := by
  have hNV : flNV.testBit b = true ↔ b = 3 := by
    rw [show flNV = 2 ^ 3 from rfl, Nat.testBit_two_pow]
    simp [eq_comm]
  unfold signCode
  split
  · next h => simp [h, hNV]
  · next h => simp [h]
  · next h => simp [h]

/-- The codes that TSGN's pack mode writes at PART, element by element. -/
def signCodes (k : Nat) (w : VFields) (r : EngineState) : List (Nat × Fl) :=
  (List.range (elemsOf k (Machine.laneFloat w).width)).map fun j =>
    if onElem (r.mask k w) (Machine.laneFloat w).width j then
      signCode (Machine.laneFloat w) (elemAt (Machine.laneFloat w).width (r.rv w.va.toNat) j)
    else (elemAt 2 (r.rv w.vd.toNat) (fPart w * elemsOf k (Machine.laneFloat w).width + j), 0)

theorem signPack_eq (k : Nat) (w : VFields) (r : EngineState) : signPack k w r =
    (r.wv k w.vd.toNat (putElems 2 (fPart w * elemsOf k (Machine.laneFloat w).width)
      ((signCodes k w r).map (·.1)) (r.rv w.vd.toNat))).orV ((signCodes k w r).foldl (fun a x => a ||| x.2) 0) := by
  have hlen : ((signCodes k w r).map (·.1)).length = elemsOf k (Machine.laneFloat w).width := by simp [signCodes]
  rw [putElems, hlen, Nat.mul_comm 2, Nat.mul_comm 2]
  rfl

/-- Writing VD and setting flags changes nothing else. -/
theorem vecFrame_wv_orV (k d x : Nat) (fl : Fl) (r : EngineState) : VecFrame d r ((r.wv k d x).orV fl) :=
  ⟨rfl, rfl, fun _ hi => wv_other r k d x _ hi⟩

/-- Flags that a list of results sets. -/
theorem getLsbD_orV_foldl (r : EngineState) (xs : List (Nat × Fl)) {b : Nat} (hb : b < 4) :
    (r.orV (xs.foldl (fun a x => a ||| x.2) 0)).vflags.getLsbD b = true ↔
      r.vflags.getLsbD b = true ∨ ∃ x ∈ xs, x.2.testBit b = true := by
  rw [orV_getLsbD _ _ _ hb, Bool.or_eq_true, testBit_foldl_or]
  simp

/-- Some code of TSGN's pack mode sets V_NV exactly where an active element is a NaN. -/
theorem exists_signCodes_testBit (k : Nat) (w : VFields) (r : EngineState) (b : Nat) :
    (∃ x ∈ signCodes k w r, x.2.testBit b = true) ↔ b = 3 ∧ ∃ j, j < elemsOf k (Machine.laneFloat w).width ∧
      onElem (r.mask k w) (Machine.laneFloat w).width j = true ∧
      decodeF (Machine.laneFloat w) (elemAt (Machine.laneFloat w).width (r.rv w.va.toNat) j) = .nan := by
  unfold signCodes
  simp only [List.mem_map, List.mem_range]
  constructor
  · rintro ⟨_, ⟨j, hj, rfl⟩, hb⟩
    by_cases hon : onElem (r.mask k w) (Machine.laneFloat w).width j = true
    · rw [if_pos hon, testBit_signCode_snd] at hb
      exact ⟨hb.1, j, hj, hon, hb.2⟩
    · simp [hon] at hb
  · rintro ⟨hb, j, hj, hon, hnan⟩
    exact ⟨_, ⟨j, hj, rfl⟩, by rw [if_pos hon, testBit_signCode_snd]; exact ⟨hb, hnan⟩⟩

/-- Code `j` of TSGN's pack mode. -/
theorem signCodes_getD {k j : Nat} (w : VFields) (r : EngineState) (hj : j < elemsOf k (Machine.laneFloat w).width) :
    ((signCodes k w r).map (·.1)).getD j 0 % 2 ^ 2 =
      if onElem (r.mask k w) (Machine.laneFloat w).width j then
        (signCode (Machine.laneFloat w) (elemAt (Machine.laneFloat w).width (r.rv w.va.toNat) j)).1 % 2 ^ 2
      else elemAt 2 (r.rv w.vd.toNat) (fPart w * elemsOf k (Machine.laneFloat w).width + j) := by
  have hget : ((signCodes k w r).map (·.1)).getD j 0 =
      (if onElem (r.mask k w) (Machine.laneFloat w).width j then
        signCode (Machine.laneFloat w) (elemAt (Machine.laneFloat w).width (r.rv w.va.toNat) j)
      else (elemAt 2 (r.rv w.vd.toNat) (fPart w * elemsOf k (Machine.laneFloat w).width + j), 0)).1 := by
    rw [getD_of_lt _ (by simpa [signCodes] using hj)]
    simp [signCodes]
  rw [hget]
  split
  · rfl
  · exact Nat.mod_eq_of_lt (elemAt_lt _ _ _)

/-- PART of an admitted TSGN lies inside the register (R152). -/
theorem partFits_of_tsgn {infl : Bool} {len : Nat} {w : VFields} (h : wordOk infl len 0x55 w = true) :
    partFits (fPart w) (laneCount infl * 32 / fmtWidth w.fmt.toNat) 2 (laneCount infl) = true := by
  unfold wordOk at h
  split at h
  · simp at h
  · simp only [Bool.and_eq_true] at h
    simpa using h.2

theorem signPack_inside {e : Engine} {w : VFields} {s : State} (h : CanIssue e 0x55 w s) :
    2 * ((fPart w + 1) * elemsOf (engKey e) (Machine.laneFloat w).width) ≤ vbits (engKey e) := by
  obtain ⟨_, hok⟩ := wordOk_of_canIssue h
  have hfit := partFits_of_tsgn hok
  unfold partFits at hfit
  have hle := of_decide_eq_true hfit
  have hn : elemsOf (engKey e) (Machine.laneFloat w).width =
      laneCount (isInflector (engKey e)) * 32 / fmtWidth w.fmt.toNat := by
    rw [elemsOf, laneFloat_width_eq (fmtIsLane_of_canIssue (by decide) h), vbits, lanesOf, Nat.mul_comm]
  rw [hn, Nat.mul_comm 2]
  exact hle

theorem exec_sgn_eq (e : Engine) (w : VFields) (s : State) :
    exec (.sgn e w) s = issueRegs e 0x54 w (float1 (fun F a => (fpSgn F a, 0)) (engKey e) w) s := rfl

theorem exec_tsgn_eq (e : Engine) (w : VFields) (s : State) : exec (.tsgn e w) s =
    issueRegs e 0x55 w (if bitAt w.mode.toNat 0 then signUnpack (engKey e) w else signPack (engKey e) w) s := rfl

/-- Settles O2: SGN is a lane-wise operation without flags, TSGN's unpack mode a lane-wise operation on codes, and its pack
mode a run of codes put into VD. -/
theorem sgnAndTsgn : Obligations.SgnAndTsgn := by
  unfold Obligations.SgnAndTsgn
  refine ⟨fun e w s h => ?sgn, fun e w s h hmode => ?unpack, fun e w s h hmode => ?pack⟩
  case sgn =>
    have hlane := fmtIsLane_of_canIssue (by decide) h
    have hF := laneFloat_of_fmtIsLane hlane
    refine ⟨decodeF_one hF, ?_⟩
    obtain ⟨r, hr, hframe, hres⟩ := completes_mapLanes _ _ (laneFloat_width hlane) (exec_sgn_eq e w s) h
    refine ⟨r, hr, hframe, vflags_of_laneResult hres fun _ => rfl, fun j hj => ?_⟩
    rw [hres.1 j hj]
    split
    · rw [Nat.mod_eq_of_lt (fpSgn_lt hF _)]
      exact fpSgn_eq _ _
    · rfl
  case unpack =>
    have hlane := fmtIsLane_of_canIssue (by decide) h
    have hx := exec_tsgn_eq e w s
    rw [if_pos hmode] at hx
    unfold signUnpack at hx
    simp only [elemAt_shiftRight] at hx
    exact completes_mapLanes _ _ (laneFloat_width hlane) hx h
  case pack =>
    have hx := exec_tsgn_eq e w s
    rw [hmode, if_neg Bool.false_ne_true] at hx
    have hin := signPack_inside h
    refine ⟨_, completes_of_issueRegs hx h, ?_⟩
    rw [signPack_eq]
    refine ⟨vecFrame_wv_orV _ _ _ _ _, fun j hj => ?_, fun j hj hout => ?_, fun b hb => ?_, ?_⟩
    · refine (elemAt_putElems _ _ _ _ _ _ _ _ (by simpa [signCodes] using hj) ?_).trans ?_
      · have : fPart w * elemsOf (engKey e) (Machine.laneFloat w).width + j + 1 ≤
          (fPart w + 1) * elemsOf (engKey e) (Machine.laneFloat w).width := by rw [Nat.succ_mul]; omega
        omega
      · rw [signCodes_getD w _ hj, signCode_fst] <;> rfl
    · refine elemAt_putElems_of_out _ _ _ _ _ _ _ _ ?_ (by simpa [signCodes, Nat.succ_mul] using hout)
      have hj' : j < vbits (engKey e) / 2 := hj
      omega
    · have hb3 : b ≠ 3 := by omega
      rw [Bool.eq_iff_iff, getLsbD_orV_foldl _ _ (by omega), exists_signCodes_testBit]
      simp only [hb3, false_and, or_false]
      rfl
    · rw [getLsbD_orV_foldl _ _ (by decide), exists_signCodes_testBit]
      simp only [true_and]
      rfl

/-! ### Integer and scalar instructions (R141, R144, R152) -/

/-- IMM as the immediate form reads it (R141). -/
theorem ofNat_immWord (n : Nat) (w : VFields) : BitVec.ofNat n (immWord n w) = BitVec.signExtend n w.imm := by
  have h : immWord n w = (BitVec.signExtend n w.imm).toNat := by
    rw [BitVec.signExtend, BitVec.toNat_ofInt]
    rfl
  rw [h, BitVec.ofNat_toNat, BitVec.setWidth_eq]

theorem ofNat_intB (w : VFields) (r : EngineState) (i : Nat) : BitVec.ofNat 32 (intB w r i) =
    if bitAt w.mode.toNat 0 then BitVec.signExtend 32 w.imm else BitVec.ofNat 32 (elemAt 32 (r.rv w.vb.toNat) i) := by
  unfold intB
  split
  · exact ofNat_immWord 32 w
  · rfl

theorem exec_of_int2Rows {x : Nat × (W32 → W32 → W32) × (Engine → VFields → Instr)} (hx : x ∈ int2Rows) (e : Engine)
    (w : VFields) (s : State) : exec (x.2.2 e w) s = issueRegs e x.1 w (int2 x.2.1 (engKey e) w) s := by
  simp only [int2Rows, List.mem_cons, List.not_mem_nil, or_false] at hx
  rcases hx with rfl | rfl | rfl | rfl | rfl | rfl | rfl | rfl | rfl | rfl | rfl <;> rfl

theorem exec_of_scalar2Rows {x : Nat × (W64 → W64 → W64) × (Engine → VFields → Instr)} (hx : x ∈ scalar2Rows) (e : Engine)
    (w : VFields) (s : State) : exec (x.2.2 e w) s = issueRegs e x.1 w (scalar2 x.2.1 (engKey e) w) s := by
  simp only [scalar2Rows, List.mem_cons, List.not_mem_nil, or_false] at hx
  rcases hx with rfl | rfl | rfl | rfl | rfl | rfl | rfl | rfl | rfl <;> rfl

section
variable (e : Engine) (w : VFields) (s : State)

theorem exec_vperm_eq : exec (.vperm e w) s = issueRegs e 0x3E w (intPerm (engKey e) w) s := rfl
theorem exec_iunpk_eq : exec (.iunpk e w) s = issueRegs e 0x3D w (intUnpack (engKey e) w) s := rfl
theorem exec_ipack_eq : exec (.ipack e w) s = issueRegs e 0x3C w (intPack (engKey e) w) s := rfl
theorem exec_vbcs_eq : exec (.vbcs e w) s = issueRegs e 0x4B w (broadcast (engKey e) w) s := rfl
theorem exec_fsel_eq : exec (.fsel e w) s = issueRegs e 0x2F w (floatSel (engKey e) w) s := rfl
theorem exec_icmp_eq : exec (.icmp e w) s = issueRegs e 0x3B w (intCmp (engKey e) w) s := rfl
theorem exec_fcmp_eq : exec (.fcmp e w) s = issueRegs e 0x2E w (floatCmp (engKey e) w) s := rfl

end

/-- Only the low bits of what a lane-wise operation answers are written. -/
theorem laneResult_congr {k wd : Nat} {w : VFields} {f g : Nat → Nat × Fl} {r r' : EngineState}
    (hv : ∀ j, (f j).1 % 2 ^ wd = (g j).1 % 2 ^ wd) (hfl : ∀ j, (f j).2 = (g j).2) (h : LaneResult k w wd f r r') :
    LaneResult k w wd g r r' := by
  obtain ⟨h1, h2⟩ := h
  exact ⟨fun j hj => by rw [h1 j hj, hv], fun b hb => by rw [h2 b hb]; simp only [hfl]⟩

/-- A write to VD alone. -/
theorem vecFrame_wv (k d x : Nat) (r : EngineState) : VecFrame d r (r.wv k d x) :=
  ⟨rfl, rfl, fun _ hi => wv_other r k d x _ hi⟩

/-- FSEL takes VA where the lane is active and VB elsewhere. -/
theorem elemAt_floatSel {k j : Nat} {w : VFields} (r : EngineState) (hw : fmtIsLane w.fmt.toNat = true)
    (hj : j < elemsOf k (fmtWidth w.fmt.toNat)) : elemAt (fmtWidth w.fmt.toNat) ((floatSel k w r).rv w.vd.toNat) j =
      elemAt (fmtWidth w.fmt.toNat)
        (r.rv (if onElem (r.mask k w) (fmtWidth w.fmt.toNat) j then w.va else w.vb).toNat) j := by
  rw [floatSel, elemAt_wv_packList _ _ _ _ _ (fmtWidth_of_fmtIsLane hw) j hj]
  split <;> exact Nat.mod_eq_of_lt (elemAt_lt _ _ _)

/-- Width of the parts that IPACK writes. -/
def packWidth (w : VFields) : Nat := if bitAt w.mode.toNat 0 then 16 else 8

/-- The parts that IPACK writes, lane by lane; an inactive lane's is 0 (log 126). -/
def packParts (k : Nat) (w : VFields) (r : EngineState) : List Nat :=
  (List.range (lanesOf k)).map fun i => if (r.mask k w).testBit i then elemAt 32 (r.rv w.va.toNat) i else 0

theorem intPack_eq (k : Nat) (w : VFields) (r : EngineState) : intPack k w r =
    r.wv k w.vd.toNat (putElems (packWidth w) (fPart w * lanesOf k) (packParts k w r) (r.rv w.vd.toNat)) := by
  have hlen : (packParts k w r).length = lanesOf k := by simp [packParts]
  rw [putElems, hlen, Nat.mul_comm (packWidth w), Nat.mul_comm (packWidth w)]
  rfl

/-- IPACK puts one lane's low bits into each part, and leaves what lies outside PART (R152). -/
theorem elemAt_intPack {k j : Nat} (w : VFields) (r : EngineState) (hj : j < 32 * lanesOf k / packWidth w) :
    elemAt (packWidth w) ((intPack k w r).rv w.vd.toNat) j =
      if fPart w * lanesOf k ≤ j ∧ j < (fPart w + 1) * lanesOf k then
        (if (r.mask k w).testBit (j - fPart w * lanesOf k) then
          elemAt 32 (r.rv w.va.toNat) (j - fPart w * lanesOf k) % 2 ^ packWidth w else 0)
      else elemAt (packWidth w) (r.rv w.vd.toNat) j := by
  have hin : packWidth w * (j + 1) ≤ vbits k :=
    (Nat.mul_le_mul_left _ hj).trans (Nat.mul_div_le _ _)
  have hlen : (packParts k w r).length = lanesOf k := by simp [packParts]
  rw [Nat.succ_mul, intPack_eq]
  split
  · next hp =>
    obtain ⟨i, rfl⟩ := Nat.exists_eq_add_of_le hp.1
    have hi : i < lanesOf k := by omega
    rw [elemAt_putElems _ _ _ _ _ _ _ _ (by rw [hlen]; exact hi) hin, getD_of_lt _ (by rw [hlen]; exact hi),
      Nat.add_sub_cancel_left]
    simp only [packParts, List.getElem_map, List.getElem_range]
    split
    · rfl
    · exact Nat.zero_mod _
  · next hp => exact elemAt_putElems_of_out _ _ _ _ _ _ _ _ hin (by rw [hlen]; omega)

/-- Writing a scalar register and setting flags changes nothing else. -/
theorem scalFrame_ws (d : Nat) (x : W64) (r : EngineState) : ScalFrame d r (r.ws d x) := by
  refine ⟨?_, fun i hi => ?_⟩
  · unfold EngineState.ws
    split <;> rfl
  · rw [rs_ws, if_neg hi]
    split
    · next h0 => subst h0; rfl
    · rfl

theorem rs_ws_self (d : Nat) (x : W64) (r : EngineState) : (r.ws d x).rs d = if d = 0 then 0 else x := by
  rw [rs_ws, if_pos rfl]

/-- An instruction that writes one scalar register completes with it, and leaves the vector flags. -/
theorem completes_ws {e : Engine} {op : Nat} {w : VFields} {s : State} {i : Instr} (x : EngineState → W64)
    (hx : exec i s = issueRegs e op w (fun r => r.ws w.vd.toNat (x r)) s) (h : CanIssue e op w s) :
    ∃ r, Completes e i s r ∧ ScalFrame w.vd.toNat (s.eng (engKey e)) r ∧ r.vflags = (s.eng (engKey e)).vflags ∧
      r.rs w.vd.toNat = if w.vd.toNat = 0 then 0 else x (s.eng (engKey e)) :=
  ⟨_, completes_of_issueRegs hx h, scalFrame_ws _ _ _, ws_vflags _ _ _, rs_ws_self _ _ _⟩

/-- VEXT's lane lies inside the engine (R140). -/
theorem imm_lt_of_vext {e : Engine} {w : VFields} {s : State} (h : CanIssue e 0x4C w s) : w.imm.toNat < 256 := by
  obtain ⟨len, hok⟩ := wordOk_of_canIssue h
  have hlt : w.imm.toNat < laneCount (isInflector (engKey e)) := by
    unfold wordOk at hok
    split at hok
    · simp at hok
    · simp only [Bool.and_eq_true] at hok
      simpa using hok.1.1.1.1.1.2
  rcases lanesOf_cases (engKey e) with hl | hl <;> (rw [lanesOf] at hl; omega)

/-! ### Predicates (R136, R139) -/

theorem predFrame_wp (k d x : Nat) (r : EngineState) : PredFrame k d r (r.wp k d x) := by
  refine ⟨?_, fun i hi => ?_⟩
  · unfold EngineState.wp
    split <;> rfl
  · rw [rp_wp, if_neg hi]
    split
    · next h0 => subst h0; rfl
    · rfl

theorem lanesOf_le (k : Nat) : lanesOf k ≤ 256 := by
  rcases lanesOf_cases k with h | h <;> omega

/-- A lane of a predicate register after it has been written; p0 reads all ones. -/
theorem testBit_rp_wp {k i : Nat} (d x : Nat) (r : EngineState) (hi : i < lanesOf k) :
    ((r.wp k d x).rp k d).testBit i = if d = 0 then true else x.testBit i := by
  have hle := lanesOf_le k
  rw [rp_wp]
  split
  · rw [Nat.testBit_two_pow_sub_one]
    exact decide_eq_true hi
  · rw [if_pos rfl, Nat.testBit_mod_two_pow, Nat.testBit_mod_two_pow]
    simp [hi, show i < 256 by omega]

/-- An instruction that writes one predicate register completes with it, lane by lane. -/
theorem completes_wp {e : Engine} {op : Nat} {w : VFields} {s : State} {i : Instr} (x : EngineState → Nat)
    (hx : exec i s = issueRegs e op w (fun r => r.wp (engKey e) w.vd.toNat (x r)) s) (h : CanIssue e op w s) :
    ∃ r, Completes e i s r ∧ PredFrame (engKey e) w.vd.toNat (s.eng (engKey e)) r ∧
      ∀ j, j < lanesOf (engKey e) → (r.rp (engKey e) w.vd.toNat).testBit j =
        if w.vd.toNat = 0 then true else (x (s.eng (engKey e))).testBit j :=
  ⟨_, completes_of_issueRegs hx h, predFrame_wp _ _ _ _, fun _ hj => testBit_rp_wp _ _ _ hj⟩

/-- Bits packed one by one. -/
theorem testBit_packBits (n : Nat) (f : Nat → Bool) {i : Nat} (hi : i < n) :
    (packList 1 ((List.range n).map fun j => bit (f j))).testBit i = f i := by
  have h := elemAt_packList 1 ((List.range n).map fun j => bit (f j)) i (by simpa using hi)
  have hb := testBit_elemAt 1 (packList 1 ((List.range n).map fun j => bit (f j))) i 0
  rw [h] at hb
  simp only [List.getElem_map, List.getElem_range, Nat.lt_one_iff, decide_true, Bool.true_and, Nat.one_mul,
    Nat.add_zero] at hb
  rw [← hb]
  unfold bit
  cases f i <;> rfl

/-- What a compare writes: the comparison in active lanes, the old bit in the others. -/
theorem writePred_eq (k : Nat) (w : VFields) (act f : Nat → Bool) (r : EngineState) : writePred k w act f r =
    r.wp k w.vd.toNat (packList 1 ((List.range (lanesOf k)).map fun i =>
      bit (if act i then f i else (r.rp k w.vd.toNat).testBit i))) := by
  unfold writePred
  simp only [apply_ite bit]

/-- A compare completes, lane by lane (R139). -/
theorem completes_writePred {e : Engine} {op : Nat} {w : VFields} {s : State} {i : Instr}
    (act f : EngineState → Nat → Bool)
    (hx : exec i s = issueRegs e op w (fun r => writePred (engKey e) w (act r) (f r) r) s) (h : CanIssue e op w s) :
    ∃ r, Completes e i s r ∧ PredFrame (engKey e) w.vd.toNat (s.eng (engKey e)) r ∧
      ∀ j, j < lanesOf (engKey e) → (r.rp (engKey e) w.vd.toNat).testBit j =
        if w.vd.toNat = 0 then true
        else if act (s.eng (engKey e)) j then f (s.eng (engKey e)) j
        else ((s.eng (engKey e)).rp (engKey e) w.vd.toNat).testBit j := by
  simp only [writePred_eq] at hx
  obtain ⟨r, hr, hframe, hbits⟩ := completes_wp _ hx h
  exact ⟨r, hr, hframe, fun j hj => by rw [hbits j hj, testBit_packBits _ _ hj]⟩

/-- Settles O3: the lane-wise rows go through `mapLanes`, the scalar ones write one register, and IPACK puts a run of parts
into VD. -/
theorem integerAndScalar : Obligations.IntegerAndScalar := by
  unfold Obligations.IntegerAndScalar
  refine ⟨fun x hx e w s h => ?int2, ⟨fun e w s h => ?vperm, fun e w s h => ?iunpk, fun e w s h => ?vbcs,
    fun e w s h => ?fsel, fun e w s h => ?ipack⟩, ⟨fun x hx e w s h => ?scalar2, fun e w s i x hx => ?scalar⟩,
    fun e w s h => ?icmp⟩
  case int2 =>
    have hexec := exec_of_int2Rows hx e w s
    unfold int2 at hexec
    simp only [ofNat_intB] at hexec
    obtain ⟨r, hr, hframe, hres⟩ := completes_mapLanes 32 _ (by decide) hexec h
    exact ⟨r, hr, hframe, vflags_of_laneResult hres fun _ => rfl, hres⟩
  case vperm => exact completes_mapLanes 32 _ (by decide) (exec_vperm_eq e w s) h
  case iunpk =>
    have hexec := exec_iunpk_eq e w s
    unfold intUnpack at hexec
    simp only [elemAt_shiftRight] at hexec
    exact completes_mapLanes 32 _ (by decide) hexec h
  case vbcs =>
    have hw := fmtWidth_of_fmtIsLane (fmtIsLane_of_canIssue (by decide) h)
    obtain ⟨r, hr, hframe, hres⟩ := completes_mapLanes _ _ hw (exec_vbcs_eq e w s) h
    refine ⟨r, hr, hframe, laneResult_congr (fun _ => ?_) (fun _ => ?_) hres⟩
    · exact Nat.mod_mod _ _
    · rfl
  case fsel =>
    exact ⟨_, completes_of_issueRegs (exec_fsel_eq e w s) h, vecFrame_wv _ _ _ _, rfl, fun j hj =>
      elemAt_floatSel _ (fmtIsLane_of_canIssue (by decide) h) hj⟩
  case ipack =>
    exact ⟨_, completes_of_issueRegs (exec_ipack_eq e w s) h, vecFrame_wv _ _ _ _, rfl, fun j hj => elemAt_intPack w _ hj⟩
  case scalar2 =>
    have hexec := exec_of_scalar2Rows hx e w s
    unfold scalar2 at hexec
    simp only [ofNat_immWord] at hexec
    exact completes_ws _ hexec h
  case scalar =>
    rcases hx with ⟨h, rfl, rfl⟩ | ⟨h, rfl, rfl⟩ | ⟨h, rfl, rfl⟩ | ⟨h, rfl, rfl⟩
    · rw [← ofNat_immWord]
      exact completes_ws (fun _ => BitVec.ofNat 64 (immWord 64 w)) rfl h
    · rw [← BitVec.ofNat_toNat]
      exact completes_ws (fun r => (r.rs w.vd.toNat <<< 24) ||| BitVec.ofNat 64 w.imm.toNat) rfl h
    · rw [← Nat.mod_eq_of_lt (imm_lt_of_vext h)]
      exact completes_ws (fun r => BitVec.ofNat 64 (elemAt 32 (r.rv w.va.toNat) (w.imm.toNat % 256))) rfl h
    · rw [List.countP_eq_length_filter]
      exact completes_ws (fun r => BitVec.ofNat 64 (popCount (r.rp (engKey e) w.va.toNat) (lanesOf (engKey e)))) rfl h
  case icmp =>
    obtain ⟨r, hr, hframe, _⟩ := completes_writePred _ _ (exec_icmp_eq e w s) h
    exact ⟨r, hr, hframe⟩

/-- The operation of a predicate row on whole registers is its operation on each lane. -/
theorem exec_of_pred2Rows {x : Nat × (Bool → Bool → Bool) × (Engine → VFields → Instr)} (hx : x ∈ pred2Rows) (e : Engine)
    (w : VFields) (s : State) : ∃ f : Nat → Nat → Nat,
      exec (x.2.2 e w) s = issueRegs e x.1 w (pred2 f (engKey e) w) s ∧
      ∀ a b i, i < 256 → (f a b).testBit i = x.2.1 (a.testBit i) (b.testBit i) := by
  simp only [pred2Rows, List.mem_cons, List.not_mem_nil, or_false] at hx
  rcases hx with rfl | rfl | rfl | rfl
  · exact ⟨fun a b => a &&& b, rfl, fun a b i _ => Nat.testBit_and a b i⟩
  · exact ⟨fun a b => a ||| b, rfl, fun a b i _ => Nat.testBit_or a b i⟩
  · exact ⟨fun a b => a ^^^ b, rfl, fun a b i _ => Nat.testBit_xor a b i⟩
  · refine ⟨fun a b => a &&& ((2 ^ 256 - 1) ^^^ b), rfl, fun a b i hi => ?_⟩
    have hone : (2 ^ 256 - 1).testBit i = true := by
      rw [Nat.testBit_two_pow_sub_one]
      exact decide_eq_true hi
    rw [Nat.testBit_and, Nat.testBit_xor, hone, Bool.true_xor]

/-- Settles O4: a compare writes the active lanes of one predicate register, a predicate row all of them. -/
theorem comparesAndPredicates : Obligations.ComparesAndPredicates := by
  unfold Obligations.ComparesAndPredicates
  refine ⟨⟨fun e w s h => ?fcmp, fun e w s h => ?icmp⟩, fun x hx e w s h => ?pred2, fun e w s i f hx => ?pred⟩
  case fcmp =>
    have hexec := exec_fcmp_eq e w s
    unfold floatCmp at hexec
    simp only [← apply_ite (Nat.testBit _)] at hexec
    exact completes_writePred _ _ hexec h
  case icmp => exact completes_writePred _ _ (exec_icmp_eq e w s) h
  case pred2 =>
    obtain ⟨f, hexec, hf⟩ := exec_of_pred2Rows hx e w s
    obtain ⟨r, hr, hframe, hbits⟩ := completes_wp _ hexec h
    refine ⟨r, hr, hframe, fun i hi => ?_⟩
    rw [hbits i hi, hf _ _ i (hi.trans_le (lanesOf_le _))]
  case pred =>
    rcases hx with ⟨h, rfl, rfl⟩ | ⟨h, rfl, rfl⟩
    · obtain ⟨r, hr, hframe, hbits⟩ := completes_wp (i := .pset e w) (fun _ => 2 ^ min w.imm.toNat 256 - 1) rfl h
      refine ⟨r, hr, hframe, fun j hj => ?_⟩
      have hlt : j < 256 := hj.trans_le (lanesOf_le _)
      rw [hbits j hj, Nat.testBit_two_pow_sub_one]
      simp [hlt]
    · obtain ⟨r, hr, hframe, hbits⟩ := completes_wp (i := .pexp e w) (fun r => packList 1 ((List.range 256).map fun i =>
        bit ((r.rs w.va.toNat).getLsbD (i >>> w.imm.toNat)))) rfl h
      refine ⟨r, hr, hframe, fun j hj => ?_⟩
      rw [hbits j hj, testBit_packBits _ _ (hj.trans_le (lanesOf_le _))]

/-! ### Reductions (R155 to R157) -/

/-- AMAXB's block maxima, with their flags (R155). -/
def blockMaxima (k : Nat) (w : VFields) (r : EngineState) : List (Nat × Fl) :=
  (List.range (cdiv (convSource k w r).length (fmtBlock w.fmt.toNat))).map fun j =>
    amaxCode (amaxFmt w)
      (amaxOf (((convSource k w r).drop (j * fmtBlock w.fmt.toNat)).take (fmtBlock w.fmt.toNat)))

theorem amaxBlocks_eq (k : Nat) (w : VFields) (r : EngineState) : amaxBlocks k w r =
    (r.wv k w.vd.toNat (putElems (amaxFmt w).width (convBase k w) ((blockMaxima k w r).map (·.1))
      (r.rv w.vd.toNat))).orV ((blockMaxima k w r).foldl (fun a x => a ||| x.2) 0) := by
  rw [putElems, List.length_map]
  rfl

/-- The maximum of block `j` stands at its place in VD, and the other elements stand. -/
theorem elemAt_amaxBlocks {k j : Nat} (w : VFields) (r : EngineState) (hj : j < elemsOf k (amaxFmt w).width) :
    elemAt (amaxFmt w).width ((amaxBlocks k w r).rv w.vd.toNat) j =
      if convBase k w ≤ j ∧ j < convBase k w + cdiv (convSource k w r).length (fmtBlock w.fmt.toNat) then
        (amaxCode (amaxFmt w) (amaxOf (((convSource k w r).drop ((j - convBase k w) * fmtBlock w.fmt.toNat)).take
          (fmtBlock w.fmt.toNat)))).1 % 2 ^ (amaxFmt w).width
      else elemAt (amaxFmt w).width (r.rv w.vd.toNat) j := by
  have hin : (amaxFmt w).width * (j + 1) ≤ vbits k := (Nat.mul_le_mul_left _ hj).trans (Nat.mul_div_le _ _)
  have hlen : ((blockMaxima k w r).map (·.1)).length = cdiv (convSource k w r).length (fmtBlock w.fmt.toNat) := by
    simp [blockMaxima]
  rw [amaxBlocks_eq]
  split
  · next hp =>
    obtain ⟨i, rfl⟩ := Nat.exists_eq_add_of_le hp.1
    have hi : i < ((blockMaxima k w r).map (·.1)).length := by omega
    rw [Nat.add_sub_cancel_left]
    refine (elemAt_putElems _ _ _ _ _ _ _ _ hi hin).trans ?_
    rw [getD_of_lt _ hi]
    simp [blockMaxima]
  · next hp => exact elemAt_putElems_of_out _ _ _ _ _ _ _ _ hin (by omega)

/-- Setting flags after a scalar register has been written. -/
theorem scalFrame_ws_orV (d : Nat) (x : W64) (fl : Fl) (r : EngineState) : ScalFrame d r ((r.ws d x).orV fl) := by
  obtain ⟨h, hr⟩ := scalFrame_ws d x r
  exact ⟨by rw [h]; rfl, hr⟩

theorem rs_orV (r : EngineState) (fl : Fl) (i : Nat) : (r.orV fl).rs i = r.rs i := rfl

/-- A conversion that reduced service has completes with what its operation makes of the registers. -/
theorem completes_of_issueConv {e : Engine} {op : Nat} {w : VFields} {s : State} {i : Instr}
    {f : EngineState → EngineState} (hx : exec i s = issueConv e op w f s) (h : CanIssue e op w s)
    (hb : serviceBad s w = false) : Completes e i s (f (s.eng (engKey e))) :=
  hx.trans (issueConv_of_service f h hb)

/-- The scalar that SUM writes (R157). -/
def sumValue (k : Nat) (w : VFields) (r : EngineState) : W64 :=
  if w.fmt = 0xF then
    BitVec.ofNat 64 (((List.range (elemsOf k (fmtWidth w.fmt.toNat))).map fun j =>
      if onElem (r.mask k w) (fmtWidth w.fmt.toNat) j then elemAt (fmtWidth w.fmt.toNat) (r.rv w.va.toNat) j
      else 0).sum % 2 ^ 32)
  else BitVec.ofNat 64 (codeOf (if w.fmt = 0xE then fFP64 else fFP32)
    (tree (if w.fmt = 0xE then fFP64 else fFP32) false
      ((List.range (elemsOf k (fmtWidth w.fmt.toNat))).map fun j =>
        if onElem (r.mask k w) (fmtWidth w.fmt.toNat) j then
          decodeElem w.fmt.toNat (elemAt (fmtWidth w.fmt.toNat) (r.rv w.va.toNat) j)
        else fvZero)).1)

theorem orV_zero (r : EngineState) : r.orV 0 = r := by
  unfold EngineState.orV
  rw [show BitVec.ofNat 4 0 = 0#4 from rfl, BitVec.or_zero]

/-- SUM writes one scalar register and sets flags. -/
theorem sumLanes_eq (k : Nat) (w : VFields) (r : EngineState) :
    ∃ fl, sumLanes k w r = (r.ws w.vd.toNat (sumValue k w r)).orV fl := by
  have h15 : w.fmt.toNat = 15 ↔ w.fmt = 0xF := BitVec.toNat_inj (y := 0xF#4)
  have h14 : w.fmt.toNat = 14 ↔ w.fmt = 0xE := BitVec.toNat_inj (y := 0xE#4)
  unfold sumLanes sumValue
  by_cases hc : w.fmt = 0xF
  · refine ⟨0, ?_⟩
    rw [if_pos hc, if_pos (h15.mpr hc), List.sum_eq_foldl, orV_zero]
  · rw [if_neg hc, if_neg (mt h15.mp hc)]
    simp only [h14]
    exact ⟨_, rfl⟩

theorem exec_sum_eq (e : Engine) (w : VFields) (s : State) :
    exec (.sum e w) s = issueRegs e 0x53 w (sumLanes (engKey e) w) s := rfl

/-- Settles O6: AMAXB puts a run of block maxima into VD; AMAXT and SUM write one scalar register. -/
theorem reductions : Obligations.Reductions := by
  unfold Obligations.Reductions
  refine ⟨fun e w s h hb => ?_, fun e w s h hb => ?_, fun e w s h => ?_⟩
  · refine ⟨_, completes_of_issueConv (exec_amaxb_eq e w s) h hb, ?_, fun j hj => elemAt_amaxBlocks w _ hj⟩
    rw [amaxBlocks_eq]
    exact vecFrame_wv_orV _ _ _ _ _
  · exact ⟨_, completes_of_issueConv (exec_amaxt_eq e w s) h hb, scalFrame_ws_orV _ _ _ _, rs_ws_self _ _ _⟩
  · obtain ⟨fl, hsum⟩ := sumLanes_eq (engKey e) w (s.eng (engKey e))
    refine ⟨_, completes_of_issueRegs (exec_sum_eq e w s) h, ?_⟩
    rw [hsum]
    refine ⟨scalFrame_ws_orV _ _ _ _, ?_⟩
    rw [rs_orV, rs_ws_self]
    rfl

/-! ### SRND (R161) -/

theorem exec_srnd_eq (e : Engine) (w : VFields) (s : State) :
    exec (.srnd e w) s = issueRegs e 0x56 w (srnd s.job.seed (engKey e) w) s := rfl

/-- Settles O7: each of SRND's three forms is a lane-wise operation. -/
theorem stochasticRounding : Obligations.StochasticRounding := by
  unfold Obligations.StochasticRounding
  refine ⟨fun e w s h hmode => ?draw, fun e w s h hmode hfmt => ?int, fun e w s h hmode hfmt => ?float⟩
  all_goals
    have hx := exec_srnd_eq e w s
    unfold srnd at hx
    simp only [hmode, Bool.false_eq_true, if_true, if_false] at hx
  case draw => exact completes_mapLanes 32 _ (by decide) hx h
  case int =>
    simp only [hfmt, if_true] at hx
    exact completes_mapLanes 32 _ (by decide) hx h
  case float =>
    simp only [hfmt, if_false] at hx
    exact completes_mapLanes _ _ (laneFloat_width (fmtIsLane_of_canIssue (by decide) h)) hx h

/-! ### PD in pieces, and its linearity (R169, R251) -/

/-- Fuel beyond the length of the run is not used. -/
theorem pdRange_of_length_le (f : Nat) : ∀ (g y : Nat) (bs : List Byte), bs.length ≤ f → bs.length ≤ g →
    pdRange f y bs = pdRange g y bs := by
  induction f with
  | zero =>
    intro g y bs hf _
    obtain rfl : bs = [] := List.length_eq_zero_iff.mp (Nat.le_zero.mp hf)
    cases g <;> rfl
  | succ f ih =>
    intro g y bs hf hg
    by_cases hbs : bs = []
    · subst hbs
      cases g <;> rfl
    · obtain ⟨g, rfl⟩ := Nat.exists_eq_add_one_of_ne_zero (Nat.ne_of_gt ((List.length_pos_iff.mpr hbs).trans_le hg))
      have hpos := List.length_pos_iff.mpr hbs
      simp only [pdRange, List.isEmpty_iff, hbs, if_false]
      exact ih g _ _ (by rw [List.length_drop]; omega) (by rw [List.length_drop]; omega)

/-- One block, and then the rest. -/
theorem pdRange_of_ne_nil (y : Nat) {bs : List Byte} (h : bs ≠ []) : pdRange bs.length y bs =
    pdRange (bs.drop 16).length (pdBlock y (leNat (bs.take 16))) (bs.drop 16) := by
  obtain ⟨n, hn⟩ := Nat.exists_eq_add_one_of_ne_zero (Nat.ne_of_gt (List.length_pos_iff.mpr h))
  rw [hn]
  simp only [pdRange, List.isEmpty_iff, h, if_false]
  exact pdRange_of_length_le _ _ _ _ (by rw [List.length_drop]; omega) le_rfl

/-- A whole number of blocks is folded before what follows it. -/
theorem pdRange_append (n : Nat) : ∀ (y : Nat) (a b : List Byte), a.length = 16 * n →
    pdRange (a ++ b).length y (a ++ b) = pdRange b.length (pdRange a.length y a) b := by
  induction n with
  | zero =>
    intro y a b ha
    obtain rfl : a = [] := List.length_eq_zero_iff.mp ha
    rfl
  | succ n ih =>
    intro y a b ha
    have hle : 16 ≤ a.length := by omega
    have hne : a ≠ [] := List.ne_nil_of_length_pos (by omega)
    rw [pdRange_of_ne_nil y (List.append_ne_nil_of_left_ne_nil hne b), pdRange_of_ne_nil y hne,
      List.take_append_of_le_length hle, List.drop_append_of_le_length hle]
    exact ih _ _ b (by rw [List.length_drop]; omega)

/-- A field element times `x`, as `gmulGo` doubles it. -/
def gdouble (p : Nat) : Nat := if p.testBit 127 then (p * 2) % 2 ^ 128 ^^^ 0x87 else (p * 2) % 2 ^ 128

theorem gmulGo_succ (a c i p : Nat) :
    gmulGo a c (i + 1) p = gmulGo a c i (if c.testBit i then gdouble p ^^^ a else gdouble p) := rfl

/-- Doubling before reduction is linear. -/
theorem xor_mul_two_mod (p q : Nat) : ((p ^^^ q) * 2) % 2 ^ 128 = (p * 2) % 2 ^ 128 ^^^ (q * 2) % 2 ^ 128 := by
  have hmul : ∀ x : Nat, x * 2 = x <<< 1 := fun x => by rw [Nat.shiftLeft_eq, Nat.pow_one]
  rw [hmul, hmul, hmul, Nat.shiftLeft_xor_distrib, Nat.xor_mod_two_pow]

theorem gdouble_xor (p q : Nat) : gdouble (p ^^^ q) = gdouble p ^^^ gdouble q := by
  unfold gdouble
  rw [xor_mul_two_mod, Nat.testBit_xor]
  cases p.testBit 127 <;> cases q.testBit 127 <;> simp [Nat.xor_comm, Nat.xor_left_comm]

theorem gmulGo_xor (a b c i : Nat) : ∀ p q : Nat,
    gmulGo (a ^^^ b) c i (p ^^^ q) = gmulGo a c i p ^^^ gmulGo b c i q := by
  induction i with
  | zero => exact fun p q => rfl
  | succ i ih =>
    intro p q
    rw [gmulGo_succ, gmulGo_succ, gmulGo_succ, gdouble_xor]
    split
    · rw [← ih, Nat.xor_assoc, Nat.xor_assoc, Nat.xor_left_comm (gdouble q)]
    · exact ih _ _

/-- Settles O23: a run is folded block by block, and a block's product is a sum of shifts of its factor. -/
theorem digestInPieces : Obligations.DigestInPieces := by
  unfold Obligations.DigestInPieces
  refine ⟨fun y a b ha => ?_, fun a b c => gmulGo_xor a b c 128 0 0⟩
  exact pdRange_append (a.length / 16) y a b (by omega)

/-! ### One change after another -/

/-- Two walks over a list agree when their steps agree in every state that they can meet. -/
theorem forEach_congr {α : Type} {P : State → Prop} {f f' : α → State → State} (xs : List α)
    (hP : ∀ x ∈ xs, ∀ t, P t → P (f' x t)) (hf : ∀ x ∈ xs, ∀ t, P t → f x t = f' x t) :
    ∀ t, P t → forEach xs f t = forEach xs f' t := by
  induction xs with
  | nil => exact fun t _ => rfl
  | cons x xs ih =>
    intro t ht
    change forEach xs f (f x t) = forEach xs f' (f' x t)
    rw [hf x (by simp) t ht]
    exact ih (fun y hy => hP y (by simp [hy])) (fun y hy => hf y (by simp [hy])) _ (hP x (by simp) t ht)

section
variable (f : Nat → EngineState → EngineState)

/-- Engines changed one by one: nothing but engines differs. -/
theorem forEach_updEng_frame (xs : List (Nat × Nat)) : ∀ t : State,
    forEach xs (fun x t => t.updEng x.2 (f x.1)) t =
      { t with engines := (forEach xs (fun x t => t.updEng x.2 (f x.1)) t).engines } := by
  induction xs with
  | nil => exact fun t => rfl
  | cons x xs ih => exact fun t => ih (t.updEng x.2 (f x.1))

theorem forEach_updEng_of_not_mem {k : Nat} (xs : List (Nat × Nat)) : ∀ t : State, k ∉ xs.map (·.2) →
    (forEach xs (fun x t => t.updEng x.2 (f x.1)) t).eng k = t.eng k := by
  induction xs with
  | nil => exact fun t _ => rfl
  | cons x xs ih =>
    intro t hk
    rw [List.map_cons, List.mem_cons, not_or] at hk
    exact (ih _ hk.2).trans (State.updEng_eng_of_ne t _ hk.1)

/-- An engine that the list names once is changed once. -/
theorem forEach_updEng_of_mem {k i : Nat} (xs : List (Nat × Nat)) : ∀ t : State, (xs.map (·.2)).Nodup → (i, k) ∈ xs →
    (forEach xs (fun x t => t.updEng x.2 (f x.1)) t).eng k = f i (t.eng k) := by
  induction xs with
  | nil => exact fun t _ h => absurd h (by simp)
  | cons x xs ih =>
    intro t hnd h
    rw [List.map_cons, List.nodup_cons] at hnd
    obtain ⟨hx, hnd⟩ := hnd
    rcases List.mem_cons.mp h with rfl | h
    · exact (forEach_updEng_of_not_mem f xs _ hx).trans (State.updEng_eng_self t k _)
    · have hne : k ≠ x.2 := fun e => hx (e ▸ List.mem_map_of_mem (f := (·.2)) h)
      exact (ih (t.updEng x.2 (f x.1)) hnd h).trans (congrArg (f i) (State.updEng_eng_of_ne t _ hne))

end

theorem map_snd_number (ks : List Nat) : ∀ n, (number n ks).map (·.2) = ks := by
  induction ks with
  | nil => exact fun n => rfl
  | cons k ks ih => exact fun n => congrArg (k :: ·) (ih (n + 1))

theorem mem_number (ks : List Nat) : ∀ n i, i < ks.length → (n + i, ks.getD i 0) ∈ number n ks := by
  induction ks with
  | nil => exact fun n i h => absurd h (by simp)
  | cons k ks ih =>
    intro n i h
    cases i with
    | zero => simp [number]
    | succ i =>
      refine List.mem_cons_of_mem _ ?_
      rw [← Nat.add_assoc, Nat.add_right_comm]
      exact ih (n + 1) i (by simpa using h)

/-! ### The barrier of a stage (R137, R158, R165) -/

/-- The stage of a cell depends on which stages are loaded, and on their images. -/
theorem stageOfCell_congr {s t : State}
    (h : ∀ u, (t.stage u).loaded = (s.stage u).loaded ∧ (t.stage u).image = (s.stage u).image) (k : Nat) :
    t.stageOfCell k = s.stageOfCell k := by
  unfold State.stageOfCell State.loadedStages Stage.cellKeys
  simp only [(h _).1, (h _).2]

/-- A cell of a stage without layer groups goes on at any instruction (R121). -/
theorem landNull_of_no_groups {k v pc : Nat} {t : State} (hi : isInflector k = false) (hv : t.stageOfCell k = some v)
    (hg : (t.stage v).image.groups = []) : landNull k pc t = t.updEng k fun e => { e with pc := pc } := by
  unfold landNull
  simp [hi, hv, Stage.entryAt, Stage.inAnyRange, hg]

/-- A cell at the start of the stage code (R137). -/
def startCell (v count blockAddr rank : Nat) (e : EngineState) : EngineState :=
  { startRegs v rank count blockAddr e with stat := .running, loops := [], outerLoops := 0, pc := 0 }

/-- In a stage without layer groups, starting the code is starting it in each cell. -/
theorem startAt_of_no_groups {v : Nat} {s : State} (hg : (s.stage v).image.groups = [])
    (hk : ∀ k ∈ (s.stage v).cellKeys, isInflector k = false ∧ s.stageOfCell k = some v) :
    startAt v 0 s = forEach (number 0 (s.stage v).cellKeys) (fun x t => t.updEng x.2
      (startCell v (s.stage v).cellKeys.length (s.stage v).image.blockAddr x.1)) s := by
  unfold startAt
  refine forEach_congr (P := fun t => t.stages = s.stages) (f' := fun (x : Nat × Nat) t => t.updEng x.2 (startCell v
    (s.stage v).cellKeys.length (s.stage v).image.blockAddr x.1)) _ (fun x _ t ht => ht) (fun x hx t ht => ?_) s rfl
  obtain ⟨rank, k⟩ := x
  have hmem : k ∈ (s.stage v).cellKeys :=
    map_snd_number (s.stage v).cellKeys 0 ▸ List.mem_map_of_mem (f := (·.2)) hx
  have hstage : ∀ u, t.stage u = s.stage u := fun u => by unfold State.stage; rw [ht]
  obtain ⟨hi, hv⟩ := hk k hmem
  dsimp only
  rw [landNull_of_no_groups (v := v) hi ?_ ?_, updEng_updEng]
  · rfl
  · rw [updEng_stageOfCell, stageOfCell_congr (s := s) fun u => by simp [hstage], hv]
  · rw [State.updEng_stage, hstage, hg]

/-- What the device sets in the scalar registers of a cell that starts (R137). -/
theorem startCell_regs (v count blockAddr rank : Nat) (e : EngineState) :
    let r := startCell v count blockAddr rank e
    r.pc = 0 ∧ r.stat = .running ∧ r.rs 1 = BitVec.ofNat 64 rank ∧ r.rs 2 = BitVec.ofNat 64 count ∧
      r.rs 3 = BitVec.ofNat 64 v ∧ r.rs 4 = BitVec.ofNat 64 blockAddr := by
  have hrs : ∀ i, (startCell v count blockAddr rank e).rs i = (startRegs v rank count blockAddr e).rs i := fun _ => rfl
  refine ⟨rfl, rfl, ?_, ?_, ?_, ?_⟩ <;> (rw [hrs]; simp [startRegs, rs_ws])

theorem forEach_updEng_const (f : EngineState → EngineState) (ks : List Nat) : ∀ t : State,
    forEach ks (fun k t => t.updEng k f) t = { t with engines := (forEach ks (fun k t => t.updEng k f) t).engines } := by
  induction ks with
  | nil => exact fun t => rfl
  | cons k ks ih => exact fun t => ih (t.updEng k f)

theorem updCells_frame (s : State) (v : Nat) (f : EngineState → EngineState) :
    s.updCells v f = { s with engines := (s.updCells v f).engines } :=
  forEach_updEng_const f _ s

/-- A stage as its code starts again. -/
def againStage (g : Stage) : Stage := { g.dropHeld.settle with exec := none, restart := 0 }

/-- The state in which the stage code starts again. -/
def againState (v : Nat) (s : State) : State := (s.updStage v againStage).updCells v EngineState.keepOrdinal

theorem againState_stage (v : Nat) (s : State) (u : Nat) : (againState v s).stage u =
    if u = v then againStage (s.stage v) else s.stage u := by
  unfold againState
  rw [updCells_frame]
  exact State.updStage_stage s v u againStage

/-- The stages that are loaded, and their images, are the same. -/
theorem againState_image (v : Nat) (s : State) (u : Nat) :
    ((againState v s).stage u).loaded = (s.stage u).loaded ∧ ((againState v s).stage u).image = (s.stage u).image := by
  rw [againState_stage]
  split
  · next h => subst h; exact ⟨rfl, rfl⟩
  · exact ⟨rfl, rfl⟩

/-- Some cell of a stage with cells does not wait as `p` says. -/
theorem not_all_stat {s : State} {ks : List Nat} {p : EStat} (hks : ks ≠ []) (hp : ∀ k ∈ ks, (s.eng k).stat ≠ p)
    (q : EngineState → Bool) : ((ks.map s.eng).all fun e => e.stat == p && q e) = false := by
  obtain ⟨k, hk⟩ := List.exists_mem_of_ne_nil _ hks
  rw [List.all_eq_false]
  exact ⟨s.eng k, List.mem_map_of_mem hk, by simp [hp k hk]⟩

section
variable {v : Nat} {s : State} (hlive : (s.stage v).live = true) (hks : (s.stage v).cellKeys ≠ [])
include hlive hks

theorem releaseBarrier_sync (h : ∀ k ∈ (s.stage v).cellKeys, (s.eng k).stat = .waitSync ∧ (s.eng k).dmaQ = []) :
    releaseBarrier v s = forEach (s.stage v).cellKeys
      (fun k s => advance k (s.updEng k fun e => { e with stat := .running })) s := by
  have hall : (((s.stage v).cellKeys.map s.eng).all fun e => e.stat == .waitSync && e.dmaQ.isEmpty) = true := by
    simpa using h
  unfold releaseBarrier
  simp [hlive, hks, hall]

theorem releaseBarrier_end (h : ∀ k ∈ (s.stage v).cellKeys, (s.eng k).stat = .waitEnd) :
    releaseBarrier v s = newRun v s := by
  have hsync := not_all_stat (s := s) (p := .waitSync) hks (fun k hk => by rw [h k hk]; decide) fun e => e.dmaQ.isEmpty
  have hall : (((s.stage v).cellKeys.map s.eng).all fun e => e.stat == .waitEnd) = true := by simpa using h
  unfold releaseBarrier
  simp only [hsync, hall]
  simp [hlive, hks]

theorem releaseBarrier_xred {mode : Nat} {x : Nat → W64} {d : Nat → Nat}
    (h : ∀ k ∈ (s.stage v).cellKeys, (s.eng k).stat = .waitXred (x k) mode (d k)) :
    releaseBarrier v s = forEach (s.stage v).cellKeys
      (fun k t => xredFinish k (xredValue mode ((s.stage v).cellKeys.map x)) t) s := by
  have hsync := not_all_stat (s := s) (p := .waitSync) hks (fun k hk => by rw [h k hk]; simp) fun e => e.dmaQ.isEmpty
  have hend := not_all_stat (s := s) (p := .waitEnd) hks (fun k hk => by rw [h k hk]; simp) fun _ => true
  simp only [Bool.and_true] at hend
  obtain ⟨k, t, hkt⟩ := List.exists_cons_of_ne_nil hks
  have hhead : (((s.stage v).cellKeys.map s.eng).headD {}).stat = .waitXred (x k) mode (d k) := by
    rw [hkt]
    exact h k (by simp [hkt])
  have hoffers : ((s.stage v).cellKeys.map s.eng).filterMap (xredOffer mode) = (s.stage v).cellKeys.map x := by
    rw [List.filterMap_map]
    have hsome : ∀ k ∈ (s.stage v).cellKeys, (xredOffer mode ∘ s.eng) k = (some ∘ x) k := fun k hk => by
      simp [xredOffer, h k hk]
    rw [List.filterMap_congr hsome, List.filterMap_eq_map]
  unfold releaseBarrier
  simp only [hsync, hend, hhead, hoffers, List.length_map]
  simp [hlive, hks]

end

/-- A cell takes the reduced value and its flags, and goes on (R158). -/
def finishXred (r : W64 × Fl) (e : EngineState) : EngineState :=
  { (e.ws (match e.stat with | .waitXred _ _ d => d | _ => 0) r.1).orV r.2 with stat := .running }

theorem xredFinish_eq (k : Nat) (r : W64 × Fl) (t : State) :
    xredFinish k r t = advance k (t.updEng k (finishXred r)) := by
  rw [← updEng_const t k (finishXred r)]
  unfold xredFinish finishXred
  cases (t.eng k).stat <;> rfl

theorem exec_stageBarrierRelease_eq (v : Fin 16) (s : State) :
    exec (.stageBarrierRelease v) s = .next (releaseBarrier v.val s) := rfl

theorem newRun_eq (v : Nat) (s : State) : newRun v s = startAt v 0 (againState v s) := rfl

/-- Settles O18: the barrier releases SYNC and XRED cell by cell; after END each cell starts as the device sets it. -/
theorem stageBarrier : Obligations.StageBarrier := by
  unfold Obligations.StageBarrier
  intro v s hlive hks ks
  refine ⟨fun h => ?sync, fun mode x d h => ?xred, fun h hnd hcells hg => ?again⟩
  case sync => rw [exec_stageBarrierRelease_eq, releaseBarrier_sync hlive hks h]
  case xred =>
    rw [exec_stageBarrierRelease_eq, releaseBarrier_xred hlive hks h]
    simp only [xredFinish_eq]
    rfl
  case again =>
    let u := againState v.val s
    have hkeys : (u.stage v.val).cellKeys = ks := by
      unfold Stage.cellKeys
      rw [(againState_image v.val s v.val).2]
      rfl
    have hstart : releaseBarrier v.val s = forEach (number 0 ks) (fun x t => t.updEng x.2
        (startCell v.val ks.length (s.stage v.val).image.blockAddr x.1)) u := by
      rw [releaseBarrier_end hlive hks h, newRun_eq, startAt_of_no_groups, hkeys,
        (againState_image v.val s v.val).2]
      · rw [(againState_image v.val s v.val).2, hg]
      · intro k hk
        rw [stageOfCell_congr (againState_image v.val s)]
        exact hcells k (hkeys ▸ hk)
    refine ⟨_, exec_stageBarrierRelease_eq v s, ?_, fun i hi => ?_⟩
    · rw [hstart, forEach_updEng_frame]
      simp only [u, againState]
      rw [updCells_frame]
      rfl
    · rw [hstart, forEach_updEng_of_mem _ _ _ ((map_snd_number ks 0).symm ▸ hnd) (by simpa using mem_number ks 0 i hi)]
      exact startCell_regs _ _ _ _ _

/-! ### The Inflector's own instructions (R167 to R170, R227) -/

/-- An instruction that cells lack issues on an Inflector alone (Table 6.1). -/
theorem infl_of_wordOk {infl : Bool} {len op : Nat} {w : VFields} (hop : ∀ r, rowFor op w.mode.toNat = some r → r.cell = false)
    (h : wordOk infl len op w = true) : infl = true := by
  unfold wordOk at h
  split at h
  · simp at h
  · next r hr =>
    by_contra hi
    rw [Bool.not_eq_true] at hi
    subst hi
    simp [hop r hr] at h

/-- DIGEST issues on an Inflector. -/
theorem isInflector_of_digestFinal {e : Engine} {w : VFields} {s : State} (h : CanIssue e 0x71 { w with mode := 2 } s) :
    isInflector (engKey e) = true := by
  obtain ⟨_, hok⟩ := wordOk_of_canIssue h
  refine infl_of_wordOk (fun r hr => ?_) hok
  have hr' : some { plainRow .U .S .U .U 0 with modes := [0, 1, 2], cell := false, vd := .S } = some r := hr
  rw [← Option.some.inj hr']

section
variable {e : Engine} {w : VFields} {s : State}

theorem exec_digestInit_of_canIssue (h : CanIssue e 0x71 { w with mode := 0 } s) :
    exec (.digestInit e w) s = .next (digestInit (engKey e) { w with mode := 0 } s) :=
  issue_of_canIssue e 0x71 _ _ s h

theorem exec_digestAdd_of_canIssue (h : CanIssue e 0x71 { w with mode := 1 } s) :
    exec (.digestAdd e w) s = .next (digestAdd (engKey e) { w with mode := 1 } s) :=
  issue_of_canIssue e 0x71 _ _ s h

theorem exec_digestFinal_of_canIssue (h : CanIssue e 0x71 { w with mode := 2 } s) :
    exec (.digestFinal e w) s = .next (digestFinal (engKey e) { w with mode := 2 } s) :=
  issue_of_canIssue e 0x71 _ _ s h

theorem exec_commit_of_canIssue (h : CanIssue e 0x72 w s) :
    exec (.commit e w) s = .next (commitOp (engKey e) w s) :=
  issue_of_canIssue e 0x72 _ _ s h

theorem exec_gmax_of_canIssue {v : Nat} (h : CanIssue e 0x70 w s) (hv : s.stageOf (engKey e) = some v) :
    exec (.gmax e w) s = .next (gmaxOp (engKey e) v w s) := by
  have hx : exec (.gmax e w) s = execGmax e w s := rfl
  rw [hx, execGmax, issue_of_canIssue _ _ _ _ _ h, hv]

end

/-! ### DIGEST (R169, R215) -/

theorem digestInit_of_hosts {k : Nat} {w : VFields} {s : State} (hh : s.hostsStage k ((s.eng k).rs w.va.toNat).toNat = true) :
    digestInit k w s = advance k (s.updStage ((s.eng k).rs w.va.toNat).toNat fun g =>
      { g with dig := .opened, digValue := 0, digLen := 0 }) := by
  unfold digestInit
  simp only [hh, Bool.not_true, Bool.false_eq_true, if_false]

theorem digestAdd_of_hosts {k : Nat} {w : VFields} {s : State} (hh : s.hostsStage k ((s.eng k).rs w.vb.toNat).toNat = true)
    (hd : (s.stage ((s.eng k).rs w.vb.toNat).toNat).dig = .opened) :
    digestAdd k w s = advance k (s.updStage ((s.eng k).rs w.vb.toNat).toNat fun g =>
      { g with
        digValue := BitVec.ofNat 128 (pdRange w.imm.toNat g.digValue.toNat (leBytes w.imm.toNat ((s.eng k).rv w.va.toNat)))
        digLen := g.digLen + w.imm.toNat }) := by
  unfold digestAdd
  simp only [hh, hd, Bool.not_true, Bool.false_eq_true, if_false, bne_self_eq_false]

/-- `t` is `s` but for memory and what stage `u` holds beside its digest. -/
def ShardOnly (u : Nat) (s t : State) : Prop :=
  t = { s with mem := t.mem, stages := t.stages } ∧ (t.stage u).dig = (s.stage u).dig ∧
    (t.stage u).digValue = (s.stage u).digValue ∧ ∀ i, i ≠ u → t.stage i = s.stage i

theorem shardOnly_refl (u : Nat) (s : State) : ShardOnly u s s := ⟨rfl, rfl, rfl, fun _ _ => rfl⟩

/-- With no word in error, mending changes nothing. -/
theorem mend_of_no_badWords {s : State} (h : s.badWords = []) (a n : Nat) : s.mend a n = s := by
  unfold State.mend
  rw [h, List.filter_nil, ← h]

theorem badAmong_of_no_badWords {s : State} (h : s.badWords = []) (rs : List (Nat × Nat)) : s.badAmong rs = none := by
  unfold State.badAmong State.badIn
  simp [h]

theorem verifyShard_shardOnly (v r dig : Nat) {s : State} (h : s.badWords = []) : ShardOnly v s (verifyShard v r dig s) := by
  unfold verifyShard
  dsimp only
  split
  · exact shardOnly_refl v s
  · split
    · exact shardOnly_refl v s
    · rw [mend_of_no_badWords (s := s.store _ _) h]
      refine ⟨rfl, ?_, ?_, fun i hi => State.updStage_stage_of_ne _ _ hi⟩
      · rw [State.updStage_stage_self]; rfl
      · rw [State.updStage_stage_self]; rfl

/-- The owner's own shard, counted when FINAL completes, changes memory and its stage alone. -/
theorem verifyOwn_shardOnly (v : Nat) {s : State} (h : s.badWords = []) : ShardOnly v s (verifyOwn v s) := by
  unfold verifyOwn
  dsimp only
  split
  · exact shardOnly_refl v s
  · split
    · exact shardOnly_refl v s
    · rw [badAmong_of_no_badWords h]
      exact verifyShard_shardOnly v _ _ h

theorem inGroup_of_isInflector {s : State} {k : Nat} (h : isInflector k = true) : s.inGroup k = none := by
  unfold State.inGroup
  rw [if_pos h]

/-- An Inflector goes on to the next instruction (R162). -/
theorem advance_of_isInflector {s : State} {k : Nat} (h : isInflector k = true) : advance k s = s.updEng k fun r =>
    { r with pc := (loopNext (s.eng k).pc (s.eng k).loops).1, loops := (loopNext (s.eng k).pc (s.eng k).loops).2 } := by
  have hact : activeLoops k s = (s.eng k).loops := by
    unfold activeLoops
    rw [inGroup_of_isInflector h]
  have hplain : PlainTarget k (loopNext (s.eng k).pc (s.eng k).loops).1 s := by
    unfold PlainTarget
    rw [inGroup_of_isInflector h]
    exact Or.inl h
  have hgo := advance_of_plainTarget (s := s) (k := k) (by rw [hact]) hplain
  simpa [hact] using hgo

/-- The accumulator after DIGEST FINAL of value `d`. -/
def closeDigest (d : Nat) (g : Stage) : Stage := { g with dig := .closed, digValue := BitVec.ofNat 128 d }

/-- The engine after DIGEST FINAL of value `d`. -/
def finalEng (w : VFields) (d : Nat) (r : EngineState) : EngineState :=
  (r.ws w.vd.toNat (BitVec.ofNat 64 d)).ws (w.vd.toNat + 1) (BitVec.ofNat 64 (d / 2 ^ 64))

theorem digestFinal_of_hosts {k u : Nat} {w : VFields} {s : State} (hu : u = ((s.eng k).rs w.va.toNat).toNat)
    (hh : s.hostsStage k u = true) (hd : (s.stage u).dig = .opened) :
    digestFinal k w s = verifyOwn u (advance k ((s.updStage u
        (closeDigest (pdBlock (s.stage u).digValue.toNat (s.stage u).digLen))).updEng k
      (finalEng w (pdBlock (s.stage u).digValue.toNat (s.stage u).digLen)))) := by
  subst hu
  unfold digestFinal
  simp only [hh, hd, Bool.not_true, Bool.false_eq_true, if_false, bne_self_eq_false]
  rfl

theorem finalEng_pc (w : VFields) (d : Nat) (r : EngineState) : (finalEng w d r).pc = r.pc := by
  unfold finalEng EngineState.ws
  split <;> split <;> rfl

theorem finalEng_loops (w : VFields) (d : Nat) (r : EngineState) : (finalEng w d r).loops = r.loops := by
  unfold finalEng EngineState.ws
  split <;> split <;> rfl

/-! ### GMAX (R168) -/

section
variable {k v : Nat} {w : VFields} {s : State}

/-- The values of this GMAX that stage `v` holds. -/
def gmaxHeld (v : Nat) (s : State) : List GmaxValue :=
  (s.stage v).update.gmaxVals.filter fun y =>
    y.update == (s.stage v).update.done + 1 && y.ordinal == (s.stage v).update.gmax

/-- One more GMAX of the update is complete. -/
def nextGmax (g : Stage) : Stage := { g with update := { g.update with gmax := g.update.gmax + 1 } }

theorem gmaxOp_of_alone (hz : s.job.z ≤ 1) :
    gmaxOp k v w s = advance k (s.updEng k fun r => r.ws w.vd.toNat ((s.eng k).rs w.va.toNat)) := if_pos hz

/-- A value of this rank that is held is not sent again. -/
theorem gmaxOp_of_held (hz : 1 < s.job.z) (hown : ∃ y ∈ gmaxHeld v s, y.rank = s.job.rank) : gmaxOp k v w s =
    if (gmaxHeld v s).length < s.job.z then s
    else advance k ((s.updStage v nextGmax).updEng k fun r => r.ws w.vd.toNat (gmaxOf ((gmaxHeld v s).map (·.value)))) := by
  have hheld : ((s.stage v).update.gmaxVals.any fun y => y.update == (s.stage v).update.done + 1 &&
      y.ordinal == (s.stage v).update.gmax && y.rank == s.job.rank) = true := by
    obtain ⟨y, hy, hr⟩ := hown
    obtain ⟨hmem, hy⟩ := List.mem_filter.mp hy
    exact List.any_eq_true.mpr ⟨y, hmem, by rw [hy, hr]; simp⟩
  unfold gmaxOp
  rw [if_neg (Nat.not_le_of_lt hz)]
  simp only [hheld, if_true]
  rfl

end

/-! ### COMMIT (R170, R227) -/

/-- What a COMMIT leaves in its stage: the digest that the flip takes, and where its result goes, if anywhere. -/
def commitStage (vd : Option Nat) (g : Stage) : Stage :=
  { g with dig := .idle, commitDig := g.digValue, committing := some vd }

theorem updEng_congr {s : State} {k : Nat} {f f' : EngineState → EngineState} (h : f (s.eng k) = f' (s.eng k)) :
    s.updEng k f = s.updEng k f' := by
  rw [← updEng_const s k f, ← updEng_const s k f', h]

/-- An engine that a COMMIT of stage `u` holds. -/
def heldEng (u vd : Nat) (r : EngineState) : EngineState :=
  { r with committed := r.committed || r.ruleStage == some u, stat := .commit u vd }

/-- An engine after a detached COMMIT of stage `u`, with its result. -/
def detachedEng (u vd : Nat) (x : W64) (r : EngineState) : EngineState :=
  { r with committed := r.committed || r.ruleStage == some u }.ws vd x

section
variable {k u : Nat} {w : VFields} {s : State} (hu : u = ((s.eng k).rs w.va.toNat).toNat)
include hu

theorem commitOp_of_not_hosts (hh : s.hostsStage k u = false) : commitOp k w s = vecFault k 7 s := by
  subst hu
  unfold commitOp
  simp only [hh, Bool.not_false, if_true]

theorem commitOp_of_not_closed (hh : s.hostsStage k u = true) (hd : (s.stage u).dig ≠ .closed) :
    commitOp k w s = vecFault k 6 s := by
  subst hu
  unfold commitOp
  simp [hh, hd]

theorem commitOp_of_outstanding (hh : s.hostsStage k u = true) (hd : (s.stage u).dig = .closed)
    (ht : (s.eng k).tags ≠ []) : commitOp k w s = s := by
  subst hu
  unfold commitOp
  simp [hh, hd, ht]

/-- A COMMIT that END does not follow holds the engine. -/
theorem commitOp_of_held (hh : s.hostsStage k u = true) (hd : (s.stage u).dig = .closed) (ht : (s.eng k).tags = [])
    (he : s.endsNext k = false) : commitOp k w s =
      (s.updStage u (commitStage (some w.vd.toNat))).updEng k (heldEng u w.vd.toNat) := by
  subst hu
  unfold commitOp
  simp only [hh, hd, ht, he, List.isEmpty_nil, Bool.not_true, Bool.false_eq_true, if_false, bne_self_eq_false]
  rw [updEng_updEng]
  exact updEng_congr (s := s.updStage _ _) rfl

/-- A detached COMMIT goes on with bit 62 set beside the present COMMIT. -/
theorem commitOp_of_detached (hh : s.hostsStage k u = true) (hd : (s.stage u).dig = .closed) (ht : (s.eng k).tags = [])
    (he : s.endsNext k = true) : commitOp k w s = advance k ((s.updStage u (commitStage none)).updEng k
      (detachedEng u w.vd.toNat (BitVec.ofNat 64 ((s.stage u).presentCommit + 2 ^ 62)))) := by
  subst hu
  unfold commitOp
  simp only [hh, hd, ht, he, List.isEmpty_nil, Bool.not_true, Bool.false_eq_true, if_false, if_true, bne_self_eq_false,
    updEng_updEng, State.updEng_stage, State.updStage_stage_self]
  exact congrArg (advance k) (updEng_congr (s := s.updStage _ _) rfl)

end

/-- Settles O15: each operation, where its conditions hold, is one change of the stage's accumulator and one of the
engine; after FINAL the owner's shard is counted. -/
theorem digestMaximumAndCommit : Obligations.DigestMaximumAndCommit := by
  unfold Obligations.DigestMaximumAndCommit
  refine ⟨fun e w s => ⟨fun u hu h hh => ?init, fun u hu h hh hd => ?add, fun u hu h hh hd hbad => ?final,
    fun v h hv => ⟨fun hz => ?alone, fun hz hown hlt => ?waits, fun hz hown hle => ?all⟩⟩, fun e w s h => ?commit⟩
  case init =>
    subst hu
    exact ⟨_, (exec_digestInit_of_canIssue h).trans (congrArg _ (digestInit_of_hosts hh)), updStage_onlyStage _ _ _⟩
  case add =>
    subst hu
    exact ⟨_, (exec_digestAdd_of_canIssue h).trans (congrArg _ (digestAdd_of_hosts hh hd)), updStage_onlyStage _ _ _⟩
  case final =>
    intro d
    have hi := isInflector_of_digestFinal h
    let s1 := (s.updStage u (closeDigest d)).updEng (engKey e) (finalEng w d)
    have hgo := advance_of_isInflector (s := s1) hi
    have hfinal : digestFinal (engKey e) { w with mode := 2 } s = verifyOwn u (advance (engKey e) s1) :=
      digestFinal_of_hosts hu hh hd
    have hstage : ∀ i, (advance (engKey e) s1).stage i = if i = u then closeDigest d (s.stage u) else s.stage i := by
      intro i
      rw [hgo]
      exact State.updStage_stage s u i (closeDigest d)
    have hbad1 : (advance (engKey e) s1).badWords = [] := by rw [hgo]; exact hbad
    obtain ⟨hframe, hdig, hval, hother⟩ := verifyOwn_shardOnly u hbad1
    have heng : (verifyOwn u (advance (engKey e) s1)).eng (engKey e) = (advance (engKey e) s1).eng (engKey e) := by
      rw [hframe]; rfl
    refine ⟨_, exec_digestFinal_of_canIssue h, ?_⟩
    rw [hfinal]
    refine ⟨?_, ?_, ?_, ?_, ?_, fun i hne => ?_⟩
    · rw [hframe, hgo]
      rfl
    · rw [hdig, hstage, if_pos rfl, closeDigest]
    · rw [hval, hstage, if_pos rfl, closeDigest]
    · rw [heng, hgo, State.updEng_eng_self, State.updEng_eng_self, finalEng_pc, finalEng_loops]
      rfl
    · rw [heng, hgo, State.updEng_eng_self, State.updEng_eng_self]
      rfl
    · rw [hother i hne, hstage, if_neg hne]
  case alone => exact (exec_gmax_of_canIssue h hv).trans (congrArg _ (gmaxOp_of_alone hz))
  case waits =>
    change (gmaxHeld v s).length < s.job.z at hlt
    rw [exec_gmax_of_canIssue h hv, gmaxOp_of_held hz hown, if_pos hlt]
  case all =>
    change s.job.z ≤ (gmaxHeld v s).length at hle
    have hmax := gmaxOp_of_held (k := engKey e) (w := w) hz hown
    rw [if_neg (Nat.not_lt_of_le hle), gmaxOf, List.map_map] at hmax
    exact ⟨_, s.updStage v nextGmax, (exec_gmax_of_canIssue h hv).trans (congrArg _ hmax), updStage_onlyStage s v nextGmax,
      updEng_onlyEng (s.updStage v nextGmax) (engKey e) _⟩
  case commit =>
    intro k r u
    rw [exec_commit_of_canIssue h]
    refine ⟨fun hh => ?_, fun hh hd => ?_, fun hh hd ht => ?_, fun hh hd ht he => ?_, fun hh hd ht he => ?_⟩
    · rw [commitOp_of_not_hosts rfl hh]
    · rw [commitOp_of_not_closed rfl hh hd]
    · rw [commitOp_of_outstanding rfl hh hd ht]
    · exact ⟨_, s.updStage u (commitStage (some w.vd.toNat)), congrArg _ (commitOp_of_held rfl hh hd ht he),
        updStage_onlyStage s u (commitStage _), updEng_onlyEng (s.updStage u (commitStage _)) k (heldEng u _)⟩
    · exact ⟨_, s.updStage u (commitStage none), congrArg _ (commitOp_of_detached rfl hh hd ht he),
        updStage_onlyStage s u (commitStage none), updEng_onlyEng (s.updStage u (commitStage none)) k (detachedEng u _ _)⟩

/-! ### Frames of a COLLECTIVE port (O29): a frame that passes the checks -/

/-- A step of the link layer: of a port's state only what the link keeps changes, and of no field that a check reads but
the acknowledged frames, SEQ and the counters. -/
def LinkStep (s t : State) : Prop :=
  t = { s with ports := t.ports } ∧ ∀ i, (t.port i).state = (s.port i).state ∧ (t.port i).role = (s.port i).role

theorem linkStep_refl (s : State) : LinkStep s s := ⟨rfl, fun _ => ⟨rfl, rfl⟩⟩

theorem linkStep_trans {s t u : State} (h : LinkStep s t) (h' : LinkStep t u) : LinkStep s u := by
  refine ⟨?_, fun i => ⟨(h'.2 i).1.trans (h.2 i).1, (h'.2 i).2.trans (h.2 i).2⟩⟩
  rw [h'.1, h.1]

theorem updPort_linkStep (s : State) (p : Nat) {F : Port → Port} (hs : ∀ q, (F q).state = q.state)
    (hr : ∀ q, (F q).role = q.role) : LinkStep s (s.updPort p F) := by
  refine ⟨rfl, fun i => ?_⟩
  rw [State.updPort_port]
  split
  · next h => subst h; exact ⟨hs _, hr _⟩
  · exact ⟨rfl, rfl⟩

theorem takeAck_linkStep (p ack : Nat) (s : State) : LinkStep s (takeAck p ack s) := by
  unfold takeAck
  split
  · exact updPort_linkStep s p (fun _ => rfl) fun _ => rfl
  · exact linkStep_refl s

theorem takeAck_expected (p ack : Nat) (s : State) : ((takeAck p ack s).port p).expected = (s.port p).expected := by
  unfold takeAck
  split
  · rw [State.updPort_port_self]; rfl
  · rfl

theorem acceptSeq_linkStep (p : Nat) (h : BitVec 256) (s : State) : LinkStep s (acceptSeq p h s) :=
  updPort_linkStep s p (fun _ => rfl) fun _ => rfl

theorem acceptIf_linkStep (b : Bool) (p : Nat) (h : BitVec 256) (s : State) :
    LinkStep s (if b then acceptSeq p h s else s) := by
  split
  · exact acceptSeq_linkStep p h s
  · exact linkStep_refl s

theorem countIf_linkStep (b : Bool) (p : Nat) (s : State) :
    LinkStep s (if b then s.updPort p fun q => q.count 1 1 else s) := by
  split
  · exact updPort_linkStep s p (fun _ => rfl) fun _ => rfl
  · exact linkStep_refl s

/-- What accepting a frame does is a step of the link layer. -/
theorem linkIn_linkStep (p : Nat) (f : Frame) (s : State) : LinkStep s (linkIn p f s) :=
  linkStep_trans (linkStep_trans (takeAck_linkStep p (hAck f.header) s)
    (acceptIf_linkStep (sequenced (hType f.header)) p f.header _)) (countIf_linkStep _ p _)

theorem portJob_of_linkStep {s t : State} (h : LinkStep s t) (p : Nat) : t.portJob p = s.portJob p := by
  have hj : t.job = s.job := by rw [h.1]
  unfold State.portJob
  rw [(h.2 p).2, hj]

/-- A frame that Table 13.5a admits reaches its row, in the state that the link layer leaves. -/
theorem receive_of_frameOk {p : Nat} {f : Frame} {s : State} (h : FrameOk p f s) (go : State → State) :
    receive p f go s = ackDue p (go (linkIn p f s)) := by
  obtain ⟨hup, hcrc, hseq, hjob, hproto⟩ := h
  have hord : (sequenced (hType f.header) && hSeq f.header != ((takeAck p (hAck f.header) s).port p).expected) = false := by
    cases hq : sequenced (hType f.header)
    · rfl
    · simp [takeAck_expected, hseq hq]
  have hstep := linkStep_trans (takeAck_linkStep p (hAck f.header) s)
    (acceptIf_linkStep (sequenced (hType f.header)) p f.header (takeAck p (hAck f.header) s))
  unfold receive linkIn
  simp only [hup, hcrc, hord, portJob_of_linkStep hstep, (hstep.2 p).2, hjob, hproto, ne_eq, not_true, if_false,
    Bool.false_eq_true]

section
variable (p : Nat) (f : Frame) (s : State)

@[simp] theorem linkIn_stages : (linkIn p f s).stages = s.stages := by rw [(linkIn_linkStep p f s).1]
@[simp] theorem linkIn_stage (v : Nat) : (linkIn p f s).stage v = s.stage v := by rw [(linkIn_linkStep p f s).1]; rfl
@[simp] theorem linkIn_job : (linkIn p f s).job = s.job := by rw [(linkIn_linkStep p f s).1]
@[simp] theorem linkIn_mem : (linkIn p f s).mem = s.mem := by rw [(linkIn_linkStep p f s).1]
@[simp] theorem linkIn_chip : (linkIn p f s).chip = s.chip := by rw [(linkIn_linkStep p f s).1]
@[simp] theorem linkIn_evSeq : (linkIn p f s).evSeq = s.evSeq := by rw [(linkIn_linkStep p f s).1]
@[simp] theorem linkIn_role (i : Nat) : ((linkIn p f s).port i).role = (s.port i).role := ((linkIn_linkStep p f s).2 i).2
@[simp] theorem linkIn_findStage (n : Nat) : (linkIn p f s).findStage n = s.findStage n := by
  rw [(linkIn_linkStep p f s).1]; rfl
@[simp] theorem linkIn_badAmong (rs : List (Nat × Nat)) : (linkIn p f s).badAmong rs = s.badAmong rs := by
  rw [(linkIn_linkStep p f s).1]; rfl
@[simp] theorem linkIn_materialise (g : Stage) (x : TenseSlot) : (linkIn p f s).materialise g x = s.materialise g x := by
  rw [(linkIn_linkStep p f s).1]; rfl

end

/-! ### The rows of a COLLECTIVE port -/

/-- What a row does with a frame for this module whose stage it has. -/
theorem collective_here {p : Nat} {f : Frame} {s : State} (hme : hDst f.header = s.job.rank) (go : State → State) :
    collective p f go (linkIn p f s) = go (linkIn p f s) := by
  simp [collective, State.forMe, hme]

theorem collective_elsewhere {p : Nat} {f : Frame} {s : State} (hme : hDst f.header ≠ s.job.rank) (go : State → State) :
    collective p f go (linkIn p f s) = forwardFrame p f (linkIn p f s) := by
  simp [collective, State.forMe, hme]

/-- The frame types of a COLLECTIVE port and their rows, as the statement pairs them. -/
def CollRow (p : Fin 8) (f : Frame) (i : Instr) : Prop :=
  hType f.header = 1 ∧ i = .dataFrame p f ∨ hType f.header = 6 ∧ i = .tenseReqFrame p f ∨
    hType f.header = 7 ∧ i = .tenseDataFrame p f ∨ hType f.header = 8 ∧ i = .voteFrame p f ∨
    hType f.header = 9 ∧ i = .digestFrame p f

/-- What the row of a frame's type does with it at stage `v` of this module. -/
def collGo (f : Frame) (v : Nat) (s : State) : State :=
  if hType f.header = 6 then tenseReq v f.header s
  else if hType f.header = 7 then tenseFrame v f s
  else if hType f.header = 9 then addRecord v (recordOf f.payload) s
  else if hType f.header = 8 ∧ hSub f.header = 1 then gmaxFrame v f s
  else contribFrame v f s

/-- What the row of a frame's type does with it at its stage, or nothing where the module has no such stage. -/
def collHere (f : Frame) (s : State) : State :=
  match s.findStage (hStage f.header) with
  | some v => collGo f v s
  | none => s

section
variable {p : Fin 8} {f : Frame} {s : State} {i : Instr}

/-- Every row of a COLLECTIVE port consumes its frame here or passes it on. -/
theorem exec_of_collRow (h : FrameOk p.val f s) (hrole : (s.port p.val).role = 3) (hi : CollRow p f i) :
    exec i s = .next (ackDue p.val (collective p.val f (collHere f) (linkIn p.val f s))) := by
  have hrole' : ((linkIn p.val f s).port p.val).role = roleColl := by rw [linkIn_role, hrole]; rfl
  rcases hi with ⟨ht, rfl⟩ | ⟨ht, rfl⟩ | ⟨ht, rfl⟩ | ⟨ht, rfl⟩ | ⟨ht, rfl⟩
  · have hgo : collGo f = fun v s => contribFrame v f s := by
      funext v s; simp [collGo, ht]
    change execDataFrame p f s = _
    simp only [execDataFrame, ofType, ht, receive_of_frameOk h, hrole']
    unfold collHere
    rw [hgo]
    rfl
  · have hgo : collGo f = fun v s => tenseReq v f.header s := by
      funext v s; simp [collGo, ht]
    change execTenseReqFrame p f s = _
    simp only [execTenseReqFrame, ofType, ht, receive_of_frameOk h]
    unfold collHere
    rw [hgo]
    rfl
  · have hgo : collGo f = fun v s => tenseFrame v f s := by
      funext v s; simp [collGo, ht]
    change execTenseDataFrame p f s = _
    simp only [execTenseDataFrame, ofType, ht, receive_of_frameOk h]
    unfold collHere
    rw [hgo]
    rfl
  · have hgo : collGo f = fun v s => if hSub f.header = 1 then gmaxFrame v f s else contribFrame v f s := by
      funext v s; simp [collGo, ht]
    change execVoteFrame p f s = _
    simp only [execVoteFrame, ofType, ht, receive_of_frameOk h]
    unfold collHere
    rw [hgo]
    rfl
  · have hgo : collGo f = fun v s => addRecord v (recordOf f.payload) s := by
      funext v s; simp [collGo, ht]
    change execDigestFrame p f s = _
    simp only [execDigestFrame, ofType, ht, receive_of_frameOk h]
    unfold collHere
    rw [hgo]
    rfl

/-- A frame for stage `v` of this module. -/
theorem exec_of_collRow_here {v : Nat} (h : FrameOk p.val f s) (hrole : (s.port p.val).role = 3) (hi : CollRow p f i)
    (hme : hDst f.header = s.job.rank) (hv : s.findStage (hStage f.header) = some v) :
    exec i s = .next (ackDue p.val (collGo f v (linkIn p.val f s))) := by
  rw [exec_of_collRow h hrole hi, collective_here hme, collHere, linkIn_findStage, hv]

/-- A frame for another module. -/
theorem exec_of_collRow_elsewhere (h : FrameOk p.val f s) (hrole : (s.port p.val).role = 3) (hi : CollRow p f i)
    (hme : hDst f.header ≠ s.job.rank) : exec i s = .next (ackDue p.val (forwardFrame p.val f (linkIn p.val f s))) := by
  rw [exec_of_collRow h hrole hi, collective_elsewhere hme]

end

/-! ### Queued messages (R352) -/

/-- `t` differs from `s` only in what is queued: the ports and the transit area. -/
def QueueOnly (s t : State) : Prop := t = { s with ports := t.ports, transit := t.transit }

/-- The messages that wait, in the transit area and on the ports. -/
def queued (s : State) : List OutMsg := s.transit ++ (List.range 8).flatMap fun i => (s.port i).out

theorem updPort_queueOnly (s : State) (p : Nat) (F : Port → Port) : QueueOnly s (s.updPort p F) := rfl

theorem queueOn_queueOnly (p : Nat) (m : OutMsg) (s : State) : QueueOnly s (queueOn p m s) := rfl

theorem mem_queued_queueOn {p : Nat} (hp : p < 8) (m : OutMsg) (s : State) : m ∈ queued (queueOn p m s) := by
  refine List.mem_append_right _ (List.mem_flatMap.mpr ⟨p, List.mem_range.mpr hp, ?_⟩)
  rw [queueOn, State.updPort_port_self]
  exact List.mem_append_right _ (List.mem_singleton_self m)

/-- Every port that the ring search picks is one of those that it searches. -/
theorem mem_of_foldl_nearest {dist : Nat → Nat} {n : Nat} (ps : List Nat) : ∀ b : Option Nat,
    ps.foldl (fun b p => match b with
      | none => some p
      | some q => if dist p < dist q then some p else some q) b = some n → n ∈ ps ∨ b = some n := by
  induction ps with
  | nil => intro b h; exact Or.inr h
  | cons x xs ih =>
    intro b h
    rcases ih _ h with hm | hb
    · exact Or.inl (List.mem_cons_of_mem x hm)
    · cases b with
      | none => exact Or.inl (by simp_all)
      | some q =>
        by_cases hd : dist x < dist q
        · exact Or.inl (by simp_all)
        · exact Or.inr (by simpa [hd] using hb)

/-- The port toward a rank is one of the module's eight. -/
theorem lt_of_collPort {s : State} {d n : Nat} (h : s.collPort d = some n) : n < 8 := by
  unfold State.collPort at h
  split at h
  · dsimp only at h
    split at h
    · cases h; assumption
    · cases h
  · dsimp only at h
    split at h
    · cases h
    · next q hq =>
      have hm := (mem_of_foldl_nearest _ none hq).resolve_right (by simp)
      split at h
      · cases h
        simp only [State.rolePorts, List.mem_filter, List.mem_range] at hm
        exact hm.1.1
      · cases h

/-- A message that is no Clause waits, and nothing but the queues changes. -/
theorem queueColl_queues {m : OutMsg} (hm : m.clause = none) (s : State) :
    QueueOnly s (queueColl m s) ∧ m ∈ queued (queueColl m s) := by
  have hport : s.msgPort m = s.collPort m.dstRank := by simp [State.msgPort, hm]
  unfold queueColl
  rw [hport]
  cases hc : s.collPort m.dstRank with
  | none => exact ⟨rfl, List.mem_append_left _ (List.mem_append_right _ (List.mem_singleton_self m))⟩
  | some n => exact ⟨queueOn_queueOnly n m s, mem_queued_queueOn (lt_of_collPort hc) m s⟩

theorem queueOnly_trans {s t u : State} (h : QueueOnly s t) (h' : QueueOnly t u) : QueueOnly s u := by
  unfold QueueOnly at *
  rw [h', h]

theorem shardMessage_clause (v stage commit r rank : Nat) (bs : List Byte) (dig : Nat) :
    (shardMessage v stage commit r rank bs dig).clause = none := rfl

/-- A frame passed on keeps its header and its contents (R352). -/
theorem forwardFrame_queues (p : Nat) (f : Frame) (s : State) (ht : hType f.header ≠ 10) :
    QueueOnly s (forwardFrame p f s) ∧
      ∃ m ∈ queued (forwardFrame p f s), m.forward = some f.header ∧ m.data = Frame.meaning f := by
  unfold forwardFrame
  dsimp only
  rw [if_neg ht]
  obtain ⟨hq, hm⟩ := queueColl_queues (m := { msgOf 16 (hType f.header) 0 (hStage f.header) (hTag f.header) (hDst f.header) 5
    with forward := some f.header, data := Frame.meaning f, len := 16 * hPlen f.header }) rfl
    (s.updPort p fun q => q.count 11 1)
  exact ⟨queueOnly_trans (updPort_queueOnly s p _) hq, _, hm, rfl, rfl⟩

/-! ### What each row does at its stage (R168, R214, R233) -/

/-- Keep a GMAX value. -/
def keepGmax (y : GmaxValue) (g : Stage) : Stage :=
  { g with update := { g.update with gmaxVals := g.update.gmaxVals ++ [y] } }

theorem gmaxFrame_keeps {v : Nat} {f : Frame} {s : State}
    (hb : below ((s.stage v).update.done % 2 ^ 32) (hTag f.header) = true)
    (hn : ∀ y ∈ (s.stage v).update.gmaxVals,
      ¬ (y.update = hTag f.header ∧ y.ordinal = hOffset f.header ∧ y.rank = hSrc f.header)) :
    OnlyStage v (keepGmax ⟨hTag f.header, hOffset f.header, hSrc f.header, BitVec.ofNat 64 (leNat (f.payload.take 8))⟩
      (s.stage v)) s (gmaxFrame v f s) := by
  have hany : ((s.stage v).update.gmaxVals.any fun x =>
      x.update == hTag f.header && x.ordinal == hOffset f.header && x.rank == hSrc f.header) = false :=
    List.any_eq_false.mpr fun x hx => by simpa [and_assoc] using hn x hx
  refine ⟨rfl, ?_, fun _ hu => State.updStage_stage_of_ne s _ hu⟩
  rw [gmaxFrame, State.updStage_stage_self]
  simp only [hany, hb, Bool.not_true, Bool.false_eq_true, if_false]
  rfl

/-- Keep the first piece of a contribution. -/
def keepContribution (f : Frame) (g : Stage) : Stage :=
  { g with update := { g.update with
      contributions := g.update.contributions ++ [⟨hTag f.header, hSrc f.header, false, Frame.meaning f, false⟩] } }

theorem contribFrame_keeps {v : Nat} {f : Frame} {s : State} (ho : hOffset f.header = 0) (hl : hLast f.header = false)
    (hb : below ((s.stage v).update.reductions % 2 ^ 32) (hTag f.header) = true)
    (hn : ∀ c ∈ (s.stage v).update.contributions, ¬ (c.update = hTag f.header ∧ c.rank = hSrc f.header)) :
    OnlyStage v (keepContribution f (s.stage v)) s (contribFrame v f s) := by
  have hnone : ((s.stage v).update.contributions.find? fun c => c.update == hTag f.header && c.rank == hSrc f.header) = none :=
    List.find?_eq_none.mpr fun c hc => by simpa using hn c hc
  have hall : ((s.stage v).update.contributions.filter fun c => !(c.update == hTag f.header && c.rank == hSrc f.header)) =
      (s.stage v).update.contributions :=
    List.filter_eq_self.mpr fun c hc => by simpa [← not_and_or] using hn c hc
  unfold contribFrame
  simp only [hnone, Option.getD_none, ho, hb, hl, if_true, List.length_nil, Nat.mul_zero, Bool.not_true, Bool.or_self,
    ne_eq, not_true, decide_false, Bool.false_eq_true, if_false, List.nil_append]
  refine ⟨rfl, ?_, fun _ hu => State.updStage_stage_of_ne s _ hu⟩
  rw [State.updStage_stage_self, hall]
  rfl

/-- Keep the first piece of a Tense shard. -/
def keepShard (f : Frame) (g : Stage) : Stage :=
  { g with update := { g.update with
      gather := (g.update.gather.filter fun x => x.2.1 != hSub f.header) ++
        [(hTag f.header, hSub f.header, Frame.meaning f)] } }

theorem tenseFrame_keeps {v : Nat} {f : Frame} {s : State} (ho : hOffset f.header = 0) (hl : hLast f.header = false)
    (hx : ∃ x ∈ (s.stage v).tenses, x.state = 1 ∧ x.commit = hTag f.header)
    (hv : (s.stage v).update.verified.contains (hSub f.header) = false) :
    OnlyStage v (keepShard f (s.stage v)) s (tenseFrame v f s) := by
  have hsome : ((s.stage v).tenses.find? fun t => t.state == 1 && t.commit == hTag f.header).isSome = true := by
    rw [List.find?_isSome]
    obtain ⟨x, hx, hst, hc⟩ := hx
    exact ⟨x, hx, by simp [hst, hc]⟩
  obtain ⟨x, hx⟩ := Option.isSome_iff_exists.mp hsome
  unfold tenseFrame
  simp only [hx, ho, hl, hv, if_true, List.length_nil, Nat.mul_zero, ne_eq, not_true, decide_false, Bool.or_self,
    Bool.false_eq_true, if_false, List.nil_append]
  exact updStage_onlyStage s v (keepShard f)

/-- A request for a shard that no slot holds halts the owner (R214). -/
theorem agreementFault_halts {v : Nat} {s : State} (reason commit shard : Nat) (hl : (s.stage v).loaded = true)
    (h0 : (s.stage v).haltCode = 0) :
    HaltOnly s (agreementFault v reason commit shard s) ∧
      ((agreementFault v reason commit shard s).stage v).haltCode = 0x0303 := by
  have hr := raise_eventOnly 0x0303 (tenseUnit (s.stage v).image.die) 0
    [(1, reason), (2, (s.stage v).image.stage), (4, commit), (1, shard)] s
  refine ⟨haltOnly_trans (haltOnly_of_eventOnly hr) (haltStage_haltOnly v 0x0303 true _), ?_⟩
  exact (haltStage_stage 0x0303 true (by rw [eventOnly_stage hr]; exact hl) (by rw [eventOnly_stage hr]; exact h0)).1

theorem tenseReq_of_none {v : Nat} {h : BitVec 256} {s : State}
    (hn : ∀ x ∈ (s.stage v).tenses, 1 ≤ x.state → x.state ≤ 5 → x.commit ≠ hTag h) :
    tenseReq v h s = agreementFault v 2 (hTag h) (hSub h) s := by
  have hnone : ((s.stage v).tenses.find? fun t => decide (1 ≤ t.state ∧ t.state ≤ 5) && t.commit == hTag h) = none :=
    List.find?_eq_none.mpr fun x hx => by
      simp only [Bool.and_eq_true, decide_eq_true_eq, beq_iff_eq, not_and]
      exact fun hst => hn x hx hst.1 hst.2
  unfold tenseReq
  simp only [hnone]

theorem tenseReq_of_some {v : Nat} {h : BitVec 256} {s : State} {x : TenseSlot}
    (hx : ((s.stage v).tenses.find? fun t => decide (1 ≤ t.state ∧ t.state ≤ 5) && t.commit == hTag h) = some x)
    (hb : s.badAmong ((s.stage v).sourceRanges x) = none) :
    tenseReq v h s = queueColl (shardMessage v (s.stage v).image.stage (hTag h) (hSub h) (hSrc h)
      (shardBytes ((s.stage v).shardRanges s.job.z (hSub h)) (s.materialise (s.stage v) x))
      (shardDigest (shardBytes ((s.stage v).shardRanges s.job.z (hSub h)) (s.materialise (s.stage v) x)))) s := by
  unfold tenseReq
  simp only [hx, hb]

/-! ### The event of a mismatch (R260) -/

theorem sendMsix_evSeq (v : Nat) (s : State) : (sendMsix v s).evSeq = s.evSeq := by
  unfold sendMsix; repeat' split
  all_goals rfl

theorem signalMailbox_evSeq (m : Nat) (s : State) : (signalMailbox m s).evSeq = s.evSeq := by
  unfold signalMailbox; dsimp only; split
  · split
    · exact sendMsix_evSeq _ s
    · rfl
  · rfl

theorem hostEvent_evSeq (code unit cls seq : Nat) (bs : List Byte) (s : State) :
    (hostEvent code unit cls seq bs s).evSeq = s.evSeq := by
  unfold hostEvent; dsimp only
  by_cases h : ((s.mailbox 0).enabled && decide ((s.mailbox 0).room ≥ if decide (bs.length > 32) then 3 else 2)) = true
  · rw [if_pos h, signalMailbox_evSeq]
    split <;> rfl
  · rw [if_neg h]

/-- An event that goes to no guest takes the next number of its source (R271). -/
theorem raise_evSeq {code unit cls : Nat} (items : List (Nat × Nat)) {s : State} (hheld : s.chip.parserHeld = false)
    (hguest : code < 0x0506) :
    sget 0 (raise code unit cls items s).evSeq (unit * 16 + cls) = sget 0 s.evSeq (unit * 16 + cls) + 1 := by
  have hg : ∀ (seq : Nat) (bs : List Byte) (t : State), guestEvent code unit cls seq bs t = t := fun seq bs t => by
    unfold guestEvent
    simp only [show code ≠ 0x0506 by omega, show ¬ (0x0701 ≤ code ∧ code ≤ 0x0704) by omega, if_false]
  simp only [raise, hheld, Bool.false_eq_true, if_false, hg, hostEvent_evSeq, State.updMgmt_evSeq, sget_supd, if_true]

theorem checkResponse_stages (log : Bool) (s : State) : (checkResponse log s).stages = s.stages := by
  unfold checkResponse; split <;> rfl

theorem checkResponse_mem (log : Bool) (s : State) : (checkResponse log s).mem = s.mem := by
  unfold checkResponse; split <;> rfl

theorem checkResponse_evSeq (log : Bool) (s : State) : (checkResponse log s).evSeq = s.evSeq := by
  unfold checkResponse; split <;> rfl

/-- A record of another interval raises EV_AGREEMENT_MISMATCH and is not kept (R260). -/
theorem addRecord_of_other_interval {v : Nat} {r : AgreeRecord} {s : State} (hd : r.d ≠ s.job.agreeD) :
    (addRecord v r s).stages = s.stages ∧ (addRecord v r s).mem = s.mem ∧
      (s.chip.parserHeld = false → sget 0 (addRecord v r s).evSeq (tenseUnit (s.stage v).image.die * 16) =
        sget 0 s.evSeq (tenseUnit (s.stage v).image.die * 16) + 1) := by
  let x := raise 0x0302 (tenseUnit (s.stage v).image.die) 0
    [(1, 2), (2, (s.stage v).image.stage), (4, r.commit), (1, 0), (4, 2 ^ r.rank)] s
  have hr : EventOnly s x := raise_eventOnly _ _ _ _ s
  have hx : addRecord v r s = checkResponse x.job.agreeLog x := by
    simp [addRecord, hd, agreeMismatch, x]
  rw [hx, checkResponse_stages, checkResponse_mem, checkResponse_evSeq]
  refine ⟨by rw [hr], by rw [hr], fun hheld => ?_⟩
  have hseq := raise_evSeq (code := 0x0302) (unit := tenseUnit (s.stage v).image.die) (cls := 0)
    [(1, 2), (2, (s.stage v).image.stage), (4, r.commit), (1, 0), (4, 2 ^ r.rank)] hheld (by decide)
  simpa only [Nat.add_zero] using hseq

/-! ### The statement -/

/-- Settles O29: each row reaches its stage by `exec_of_collRow_here`, and what it does there is the lemma on its type; a
frame for another module is passed on by `forwardFrame_queues`. -/
theorem collectiveFrames : Obligations.CollectiveFrames := by
  unfold Obligations.CollectiveFrames
  intro p f s v hok hrole h s1 g
  have hstage : s1.stage v = g := linkIn_stage p.val f s v
  refine ⟨fun hme hv => ?_, fun i hme hi => ?_⟩
  · have hgo : ∀ {i : Instr}, CollRow p f i → exec i s = .next (ackDue p.val (collGo f v s1)) := fun hi =>
      exec_of_collRow_here hok hrole hi hme hv
    refine ⟨fun ht hsub hb hn => ?gmax, fun i hi ho hl hb hn => ?contribution, fun ht ho hl hx hver => ?shard,
      fun ht hl h0 hn => ?fault, fun x ht hx hbad => ?request, fun ht hd => ?digest⟩
    case gmax =>
      have hrow : CollRow p f (.voteFrame p f) := Or.inr (Or.inr (Or.inr (Or.inl ⟨ht, rfl⟩)))
      have hc : collGo f v s1 = gmaxFrame v f s1 := by
        simp only [collGo, show hType f.header = 8 from ht, show hSub f.header = 1 from hsub]; rfl
      rw [← hstage] at hb hn
      exact ⟨_, by rw [hgo hrow, hc], hstage ▸ gmaxFrame_keeps hb hn⟩
    case contribution =>
      rw [← hstage] at hb hn
      have hrow : CollRow p f i ∧ collGo f v s1 = contribFrame v f s1 := by
        rcases hi with ⟨ht, hsub, rfl⟩ | ⟨ht, rfl⟩
        · refine ⟨Or.inr (Or.inr (Or.inr (Or.inl ⟨ht, rfl⟩))), ?_⟩
          simp only [collGo, show hType f.header = 8 from ht, show hSub f.header ≠ 1 from hsub]; rfl
        · refine ⟨Or.inl ⟨ht, rfl⟩, ?_⟩
          simp only [collGo, show hType f.header = 1 from ht]; rfl
      exact ⟨_, by rw [hgo hrow.1, hrow.2], hstage ▸ contribFrame_keeps ho hl hb hn⟩
    case shard =>
      have hrow : CollRow p f (.tenseDataFrame p f) := Or.inr (Or.inr (Or.inl ⟨ht, rfl⟩))
      have hc : collGo f v s1 = tenseFrame v f s1 := by
        simp only [collGo, show hType f.header = 7 from ht]; rfl
      rw [← hstage] at hx hver
      exact ⟨_, by rw [hgo hrow, hc], hstage ▸ tenseFrame_keeps ho hl hx hver⟩
    case fault =>
      have hrow : CollRow p f (.tenseReqFrame p f) := Or.inr (Or.inl ⟨ht, rfl⟩)
      have hc : collGo f v s1 = tenseReq v f.header s1 := by
        simp only [collGo, show hType f.header = 6 from ht]; rfl
      rw [← hstage] at hl h0 hn
      refine ⟨_, by rw [hgo hrow, hc, tenseReq_of_none hn], agreementFault_halts 2 _ _ hl h0⟩
    case request =>
      have hrow : CollRow p f (.tenseReqFrame p f) := Or.inr (Or.inl ⟨ht, rfl⟩)
      have hc : collGo f v s1 = tenseReq v f.header s1 := by
        simp only [collGo, show hType f.header = 6 from ht]; rfl
      have hx1 : ((s1.stage v).tenses.find? fun t => decide (1 ≤ t.state ∧ t.state ≤ 5) && t.commit == hTag f.header) =
        some x := by rw [hstage]; exact hx
      have hbad1 : s1.badAmong ((s1.stage v).sourceRanges x) = none := by
        rw [hstage, linkIn_badAmong]; exact hbad
      have hreq := tenseReq_of_some hx1 hbad1
      rw [hstage, linkIn_job, linkIn_materialise] at hreq
      refine ⟨_, by rw [hgo hrow, hc, hreq], ?_⟩
      exact queueColl_queues (shardMessage_clause ..) s1
    case digest =>
      have hrow : CollRow p f (.digestFrame p f) := Or.inr (Or.inr (Or.inr (Or.inr ⟨ht, rfl⟩)))
      have hc : collGo f v s1 = addRecord v (recordOf f.payload) s1 := by
        simp only [collGo, show hType f.header = 9 from ht]; rfl
      have hd1 : (recordOf f.payload).d ≠ s1.job.agreeD := by rw [linkIn_job]; exact hd
      obtain ⟨hst, hmem, hseq⟩ := addRecord_of_other_interval (v := v) hd1
      rw [hstage, linkIn_evSeq, linkIn_chip] at hseq
      exact ⟨_, by rw [hgo hrow, hc], hst.trans (linkIn_stages ..), hmem.trans (linkIn_mem ..), hseq⟩
  · have ht : hType f.header ≠ 10 := by
      rcases hi with ⟨ht, _⟩ | ⟨ht, _⟩ | ⟨ht, _⟩ | ⟨ht, _⟩ | ⟨ht, _⟩ <;> exact ne_of_eq_of_ne ht (by decide)
    obtain ⟨hq, m, hm, hfwd, hdata⟩ := forwardFrame_queues p.val f s1 ht
    exact ⟨_, m, exec_of_collRow_elsewhere hok hrole hi hme, hq, hm, hfwd, hdata⟩

/-! ### A curve that arrives while a rule's AT is reached and its update has not started (O43) -/

/-- SCHED_TABLE_LOAD at the basic level for parameter group 0 of stage 7: 48 bytes at host address 64. -/
def curveCmd : Cmd :=
  ⟨.host 0, BitVec.ofNat 512 (0x30 + 64 * 2 ^ 64 + 48 * 2 ^ 192 + 7 * 2 ^ 256), leBytes 16 2 ++ leBytes 16 0 ++ leBytes 16 1,
    false⟩

/-- A rule of eight NOPs. -/
def nopRule : Rule := ⟨List.replicate 8 0, 0, false, 0xD⟩

/-- Stage 7 on die 1 with one parameter group and a rule. Its present COMMIT is 5, and a new rule with AT = 5 waits for the
next update, which has not started. -/
def dueStage : Stage :=
  { loaded := true, image := { emptyImage with stage := 7, die := 1, paramGroups := [⟨256, 0, 0, 0, 1, none⟩] }
    rule := some nopRule, tenses := [{ state := 2, commit := 5 }], loads := [⟨5, some (nopRule, []), []⟩] }

/-- A paused job with that stage. The Inflector of die 1 is at rest, and its s1 holds 1; mailbox 0 holds one command. -/
def dueState : State :=
  { chip := { bringup := 5, service := 2 }, job := { state := 4, id := 5 }
    stages := [(0, dueStage)], engines := [(225, { sregs := [(1, 1)] })]
    host := { mailboxes := [(0, { ctrl := 0x601, cmdTail := 1, cmdBase := 0x1000, cmpBase := 0x2000 })] } }

theorem dueState_accepts_curveCmd : Accepted curveCmd (tableSpec curveCmd 0x30 1040) dueState := by
  unfold Accepted
  decide +kernel

theorem dueState_named : dueState.named (curveCmd.arg 0 2) = [0] := by decide +kernel

theorem dueState_known : dueState.unknownStage (curveCmd.arg 0 2) = false := by decide +kernel

theorem curveCmd_basic : curveCmd.expert = false := by decide +kernel

theorem dueState_groupsNamed : (dueState.stage 0).groupsNamed (curveCmd.arg 2 2) = [0] := by decide +kernel

theorem curveCmd_passes : curveRefusal curveCmd.pay = none := by decide +kernel

/-- SCHED_TABLE_LOAD puts the waiting rule in place, which clears the Inflector's registers. -/
theorem schedTableLoad_clears_due : ∃ u, exec (.schedTableLoad curveCmd) dueState = .next u ∧ (u.eng 225).rs 1 = 0 := by
  refine ⟨_, rfl, ?_⟩
  decide +kernel

/-- A completion in a host mailbox leaves every engine as it is. -/
theorem complete_host_eng (m : Fin 32) (opcode id respAddr status : Nat) (result resp : List Byte) (s : State) (k : Nat) :
    (complete (.host m) opcode id respAddr status result resp s).eng k = s.eng k := by
  have h := eventOnly_trans (putEntry_eventOnly m.val 0 (completionRest s.chip.uptime.toNat opcode id status resp.length result)
    { s with hostMem := memWriteBytes s.hostMem respAddr resp }) (signalMailbox_eventOnly m.val _)
  unfold complete
  dsimp only
  rw [h]
  rfl

/-- Refutes O43: queueing a table puts in place whatever is due in the stage, a rule whose AT is reached among it, and a rule
put in place clears the registers of an Inflector at rest. So SCHED_TABLE_LOAD changes an engine in `dueState`, and the
statement's clause on tables lets it change none. -/
theorem not_rulesTablesAndBudgets : ¬ Obligations.RulesTablesAndBudgets := by
  unfold Obligations.RulesTablesAndBudgets
  intro h
  obtain ⟨_, hcurve, _⟩ := h curveCmd dueState
  have hopen : ∀ v ∈ dueState.named (curveCmd.arg 0 2), (dueState.stage v).rule.isSome = true ∧
      (dueState.stage v).groupsNamed (curveCmd.arg 2 2) ≠ [] ∧ (curveCmd.expert = true →
        (dueState.stage v).tableOpen (if curveCmd.expert then curveCmd.arg 4 4 else 0) = true) := by
    intro v hv
    rw [dueState_named, List.mem_singleton] at hv
    subst hv
    refine ⟨rfl, ?_, fun he => absurd (curveCmd_basic.symm.trans he) (by decide)⟩
    rw [dueState_groupsNamed]
    decide
  obtain ⟨t, hans, hframe, _⟩ := hcurve dueState_accepts_curveCmd rfl dueState_known hopen curveCmd_passes
  obtain ⟨u, hu, hzero⟩ := schedTableLoad_clears_due
  have hkept : (t.eng 225).rs 1 = 1 := by rw [hframe]; rfl
  have hsame : u = complete curveCmd.mb curveCmd.opcode curveCmd.id curveCmd.respAddr stOk [] [] t := by
    rw [Answers, hu] at hans
    exact Host.Outcome.next.inj hans
  rw [hsame, show curveCmd.mb = .host 0 from rfl, complete_host_eng, hkept] at hzero
  exact absurd hzero (by decide)

end Sys2Proof.VectorEngine

/-!
The statements on a module's Clauses: delivery inside the module (O17), the frames of a STAGE port (O28), and the arrival of
the Clause whose turn has come (O44).
-/
namespace Sys2Proof.StagesAndClauses
open Sys2Proof.Machine Sys2Proof.NumberFormats Sys2Proof.OverflowReplay Sys2Proof.VectorEngine

/-! ### Runs of bytes in memory -/

/-- Memory after a run of bytes has been written. -/
theorem memRead_memWriteBytes (m : Memory) (a : Nat) (bs : List Byte) (b : Nat) : memRead (memWriteBytes m a bs) b =
    if a ≤ b ∧ b < a + bs.length then bs.getD (b - a) 0 else memRead m b := by
  split
  · next h =>
    have hi : b - a < bs.length := by omega
    have hb : a + (b - a) = b := by omega
    have hread := memRead_memWriteBytes_of_in bs m a (b - a) hi
    rwa [hb, ← getD_of_lt 0 hi] at hread
  · exact memRead_memWriteBytes_of_out bs m a b (by omega)

theorem getD_memBytes (m : Memory) (n : Nat) : ∀ a i, i < n → (memBytes m a n).getD i 0 = memRead m (a + i) := by
  induction n with
  | zero => intro a i h; exact absurd h (Nat.not_lt_zero i)
  | succ n ih =>
    intro a i h
    cases i with
    | zero => rfl
    | succ i =>
      calc (memBytes m a (n + 1)).getD (i + 1) 0
          = (memBytes m (a + 1) n).getD i 0 := rfl
        _ = memRead m (a + 1 + i) := ih (a + 1) i (Nat.lt_of_succ_lt_succ h)
        _ = memRead m (a + (i + 1)) := by rw [Nat.add_assoc, Nat.add_comm 1]

theorem fit_length (n : Nat) (bs : List Byte) : (fit n bs).length = n := by
  unfold fit
  rw [List.length_append, List.length_take, List.length_replicate]
  omega

/-- A payload goes into its receive slot: words that it covers whole become good again, and an empty one is no write. -/
def putPayload (a : Nat) (bs : List Byte) (s : State) : State :=
  if bs.isEmpty then s else (s.store a bs).mend a bs.length

theorem putPayload_memOnly (a : Nat) (bs : List Byte) (s : State) : MemOnly s (putPayload a bs s) := by
  unfold putPayload
  split <;> rfl

theorem putPayload_mem (a : Nat) (bs : List Byte) (s : State) : (putPayload a bs s).mem = memWriteBytes s.mem a bs := by
  cases bs <;> rfl

theorem memOnly_stage {s t : State} (h : MemOnly s t) (v : Nat) : t.stage v = s.stage v := by
  rw [h]; rfl

/-! ### A Clause enters its in-queue (R176, R179) -/

theorem updIn_keepsImage (back : Bool) (f : InQueue → InQueue) : KeepsImage fun g => g.updIn back f := by
  intro g
  cases back <;> exact ⟨rfl, rfl, rfl⟩

@[simp] theorem inQ_updIn (g : Stage) (back : Bool) (f : InQueue → InQueue) : (g.updIn back f).inQ back = f (g.inQ back) := by
  cases back <;> rfl

/-- A Clause as it stands in its in-queue: PAYLOAD_ADDR is the next receive slot, or 0 where it has no payload. -/
def slotted (g : Stage) (back : Bool) (c : BitVec 512) : BitVec 512 :=
  setClause c 175 128 (if clauseLen c = 0 then 0 else g.slotAddr back ((g.inQ back).delivered % 2 ^ 32))

@[simp] theorem clauseSeq_slotted (g : Stage) (back : Bool) (c : BitVec 512) : clauseSeq (slotted g back c) = clauseSeq c :=
  bits_setClause_of_out c _ (by decide)

/-- An in-queue with one more Clause delivered. -/
def enqueue (back : Bool) (c : BitVec 512) (g : Stage) : Stage :=
  g.updIn back fun q => { q with items := q.items ++ [c], delivered := q.delivered + 1 }

section
variable (v : Nat) (back : Bool) (c : BitVec 512) (payload : List Byte) (s : State)

/-- Delivery writes the payload, then the entry, then the queue. -/
theorem deliver_eq : deliver v back c payload s =
    (writeClause (inEntry (s.stage v) v back (clauseSeq c)) (slotted (s.stage v) back c)
      (putPayload ((s.stage v).slotAddr back (((s.stage v).inQ back).delivered % 2 ^ 32)) payload s)).updStage v
      (enqueue back (slotted (s.stage v) back c)) := by
  rw [← clauseSeq_slotted (s.stage v) back c]
  rfl

theorem deliver_frame : deliver v back c payload s = { s with
    mem := (deliver v back c payload s).mem
    badWords := (deliver v back c payload s).badWords
    stages := (deliver v back c payload s).stages } := by
  rw [deliver_eq]
  generalize ((s.stage v).slotAddr back (((s.stage v).inQ back).delivered % 2 ^ 32)) = a
  have h := putPayload_memOnly a payload s
  generalize putPayload a payload s = t at h
  rw [h]
  rfl

theorem deliver_stage_self : (deliver v back c payload s).stage v =
    enqueue back (slotted (s.stage v) back c) (s.stage v) := by
  rw [deliver_eq, State.updStage_stage_self, writeClause_stage, memOnly_stage (putPayload_memOnly _ _ s)]

theorem deliver_stage_of_ne {u : Nat} (h : u ≠ v) : (deliver v back c payload s).stage u = s.stage u := by
  rw [deliver_eq, State.updStage_stage_of_ne _ _ h, writeClause_stage, memOnly_stage (putPayload_memOnly _ _ s)]

/-- The entry holds the Clause, the receive slot the payload, and every other byte stands. -/
theorem memRead_deliver (b : Nat) :
    let e := inEntry (s.stage v) v back (clauseSeq c)
    let dst := (s.stage v).slotAddr back (((s.stage v).inQ back).delivered % 2 ^ 32)
    memRead (deliver v back c payload s).mem b =
      if e ≤ b ∧ b < e + 64 then BitVec.ofNat 8 ((slotted (s.stage v) back c).toNat >>> (8 * (b - e)))
      else if dst ≤ b ∧ b < dst + payload.length then payload.getD (b - dst) 0 else memRead s.mem b := by
  intro e dst
  rw [deliver_eq, State.updStage_mem, memRead_writeClause, putPayload_mem, memRead_memWriteBytes]

end

/-! ### Delivery inside the module (R178 to R180, R182) -/

/-- An out-queue without its oldest Clause. -/
def dequeue (back : Bool) (g : Stage) : Stage := g.updOut back fun q => { q with items := q.items.drop 1 }

section
variable {v u : Nat} {back : Bool} {s : State} {c : BitVec 512} {rest : List (BitVec 512)}
variable (hu : s.findStage (if back then (s.stage v).succ else (s.stage v).predecessor) = some u)
variable (hq : ((s.stage u).outQ back).items = c :: rest)
include hu hq

theorem deliverLocal_of_no_credit (h : (s.stage v).credit back = false) : deliverLocal v back s = s := by
  simp only [deliverLocal, hu, hq, h, Bool.not_false, Bool.or_true, if_true]

/-- A backward Clause with credit on the same path goes first (R182). -/
theorem deliverLocal_of_backwardWaits (hb : back = false)
    (h : s.backwardWaits (s.stage u).image.die (s.stage v).image.die = true) : deliverLocal v back s = s := by
  have hpath : (!back && s.backwardWaits (s.stage u).image.die (s.stage v).image.die) = true := by rw [hb, h]; rfl
  simp only [deliverLocal, hu, hq, hpath, if_true, ite_self]

/-- With credit, and nothing on its path that it waits for or that fails, the oldest Clause leaves the source and is
delivered with its payload. -/
theorem deliverLocal_delivers (hlive : (s.stage u).live = true) (hl : (s.stage v).loaded = true)
    (hcredit : (s.stage v).credit back = true)
    (hpath : back = true ∨ s.backwardWaits (s.stage u).image.die (s.stage v).image.die = false)
    (hslot : s.deliveryDie (s.stage v) ((s.stage v).slotAddr back (((s.stage v).inQ back).delivered % 2 ^ 32)) = none)
    (hsrc : clauseLen c * 256 = 0 ∨ s.absent (clauseAddr c / 2 ^ 40) = false)
    (hbad : s.badAmong [queueState u (2 + bit back), (outEntry (s.stage u) u back (clauseSeq c), 64),
      (clauseAddr c, clauseLen c * 256)] = none)
    (hbad' : s.badAmong [queueState v (bit back)] = none) :
    deliverLocal v back s = deliver v back c (s.load (clauseAddr c) (clauseLen c * 256)) (s.updStage u (dequeue back)) := by
  have hpath' : (!back && s.backwardWaits (s.stage u).image.die (s.stage v).image.die) = false := by
    rcases hpath with h | h <;> simp [h]
  have hsrc' : (decide (clauseLen c * 256 > 0) && s.absent (clauseAddr c / 2 ^ 40)) = false := by
    rcases hsrc with h | h
    · rw [h]; rfl
    · rw [h, Bool.and_false]
  simp only [deliverLocal, hu, hq, hlive, hl, hcredit, hpath', hslot, hsrc', hbad, hbad', Bool.not_true, Bool.or_self,
    Bool.false_eq_true, if_false]
  rfl

end

/-- Settles O17: without credit, or behind a backward Clause, nothing moves; otherwise the oldest Clause leaves the source, and
`deliver` puts it and its payload where the destination receives them. -/
theorem clauseDelivery : Obligations.ClauseDelivery := by
  unfold Obligations.ClauseDelivery
  intro v back s u c rest g n dst hu hne hq hlive hl
  refine ⟨fun h => congrArg _ (deliverLocal_of_no_credit hu hq h),
    fun hb h => congrArg _ (deliverLocal_of_backwardWaits hu hq hb h),
    fun hcredit hpath hslot hsrc hbad hbad' => ?_⟩
  intro a c'
  let s' := s.updStage u (dequeue back)
  let payload := s.load (clauseAddr c) n
  have hlen : payload.length = n := memBytes_length s.mem n (clauseAddr c)
  have hv : s'.stage v.val = g := State.updStage_stage_of_ne s _ hne.symm
  refine ⟨deliver v.val back c payload s',
    congrArg _ (deliverLocal_delivers hu hq hlive hl hcredit hpath hslot hsrc hbad hbad'), ?frame, fun b => ?bytes, ?source,
    ?destination, fun i hiu hiv => ?others⟩
  case frame => exact deliver_frame v.val back c payload s'
  case bytes =>
    have hread := memRead_deliver v.val back c payload s' b
    rw [hv, hlen] at hread
    refine hread.trans ?_
    have hbyte : dst ≤ b ∧ b < dst + n → payload.getD (b - dst) 0 = memRead s.mem (clauseAddr c + (b - dst)) := fun h =>
      getD_memBytes s.mem n (clauseAddr c) (b - dst) (by omega)
    split
    · rfl
    · split
      · next h => exact hbyte h
      · rfl
  case source =>
    rw [deliver_stage_of_ne v.val back c payload s' hne, State.updStage_stage_self, dequeue]
    have hrest : ((s.stage u).outQ back).items.drop 1 = rest := by rw [hq]; rfl
    cases back
    · exact congrArg (fun xs => { s.stage u with forwardOut := { (s.stage u).forwardOut with items := xs } }) hrest
    · exact congrArg (fun xs => { s.stage u with backwardOut := { (s.stage u).backwardOut with items := xs } }) hrest
  case destination => rw [deliver_stage_self, hv]; rfl
  case others => rw [deliver_stage_of_ne v.val back c payload s' hiv, State.updStage_stage_of_ne s _ hiu]

/-! ### The halt of a destination (R177, R181, R374) -/

/-- A halt leaves the in-queues of its stage. -/
theorem haltStage_inQueues (v code : Nat) (final : Bool) (s : State) :
    ((haltStage v code final s).stage v).forwardIn = (s.stage v).forwardIn ∧
      ((haltStage v code final s).stage v).backwardIn = (s.stage v).backwardIn := by
  unfold haltStage
  by_cases hl : (s.stage v).loaded = true
  case neg => simp [hl]
  by_cases h0 : (s.stage v).haltCode = 0
  case neg => by_cases hf : (final && !(s.stage v).haltFinal) = true <;> simp [hl, h0, hf]
  by_cases hk : (s.stage v).commitKept s.job.z = true
  · simp [hl, h0, hk, forEach_updEng_stage]
  · simp [hl, h0, hk, forEach_updEng_stage, Stage.abandon]

/-- Stage `v` has halted for good with a code, its in-queues as they were, and beyond events and halts nothing differs. -/
def HaltsWith (v code : Nat) (s t : State) : Prop :=
  HaltOnly s t ∧ (t.stage v).haltCode = code ∧ (t.stage v).haltFinal = true ∧
    (t.stage v).forwardIn = (s.stage v).forwardIn ∧ (t.stage v).backwardIn = (s.stage v).backwardIn

section
variable {v : Nat} {s : State} (hl : (s.stage v).loaded = true) (h0 : (s.stage v).haltCode = 0)
include hl h0

/-- An event, and the halt of a stage with the code of the event. -/
theorem haltStage_raise_haltsWith (code unit cls : Nat) (items : List (Nat × Nat)) :
    HaltsWith v code s (haltStage v code true (raise code unit cls items s)) := by
  have hr := raise_eventOnly code unit cls items s
  have hs := eventOnly_stage hr v
  obtain ⟨hcode, hfinal⟩ := haltStage_stage code true (hs ▸ hl) (hs ▸ h0)
  obtain ⟨hfwd, hback⟩ := haltStage_inQueues v code true (raise code unit cls items s)
  exact ⟨haltOnly_trans (haltOnly_of_eventOnly hr) (haltStage_haltOnly v code true _), hcode, hfinal, hs ▸ hfwd, hs ▸ hback⟩

theorem clauseGap_haltsWith (src dst expected found : Nat) : HaltsWith v 0x0203 s (clauseGap v src dst expected found s) :=
  haltStage_raise_haltsWith hl h0 0x0203 _ _ _

theorem oversize_haltsWith {halted : Nat} (hv : s.findStage halted = some v) (unit cls src dst len limit : Nat) :
    HaltsWith v 0x0202 s (oversize unit cls halted src dst len limit s) := by
  let items := [(2, halted), (2, src), (2, dst), (4, len), (4, limit)]
  have hr := raise_eventOnly 0x0202 unit cls items s
  have hfind : (raise 0x0202 unit cls items s).findStage halted = some v := by rw [hr]; exact hv
  unfold oversize
  dsimp only
  rw [hfind]
  exact haltStage_raise_haltsWith hl h0 0x0202 unit cls items

end

/-! ### Frames of a STAGE port reach their stage (R172, R339) -/

section
variable (p : Nat) (f : Frame) (s : State)

@[simp] theorem linkIn_absent (d : Nat) : (linkIn p f s).absent d = s.absent d := by
  rw [(linkIn_linkStep p f s).1]; rfl
@[simp] theorem linkIn_deliveryDie (g : Stage) (slot : Nat) : (linkIn p f s).deliveryDie g slot = s.deliveryDie g slot := by
  rw [(linkIn_linkStep p f s).1]; rfl

end

/-- A row takes the frames of its types. -/
theorem ofType_of_mem {ts : List Nat} {f : Frame} (h : hType f.header ∈ ts) (go : State → State) (s : State) :
    ofType ts f go s = .next (go s) := by
  rw [ofType, if_pos (List.contains_iff_mem.mpr h)]

section
variable {p : Fin 8} {f : Frame} {s : State} {v : Nat} (hok : FrameOk p.val f s)
include hok

theorem exec_dataFrame_of_stage (hrole : (s.port p.val).role = 1 ∨ (s.port p.val).role = 2) (ht : hType f.header = 1)
    (hv : s.findStage (hStage f.header) = some v) :
    exec (.dataFrame p f) s = .next (ackDue p.val (payloadFrame p.val v f (linkIn p.val f s))) := by
  have hcoll : ((linkIn p.val f s).port p.val).role ≠ roleColl := by
    rw [linkIn_role]; rcases hrole with h | h <;> rw [h] <;> decide
  have hexport : ((linkIn p.val f s).port p.val).role ≠ roleExport := by
    rw [linkIn_role]; rcases hrole with h | h <;> rw [h] <;> decide
  change execDataFrame p f s = _
  rw [execDataFrame, ofType_of_mem (by rw [ht]; decide), receive_of_frameOk hok]
  simp only [hcoll, hexport, linkIn_findStage, hv, if_false]

theorem exec_clauseFrame_of_stage (ht : hType f.header = 2) (hv : s.findStage (hStage f.header) = some v) :
    exec (.clauseFrame p f) s = .next (ackDue p.val (clauseArrives p.val v (hSub f.header % 2 == 1)
      (BitVec.ofNat 512 (leNat (f.payload.take 64))) (linkIn p.val f s))) := by
  change execClauseFrame p f s = _
  rw [execClauseFrame, ofType_of_mem (by rw [ht]; decide), receive_of_frameOk hok]
  simp only [linkIn_findStage, hv]

/-- A stray Clause (R172). -/
theorem exec_clauseFrame_of_no_stage (ht : hType f.header = 2) (hv : s.findStage (hStage f.header) = none) :
    exec (.clauseFrame p f) s = .next (ackDue p.val (clauseRoute (clauseSrc (BitVec.ofNat 512 (leNat (f.payload.take 64))))
      (clauseDst (BitVec.ofNat 512 (leNat (f.payload.take 64)))) (linkIn p.val f s))) := by
  change execClauseFrame p f s = _
  rw [execClauseFrame, ofType_of_mem (by rw [ht]; decide), receive_of_frameOk hok]
  simp only [linkIn_findStage, hv]

end

/-! ### Payload frames (R177, R338) -/

section
variable {p v : Nat} {f : Frame} {s : State}

theorem payloadFrame_of_below
    (hb : below (hTag f.header) (((s.stage v).inQ (hSub f.header % 2 == 1)).delivered % 2 ^ 32) = true) :
    payloadFrame p v f s = s := by
  simp only [payloadFrame, hb, if_true]

section
variable (hb : below (hTag f.header) (((s.stage v).inQ (hSub f.header % 2 == 1)).delivered % 2 ^ 32) = false)
include hb

/-- A payload frame inside its slot is stored there. -/
theorem payloadFrame_of_fits (hfit : 16 * hOffset f.header + 16 * hPlen f.header ≤ (s.stage v).slotLen (hSub f.header % 2 == 1))
    (hdie : s.absent (((s.stage v).slotAddr (hSub f.header % 2 == 1) (hTag f.header) + 16 * hOffset f.header) / 2 ^ 40) = false) :
    payloadFrame p v f s = (s.store ((s.stage v).slotAddr (hSub f.header % 2 == 1) (hTag f.header) + 16 * hOffset f.header)
      (Frame.meaning f)).mend ((s.stage v).slotAddr (hSub f.header % 2 == 1) (hTag f.header) + 16 * hOffset f.header)
      (16 * hPlen f.header) := by
  simp only [payloadFrame, hb, hdie, Nat.not_lt.mpr hfit, Bool.false_eq_true, if_false]

theorem payloadFrame_of_oversized
    (hover : (s.stage v).slotLen (hSub f.header % 2 == 1) < 16 * hOffset f.header + 16 * hPlen f.header) :
    payloadFrame p v f s = refusePayload p v (hSub f.header % 2 == 1) (hTag f.header)
      (16 * hOffset f.header + 16 * hPlen f.header) s := by
  simp only [payloadFrame, hb, hover, Bool.false_eq_true, if_false, if_true]

end

theorem refusePayload_of_refused {back : Bool} {seq : Nat} (h : ((s.stage v).inQ back).refused = some seq) (ends : Nat) :
    refusePayload p v back seq ends s = s := if_pos h

/-- The first frame beyond the slot halts the destination, whose in-queue notes the Clause as refused and keeps its Clauses. -/
theorem refusePayload_halts {back : Bool} {seq : Nat} (h : ((s.stage v).inQ back).refused ≠ some seq)
    (hl : (s.stage v).loaded = true) (h0 : (s.stage v).haltCode = 0)
    (hv : s.findStage (s.stage v).image.stage = some v) (ends : Nat) :
    let t := refusePayload p v back seq ends s
    HaltOnly s t ∧ (t.stage v).haltCode = 0x0202 ∧ (t.stage v).haltFinal = true ∧
      ((t.stage v).inQ back).refused = some seq ∧ ((t.stage v).inQ back).items = ((s.stage v).inQ back).items := by
  intro t
  let refuse := fun q : InQueue => { q with refused := some seq }
  let s' := s.updStage v fun g => g.updIn back refuse
  have hkeeps := updIn_keepsImage back refuse
  obtain ⟨hloaded, _, _⟩ := hkeeps (s.stage v)
  have hstage : s'.stage v = (s.stage v).updIn back refuse := State.updStage_stage_self s v _
  have hcode : ((s.stage v).updIn back refuse).haltCode = (s.stage v).haltCode := by cases back <;> rfl
  obtain ⟨honly, hhalt, hfinal, hfwd, hback⟩ := oversize_haltsWith (s := s') (v := v)
    (by rw [hstage, hloaded, hl]) (by rw [hstage, hcode, h0]) ((findStage_updStage hkeeps s v _).trans hv) (portUnit p) 0
    ((s.stage v).sourceOf back) (s.stage v).image.stage (cdiv ends 256) ((s.stage v).slotLen back / 256)
  have ht : t = oversize (portUnit p) 0 (s.stage v).image.stage ((s.stage v).sourceOf back) (s.stage v).image.stage
      (cdiv ends 256) ((s.stage v).slotLen back / 256) s' := if_neg h
  rw [← ht] at honly hhalt hfinal hfwd hback
  have hin : (t.stage v).inQ back = refuse ((s.stage v).inQ back) := by
    rw [← inQ_updIn (s.stage v) back refuse, ← hstage]
    cases back
    · exact hfwd
    · exact hback
  exact ⟨haltOnly_trans (updStage_haltOnly s v _) honly, hhalt, hfinal, by rw [hin], by rw [hin]⟩

end

/-! ### Clause frames (R179, R181) -/

/-- No count is below itself. -/
theorem below_self (n : Nat) : below (n % 2 ^ 32) (n % 2 ^ 32) = false := by
  have h : (n % 2 ^ 32 + 2 ^ 32 - n % 2 ^ 32 % 2 ^ 32) % 2 ^ 32 = 0 := by omega
  simp only [below, h]
  rfl

section
variable {p v : Nat} {back : Bool} {c : BitVec 512} {s : State}

theorem clauseArrives_of_below (hb : below (clauseSeq c) (((s.stage v).inQ back).delivered % 2 ^ 32) = true) :
    clauseArrives p v back c s = countDup v back s := if_pos hb

theorem clauseArrives_of_gap (hb : below (clauseSeq c) (((s.stage v).inQ back).delivered % 2 ^ 32) = false)
    (hne : clauseSeq c ≠ ((s.stage v).inQ back).delivered % 2 ^ 32) :
    clauseArrives p v back c s = clauseGap v (clauseSrc c) (s.stage v).image.stage
      (((s.stage v).inQ back).delivered % 2 ^ 32) (clauseSeq c) s := by
  simp only [clauseArrives, hb, hne, ne_eq, not_false_eq_true, Bool.false_eq_true, if_false, if_true]

section
variable (hseq : clauseSeq c = ((s.stage v).inQ back).delivered % 2 ^ 32)
include hseq

theorem clauseArrives_of_refused (hr : ((s.stage v).inQ back).refused = some (((s.stage v).inQ back).delivered % 2 ^ 32)) :
    clauseArrives p v back c s = s := by
  simp only [clauseArrives, hseq, below_self, hr, ne_eq, not_true, Bool.false_eq_true, if_false, if_true]

variable (hr : ((s.stage v).inQ back).refused ≠ some (((s.stage v).inQ back).delivered % 2 ^ 32))
include hr

theorem clauseArrives_of_oversized (hlen : (s.stage v).slotLen back < clauseLen c * 256) :
    clauseArrives p v back c s = oversize (portUnit p) 0 (s.stage v).image.stage (clauseSrc c) (s.stage v).image.stage
      (clauseLen c) ((s.stage v).slotLen back / 256) s := by
  simp only [clauseArrives, hseq, below_self, hr, hlen, ne_eq, not_true, Bool.false_eq_true, if_false, if_true]

/-- The expected Clause is delivered; its payload came before it, in frames of its own. -/
theorem clauseArrives_of_expected (hlen : clauseLen c * 256 ≤ (s.stage v).slotLen back)
    (hdie : s.deliveryDie (s.stage v) ((s.stage v).slotAddr back (clauseSeq c)) = none) :
    clauseArrives p v back c s = deliver v back c [] s := by
  rw [hseq] at hdie
  simp only [clauseArrives, hseq, below_self, hr, hdie, Nat.not_lt.mpr hlen, ne_eq, not_true, Bool.false_eq_true,
    if_false]

end
end

/-- Settles O28: a frame reaches its stage by `exec_dataFrame_of_stage` or `exec_clauseFrame_of_stage`, and each clause is the
lemma on its row of `payloadFrame` or of `clauseArrives`. -/
theorem stageFrames : Obligations.StageFrames := by
  unfold Obligations.StageFrames
  intro p f s v hok hrole hv g back have'
  let s1 := linkIn p.val f s
  have hstage : s1.stage v = g := linkIn_stage p.val f s v
  have hfind : s1.findStage g.image.stage = s.findStage g.image.stage := linkIn_findStage ..
  refine ⟨fun ht => ?payload, fun ht => ?clause⟩
  case payload =>
    intro a n
    rw [exec_dataFrame_of_stage hok hrole ht hv]
    refine ⟨fun hb => ?_, fun hb hfit hdie => ?_, fun hb hover => ⟨fun hr => ?_, fun hr hl h0 hg => ?_⟩⟩
    · rw [payloadFrame_of_below (by rw [linkIn_stage]; exact hb)]
    · have hstore := payloadFrame_of_fits (p := p.val) (v := v) (f := f) (s := s1) (by rw [hstage]; exact hb)
        (by rw [hstage]; exact hfit) (by rw [hstage, linkIn_absent]; exact hdie)
      rw [hstage] at hstore
      refine ⟨_, congrArg (fun t => Host.Outcome.next (ackDue p.val t)) hstore, rfl, fun b => ?_⟩
      rw [State.mend_mem, State.store_mem, linkIn_mem, memRead_memWriteBytes, Frame.meaning, fit_length]
    · rw [payloadFrame_of_oversized (by rw [linkIn_stage]; exact hb) (by rw [linkIn_stage]; exact hover),
        refusePayload_of_refused (by rw [linkIn_stage]; exact hr)]
    · have hhalts := refusePayload_halts (p := p.val) (s := s1) (back := back) (seq := hTag f.header) (v := v)
        (by rw [hstage]; exact hr) (by rw [hstage]; exact hl) (by rw [hstage]; exact h0) (by rw [hstage, hfind]; exact hg)
        (16 * hOffset f.header + 16 * hPlen f.header)
      rw [hstage] at hhalts
      exact ⟨_, by rw [payloadFrame_of_oversized (by rw [linkIn_stage]; exact hb) (by rw [linkIn_stage]; exact hover)], hhalts⟩
  case clause =>
    intro c
    rw [exec_clauseFrame_of_stage hok ht hv]
    refine ⟨fun hb => ?_, fun hseq hr => ?_, fun hseq hr hlen hl h0 hg => ?_, fun hb hne hl h0 => ?_⟩
    · refine ⟨_, by rw [clauseArrives_of_below (by rw [linkIn_stage]; exact hb)], ?_⟩
      rw [← hstage]
      exact updStage_onlyStage s1 v fun g => g.updIn back fun q => { q with dups := satInc q.dups }
    · rw [clauseArrives_of_refused (by rw [linkIn_stage]; exact hseq) (by rw [linkIn_stage]; exact hr)]
    · have hhalts := oversize_haltsWith (s := s1) (v := v) (by rw [hstage]; exact hl) (by rw [hstage]; exact h0)
        (hfind.trans hg) (portUnit p.val) 0 (clauseSrc c) g.image.stage (clauseLen c) (g.slotLen back / 256)
      rw [HaltsWith, hstage] at hhalts
      refine ⟨_, ?_, hhalts⟩
      rw [clauseArrives_of_oversized (by rw [linkIn_stage]; exact hseq) (by rw [linkIn_stage]; exact hr)
        (by rw [linkIn_stage]; exact hlen), linkIn_stage]
    · have hhalts := clauseGap_haltsWith (s := s1) (v := v) (by rw [hstage]; exact hl) (by rw [hstage]; exact h0)
        (clauseSrc c) g.image.stage have' (clauseSeq c)
      rw [HaltsWith, hstage] at hhalts
      refine ⟨_, ?_, hhalts⟩
      rw [clauseArrives_of_gap (by rw [linkIn_stage]; exact hb) (by rw [linkIn_stage]; exact hne), linkIn_stage]

/-- Settles O44: the expected Clause is delivered without a payload, which came in frames of its own; a stray one raises its
event. -/
theorem clauseArrival : Obligations.ClauseArrival := by
  unfold Obligations.ClauseArrival
  intro p f s hok _ ht c s1
  refine ⟨fun v hv => ?expected, fun hv => ?stray⟩
  case expected =>
    intro g back q a c' e hseq hr hlen hdie
    have hstage : s1.stage v = g := linkIn_stage p.val f s v
    have hslot : slotted g back c = c' := by unfold slotted; rw [← hseq]
    have harrives : clauseArrives p.val v back c s1 = deliver v back c [] s1 :=
      clauseArrives_of_expected (by rw [hstage]; exact hseq) (by rw [hstage, ← hseq]; exact hr) (by rw [hstage]; exact hlen)
        (by rw [hstage, linkIn_deliveryDie]; exact hdie)
    refine ⟨deliver v back c [] s1, by rw [exec_clauseFrame_of_stage hok ht hv, harrives], deliver_frame .., ?_, fun b => ?_,
      fun u hu => ?_⟩
    · rw [deliver_stage_self, hstage, hslot]
      rfl
    · have hread := memRead_deliver v back c [] s1 b
      rw [hstage, hslot, linkIn_mem] at hread
      refine hread.trans ?_
      split
      · rfl
      · exact if_neg (by rw [List.length_nil]; omega)
    · rw [deliver_stage_of_ne v back c [] s1 hu, linkIn_stage]
  case stray =>
    refine ⟨_, exec_clauseFrame_of_no_stage hok ht hv, raise_eventOnly .., fun hheld => ?_⟩
    have hseq := raise_evSeq (code := 0x0204) (unit := clauseStoreUnit) (cls := 0) [(2, clauseSrc c), (2, clauseDst c)]
      (s := s1) (by rw [linkIn_chip]; exact hheld) (by decide)
    rwa [linkIn_evSeq] at hseq

end Sys2Proof.StagesAndClauses

/-!
The statements on Tense slots and the parameter state: the delta of an image (O22), the Tense logic (O21), the gradient path
and the vote (O24), and CHECKPOINT, RESTORE and TENSE_EXPORT (O45).
-/
namespace Sys2Proof.TenseState
open Sys2Proof.Machine Sys2Proof.NumberFormats Sys2Proof.OverflowReplay Sys2Proof.VectorEngine Sys2Proof.StagesAndClauses

/-! ### Runs of bytes read back -/

theorem memBytes_add (m : Memory) (n k : Nat) : ∀ a, memBytes m a (n + k) = memBytes m a n ++ memBytes m (a + n) k := by
  induction n with
  | zero => intro a; rw [Nat.zero_add]; rfl
  | succ n ih =>
    intro a
    calc memBytes m a (n + 1 + k)
        = memBytes m a (n + k + 1) := by rw [Nat.add_right_comm]
      _ = memRead m a :: (memBytes m (a + 1) n ++ memBytes m (a + 1 + n) k) := congrArg (memRead m a :: ·) (ih (a + 1))
      _ = memBytes m a (n + 1) ++ memBytes m (a + (n + 1)) k := by rw [Nat.add_assoc, Nat.add_comm 1]; rfl

/-- A run inside bytes that have been written reads back. -/
theorem memBytes_memWriteBytes (m : Memory) (a : Nat) (pre xs post : List Byte) :
    memBytes (memWriteBytes m a (pre ++ xs ++ post)) (a + pre.length) xs.length = xs := by
  refine List.ext_getElem (memBytes_length ..) fun i hi hx => ?_
  rw [memBytes_length] at hi
  have hin : pre.length + i < (pre ++ xs ++ post).length := by simp only [List.length_append]; omega
  rw [← getD_of_lt 0 (by rwa [memBytes_length]), getD_memBytes _ _ _ _ hi, Nat.add_assoc, memRead_memWriteBytes_of_in _ _ _ _ hin]
  simp [hx]

/-- A longer load there begins with the run. -/
theorem load_store_of_le (s : State) (a : Nat) (pre xs post : List Byte) {n : Nat} (h : xs.length ≤ n) :
    ∃ rest, (s.store a (pre ++ xs ++ post)).load (a + pre.length) n = xs ++ rest := by
  obtain ⟨k, rfl⟩ := Nat.exists_eq_add_of_le h
  refine ⟨memBytes (s.store a (pre ++ xs ++ post)).mem (a + pre.length + xs.length) k, ?_⟩
  exact (memBytes_add _ _ _ _).trans (congrArg (· ++ _) (memBytes_memWriteBytes s.mem a pre xs post))

theorem load_store (s : State) (a : Nat) (pre xs post : List Byte) :
    (s.store a (pre ++ xs ++ post)).load (a + pre.length) xs.length = xs := memBytes_memWriteBytes s.mem a pre xs post

theorem leNat_leBytes (n : Nat) : ∀ x, x < 256 ^ n → leNat (leBytes n x) = x := by
  induction n with
  | zero => intro x hx; simp at hx; subst hx; rfl
  | succ n ih =>
    intro x hx
    have hdiv : x / 256 < 256 ^ n := Nat.div_lt_of_lt_mul (by rwa [Nat.pow_succ, Nat.mul_comm] at hx)
    calc leNat (leBytes (n + 1) x)
        = (BitVec.ofNat 8 (x % 256)).toNat + 256 * leNat (leBytes n (x / 256)) := rfl
      _ = x % 256 + 256 * (x / 256) := by rw [ih _ hdiv, BitVec.toNat_ofNat]; omega
      _ = x := Nat.mod_add_div x 256

/-! ### Runs of one length -/

section
variable {α : Type}

theorem chunksOf_eq_map {n : Nat} (hn : 0 < n) (k : Nat) : ∀ xs : List α, xs.length = n * k →
    chunksOf n k xs = (List.range k).map fun p => (xs.drop (n * p)).take n := by
  induction k with
  | zero => intro xs _; rfl
  | succ k ih =>
    intro xs hx
    rw [Nat.mul_succ] at hx
    have hne : xs.isEmpty = false := by
      cases xs with
      | nil => simp at hx; omega
      | cons => rfl
    have hrest := ih (xs.drop n) (by rw [List.length_drop]; omega)
    rw [chunksOf, hne, if_neg Bool.false_ne_true, hrest, List.range_succ_eq_map, List.map_cons, List.map_map]
    refine congrArg₂ List.cons (by simp) (List.map_congr_left fun p _ => ?_)
    simp only [Function.comp, List.drop_drop, Nat.mul_succ, Nat.succ_eq_add_one, Nat.add_comm n]

theorem flatten_chunksOf (n k : Nat) : ∀ xs : List α, xs.length = n * k → (chunksOf n k xs).flatten = xs := by
  induction k with
  | zero => intro xs hx; simp at hx; subst hx; rfl
  | succ k ih =>
    intro xs hx
    rw [Nat.mul_succ] at hx
    cases xs with
    | nil => rfl
    | cons x t =>
      rw [chunksOf, if_neg (by simp), List.flatten_cons, ih _ (by rw [List.length_drop]; omega), List.take_append_drop]

end

/-! ### XOR of runs (R206) -/

theorem xorBytes_eq_zipWith (a b : List Byte) : xorBytes a b = List.zipWith (· ^^^ ·) a b := by
  rw [xorBytes, List.zip, List.map_zipWith]

theorem length_xorBytes (a b : List Byte) : (xorBytes a b).length = min a.length b.length := by
  rw [xorBytes_eq_zipWith, List.length_zipWith]

theorem xorBytes_slice (a b : List Byte) (i n : Nat) :
    ((xorBytes a b).drop i).take n = xorBytes ((a.drop i).take n) ((b.drop i).take n) := by
  simp only [xorBytes_eq_zipWith, List.drop_zipWith, List.take_zipWith]

/-- The difference of a run against a base, applied to the base. -/
theorem xorBytes_xorBytes (a : List Byte) : ∀ b : List Byte, a.length = b.length → xorBytes b (xorBytes a b) = a := by
  induction a with
  | nil => intro b hb; cases b with
    | nil => rfl
    | cons => simp at hb
  | cons x a ih =>
    intro b hb
    cases b with
    | nil => simp at hb
    | cons y b =>
      have hxy : y ^^^ (x ^^^ y) = x := by rw [BitVec.xor_comm x, ← BitVec.xor_assoc, BitVec.xor_self, BitVec.zero_xor]
      exact congrArg₂ List.cons hxy (ih b (by simpa using hb))

/-! ### Bit maps (Table 8.4) -/

/-- The bits that a map has gathered from the entries from number `k` on. -/
theorem testBit_foldl_number (xs : List Bool) : ∀ k acc i, acc < 2 ^ k →
    ((number k xs).foldl (fun a x => if x.2 then a + 2 ^ x.1 else a) acc).testBit i =
      if i < k then acc.testBit i else xs.getD (i - k) false := by
  induction xs with
  | nil =>
    intro k acc i h
    split
    · rfl
    · next hi => exact Nat.testBit_lt_two_pow (Nat.lt_of_lt_of_le h (Nat.pow_le_pow_right (by omega) (by omega)))
  | cons x xs ih =>
    intro k acc i h
    have hacc : (if x then acc + 2 ^ k else acc) < 2 ^ (k + 1) := by
      rw [Nat.pow_succ]
      cases x
      · exact Nat.lt_of_lt_of_le h (Nat.le_mul_of_pos_right _ (by decide))
      · exact (show acc + 2 ^ k < 2 ^ k * 2 by omega)
    refine (ih (k + 1) _ i hacc).trans ?_
    rcases Nat.lt_trichotomy i k with hi | rfl | hi
    · rw [if_pos (by omega), if_pos hi]
      cases x
      · rfl
      · rw [if_pos rfl, Nat.add_comm, Nat.testBit_two_pow_add_gt hi]
    · rw [if_pos (Nat.lt_succ_self i), if_neg (Nat.lt_irrefl i), Nat.sub_self]
      cases x
      · exact Nat.testBit_lt_two_pow h
      · rw [if_pos rfl, Nat.add_comm, Nat.testBit_two_pow_add_eq, Nat.testBit_lt_two_pow h]; rfl
    · rw [if_neg (by omega), if_neg (by omega)]
      obtain ⟨j, rfl⟩ := Nat.exists_eq_add_of_lt hi
      rw [show k + j + 1 - (k + 1) = j by omega, show k + j + 1 - k = j + 1 by omega]
      rfl

theorem testBit_bitMap (xs : List Bool) (i : Nat) : (bitMap xs).testBit i = xs.getD i false :=
  testBit_foldl_number xs 0 0 i (by decide)

theorem bitMap_lt (xs : List Bool) : bitMap xs < 2 ^ xs.length := by
  refine Nat.lt_pow_two_of_testBit _ fun i hi => ?_
  rw [testBit_bitMap, List.getD_eq_getElem?_getD, List.getElem?_eq_none hi]
  rfl

/-! ### A SPARSE page (Table 8.4) -/

/-- The nonzero bytes of a line, put back by its byte map. -/
theorem sparseLine_eq (map : Nat) (bs : List Byte) : ∀ rest, bs.length ≤ 64 →
    (∀ i, i < bs.length → map.testBit (64 - bs.length + i) = (bs.getD i 0 != 0)) →
    sparseLine map bs.length (bs.filter (· != 0) ++ rest) = (bs, rest) := by
  induction bs with
  | nil => intro rest _ _; rfl
  | cons b bs ih =>
    intro rest hlen hmap
    rw [List.length_cons] at hlen hmap
    have hrest := ih rest (by omega) fun i hi => by
      rw [show 64 - bs.length + i = 64 - (bs.length + 1) + (i + 1) by omega]
      exact hmap (i + 1) (by omega)
    have hbit : map.testBit (63 - bs.length) = (b != 0) := by
      rw [show 63 - bs.length = 64 - (bs.length + 1) + 0 by omega]
      exact hmap 0 (by omega)
    cases hb : b != 0 with
    | false =>
      rw [hb] at hbit
      obtain rfl : b = 0 := by simpa using hb
      simp only [List.length_cons, sparseLine, hbit, List.filter_cons, hb, Bool.false_eq_true, if_false, hrest]
    | true =>
      rw [hb] at hbit
      simp only [List.length_cons, sparseLine, hbit, List.filter_cons, hb, if_true, List.cons_append, List.drop_succ_cons,
        List.drop_zero, List.headD_cons, hrest]

/-- Has a line a nonzero byte? -/
def lineSet (l : List Byte) : Bool := l.any (· != 0)
/-- The byte map of a line. -/
def byteMap (l : List Byte) : List Byte := leBytes 8 (bitMap (l.map (· != 0)))
/-- The nonzero bytes of a line. -/
def nonzeros (l : List Byte) : List Byte := l.filter (· != 0)

theorem eq_replicate_of_lineSet {l : List Byte} (h : lineSet l = false) : l = List.replicate l.length 0 := by
  refine List.eq_replicate_of_mem fun b hb => ?_
  simpa using List.any_eq_false.mp h b hb

theorem byteMap_length (l : List Byte) : (byteMap l).length = 8 := leBytes_length ..

theorem sparseLine_byteMap {l : List Byte} (h : l.length = 64) (rest : List Byte) :
    sparseLine (leNat (byteMap l)) 64 (nonzeros l ++ rest) = (l, rest) := by
  have hlt : bitMap (l.map (· != 0)) < 256 ^ 8 := by
    have := bitMap_lt (l.map (· != 0))
    rwa [List.length_map, h] at this
  have hline := sparseLine_eq (leNat (byteMap l)) l rest (by omega) fun i hi => by
    rw [byteMap, leNat_leBytes _ _ hlt, testBit_bitMap, h, Nat.sub_self, Nat.zero_add, List.getD_eq_getElem?_getD,
      List.getElem?_map, List.getElem?_eq_getElem hi, getD_of_lt _ hi]
    rfl
  rwa [h] at hline

/-- The lines of a page, put back by its line map. -/
theorem sparseLines_eq (lm : Nat) (ls : List (List Byte)) : ∀ rest, (∀ l ∈ ls, l.length = 64) → ls.length ≤ 64 →
    (∀ i, i < ls.length → lm.testBit (64 - ls.length + i) = lineSet (ls.getD i [])) →
    sparseLines lm ls.length ((ls.filter lineSet).flatMap byteMap) ((ls.filter lineSet).flatMap nonzeros ++ rest) =
      ls.flatten := by
  induction ls with
  | nil => intro rest _ _ _; rfl
  | cons l ls ih =>
    intro rest hall hlen hmap
    rw [List.length_cons] at hlen hmap
    have hl : l.length = 64 := hall l (by simp)
    have hrest := ih rest (fun x hx => hall x (by simp [hx])) (by omega) fun i hi => by
      rw [show 64 - ls.length + i = 64 - (ls.length + 1) + (i + 1) by omega]
      exact hmap (i + 1) (by omega)
    have hbit : lm.testBit (63 - ls.length) = lineSet l := by
      rw [show 63 - ls.length = 64 - (ls.length + 1) + 0 by omega]
      exact hmap 0 (by omega)
    cases hset : lineSet l with
    | false =>
      rw [hset] at hbit
      have hzero : List.replicate 64 0 = l := by rw [← hl, ← eq_replicate_of_lineSet hset]
      simp only [List.length_cons, sparseLines, hbit, List.filter_cons, hset, Bool.false_eq_true, if_false, hrest, hzero,
        List.flatten_cons]
    | true =>
      rw [hset] at hbit
      have hmapLen := byteMap_length l
      simp only [List.length_cons, sparseLines, hbit, if_true, List.filter_cons, hset, List.flatMap_cons, List.flatten_cons,
        List.append_assoc, List.take_left' hmapLen, List.drop_left' hmapLen, sparseLine_byteMap hl, hrest]

/-- The lines of a page. -/
def pageLines (page : List Byte) : List (List Byte) := chunksOf 64 64 page
/-- The set lines of a page. -/
def setLines (page : List Byte) : List (List Byte) := (pageLines page).filter lineSet
/-- The line map of a page. -/
def lineMap (page : List Byte) : Nat := bitMap ((pageLines page).map lineSet)

theorem sparseRecord_eq (page : List Byte) : sparseRecord page =
    pad16 (leBytes 8 (lineMap page) ++ (setLines page).flatMap byteMap ++ (setLines page).flatMap nonzeros) := rfl

section
variable {page : List Byte} (h : page.length = 4096)
include h

theorem pageLines_eq : pageLines page = (List.range 64).map fun p => (page.drop (64 * p)).take 64 :=
  chunksOf_eq_map (by decide) 64 page h

theorem length_pageLines : (pageLines page).length = 64 := by rw [pageLines_eq h, List.length_map, List.length_range]

theorem length_of_mem_pageLines : ∀ l ∈ pageLines page, l.length = 64 := by
  intro l hl
  rw [pageLines_eq h, List.mem_map] at hl
  obtain ⟨p, hp, rfl⟩ := hl
  rw [List.mem_range] at hp
  rw [List.length_take, List.length_drop]
  omega

theorem testBit_lineMap {i : Nat} (hi : i < 64) : (lineMap page).testBit i = lineSet ((pageLines page).getD i []) := by
  rw [← length_pageLines h] at hi
  rw [lineMap, testBit_bitMap, List.getD_eq_getElem?_getD, List.getElem?_map, List.getElem?_eq_getElem hi, getD_of_lt _ hi]
  rfl

theorem lineMap_lt : lineMap page < 256 ^ 8 := by
  have := bitMap_lt ((pageLines page).map lineSet)
  rwa [List.length_map, length_pageLines h] at this

/-- As many bits of the line map are 1 as lines are set. -/
theorem count_lineMap : ((List.range 64).filter fun i => (lineMap page).testBit i).length = (setLines page).length := by
  have hlines : pageLines page = (List.range 64).map fun i => (pageLines page).getD i [] := by
    refine List.ext_getElem (by rw [length_pageLines h, List.length_map, List.length_range]) fun i hi _ => ?_
    rw [List.getElem_map, List.getElem_range, getD_of_lt _ hi]
  calc ((List.range 64).filter fun i => (lineMap page).testBit i).length
      = ((List.range 64).filter (lineSet ∘ fun i => (pageLines page).getD i [])).length :=
        congrArg List.length (List.filter_congr fun i hi => testBit_lineMap h (List.mem_range.mp hi))
    _ = (((List.range 64).map fun i => (pageLines page).getD i []).filter lineSet).length := by
        rw [List.filter_map, List.length_map]
    _ = (setLines page).length := by rw [← hlines, setLines]

theorem sparseLines_page (rest : List Byte) : sparseLines (lineMap page) 64 ((setLines page).flatMap byteMap)
    ((setLines page).flatMap nonzeros ++ rest) = page := by
  have hlines := sparseLines_eq (lineMap page) (pageLines page) rest (length_of_mem_pageLines h)
    (Nat.le_of_eq (length_pageLines h)) fun i hi => by
      rw [length_pageLines h] at hi ⊢
      rw [Nat.sub_self, Nat.zero_add, testBit_lineMap h hi]
  rw [length_pageLines h] at hlines
  exact hlines.trans (flatten_chunksOf 64 64 page h)

end


/-! ### The record of a page (R206) -/

theorem length_pad16 (bs : List Byte) : (pad16 bs).length = alignUp bs.length 16 := by
  have hle : bs.length ≤ alignUp bs.length 16 := by unfold alignUp cdiv; omega
  rw [pad16, List.length_append, List.length_replicate, Nat.add_sub_of_le hle]

/-- METHOD 0 is a page of zeros, METHOD 1 a SPARSE record shorter than the page, and METHOD 2 the page. -/
theorem pageRecord_cases (page : List Byte) :
    (page = List.replicate page.length 0 ∧ pageRecord page = (0, [])) ∨
    ((sparseRecord page).length < 4096 ∧ pageRecord page = (1, sparseRecord page)) ∨ pageRecord page = (2, page) := by
  unfold pageRecord
  split
  · next hz => exact Or.inl ⟨List.eq_replicate_of_mem fun b hb => by simpa using List.all_eq_true.mp hz b hb, rfl⟩
  · dsimp only
    split
    · next hlt => exact Or.inr (Or.inl ⟨hlt, rfl⟩)
    · exact Or.inr (Or.inr rfl)

/-- A record fills whole units of 16 bytes, at most a page's. -/
theorem length_pageRecord {page : List Byte} (h : page.length = 4096) :
    16 ∣ (pageRecord page).2.length ∧ (pageRecord page).2.length ≤ 4096 := by
  rcases pageRecord_cases page with ⟨_, hr⟩ | ⟨hlt, hr⟩ | hr
  · rw [hr]; exact ⟨⟨0, rfl⟩, by decide⟩
  · rw [hr]
    refine ⟨?_, Nat.le_of_lt hlt⟩
    rw [sparseRecord_eq, length_pad16]
    exact ⟨_, Nat.mul_comm ..⟩
  · rw [hr]; exact ⟨⟨256, h⟩, Nat.le_of_eq h⟩

/-! ### The page table and the records of a delta -/

/-- Units of 16 bytes that records fill. -/
def units (ps : List (Nat × List Byte)) : Nat := (ps.map fun x => x.2.length / 16).sum

/-- The page table entry of a record at unit `o`. -/
def tableEntry (x : Nat × List Byte) (o : Nat) : Nat := if x.1 = 0 then 0 else x.1 * 2 ^ 30 + o

theorem deltaGo_cons (o : Nat) (x : Nat × List Byte) (ps : List (Nat × List Byte)) : deltaGo o (x :: ps) =
    (tableEntry x o :: (deltaGo (o + x.2.length / 16) ps).1, x.2 ++ (deltaGo (o + x.2.length / 16) ps).2) := rfl

theorem deltaGo_append (xs ys : List (Nat × List Byte)) : ∀ o, deltaGo o (xs ++ ys) =
    ((deltaGo o xs).1 ++ (deltaGo (o + units xs) ys).1, (deltaGo o xs).2 ++ (deltaGo (o + units xs) ys).2) := by
  induction xs with
  | nil => exact fun o => rfl
  | cons x xs ih =>
    intro o
    have hu : o + x.2.length / 16 + units xs = o + units (x :: xs) := by
      rw [units, units, List.map_cons, List.sum_cons, Nat.add_assoc]
    rw [List.cons_append, deltaGo_cons, deltaGo_cons, ih, hu, List.cons_append, List.append_assoc]

theorem length_deltaGo_table (xs : List (Nat × List Byte)) : ∀ o, (deltaGo o xs).1.length = xs.length := by
  induction xs with
  | nil => exact fun o => rfl
  | cons x xs ih => exact fun o => congrArg (· + 1) (ih _)

theorem length_deltaGo_records (xs : List (Nat × List Byte)) : ∀ o, (∀ x ∈ xs, 16 ∣ x.2.length) →
    (deltaGo o xs).2.length = 16 * units xs := by
  induction xs with
  | nil => exact fun o _ => rfl
  | cons x xs ih =>
    intro o h
    have hx := Nat.mul_div_cancel' (h x (by simp))
    rw [deltaGo_cons, List.length_append, ih _ fun y hy => h y (by simp [hy])]
    simp only [units, List.map_cons, List.sum_cons]
    omega

theorem units_le (xs : List (Nat × List Byte)) (h : ∀ x ∈ xs, x.2.length ≤ 4096) : units xs ≤ 256 * xs.length := by
  induction xs with
  | nil => exact Nat.le_refl 0
  | cons x xs ih =>
    have hx := h x (by simp)
    have hxs := ih fun y hy => h y (by simp [hy])
    simp only [units, List.map_cons, List.sum_cons, List.length_cons] at hxs ⊢
    omega

theorem length_flatMap_leBytes (n : Nat) (es : List Nat) : (es.flatMap (leBytes n)).length = n * es.length := by
  induction es with
  | nil => rfl
  | cons e es ih => rw [List.flatMap_cons, List.length_append, leBytes_length, ih, List.length_cons, Nat.mul_succ, Nat.add_comm]

theorem fit_of_le {n : Nat} {bs : List Byte} (h : bs.length ≤ n) : fit n bs = bs ++ List.replicate (n - bs.length) 0 := by
  rw [fit, List.take_of_length_le h]

/-- Bytes of a delta's page table. -/
def tableBytes (pages : Nat) : Nat := alignUp (4 * pages) 16

theorem encodeDelta_eq (pages : Nat) (img base : List Byte) : encodeDelta pages img base =
    let x := deltaGo (tableBytes pages / 16) ((chunksOf 4096 pages (xorBytes img base)).map pageRecord)
    fit (tableBytes pages) (x.1.flatMap (leBytes 4)) ++ x.2 := rfl

/-- Page `p` of a run. -/
def pageOf (bs : List Byte) (p : Nat) : List Byte := (bs.drop (4096 * p)).take 4096

/-- `x` stands in `d` from byte `n` on. -/
def StandsAt (n : Nat) (x d : List Byte) : Prop := ∃ pre post, d = pre ++ x ++ post ∧ pre.length = n

theorem StandsAt.append_right {n : Nat} {x d : List Byte} (h : StandsAt n x d) (ys : List Byte) : StandsAt n x (d ++ ys) := by
  obtain ⟨pre, post, rfl, rfl⟩ := h
  exact ⟨pre, post ++ ys, by simp only [List.append_assoc], rfl⟩

theorem StandsAt.append_left {n : Nat} {x d : List Byte} (h : StandsAt n x d) (ys : List Byte) :
    StandsAt (ys.length + n) x (ys ++ d) := by
  obtain ⟨pre, post, rfl, rfl⟩ := h
  exact ⟨ys ++ pre, post, by simp only [List.append_assoc], List.length_append⟩

theorem StandsAt.fit {n m : Nat} {x d : List Byte} (h : StandsAt n x d) (hd : d.length ≤ m) : StandsAt n x (fit m d) := by
  rw [fit_of_le hd]
  exact h.append_right _

/-- A part of a run stands where the run stands. -/
theorem StandsAt.part {n : Nat} {x y z d : List Byte} (h : StandsAt n (x ++ y ++ z) d) : StandsAt (n + x.length) y d := by
  obtain ⟨pre, post, rfl, rfl⟩ := h
  exact ⟨pre ++ x, z ++ post, by simp only [List.append_assoc], List.length_append⟩

/-- Where the entry of a record stands in the page table, and where the record stands among the records. -/
theorem deltaGo_standsAt {xs : List (Nat × List Byte)} (hxs : ∀ x ∈ xs, 16 ∣ x.2.length) (r : Nat × List Byte)
    (ys : List (Nat × List Byte)) (o : Nat) :
    StandsAt (4 * xs.length) (leBytes 4 (tableEntry r (o + units xs))) ((deltaGo o (xs ++ r :: ys)).1.flatMap (leBytes 4)) ∧
      StandsAt (16 * units xs) r.2 (deltaGo o (xs ++ r :: ys)).2 := by
  let rest := deltaGo (o + units xs + r.2.length / 16) ys
  rw [deltaGo_append, deltaGo_cons]
  refine ⟨⟨(deltaGo o xs).1.flatMap (leBytes 4), rest.1.flatMap (leBytes 4), ?_, ?_⟩, ⟨(deltaGo o xs).2, rest.2, ?_, ?_⟩⟩
  · simp only [List.flatMap_append, List.flatMap_cons, List.append_assoc, rest]
  · rw [length_flatMap_leBytes, length_deltaGo_table]
  · rw [List.append_assoc]
  · exact length_deltaGo_records xs o hxs

/-- Pages of a run, `n` from page `i` on, as a delta has them. -/
def pageRecords (bs : List Byte) (i n : Nat) : List (Nat × List Byte) :=
  (List.range n).map fun q => pageRecord (pageOf bs (i + q))

theorem length_pageRecords (bs : List Byte) (i n : Nat) : (pageRecords bs i n).length = n := by
  rw [pageRecords, List.length_map, List.length_range]

section
variable {pages p : Nat} {bs : List Byte} (h : bs.length = 4096 * pages) (hp : p < pages)
include h hp

theorem length_pageOf : (pageOf bs p).length = 4096 := by
  rw [pageOf, List.length_take, List.length_drop, h]
  omega

theorem map_pageRecord_chunksOf : (chunksOf 4096 pages bs).map pageRecord =
    pageRecords bs 0 p ++ pageRecord (pageOf bs p) :: pageRecords bs (p + 1) (pages - p - 1) := by
  rw [chunksOf_eq_map (by decide) _ _ h, List.map_map, show pages = p + 1 + (pages - p - 1) by omega, List.range_add,
    List.range_succ, show p + 1 + (pages - p - 1) - p - 1 = pages - p - 1 by omega]
  simp only [pageRecords, List.map_append, List.map_map, List.append_assoc, Nat.zero_add]
  rfl

theorem length_of_mem_pageRecords : ∀ x ∈ pageRecords bs 0 p, 16 ∣ x.2.length ∧ x.2.length ≤ 4096 := by
  intro x hx
  obtain ⟨q, hq, rfl⟩ := List.mem_map.mp hx
  rw [List.mem_range] at hq
  exact length_pageRecord (length_pageOf h (by omega))

end

/-- The entry of a page stands in the page table, and its record at the place that the entry names. -/
theorem encodeDelta_page {pages p : Nat} {img base : List Byte} (hx : (xorBytes img base).length = 4096 * pages)
    (hp : p < pages) (hpages : 257 * pages + 1 ≤ 2 ^ 30) :
    let r := pageRecord (pageOf (xorBytes img base) p)
    ∃ o, o < 2 ^ 30 ∧ StandsAt (4 * p) (leBytes 4 (tableEntry r o)) (encodeDelta pages img base) ∧
      StandsAt (16 * o) r.2 (encodeDelta pages img base) := by
  intro r
  rw [encodeDelta_eq]
  let xs := pageRecords (xorBytes img base) 0 p
  let t := deltaGo (tableBytes pages / 16) ((chunksOf 4096 pages (xorBytes img base)).map pageRecord)
  have hxs := length_of_mem_pageRecords hx hp
  have hunits := units_le xs fun x hx => (hxs x hx).2
  have hxsLen : xs.length = p := length_pageRecords ..
  have htable : 16 * (tableBytes pages / 16) = tableBytes pages ∧ 4 * pages ≤ tableBytes pages ∧
      tableBytes pages ≤ 4 * pages + 15 := by unfold tableBytes alignUp cdiv; omega
  have hlen : (t.1.flatMap (leBytes 4)).length ≤ tableBytes pages := by
    rw [length_flatMap_leBytes, length_deltaGo_table, List.length_map, chunksOf_eq_map (by decide) _ _ hx, List.length_map,
      List.length_range]
    exact htable.2.1
  obtain ⟨hentry, hrecord⟩ := deltaGo_standsAt (fun x hx => (hxs x hx).1) r
    (pageRecords (xorBytes img base) (p + 1) (pages - p - 1)) (tableBytes pages / 16)
  rw [← map_pageRecord_chunksOf hx hp, hxsLen] at hentry
  rw [← map_pageRecord_chunksOf hx hp] at hrecord
  refine ⟨tableBytes pages / 16 + units xs, by omega, (hentry.fit hlen).append_right t.2, ?_⟩
  have hplace := hrecord.append_left (fit (tableBytes pages) (t.1.flatMap (leBytes 4)))
  rwa [fit_length, ← htable.1, ← Nat.mul_add, htable.1] at hplace

/-! ### Reading a page of a delta (R206) -/

section
variable {s : State} {a p o : Nat} (ho : o < 2 ^ 30)
include ho

theorem deltaPage_of_sparse (h : memNat s.mem (a + 4 * p) 4 = 1 * 2 ^ 30 + o) :
    let at' := a + 16 * o
    let lm := memNat s.mem at' 8
    let n := ((List.range 64).filter fun i => lm.testBit i).length
    deltaPage s a p = sparseLines lm 64 (s.load (at' + 8) (8 * n)) (s.load (at' + 8 + 8 * n) 4096) := by
  have hm : (1 * 2 ^ 30 + o) / 2 ^ 30 = 1 := by omega
  have hr : (1 * 2 ^ 30 + o) % 2 ^ 30 = o := by omega
  unfold deltaPage
  simp only [h, hm, hr]

theorem deltaPage_of_plain (h : memNat s.mem (a + 4 * p) 4 = 2 * 2 ^ 30 + o) :
    deltaPage s a p = s.load (a + 16 * o) 4096 := by
  have hm : (2 * 2 ^ 30 + o) / 2 ^ 30 = 2 := by omega
  have hr : (2 * 2 ^ 30 + o) % 2 ^ 30 = o := by omega
  unfold deltaPage
  simp only [h, hm, hr]

end

theorem deltaPage_of_same {s : State} {a p : Nat} (h : memNat s.mem (a + 4 * p) 4 = 0) :
    deltaPage s a p = List.replicate 4096 0 := by
  have hm : 0 / 2 ^ 30 = 0 := rfl
  unfold deltaPage
  simp only [h, hm]

theorem StandsAt.load {n : Nat} {x d : List Byte} (h : StandsAt n x d) (s : State) (a : Nat) :
    (s.store a d).load (a + n) x.length = x := by
  obtain ⟨pre, post, rfl, rfl⟩ := h
  exact load_store s a pre x post

theorem StandsAt.load_of_le {n : Nat} {x d : List Byte} (h : StandsAt n x d) (s : State) (a : Nat) {k : Nat}
    (hk : x.length ≤ k) : ∃ rest, (s.store a d).load (a + n) k = x ++ rest := by
  obtain ⟨pre, post, rfl, rfl⟩ := h
  exact load_store_of_le s a pre x post hk

theorem StandsAt.memNat {n k x : Nat} {d : List Byte} (h : StandsAt n (leBytes k x) d) (hx : x < 256 ^ k) (s : State) (a : Nat) :
    memNat (s.store a d).mem (a + n) k = x := by
  have hload := h.load s a
  rw [leBytes_length] at hload
  exact (congrArg leNat hload).trans (leNat_leBytes k x hx)

/-- A SPARSE record in memory gives its page. -/
theorem sparseLines_of_standsAt {page d : List Byte} {n : Nat} (h : page.length = 4096)
    (hlt : (sparseRecord page).length < 4096) (hd : StandsAt n (sparseRecord page) d) (s : State) (a : Nat) :
    let t := s.store a d
    let lm := memNat t.mem (a + n) 8
    let k := ((List.range 64).filter fun i => lm.testBit i).length
    sparseLines lm 64 (t.load (a + n + 8) (8 * k)) (t.load (a + n + 8 + 8 * k) 4096) = page := by
  let maps := (setLines page).flatMap byteMap
  let bytes := (setLines page).flatMap nonzeros
  let padding := List.replicate (alignUp (leBytes 8 (lineMap page) ++ maps ++ bytes).length 16 -
    (leBytes 8 (lineMap page) ++ maps ++ bytes).length) (0 : Byte)
  have hrec : sparseRecord page = leBytes 8 (lineMap page) ++ maps ++ bytes ++ padding := rfl
  have hmaps : maps.length = 8 * (setLines page).length := by
    rw [List.length_flatMap, List.map_congr_left fun l _ => byteMap_length l, List.map_const', List.sum_replicate, smul_eq_mul,
      Nat.mul_comm]
  have hbytes : bytes.length ≤ 4096 := by
    rw [hrec] at hlt
    simp only [List.length_append] at hlt
    omega
  rw [hrec] at hd
  have hdMap : StandsAt n (leBytes 8 (lineMap page)) d := by
    rw [List.append_assoc, List.append_assoc] at hd
    exact hd.part (x := [])
  have hdMaps : StandsAt (n + 8) maps d := by
    rw [List.append_assoc (_ ++ maps)] at hd
    have := hd.part
    rwa [leBytes_length] at this
  have hdBytes : StandsAt (n + 8 + 8 * (setLines page).length) bytes d := by
    have := hd.part
    rwa [List.length_append, leBytes_length, hmaps, ← Nat.add_assoc] at this
  intro t lm k
  have hlm : lm = lineMap page := hdMap.memNat (lineMap_lt h) s a
  have hk : k = (setLines page).length := by rw [← count_lineMap h, ← hlm]
  have hloadMaps : t.load (a + n + 8) (8 * k) = maps := by
    rw [hk, ← hmaps, Nat.add_assoc]
    exact hdMaps.load s a
  obtain ⟨rest, hrest⟩ := hdBytes.load_of_le s a hbytes
  have hloadBytes : t.load (a + n + 8 + 8 * k) 4096 = bytes ++ rest := by
    rw [hk, Nat.add_assoc, Nat.add_assoc, ← Nat.add_assoc n]
    exact hrest
  rw [hloadMaps, hloadBytes, hlm]
  exact sparseLines_page h rest

/-- Each page of a delta in memory is the difference of the images there. -/
theorem deltaPage_encodeDelta {pages p : Nat} {img base : List Byte} (hx : (xorBytes img base).length = 4096 * pages)
    (hp : p < pages) (hpages : 257 * pages + 1 ≤ 2 ^ 30) (s : State) (a : Nat) :
    deltaPage (s.store a (encodeDelta pages img base)) a p = pageOf (xorBytes img base) p := by
  have hlen := length_pageOf hx hp
  obtain ⟨o, ho, hentry, hrecord⟩ := encodeDelta_page hx hp hpages
  rcases pageRecord_cases (pageOf (xorBytes img base) p) with ⟨hzero, hr⟩ | ⟨hlt, hr⟩ | hr
  · rw [hr] at hentry
    rw [deltaPage_of_same (hentry.memNat (show 0 < 256 ^ 4 by decide) s a), hzero, hlen]
  · rw [hr] at hentry hrecord
    rw [deltaPage_of_sparse ho (hentry.memNat (show 1 * 2 ^ 30 + o < 256 ^ 4 by omega) s a)]
    exact sparseLines_of_standsAt hlen hlt hrecord s a
  · rw [hr] at hentry hrecord
    rw [deltaPage_of_plain ho (hentry.memNat (show 2 * 2 ^ 30 + o < 256 ^ 4 by omega) s a), ← hlen]
    exact hrecord.load s a

/-- Settles O22: each page of the delta reads back as the XOR of the two images there, whatever METHOD its record has, and the
XOR applied to the base gives the image. -/
theorem deltaRoundTrip : Obligations.DeltaRoundTrip := by
  unfold Obligations.DeltaRoundTrip
  intro s pages a p img base himg hbase hp hpages d
  have hx : (xorBytes img base).length = 4096 * pages := by rw [length_xorBytes, himg, hbase, Nat.min_self]
  rw [deltaPage_encodeDelta hx hp hpages, pageOf, xorBytes_slice]
  refine xorBytes_xorBytes _ _ ?_
  rw [List.length_take, List.length_take, List.length_drop, List.length_drop, himg, hbase]

/-! ### Bytes written and one stage changed -/

theorem of_live {g : Stage} (h : g.live = true) : g.loaded = true ∧ g.haltCode = 0 := by
  simp only [Stage.live, Bool.and_eq_true, beq_iff_eq] at h
  exact ⟨h.1.1, h.2⟩

/-- A run of bytes goes into package memory, and stage `v` changes. -/
def writeThen (a : Nat) (bs : List Byte) (v : Nat) (f : Stage → Stage) (s : State) : State :=
  ((s.store a bs).mend a bs.length).updStage v f

section
variable (a : Nat) (bs : List Byte) (v : Nat) (f : Stage → Stage) (s : State)

theorem writeThen_frame : writeThen a bs v f s = { s with
    mem := (writeThen a bs v f s).mem, badWords := (writeThen a bs v f s).badWords
    stages := (writeThen a bs v f s).stages } := rfl

theorem memRead_writeThen (b : Nat) : memRead (writeThen a bs v f s).mem b =
    if a ≤ b ∧ b < a + bs.length then bs.getD (b - a) 0 else memRead s.mem b := memRead_memWriteBytes s.mem a bs b

theorem writeThen_stage_self : (writeThen a bs v f s).stage v = f (s.stage v) := State.updStage_stage_self _ v f

theorem writeThen_stage_of_ne {u : Nat} (h : u ≠ v) : (writeThen a bs v f s).stage u = s.stage u :=
  State.updStage_stage_of_ne _ f h

end

/-! ### Shards are sent (R214) -/

/-- What waits keeps waiting when one more message is queued. -/
theorem mem_queued_queueColl {m x : OutMsg} {s : State} (hx : x ∈ queued s) : x ∈ queued (queueColl m s) := by
  unfold queueColl
  split
  · next p _ =>
    unfold queued at hx ⊢
    rw [List.mem_append, List.mem_flatMap] at hx ⊢
    refine hx.imp_right fun ⟨i, hi, hout⟩ => ⟨i, hi, ?_⟩
    rw [queueOn, State.updPort_port]
    split
    · next e => subst e; exact List.mem_append_left _ hout
    · exact hout
  · unfold queued at hx ⊢
    rw [List.mem_append] at hx ⊢
    exact hx.imp_left (List.mem_append_left _)

/-- One message for each rank of a list: all wait, and nothing but the queues changes. -/
theorem forEach_queueColl_queues {f : Nat → OutMsg} (hf : ∀ q, (f q).clause = none) (qs : List Nat) : ∀ s : State,
    let t := forEach qs (fun q => queueColl (f q)) s
    QueueOnly s t ∧ (∀ x ∈ queued s, x ∈ queued t) ∧ ∀ q ∈ qs, f q ∈ queued t := by
  induction qs with
  | nil => exact fun s => ⟨rfl, fun _ h => h, fun _ h => absurd h (by simp)⟩
  | cons q qs ih =>
    intro s
    obtain ⟨hone, hmem⟩ := queueColl_queues (hf q) s
    obtain ⟨honly, hkeep, hall⟩ := ih (queueColl (f q) s)
    refine ⟨queueOnly_trans hone honly, fun x hx => hkeep x (mem_queued_queueColl hx), fun r hr => ?_⟩
    rcases List.mem_cons.mp hr with rfl | hr
    · exact hkeep _ hmem
    · exact hall r hr

/-- The owner's shard of the BUILDING image has been sent. -/
def noteShardSent (g : Stage) : Stage := { g with update := { g.update with shardSent := true } }

section
variable {v : Nat} {s : State} {x : TenseSlot} (hx : ((s.stage v).tenses.find? fun t => t.state == 1) = some x)
include hx

theorem shardSend_of_sent (h : (s.stage v).update.shardSent = true) : shardSend v s = s := by
  unfold shardSend
  simp only [hx, h, Bool.or_true, if_true]

theorem shardSend_sends (hlive : (s.stage v).live = true)
    (hfinal : (s.stage v).dig = .closed ∨ (s.stage v).committing.isSome = true) (hz : 1 < s.job.z)
    (hnot : (s.stage v).update.shardSent = false)
    (hgood : s.badAmong ((s.stage v).slotRecord v x.commit ++
      ((s.stage v).shardRanges s.job.z s.shard).map fun r => (x.addr + r.1, r.2)) = none) :
    let bs := shardBytes ((s.stage v).shardRanges s.job.z s.shard) (s.imageAt (s.stage v) x.addr)
    shardSend v s = (forEach s.subgroup (fun q => queueColl
      (shardMessage v (s.stage v).image.stage x.commit s.shard q bs (shardDigest bs))) s).updStage v noteShardSent := by
  have hopen : ((s.stage v).dig != .closed && (s.stage v).committing.isNone) = false := by
    rcases hfinal with h | h
    · rw [h]; rfl
    · rw [Option.isNone_eq_false_iff.mpr h, Bool.and_false]
  have hz' : decide (s.job.z ≤ 1) = false := decide_eq_false (by omega)
  unfold shardSend
  simp only [hx, hlive, hopen, hz', hnot, hgood, Bool.not_true, Bool.or_false, Bool.false_eq_true, if_false]
  rfl

end

/-! ### The reduced shard (R229, R233) -/

/-- Nothing is submitted while no update is ready. -/
theorem trySubmit_of_not_ready {v : Nat} {s : State} (h : (s.stage v).readyUpdates ≤ (s.stage v).update.submitted) (fuel : Nat) :
    trySubmit v fuel s = s := by
  cases fuel with
  | zero => rfl
  | succ n =>
    have hj : decide ((s.stage v).update.submitted + 1 ≤ (s.stage v).readyUpdates) = false := decide_eq_false (by omega)
    unfold trySubmit
    simp only [hj, Bool.and_false, Bool.false_and, Bool.false_eq_true, if_false]

/-- A stage holds the reduced shard of an update, and the contributions to it go. -/
def holdReduced (r : Reduced) (g : Stage) : Stage := { g with
  update := { g.update with reductions := r.update, reduced := some r
                            forms := g.update.forms.filter fun x => x.1 != r.update
                            contributions := g.update.contributions.filter fun c => c.update != r.update } }

theorem reducedComplete_eq {v : Nat} {s : State} :
    let g := s.stage v
    let j := g.update.reductions + 1
    let cs := g.contribsOf j s.job.g
    g.live = true → g.update.reduced = none → cs.length = s.job.g → j ≤ g.update.submitted →
      g.readyUpdates ≤ g.update.submitted →
      reducedComplete v s = writeThen (g.gradSlot j) (List.replicate g.gradBytes 0) v
        (holdReduced ⟨j, (reduceShard (g.wire j) cs).2 || cs.any (·.nonFinite), (reduceShard (g.wire j) cs).1⟩) s := by
  intro g j cs hlive hred hlen hsub hready
  let r : Reduced := ⟨j, (reduceShard (g.wire j) cs).2 || cs.any (·.nonFinite), (reduceShard (g.wire j) cs).1⟩
  have hdone : reducedComplete v s =
      trySubmit v 2 (writeThen (g.gradSlot j) (List.replicate g.gradBytes 0) v (holdReduced r) s) := by
    have hsub' : decide (g.update.submitted < j) = false := decide_eq_false (by omega)
    have hlen' : (cs.length != s.job.g) = false := by simpa using hlen
    unfold reducedComplete writeThen
    rw [List.length_replicate]
    refine if_neg ?_
    simp only [Bool.or_eq_true, not_or, Bool.not_eq_true]
    exact ⟨⟨⟨by rw [hlive]; rfl, by rw [hred]; rfl⟩, hlen'⟩, hsub'⟩
  rw [hdone]
  refine trySubmit_of_not_ready ?_ 2
  rw [writeThen_stage_self]
  exact hready

/-! ### The vote (R231) -/

/-- The sum of the votes is the difference of the counts of +1 and -1. -/
theorem foldl_votes (cs : List Nat) : ∀ acc : Int,
    (cs.map fun c => if c = 1 then (1 : Int) else if c = 3 then -1 else 0).foldl (· + ·) acc =
      acc + cs.count 1 - cs.count 3 := by
  induction cs with
  | nil => intro acc; simp
  | cons c cs ih =>
    intro acc
    rw [List.map_cons, List.foldl_cons, ih]
    by_cases h1 : c = 1
    · subst h1; simp; omega
    · by_cases h3 : c = 3
      · subst h3; simp; omega
      · simp [h1, h3]

theorem voteCode_eq (cs : List Nat) :
    voteCode cs = if cs.count 3 < cs.count 1 then 1 else if cs.count 1 < cs.count 3 then 3 else 0 := by
  have hsum := foldl_votes cs 0
  unfold voteCode
  rcases Nat.lt_trichotomy (cs.count 1) (cs.count 3) with h | h | h
  · rw [if_neg (by omega), if_pos (by omega), if_neg (by omega), if_pos h]
  · rw [if_neg (by omega), if_neg (by omega), if_neg (by omega), if_neg (by omega)]
  · rw [if_pos (by omega), if_pos h]

/-- Settles O24: the shard's messages are queued one after another, the reduction clears the gradient slot in one write, and a
sum of votes depends on their counts alone. -/
theorem gradientAndVote : Obligations.GradientAndVote := by
  unfold Obligations.GradientAndVote
  refine ⟨⟨?shards, ?reduction⟩, fun cs ds _ hperm => ⟨by rw [voteCode_eq, voteCode_eq, hperm.count_eq, hperm.count_eq],
    voteCode_eq cs⟩⟩
  case shards =>
    intro v s x g rs bs hlive hx hfinal hz hgood
    refine ⟨fun hsent => congrArg Host.Outcome.next (shardSend_of_sent hx hsent), fun hnot => ?_⟩
    let f (q : Nat) : OutMsg := shardMessage v g.image.stage x.commit s.shard q bs (shardDigest bs)
    obtain ⟨honly, _, hall⟩ := forEach_queueColl_queues (f := f) (fun _ => rfl) s.subgroup s
    refine ⟨(forEach s.subgroup (fun q => queueColl (f q)) s).updStage v noteShardSent,
      congrArg Host.Outcome.next (shardSend_sends hx hlive hfinal hz hnot hgood), ?_, ?_, fun u hu => ?_, hall⟩
    · rw [honly]; rfl
    · rw [State.updStage_stage_self, honly]; rfl
    · rw [State.updStage_stage_of_ne _ _ hu, honly]; rfl
  case reduction =>
    intro v s g j cs hlive hred hlen hsub hready
    refine ⟨_, congrArg Host.Outcome.next (reducedComplete_eq hlive hred hlen hsub hready), writeThen_frame ..,
      fun b => ?_, ?_, ?_, ?_, fun u hu => writeThen_stage_of_ne _ _ _ _ _ hu⟩
    · have hzero : ∀ i, (List.replicate g.gradBytes (0 : Byte)).getD i 0 = 0 := fun i => by simp
      rw [memRead_writeThen, List.length_replicate, hzero]
    · rw [writeThen_stage_self]; rfl
    · rw [writeThen_stage_self]; rfl
    · rw [writeThen_stage_self]
      intro c hc
      simpa using (List.mem_filter.mp hc).2

/-! ### Memory that a write does not meet -/

theorem memBytes_congr {m m' : Memory} (n : Nat) : ∀ a, (∀ b, a ≤ b → b < a + n → memRead m b = memRead m' b) →
    memBytes m a n = memBytes m' a n := by
  induction n with
  | zero => exact fun _ _ => rfl
  | succ n ih =>
    intro a h
    exact congrArg₂ List.cons (h a (Nat.le_refl a) (by omega)) (ih (a + 1) fun b hb hlt => h b (by omega) (by omega))

theorem memNat_memWriteBytes_of_apart (m : Memory) {a b n : Nat} {bs : List Byte} (h : b + n ≤ a ∨ a + bs.length ≤ b) :
    memNat (memWriteBytes m a bs) b n = memNat m b n :=
  congrArg leNat (memBytes_congr n b fun _ _ _ => memRead_memWriteBytes_of_out _ _ _ _ (by omega))

/-! ### The work after a flip (R205) -/

theorem updTense_getElem? (g : Stage) (i k : Nat) (f : TenseSlot → TenseSlot) :
    (g.updTense i f).tenses[k]? = if k = i then g.tenses[k]?.map f else g.tenses[k]? := by
  rw [Stage.updTense, List.getElem?_mapIdx]
  split
  · rfl
  · exact Option.map_id'

/-- Settling leaves every slot that is not PAST_FULL. -/
theorem flipSettle_getElem? {g : Stage} {k : Nat} (h : ∀ y, g.tenses[k]? = some y → y.state ≠ 3) :
    (Stage.flipSettle g).tenses[k]? = g.tenses[k]? := by
  unfold Stage.flipSettle
  cases g.flip with
  | none => rfl
  | some j =>
    dsimp only
    split
    · rfl
    · split
      · rfl
      · next i hslot =>
        split
        · rw [updTense_getElem?, if_neg]
          rintro rfl
          split at hslot
          · split at hslot
            · next y hy =>
              split at hslot
              · next hs =>
                cases hslot
                simp only [Bool.and_eq_true, beq_iff_eq] at hs
                exact h y hy hs.1
              · cases hslot
            · cases hslot
          · cases hslot
        · rfl

/-- With nothing left to rebase, an old present that is encoded becomes PAST_DELTA. -/
theorem flipSettle_of_encoded {g : Stage} {j : FlipJob} {i : Nat} {y : TenseSlot} (hflip : g.flip = some j)
    (henc : j.encoded = true) (hreb : j.rebases = []) (hslot : j.slot = some i) (hy : g.tenses[i]? = some y)
    (hst : y.state = 3) (hcommit : y.commit = j.oldCommit) :
    Stage.flipSettle g = { g.updTense i (fun t => { t with
      state := 4, base := g.presentCommit, addr := g.deltaAddr i, dsize := j.dsize }) with flip := none } := by
  unfold Stage.flipSettle
  simp [hflip, henc, hreb, hslot, hy, hst, hcommit]

theorem presentCommit_eq {g : Stage} {p : TenseSlot} (h : (g.tenses.find? fun t => t.state == 2) = some p) :
    g.presentCommit = p.commit := by
  unfold Stage.presentCommit
  rw [h]

/-! ### PAST_ENCODE, REBASE and SPILL (R205, R206, R208, R209) -/

/-- None of the three goes on while a fence runs (R451). -/
theorem pastEncode_of_fenced {s : State} (h : s.fenced = true) (v : Nat) : pastEncode v s = s := by
  unfold pastEncode
  dsimp only
  split
  · rw [h, if_pos (by simp)]
  · rfl

theorem rebase_of_fenced {s : State} (h : s.fenced = true) (v i : Nat) : rebase v i s = s := by
  unfold rebase
  dsimp only
  split
  · rw [h, if_pos (by simp)]
  · rfl

theorem spill_of_fenced {s : State} (h : s.fenced = true) (v i : Nat) : spill v i s = s := by
  unfold spill
  dsimp only
  split
  · rfl
  · rw [h, if_pos (by simp)]

/-- The delta of the old present in slot `i` is formed. -/
def noteEncoded (j : FlipJob) (i n : Nat) (g : Stage) : Stage :=
  Stage.flipSettle { g with flip := some { j with encoded := true, slot := some i, dsize := n } }

/-- A delta has another base. -/
def noteRebased (j : FlipJob) (i commit n : Nat) (g : Stage) : Stage :=
  Stage.flipSettle { g.updTense i (fun t => { t with base := commit, dsize := n }) with
    flip := some { j with encoded := true, rebases := j.rebases.filter (· != i) } }

/-- A delta has become a host copy. -/
def noteSpilled (i a : Nat) (g : Stage) : Stage :=
  Stage.flipSettle (g.updTense i fun t => { t with state := 5, addr := a, dsize := 0, base := 0 })

section
variable {v : Nat} {s : State} (hlive : (s.stage v).live = true) (hfence : s.fenced = false)
include hlive hfence

theorem pastEncode_encodes {j : FlipJob} {p : TenseSlot} {i : Nat} (hflip : (s.stage v).flip = some j)
    (hp : ((s.stage v).tenses.find? fun t => t.state == 2) = some p) (henc : j.encoded = false) (hslot : j.slot = some i) :
    let g := s.stage v
    let old := g.image.buffers.getD j.oldBuffer 0
    let d := encodeDelta g.pages (s.imageAt g old) (s.imageAt g p.addr)
    s.badAmong (g.slotRecord v p.commit ++ [(old, g.pages * 4096), (p.addr, g.pages * 4096)]) = none →
    g.deltaBytes + d.length ≤ g.pastBudget →
    pastEncode v s = writeThen (g.deltaAddr i) d v (noteEncoded j i (d.length / 16)) s := by
  intro g old d hgood hfits
  obtain ⟨hloaded, hhalt⟩ := of_live hlive
  have hfits' : decide (g.deltaBytes + d.length ≤ g.pastBudget) = true := decide_eq_true hfits
  unfold pastEncode
  simp only [hflip, hp, henc, hslot, hloaded, hhalt, hfence, hgood, old, g, d, hfits', bne_self_eq_false, Bool.not_true,
    Bool.or_false, Bool.false_and, Bool.true_or, Bool.false_eq_true, if_false]
  rfl

theorem rebase_rebases {j : FlipJob} {p x : TenseSlot} {i : Nat} (hflip : (s.stage v).flip = some j)
    (hp : ((s.stage v).tenses.find? fun t => t.state == 2) = some p) (henc : j.encoded = true)
    (hi : j.rebases.contains i = true) (hx : (s.stage v).tenses[i]? = some x) (hst : x.state = 4)
    (hgood : s.badAmong (tenseAddr v i :: (p.addr, (s.stage v).pages * 4096) :: (s.stage v).sourceRanges x) = none) :
    let g := s.stage v
    let d := encodeDelta g.pages (s.materialise g x) (s.imageAt g p.addr)
    rebase v i s = writeThen x.addr d v (noteRebased j i p.commit (d.length / 16)) s := by
  obtain ⟨_, hhalt⟩ := of_live hlive
  unfold rebase
  simp only [hflip, hp, henc, hi, hx, hst, hhalt, hfence, hgood, bne_self_eq_false, Bool.not_true, Bool.or_false, Bool.false_and,
    Bool.false_eq_true, if_false]
  rfl

theorem spill_spills {x : TenseSlot} {i : Nat} (hx : (s.stage v).tenses[i]? = some x) (hst : x.state = 4)
    (hnewest : ∀ u ∈ (s.stage v).tenses, u.state = 4 → u.commit ≤ x.commit) (hroom : (s.stage v).spillRoom = true)
    (hdue : Stage.spillDue s (s.stage v) = true) (hgood : s.badAmong (tenseAddr v i :: (s.stage v).sourceRanges x) = none)
    (hoff : s.offloadWaits = false) (hplace : 2 ^ 47 ≤ (s.stage v).spillPlace) :
    let g := s.stage v
    spill v i s = ({ s with hostMem := memWriteBytes s.hostMem (g.spillPlace - 2 ^ 47) (s.materialise g x) } : State).updStage v
      (noteSpilled i g.spillPlace) := by
  intro g
  obtain ⟨_, hhalt⟩ := of_live hlive
  have hall : (g.tenses.all fun u => u.state != 4 || decide (u.commit ≤ x.commit)) = true := by
    rw [List.all_eq_true]
    intro u hu
    by_cases h4 : u.state = 4
    · simp [hnewest u hu h4]
    · simp [h4]
  have hput : s.put g.spillPlace (s.materialise g x) =
      { s with hostMem := memWriteBytes s.hostMem (g.spillPlace - 2 ^ 47) (s.materialise g x) } := if_pos hplace
  unfold spill
  simp only [hx, hst, hall, hroom, hdue, hhalt, hfence, hgood, hoff, hput, g, bne_self_eq_false, Bool.not_true, Bool.or_false,
    Bool.false_and, Bool.false_eq_true, if_false]
  rfl

end

/-! ### What the three leave in the slot (R205, R209) -/

theorem noteEncoded_slot {g : Stage} {j : FlipJob} {i : Nat} {p y : TenseSlot} (n : Nat)
    (hp : (g.tenses.find? fun t => t.state == 2) = some p) (hreb : j.rebases = []) (hy : g.tenses[i]? = some y)
    (hst : y.state = 3) (hcommit : y.commit = j.oldCommit) :
    (noteEncoded j i n g).flip = none ∧ (noteEncoded j i n g).tenses[i]? =
      some { y with state := 4, base := p.commit, addr := g.deltaAddr i, dsize := n } := by
  have hsettle := flipSettle_of_encoded (g := { g with flip := some { j with encoded := true, slot := some i, dsize := n } })
    rfl rfl hreb rfl hy hst hcommit
  rw [noteEncoded, hsettle]
  refine ⟨rfl, ?_⟩
  dsimp only
  rw [updTense_getElem?, if_pos rfl]
  dsimp only
  rw [hy, Option.map_some, ← presentCommit_eq hp]
  rfl

theorem noteRebased_slot {g : Stage} {j : FlipJob} {i : Nat} {x : TenseSlot} (commit n : Nat) (hx : g.tenses[i]? = some x)
    (hst : x.state = 4) : (noteRebased j i commit n g).tenses[i]? = some { x with base := commit, dsize := n } := by
  have hupd : (g.updTense i fun t => { t with base := commit, dsize := n }).tenses[i]? =
      some { x with base := commit, dsize := n } := by rw [updTense_getElem?, if_pos rfl, hx]; rfl
  refine (flipSettle_getElem? fun y hy => ?_).trans hupd
  obtain rfl := Option.some.inj (hupd.symm.trans hy)
  simp [hst]

theorem noteSpilled_slot {g : Stage} {i : Nat} {x : TenseSlot} (a : Nat) (hx : g.tenses[i]? = some x) :
    (noteSpilled i a g).tenses[i]? = some { x with state := 5, addr := a, dsize := 0, base := 0 } := by
  have hupd : (g.updTense i fun t => { t with state := 5, addr := a, dsize := 0, base := 0 }).tenses[i]? =
      some { x with state := 5, addr := a, dsize := 0, base := 0 } := by rw [updTense_getElem?, if_pos rfl, hx]; rfl
  refine (flipSettle_getElem? fun y hy => ?_).trans hupd
  obtain rfl := Option.some.inj (hupd.symm.trans hy)
  simp

/-! ### VIEW_FILL (R203, R204) -/

/-- The address of a view. -/
def viewAddr (g : Stage) (back : Bool) : Nat := if back then g.image.backwardView else g.image.forwardView

/-- A view becomes empty. -/
def emptyView (back : Bool) (g : Stage) : Stage :=
  if back then { g with viewBackward := none } else { g with viewForward := none }

/-- A view holds the Tense that was wanted. -/
def setView (back : Bool) (c : Nat) (g : Stage) : Stage :=
  if back then { g with viewBackward := some c, wantBackward := none } else { g with viewForward := some c, wantForward := none }

/-- An image goes into memory. -/
def putImage (a : Nat) (img : List Byte) (s : State) : State := (s.store a img).mend a img.length

/-- The record of a first fill that alone mismatched. -/
def noteGlitch (v c : Nat) (glitch : Option Nat) (s : State) : State :=
  match glitch with
  | some r => if r < s.job.z then tenseRecord v 3 1 c r s else s
  | none => s

theorem noteGlitch_frame (v c : Nat) (glitch : Option Nat) (s : State) :
    noteGlitch v c glitch s = { s with faults := (noteGlitch v c glitch s).faults } := by
  unfold noteGlitch
  split
  · split <;> rfl
  · rfl

/-- A fill whose shards all match. -/
def fillRight (v c : Nat) (back : Bool) (glitch : Option Nat) (img : List Byte) (s : State) : State :=
  (noteGlitch v c glitch (putImage (viewAddr (s.stage v) back) img s)).updStage v (setView back c)

section
variable (v c : Nat) (back : Bool) (glitch : Option Nat) (img : List Byte) (s : State)

theorem fillRight_frame : fillRight v c back glitch img s = { s with
    mem := (fillRight v c back glitch img s).mem, badWords := (fillRight v c back glitch img s).badWords
    faults := (fillRight v c back glitch img s).faults, stages := (fillRight v c back glitch img s).stages } := by
  rw [fillRight, noteGlitch_frame]
  rfl

theorem memRead_fillRight (b : Nat) : let a := viewAddr (s.stage v) back
    memRead (fillRight v c back glitch img s).mem b =
      if a ≤ b ∧ b < a + img.length then img.getD (b - a) 0 else memRead s.mem b := by
  rw [fillRight, noteGlitch_frame]
  exact memRead_memWriteBytes s.mem _ img b

theorem fillRight_stage_self : (fillRight v c back glitch img s).stage v = setView back c (s.stage v) := by
  rw [fillRight, State.updStage_stage_self, noteGlitch_frame]
  rfl

theorem fillRight_stage_of_ne {u : Nat} (h : u ≠ v) : (fillRight v c back glitch img s).stage u = s.stage u := by
  rw [fillRight, State.updStage_stage_of_ne _ _ h, noteGlitch_frame]
  rfl

end

/-- The first shard of an image whose digest is not the one in the slot's table. -/
def firstWrong (s : State) (g : Stage) (x : TenseSlot) (img : List Byte) : Option Nat :=
  (List.range s.job.z).find? fun r => shardDigest (shardBytes (g.shardRanges s.job.z r) img) != s.sdig x r

theorem hostCopyWaits_eq_false {s : State} {x : TenseSlot} (h : x.state = 5 → s.offloadWaits = false) :
    (x.state == 5 && s.offloadWaits) = false := by
  by_cases h5 : x.state = 5
  · rw [h h5, Bool.and_false]
  · rw [beq_false_of_ne h5, Bool.false_and]

section
variable {v c : Nat} {back : Bool} {s : State} {x : TenseSlot}
variable (hx : ((s.stage v).tenses.find? fun t => t.holds && t.commit == c) = some x)
variable (hgood : s.badAmong ((s.stage v).slotRecord v c ++ (x.sdigAddr, 16 * s.job.z) :: (s.stage v).sourceRanges x) = none)
variable (hoff : x.state = 5 → s.offloadWaits = false)

include hx hgood hoff

/-- The image goes into the view; where every digest, read after that, is the table's, the view holds the tag. -/
theorem fillView_of_right (glitch : Option Nat) :
    let img := s.materialise (s.stage v) x
    let t := putImage (viewAddr (s.stage v) back) img s
    firstWrong t (s.stage v) x img = none →
      fillView v back c glitch s = fillRight v c back glitch img s := by
  intro img t hright
  have hwait := hostCopyWaits_eq_false hoff
  unfold fillView
  simp only [hx, hwait, hgood, Bool.false_eq_true, if_false]
  change (match firstWrong t (s.stage v) x img with | some r => _ | none => _) = _
  rw [hright]
  rfl

/-- Where one is not, the view is empty and EV_AGREEMENT_FAULT is raised. -/
theorem fillView_of_wrong (glitch : Option Nat) {r : Nat} :
    let img := s.materialise (s.stage v) x
    let t := putImage (viewAddr (s.stage v) back) img s
    firstWrong t (s.stage v) x img = some r → fillView v back c glitch s =
      agreementFault v 1 c r (tenseRecord v 3 4 c r (t.updStage v (emptyView back))) := by
  intro img t hwrong
  have hwait := hostCopyWaits_eq_false hoff
  unfold fillView
  simp only [hx, hwait, hgood, Bool.false_eq_true, if_false]
  change (match firstWrong t (s.stage v) x img with | some r => _ | none => _) = _
  rw [hwrong]
  rfl

end

/-- A view outside the digest table of the slot: the digests read as before. -/
theorem firstWrong_putImage {s : State} {x : TenseSlot} {a : Nat} {img : List Byte}
    (hapart : x.sdigAddr + 512 ≤ a ∨ a + img.length ≤ x.sdigAddr) (hz : s.job.z ≤ 32) (g : Stage) :
    firstWrong (putImage a img s) g x img = firstWrong s g x img := by
  refine List.find?_congr fun r hr => ?_
  have hr : r < s.job.z := List.mem_range.mp hr
  rw [show (putImage a img s).sdig x r = s.sdig x r from memNat_memWriteBytes_of_apart s.mem (by omega)]
  rfl

theorem firstWrong_eq_none {s : State} {g : Stage} {x : TenseSlot} {img : List Byte}
    (h : ∀ r, r < s.job.z → shardDigest (shardBytes (g.shardRanges s.job.z r) img) = s.sdig x r) :
    firstWrong s g x img = none := by
  refine List.find?_eq_none.mpr fun r hr => ?_
  simpa using h r (List.mem_range.mp hr)

theorem firstWrong_isSome {s : State} {g : Stage} {x : TenseSlot} {img : List Byte}
    (h : ∃ r, r < s.job.z ∧ shardDigest (shardBytes (g.shardRanges s.job.z r) img) ≠ s.sdig x r) :
    ∃ r, firstWrong s g x img = some r := by
  obtain ⟨r, hr, hne⟩ := h
  refine Option.isSome_iff_exists.mp (List.find?_isSome.mpr ⟨r, List.mem_range.mpr hr, ?_⟩)
  simpa using hne

/-- A halt leaves the views. -/
theorem haltStage_views (v code : Nat) (final : Bool) (s : State) :
    ((haltStage v code final s).stage v).viewForward = (s.stage v).viewForward ∧
      ((haltStage v code final s).stage v).viewBackward = (s.stage v).viewBackward := by
  unfold haltStage
  by_cases hl : (s.stage v).loaded = true
  case neg => simp [hl]
  by_cases h0 : (s.stage v).haltCode = 0
  case neg => by_cases hf : (final && !(s.stage v).haltFinal) = true <;> simp [hl, h0, hf]
  by_cases hk : (s.stage v).commitKept s.job.z = true
  · simp [hl, h0, hk, forEach_updEng_stage]
  · simp [hl, h0, hk, forEach_updEng_stage, Stage.abandon]

/-- The halt of EV_AGREEMENT_FAULT is final, and the views stay as they are. -/
theorem agreementFault_stage {v : Nat} {s : State} (reason commit shard : Nat) (hl : (s.stage v).loaded = true)
    (h0 : (s.stage v).haltCode = 0) :
    let g := (agreementFault v reason commit shard s).stage v
    g.haltCode = 0x0303 ∧ g.haltFinal = true ∧ g.viewForward = (s.stage v).viewForward ∧
      g.viewBackward = (s.stage v).viewBackward := by
  let items := [(1, reason), (2, (s.stage v).image.stage), (4, commit), (1, shard)]
  have hs := eventOnly_stage (raise_eventOnly 0x0303 (tenseUnit (s.stage v).image.die) 0 items s) v
  obtain ⟨hcode, hfinal, _, _⟩ := (haltStage_raise_haltsWith hl h0 0x0303 (tenseUnit (s.stage v).image.die) 0 items).2
  obtain ⟨hfwd, hback⟩ := haltStage_views v 0x0303 true (raise 0x0303 (tenseUnit (s.stage v).image.die) 0 items s)
  exact ⟨hcode, hfinal, hs ▸ hfwd, hs ▸ hback⟩

/-- Settles O21: a fill is one write and a test of the shards' digests; PAST_ENCODE and REBASE are one write of a delta and
SPILL one of a host copy, and settling the flip afterwards moves no slot but the old present's. -/
theorem tenseLogic : Obligations.TenseLogic := by
  unfold Obligations.TenseLogic
  refine ⟨?fill, ?work, fun v s i h => ⟨congrArg Host.Outcome.next (pastEncode_of_fenced h v),
    congrArg Host.Outcome.next (rebase_of_fenced h v i), congrArg Host.Outcome.next (spill_of_fenced h v i)⟩⟩
  case fill =>
    intro v back glitch s c x g img a hlive hwant hx hgood hoff hapart hz
    have hexec : exec (.viewFill v back glitch) s = .next (fillView v back c (glitch.map (·.val)) s) := by
      change execViewFill v back glitch s = _
      unfold execViewFill
      simp only [hlive, hwant, Bool.not_true, Bool.false_eq_true, if_false, g]
    have hsame : firstWrong (putImage a img s) g x img = firstWrong s g x img := firstWrong_putImage hapart hz g
    refine ⟨fun hright => ?_, fun hwrong => ?_⟩
    · have hnone := hsame.trans (firstWrong_eq_none hright)
      refine ⟨_, hexec.trans (congrArg Host.Outcome.next (fillView_of_right hx hgood hoff _ hnone)), fillRight_frame ..,
        memRead_fillRight _ _ _ _ _ _, ?_, ?_, ?_, fun u hu => fillRight_stage_of_ne _ _ _ _ _ _ hu⟩
      · rw [fillRight_stage_self]; cases back <;> rfl
      · rw [fillRight_stage_self]; cases back <;> rfl
      · rw [fillRight_stage_self]; cases back <;> rfl
    · obtain ⟨r, hr⟩ := firstWrong_isSome hwrong
      obtain ⟨hloaded, hhalt⟩ := of_live hlive
      let t := tenseRecord v 3 4 c r ((putImage a img s).updStage v (emptyView back))
      have hstage : t.stage v = emptyView back g := State.updStage_stage_self _ _ _
      obtain ⟨hcode, hfinal, hfwd, hback⟩ := agreementFault_stage (v := v) (s := t) 1 c r
        (by rw [hstage]; cases back <;> exact hloaded) (by rw [hstage]; cases back <;> exact hhalt)
      refine ⟨_, hexec.trans (congrArg Host.Outcome.next (fillView_of_wrong hx hgood hoff _ (hsame.trans hr))), hcode, hfinal, ?_⟩
      cases back
      · exact hfwd.trans (by rw [hstage]; rfl)
      · exact hback.trans (by rw [hstage]; rfl)
  case work =>
    intro v s i p g hlive hfence hp
    refine ⟨?encode, ?rebase, ?spill⟩
    case encode =>
      intro j hflip henc hslot old d hgood hfits
      refine ⟨_, congrArg Host.Outcome.next (pastEncode_encodes hlive hfence hflip hp henc hslot hgood hfits), writeThen_frame ..,
        memRead_writeThen _ _ _ _ _, fun u hu => writeThen_stage_of_ne _ _ _ _ _ hu, fun y hy hst hcommit hreb => ?_⟩
      rw [writeThen_stage_self]
      exact noteEncoded_slot _ hp hreb hy hst hcommit
    case rebase =>
      intro j x hflip henc hi hx hst d hgood
      refine ⟨_, congrArg Host.Outcome.next (rebase_rebases hlive hfence hflip hp henc hi hx hst hgood), writeThen_frame ..,
        memRead_writeThen _ _ _ _ _, fun u hu => writeThen_stage_of_ne _ _ _ _ _ hu, ?_⟩
      rw [writeThen_stage_self]
      exact noteRebased_slot _ _ hx hst
    case spill =>
      intro x hx hst hnewest hroom hdue hgood hoff hplace
      refine ⟨_, congrArg Host.Outcome.next (spill_spills hlive hfence hx hst hnewest hroom hdue hgood hoff hplace), rfl,
        memRead_memWriteBytes _ _ _, fun u hu => State.updStage_stage_of_ne _ _ hu, ?_⟩
      rw [State.updStage_stage_self]
      exact noteSpilled_slot _ hx

/-! ### PD has 128 bits (R251) -/

theorem leNat_lt (bs : List Byte) : leNat bs < 256 ^ bs.length := by
  induction bs with
  | nil => decide
  | cons b bs ih =>
    have hb : b.toNat < 256 := b.isLt
    rw [leNat, List.length_cons, Nat.pow_succ]
    omega

theorem gmulGo_lt {a : Nat} (ha : a < 2 ^ 128) (b i : Nat) : ∀ p, p < 2 ^ 128 → gmulGo a b i p < 2 ^ 128 := by
  induction i with
  | zero => exact fun p hp => hp
  | succ i ih =>
    intro p _
    have hq : p * 2 % 2 ^ 128 < 2 ^ 128 := Nat.mod_lt _ (by decide)
    have hr : (if p.testBit 127 then p * 2 % 2 ^ 128 ^^^ 0x87 else p * 2 % 2 ^ 128) < 2 ^ 128 := by
      split
      · exact Nat.xor_lt_two_pow hq (by decide)
      · exact hq
    refine ih _ ?_
    split
    · exact Nat.xor_lt_two_pow hr ha
    · exact hr

theorem pdBlock_lt {y x : Nat} (hy : y < 2 ^ 128) (hx : x < 2 ^ 128) : pdBlock y x < 2 ^ 128 :=
  gmulGo_lt (Nat.xor_lt_two_pow hy hx) pdKey 128 0 (by decide)

theorem pdRange_lt (fuel : Nat) : ∀ (y : Nat) (bs : List Byte), y < 2 ^ 128 → pdRange fuel y bs < 2 ^ 128 := by
  induction fuel with
  | zero => exact fun y _ hy => hy
  | succ n ih =>
    intro y bs hy
    have hblock : leNat (bs.take 16) < 2 ^ 128 := by
      refine Nat.lt_of_lt_of_le (leNat_lt _) ?_
      have hlen : (bs.take 16).length ≤ 16 := by rw [List.length_take]; exact Nat.min_le_left ..
      exact Nat.le_trans (Nat.pow_le_pow_right (by decide) hlen) (by decide)
    rw [pdRange]
    split
    · exact hy
    · exact ih _ _ (pdBlock_lt hy hblock)

theorem pd_lt {bs : List Byte} (h : bs.length < 2 ^ 128) : pd [bs] < 2 ^ 128 :=
  pdBlock_lt (pdRange_lt bs.length 0 bs (by decide)) (by simpa using h)

/-! ### Fields of a run -/

theorem StandsAt.slice {n : Nat} {x d : List Byte} (h : StandsAt n x d) : (d.drop n).take x.length = x := by
  obtain ⟨pre, post, rfl, rfl⟩ := h
  rw [List.append_assoc, List.drop_left, List.take_left]

theorem StandsAt.length_le {n : Nat} {x d : List Byte} (h : StandsAt n x d) : n + x.length ≤ d.length := by
  obtain ⟨pre, post, rfl, rfl⟩ := h
  simp only [List.length_append]
  omega

theorem standsAt_zero (x ys : List Byte) : StandsAt 0 x (x ++ ys) := ⟨[], ys, rfl, rfl⟩

/-- A field at the start of a run. -/
theorem fieldAt_head {n x : Nat} (hx : x < 256 ^ n) (ys : List Byte) : fieldAt (leBytes n x ++ ys) 0 n = x := by
  have h := (standsAt_zero (leBytes n x) ys).slice
  rw [leBytes_length] at h
  rw [fieldAt, h, leNat_leBytes n x hx]

/-- A field behind another one. -/
theorem fieldAt_tail {k o : Nat} (h : k ≤ o) (x n : Nat) (ys : List Byte) :
    fieldAt (leBytes k x ++ ys) o n = fieldAt ys (o - k) n := by
  rw [fieldAt, fieldAt, List.drop_append, leBytes_length, List.drop_of_length_le (by rw [leBytes_length]; exact h),
    List.nil_append]

/-- A field in the part that a longer run keeps. -/
theorem fieldAt_append_of_le {bs : List Byte} {o n : Nat} (h : o + n ≤ bs.length) (ys : List Byte) :
    fieldAt (bs ++ ys) o n = fieldAt bs o n := by
  rw [fieldAt, fieldAt, List.drop_append_of_le_length (by omega), List.take_append_of_le_length (by rw [List.length_drop]; omega)]

/-! ### Packed sections (Table 14.14) -/

/-- The directory entry of a section that starts at `o`. -/
def dirEntry (x : Section) (o : Nat) : List Byte :=
  leBytes 2 x.kind ++ (leBytes 2 x.stage ++ (leBytes 1 x.shard ++ (leBytes 3 0 ++ (leBytes 8 o ++ (leBytes 8 x.data.length ++
    (leBytes 4 x.commit ++ (leBytes 4 0 ++ (leBytes 16 (pd [x.data]) ++ leBytes 16 0))))))))

/-- The gap behind a section: none behind the last. -/
def sectionGap (x : Section) (t : List Section) : Nat :=
  match t with
  | [] => 0
  | _ :: _ => alignUp x.data.length 4096 - x.data.length

theorem length_dirEntry (x : Section) (o : Nat) : (dirEntry x o).length = 64 := by
  simp only [dirEntry, List.length_append, leBytes_length]

theorem packGo_cons (o : Nat) (x : Section) (t : List Section) :
    let y := packGo (o + x.data.length + sectionGap x t) t
    packGo o (x :: t) = (dirEntry x o ++ y.1, x.data ++ List.replicate (sectionGap x t) 0 ++ y.2) := by
  cases t <;> simp only [packGo, dirEntry, sectionGap, List.append_assoc]

theorem length_packGo_dir (xs : List Section) : ∀ o, (packGo o xs).1.length = 64 * xs.length := by
  induction xs with
  | nil => exact fun o => rfl
  | cons x t ih =>
    intro o
    rw [packGo_cons, List.length_append, length_dirEntry, ih, List.length_cons]
    omega

/-- Each section of a list has its entry in the directory, and its bytes where the entry says, at a multiple of 4 096. -/
theorem packGo_section (xs : List Section) : ∀ o i x, 4096 ∣ o → xs[i]? = some x →
    ∃ a, 4096 ∣ o + a ∧ StandsAt (64 * i) (dirEntry x (o + a)) (packGo o xs).1 ∧ StandsAt a x.data (packGo o xs).2 := by
  induction xs with
  | nil => intro o i x _ h; simp at h
  | cons y t ih =>
    intro o i x ho h
    rw [packGo_cons]
    cases i with
    | zero =>
      obtain rfl : y = x := by simpa using h
      refine ⟨0, ho, standsAt_zero _ _, ?_⟩
      rw [List.append_assoc]
      exact standsAt_zero _ _
    | succ i =>
      rw [List.getElem?_cons_succ] at h
      have hgap : y.data.length + sectionGap y t = alignUp y.data.length 4096 := by
        cases t with
        | nil => simp at h
        | cons z t => exact Nat.add_sub_of_le (by unfold alignUp cdiv; omega)
      obtain ⟨a, ha, hdir, hdata⟩ := ih (o + y.data.length + sectionGap y t) i x
        (by rw [Nat.add_assoc, hgap]; exact Nat.dvd_add ho ⟨_, Nat.mul_comm ..⟩) h
      have hplace : o + y.data.length + sectionGap y t + a = o + (y.data.length + sectionGap y t + a) := by omega
      rw [hplace] at ha hdir
      refine ⟨y.data.length + sectionGap y t + a, ha, ?_, ?_⟩
      · have := hdir.append_left (dirEntry y o)
        rwa [length_dirEntry, show 64 + 64 * i = 64 * (i + 1) by omega] at this
      · have := hdata.append_left (y.data ++ List.replicate (sectionGap y t) 0)
        rwa [List.length_append, List.length_replicate] at this

/-! ### Reading a checkpoint (Table 14.14) -/

/-- The header has the table's layout, and the sections that it counts fit. -/
def headerOk (bs : List Byte) : Prop :=
  64 ≤ bs.length ∧ fieldAt bs 0 4 = 1 ∧ fieldAt bs 10 2 = 0 ∧ fieldAt bs 16 4 = 0 ∧ fieldAt bs 28 36 = 0 ∧
    fieldAt bs 20 8 ≤ bs.length ∧ 64 + 64 * fieldAt bs 12 4 ≤ fieldAt bs 20 8

/-- The bytes of directory entry `i`. -/
def entryBytes (bs : List Byte) (i : Nat) : List Byte := (bs.drop (64 + 64 * i)).take 64

/-- The section that an entry names. -/
def readSection (bs e : List Byte) : Section :=
  ⟨fieldAt e 0 2, fieldAt e 2 2, fieldAt e 4 1, fieldAt e 24 4, (bs.drop (fieldAt e 8 8)).take (fieldAt e 16 8)⟩

/-- An entry has the table's layout, with its section behind the directory and within the whole. -/
def entryOk (n total : Nat) (e : List Byte) : Prop :=
  1 ≤ fieldAt e 0 2 ∧ fieldAt e 0 2 ≤ 8 ∧ fieldAt e 5 3 = 0 ∧ fieldAt e 28 4 = 0 ∧ fieldAt e 48 16 = 0 ∧
    fieldAt e 8 8 % 4096 = 0 ∧ 64 + 64 * n ≤ fieldAt e 8 8 ∧ fieldAt e 8 8 + fieldAt e 16 8 ≤ total

/-- Sections in order, each with its digest, are what the directory names. -/
theorem unpackSections_of_ok {bs : List Byte} {xs : List Section} (hhead : headerOk bs) (hn : fieldAt bs 12 4 = xs.length)
    (hall : ∀ i x, xs[i]? = some x → entryOk xs.length (fieldAt bs 20 8) (entryBytes bs i) ∧
      readSection bs (entryBytes bs i) = x ∧ fieldAt (entryBytes bs i) 32 16 = pd [x.data]) :
    unpackSections bs = .ok xs := by
  obtain ⟨hlen, h0, h10, h16, h28, htotal, hfit⟩ := hhead
  rw [hn] at hfit
  have hsections : (List.range xs.length).map (fun i => readSection bs (entryBytes bs i)) = xs := by
    refine List.ext_getElem (by rw [List.length_map, List.length_range]) fun i _ hi => ?_
    rw [List.getElem_map, List.getElem_range]
    exact (hall i _ (List.getElem?_eq_getElem hi)).2.1
  unfold unpackSections
  dsimp only
  rw [hn, if_neg, if_neg, if_neg, List.map_map, List.map_map]
  · exact congrArg Except.ok hsections
  · simp only [List.any_map, List.any_eq_true, List.mem_range, not_exists, not_and]
    intro i hi
    obtain ⟨_, hx, hpd⟩ := hall i _ (List.getElem?_eq_getElem hi)
    have hdata : (readSection bs (entryBytes bs i)).data = xs[i].data := congrArg (·.data) hx
    change ¬ (pd [(readSection bs (entryBytes bs i)).data] != fieldAt (entryBytes bs i) 32 16) = true
    rw [hdata, hpd]
    simp
  · simp only [List.any_map, List.any_eq_true, List.mem_range, not_exists, not_and]
    intro i hi
    obtain ⟨⟨hk1, hk8, h5, hz28, h48, hal, hlow, hhigh⟩, _⟩ := hall i _ (List.getElem?_eq_getElem hi)
    have hk0 : fieldAt (entryBytes bs i) 0 2 ≠ 0 := by omega
    simp only [entryBytes] at hk0 hk8 h5 hz28 h48 hal hlow hhigh
    simp [hk0, hk8, h5, hz28, h48, hal, hlow, hhigh]
  · simp [hlen, h0, h10, h16, h28, htotal, hfit]

/-! ### What a checkpoint writes a restore reads (R382) -/

section
variable (x : Section) (o : Nat)

/-- The fields of a directory entry. -/
theorem dirEntry_fields (hk : x.kind < 256 ^ 2) (hs : x.stage < 256 ^ 2) (hr : x.shard < 256 ^ 1) (hc : x.commit < 256 ^ 4)
    (ho : o < 256 ^ 8) (hl : x.data.length < 256 ^ 8) (hp : pd [x.data] < 256 ^ 16) :
    let e := dirEntry x o
    fieldAt e 0 2 = x.kind ∧ fieldAt e 2 2 = x.stage ∧ fieldAt e 4 1 = x.shard ∧ fieldAt e 5 3 = 0 ∧ fieldAt e 8 8 = o ∧
      fieldAt e 16 8 = x.data.length ∧ fieldAt e 24 4 = x.commit ∧ fieldAt e 28 4 = 0 ∧ fieldAt e 32 16 = pd [x.data] ∧
      fieldAt e 48 16 = 0 := by
  have hlast : leBytes 16 0 = leBytes 16 0 ++ [] := (List.append_nil _).symm
  intro e
  simp only [e, dirEntry]
  rw [hlast]
  refine ⟨?_, ?_, ?_, ?_, ?_, ?_, ?_, ?_, ?_, ?_⟩ <;>
    simp (disch := omega) only [fieldAt_tail, fieldAt_head, Nat.sub_self, Nat.reduceSub]

end

/-- The place of a packed list's first section. -/
def firstPlace (xs : List Section) : Nat := alignUp (64 + 64 * xs.length) 4096

/-- The header of a packed list. -/
def packHeader (job rank z : Nat) (xs : List Section) : List Byte :=
  leBytes 4 1 ++ (leBytes 4 job ++ (leBytes 1 rank ++ (leBytes 1 z ++ (leBytes 2 0 ++ (leBytes 4 xs.length ++
    (leBytes 4 0 ++ (leBytes 8 (firstPlace xs + (packGo (firstPlace xs) xs).2.length) ++ leBytes 36 0)))))))

theorem length_packHeader (job rank z : Nat) (xs : List Section) : (packHeader job rank z xs).length = 64 := by
  simp only [packHeader, List.length_append, leBytes_length]

/-- The header and the directory of a packed list. -/
def packHead (job rank z : Nat) (xs : List Section) : List Byte := packHeader job rank z xs ++ (packGo (firstPlace xs) xs).1

theorem firstPlace_facts (xs : List Section) : 4096 ∣ firstPlace xs ∧ 64 + 64 * xs.length ≤ firstPlace xs := by
  unfold firstPlace alignUp cdiv
  exact ⟨⟨_, Nat.mul_comm ..⟩, by omega⟩

theorem packSections_eq (job rank z : Nat) (xs : List Section) : packSections job rank z xs =
    fit (firstPlace xs) (packHead job rank z xs) ++ (packGo (firstPlace xs) xs).2 := by
  simp only [packSections, packHead, packHeader, firstPlace, List.append_assoc]

section
variable (job rank z : Nat) (xs : List Section)

theorem length_packHead : (packHead job rank z xs).length = 64 + 64 * xs.length := by
  rw [packHead, List.length_append, length_packHeader, length_packGo_dir]

theorem length_packSections : (packSections job rank z xs).length = firstPlace xs + (packGo (firstPlace xs) xs).2.length := by
  rw [packSections_eq, List.length_append, fit_length]

/-- The head stands as it is at the start. -/
theorem packSections_head : ∃ rest, packSections job rank z xs = packHead job rank z xs ++ rest := by
  rw [packSections_eq, fit_of_le (by rw [length_packHead]; exact (firstPlace_facts xs).2), List.append_assoc]
  exact ⟨_, rfl⟩

end

section
variable {job rank z : Nat} {xs : List Section} (hn : xs.length < 2 ^ 32)
  (hlen : (packSections job rank z xs).length < 2 ^ 64)
include hn hlen

theorem packHeader_fields : let h := packHeader job rank z xs
    fieldAt h 0 4 = 1 ∧ fieldAt h 10 2 = 0 ∧ fieldAt h 12 4 = xs.length ∧ fieldAt h 16 4 = 0 ∧
      fieldAt h 20 8 = (packSections job rank z xs).length ∧ fieldAt h 28 36 = 0 := by
  have hlast : leBytes 36 0 = leBytes 36 0 ++ [] := (List.append_nil _).symm
  rw [length_packSections] at hlen ⊢
  intro h
  simp only [h, packHeader]
  rw [hlast]
  refine ⟨?_, ?_, ?_, ?_, ?_, ?_⟩ <;>
    simp (disch := omega) only [fieldAt_tail, fieldAt_head, Nat.sub_self, Nat.reduceSub]

theorem packSections_fields : let b := packSections job rank z xs
    headerOk b ∧ fieldAt b 12 4 = xs.length ∧ fieldAt b 20 8 = b.length := by
  obtain ⟨h0, h10, h12, h16, h20, h28⟩ := packHeader_fields hn hlen
  obtain ⟨rest, hrest⟩ := packSections_head job rank z xs
  have hfirst := (firstPlace_facts xs).2
  intro b
  have hwhole : b.length = _ := length_packSections job rank z xs
  have hfield : ∀ o n, o + n ≤ 64 → fieldAt b o n = fieldAt (packHeader job rank z xs) o n := fun o n h => by
    rw [show b = packHeader job rank z xs ++ _ by rw [← List.append_assoc]; exact hrest]
    exact fieldAt_append_of_le (by rw [length_packHeader]; exact h) _
  have hcount : fieldAt b 12 4 = xs.length := (hfield 12 4 (by decide)).trans h12
  have htotal : fieldAt b 20 8 = b.length := (hfield 20 8 (by decide)).trans h20
  refine ⟨⟨by omega, (hfield 0 4 (by decide)).trans h0, (hfield 10 2 (by decide)).trans h10, (hfield 16 4 (by decide)).trans h16,
    (hfield 28 36 (by decide)).trans h28, Nat.le_of_eq htotal, ?_⟩, hcount, htotal⟩
  rw [hcount, htotal]
  omega

/-- Each section reads back through its directory entry. -/
theorem packSections_section {i : Nat} {x : Section} (hx : xs[i]? = some x)
    (hok : 1 ≤ x.kind ∧ x.kind ≤ 8 ∧ x.stage < 2 ^ 16 ∧ x.shard < 2 ^ 8 ∧ x.commit < 2 ^ 32) :
    let b := packSections job rank z xs
    entryOk xs.length b.length (entryBytes b i) ∧ readSection b (entryBytes b i) = x ∧
      fieldAt (entryBytes b i) 32 16 = pd [x.data] := by
  obtain ⟨hk1, hk8, hstage, hshard, hcommit⟩ := hok
  obtain ⟨hdvd, hfirst⟩ := firstPlace_facts xs
  obtain ⟨a, ha, hdir, hdata⟩ := packGo_section xs (firstPlace xs) i x hdvd hx
  have hdataAt : StandsAt (firstPlace xs + a) x.data (packSections job rank z xs) := by
    have := hdata.append_left (fit (firstPlace xs) (packHead job rank z xs))
    rwa [fit_length, ← packSections_eq] at this
  have hin := hdataAt.length_le
  have hentryAt : StandsAt (64 + 64 * i) (dirEntry x (firstPlace xs + a)) (packSections job rank z xs) := by
    obtain ⟨rest, hrest⟩ := packSections_head job rank z xs
    have := (hdir.append_left (packHeader job rank z xs)).append_right rest
    rwa [length_packHeader, ← packHead, ← hrest] at this
  intro b
  have hentry : entryBytes b i = dirEntry x (firstPlace xs + a) := by
    have := hentryAt.slice
    rwa [length_dirEntry] at this
  obtain ⟨f0, f2, f4, f5, f8, f16, f24, f28, f32, f48⟩ := dirEntry_fields x (firstPlace xs + a) (by omega) (by omega) (by omega)
    (by omega) (by omega) (by omega) (pd_lt (by omega))
  have hread : (b.drop (firstPlace xs + a)).take x.data.length = x.data := hdataAt.slice
  rw [hentry]
  refine ⟨⟨?_, ?_, f5, f28, f48, ?_, ?_, ?_⟩, ?_, f32⟩
  · rw [f0]; exact hk1
  · rw [f0]; exact hk8
  · rw [f8]; exact Nat.mod_eq_zero_of_dvd ha
  · rw [f8]; omega
  · rw [f8, f16]; exact hin
  · rw [readSection, f0, f2, f4, f24, f8, f16, hread]

end

/-- What a checkpoint writes a restore reads. -/
theorem unpackSections_packSections {job rank z : Nat} {xs : List Section}
    (hall : ∀ x ∈ xs, 1 ≤ x.kind ∧ x.kind ≤ 8 ∧ x.stage < 2 ^ 16 ∧ x.shard < 2 ^ 8 ∧ x.commit < 2 ^ 32)
    (hn : xs.length < 2 ^ 32) (hlen : (packSections job rank z xs).length < 2 ^ 64) :
    unpackSections (packSections job rank z xs) = .ok xs := by
  obtain ⟨hhead, hcount, htotal⟩ := packSections_fields hn hlen
  refine unpackSections_of_ok hhead hcount fun i x hx => ?_
  rw [htotal]
  exact packSections_section hn hlen hx (hall x (List.mem_of_getElem? hx))

/-! ### A command that is accepted (R369) -/

/-- What the Parser does with a command's reply. -/
def replyState (c : Cmd) (s : State) : Reply → State
  | .refuse r => complete c.mb c.opcode c.id c.respAddr r.status r.result [] s
  | .done result resp t => complete c.mb c.opcode c.id c.respAddr stOk result resp t
  | .failed r t => complete c.mb c.opcode c.id c.respAddr r.status r.result [] t
  | .goesOn t => { t with running := t.running ++ [runningOf c] }

theorem runCmd_of_accepted {c : Cmd} {p : CmdSpec} {s : State} (h : Accepted c p s) (hp : allOpcodes.contains p.opcode = true)
    (go : State → Reply) : runCmd c p go s = .next (replyState c (takeEntry c s) (go (takeEntry c s))) := by
  obtain ⟨hop, htake, hcheck⟩ := h
  unfold runCmd serve
  simp only [hop, hp, htake, hcheck, bne_self_eq_false, Bool.and_false, Bool.not_true, Bool.or_false, Bool.false_eq_true,
    if_false]
  cases go (takeEntry c s) <;> simp only [replyState, hop]

/-! ### Taking an entry changes the host interface alone (R364) -/

theorem takeEntry_frame (c : Cmd) (s : State) : takeEntry c s = { s with host := (takeEntry c s).host } := by
  unfold takeEntry
  split <;> rfl

section
variable (c : Cmd) (s : State)

@[simp] theorem takeEntry_hostMem : (takeEntry c s).hostMem = s.hostMem := by rw [takeEntry_frame]
@[simp] theorem takeEntry_job : (takeEntry c s).job = s.job := by rw [takeEntry_frame]
@[simp] theorem takeEntry_chip : (takeEntry c s).chip = s.chip := by rw [takeEntry_frame]
@[simp] theorem takeEntry_flash : (takeEntry c s).flash = s.flash := by rw [takeEntry_frame]
@[simp] theorem takeEntry_freeCount : (takeEntry c s).freeCount = s.freeCount := by rw [takeEntry_frame]
@[simp] theorem takeEntry_stage (v : Nat) : (takeEntry c s).stage v = s.stage v := by rw [takeEntry_frame]; rfl
@[simp] theorem takeEntry_port (p : Nat) : (takeEntry c s).port p = s.port p := by rw [takeEntry_frame]; rfl
@[simp] theorem takeEntry_loadedStages : (takeEntry c s).loadedStages = s.loadedStages := by rw [takeEntry_frame]; rfl
@[simp] theorem takeEntry_absent (d : Nat) : (takeEntry c s).absent d = s.absent d := by rw [takeEntry_frame]; rfl
@[simp] theorem takeEntry_offloadWaits : (takeEntry c s).offloadWaits = s.offloadWaits := by rw [takeEntry_frame]; rfl
@[simp] theorem takeEntry_badAmong (rs : List (Nat × Nat)) : (takeEntry c s).badAmong rs = s.badAmong rs := by
  rw [takeEntry_frame]; rfl
@[simp] theorem takeEntry_checkpointBad : (takeEntry c s).checkpointBad = s.checkpointBad := by rw [takeEntry_frame]; rfl
@[simp] theorem takeEntry_allSections (noPred : Bool) : allSections (takeEntry c s) noPred = allSections s noPred := by
  rw [takeEntry_frame]; rfl
@[simp] theorem takeEntry_sectionOk (x : Section) : sectionOk (takeEntry c s) x = sectionOk s x := by rw [takeEntry_frame]; rfl
@[simp] theorem takeEntry_missing (xs : List Section) : (takeEntry c s).missing xs = s.missing xs := by rw [takeEntry_frame]; rfl
@[simp] theorem takeEntry_findStage (n : Nat) : (takeEntry c s).findStage n = s.findStage n := by rw [takeEntry_frame]; rfl
@[simp] theorem takeEntry_materialise (g : Stage) (x : TenseSlot) : (takeEntry c s).materialise g x = s.materialise g x := by
  rw [takeEntry_frame]; rfl
@[simp] theorem takeEntry_exportBad (g : Stage) (x : TenseSlot) (img : List Byte) :
    exportBad (takeEntry c s) g x img = exportBad s g x img := by rw [takeEntry_frame]; rfl
@[simp] theorem takeEntry_exportPort (d : Cmd) : exportPort d (takeEntry c s) = exportPort d s := by rw [takeEntry_frame]; rfl
@[simp] theorem takeEntry_manifest (g : Stage) (x : TenseSlot) (no : Nat) (img : List Byte) :
    manifest (takeEntry c s) g x no img = manifest s g x no img := by rw [takeEntry_frame]; rfl

end

/-! ### CHECKPOINT (R382) -/

/-- The bytes of a checkpoint that a command asks for. -/
def checkpointBytes (c : Cmd) (s : State) : List Byte :=
  packSections s.job.id.toNat s.job.rank s.job.z (allSections s (c.expert && c.arg 16 1 == 1))

/-- The host buffer that a command names is aligned, and at address 0 only where it is empty. -/
def BufferOk (c : Cmd) : Prop := c.arg 0 8 % 64 = 0 ∧ (c.arg 0 8 = 0 → c.arg 8 8 = 0)

/-- No loaded stage's die is absent. -/
def StagesPresent (s : State) : Prop := ∀ v ∈ s.loadedStages, s.absent (s.stage v).image.die = false

theorem bufferOk_not_refused {c : Cmd} (h : BufferOk c) :
    (decide (c.arg 0 8 % 64 ≠ 0) || (c.arg 0 8 == 0 && c.arg 8 8 != 0)) = false := by
  obtain ⟨halign, hzero⟩ := h
  by_cases h0 : c.arg 0 8 = 0
  · simp [h0, hzero h0]
  · simp [h0, halign]

theorem find_absent_of_present {s : State} (h : StagesPresent s) :
    (s.loadedStages.find? fun v => s.absent (s.stage v).image.die) = none :=
  List.find?_eq_none.mpr fun v hv => by simp [h v hv]

theorem checkpoint_eq {c : Cmd} {s : State} (hbuf : BufferOk c) (hpres : StagesPresent s) (hbad : s.checkpointBad = none) :
    checkpoint c s =
      if c.arg 8 8 < (checkpointBytes c s).length then
        .refuse { status := stLength, offset := 40, size := (checkpointBytes c s).length }
      else if s.offloadWaits then .goesOn s
      else .done (leBytes 8 (checkpointBytes c s).length) []
        { s with hostMem := memWriteBytes s.hostMem (c.arg 0 8) (checkpointBytes c s) } := by
  unfold checkpoint
  simp only [bufferOk_not_refused hbuf, find_absent_of_present hpres, hbad, Bool.false_eq_true, if_false]
  rfl

section
variable {c : Cmd} {s : State} (hacc : Accepted c checkpointSpec s) (hbuf : BufferOk c) (hpres : StagesPresent s)
  (hbad : s.checkpointBad = none)
include hacc hbuf hpres hbad

theorem exec_checkpoint_eq : exec (.checkpoint c) s = .next (replyState c (takeEntry c s)
    (if c.arg 8 8 < (checkpointBytes c s).length then
      .refuse { status := stLength, offset := 40, size := (checkpointBytes c s).length }
    else if s.offloadWaits then .goesOn (takeEntry c s)
    else .done (leBytes 8 (checkpointBytes c s).length) []
      { takeEntry c s with hostMem := memWriteBytes s.hostMem (c.arg 0 8) (checkpointBytes c s) })) := by
  have hpres' : StagesPresent (takeEntry c s) := by simpa [StagesPresent] using hpres
  have hbytes : checkpointBytes c (takeEntry c s) = checkpointBytes c s := by simp [checkpointBytes]
  have hrun := runCmd_of_accepted hacc (by decide) (checkpoint c)
  rw [checkpoint_eq hbuf hpres' (by simpa using hbad), hbytes, takeEntry_offloadWaits, takeEntry_hostMem] at hrun
  exact hrun

end

/-! ### What a completion changes (R364, R392) -/

/-- `t` differs from `s` at most where events and completions act. -/
def AnswerOnly (s t : State) : Prop :=
  t = { s with freeCount := t.freeCount, evSeq := t.evSeq, host := t.host, hostMem := t.hostMem, mgmt := t.mgmt
               appo := t.appo, sent := t.sent, running := t.running }

theorem answerOnly_trans {s t u : State} (h : AnswerOnly s t) (h' : AnswerOnly t u) : AnswerOnly s u := by
  unfold AnswerOnly at *
  rw [h', h]

theorem answerOnly_of_eventOnly {s t : State} (h : EventOnly s t) : AnswerOnly s t := by
  unfold EventOnly at h
  unfold AnswerOnly
  rw [h]

/-- A relation that every step of a walk has, the whole walk has. -/
theorem forEach_related {α : Type} {R : State → State → Prop} (hrefl : ∀ s, R s s)
    (htrans : ∀ {s t u}, R s t → R t u → R s u) {f : α → State → State} (xs : List α) (hf : ∀ x ∈ xs, ∀ s, R s (f x s)) :
    ∀ s, R s (forEach xs f s) := by
  induction xs with
  | nil => exact hrefl
  | cons x xs ih =>
    exact fun s => htrans (hf x (by simp) s) (ih (fun y hy => hf y (by simp [hy])) (f x s))

theorem guestRequest_answerOnly (a n : Nat) (write : Bool) (place engine : Nat) (data : List Byte) (s : State) :
    AnswerOnly s (guestRequest a n write place engine data s) := by
  unfold guestRequest
  refine answerOnly_trans ?_ (answerOnly_of_eventOnly (appoSend_eventOnly ..))
  rfl

theorem mctpMessage_answerOnly (bs : List Byte) (s : State) : AnswerOnly s (mctpMessage bs s) := by
  unfold mctpMessage
  refine forEach_related (R := AnswerOnly) (fun _ => rfl) answerOnly_trans _ ?_ s
  intro _ _ _
  rfl

theorem complete_answerOnly (mb : Mailbox) (opcode id respAddr status : Nat) (result resp : List Byte) (s : State) :
    AnswerOnly s (complete mb opcode id respAddr status result resp s) := by
  unfold complete
  cases mb with
  | host m =>
    exact answerOnly_trans (t := { s with hostMem := memWriteBytes s.hostMem respAddr resp }) rfl
      (answerOnly_of_eventOnly (eventOnly_trans (putEntry_eventOnly ..) (signalMailbox_eventOnly ..)))
  | guest p m =>
    refine answerOnly_trans ?_ (answerOnly_of_eventOnly (appoSend_eventOnly ..))
    exact forEach_related (R := AnswerOnly) (fun _ => rfl) answerOnly_trans _ (fun _ _ _ => guestRequest_answerOnly ..) s
  | mgmt m => exact mctpMessage_answerOnly ..

theorem completeRunning_answerOnly (r : Running) (status : Nat) (result : List Byte) (s : State) :
    AnswerOnly s (completeRunning r status result s) :=
  answerOnly_trans (t := { s with running := s.running.erase r }) rfl (complete_answerOnly ..)

/-! ### Links at a RESTORE (R383) -/

/-- `t` keeps of `s` the chip, the flash, the job but for its exports, every stage's image, every port's role, and every
port outside `ps`. -/
structure KeepsBut (ps : List Nat) (s t : State) : Prop where
  chip : t.chip = s.chip
  flash : t.flash = s.flash
  job : t.job = { s.job with exporting := t.job.exporting, exportMore := t.job.exportMore }
  image : ∀ v, (t.stage v).image = (s.stage v).image
  role : ∀ p, (t.port p).role = (s.port p).role
  port : ∀ p, p ∉ ps → t.port p = s.port p

section
variable {ps : List Nat} {s t u : State}

theorem keepsBut_refl (s : State) : KeepsBut ps s s := ⟨rfl, rfl, rfl, fun _ => rfl, fun _ => rfl, fun _ _ => rfl⟩

theorem keepsBut_trans (h : KeepsBut ps s t) (h' : KeepsBut ps t u) : KeepsBut ps s u where
  chip := h'.chip.trans h.chip
  flash := h'.flash.trans h.flash
  job := by rw [h'.job, h.job]
  image v := (h'.image v).trans (h.image v)
  role p := (h'.role p).trans (h.role p)
  port p hp := (h'.port p hp).trans (h.port p hp)

theorem keepsBut_mono {qs : List Nat} (h : KeepsBut ps s t) (hsub : ps ⊆ qs) : KeepsBut qs s t :=
  { h with port := fun p hp => h.port p fun hmem => hp (hsub hmem) }

theorem keepsBut_of_answerOnly (h : AnswerOnly s t) : KeepsBut ps s t := by
  unfold AnswerOnly at h
  rw [h]
  exact ⟨rfl, rfl, rfl, fun _ => rfl, fun _ => rfl, fun _ _ => rfl⟩

theorem keepsBut_of_haltOnly (h : HaltOnly s t) (himage : ∀ v, (t.stage v).image = (s.stage v).image) : KeepsBut ps s t :=
  have hport (p : Nat) : t.port p = s.port p := by rw [h]; rfl
  { chip := h.chip_eq, flash := h.flash_eq, job := by rw [h.job_eq], image := himage, role := fun p => by rw [hport]
    port := fun p _ => hport p }

theorem keepsBut_updPort {p : Nat} {f : Port → Port} (hf : ∀ q, (f q).role = q.role) (s : State) :
    KeepsBut [p] s (s.updPort p f) where
  chip := rfl
  flash := rfl
  job := rfl
  image _ := rfl
  role q := by
    rw [State.updPort_port]
    split
    · next e => rw [hf, e]
    · rfl
  port q hq := State.updPort_port_of_ne s f (by simpa using hq)

theorem keepsBut_updStage {f : Stage → Stage} (hf : ∀ g, (f g).image = g.image) (s : State) (v : Nat) :
    KeepsBut ps s (s.updStage v f) :=
  ⟨rfl, rfl, rfl, updStage_part (·.image) (hf _), fun _ => rfl, fun _ _ => rfl⟩

end

theorem flipSettle_image (g : Stage) : (Stage.flipSettle g).image = g.image := by
  unfold Stage.flipSettle
  dsimp only
  repeat' split
  all_goals rfl

theorem retire_image (g : Stage) : (Stage.retire g).image = g.image := flipSettle_image _

theorem unpin_keepsBut {ps : List Nat} (stage commit : Nat) (s : State) : KeepsBut ps s (unpin stage commit s) := by
  unfold unpin
  split
  · exact keepsBut_refl s
  · refine keepsBut_updStage ?_ s _
    exact fun g => retire_image _

/-- Entry `i` of the list of exports ends on its port: its slot's PIN clears and its frames go. -/
def closeExport (p i : Nat) (s : State) : State :=
  let no := (s.job.exporting.map (·.2.1)).getD i 0
  let s := match s.job.exporting[i]? with
    | some (_, _, stage, commit) => unpin stage commit s
    | none => s
  let s := s.updJob fun j => { j with exporting := j.exporting.eraseIdx i, exportMore := j.exportMore.filter (· != no) }
  s.updPort p fun q => { q with out := q.out.filter fun m => !(isExport m && m.tag == no) }

theorem closeExport_keepsBut (p i : Nat) (s : State) : KeepsBut [p] s (closeExport p i s) := by
  unfold closeExport
  dsimp only
  refine keepsBut_trans ?_ (keepsBut_updPort ?_ _)
  · refine keepsBut_trans (t := match s.job.exporting[i]? with
      | some (_, _, stage, commit) => unpin stage commit s
      | none => s) ?_ ⟨rfl, rfl, rfl, fun _ => rfl, fun _ => rfl, fun _ _ => rfl⟩
    split
    · exact unpin_keepsBut ..
    · exact keepsBut_refl s
  · exact fun _ => rfl

/-- An entry that ends is closed, and its command completes where it was the last of it. -/
theorem endExport_cases (p status : Nat) (s : State) : endExport p status s = s ∨
    ∃ i, endExport p status s = closeExport p i s ∨
      ∃ r, endExport p status s = completeRunning r status [] (closeExport p i s) := by
  unfold endExport
  split
  · exact Or.inl rfl
  · next i _ =>
    refine Or.inr ⟨i, ?_⟩
    dsimp only
    split
    · exact Or.inr ⟨_, rfl⟩
    · exact Or.inl rfl

theorem endExport_keepsBut (p status : Nat) (s : State) : KeepsBut [p] s (endExport p status s) := by
  rcases endExport_cases p status s with h | ⟨i, h | ⟨r, h⟩⟩
  · rw [h]
    exact keepsBut_refl s
  · rw [h]
    exact closeExport_keepsBut p i s
  · rw [h]
    exact keepsBut_trans (closeExport_keepsBut p i s) (keepsBut_of_answerOnly (completeRunning_answerOnly ..))

theorem abandonExport_keepsBut (p : Nat) (s : State) : KeepsBut [p] s (abandonExport p s) := by
  unfold abandonExport
  exact forEach_related keepsBut_refl keepsBut_trans _ (fun _ _ t => keepsBut_trans
    (keepsBut_of_answerOnly (answerOnly_of_eventOnly (raise_eventOnly ..))) (endExport_keepsBut ..)) s

/-- A halt leaves every stage's image. -/
theorem haltStage_image (v code : Nat) (final : Bool) (s : State) (u : Nat) :
    ((haltStage v code final s).stage u).image = (s.stage u).image := by
  unfold haltStage
  dsimp only
  split
  · rfl
  · split
    · split
      · refine updStage_part (·.image) ?_ u
        rfl
      · rfl
    · split
      · rw [forEach_updEng_stage]
        refine updStage_part (·.image) ?_ u
        rfl
      · rw [State.updEng_stage, forEach_updEng_stage]
        refine updStage_part (·.image) ?_ u
        rfl

theorem haltStage_keepsBut {ps : List Nat} (v code : Nat) (final : Bool) (s : State) : KeepsBut ps s (haltStage v code final s) :=
  keepsBut_of_haltOnly (haltStage_haltOnly ..) (haltStage_image v code final s)

/-- The departure of a STAGE or COLLECTIVE port halts stages and leaves every port. -/
theorem downEffect_keepsBut {ps : List Nat} {p : Nat} {s : State} (h : (s.port p).role ≠ roleExport) :
    KeepsBut ps s (downEffect p s) := by
  unfold downEffect
  dsimp only
  split
  · exact forEach_related keepsBut_refl keepsBut_trans _ (fun _ _ _ => haltStage_keepsBut ..) s
  · split
    · exact forEach_related keepsBut_refl keepsBut_trans _ (fun _ _ _ => haltStage_keepsBut ..) s
    · exact keepsBut_refl s

/-- A STAGE or COLLECTIVE port that goes DOWN at a RESTORE. -/
theorem portDown_keepsBut {p : Nat} {s : State} (h : (s.port p).role ≠ roleExport) :
    KeepsBut [p] s (portDown p 4 s) ∧ ((portDown p 4 s).port p).state = 0 := by
  let f (q : Port) : Port := { q with state := 0, helloSent := false, helloOk := false }
  have hupd : KeepsBut [p] s (s.updPort p f) := keepsBut_updPort (f := f) (fun _ => rfl) s
  have hstate : ((s.updPort p f).port p).state = 0 := by rw [State.updPort_port_self]
  unfold portDown
  dsimp only
  split
  · have hraise : KeepsBut [] (s.updPort p f) (raise 0x0601 (portUnit p) 0 [(1, 4)] (s.updPort p f)) :=
      keepsBut_of_answerOnly (answerOnly_of_eventOnly (raise_eventOnly ..))
    have hdown := keepsBut_trans hraise (downEffect_keepsBut (ps := []) (p := p) (by rw [hraise.role, hupd.role]; exact h))
    exact ⟨keepsBut_trans hupd (keepsBut_mono hdown (List.nil_subset _)),
      (congrArg Port.state (hdown.port p (List.not_mem_nil))).trans hstate⟩
  · exact ⟨hupd, hstate⟩

/-- What a RESTORE does to one port. -/
def restoreLink (p : Nat) (s : State) : State :=
  let s := abandonExport p s
  let role := (s.port p).role
  if role = roleUp || role = roleDown || role = roleColl then
    (portDown p 4 s).updPort p fun q => { q with out := [], unacked := [] }
  else s

theorem restoreLinks_eq (s : State) :
    restoreLinks s = forEach (List.range 8) restoreLink (s.updJob fun j => { j with restores := j.restores + 1 }) := rfl

/-- A port is DOWN with nothing queued. -/
def Emptied (q : Port) : Prop := q.state = 0 ∧ q.out = [] ∧ q.unacked = []

theorem restoreLink_keepsBut (p : Nat) (s : State) : KeepsBut [p] s (restoreLink p s) ∧
    (1 ≤ (s.port p).role → (s.port p).role ≤ 3 → Emptied ((restoreLink p s).port p)) := by
  have hab := abandonExport_keepsBut p s
  have hrole := hab.role p
  unfold restoreLink
  dsimp only
  split
  · next hr =>
    have hne : ((abandonExport p s).port p).role ≠ roleExport := by
      intro he
      rw [he] at hr
      exact absurd hr (by decide)
    obtain ⟨hdown, hstate⟩ := portDown_keepsBut hne
    refine ⟨keepsBut_trans hab (keepsBut_trans hdown (keepsBut_updPort ?_ _)), fun _ _ => ?_⟩
    · exact fun _ => rfl
    rw [State.updPort_port_self]
    exact ⟨hstate, rfl, rfl⟩
  · next hr =>
    refine ⟨hab, fun h1 h3 => absurd ?_ hr⟩
    simp only [hrole, roleUp, roleDown, roleColl, Bool.or_eq_true, decide_eq_true_eq]
    omega

theorem forEach_restoreLink (ps : List Nat) : ∀ s : State, KeepsBut ps s (forEach ps restoreLink s) ∧
    ∀ p ∈ ps, 1 ≤ (s.port p).role → (s.port p).role ≤ 3 → Emptied ((forEach ps restoreLink s).port p) := by
  induction ps with
  | nil => exact fun s => ⟨keepsBut_refl s, fun p hp => absurd hp (by simp)⟩
  | cons p ps ih =>
    intro s
    obtain ⟨hone, hempty⟩ := restoreLink_keepsBut p s
    obtain ⟨hrest, hall⟩ := ih (restoreLink p s)
    refine ⟨keepsBut_trans (keepsBut_mono hone (by simp)) (keepsBut_mono hrest (List.subset_cons_self ..)), fun q hq h1 h3 => ?_⟩
    by_cases hin : q ∈ ps
    · exact hall q hin (by rw [hone.role]; exact h1) (by rw [hone.role]; exact h3)
    · obtain rfl : q = p := (List.mem_cons.mp hq).resolve_right hin
      change Emptied ((forEach ps restoreLink (restoreLink q s)).port q)
      rw [hrest.port q hin]
      exact hempty h1 h3

/-! ### Stages at a RESTORE (R382, R383) -/

/-- `t` differs from `s` at most where sections are installed, and keeps every stage but `v`. -/
structure InstallsAt (v : Nat) (s t : State) : Prop where
  frame : t = { s with mem := t.mem, badWords := t.badWords, engines := t.engines, stages := t.stages, transit := t.transit
                       ingest := t.ingest }
  others : ∀ u, u ≠ v → t.stage u = s.stage u

theorem installsAt_trans {v : Nat} {s t u : State} (h : InstallsAt v s t) (h' : InstallsAt v t u) : InstallsAt v s u :=
  ⟨by rw [h'.frame, h.frame], fun w hw => (h'.others w hw).trans (h.others w hw)⟩

/-- The stage part of installing a Tense (R195, R220, R241). -/
def installedTense (z commit : Nat) (adig : W128) (g : Stage) : Stage := { g with
  tenses := { state := 2, commit := commit, addr := g.image.buffers.getD 0 0, sdigAddr := g.sdigAddr 0, shards := z
              adig := adig } :: List.replicate 7 {}
  fullBuffer := 0, masterRole := 0, viewForward := none, viewBackward := none, wantForward := none, wantBackward := none
  flip := none, update := {}, dig := .idle, digValue := 0, digLen := 0, committing := none, commitDig := 0 }

/-- What installing a Tense writes: image, master heads and remainders, moments, digest table. -/
def tenseRuns (g : Stage) (z : Nat) (img heads moments table : List Byte) : List (Nat × List Byte) :=
  [(g.image.buffers.getD 0 0, fit (g.pages * 4096) img), (g.image.heads.getD 0 0, heads.take (2 * g.shardLen z)),
   (g.image.rems.getD 0 0, heads.drop (2 * g.shardLen z)), (g.image.moments.getD 0 0, moments), (g.sdigAddr 0, table)]

section
variable (v commit : Nat) (adig : W128) (img heads moments table : List Byte) (s : State)

theorem installTense_eq : installTense v commit adig img heads moments table s =
    (storeRuns (tenseRuns (s.stage v) s.job.z img heads moments table) s).updStage v (installedTense s.job.z commit adig) := rfl

theorem installTense_installs : InstallsAt v s (installTense v commit adig img heads moments table s) ∧
    (installTense v commit adig img heads moments table s).stage v = installedTense s.job.z commit adig (s.stage v) := by
  have hmem := storeRuns_memOnly (tenseRuns (s.stage v) s.job.z img heads moments table) s
  rw [installTense_eq]
  refine ⟨⟨by rw [hmem]; rfl, fun u hu => ?_⟩, ?_⟩
  · rw [State.updStage_stage_of_ne _ _ hu, storeRuns_stage]
  · rw [State.updStage_stage_self, storeRuns_stage]

end

/-- Cell registers that are written back change engines alone. -/
theorem installCells_engines (v : Nat) (sec : Option (List Byte)) (s : State) :
    installCells v sec s = { s with engines := (installCells v sec s).engines } := by
  unfold installCells
  split
  · rfl
  · refine forEach_related (R := fun s t : State => t = { s with engines := t.engines }) (fun _ => rfl) ?_ _ ?_ s
    · intro s t u h h'
      rw [h', h]
    · intro _ _ _
      rfl

/-- What RESTORE leaves of a stage with an image: its present Tense as saved, and no Clause, record or count. -/
def Restored (xs : List Section) (z : Nat) (image : StageImage) (h : Stage) : Prop :=
  let tag := (sectionOf xs 4 image.stage).getD []
  h.image = image ∧ h.forwardIn = {} ∧ h.backwardIn = {} ∧ h.forwardOut = {} ∧ h.backwardOut = {} ∧ h.takes = 0 ∧
    h.records = [] ∧ h.current = none ∧ h.update = {} ∧ h.exec = none ∧ h.restart = 0 ∧
    h.tenses = { state := 2, commit := fieldAt tag 4 4, addr := image.buffers.getD 0 0, sdigAddr := image.sdigArea
                 shards := z, adig := BitVec.ofNat 128 (fieldAt tag 16 16) } :: List.replicate 7 {}

theorem restored_installPred (xs : List Section) (z : Nat) (g : Stage) (sec : Option (List Byte)) :
    let tag := (sectionOf xs 4 g.image.stage).getD []
    let h := installedTense z (fieldAt tag 4 4) (BitVec.ofNat 128 (fieldAt tag 16 16)) g
    Restored xs z g.image (h.clearClauses.installPred sec) := by
  cases sec <;> exact ⟨rfl, rfl, rfl, rfl, rfl, rfl, rfl, rfl, rfl, rfl, rfl, rfl⟩

theorem installsAt_updStage (v : Nat) (f : Stage → Stage) (s : State) : InstallsAt v s (s.updStage v f) :=
  ⟨rfl, fun _ hu => State.updStage_stage_of_ne s f hu⟩

theorem installCells_installs (v : Nat) (sec : Option (List Byte)) (s : State) : InstallsAt v s (installCells v sec s) ∧
    (installCells v sec s).stage v = s.stage v := by
  have h := installCells_engines v sec s
  rw [h]
  exact ⟨⟨rfl, fun _ _ => rfl⟩, rfl⟩

section
variable (xs : List Section) (v : Nat) (s : State)

/-- The Inflector's run for a stage is dropped, and no update of it is ready. -/
def freeInflector : State :=
  s.updEng ((s.stage v).image.die * 128 + 97) fun e => { e.dropRun v with ready := e.ready.filter (· != v) }

theorem freeInflector_installs : InstallsAt v s (freeInflector v s) := ⟨rfl, fun _ _ => rfl⟩

/-- Then a Tense comes in. -/
def restoreTense : State :=
  let sec (k : Nat) : List Byte := (sectionOf xs k (s.stage v).image.stage).getD []
  installTense v (fieldAt (sec 4) 4 4) (BitVec.ofNat 128 (fieldAt (sec 4) 16 16)) (sec 1) (sec 2) (sec 3) ((sec 4).drop 32)
    (freeInflector v s)

/-- Then the predictor, with no Clause left, and the cells' registers. -/
def restoreCells : State :=
  installCells v (sectionOf xs 7 (s.stage v).image.stage) ((restoreTense xs v s).updStage v fun g =>
    g.clearClauses.installPred (sectionOf xs 5 (s.stage v).image.stage))

theorem restoreStage_eq : restoreStage xs v s = { restoreCells xs v s with
    transit := (restoreCells xs v s).transit.filter fun m => m.stage != (s.stage v).image.stage } := rfl

/-- Installing one stage restores it and leaves every other. -/
theorem restoreStage_restores : InstallsAt v s (restoreStage xs v s) ∧
    Restored xs s.job.z (s.stage v).image ((restoreStage xs v s).stage v) := by
  let tag := (sectionOf xs 4 (s.stage v).image.stage).getD []
  obtain ⟨htense, hstage⟩ : InstallsAt v s (restoreTense xs v s) ∧ (restoreTense xs v s).stage v =
      installedTense s.job.z (fieldAt tag 4 4) (BitVec.ofNat 128 (fieldAt tag 16 16)) (s.stage v) := by
    obtain ⟨h, hg⟩ := installTense_installs v (fieldAt tag 4 4) (BitVec.ofNat 128 (fieldAt tag 16 16))
      ((sectionOf xs 1 (s.stage v).image.stage).getD []) ((sectionOf xs 2 (s.stage v).image.stage).getD [])
      ((sectionOf xs 3 (s.stage v).image.stage).getD []) (tag.drop 32) (freeInflector v s)
    exact ⟨installsAt_trans (freeInflector_installs v s) h, hg⟩
  obtain ⟨hcells, hkept⟩ := installCells_installs v (sectionOf xs 7 (s.stage v).image.stage)
    ((restoreTense xs v s).updStage v fun g => g.clearClauses.installPred (sectionOf xs 5 (s.stage v).image.stage))
  rw [restoreStage_eq]
  refine ⟨installsAt_trans (installsAt_trans htense (installsAt_trans (installsAt_updStage ..) hcells)) ⟨rfl, fun _ _ => rfl⟩, ?_⟩
  change Restored xs s.job.z (s.stage v).image ((restoreCells xs v s).stage v)
  rw [restoreCells, hkept, State.updStage_stage_self, hstage]
  exact restored_installPred xs s.job.z (s.stage v) _

end

/-- `t` differs from `s` at most where sections are installed. -/
def InstallOnly (s t : State) : Prop :=
  t = { s with mem := t.mem, badWords := t.badWords, engines := t.engines, stages := t.stages, transit := t.transit
               ingest := t.ingest }

section
variable {s t : State} (h : InstallOnly s t)
include h

theorem InstallOnly.chip_eq : t.chip = s.chip := by rw [h]
theorem InstallOnly.flash_eq : t.flash = s.flash := by rw [h]
theorem InstallOnly.job_eq : t.job = s.job := by rw [h]
theorem InstallOnly.port_eq (p : Nat) : t.port p = s.port p := by rw [h]; rfl

end

theorem installOnly_trans {s t u : State} (h : InstallOnly s t) (h' : InstallOnly t u) : InstallOnly s u := by
  unfold InstallOnly at *
  rw [h', h]

/-- Every stage of a list is restored, and every other stands. -/
theorem forEach_restoreStage (xs : List Section) (vs : List Nat) : ∀ s : State,
    let t := forEach vs (restoreStage xs) s
    InstallOnly s t ∧ (∀ u, u ∉ vs → t.stage u = s.stage u) ∧
      ∀ v ∈ vs, Restored xs s.job.z (s.stage v).image (t.stage v) := by
  induction vs with
  | nil => exact fun s => ⟨rfl, fun _ _ => rfl, fun v hv => absurd hv (by simp)⟩
  | cons v vs ih =>
    intro s
    obtain ⟨hone, hv⟩ := restoreStage_restores xs v s
    obtain ⟨hrest, hout, hall⟩ := ih (restoreStage xs v s)
    have hjob : (restoreStage xs v s).job = s.job := InstallOnly.job_eq hone.frame
    refine ⟨installOnly_trans hone.frame hrest, fun u hu => ?_, fun u hu => ?_⟩
    · rw [List.mem_cons, not_or] at hu
      exact (hout u hu.2).trans (hone.others u hu.1)
    · have himage : ((restoreStage xs v s).stage u).image = (s.stage u).image := by
        by_cases he : u = v
        · subst he; exact hv.1
        · rw [hone.others u he]
      by_cases hin : u ∈ vs
      · have := hall u hin
        rwa [hjob, himage] at this
      · obtain rfl : u = v := (List.mem_cons.mp hu).resolve_right hin
        change Restored xs s.job.z (s.stage u).image ((forEach vs (restoreStage xs) (restoreStage xs u s)).stage u)
        rw [hout u hin]
        exact hv

/-- The sections that belong to no stage change the ingest die and engines. -/
theorem restoreCommon_frame (xs : List Section) (s : State) :
    restoreCommon xs s = { s with engines := (restoreCommon xs s).engines, ingest := (restoreCommon xs s).ingest } := by
  unfold restoreCommon
  refine forEach_related (R := fun s t : State => t = { s with engines := t.engines, ingest := t.ingest }) (fun _ => rfl)
    ?_ _ ?_ s
  · intro s t u h h'
    rw [h', h]
  · intro x _ t
    split
    · rfl
    · split <;> rfl

theorem restoreCommon_installs (xs : List Section) (s : State) :
    InstallOnly s (restoreCommon xs s) ∧ ∀ v, (restoreCommon xs s).stage v = s.stage v := by
  rw [restoreCommon_frame]
  exact ⟨rfl, fun _ => rfl⟩

/-! ### RESTORE (R382, R383) -/

/-- The state after a RESTORE whose sections all pass. -/
def restored (xs : List Section) (s : State) : State :=
  restoreCommon xs (forEach s.loadedStages (restoreStage xs) (restoreLinks s))

theorem restore_eq {c : Cmd} {s : State} {xs : List Section} (hbuf : BufferOk c)
    (hxs : unpackSections (memBytes s.hostMem (c.arg 0 8) (c.arg 8 8)) = .ok xs) (hok : ∀ x ∈ xs, sectionOk s x = true)
    (hall : s.missing xs = none) (hpres : StagesPresent s) (hoff : s.offloadWaits = false) :
    restore c s = .ok (restored xs s) := by
  have hfind : (xs.find? fun x => !sectionOk s x) = none := List.find?_eq_none.mpr fun x hx => by simp [hok x hx]
  unfold restore
  simp only [bufferOk_not_refused hbuf, hxs, hfind, hall, find_absent_of_present hpres, hoff, Bool.false_eq_true, if_false]
  rfl

theorem exec_restore_eq {c : Cmd} {s : State} {xs : List Section} (hacc : Accepted c restoreSpec s) (hbuf : BufferOk c)
    (hxs : unpackSections (memBytes s.hostMem (c.arg 0 8) (c.arg 8 8)) = .ok xs) (hok : ∀ x ∈ xs, sectionOk s x = true)
    (hall : s.missing xs = none) (hpres : StagesPresent s) (hoff : s.offloadWaits = false) :
    Answers (.restore c) c s [] [] (restored xs (takeEntry c s)) := by
  have hpres' : StagesPresent (takeEntry c s) := by simpa [StagesPresent] using hpres
  have hrun := runCmd_of_accepted hacc (by decide) (restore c)
  rwa [restore_eq hbuf (by simpa using hxs) (by simpa using hok) (by simpa using hall) hpres' (by simpa using hoff)] at hrun

/-- What a RESTORE keeps of the chip, the flash and the job, where it leaves the links, and how it leaves the stages. -/
theorem restored_facts (xs : List Section) (s : State) : let t := restored xs s
    t.job.restores = s.job.restores + 1 ∧ t.job.state = s.job.state ∧ t.flash = s.flash ∧ t.chip = s.chip ∧
      (∀ p, p < 8 → 1 ≤ (s.port p).role → (s.port p).role ≤ 3 → Emptied (t.port p)) ∧
      ∀ v ∈ s.loadedStages, Restored xs s.job.z (s.stage v).image (t.stage v) := by
  let l := restoreLinks s
  obtain ⟨hlinks, hports⟩ := forEach_restoreLink (List.range 8) (s.updJob fun j => { j with restores := j.restores + 1 })
  rw [← restoreLinks_eq] at hlinks hports
  obtain ⟨hinstall, _, hstages⟩ := forEach_restoreStage xs s.loadedStages l
  obtain ⟨hcommon, hstage⟩ := restoreCommon_installs xs (forEach s.loadedStages (restoreStage xs) l)
  have hall : InstallOnly l (restored xs s) := installOnly_trans hinstall hcommon
  intro t
  refine ⟨?_, ?_, hall.flash_eq.trans hlinks.flash, hall.chip_eq.trans hlinks.chip, fun p hp h1 h3 => ?_, fun v hv => ?_⟩
  · rw [hall.job_eq, hlinks.job]; rfl
  · rw [hall.job_eq, hlinks.job]; rfl
  · rw [hall.port_eq]
    exact hports p (List.mem_range.mpr hp) h1 h3
  · have hz : l.job.z = s.job.z := by rw [hlinks.job]; rfl
    have hv' := hstages v hv
    rw [hz, hlinks.image] at hv'
    rw [show t.stage v = _ from hstage v]
    exact hv'

/-! ### TENSE_EXPORT (R219, R353, R405) -/

theorem tenseExport_waits {c : Cmd} {s : State} (h : exportWaits c s = true) : exec (.tenseExport c) s = .next s := if_pos h

section
variable {c : Cmd} {s : State} {v p : Nat} {u : TenseSlot} (harg : c.arg 0 2 ≠ 0xFFFF) (hv : s.findStage (c.arg 0 2) = some v)
  (hexp : c.expert = true → c.arg 8 1 ≤ 7) (hu : (s.stage v).exported c = some u) (hp : exportPort c s = some p)
  (hgood : s.badAmong ((s.stage v).slotRecord v u.commit ++ (s.stage v).sourceRanges u) = none)
  (hdig : exportBad s (s.stage v) u (s.materialise (s.stage v) u) = false)
include harg hv hexp hu hp hgood hdig

/-- TENSE_EXPORT of one stage goes on with the one slot. -/
theorem tenseExport_of_one : tenseExport c s = .goesOn (startExport p (v, u, false) s) := by
  have hnamed : s.named (c.arg 0 2) = [v] := by
    unfold State.named
    rw [if_neg harg, hv]
  have hrange : (c.expert && decide (c.arg 8 1 > 7)) = false := by
    cases he : c.expert with
    | false => rfl
    | true => simpa using hexp he
  unfold tenseExport
  simp [hnamed, hrange, hu, hp, hgood, hdig, number, forEach]

theorem exec_tenseExport_eq (hacc : Accepted c exportSpec s) (hfree : exportWaits c s = false) :
    GoesOn (.tenseExport c) c s (startExport p (v, u, false) (takeEntry c s)) := by
  have hrun := runCmd_of_accepted hacc (by decide) (tenseExport c)
  rw [tenseExport_of_one harg (by simpa using hv) hexp (by simpa using hu) (by simpa using hp) (by simpa using hgood)
    (by simpa using hdig)] at hrun
  exact (if_neg (by simp [hfree])).trans hrun

end

/-- Two messages wait on a port, and a salt has been drawn between them (R395). -/
def queueTwo (p : Nat) (m m' : OutMsg) (s : State) : State := queueOn p m' (queueOn p m s).drawn

section
variable (p : Nat) (m m' : OutMsg) (s : State)

theorem queueTwo_frame : queueTwo p m m' s = { s with ports := (queueTwo p m m' s).ports, freeCount := s.freeCount + 32 } := rfl

theorem queueTwo_out : ((queueTwo p m m' s).port p).out = (s.port p).out ++ [m, m'] := by
  have hlast : ((queueTwo p m m' s).port p).out = ((queueOn p m s).port p).out ++ [m'] :=
    congrArg Port.out (State.updPort_port_self (queueOn p m s).drawn p _)
  rw [hlast, queueOn, State.updPort_port_self, List.append_assoc]
  rfl

end

/-- A stage's slots of a tag are pinned (R219). -/
def pinTag (commit : Nat) (g : Stage) : Stage := { g with
  tenses := g.tenses.map fun u => if u.holds && u.commit == commit then { u with pin := true } else u }

theorem pinTag_pins (commit : Nat) (g : Stage) : ∀ x ∈ (pinTag commit g).tenses, x.holds = true → x.commit = commit →
    x.pin = true := by
  intro x hx hholds hcommit
  obtain ⟨y, _, rfl⟩ := List.mem_map.mp hx
  split at hholds
  · next hc => rw [if_pos hc]
  · next hc =>
    rw [if_neg hc] at hcommit
    exact absurd (by simp [hholds, hcommit]) hc

section
variable (p v : Nat) (u : TenseSlot) (s : State)

/-- The slot is pinned, and the job counts the slot and lists it (R376). -/
def noteExport : State := (s.updStage v (pinTag u.commit)).updJob fun j => { j with
  exports := j.exports + 1, exporting := j.exporting ++ [(p, s.job.exports.toNat, (s.stage v).image.stage, u.commit)] }

/-- The image of an exported slot. -/
def exportImage : List Byte := (s.materialise (s.stage v) u).take (s.stage v).image.imageSize

theorem startExport_eq : startExport p (v, u, false) s =
    queueTwo p (exportMessage 2 (s.stage v).image.stage s.job.exports.toNat 0 (exportImage v u s))
      (exportMessage 3 (s.stage v).image.stage s.job.exports.toNat (cdiv (exportImage v u s).length 480)
        (manifest s (s.stage v) u s.job.exports.toNat (exportImage v u s))) (noteExport p v u s) := rfl

end

/-- Sending one slot out: what changes, the job's list, the messages that wait, the pin, and the other stages. -/
theorem startExport_facts (p v : Nat) (u : TenseSlot) (s : State) :
    let t := startExport p (v, u, false) s
    let g := s.stage v
    let no := s.job.exports.toNat
    let img := (s.materialise g u).take g.image.imageSize
    t = { s with stages := t.stages, ports := t.ports, job := t.job, freeCount := s.freeCount + 32 } ∧
      t.job = { s.job with exports := s.job.exports + 1
                           exporting := s.job.exporting ++ [(p, no, g.image.stage, u.commit)] } ∧
      (t.port p).out = (s.port p).out ++ [exportMessage 2 g.image.stage no 0 img,
        exportMessage 3 g.image.stage no (cdiv img.length 480) (manifest s g u no img)] ∧
      (∀ x ∈ (t.stage v).tenses, x.holds = true → x.commit = u.commit → x.pin = true) ∧ ∀ w, w ≠ v → t.stage w = s.stage w := by
  rw [startExport_eq]
  refine ⟨queueTwo_frame .., rfl, queueTwo_out .., ?_, fun w hw => ?_⟩
  · have hstage : ((noteExport p v u s).stage v) = pinTag u.commit (s.stage v) := State.updStage_stage_self s v _
    rw [queueTwo_frame]
    change ∀ x ∈ ((noteExport p v u s).stage v).tenses, _
    rw [hstage]
    exact pinTag_pins u.commit (s.stage v)
  · rw [queueTwo_frame]
    exact State.updStage_stage_of_ne s _ hw

/-- Settles O45: a packed list's directory gives each section back; CHECKPOINT is one write into host memory; RESTORE takes the
links down, then installs stage after stage, each leaving the others; and TENSE_EXPORT of one stage pins its slot and queues two
messages. -/
theorem checkpointRestoreExport : Obligations.CheckpointRestoreExport := by
  unfold Obligations.CheckpointRestoreExport
  refine ⟨fun job rank z xs hall hn hlen => unpackSections_packSections hall hn hlen, ?_⟩
  intro c s s0 bs there present
  refine ⟨?waits, ?writes, ?short, ?restore, ?exports, tenseExport_waits⟩
  case waits =>
    intro hacc hbuf hpres hbad hfits hoff
    have hroom : ¬ c.arg 8 8 < (checkpointBytes c s).length := Nat.not_lt.mpr hfits
    refine (exec_checkpoint_eq hacc hbuf hpres hbad).trans ?_
    rw [if_neg hroom, if_pos hoff]
    rfl
  case writes =>
    intro hacc hbuf hpres hbad hfits hoff
    have hroom : ¬ c.arg 8 8 < (checkpointBytes c s).length := Nat.not_lt.mpr hfits
    refine ⟨{ s0 with hostMem := memWriteBytes s.hostMem (c.arg 0 8) bs }, (exec_checkpoint_eq hacc hbuf hpres hbad).trans ?_,
      rfl, memRead_memWriteBytes _ _ _⟩
    rw [if_neg hroom, hoff, if_neg Bool.false_ne_true]
    rfl
  case short =>
    intro hacc hbuf hpres hbad hshort
    refine (exec_checkpoint_eq hacc hbuf hpres hbad).trans ?_
    rw [if_pos (show c.arg 8 8 < (checkpointBytes c s).length from hshort)]
    rfl
  case restore =>
    intro xs hacc hbuf hxs hok hall hpres hoff
    have hfacts := restored_facts xs s0
    simp only [s0, takeEntry_job, takeEntry_flash, takeEntry_chip, takeEntry_port, takeEntry_loadedStages,
      takeEntry_stage] at hfacts
    exact ⟨_, exec_restore_eq hacc hbuf hxs hok hall hpres hoff, hfacts⟩
  case exports =>
    intro v u p hacc hfree harg hv hexp hu hp hgood hdig g no img
    have hfacts := startExport_facts p v u s0
    simp only [s0, takeEntry_freeCount, takeEntry_job, takeEntry_stage, takeEntry_port, takeEntry_materialise,
      takeEntry_manifest] at hfacts
    exact ⟨_, exec_tenseExport_eq harg hv hexp hu hp hgood hdig hacc hfree, hfacts⟩

end Sys2Proof.TenseState

/-!
The statements on silent errors and their reports: the settings of one command each (O46), the reports (O39), and field
tests, the fault history and the repeats of captured tiles (O47).
-/
namespace Sys2Proof.SilentErrors
open Sys2Proof.Machine Sys2Proof.NumberFormats Sys2Proof.OverflowReplay Sys2Proof.VectorEngine
  Sys2Proof.StagesAndClauses Sys2Proof.TenseState

/-! ### What a verdict changes (R264, R268, R269) -/

/-- Of memory, the running commands and the faults, `t` differs from `s` only in the records still to be written. -/
structure NotesOnly (s t : State) : Prop where
  mem : t.mem = s.mem
  running : t.running = s.running
  faults : t.faults = { s.faults with toWrite := t.faults.toWrite }

section
variable {s t u : State}

theorem notesOnly_refl (s : State) : NotesOnly s s := ⟨rfl, rfl, rfl⟩

theorem notesOnly_trans (h : NotesOnly s t) (h' : NotesOnly t u) : NotesOnly s u where
  mem := h'.mem.trans h.mem
  running := h'.running.trans h.running
  faults := by rw [h'.faults, h.faults]

theorem notesOnly_of_eventOnly (h : EventOnly s t) : NotesOnly s t where
  mem := h.mem_eq
  running := h.running_eq
  faults := by rw [h.faults_eq]

theorem notesOnly_noteRecord (r : RecordReq) (h : NotesOnly s t) : NotesOnly s (noteRecord r t) :=
  notesOnly_trans h ⟨rfl, rfl, rfl⟩

theorem notesOnly_raise (code unit cls : Nat) (items : List (Nat × Nat)) (h : NotesOnly s t) :
    NotesOnly s (raise code unit cls items t) :=
  notesOnly_trans h (notesOnly_of_eventOnly (raise_eventOnly ..))

theorem notesOnly_goOutOfService (seq : Nat) (h : NotesOnly s t) : NotesOnly s (goOutOfService seq t) := by
  refine notesOnly_trans h ?_
  unfold goOutOfService
  split
  · exact notesOnly_refl t
  · have hchip : NotesOnly t (t.updChip fun c => { c with outOfService := true, service := 3 }) := ⟨rfl, rfl, rfl⟩
    exact notesOnly_trans (notesOnly_noteRecord _ (notesOnly_raise 0x0306 parserUnit 0 [(4, seq)] hchip))
      (notesOnly_of_eventOnly (statusIrq_eventOnly _))

theorem notesOnly_ite {b : Prop} [Decidable b] (h : b → NotesOnly s t) (h' : ¬ b → NotesOnly s u) :
    NotesOnly s (if b then t else u) := by
  split
  · exact h ‹_›
  · exact h' ‹_›

end

/-- The faults with one more retired unit. -/
def retireUnit (unit cls phys : Nat) (f : Faults) : Faults :=
  { f with retired := f.retired ++ [(unit, cls, phys)], retiredInJob := f.retiredInJob ++ [(unit, cls)] }

theorem consequence_notesOnly (unit cls phys seq : Nat) (s : State) :
    NotesOnly (s.updFaults (retireUnit unit cls phys)) (consequence unit cls phys seq s) :=
  have hnoted := notesOnly_noteRecord _ (notesOnly_raise _ _ _ _ (notesOnly_refl _))
  notesOnly_ite (fun _ => notesOnly_goOutOfService seq hnoted) (fun _ => hnoted)

/-- Does a record give its verdict on another unit than the one that it names (log 134)? -/
def namesOther (r : RecordReq) (unit cls : Nat) : Bool :=
  decide (1 ≤ r.verdict) && decide (r.verdict ≤ 3) && (r.unit != unit || r.cls != cls)

/-- The faults with a record of this SEQ noted whose verdict is on another unit. -/
def suspected (seq : Nat) (r : RecordReq) (unit cls : Nat) (f : Faults) : Faults :=
  if namesOther r unit cls then { f with suspects := f.suspects ++ [(seq, unit, cls)] } else f

/-- The faults after the verdict of a record with this SEQ on a unit, but for what is still to be written. -/
def judged (seq : Nat) (r : RecordReq) (unit cls phys : Nat) (f : Faults) : Faults :=
  if r.verdict = 2 ∨ r.verdict = 3 then retireUnit unit cls phys (suspected seq r unit cls f) else suspected seq r unit cls f

theorem notesOnly_retireUnit {s t : State} (unit cls phys : Nat) (h : NotesOnly s t) :
    NotesOnly (s.updFaults (retireUnit unit cls phys)) (t.updFaults (retireUnit unit cls phys)) where
  mem := h.mem
  running := h.running
  faults := by
    simp only [State.updFaults, retireUnit]
    rw [h.faults]

theorem suspected_notesOnly {s t : State} (h : EventOnly s t) (seq : Nat) (r : RecordReq) (unit cls : Nat) :
    NotesOnly (s.updFaults (suspected seq r unit cls)) (if namesOther r unit cls then
      t.updFaults (fun f => { f with suspects := f.suspects ++ [(seq, unit, cls)] }) else t) := by
  unfold suspected
  split
  · exact ⟨h.mem_eq, h.running_eq, by simp only [State.updFaults, h.faults_eq]⟩
  · exact notesOnly_of_eventOnly h

theorem classifyAs_notesOnly (r : RecordReq) (unit cls phys : Nat) (s : State) :
    NotesOnly (s.updFaults (judged s.nextSeq r unit cls phys)) (classifyAs r unit cls phys s) := by
  have hraise := raise_eventOnly 0x0304 unit cls [(1, phys), (1, r.verdict), (4, s.nextSeq)] s
  have hnoted := notesOnly_noteRecord r (suspected_notesOnly hraise s.nextSeq r unit cls)
  have hretired := notesOnly_trans (notesOnly_retireUnit unit cls phys hnoted) (consequence_notesOnly unit cls phys s.nextSeq _)
  by_cases hv : r.verdict = 2 ∨ r.verdict = 3
  · have hb : (decide (r.verdict = 2) || decide (r.verdict = 3)) = true := by simpa using hv
    unfold classifyAs judged
    simp only [hb, hv, if_true]
    exact hretired
  · have hb : ¬ (decide (r.verdict = 2) || decide (r.verdict = 3)) = true := by simpa using hv
    unfold classifyAs judged
    simp only [hb, hv, if_false]
    exact hnoted

theorem judged_retired (seq : Nat) (r : RecordReq) (unit cls phys : Nat) (f : Faults) :
    (judged seq r unit cls phys f).retired =
      f.retired ++ if r.verdict = 2 ∨ r.verdict = 3 then [(unit, cls, phys)] else [] := by
  have hsus : (suspected seq r unit cls f).retired = f.retired := by unfold suspected; split <;> rfl
  unfold judged
  split
  · rw [← hsus]; rfl
  · rw [hsus, List.append_nil]

theorem judged_suspects (seq : Nat) (r : RecordReq) (unit cls phys : Nat) (f : Faults) :
    (judged seq r unit cls phys f).suspects = f.suspects ++ if namesOther r unit cls then [(seq, unit, cls)] else [] := by
  have hsus : (suspected seq r unit cls f).suspects =
      f.suspects ++ if namesOther r unit cls then [(seq, unit, cls)] else [] := by
    unfold suspected
    split
    · rfl
    · rw [List.append_nil]
  unfold judged
  split
  · exact hsus
  · exact hsus

theorem judged_frame (seq : Nat) (r : RecordReq) (unit cls phys : Nat) (f : Faults) :
    judged seq r unit cls phys f = { f with
      retired := (judged seq r unit cls phys f).retired, retiredInJob := (judged seq r unit cls phys f).retiredInJob
      suspects := (judged seq r unit cls phys f).suspects } := by
  unfold judged suspected
  split <;> split <;> rfl

/-- Of memory, the running commands and the faults, `t` differs from `s` only in what verdicts write. -/
structure VerdictsOnly (s t : State) : Prop where
  mem : t.mem = s.mem
  running : t.running = s.running
  faults : t.faults = { s.faults with
    toWrite := t.faults.toWrite, retired := t.faults.retired, retiredInJob := t.faults.retiredInJob
    suspects := t.faults.suspects }

theorem verdictsOnly_of_notesOnly {s t : State} {F : Faults → Faults} (h : NotesOnly (s.updFaults F) t)
    (hF : F s.faults = { s.faults with
      retired := (F s.faults).retired, retiredInJob := (F s.faults).retiredInJob, suspects := (F s.faults).suspects }) :
    VerdictsOnly s t where
  mem := h.mem
  running := h.running
  faults := by
    have hf : t.faults = { F s.faults with toWrite := t.faults.toWrite } := h.faults
    rw [hF] at hf
    rw [hf]

theorem classifyAs_verdictsOnly (r : RecordReq) (unit cls phys : Nat) (s : State) :
    VerdictsOnly s (classifyAs r unit cls phys s) :=
  verdictsOnly_of_notesOnly (classifyAs_notesOnly r unit cls phys s) (judged_frame ..)

theorem classifyAs_retired (r : RecordReq) (unit cls phys : Nat) (s : State) :
    (classifyAs r unit cls phys s).faults.retired =
      s.faults.retired ++ if r.verdict = 2 ∨ r.verdict = 3 then [(unit, cls, phys)] else [] := by
  rw [(classifyAs_notesOnly r unit cls phys s).faults]
  exact judged_retired ..

theorem classifyAs_suspects (r : RecordReq) (unit cls phys : Nat) (s : State) :
    (classifyAs r unit cls phys s).faults.suspects =
      s.faults.suspects ++ if namesOther r unit cls then [(s.nextSeq, unit, cls)] else [] := by
  rw [(classifyAs_notesOnly r unit cls phys s).faults]
  exact judged_suspects ..

theorem classify_verdictsOnly (r : RecordReq) (s : State) : VerdictsOnly s (classify r s) := classifyAs_verdictsOnly ..

theorem classify_retired (r : RecordReq) (s : State) : (classify r s).faults.retired =
    s.faults.retired ++ if r.verdict = 2 ∨ r.verdict = 3 then [(r.unit, r.cls, r.phys)] else [] := classifyAs_retired ..

section
variable {s t u : State}

theorem VerdictsOnly.records_eq (h : VerdictsOnly s t) : t.faults.records = s.faults.records := by rw [h.faults]
theorem VerdictsOnly.seq_eq (h : VerdictsOnly s t) : t.faults.seq = s.faults.seq := by rw [h.faults]

theorem verdictsOnly_refl (s : State) : VerdictsOnly s s := ⟨rfl, rfl, rfl⟩

theorem verdictsOnly_trans (h : VerdictsOnly s t) (h' : VerdictsOnly t u) : VerdictsOnly s u where
  mem := h'.mem.trans h.mem
  running := h'.running.trans h.running
  faults := by rw [h'.faults, h.faults]

theorem testNames_of_verdictsOnly (h : VerdictsOnly s t) (x : TestResult) : testNames t x = testNames s x := by
  unfold testNames State.grade
  rw [h.faults]

theorem testRecord_of_verdictsOnly (h : VerdictsOnly s t) (x : TestResult) : testRecord t x = testRecord s x := by
  unfold testRecord
  rw [h.faults]
  rfl

end

/-! ### The results of a field test (R262) -/

/-- The units that the PERMANENT ones among a test's results retire. -/
def retiredBy (s : State) (xs : List TestResult) : List (Nat × Nat × Nat) :=
  (xs.filter fun x => testNames s x && testOutcome x == 2).map fun x => (x.unit.toNat, x.cls.toNat, (testRecord s x).phys)

theorem testVerdict_verdictsOnly (x : TestResult) (s : State) : VerdictsOnly s (testVerdict x s) := by
  unfold testVerdict
  split
  · exact classifyAs_verdictsOnly ..
  · exact verdictsOnly_refl s

theorem testOutcome_eq_two_iff (x : TestResult) :
    testOutcome x = 2 ↔ x.first ≠ testReference x ∧ x.again ≠ testReference x := by
  unfold testOutcome
  split
  · next h => simp [h]
  · next h => split <;> simp_all

theorem testOutcome_eq_zero {x : TestResult} (h : x.first = testReference x) : testOutcome x = 0 := if_pos h

theorem testOutcome_le (x : TestResult) : testOutcome x ≤ 2 := by
  unfold testOutcome
  split
  · exact Nat.zero_le 2
  · split
    · exact Nat.le_succ 1
    · exact Nat.le_refl 2

theorem testVerdict_of_pass {x : TestResult} (h : testOutcome x = 0) (s : State) : testVerdict x s = s := by
  unfold testVerdict
  rw [h]
  simp

theorem testVerdict_of_not_named {x : TestResult} {s : State} (h : testNames s x = false) : testVerdict x s = s := by
  unfold testVerdict
  rw [h]
  rfl

theorem testVerdict_retired (x : TestResult) (s : State) :
    (testVerdict x s).faults.retired = s.faults.retired ++ retiredBy s [x] := by
  cases hnames : testNames s x
  · rw [testVerdict_of_not_named hnames]
    simp [retiredBy, hnames]
  · have hcases : testOutcome x = 0 ∨ testOutcome x = 1 ∨ testOutcome x = 2 := by have := testOutcome_le x; omega
    rcases hcases with h | h | h
    · rw [testVerdict_of_pass h]
      simp [retiredBy, h]
    · have hv : (testRecord s x).verdict = 1 := h
      simp [testVerdict, retiredBy, hnames, h, classify_retired, hv]
    · have hv : (testRecord s x).verdict = 2 := h
      simp [testVerdict, retiredBy, hnames, h, classify_retired, hv]
      exact ⟨rfl, rfl⟩

theorem retiredBy_of_verdictsOnly {s t : State} (h : VerdictsOnly s t) (xs : List TestResult) :
    retiredBy t xs = retiredBy s xs := by
  unfold retiredBy
  simp only [testNames_of_verdictsOnly h, testRecord_of_verdictsOnly h]

theorem retiredBy_cons (s : State) (x : TestResult) (xs : List TestResult) :
    retiredBy s (x :: xs) = retiredBy s [x] ++ retiredBy s xs := by
  unfold retiredBy
  rw [← List.map_append, ← List.filter_append]
  rfl

theorem forEach_testVerdict (xs : List TestResult) : ∀ s : State, VerdictsOnly s (forEach xs testVerdict s) ∧
    (forEach xs testVerdict s).faults.retired = s.faults.retired ++ retiredBy s xs := by
  induction xs with
  | nil => exact fun s => ⟨verdictsOnly_refl s, (List.append_nil _).symm⟩
  | cons x xs ih =>
    intro s
    have hone := testVerdict_verdictsOnly x s
    obtain ⟨hrest, hret⟩ := ih (testVerdict x s)
    refine ⟨verdictsOnly_trans hone hrest, hret.trans ?_⟩
    rw [testVerdict_retired, retiredBy_of_verdictsOnly hone, List.append_assoc, ← retiredBy_cons]

/-- A walk whose every step leaves the state leaves it. -/
theorem forEach_eq_self {α : Type} {f : α → State → State} {s : State} (xs : List α) (h : ∀ x ∈ xs, f x s = s) :
    forEach xs f s = s := by
  induction xs with
  | nil => rfl
  | cons x xs ih =>
    change forEach xs f (f x s) = s
    rw [h x (by simp), ih fun y hy => h y (by simp [hy])]

theorem complete_running (mb : Mailbox) (opcode id respAddr status : Nat) (result resp : List Byte) (s : State) :
    (complete mb opcode id respAddr status result resp s).running = s.running := by
  have hwalk {α : Type} (f : α → State → State) (hf : ∀ x t, (f x t).running = t.running) (xs : List α) (t : State) :
      (forEach xs f t).running = t.running :=
    forEach_related (R := fun s t => t.running = s.running) (fun _ => rfl) (fun h h' => h'.trans h) xs (fun x _ => hf x) t
  unfold complete
  cases mb with
  | host m => exact (eventOnly_trans (putEntry_eventOnly ..) (signalMailbox_eventOnly ..)).running_eq
  | guest p m =>
    refine (appoSend_eventOnly ..).running_eq.trans (hwalk _ (fun i t => ?_) _ s)
    exact (appoSend_eventOnly ..).running_eq
  | mgmt m =>
    refine hwalk _ (fun _ _ => ?_) _ s
    rfl

theorem completeRunning_running (r : Running) (status : Nat) (result : List Byte) (s : State) :
    (completeRunning r status result s).running = s.running.erase r := complete_running ..

theorem completeRunning_faults (r : Running) (status : Nat) (result : List Byte) (s : State) :
    (completeRunning r status result s).faults = s.faults := by
  rw [completeRunning_answerOnly r status result s]

theorem completeRunning_mem (r : Running) (status : Nat) (result : List Byte) (s : State) :
    (completeRunning r status result s).mem = s.mem := by
  rw [completeRunning_answerOnly r status result s]

/-- What the end of a field test leaves and writes: of the faults, only its own entry, the captures and what its results
write. -/
theorem endTest_facts (f : FieldTest) (xs : List TestResult) (s : State) :
    (endTest f xs s).mem = s.mem ∧ (endTest f xs s).running = s.running.erase f.cmd ∧ (endTest f xs s).faults.test = none ∧
    (endTest f xs s).faults.retired = s.faults.retired ++ retiredBy s xs ∧
    (endTest f xs s).faults.toWrite = (forEach xs testVerdict s).faults.toWrite := by
  obtain ⟨hverdicts, hretired⟩ := forEach_testVerdict xs s
  let s1 := forEach xs testVerdict s
  let s2 := if bitAt f.mask 3 then endRepeats s1 else s1
  let items := [(1, f.scope), (1, f.mask), (4, countVerdict 0 xs), (4, countVerdict 1 xs), (4, countVerdict 2 xs),
    (1, bit f.part)]
  have hrep : s2.mem = s1.mem ∧ s2.running = s1.running ∧ s2.faults.retired = s1.faults.retired ∧
      s2.faults.toWrite = s1.faults.toWrite := by
    simp only [s2]
    split <;> exact ⟨rfl, rfl, rfl, rfl⟩
  obtain ⟨hmem, hrun, hret, hwrite⟩ := hrep
  have hraise := raiseParser_eventOnly 0x0307 items s2
  have hend : endTest f xs s = completeRunning f.cmd stOk [] ((raiseParser 0x0307 items s2).updFaults fun f =>
    { f with test := none }) := rfl
  rw [hend, completeRunning_mem, completeRunning_running, completeRunning_faults]
  refine ⟨?_, ?_, rfl, ?_, ?_⟩
  · exact (hraise.mem_eq.trans hmem).trans hverdicts.mem
  · exact congrArg (List.erase · f.cmd) ((hraise.running_eq.trans hrun).trans hverdicts.running)
  · exact ((congrArg Faults.retired hraise.faults_eq).trans hret).trans hretired
  · exact (congrArg Faults.toWrite hraise.faults_eq).trans hwrite

theorem mem_retiredBy {s : State} {x : TestResult} {xs : List TestResult} (hx : x ∈ xs) (hn : testNames s x = true)
    (ho : testOutcome x = 2) : (x.unit.toNat, x.cls.toNat, (testRecord s x).phys) ∈ retiredBy s xs :=
  List.mem_map.mpr ⟨x, List.mem_filter.mpr ⟨hx, by simp [hn, ho]⟩, rfl⟩

theorem retiredBy_eq_nil {s : State} {xs : List TestResult} (h : ∀ x ∈ xs, testOutcome x ≠ 2) : retiredBy s xs = [] := by
  unfold retiredBy
  rw [List.map_eq_nil_iff, List.filter_eq_nil_iff]
  intro x hx
  simp [h x hx]

theorem exec_fieldTestDone_eq {ts : List TestResult} {f : FieldTest} {s : State} (hf : s.faults.test = some f) :
    exec (.fieldTestDone ts) s = .next (if bitAt f.mask 3 && s.toRepeat then s
      else endTest f (ts.filter fun t => f.holds t && testNames s t) s) := by
  change execFieldTestDone ts s = _
  unfold execFieldTestDone
  rw [hf]

/-! ### Fault records and their ring (R270) -/

/-- The fields of a record lie side by side, below its CRC. -/
theorem faultRecord_fields (r : RecordReq) (seq poh : Nat) :
    let x := faultRecord r seq poh
    recKind x = r.kind % 256 ∧ recVerdict x = r.verdict % 16 ∧ recUnit x = r.unit % 65536 ∧ recClass x = r.cls % 16 ∧
      recSeq x = seq % 2 ^ 32 ∧ recPoh x = poh % 2 ^ 32 := by
  unfold faultRecord recKind recVerdict recUnit recClass recSeq recPoh bits
  simp only [BitVec.toNat_ofNat, Nat.shiftRight_eq_div_pow]
  generalize crc32c _ = crc
  refine ⟨?_, ?_, ?_, ?_, ?_, ?_⟩ <;> omega

/-- Does a record bear a PERMANENT or a PATTERN verdict? -/
def Lasting (y : BitVec 256) : Prop := recVerdict y = 2 ∨ recVerdict y = 3

theorem mem_makeRoom {y : BitVec 256} (hy : Lasting y) (n : Nat) : ∀ rs, y ∈ rs → y ∈ makeRoom n rs := by
  induction n with
  | zero => exact fun _ h => h
  | succ n ih =>
    intro rs h
    unfold makeRoom
    split
    · exact h
    · refine ih _ ?_
      rw [← List.take_append_drop sectorSize rs, List.mem_append] at h
      rw [List.mem_append, List.mem_filter]
      rcases h with htake | hdrop
      · exact Or.inr ⟨htake, by simpa [Lasting] using hy⟩
      · exact Or.inl hdrop

theorem mem_ringPut {y : BitVec 256} (hy : Lasting y) {rs : List (BitVec 256)} (x : BitVec 256) (h : y ∈ rs) :
    y ∈ ringPut rs x := by
  have hroom := mem_makeRoom hy 256 rs h
  unfold ringPut
  dsimp only
  split
  · exact List.mem_append_left _ hroom
  · exact hroom

theorem makeRoom_of_lt {rs : List (BitVec 256)} (h : rs.length < ringSize) (n : Nat) : makeRoom n rs = rs := by
  cases n with
  | zero => rfl
  | succ n => exact if_pos h

theorem ringPut_of_lt {rs : List (BitVec 256)} (h : rs.length < ringSize) (x : BitVec 256) : ringPut rs x = rs ++ [x] := by
  unfold ringPut
  rw [makeRoom_of_lt h]
  exact if_pos h

/-- The faults once firmware has written the oldest of the records that wait, but for what its verdict brings. -/
def written (r : RecordReq) (poh : W32) (rest : List (RecordReq × W32)) (f : Faults) : Faults :=
  { f with records := ringPut f.records (faultRecord r f.seq.toNat poh.toNat), seq := f.seq + 1, toWrite := rest }

/-- The physical array of the unit on which a record gives its verdict. -/
def eventPhys (r : RecordReq) (x : BitVec 256) (f : Faults) : Nat :=
  let u := f.eventUnit x
  if u = (recUnit x, recClass x) then r.phys else if isCellArray u.1 u.2 then f.phys (u.1 / 64) (u.1 % 64) else 0

/-- The PERMANENT record that a third event brings (R264). -/
def thirdEvent (r : RecordReq) (x : BitVec 256) (f : Faults) : RecordReq :=
  { r with unit := (f.eventUnit x).1, cls := (f.eventUnit x).2, phys := eventPhys r x f, verdict := 2 }

theorem writeRecord_eq {r : RecordReq} {poh : W32} {rest : List (RecordReq × W32)} {s : State}
    (hw : s.faults.toWrite = (r, poh) :: rest) :
    let x := faultRecord r s.faults.seq.toNat poh.toNat
    let f := written r poh rest s.faults
    writeRecord s = if r.verdict = 1 ∧ (f.eventWindow (f.eventUnit x)).1 = 3
      then classify (thirdEvent r x f) { s with faults := f }
      else { s with faults := f } := by
  unfold writeRecord
  rw [hw]
  simp only [Bool.and_eq_true, decide_eq_true_eq]
  rfl

theorem exec_faultRecordWrite_eq {s : State} (hheld : s.chip.parserHeld = false) (hpow : s.chip.powered = true)
    (hup : 2 ≤ s.chip.bringup) : exec .faultRecordWrite s = .next (writeRecord s) := by
  change execFaultRecordWrite s = _
  unfold execFaultRecordWrite
  simp [hheld, hpow, Nat.not_lt.mpr hup]

/-- A write puts its record into the ring; a third event retires its unit, and any other write does no more (R264, R270). -/
theorem writeRecord_facts {r : RecordReq} {poh : W32} {rest : List (RecordReq × W32)} {s : State}
    (hw : s.faults.toWrite = (r, poh) :: rest) :
    let x := faultRecord r s.faults.seq.toNat poh.toNat
    let f := written r poh rest s.faults
    let third := (f.eventWindow (f.eventUnit x)).1 = 3
    let t := writeRecord s
    t.faults.records = ringPut s.faults.records x ∧ t.faults.seq = s.faults.seq + 1 ∧
      (¬(r.verdict = 1 ∧ third) → t = { s with faults := f }) ∧
      (r.verdict = 1 → third → ((f.eventUnit x).1, (f.eventUnit x).2, eventPhys r x f) ∈ t.faults.retired) := by
  intro x f third t
  have heq : t = if r.verdict = 1 ∧ third then classify (thirdEvent r x f) { s with faults := f } else { s with faults := f } :=
    writeRecord_eq hw
  by_cases hthird : r.verdict = 1 ∧ third
  · rw [if_pos hthird] at heq
    have hkeep := classify_verdictsOnly (thirdEvent r x f) { s with faults := f }
    have hret := classify_retired (thirdEvent r x f) { s with faults := f }
    rw [← heq] at hkeep hret
    refine ⟨hkeep.records_eq, hkeep.seq_eq, fun h => absurd hthird h, fun _ _ => ?_⟩
    rw [hret]
    exact List.mem_append_right _ (List.mem_singleton_self _)
  · rw [if_neg hthird] at heq
    exact ⟨by rw [heq]; rfl, by rw [heq]; rfl, fun _ => heq, fun h h' => absurd ⟨h, h'⟩ hthird⟩

theorem eventPhys_of_named {r : RecordReq} {x : BitVec 256} {f : Faults} (h : f.eventUnit x = (recUnit x, recClass x)) :
    eventPhys r x f = r.phys := if_pos h

theorem noteRecord_verdictsOnly (r : RecordReq) (s : State) : VerdictsOnly s (noteRecord r s) := ⟨rfl, rfl, rfl⟩

/-! ### The repeat of a captured tile (R258, R265) -/

theorem exec_captureRepeat_eq {k : Fin 16} {c : Capture} {s : State} (r : RepeatResult)
    (hc : sget none s.faults.captures k.val = some c) (hkept : c.kept = false) (htried : c.tried = false)
    (hruns : (∀ v ∈ s.loadedStages, (s.stage v).live = false) ∨ ∃ f, s.faults.test = some f ∧ bitAt f.mask 3 = true)
    (hgood : s.badIn (captureAddr k.val) c.bytes.length = none) :
    exec (.captureRepeat k r) s = .next (captureRepeat k.val c r s) := by
  change execCaptureRepeat k r s = _
  unfold execCaptureRepeat
  rw [hc]
  dsimp only
  rw [hkept, htried, hgood]
  rcases hruns with hidle | ⟨f, hf, hmask⟩
  · have hnone : (s.loadedStages.any fun v => (s.stage v).live) = false := List.any_eq_false.mpr fun v hv => by simp [hidle v hv]
    simp only [hnone, Bool.false_and, Bool.or_self, Bool.false_eq_true, if_false]
  · rw [hf]
    simp only [hmask, Bool.not_true, Bool.and_false, Bool.or_self, Bool.false_eq_true, if_false]

theorem setCapture_self (i : Nat) (c : Option Capture) (s : State) : sget none (setCapture i c s).faults.captures i = c := by
  simp only [setCapture, State.updFaults, sget_sset_self]

/-- The four digests of a repeat: of home and partner, at first and again. -/
structure Digests where
  home : W128
  homeAgain : W128
  partner : W128
  partnerAgain : W128

/-- The digests that a repeat of a captured tile gives. -/
def digestsOf (c : Capture) (r : RepeatResult) : Digests :=
  ⟨c.digest r.home, c.digest r.homeAgain, c.digest r.partner, c.digest r.partnerAgain⟩

/-- The repeat of a captured tile, its vote and its digests given. -/
def settleCapture (i : Nat) (c : Capture) (r : RepeatResult) (vote : Option W128) (d : Digests) (s : State) : State :=
  match vote with
  | none => setCapture i (some { c with tried := true }) s
  | some ref =>
    if c.homeDig = ref && c.partnerDig = ref then
      setCapture i none (classify { c.record s i 1 with unit := c.engine * 64, cls := 6, phys := 0 } s)
    else
      let (s, keptH) := if c.homeDig != ref then judgeSuspect i c c.engine d.home d.homeAgain ref r s else (s, false)
      let (s, keptP) := if c.partnerDig != ref then judgeSuspect i c (partnerOf c.engine) d.partner d.partnerAgain ref r s
        else (s, false)
      if keptH || keptP then setCapture i (some { c with kept := true }) s else setCapture i none s

/-- The entry after its one suspect has been judged. -/
def closeCapture (i : Nat) (c : Capture) (j : State × Bool) : State :=
  setCapture i (if j.2 then some { c with kept := true } else none) j.1

theorem closeCapture_eq (i : Nat) (c : Capture) (j : State × Bool) :
    (if j.2 then setCapture i (some { c with kept := true }) j.1 else setCapture i none j.1) = closeCapture i c j := by
  unfold closeCapture
  split <;> rfl

section
variable {i : Nat} {c : Capture} {r : RepeatResult} {s : State}

/-- The vote stands apart from the digests here, so that no proof evaluates them. -/
theorem captureRepeat_eq : captureRepeat i c r s =
    settleCapture i c r (majority (c.digest r.home) (c.digest r.partner) (c.digest r.arbiter)) (digestsOf c r) s := by
  rw [captureRepeat]
  generalize majority (c.digest r.home) (c.digest r.partner) (c.digest r.arbiter) = vote
  cases vote with
  | none => rfl
  | some ref => rfl

variable {ref : W128} {d : Digests}

theorem settleCapture_both (hh : c.homeDig = ref) (hp : c.partnerDig = ref) :
    settleCapture i c r (some ref) d s =
      setCapture i none (classify { c.record s i 1 with unit := c.engine * 64, cls := 6, phys := 0 } s) := by
  simp [settleCapture, hh, hp]

theorem settleCapture_home (hh : c.homeDig ≠ ref) (hp : c.partnerDig = ref) :
    settleCapture i c r (some ref) d s = closeCapture i c (judgeSuspect i c c.engine d.home d.homeAgain ref r s) := by
  simp [settleCapture, hh, hp, ← closeCapture_eq]

theorem settleCapture_partner (hh : c.homeDig = ref) (hp : c.partnerDig ≠ ref) :
    settleCapture i c r (some ref) d s =
      closeCapture i c (judgeSuspect i c (partnerOf c.engine) d.partner d.partnerAgain ref r s) := by
  simp [settleCapture, hh, hp, ← closeCapture_eq]

variable {k : Nat} {own again : W128}

theorem judgeSuspect_of_well (h : own = ref ∨ again = ref) : judgeSuspect i c k own again ref r s =
    (classifyAs (c.record s i 1) (k * 64 + dBase c.desc) 0 (s.faults.phys k (dBase c.desc)) s, false) := by
  have hb : (decide (own = ref) || decide (again = ref)) = true := by simpa using h
  exact if_pos hb

/-- A suspect that does not repeat well is retired; where the suite passes, its entry is kept (R265). -/
theorem judgeSuspect_of_bad (h : own ≠ ref) (h' : again ≠ ref) :
    let j := judgeSuspect i c k own again ref r s
    VerdictsOnly s j.1 ∧ j.1.faults.retired = s.faults.retired ++ [suspectUnit s c k r] ∧ j.2 = r.suitePassed := by
  have hb : ¬ (decide (own = ref) || decide (again = ref)) = true := by simp [h, h']
  unfold judgeSuspect
  rw [if_neg hb]
  dsimp only
  split
  · next hpass =>
    dsimp only
    exact ⟨verdictsOnly_trans (noteRecord_verdictsOnly _ s) (classifyAs_verdictsOnly ..), classifyAs_retired .., hpass.symm⟩
  · next hpass =>
    dsimp only
    exact ⟨classifyAs_verdictsOnly .., classifyAs_retired .., by simpa using hpass⟩

/-! What each outcome of a repeat leaves. -/

theorem setCapture_mem (i : Nat) (x : Option Capture) (s : State) : (setCapture i x s).mem = s.mem := rfl
theorem setCapture_retired (i : Nat) (x : Option Capture) (s : State) :
    (setCapture i x s).faults.retired = s.faults.retired := rfl
theorem setCapture_suspects (i : Nat) (x : Option Capture) (s : State) :
    (setCapture i x s).faults.suspects = s.faults.suspects := rfl

theorem judgeSuspect_verdictsOnly (k : Nat) (own again ref : W128) :
    VerdictsOnly s (judgeSuspect i c k own again ref r s).1 := by
  by_cases h : own = ref ∨ again = ref
  · simp only [judgeSuspect_of_well h]
    exact classifyAs_verdictsOnly ..
  · exact (judgeSuspect_of_bad (fun ho => h (Or.inl ho)) (fun ha => h (Or.inr ha))).1

theorem settleCapture_mem (vote : Option W128) : (settleCapture i c r vote d s).mem = s.mem := by
  have hone (b : Bool) (k : Nat) (own again ref : W128) (s : State) :
      (if b then judgeSuspect i c k own again ref r s else (s, false)).1.mem = s.mem := by
    cases b
    · rfl
    · exact (judgeSuspect_verdictsOnly k own again ref).mem
  have hput (b : Bool) (x y : Option Capture) (s : State) : (if b then setCapture i x s else setCapture i y s).mem = s.mem := by
    cases b <;> rfl
  cases vote with
  | none => rfl
  | some ref =>
    unfold settleCapture
    dsimp only
    split
    · exact (classify_verdictsOnly _ s).mem
    · exact ((hput ..).trans (hone ..)).trans (hone ..)

theorem settleCapture_none : let t := settleCapture i c r none d s
    t = { s with faults := t.faults } ∧ sget none t.faults.captures i = some { c with tried := true } ∧
      t.faults.retired = s.faults.retired :=
  ⟨rfl, setCapture_self .., rfl⟩

theorem settleCapture_cleared (hh : c.homeDig = ref) (hp : c.partnerDig = ref) :
    let t := settleCapture i c r (some ref) d s
    sget none t.faults.captures i = none ∧ t.faults.retired = s.faults.retired := by
  intro t
  have ht : t = _ := settleCapture_both hh hp
  rw [ht, setCapture_self, setCapture_retired, classify_retired]
  exact ⟨rfl, List.append_nil _⟩

theorem settleCapture_homeWell (hh : c.homeDig ≠ ref) (hp : c.partnerDig = ref) (hwell : d.home = ref ∨ d.homeAgain = ref) :
    let t := settleCapture i c r (some ref) d s
    sget none t.faults.captures i = none ∧ t.faults.retired = s.faults.retired := by
  intro t
  have ht : t = _ := settleCapture_home hh hp
  rw [ht, judgeSuspect_of_well hwell, closeCapture, setCapture_self, setCapture_retired, classifyAs_retired]
  exact ⟨rfl, List.append_nil _⟩

/-- The record names the home gang, and its event is the partner's (log 134). -/
theorem settleCapture_partnerWell (hh : c.homeDig = ref) (hp : c.partnerDig ≠ ref) (hne : partnerOf c.engine ≠ c.engine)
    (hwell : d.partner = ref ∨ d.partnerAgain = ref) :
    let t := settleCapture i c r (some ref) d s
    sget none t.faults.captures i = none ∧ t.faults.retired = s.faults.retired ∧
      t.faults.suspects = s.faults.suspects ++ [(s.nextSeq, partnerOf c.engine * 64 + dBase c.desc, 0)] := by
  have hother : namesOther (c.record s i 1) (partnerOf c.engine * 64 + dBase c.desc) 0 = true := by
    simp [namesOther, Capture.record, hne.symm]
  intro t
  have ht : t = _ := settleCapture_partner hh hp
  rw [ht, judgeSuspect_of_well hwell, closeCapture, setCapture_self, setCapture_retired, setCapture_suspects,
    classifyAs_retired, classifyAs_suspects, hother]
  exact ⟨rfl, List.append_nil _, rfl⟩

theorem settleCapture_homeBad (hh : c.homeDig ≠ ref) (hp : c.partnerDig = ref) (hbad : d.home ≠ ref)
    (hagain : d.homeAgain ≠ ref) :
    let t := settleCapture i c r (some ref) d s
    t.faults.retired = s.faults.retired ++ [suspectUnit s c c.engine r] ∧
      sget none t.faults.captures i = if r.suitePassed then some { c with kept := true } else none := by
  intro t
  obtain ⟨-, hret, hkept⟩ := judgeSuspect_of_bad (i := i) (c := c) (k := c.engine) (r := r) (s := s) hbad hagain
  have ht : t = _ := settleCapture_home hh hp
  rw [ht, closeCapture, setCapture_self, setCapture_retired, hret, hkept]
  exact ⟨rfl, rfl⟩

theorem suspectUnit_of_array {k : Nat} {a : Fin 64} (hf : r.failArray = some a) (hlo : dBase c.desc ≤ a.val)
    (hhi : a.val < dBase c.desc + dArrays c.desc) : suspectUnit s c k r = (k * 64 + a.val, 0, s.faults.phys k a.val) := by
  unfold suspectUnit
  rw [hf]
  exact if_pos ⟨hlo, hhi⟩

end

/-! ### What taking an entry leaves (R364) -/

section
variable (c : Cmd) (s : State)

@[simp] theorem takeEntry_mem : (takeEntry c s).mem = s.mem := by rw [takeEntry_frame]
@[simp] theorem takeEntry_stages : (takeEntry c s).stages = s.stages := by rw [takeEntry_frame]
@[simp] theorem takeEntry_engines : (takeEntry c s).engines = s.engines := by rw [takeEntry_frame]
@[simp] theorem takeEntry_faults : (takeEntry c s).faults = s.faults := by rw [takeEntry_frame]
@[simp] theorem takeEntry_ingest : (takeEntry c s).ingest = s.ingest := by rw [takeEntry_frame]
@[simp] theorem takeEntry_badWords : (takeEntry c s).badWords = s.badWords := by rw [takeEntry_frame]
@[simp] theorem takeEntry_named (n : Nat) : (takeEntry c s).named n = s.named n := by rw [takeEntry_frame]; rfl
@[simp] theorem takeEntry_unknownStage (n : Nat) : (takeEntry c s).unknownStage n = s.unknownStage n := by
  rw [takeEntry_frame]; rfl
@[simp] theorem takeEntry_stage0 : (takeEntry c s).stage0 = s.stage0 := by rw [takeEntry_frame]; rfl
@[simp] theorem takeEntry_reduced : (takeEntry c s).reduced = s.reduced := by rw [takeEntry_frame]; rfl
@[simp] theorem takeEntry_scopeUnit (scope unit : Nat) : (takeEntry c s).scopeUnit scope unit = s.scopeUnit scope unit := by
  rw [takeEntry_frame]; rfl
@[simp] theorem takeEntry_testBusy (scope unit : Nat) : (takeEntry c s).testBusy scope unit = s.testBusy scope unit := by
  rw [takeEntry_frame]; rfl

end

/-- A command's row, accepted, whose operation goes on. -/
theorem goesOn_of_accepted {i : Instr} {c : Cmd} {p : CmdSpec} {go : State → Reply} {s t : State}
    (hexec : exec i s = runCmd c p go s) (h : Accepted c p s) (hp : allOpcodes.contains p.opcode = true)
    (hgo : go (takeEntry c s) = .goesOn t) : GoesOn i c s t := by
  rw [GoesOn, hexec, runCmd_of_accepted h hp, hgo, replyState]

/-- A command's row, accepted, whose operation is done. -/
theorem answers_of_accepted {i : Instr} {c : Cmd} {p : CmdSpec} {go : State → Reply} {s t : State} {result resp : List Byte}
    (hexec : exec i s = runCmd c p go s) (h : Accepted c p s) (hp : allOpcodes.contains p.opcode = true)
    (hgo : go (takeEntry c s) = .done result resp t) : Answers i c s result resp t := by
  rw [Answers, hexec, runCmd_of_accepted h hp, hgo, replyState]

/-! ### The start of a field test (R262, R263, R434) -/

theorem sget_filter_key {α : Type} (d : α) (p : Nat → Bool) (m : Store α) (a : Nat) :
    sget d (m.filter fun x => !p x.1) a = if p a then d else sget d m a := by
  induction m with
  | nil => simp [sget]
  | cons x t ih =>
    obtain ⟨k, v⟩ := x
    by_cases hk : p k = true
    · rw [List.filter_cons_of_neg (by simp [hk]), ih]
      by_cases ha : a = k
      · simp [ha, hk]
      · simp [sget, ha]
    · rw [List.filter_cons_of_pos (by simp [hk])]
      by_cases ha : a = k
      · simp [sget, ha, hk]
      · simp [sget, ha, ih]

theorem memRead_forget (p : Nat → Bool) (s : State) (a : Nat) :
    memRead (forget p s).mem a = if p a then 0 else memRead s.mem a := sget_filter_key 0 p s.mem a

/-- A module that leaves parking changes its chip, and nothing else but what an event changes. -/
theorem unpark_eventOnly (op : Nat) (s : State) : EventOnly { s with chip := (unpark op s).chip } (unpark op s) ∧
    (unpark op s).chip.parked = false ∧ (unpark op s).chip.service = s.chip.service := by
  unfold unpark
  split
  · have h := raiseParser_eventOnly 0x0984 [(2, op)]
      (s.updChip fun c => { c with parked := false, clocksGated := false, selfRefresh := false })
    rw [h.chip_eq]
    exact ⟨h, rfl, rfl⟩
  · next hp => exact ⟨rfl, by simpa using hp, rfl⟩

/-- Does a memory test cover this address? -/
def testedHbm (scope unit a : Nat) : Bool :=
  (List.range 5).any fun d => (scope == 2 || d == unit / 8192) && inHbm d a

/-- Does a memory test cover HBM that a stage uses? -/
def usesTested (scope unit : Nat) (g : Stage) : Bool :=
  (List.range 5).any fun d => (scope == 2 || d == unit / 8192) && g.usesHbm d

/-- The HBM that a test covers is overwritten. -/
def eraseTested (scope unit mask : Nat) (s : State) : State :=
  if bitAt mask 1 && scope != 0 then
    let s := forget (testedHbm scope unit) s
    if s.loadedStages.any fun v => usesTested scope unit (s.stage v) then s.updJob fun j => { j with overwritten := true } else s
  else s

/-- The field test that a command starts. -/
def testOf (c : Cmd) (scope unit mask : Nat) (s : State) : FieldTest :=
  ⟨scope, unit, mask, s.reduced && (bitAt mask 2 || (bitAt mask 1 && scope != 0)), runningOf c⟩

theorem startTest_eq {c : Cmd} {scope unit : Nat} {s : State} (mask : Nat) (hunit : s.scopeUnit scope unit = true)
    (htrip : s.chip.thermalTrip = false) (hbusy : s.testBusy scope unit = false) (htest : s.faults.test = none) :
    startTest c scope unit mask s = .goesOn ((eraseTested scope unit mask (unpark c.opcode s)).updFaults fun f =>
      { f with test := some (testOf c scope unit mask (unpark c.opcode s)) }) := by
  unfold startTest
  simp only [hunit, htrip, hbusy, htest, Bool.not_true, Bool.false_eq_true, if_false, Bool.or_self, Option.isSome_none]
  rfl

theorem usesTested_iff (scope unit : Nat) (g : Stage) : usesTested scope unit g = true ↔
    ∃ d, d ≤ 4 ∧ (scope = 2 ∨ d = unit / 8192) ∧ g.usesHbm d = true := by
  simp only [usesTested, List.any_eq_true, List.mem_range, Bool.and_eq_true, Bool.or_eq_true, beq_iff_eq]
  exact exists_congr fun d => and_congr_left' (by omega)

theorem eraseTested_frame (scope unit mask : Nat) (s : State) : eraseTested scope unit mask s = { s with
    mem := (eraseTested scope unit mask s).mem, badWords := (eraseTested scope unit mask s).badWords
    job := (eraseTested scope unit mask s).job } := by
  unfold eraseTested
  dsimp only
  split
  · split <;> rfl
  · rfl

theorem memRead_eraseTested (scope unit mask : Nat) (s : State) (a : Nat) : memRead (eraseTested scope unit mask s).mem a =
    if bitAt mask 1 && scope != 0 && testedHbm scope unit a then 0 else memRead s.mem a := by
  unfold eraseTested
  dsimp only
  split
  · next h => 
    rw [h, Bool.true_and]
    split <;> exact memRead_forget ..
  · next h => simp [h]

theorem eraseTested_overwritten (scope unit mask : Nat) (s : State) : (eraseTested scope unit mask s).job.overwritten = true ↔
    s.job.overwritten = true ∨ bitAt mask 1 = true ∧ scope ≠ 0 ∧
      ∃ v ∈ s.loadedStages, ∃ d, d ≤ 4 ∧ (scope = 2 ∨ d = unit / 8192) ∧ (s.stage v).usesHbm d = true := by
  have hany : (s.loadedStages.any fun v => usesTested scope unit (s.stage v)) = true ↔
      ∃ v ∈ s.loadedStages, ∃ d, d ≤ 4 ∧ (scope = 2 ∨ d = unit / 8192) ∧ (s.stage v).usesHbm d = true := by
    simp only [List.any_eq_true, usesTested_iff]
  rw [← hany]
  unfold eraseTested
  by_cases hmem : bitAt mask 1 = true ∧ scope ≠ 0
  · rw [if_pos (by simpa using hmem)]
    change (if (s.loadedStages.any fun v => usesTested scope unit (s.stage v)) = true then
      (forget (testedHbm scope unit) s).updJob fun j => { j with overwritten := true }
      else forget (testedHbm scope unit) s).job.overwritten = true ↔ _
    split
    · next hused => simp [hmem, hused]
    · next hused => simp [hused, forget]
  · rw [if_neg (by simpa using hmem)]
    exact ⟨Or.inl, fun h => h.resolve_right fun ⟨hb, hs, _⟩ => hmem ⟨hb, hs⟩⟩

/-- Once a test's entry is taken, the module has left parking. -/
def awake (c : Cmd) (s : State) : State := unpark c.opcode (takeEntry c s)

theorem awake_facts (c : Cmd) (s : State) : let t := awake c s
    t.chip.parked = false ∧ t.faults = s.faults ∧ t.stages = s.stages ∧ t.engines = s.engines ∧ t.job = s.job ∧
      t.mem = s.mem ∧ t.reduced = s.reduced := by
  obtain ⟨hunpark, hparked, hservice⟩ := unpark_eventOnly c.opcode (takeEntry c s)
  refine ⟨hparked, hunpark.faults_eq.trans (takeEntry_faults c s), hunpark.stages_eq.trans (takeEntry_stages c s),
    hunpark.engines_eq.trans (takeEntry_engines c s), hunpark.job_eq.trans (takeEntry_job c s),
    hunpark.mem_eq.trans (takeEntry_mem c s), ?_⟩
  unfold State.reduced awake
  rw [hservice, takeEntry_chip]

/-- A test that its checks admit goes on, as the statement on field tests has it. -/
theorem fieldTest_starts {i : Instr} {c : Cmd} {p : CmdSpec} {go : State → Reply} {scope unit mask : Nat} {s : State}
    (hexec : exec i s = runCmd c p go s) (hacc : Accepted c p s) (hp : allOpcodes.contains p.opcode = true)
    (hgo : go (takeEntry c s) = startTest c scope unit mask (takeEntry c s))
    (hunit : s.scopeUnit scope unit = true) (htrip : s.chip.thermalTrip = false) (hbusy : s.testBusy scope unit = false)
    (htest : s.faults.test = none) :
    ∃ t part, GoesOn i c s t ∧ t.faults = { s.faults with test := some ⟨scope, unit, mask, part, runningOf c⟩ } ∧
      t.chip.parked = false ∧ t.stages = s.stages ∧ t.engines = s.engines ∧
      (t.job.overwritten = true ↔ s.job.overwritten = true ∨ bitAt mask 1 = true ∧ scope ≠ 0 ∧ ∃ v ∈ s.loadedStages,
        ∃ d, d ≤ 4 ∧ (scope = 2 ∨ d = unit / 8192) ∧ (s.stage v).usesHbm d = true) ∧
      (∀ a, memRead t.mem a = if bitAt mask 1 && scope != 0 && testedHbm scope unit a then 0 else memRead s.mem a) ∧
      (part = true ↔ s.reduced = true ∧ (bitAt mask 2 = true ∨ bitAt mask 1 = true ∧ scope ≠ 0)) := by
  obtain ⟨hparked, hfaults, hstages, hengines, hjob, hmem, hreduced⟩ := awake_facts c s
  have hstage (v : Nat) : (awake c s).stage v = s.stage v := congrArg (fun m => sget ({} : Stage) m v) hstages
  have hloaded : (awake c s).loadedStages = s.loadedStages := by
    unfold State.loadedStages
    simp only [hstage]
  have hstart := startTest_eq (c := c) (scope := scope) (unit := unit) (s := takeEntry c s) mask (by simpa using hunit)
    (by simpa using htrip) (by simpa using hbusy) (by simpa using htest)
  have hframe := eraseTested_frame scope unit mask (awake c s)
  refine ⟨_, (testOf c scope unit mask (awake c s)).part, goesOn_of_accepted hexec hacc hp (hgo.trans hstart),
    ?_, ?_, ?_, ?_, ?_, ?_, ?_⟩
  · exact congrArg (fun f : Faults => { f with test := some (testOf c scope unit mask (awake c s)) })
      ((congrArg State.faults hframe).trans hfaults)
  · exact (congrArg (·.chip.parked) hframe).trans hparked
  · exact (congrArg State.stages hframe).trans hstages
  · exact (congrArg State.engines hframe).trans hengines
  · have hover := eraseTested_overwritten scope unit mask (awake c s)
    simp only [hjob, hloaded, hstage] at hover
    exact hover
  · intro a
    rw [← hmem]
    exact memRead_eraseTested scope unit mask (awake c s) a
  · unfold testOf
    rw [hreduced]
    simp

theorem fieldTest_eq {c : Cmd} (s : State) (hscope : (if c.expert then c.arg 0 1 else 2) ≤ 2)
    (hmask : (if c.expert then c.arg 4 1 else 15) ≠ 0) :
    fieldTest c s = startTest c (if c.expert then c.arg 0 1 else 2) (if c.expert then c.arg 2 2 else 0)
      (if c.expert then c.arg 4 1 else 15) s := by
  unfold fieldTest
  dsimp only
  rw [if_neg (Nat.not_lt.mpr hscope), if_neg hmask]

theorem bistRun_eq {c : Cmd} (s : State) (hscope : (if c.expert then c.arg 0 1 else 2) ≤ 2)
    (hkind : (if c.expert then c.arg 4 1 else 2) ≤ 2) (hlo : 1 ≤ if c.expert then c.arg 5 1 else 1)
    (hhi : (if c.expert then c.arg 5 1 else 1) ≤ 16) :
    bistRun c s = startTest c (if c.expert then c.arg 0 1 else 2) (if c.expert then c.arg 2 2 else 0)
      ((if c.expert then c.arg 4 1 else 2) + 1) s := by
  unfold bistRun
  dsimp only
  rw [if_neg (Nat.not_lt.mpr hscope), if_neg (Nat.not_lt.mpr hkind), if_neg (by simp; omega)]

/-! ### The statement -/

/-- Settles O47: a test's start is the erasure of what it covers, and its end the verdicts of its results, one after another;
a record's write is one put into the ring, with the verdict that a third event brings; and a repeat is settled by its vote. -/
theorem testsAndHistory : Obligations.TestsAndHistory := by
  unfold Obligations.TestsAndHistory
  refine ⟨⟨fun c s => ⟨?_, ?_⟩, fun ts f s hf => ⟨?_, ?_⟩⟩, fun r seq poh => faultRecord_fields r seq poh,
    fun r poh rest s hw hheld hpow hup => ?_, fun k c r s hc hkept htried hruns hgood => ?_⟩
  · intro _ hacc hscope hmask hunit htrip hbusy htest
    exact fieldTest_starts (go := fieldTest c) rfl hacc (by decide) (fieldTest_eq _ hscope hmask) hunit htrip hbusy htest
  · intro _ _ hacc hscope hkind hlo hhi hunit htrip hbusy htest
    exact fieldTest_starts (go := bistRun c) rfl hacc (by decide) (bistRun_eq _ hscope hkind hlo hhi) hunit htrip hbusy htest
  · intro hmask hrep
    rw [exec_fieldTestDone_eq hf, hmask, hrep]
    rfl
  · intro hdone
    obtain ⟨hmem, hrun, htest, hret, hwrite⟩ := endTest_facts f (ts.filter fun x => f.holds x && testNames s x) s
    have hexec : exec (.fieldTestDone ts) s = .next (endTest f (ts.filter fun x => f.holds x && testNames s x) s) := by
      rw [exec_fieldTestDone_eq hf, if_neg (by rcases hdone with h | h <;> simp [h])]
    refine ⟨_, hexec, htest, hrun, hmem, fun x hx hfirst hagain => ?_, fun hwell => ?_, fun hpass => ?_⟩
    · have hnames : testNames s x = true := (Bool.and_eq_true_iff.mp (List.mem_filter.mp hx).2).2
      rw [hret]
      exact List.mem_append_right _ (mem_retiredBy hx hnames ((testOutcome_eq_two_iff x).mpr ⟨hfirst, hagain⟩))
    · have hnone : ∀ x ∈ ts.filter (fun x => f.holds x && testNames s x), testOutcome x ≠ 2 := fun x hx h2 => by
        obtain ⟨hfirst, hagain⟩ := (testOutcome_eq_two_iff x).mp h2
        exact (hwell x hx).elim hfirst hagain
      rw [hret, retiredBy_eq_nil hnone, List.append_nil]
    · rw [hwrite, forEach_eq_self _ fun x hx => testVerdict_of_pass (testOutcome_eq_zero (hpass x hx)) s]
  · obtain ⟨hrecords, hseq, hplain, hthird⟩ := writeRecord_facts hw
    refine ⟨_, exec_faultRecordWrite_eq hheld hpow hup, hrecords, hseq, fun hlt => ?_, fun y hy hlast => ?_, hplain,
      fun hv h3 => ⟨_, hthird hv h3, eventPhys_of_named⟩⟩
    · rw [hrecords, ringPut_of_lt hlt]
    · rw [hrecords]
      exact mem_ringPut hlast _ hy
  · have hexec := exec_captureRepeat_eq r hc hkept htried hruns hgood
    rw [captureRepeat_eq] at hexec
    refine ⟨_, hexec, settleCapture_mem _, fun hv => ?_, fun ref hv hh hp => ?_, fun ref hv hh hp hwell => ?_,
      fun ref hv hh hp hne hwell => ?_, fun ref hv hh hp hbad hagain => ?_⟩
    · rw [hv]
      exact settleCapture_none
    · rw [hv]
      exact settleCapture_cleared hh hp
    · rw [hv]
      exact settleCapture_homeWell hh hp hwell
    · rw [hv]
      exact settleCapture_partnerWell hh hp hne hwell
    · rw [hv]
      obtain ⟨hret, hkeep⟩ := settleCapture_homeBad (i := k.val) (r := r) (s := s) (d := digestsOf c r) hh hp hbad hagain
      exact ⟨hret, fun a ha hlo hhi => suspectUnit_of_array ha hlo hhi, hkeep⟩

/-! ### The stages that a command names (R376) -/

theorem loadedStages_nodup (s : State) : s.loadedStages.Nodup := List.Nodup.filter _ List.nodup_range

theorem named_all {s : State} {n : Nat} (hn : n = 0xFFFF) : s.named n = s.loadedStages := if_pos hn

theorem named_one {s : State} {n v : Nat} (hn : n ≠ 0xFFFF) (hv : s.findStage n = some v) : s.named n = [v] := by
  unfold State.named
  rw [if_neg hn, hv]

theorem named_nodup (s : State) (n : Nat) : (s.named n).Nodup := by
  unfold State.named
  split
  · exact loadedStages_nodup s
  · split
    · exact List.nodup_singleton _
    · exact List.nodup_nil

section
variable {α : Type} (key : α → Nat) (f : α → Stage → Stage)

/-- Stages changed one by one: nothing but stages differs. -/
theorem forEach_updStage_frame (xs : List α) : ∀ t : State,
    forEach xs (fun x t => t.updStage (key x) (f x)) t =
      { t with stages := (forEach xs (fun x t => t.updStage (key x) (f x)) t).stages } := by
  induction xs with
  | nil => exact fun t => rfl
  | cons x xs ih => exact fun t => ih (t.updStage (key x) (f x))

theorem forEach_updStage_of_not_mem {v : Nat} (xs : List α) : ∀ t : State, v ∉ xs.map key →
    (forEach xs (fun x t => t.updStage (key x) (f x)) t).stage v = t.stage v := by
  induction xs with
  | nil => exact fun t _ => rfl
  | cons x xs ih =>
    intro t hv
    rw [List.map_cons, List.mem_cons, not_or] at hv
    exact (ih _ hv.2).trans (State.updStage_stage_of_ne t _ hv.1)

/-- A stage that the list names once is changed once. -/
theorem forEach_updStage_of_mem {x : α} (xs : List α) : ∀ t : State, (xs.map key).Nodup → x ∈ xs →
    (forEach xs (fun x t => t.updStage (key x) (f x)) t).stage (key x) = f x (t.stage (key x)) := by
  induction xs with
  | nil => exact fun t _ h => absurd h (by simp)
  | cons y xs ih =>
    intro t hnd h
    rw [List.map_cons, List.nodup_cons] at hnd
    obtain ⟨hy, hnd⟩ := hnd
    rcases List.mem_cons.mp h with rfl | h
    · exact (forEach_updStage_of_not_mem key f xs _ hy).trans (State.updStage_stage_self t _ _)
    · have hne : key x ≠ key y := fun e => hy (e ▸ List.mem_map_of_mem (f := key) h)
      exact (ih (t.updStage (key y) (f y)) hnd h).trans (congrArg (f x) (State.updStage_stage_of_ne t _ hne))

end

/-- One change of every stage of a list. -/
theorem forEach_updStage_const (F : Stage → Stage) {vs : List Nat} (hnd : vs.Nodup) (t : State) (v : Nat) :
    (forEach vs (fun v t => t.updStage v F) t).stage v = if v ∈ vs then F (t.stage v) else t.stage v := by
  split
  · next h => exact forEach_updStage_of_mem id (fun _ => F) vs t (by simpa using hnd) h
  · next h => exact forEach_updStage_of_not_mem id (fun _ => F) vs t (by simpa using h)

theorem onlyStage_updStage {s : State} {v : Nat} {f : Stage → Stage} {g : Stage} (h : f (s.stage v) = g) :
    OnlyStage v g s (s.updStage v f) := h ▸ updStage_onlyStage s v f

/-! ### STAGE_FLAGS (R384) -/

theorem isGuestMailbox_of_host {c : Cmd} {m : Fin 32} (h : c.mb = .host m) : isGuestMailbox c = false := by
  unfold isGuestMailbox
  rw [h]

theorem stageFlags_eq {c : Cmd} {s : State} {m : Fin 32} (hm : c.mb = .host m) (hexp : c.expert = false)
    (hknown : s.unknownStage (c.arg 0 2) = false) (hroom : 64 * (s.named (c.arg 0 2)).length ≤ c.respLen) :
    stageFlags c s = .done [] ((s.named (c.arg 0 2)).flatMap (flagsRecord s))
      (forEach (s.named (c.arg 0 2)) (fun v s => s.updStage v fun g => { g with longsum := false }) s) := by
  unfold stageFlags
  dsimp only
  rw [if_neg (by simp [hknown]), if_neg (Nat.not_lt.mpr hroom), isGuestMailbox_of_host hm, hexp]
  rfl

/-! ### NUMLOG_READ (R385; log 132) -/

/-- The read pointer of a stage, past `n` entries that a command has returned. -/
def markRead (c : Cmd) (n : Nat) (g : Stage) : Stage := { g with logRead := max g.logRead (g.logStart c + n) }

theorem numlogDone_of_good {c : Cmd} {s : State} {m : Fin 32} {x : Nat × Nat} (hm : c.mb = .host m)
    (hgood : s.badAmong [logAddr x.1 (((s.stage x.1).logStart c + x.2) % 4096)] = none) :
    numlogDone c x s = s.updStage x.1 (markRead c x.2) := by
  unfold numlogDone
  dsimp only
  rw [hgood, ite_self, isGuestMailbox_of_host hm]
  exact updStage_congr rfl

theorem logCount_le (s : State) (c : Cmd) (v room : Nat) :
    s.logCount c v room ≤ (s.stage v).logSeq - (s.stage v).logStart c ∧ 32 * s.logCount c v room ≤ room := by
  have h : s.logCount c v room ≤ min ((s.stage v).logSeq - (s.stage v).logStart c) (room / 32) := by
    unfold State.logCount
    exact (List.takeWhile_sublist _).length_le.trans (Nat.le_of_eq List.length_range)
  omega

theorem logCount_of_good {s : State} {v : Nat} (hgood : ∀ i < 4096, s.badAmong [logAddr v i] = none) (c : Cmd) (room : Nat) :
    s.logCount c v room = min ((s.stage v).logSeq - (s.stage v).logStart c) (room / 32) := by
  unfold State.logCount
  dsimp only
  rw [List.takeWhile_eq_self_iff.mpr fun i _ => by rw [hgood _ (Nat.mod_lt _ (by decide))]; rfl, List.length_range]

theorem numlogBytes_split (s : State) (c : Cmd) (x : Nat × Nat) : ∃ head, head.length = 64 ∧ numlogBytes s c x =
    head ++ (List.range x.2).flatMap fun i =>
      leBytes 32 (sget 0 (s.stage x.1).log (((s.stage x.1).logStart c + i) % 4096)).toNat := ⟨_, fit_length .., rfl⟩

theorem length_numlogBytes (s : State) (c : Cmd) (x : Nat × Nat) : (numlogBytes s c x).length = 64 + 32 * x.2 := by
  obtain ⟨head, hlen, heq⟩ := numlogBytes_split s c x
  rw [heq, List.length_append, hlen, List.length_flatMap]
  simp only [leBytes_length, List.map_const', List.length_range, List.sum_replicate, smul_eq_mul, Nat.mul_comm x.2]

section
variable (s : State) (c : Cmd)

theorem logShares_keys (vs : List Nat) : ∀ left, (s.logShares c left vs).map (·.1) = vs := by
  induction vs with
  | nil => exact fun _ => rfl
  | cons v vs ih => exact fun left => congrArg (v :: ·) (ih _)

theorem exists_room_of_mem_logShares {x : Nat × Nat} (vs : List Nat) : ∀ left, x ∈ s.logShares c left vs →
    ∃ room, x.2 = s.logCount c x.1 room := by
  induction vs with
  | nil => exact fun _ h => absurd h (by simp [State.logShares])
  | cons v vs ih =>
    intro left h
    unfold State.logShares at h
    rcases List.mem_cons.mp h with hx | hx
    · exact ⟨left - 64 * (vs.length + 1), by rw [hx]⟩
    · exact ih _ hx

/-- The stages share the response: every header stands in it, and the entries fill what is left. -/
theorem length_logShares (vs : List Nat) : ∀ left, 64 * vs.length ≤ left →
    64 * vs.length ≤ ((s.logShares c left vs).flatMap (numlogBytes s c)).length ∧
    ((s.logShares c left vs).flatMap (numlogBytes s c)).length ≤ left := by
  induction vs with
  | nil => exact fun left _ => ⟨Nat.zero_le _, Nat.zero_le _⟩
  | cons v vs ih =>
    intro left hleft
    rw [List.length_cons] at hleft ⊢
    have hfit := (logCount_le s c v (left - 64 * (vs.length + 1))).2
    have hrest := ih (left - 64 - 32 * s.logCount c v (left - 64 * (vs.length + 1))) (by omega)
    unfold State.logShares
    dsimp only
    rw [List.flatMap_cons, List.length_append, length_numlogBytes]
    dsimp only
    omega

end

theorem numlogRead_eq {c : Cmd} {s : State} (hne : s.named (c.arg 0 2) ≠ [])
    (hroom : 64 * (s.named (c.arg 0 2)).length ≤ c.respLen) :
    numlogRead c s = .done [] ((s.logShares c c.respLen (s.named (c.arg 0 2))).flatMap (numlogBytes s c))
      (forEach (s.logShares c c.respLen (s.named (c.arg 0 2))) (numlogDone c) s) := by
  unfold numlogRead
  dsimp only
  rw [if_neg (by simpa using hne), if_neg (Nat.not_lt.mpr hroom)]

/-- What a NUMLOG_READ has read, where no word of the logs is bad. -/
theorem forEach_numlogDone {c : Cmd} {m : Fin 32} (hm : c.mb = .host m) (xs : List (Nat × Nat)) {s : State}
    (hbad : s.badWords = []) :
    forEach xs (numlogDone c) s = forEach xs (fun x t => t.updStage x.1 (markRead c x.2)) s := by
  refine forEach_congr (P := fun t => t.badWords = []) xs (fun _ _ _ ht => ?_) (fun x _ t ht => ?_) s hbad
  · exact ht
  · exact numlogDone_of_good hm (by simp [State.badAmong, State.badIn, ht])

theorem logFrom_le (g : Stage) (seq : Nat) : g.logFrom seq ≤ g.logSeq := by
  unfold Stage.logFrom
  dsimp only
  split
  · exact Nat.sub_le ..
  · exact Nat.le_refl _

/-- Only a read pointer beyond the newest entry starts a read beyond it. -/
theorem logStart_cases (g : Stage) (c : Cmd) : g.logStart c ≤ g.logSeq ∨ g.logStart c = g.logRead := by
  have hfrom := logFrom_le g (c.arg 4 4)
  unfold Stage.logStart Stage.logOldest
  split <;> omega

/-- A stage's read pointer never passes its newest entry by a read. -/
theorem markRead_logCount (s : State) (c : Cmd) (v room : Nat) :
    ∃ n, n ≤ (s.stage v).logSeq ∧ markRead c (s.logCount c v room) (s.stage v) =
      { s.stage v with logRead := max (s.stage v).logRead n } := by
  have hcount := (logCount_le s c v room).1
  by_cases hle : (s.stage v).logStart c ≤ (s.stage v).logSeq
  · exact ⟨_, by omega, rfl⟩
  · refine ⟨0, Nat.zero_le _, ?_⟩
    unfold markRead
    rw [(logStart_cases _ c).resolve_left hle, show s.logCount c v room = 0 by omega, Nat.add_zero, Nat.max_self, Nat.max_zero]

/-- The entries that a basic command reads of one stage, and its read pointer after them. -/
theorem numlogRead_one {c : Cmd} {s : State} {v : Nat} {m : Fin 32} (hm : c.mb = .host m) (hexp : c.expert = false)
    (hnamed : s.named (c.arg 0 2) = [v]) (hroom : 64 ≤ c.respLen) (hgood : ∀ i < 4096, s.badAmong [logAddr v i] = none) :
    let g := s.stage v
    let start := max g.logOldest g.logRead
    let n := min (g.logSeq - start) ((c.respLen - 64) / 32)
    ∃ head, head.length = 64 ∧ numlogRead c s =
      .done [] (head ++ (List.range n).flatMap fun i => leBytes 32 (sget 0 g.log ((start + i) % 4096)).toNat)
        (s.updStage v fun g => { g with logRead := max g.logRead (start + n) }) := by
  intro g start n
  have hstart : g.logStart c = start := by simp [Stage.logStart, hexp, start]
  have hcount : s.logCount c v (c.respLen - 64 * (0 + 1)) = n := by
    rw [logCount_of_good hgood, hstart]
  have hshares : s.logShares c c.respLen [v] = [(v, n)] := by
    rw [← hcount]
    rfl
  have hdone : numlogDone c (v, n) s = s.updStage v fun g => { g with logRead := max g.logRead (start + n) } := by
    rw [numlogDone_of_good hm (hgood _ (Nat.mod_lt _ (by decide)))]
    refine updStage_congr ?_
    unfold markRead
    rw [hstart]
  have hread := numlogRead_eq (c := c) (s := s) (by simp [hnamed]) (by rw [hnamed]; exact hroom)
  obtain ⟨head, hlen, hbytes⟩ := numlogBytes_split s c (v, n)
  rw [hnamed, hshares, List.flatMap_singleton, hbytes, hstart] at hread
  exact ⟨head, hlen, hread.trans (congrArg _ hdone)⟩

/-- Every stage's entries share the response, and every read pointer moves on (log 132). -/
theorem numlogRead_all {c : Cmd} {s : State} {m : Fin 32} (hm : c.mb = .host m) (hall : c.arg 0 2 = 0xFFFF)
    (hne : s.loadedStages ≠ []) (hroom : 64 * s.loadedStages.length ≤ c.respLen) (hbad : s.badWords = []) :
    ∃ resp t, numlogRead c s = .done [] resp t ∧ 64 * s.loadedStages.length ≤ resp.length ∧ resp.length ≤ c.respLen ∧
      t = { s with stages := t.stages } ∧
      ∀ v ∈ s.loadedStages, ∃ n, n ≤ (s.stage v).logSeq ∧
        t.stage v = { s.stage v with logRead := max (s.stage v).logRead n } := by
  have hread := numlogRead_eq (c := c) (s := s) (by rwa [named_all hall]) (by rwa [named_all hall])
  rw [named_all hall, forEach_numlogDone hm _ hbad] at hread
  obtain ⟨hlow, hhigh⟩ := length_logShares s c s.loadedStages c.respLen hroom
  have hkeys := logShares_keys s c s.loadedStages c.respLen
  refine ⟨_, _, hread, hlow, hhigh, forEach_updStage_frame Prod.fst (fun x => markRead c x.2) _ _, fun v hv => ?_⟩
  rw [← hkeys] at hv
  obtain ⟨x, hx, rfl⟩ := List.mem_map.mp hv
  obtain ⟨room, hcount⟩ := exists_room_of_mem_logShares s c _ _ hx
  obtain ⟨n, hn, hmark⟩ := markRead_logCount s c x.1 room
  refine ⟨n, hn, ?_⟩
  rw [forEach_updStage_of_mem Prod.fst (fun x => markRead c x.2) _ _ (by rw [hkeys]; exact loadedStages_nodup s) hx,
    hcount, hmark]

/-! ### Reports that change nothing (R272, R296, R376) -/

/-- The lengths that an accepted entry asks for are those of its row (R368, R369). -/
theorem lengths_of_accepted {c : Cmd} {p : CmdSpec} {s : State} (h : Accepted c p s) :
    c.len ≤ p.lenHi ∧ p.respMin ≤ c.respLen := by
  obtain ⟨-, -, hcheck⟩ := h
  unfold commonCheck at hcheck
  dsimp only at hcheck
  iterate 3
    split at hcheck
    · cases hcheck
  split at hcheck
  · cases hcheck
  · next hlen =>
    split at hcheck
    · cases hcheck
    · split at hcheck
      · cases hcheck
      · next hresp =>
        simp only [Bool.or_eq_true, decide_eq_true_eq, not_or, Nat.not_lt] at hlen
        exact ⟨hlen.1.2, Nat.not_lt.mp hresp⟩

theorem ingestPosition_report {c : Cmd} {s : State} (hexp : c.expert = false) : ingestPosition c s = .done []
    (positionBytes s s.ingest.placed ++ positionBytes s s.ingest.consumed ++
      (List.range 20).flatMap fun i => leBytes 8 (sget 0 s.ingest.counters i).toNat) s := by
  unfold ingestPosition
  rw [hexp]
  rfl

theorem historyRead_records {c : Cmd} {s : State} (hexp : c.expert = false) :
    let rs := (recordsFrom (c.arg 0 4) s.faults.records).take (c.respLen / 32)
    historyRead c s = .done
      (leBytes 4 (match s.faults.records with | [] => s.faults.seq.toNat | r :: _ => recSeq r) ++ leBytes 4 rs.length)
      (rs.flatMap fun r => leBytes 32 r.toNat) s := by
  unfold historyRead
  rw [hexp]
  rfl

/-- Settles O39: each report is done with its bytes; STAGE_FLAGS and NUMLOG_READ then change the stages that they name, one by
one. -/
theorem reports : Obligations.Reports := by
  unfold Obligations.Reports
  intro c s m hm s0
  have hloaded : s0.loadedStages = s.loadedStages := takeEntry_loadedStages c s
  refine ⟨fun h => ?_, fun h hexp => ?_, fun h hexp => ?_, fun h hknown hexp hroom => ?_, fun v h hn hv hexp hgood => ?_,
    fun h hall hne hroom hbad => ?_⟩
  · exact answers_of_accepted (go := devInfo c) rfl h rfl rfl
  · have hpos := ingestPosition_report (s := s0) hexp
    simp only [s0, takeEntry_ingest] at hpos
    exact answers_of_accepted (go := ingestPosition c) rfl h rfl hpos
  · have hread := historyRead_records (s := s0) hexp
    simp only [s0, takeEntry_faults] at hread
    exact answers_of_accepted (go := historyRead c) rfl h rfl hread
  · have hnamed : s0.named (c.arg 0 2) = s.named (c.arg 0 2) := takeEntry_named ..
    have hflags := stageFlags_eq (s := s0) hm hexp (by simpa [s0] using hknown) (by rw [hnamed]; exact hroom)
    rw [hnamed] at hflags
    refine ⟨_, answers_of_accepted (go := stageFlags c) rfl h rfl hflags, forEach_updStage_frame id _ _ _, fun v => ?_⟩
    rw [forEach_updStage_const _ (named_nodup s _), takeEntry_stage]
  · obtain ⟨head, hlen, hread⟩ := numlogRead_one (s := s0) hm hexp ((takeEntry_named ..).trans (named_one hn hv))
      (lengths_of_accepted h).2 (by simpa [s0] using hgood)
    simp only [s0, takeEntry_stage] at hread
    exact ⟨head, _, answers_of_accepted (go := numlogRead c) rfl h rfl hread, hlen,
      onlyStage_updStage (by rw [takeEntry_stage])⟩
  · obtain ⟨resp, t, hread, hfacts⟩ := numlogRead_all (s := s0) hm hall (by rwa [hloaded]) (by rwa [hloaded])
      ((takeEntry_badWords c s).trans hbad)
    simp only [hloaded, s0, takeEntry_stage] at hfacts
    exact ⟨resp, t, answers_of_accepted (go := numlogRead c) rfl h rfl hread, hfacts⟩

/-! ### PORT_ROLE_SET (R335, R352) -/

/-- `t` differs from `s` only in what is queued and in roles of ports. -/
structure RolesOnly (s t : State) : Prop where
  queues : QueueOnly s t
  state : ∀ p, (t.port p).state = (s.port p).state

/-- The same, and the roles stand too. -/
structure LinksStand (s t : State) : Prop extends RolesOnly s t where
  role : ∀ p, (t.port p).role = (s.port p).role

section
variable {s t u : State}

theorem rolesOnly_refl (s : State) : RolesOnly s s := ⟨rfl, fun _ => rfl⟩

theorem rolesOnly_trans (h : RolesOnly s t) (h' : RolesOnly t u) : RolesOnly s u :=
  ⟨queueOnly_trans h.queues h'.queues, fun p => (h'.state p).trans (h.state p)⟩

theorem linksStand_refl (s : State) : LinksStand s s := ⟨rolesOnly_refl s, fun _ => rfl⟩

theorem linksStand_trans (h : LinksStand s t) (h' : LinksStand t u) : LinksStand s u :=
  ⟨rolesOnly_trans h.toRolesOnly h'.toRolesOnly, fun p => (h'.role p).trans (h.role p)⟩

/-- A part of every port that a change of port `p` leaves. -/
theorem updPort_part {α : Type} {p : Nat} {f : Port → Port} (part : Port → α) (h : part (f (s.port p)) = part (s.port p))
    (q : Nat) : part ((s.updPort p f).port q) = part (s.port q) := by
  rw [State.updPort_port]
  split
  · next hq => subst hq; exact h
  · rfl

theorem updPort_linksStand {p : Nat} {f : Port → Port} (hs : (f (s.port p)).state = (s.port p).state)
    (hr : (f (s.port p)).role = (s.port p).role) : LinksStand s (s.updPort p f) :=
  ⟨⟨updPort_queueOnly s p f, updPort_part Port.state hs⟩, updPort_part Port.role hr⟩

end

theorem queueColl_linksStand (m : OutMsg) (s : State) : LinksStand s (queueColl m s) := by
  unfold queueColl
  split
  · exact updPort_linksStand rfl rfl
  · exact ⟨⟨rfl, fun _ => rfl⟩, fun _ => rfl⟩

theorem forEach_linksStand {α : Type} {f : α → State → State} (hf : ∀ x s, LinksStand s (f x s)) (xs : List α)
    (s : State) : LinksStand s (forEach xs f s) :=
  forEach_related linksStand_refl linksStand_trans xs (fun x _ => hf x) s

theorem rehome_linksStand (s : State) : LinksStand s (rehome s) := by
  unfold rehome
  refine forEach_linksStand (fun p s => ?_) _ s
  dsimp only
  split
  · exact linksStand_refl s
  · exact linksStand_trans (updPort_linksStand rfl rfl) (forEach_linksStand (fun _ _ => queueColl_linksStand ..) ..)

theorem setRole_facts (p role : Nat) (s : State) : RolesOnly s (setRole p role s) ∧
    ∀ q, ((setRole p role s).port q).role = if q = p then role else (s.port q).role := by
  unfold setRole
  dsimp only
  split
  · next heq =>
    refine ⟨rolesOnly_refl s, fun q => ?_⟩
    split
    · next hq => rw [hq, heq]
    · rfl
  · have hqueue := forEach_linksStand queueColl_linksStand
      ((Port.fresh s (s.port p)).out.filter fun m => !isExport m)
      (s.updPort p fun q => { Port.fresh s q with role := role, out := [] })
    refine ⟨rolesOnly_trans ⟨updPort_queueOnly .., updPort_part Port.state rfl⟩ hqueue.toRolesOnly, fun q => ?_⟩
    rw [hqueue.role, State.updPort_port]
    split <;> rfl

/-- Ports take the roles of a list that names each once; every other port keeps its own. -/
theorem forEach_setRole (ws : List (Nat × Nat)) : ∀ s : State, (ws.map Prod.fst).Nodup →
    RolesOnly s (forEach ws (fun w s => setRole w.1 w.2 s) s) ∧
    (∀ w ∈ ws, ((forEach ws (fun w s => setRole w.1 w.2 s) s).port w.1).role = w.2) ∧
    ∀ p, p ∉ ws.map Prod.fst → ((forEach ws (fun w s => setRole w.1 w.2 s) s).port p).role = (s.port p).role := by
  induction ws with
  | nil => exact fun s _ => ⟨rolesOnly_refl s, fun _ h => absurd h (by simp), fun _ _ => rfl⟩
  | cons w ws ih =>
    intro s hnd
    rw [List.map_cons, List.nodup_cons] at hnd
    obtain ⟨hone, hrole⟩ := setRole_facts w.1 w.2 s
    obtain ⟨hrest, hin, hout⟩ := ih (setRole w.1 w.2 s) hnd.2
    refine ⟨rolesOnly_trans hone hrest, fun x hx => ?_, fun p hp => ?_⟩
    · rcases List.mem_cons.mp hx with rfl | hx
      · exact (hout _ hnd.1).trans ((hrole _).trans (if_pos rfl))
      · exact hin x hx
    · rw [List.map_cons, List.mem_cons, not_or] at hp
      exact (hout p hp.2).trans ((hrole p).trans (if_neg hp.1))

/-- The roles that a command gives, port by port. -/
def rolesOf (c : Cmd) : List (Nat × Nat) :=
  if c.expert then [(c.arg 0 1, c.arg 1 1)] else (List.range 8).map fun p => (p, c.arg p 1)

/-- The role that it gives one port. -/
def roleOf (c : Cmd) (p : Nat) : Option Nat :=
  if 8 ≤ p then none else if !c.expert then some (c.arg p 1) else if p = c.arg 0 1 then some (c.arg 1 1) else none

section
variable {c : Cmd} (hport : c.expert = true → c.arg 0 1 ≤ 7)
include hport

theorem mem_rolesOf (p r : Nat) : (p, r) ∈ rolesOf c ↔ roleOf c p = some r := by
  unfold rolesOf roleOf
  cases hexp : c.expert
  · simp only [Bool.false_eq_true, if_false, List.mem_map, List.mem_range, Prod.mk.injEq, Bool.not_false, if_true]
    by_cases hp : 8 ≤ p
    · simp [hp]
    · simp [hp]
      omega
  · have := hport hexp
    simp
    omega

theorem rolesOf_le {w : Nat × Nat} (hw : w ∈ rolesOf c) : w.1 ≤ 7 := by
  have h := (mem_rolesOf hport w.1 w.2).mp hw
  unfold roleOf at h
  split at h
  · cases h
  · omega

end

theorem rolesOf_nodup (c : Cmd) : ((rolesOf c).map Prod.fst).Nodup := by
  unfold rolesOf
  split
  · exact List.nodup_singleton _
  · rw [List.map_map, show Prod.fst ∘ (fun p => (p, c.arg p 1)) = id from rfl, List.map_id]
    exact List.nodup_range

theorem roleRefusal_none {s : State} {p r : Nat} (o : Nat) (hstate : (s.port p).state = 0) (hr : r ≤ 4)
    (huse : r ≠ 0 → s.reduced = false ∧ s.portRetired p = false) : roleRefusal s false p r o = none := by
  unfold roleRefusal
  by_cases h0 : r = 0
  · simp [hstate, h0]
  · simp [hstate, Nat.not_lt.mpr hr, huse h0]

/-- What an accepted PORT_ROLE_SET does without a departure. -/
def givenRoles (c : Cmd) (s : State) : State :=
  { rehome (forEach (rolesOf c) (fun w s => setRole w.1 w.2 s) s) with routes := routeTable c.pay }

theorem portRoleSet_eq {c : Cmd} {s : State} (hexp : c.expert = true → c.arg 0 1 ≤ 7 ∧ c.arg 2 1 = 0)
    (hroute : ∀ r ∈ routeTable c.pay, r < 8 ∨ 15 ≤ r)
    (huse : ∀ p r, roleOf c p = some r →
      (s.port p).state = 0 ∧ r ≤ 4 ∧ (r ≠ 0 → s.reduced = false ∧ s.portRetired p = false)) :
    portRoleSet c s = .ok (givenRoles c s) := by
  have hport := fun h => (hexp h).1
  have hdown : (c.expert && c.arg 2 1 == 1) = false := by
    cases h : c.expert
    · rfl
    · simp [(hexp h).2]
  have hrange : ((rolesOf c).any fun w => decide (w.1 > 7)) = false :=
    List.any_eq_false.mpr fun w hw => by simpa using rolesOf_le hport hw
  have hroutes : ((routeTable c.pay).any fun r => decide (8 ≤ r ∧ r < 15)) = false :=
    List.any_eq_false.mpr fun r hr => by
      have := hroute r hr
      simp only [decide_eq_true_eq]
      omega
  have hnone : ((rolesOf c).findSome? fun w => roleRefusal s false w.1 w.2 (32 + if c.expert then 1 else w.1)) = none :=
    List.findSome?_eq_none_iff.mpr fun w hw => by
      obtain ⟨hstate, hr, hgood⟩ := huse w.1 w.2 ((mem_rolesOf hport w.1 w.2).mp hw)
      exact roleRefusal_none _ hstate hr hgood
  unfold rolesOf at hrange hnone
  unfold portRoleSet givenRoles rolesOf
  dsimp only
  rw [hdown, hrange, hnone, hroutes]
  rfl

theorem givenRoles_frame (c : Cmd) (s : State) : givenRoles c s = { s with
    ports := (givenRoles c s).ports, transit := (givenRoles c s).transit, routes := (givenRoles c s).routes } := by
  have hroles := (forEach_setRole (rolesOf c) s (rolesOf_nodup c)).1
  have hqueue := queueOnly_trans hroles.queues (rehome_linksStand _).queues
  exact congrArg (fun t : State => { t with routes := routeTable c.pay }) hqueue

/-- A route table is no part of a port. -/
theorem routes_port (s : State) (rs : List Nat) (p : Nat) : ({ s with routes := rs } : State).port p = s.port p := rfl

theorem givenRoles_port_eq (c : Cmd) (s : State) (p : Nat) : (givenRoles c s).port p =
    (rehome (forEach (rolesOf c) (fun w s => setRole w.1 w.2 s) s)).port p := by
  rw [givenRoles, routes_port]

theorem givenRoles_state (c : Cmd) (s : State) (p : Nat) : ((givenRoles c s).port p).state = (s.port p).state := by
  rw [givenRoles_port_eq, (rehome_linksStand _).state, (forEach_setRole (rolesOf c) s (rolesOf_nodup c)).1.state]

theorem givenRoles_role {c : Cmd} (hport : c.expert = true → c.arg 0 1 ≤ 7) (s : State) (p : Nat) :
    ((givenRoles c s).port p).role = (roleOf c p).getD (s.port p).role := by
  obtain ⟨-, hin, hout⟩ := forEach_setRole (rolesOf c) s (rolesOf_nodup c)
  rw [givenRoles_port_eq, (rehome_linksStand _).role]
  cases hr : roleOf c p with
  | some r =>
    rw [Option.getD_some]
    exact hin (p, r) ((mem_rolesOf hport p r).mpr hr)
  | none =>
    rw [Option.getD_none]
    refine hout p fun hmem => ?_
    obtain ⟨w, hw, hp⟩ := List.mem_map.mp hmem
    rw [← hp, (mem_rolesOf hport w.1 w.2).mp hw] at hr
    cases hr

theorem pay_eq_nil {c : Cmd} (h : c.len = 0) : c.pay = [] := by
  unfold Cmd.pay fit
  rw [h, List.take_zero, Nat.zero_sub]
  rfl

/-- The basic level carries no route table. -/
theorem routes_of_accepted {c : Cmd} {s : State} (h : Accepted c (portRoleSpec c) s) :
    routeTable c.pay = if c.expert then routeTable c.pay else [] := by
  split
  · rfl
  · next hexp =>
    have hlen := (lengths_of_accepted h).1
    simp only [portRoleSpec, hexp, Bool.false_eq_true, if_false, Nat.le_zero] at hlen
    rw [pay_eq_nil hlen]
    rfl

/-! ### The ingest commands (R289, R291, R292, R301) -/

/-- The parameters that an INGEST_OPEN gives, for a first stage on this die (log 39). -/
def openParams (c : Cmd) (s : State) (die : Nat) : IngestParams :=
  let b := basicIngest c s
  if c.expert then expertIngest c
  else { b with reservoir := basicArea die (b.w * b.clipBytes), reservoirLen := b.w * b.clipBytes }

/-- The reservoir's place has no part in the checks of the parameters. -/
theorem openParams_checks (c : Cmd) (s u : State) (die : Nat) :
    let p := if c.expert then expertIngest c else basicIngest c s
    (openParams c s die).ok = p.ok ∧ (openParams c s die).n = p.n ∧ nsRefusal u (openParams c s die) = nsRefusal u p := by
  unfold openParams
  cases c.expert
  · exact ⟨rfl, rfl, rfl⟩
  · exact ⟨rfl, rfl, rfl⟩

/-- Ingest with these parameters, which takes the namespaces of the mask back. -/
def opened (p : IngestParams) (again : Nat) (i : Ingest) : Ingest :=
  { i.unpin with
    isOpen := true, params := p, slots := [], retries := [], failedReads := []
    offline := i.offline.filter fun n => !bitAt again n && (p.namespaces.any fun x => x.num == n)
    failRow := i.failRow.filter fun x => !((p.namespaces.filter fun x => bitAt again x.num).any fun y => y.controller == x.1) }

theorem mem_opened_offline (p : IngestParams) (again n : Nat) (i : Ingest) : n ∈ (opened p again i).offline ↔
    n ∈ i.offline ∧ bitAt again n = false ∧ ∃ x ∈ p.namespaces, x.num = n := by
  simp [opened]

/-- The reply to an INGEST_OPEN that the checks before the namespaces' admit. -/
theorem ingestOpen_eq {c : Cmd} {s : State} {v : Nat} {p : IngestParams} (hv : s.stage0 = some v)
    (hp : openParams c s (s.stage v).image.die = p) (hlen : (if c.expert then 96 else 0) + 16 ≤ c.len)
    (hstep : (c.len - if c.expert then 96 else 0) % 16 = 0) (hmany : (c.len - if c.expert then 96 else 0) / 16 ≤ 32)
    (hresv : ingestReserved c.expert c.pay = none) (hok : p.ok = true) (hn : s.ingest.n0 < p.n)
    (hslot : p.payload ≤ (s.stage v).finSlot) (hfit : p.w * p.clipBytes ≤ p.reservoirLen)
    (harea : c.expert = true → areaInHbm (s.stage v).image.die p.reservoir p.reservoirLen = true) :
    ingestOpen c s = match nsRefusal s p with
      | some st => .no st
      | none => .ok (s.updIngest (opened p (if c.expert then c.payNat 80 4 else 0))) := by
  obtain ⟨hok', hn', hns⟩ := openParams_checks c s s (s.stage v).image.die
  rw [hp] at hok' hn' hns
  have hlength : (decide (c.len < (if c.expert then 96 else 0) + 16) ||
      decide ((c.len - if c.expert then 96 else 0) % 16 ≠ 0)) = false := by
    simp only [hstep, Nat.not_lt.mpr hlen, decide_false, ne_eq, not_true_eq_false, Bool.or_false]
  have hrange : (!(if c.expert then expertIngest c else basicIngest c s).ok ||
      decide ((if c.expert then expertIngest c else basicIngest c s).n ≤ s.ingest.n0)) = false := by
    rw [← hok', ← hn', hok, decide_eq_false (Nat.not_le.mpr hn)]
    rfl
  unfold ingestOpen
  rw [hv]
  dsimp only
  rw [if_neg (Bool.eq_false_iff.mp hlength), if_neg (Nat.not_lt.mpr hmany), hresv]
  dsimp only
  rw [if_neg (Bool.eq_false_iff.mp hrange), ← hns]
  cases nsRefusal s p with
  | some st => rfl
  | none =>
    have hmerge : (if c.expert then if c.expert then expertIngest c else basicIngest c s
        else { if c.expert then expertIngest c else basicIngest c s with
          reservoir := basicArea (s.stage v).image.die ((if c.expert then expertIngest c else basicIngest c s).w *
            (if c.expert then expertIngest c else basicIngest c s).clipBytes)
          reservoirLen := (if c.expert then expertIngest c else basicIngest c s).w *
            (if c.expert then expertIngest c else basicIngest c s).clipBytes }) = p := by
      rw [← hp]
      unfold openParams
      cases c.expert
      · rfl
      · rfl
    have hplace : (c.expert && !areaInHbm (s.stage v).image.die p.reservoir p.reservoirLen) = false := by
      cases hexp : c.expert
      · rfl
      · rw [harea hexp]
        rfl
    dsimp only
    rw [hmerge, if_neg (Nat.not_lt.mpr hslot), if_neg (Nat.not_lt.mpr hfit), hplace]
    rfl

/-! ### The other settings (R272, R291, R292, R296) -/

/-- Ingest from a new epoch, which the checks of an expert command admit. -/
theorem ingestEpoch_eq {c : Cmd} {s : State}
    (hgood : c.expert = true → (s.ingest.isOpen = true → c.arg 8 8 < s.ingest.params.n) ∧ c.arg 0 8 < c.arg 24 8) :
    ingestEpoch c s = .ok (s.updIngest fun g =>
      { g.unpin with
        e0 := if c.expert then c.arg 0 8 else 0, n0 := if c.expert then c.arg 8 8 else 0
        epochBase := if c.expert then BitVec.ofNat 64 (c.arg 16 8) else 0
        eLim := if c.expert then some (c.arg 24 8) else none, endRaised := false, slots := []
        failedReads := [], retries := [] }) := by
  unfold ingestEpoch
  cases hexp : c.expert
  · rfl
  · obtain ⟨hn, hlim⟩ := hgood hexp
    rw [if_neg (by decide), if_neg (by simpa using hn), if_neg (Nat.not_le.mpr hlim)]
    rfl

theorem length_positionBytes (s : State) (k : Nat) : (positionBytes s k).length = 24 := by
  simp only [positionBytes, List.length_append, leBytes_length]

/-- The bytes of a position's report (R296). -/
theorem length_report (s : State) : (positionBytes s s.ingest.placed ++ positionBytes s s.ingest.consumed ++
    (List.range 20).flatMap fun i => leBytes 8 (sget 0 s.ingest.counters i).toNat).length = positionSize := by
  simp only [List.length_append, length_positionBytes, List.length_flatMap, leBytes_length, List.map_const', List.length_range,
    List.sum_replicate]
  rfl

/-- Ingest at the place that an expert INGEST_POSITION sets. -/
def positioned (c : Cmd) (g : Ingest) : Ingest :=
  { g.unpin with
    e0 := c.arg 0 8, n0 := c.arg 8 8, placed := 0, consumed := 0, awaitPosition := false, endRaised := false
    slots := [], failedReads := [], retries := [], stopAt := none }

theorem ingestPosition_sets {c : Cmd} {s : State} (hexp : c.expert = true)
    (hn : s.ingest.isOpen = true → c.arg 8 8 < s.ingest.params.n) :
    ∃ resp, ingestPosition c s = .done [] resp (s.updIngest (positioned c)) ∧
      resp.length = if c.respLen < positionSize then 0 else positionSize := by
  have hplace : (s.ingest.isOpen && decide (c.arg 8 8 ≥ s.ingest.params.n)) = false := by simpa using hn
  unfold ingestPosition
  dsimp only
  rw [hexp, hplace]
  refine ⟨_, rfl, ?_⟩
  by_cases hroom : c.respLen < positionSize
  · rw [if_pos hroom, if_neg (Nat.not_le.mpr hroom)]
    rfl
  · rw [if_neg hroom, if_pos (Nat.le_of_not_lt hroom), length_report]

/-- A stage with a check fraction for its next entry of a layer group; the basic level keeps what waits of its key and
mode. -/
def nextFraction (c : Cmd) (g : Stage) : Stage :=
  { g with shadowNext := some (c.arg 0 1, if c.expert then (BitVec.ofNat 64 (c.arg 8 8), some (c.arg 4 1 == 1))
      else (g.shadowNext.map (·.2)).getD (g.shadowKey, none)) }

theorem checkFraction_eq {c : Cmd} {s : State} (hcode : c.arg 0 1 ≤ 4) (hmode : c.expert = true → c.arg 4 1 ≤ 1)
    (hknown : s.unknownStage (if c.expert then c.arg 2 2 else 0xFFFF) = false) :
    checkFraction c s = .ok (forEach (s.named (if c.expert then c.arg 2 2 else 0xFFFF))
      (fun v s => s.updStage v (nextFraction c)) s) := by
  unfold checkFraction
  dsimp only
  rw [if_neg (Nat.not_lt.mpr hcode), if_neg (by simpa using hmode), if_neg (Bool.eq_false_iff.mp hknown)]
  refine congrArg (fun f => Reply.ok (forEach _ (fun v s => s.updStage v f) s)) (funext fun g => ?_)
  unfold nextFraction
  cases g.shadowNext with
  | none => rfl
  | some x => rfl

theorem agreeInterval_eq {c : Cmd} {s : State} (hlo : 1 ≤ c.arg 0 4) (hhi : c.arg 0 4 ≤ 65535)
    (hlog : c.expert = true → c.arg 4 1 ≤ 1) : agreeInterval c s = .ok (s.updJob fun j =>
      { j with agreeD := c.arg 0 4, agreeLog := if c.expert then c.arg 4 1 == 1 else j.agreeLog }) := by
  unfold agreeInterval
  rw [if_neg (by simp only [Bool.or_eq_true, decide_eq_true_eq]; omega), if_neg (by simpa using hlog)]

section
variable (c : Cmd) (s : State)

theorem takeEntry_portRetired (p : Nat) : (takeEntry c s).portRetired p = s.portRetired p := by rw [takeEntry_frame]; rfl

theorem takeEntry_nsRefusal (p : IngestParams) : nsRefusal (takeEntry c s) p = nsRefusal s p := by rw [takeEntry_frame]; rfl

theorem takeEntry_openParams (die : Nat) : openParams c (takeEntry c s) die = openParams c s die := by
  unfold openParams basicIngest
  rw [takeEntry_job]

end

/-- Settles O46: each accepted setting is done with the state that its checks admit. -/
theorem settings : Obligations.Settings := by
  unfold Obligations.Settings
  intro c s s0 g
  have hingest : s0.ingest = g := takeEntry_ingest c s
  refine ⟨fun h hexp hroute huse => ?_, fun v h hv hlen hstep hmany hresv hok hn hslot hfit harea => ?_, fun h hgood => ?_,
    fun h hexp hn => ?_, fun h hcode hmode hknown => ?_, fun h hlo hhi hlog => ?_⟩
  · have hset := portRoleSet_eq (s := s0) hexp hroute fun p r hp => by
      simpa [s0, takeEntry_portRetired] using huse p r hp
    refine ⟨_, answers_of_accepted (go := portRoleSet c) rfl h rfl hset, givenRoles_frame c s0, routes_of_accepted h,
      fun p => ?_⟩
    rw [givenRoles_state, givenRoles_role (fun he => (hexp he).1), takeEntry_port]
    exact ⟨rfl, rfl⟩
  · have hparams : openParams c s0 (s0.stage v).image.die = openParams c s (s.stage v).image.die := by
      rw [takeEntry_openParams, takeEntry_stage]
    have hrefusal := takeEntry_nsRefusal c s (openParams c s (s.stage v).image.die)
    have hopen := ingestOpen_eq ((takeEntry_stage0 ..).trans hv) hparams hlen hstep hmany hresv hok (by rwa [hingest])
      (by rwa [takeEntry_stage]) hfit (by rwa [takeEntry_stage])
    split
    · next st hns =>
      rw [hrefusal.trans hns] at hopen
      exact (runCmd_of_accepted h rfl (ingestOpen c)).trans (by rw [hopen]; rfl)
    · next hns =>
      rw [hrefusal.trans hns] at hopen
      rw [← hingest]
      refine ⟨_, answers_of_accepted (go := ingestOpen c) rfl h rfl hopen, rfl, rfl, rfl, rfl, rfl, rfl, rfl, fun n => ?_⟩
      exact mem_opened_offline ..
  · rw [← hingest] at hgood ⊢
    exact answers_of_accepted (go := ingestEpoch c) rfl h rfl (ingestEpoch_eq hgood)
  · rw [← hingest] at hn ⊢
    obtain ⟨resp, hset, hlen⟩ := ingestPosition_sets hexp hn
    exact ⟨resp, _, answers_of_accepted (go := ingestPosition c) rfl h rfl hset, rfl, rfl, rfl, rfl, rfl, rfl, rfl, rfl, rfl,
      rfl, rfl, hlen⟩
  · have hset := checkFraction_eq (s := s0) hcode hmode ((takeEntry_unknownStage ..).trans hknown)
    rw [takeEntry_named] at hset
    refine ⟨_, answers_of_accepted (go := checkFraction c) rfl h rfl hset, forEach_updStage_frame id _ _ _, fun v => ?_⟩
    rw [forEach_updStage_const _ (named_nodup s _), takeEntry_stage]
    rfl
  · rw [← takeEntry_job c s]
    exact answers_of_accepted (go := agreeInterval c) rfl h rfl (agreeInterval_eq hlo hhi hlog)

end Sys2Proof.SilentErrors

/-!
The statements on the ingest die: the order of clips (O36), its Reads, drops and placement (O37), and the decoding of a clip
(O60).
-/
namespace Sys2Proof.IngestDie
open Sys2Proof.Machine Sys2Proof.NumberFormats Sys2Proof.OverflowReplay Sys2Proof.VectorEngine
  Sys2Proof.StagesAndClauses Sys2Proof.TenseState

/-! ### The rounds are a permutation of the even-width numbers (R291) -/

section
variable (seed key1 : W64) (blk dom h : Nat)

/-- One round: the halves change places, and the one that goes right is combined with the round function. -/
def feistelRound (p : Nat × Nat) (r : Nat) : Nat × Nat := (p.2, p.1 ^^^ (fround seed key1 blk dom r p.2 % 2 ^ h))

/-- Both halves have `h` bits. -/
def HalvesBelow (p : Nat × Nat) : Prop := p.1 < 2 ^ h ∧ p.2 < 2 ^ h

theorem rounds_eq_foldl (i : Nat) : rounds seed key1 blk dom h i =
    ([0, 1, 2, 3].foldl (feistelRound seed key1 blk dom h) (i / 2 ^ h, i % 2 ^ h)).1 * 2 ^ h +
      ([0, 1, 2, 3].foldl (feistelRound seed key1 blk dom h) (i / 2 ^ h, i % 2 ^ h)).2 := rfl

theorem feistelRound_halvesBelow {p : Nat × Nat} (hp : HalvesBelow h p) (r : Nat) :
    HalvesBelow h (feistelRound seed key1 blk dom h p r) :=
  ⟨hp.2, Nat.xor_lt_two_pow hp.1 (Nat.mod_lt _ (Nat.two_pow_pos h))⟩

theorem feistelRound_injective (r : Nat) : Function.Injective fun p => feistelRound seed key1 blk dom h p r := by
  rintro ⟨a, b⟩ ⟨a', b'⟩ heq
  obtain ⟨rfl, hxor⟩ := Prod.mk.inj heq
  exact Prod.ext (Nat.xor_left_inj.mp hxor) rfl

theorem foldl_feistelRound_halvesBelow (rs : List Nat) : ∀ {p : Nat × Nat}, HalvesBelow h p →
    HalvesBelow h (rs.foldl (feistelRound seed key1 blk dom h) p) := by
  induction rs with
  | nil => exact fun hp => hp
  | cons r rs ih => exact fun hp => ih (feistelRound_halvesBelow seed key1 blk dom h hp r)

theorem foldl_feistelRound_injective (rs : List Nat) :
    Function.Injective fun p => rs.foldl (feistelRound seed key1 blk dom h) p := by
  induction rs with
  | nil => exact fun _ _ heq => heq
  | cons r rs ih => exact ih.comp (feistelRound_injective seed key1 blk dom h r)

theorem split_halvesBelow {i : Nat} (hi : i < 2 ^ (2 * h)) : HalvesBelow h (i / 2 ^ h, i % 2 ^ h) := by
  refine ⟨Nat.div_lt_of_lt_mul ?_, Nat.mod_lt _ (Nat.two_pow_pos h)⟩
  rwa [← Nat.pow_add, ← Nat.two_mul]

theorem rounds_mapsTo : Set.MapsTo (rounds seed key1 blk dom h) (Set.Iio (2 ^ (2 * h))) (Set.Iio (2 ^ (2 * h))) := by
  intro i hi
  obtain ⟨hl, hr⟩ := foldl_feistelRound_halvesBelow seed key1 blk dom h [0, 1, 2, 3] (split_halvesBelow h hi)
  rw [Set.mem_Iio, rounds_eq_foldl, Nat.two_mul, Nat.pow_add]
  calc _ < _ * 2 ^ h + 2 ^ h := Nat.add_lt_add_left hr _
    _ = (_ + 1) * 2 ^ h := (Nat.succ_mul _ _).symm
    _ ≤ 2 ^ h * 2 ^ h := Nat.mul_le_mul_right _ hl

theorem rounds_injOn : Set.InjOn (rounds seed key1 blk dom h) (Set.Iio (2 ^ (2 * h))) := by
  intro i hi j hj heq
  obtain ⟨-, hri⟩ := foldl_feistelRound_halvesBelow seed key1 blk dom h [0, 1, 2, 3] (split_halvesBelow h hi)
  obtain ⟨-, hrj⟩ := foldl_feistelRound_halvesBelow seed key1 blk dom h [0, 1, 2, 3] (split_halvesBelow h hj)
  rw [rounds_eq_foldl, rounds_eq_foldl] at heq
  have hright := congrArg (· % 2 ^ h) heq
  simp only [Nat.mul_add_mod', Nat.mod_eq_of_lt hri, Nat.mod_eq_of_lt hrj] at hright
  rw [hright] at heq
  have hleft := Nat.eq_of_mul_eq_mul_right (Nat.two_pow_pos h) (Nat.add_right_cancel heq)
  have hsame := foldl_feistelRound_injective seed key1 blk dom h [0, 1, 2, 3] (Prod.ext hleft hright)
  obtain ⟨hdiv, hmod⟩ := Prod.mk.inj hsame
  rw [← Nat.div_add_mod i (2 ^ h), ← Nat.div_add_mod j (2 ^ h), hdiv, hmod]

end

/-! ### Walking the cycle (R291) -/

/-- Iterates that agree, of starts below `m`, still agree with as many steps taken off each. -/
theorem eq_iterate_sub_of_iterate_eq {f : Nat → Nat} {m i j k l : Nat} (hmaps : Set.MapsTo f (Set.Iio m) (Set.Iio m))
    (hinj : Set.InjOn f (Set.Iio m)) (hi : i < m) (hj : j < m) (hkl : k ≤ l) (heq : f^[k] i = f^[l] j) :
    i = f^[l - k] j := by
  have hsplit : f^[l] j = f^[k] (f^[l - k] j) := by rw [← Function.iterate_add_apply, Nat.add_sub_cancel' hkl]
  exact hinj.iterate hmaps k hi (hmaps.iterate (l - k) hj) (heq.trans hsplit)

/-- A permutation of the numbers below `m` comes back to where it began within `m` steps: among the first `m + 1` iterates
two agree. -/
theorem exists_iterate_eq_self {f : Nat → Nat} {m i : Nat} (hmaps : Set.MapsTo f (Set.Iio m) (Set.Iio m))
    (hinj : Set.InjOn f (Set.Iio m)) (hi : i < m) : ∃ k, 0 < k ∧ k ≤ m ∧ f^[k] i = i := by
  have hback : ∀ k l, k < l → l ≤ m → f^[k] i = f^[l] i → ∃ k, 0 < k ∧ k ≤ m ∧ f^[k] i = i := fun k l hkl hl heq =>
    ⟨l - k, by omega, by omega, (eq_iterate_sub_of_iterate_eq hmaps hinj hi hi hkl.le heq).symm⟩
  have hbelow : ∀ k ∈ Finset.range (m + 1), f^[k] i ∈ Finset.range m := fun k _ =>
    Finset.mem_range.mpr (hmaps.iterate k hi)
  obtain ⟨k, hk, l, hl, hne, heq⟩ := Finset.exists_ne_map_eq_of_card_lt_of_maps_to (by simp) hbelow
  rw [Finset.mem_range, Nat.lt_succ_iff] at hk hl
  rcases Nat.lt_or_gt_of_ne hne with h | h
  · exact hback k l h hl heq
  · exact hback l k h hk heq.symm

/-- The walk ends at the first iterate below `n`, where there is one. -/
theorem walk_eq_iterate {f : Nat → Nat} {n : Nat} (fuel : Nat) : ∀ i, (∃ k, 0 < k ∧ k ≤ fuel ∧ f^[k] i < n) →
    ∃ k, 0 < k ∧ walk f n fuel i = f^[k] i ∧ f^[k] i < n ∧ ∀ j, 0 < j → j < k → n ≤ f^[j] i := by
  induction fuel with
  | zero => rintro i ⟨k, hk, hle, -⟩; omega
  | succ fuel ih =>
    rintro i ⟨k, hk, hle, hlt⟩
    unfold walk
    split
    · next hnow => exact ⟨1, Nat.one_pos, rfl, hnow, fun j hj hj' => by omega⟩
    · next hlater =>
      obtain ⟨k, rfl⟩ := Nat.exists_eq_succ_of_ne_zero hk.ne'
      rw [Function.iterate_succ_apply] at hlt
      have hk0 : 0 < k := Nat.pos_of_ne_zero fun h0 => hlater (by subst h0; exact hlt)
      obtain ⟨l, -, hwalk, hl, hfirst⟩ := ih (f i) ⟨k, hk0, by omega, hlt⟩
      refine ⟨l + 1, Nat.succ_pos l, hwalk, hl, fun j hj hj' => ?_⟩
      obtain ⟨j, rfl⟩ := Nat.exists_eq_succ_of_ne_zero hj.ne'
      rcases Nat.eq_zero_or_pos j with rfl | hj0
      · exact Nat.le_of_not_lt hlater
      · exact hfirst j hj0 (by omega)

section
variable {f : Nat → Nat} {n m : Nat} (hmaps : Set.MapsTo f (Set.Iio m) (Set.Iio m)) (hinj : Set.InjOn f (Set.Iio m))
  (hn : n ≤ m)
include hmaps hinj hn

theorem walk_first_return {i : Nat} (hi : i < n) :
    ∃ k, 0 < k ∧ walk f n m i = f^[k] i ∧ f^[k] i < n ∧ ∀ j, 0 < j → j < k → n ≤ f^[j] i := by
  obtain ⟨k, hk, hle, hback⟩ := exists_iterate_eq_self hmaps hinj (hi.trans_le hn)
  exact walk_eq_iterate m i ⟨k, hk, hle, by rwa [hback]⟩

theorem walk_lt {i : Nat} (hi : i < n) : walk f n m i < n := by
  obtain ⟨k, -, hwalk, hlt, -⟩ := walk_first_return hmaps hinj hn hi
  rwa [hwalk]

/-- Of two walks that end at one place, the longer one would have passed the start of the shorter, which lies below `n`. -/
theorem start_eq_of_iterate_eq {i j k l : Nat} (hi : i < n) (hj : j < n) (hk : k ≤ l) (hk0 : 0 < k)
    (heq : f^[k] i = f^[l] j) (hfirst : ∀ x, 0 < x → x < l → n ≤ f^[x] j) : i = j := by
  have hstart := eq_iterate_sub_of_iterate_eq hmaps hinj (hi.trans_le hn) (hj.trans_le hn) hk heq
  rcases Nat.eq_zero_or_pos (l - k) with h0 | hpos
  · rw [hstart, h0]; rfl
  · have := hfirst (l - k) hpos (by omega)
    omega

theorem walk_injOn {i j : Nat} (hi : i < n) (hj : j < n) (heq : walk f n m i = walk f n m j) : i = j := by
  obtain ⟨k, hk0, hwi, -, hfi⟩ := walk_first_return hmaps hinj hn hi
  obtain ⟨l, hl0, hwj, -, hfj⟩ := walk_first_return hmaps hinj hn hj
  rw [hwi, hwj] at heq
  rcases Nat.le_total k l with hkl | hkl
  · exact start_eq_of_iterate_eq hmaps hinj hn hi hj hkl hk0 heq hfj
  · exact (start_eq_of_iterate_eq hmaps hinj hn hj hi hkl hl0 heq.symm hfi).symm

end

/-! ### The keyed bijection and the order of an epoch's clips (R290, R291) -/

theorem le_two_pow_halfWidth (n : Nat) : n ≤ 2 ^ (2 * halfWidth n) := by
  have hlog : 2 * n - 1 < 2 ^ (Nat.log2 (2 * n - 1) + 1) := Nat.lt_log2_self
  have hwide : Nat.log2 (2 * n - 1) ≤ 2 * halfWidth n := by
    unfold halfWidth cdiv
    omega
  have hpow := Nat.pow_le_pow_right (Nat.two_pos) hwide
  rw [Nat.pow_succ] at hlog
  omega

section
variable (seed key1 : W64) {n i j : Nat} (blk dom : Nat)

theorem feistel_lt (hi : i < n) : feistel seed key1 i n blk dom < n := by
  unfold feistel
  split
  · omega
  · exact walk_lt (rounds_mapsTo seed key1 blk dom _) (rounds_injOn seed key1 blk dom _) (le_two_pow_halfWidth n) hi

theorem feistel_injOn (hi : i < n) (hj : j < n) (heq : feistel seed key1 i n blk dom = feistel seed key1 j n blk dom) :
    i = j := by
  unfold feistel at heq
  split at heq
  · omega
  · exact walk_injOn (rounds_mapsTo seed key1 blk dom _) (rounds_injOn seed key1 blk dom _) (le_two_pow_halfWidth n) hi hj heq

end

/-- Where the permutation inside the window of index `n` leads. -/
def windowIndex (g : Ingest) (e n : Nat) : Nat :=
  n / g.params.w * g.params.w + feistel g.params.seed (g.key1 e) (n - n / g.params.w * g.params.w)
    (min g.params.w (g.params.n - n / g.params.w * g.params.w)) (n / g.params.w) 6

theorem clipOf_eq (g : Ingest) (e n : Nat) : g.clipOf e n =
    feistel g.params.seed (g.key1 e) (windowIndex g e n) g.params.n 0 5 := rfl

section
variable {g : Ingest} {e n m : Nat} (hw : 1 ≤ g.params.w) (hn : n < g.params.n)
include hw hn

/-- An index stands in its window at a place that the window has. -/
theorem sub_windowBase_lt : n - n / g.params.w * g.params.w < min g.params.w (g.params.n - n / g.params.w * g.params.w) := by
  have hdiv := Nat.div_add_mod' n g.params.w
  have hmod := Nat.mod_lt n hw
  omega

theorem windowIndex_lt : windowIndex g e n < g.params.n := by
  have h := feistel_lt g.params.seed (g.key1 e) (n / g.params.w) 6 (sub_windowBase_lt hw hn)
  unfold windowIndex
  omega

theorem windowIndex_div : windowIndex g e n / g.params.w = n / g.params.w := by
  have h := feistel_lt g.params.seed (g.key1 e) (n / g.params.w) 6 (sub_windowBase_lt hw hn)
  have hbelow := h.trans_le (min_le_left ..)
  unfold windowIndex
  rw [Nat.add_comm, Nat.add_mul_div_right _ _ hw, Nat.div_eq_of_lt hbelow, Nat.zero_add]

/-- Two indices that lead to one place stand in one window, and in it at one place. -/
theorem windowIndex_injOn (hm : m < g.params.n) (heq : windowIndex g e n = windowIndex g e m) : n = m := by
  have hwindow : n / g.params.w = m / g.params.w := by
    rw [← windowIndex_div (e := e) hw hn, heq, windowIndex_div hw hm]
  have hbn := sub_windowBase_lt hw hn
  have hbm := sub_windowBase_lt hw hm
  have hln := Nat.div_mul_le_self n g.params.w
  have hlm := Nat.div_mul_le_self m g.params.w
  unfold windowIndex at heq
  rw [hwindow] at heq hbn hln
  have hplace := feistel_injOn _ _ _ _ hbn hbm (Nat.add_left_cancel heq)
  omega

end

/-- Settles O36: four Feistel rounds are one to one on the numbers of even width, so is the walk that keeps to those below
`n`, and the order of clips applies it inside the window and then to the whole epoch. -/
theorem clipOrder : Obligations.ClipOrder := by
  unfold Obligations.ClipOrder
  refine ⟨fun seed key1 n blk dom i j hi hj => feistel_injOn seed key1 blk dom hi hj,
    fun seed key1 n blk dom i hi => feistel_lt seed key1 blk dom hi, fun g e n m hw hn hm heq => ?_⟩
  rw [clipOf_eq, clipOf_eq] at heq
  exact windowIndex_injOn hw hn hm
    (feistel_injOn _ _ _ _ (windowIndex_lt hw hn) (windowIndex_lt hw hm) heq)

/-! ### A controller goes offline (R276) -/

/-- Every bound namespace of a controller offline: those that were not are added in the order of their entries. -/
def controllerOffline (x : IngestNs) (g : Ingest) : List Nat :=
  g.offline ++ (g.params.namespaces.filter fun y =>
    y.controller == x.controller && !g.offline.contains y.num).map (·.num)

/-- A namespace goes offline, with its event. -/
def nsOffline (y : IngestNs) (s : State) : State :=
  raise 0x0401 (unitAddr 5 97 0) 0 [(1, y.port), (1, y.num)] (s.updIngest fun g => { g with offline := g.offline ++ [y.num] })

theorem forEach_nsOffline_ingest (ys : List IngestNs) : ∀ s : State,
    (forEach ys nsOffline s).ingest = { s.ingest with offline := s.ingest.offline ++ ys.map (·.num) } := by
  induction ys with
  | nil => intro s; rw [List.map_nil, List.append_nil]; rfl
  | cons y ys ih =>
    intro s
    have hone : (nsOffline y s).ingest = { s.ingest with offline := s.ingest.offline ++ [y.num] } :=
      (raise_eventOnly ..).ingest_eq
    refine (ih (nsOffline y s)).trans ?_
    rw [hone, List.map_cons, List.append_assoc]
    rfl

theorem takeOffline_ingest (x : IngestNs) (s : State) :
    (takeOffline x s).ingest = { s.ingest with offline := controllerOffline x s.ingest } :=
  forEach_nsOffline_ingest _ s

/-! ### The outcome of a Read (R276) -/

/-- A good Read clears the failures of its place and of its controller. -/
def goodRead (x : IngestNs) (place : Nat) (g : Ingest) : Ingest :=
  { g with retries := sset 0 place 0 g.retries, failRow := sset 0 x.controller 0 g.failRow }

/-- Another attempt of a Read is made. -/
def readAgain (place : Nat) (g : Ingest) : Ingest :=
  { g.count 18 1 with retries := supd 0 place (· + 1) g.retries }

/-- A Read has failed for good: its clip is to be dropped, and its controller has one more failure in a row. -/
def readLost (x : IngestNs) (place : Nat) (g : Ingest) : Ingest :=
  { g with retries := sset 0 place 0 g.retries, failedReads := g.failedReads ++ [place]
           failRow := supd 0 x.controller (· + 1) g.failRow }

section
variable {x : IngestNs} {place : Nat} {s : State}

theorem readFailed_of_lt (h : sget 0 s.ingest.retries place < 3) (fatal : Bool) : readFailed x place fatal s =
    if fatal then takeOffline x (s.updIngest (readAgain place)) else s.updIngest (readAgain place) := by
  unfold readFailed
  exact if_pos h

/-- The third failed Read in a row takes the controller offline; a fatal status does so at once. -/
theorem readFailed_of_ge (h : 3 ≤ sget 0 s.ingest.retries place) (fatal : Bool) : readFailed x place fatal s =
    if fatal = true ∨ 2 ≤ sget 0 s.ingest.failRow x.controller then takeOffline x (s.updIngest (readLost x place))
    else s.updIngest (readLost x place) := by
  have hrow : sget 0 (readLost x place s.ingest).failRow x.controller = sget 0 s.ingest.failRow x.controller + 1 := by
    rw [readLost, sget_supd, if_pos rfl]
  have hmeet : (fatal || decide (sget 0 (s.updIngest (readLost x place)).ingest.failRow x.controller ≥ 3)) = true ↔
      fatal = true ∨ 2 ≤ sget 0 s.ingest.failRow x.controller := by
    rw [State.updIngest_ingest, hrow, Bool.or_eq_true, decide_eq_true_iff]
    exact or_congr_right Nat.succ_le_succ_iff
  unfold readFailed
  rw [if_neg (Nat.not_lt.mpr h)]
  exact if_congr hmeet rfl rfl

theorem readFailed_fatal_offline : (readFailed x place true s).ingest.offline = controllerOffline x s.ingest := by
  rcases Nat.lt_or_ge (sget 0 s.ingest.retries place) 3 with h | h
  · rw [readFailed_of_lt h, if_pos rfl, takeOffline_ingest]
    rfl
  · rw [readFailed_of_ge h, if_pos (Or.inl rfl), takeOffline_ingest]
    rfl

end

/-! ### A clip in progress claims its context (R278, R279) -/

theorem claimContext_of_pinned {place : Nat} {s : State} (h : ∃ y ∈ s.ingest.pins, y.1 = place) (d : BitVec 256) :
    claimContext place d s = s := by
  obtain ⟨y, hy, hplace⟩ := h
  unfold claimContext
  exact if_pos (List.any_eq_true.mpr ⟨y, hy, by simpa using hplace⟩)

theorem claimContext_of_new {place : Nat} {d : BitVec 256} {s : State} (hpins : ∀ y ∈ s.ingest.pins, y.1 ≠ place)
    (hctx : s.ingest.contextOf d = none) (hfree : firstFree s.ingest.contexts 0 < contextCount) :
    claimContext place d s = s.updIngest fun g => { useContext (firstFree s.ingest.contexts 0) (newContext d) true g with
      pins := g.pins ++ [(place, firstFree s.ingest.contexts 0)] } := by
  have hany : (s.ingest.pins.any fun x => x.1 == place) = false :=
    List.any_eq_false.mpr fun y hy => by simpa using hpins y hy
  have hdrop : dropBadContext d s = s := by unfold dropBadContext; rw [hctx]
  have hclaim : s.ingest.claim = some (firstFree s.ingest.contexts 0, false) := if_pos hfree
  unfold claimContext
  rw [hany, if_neg Bool.false_ne_true, hdrop]
  dsimp only
  rw [hctx, hclaim]
  rfl

/-- A context as a pinning use leaves it: with the use in its LRU field and one more pin. -/
def pinnedContext (lru : Nat) (c : BitVec 512) : BitVec 512 :=
  ctxPut 31 16 (ctxPins (ctxPut 191 128 lru c) + 1) (ctxPut 191 128 lru c)

theorem useContext_pin (i : Nat) (c : BitVec 512) (g : Ingest) : useContext i c true g =
    { g with contexts := sset 0 i (pinnedContext g.lru.toNat c) g.contexts, lru := g.lru + 1 } := rfl

/-! ### The fields of a context (Table 11.2) -/

section
variable (c : BitVec 512) {hi lo : Nat} (v : Nat)

/-- A field of a context is changed as one of a Clause is. -/
theorem ctxPut_eq_setClause (h : lo ≤ hi) : ctxPut hi lo v c = setClause c hi lo v := by
  obtain ⟨n, rfl⟩ := Nat.exists_eq_add_of_le h
  have hn : lo + n + 1 - lo = n + 1 := by omega
  have hparts : c.toNat = c.toNat / 2 ^ lo / 2 ^ (n + 1) * 2 ^ (lo + (n + 1)) +
      c.toNat / 2 ^ lo % 2 ^ (n + 1) * 2 ^ lo + c.toNat % 2 ^ lo := by
    rw [Nat.pow_add 2 lo (n + 1), Nat.mul_comm (2 ^ lo), ← Nat.mul_assoc, ← Nat.add_mul, Nat.div_add_mod',
      Nat.div_add_mod']
  unfold ctxPut setClause setBits bits
  simp only [Nat.shiftRight_eq_div_pow, Nat.shiftLeft_eq, hn]
  rw [Nat.pow_add 2 lo, ← Nat.div_div_eq_div_mul, ← Nat.pow_add]
  congr 1
  omega

theorem bits_ctxPut_of_out {i j : Nat} (h : lo ≤ hi) (hout : i < lo ∨ hi < j) :
    bits (ctxPut hi lo v c).toNat i j = bits c.toNat i j := by
  rw [ctxPut_eq_setClause c v h, bits_setClause_of_out c v hout]

theorem bits_ctxPut_self (h : lo ≤ hi) (h512 : hi < 512) :
    bits (ctxPut hi lo v c).toNat hi lo = v % 2 ^ (hi + 1 - lo) := by
  rw [ctxPut_eq_setClause c v h]
  apply Nat.eq_of_testBit_eq
  intro b
  unfold bits setClause
  rw [Nat.testBit_mod_two_pow, Nat.testBit_mod_two_pow, Nat.testBit_shiftRight, BitVec.toNat_ofNat,
    Nat.testBit_mod_two_pow, testBit_setBits, if_neg (by omega), Nat.add_sub_cancel_left]
  by_cases hb : b < hi + 1 - lo
  · rw [if_pos (by omega)]
    simp [hb, show lo + b < 512 by omega]
  · simp [hb]

end

section
variable (m k : Nat) {hi lo : Nat}

theorem bits_mul_two_pow : bits (m * 2 ^ k) (hi + k) (lo + k) = bits m hi lo := by
  have hdiv : m * 2 ^ k / 2 ^ (lo + k) = m / 2 ^ lo := by
    rw [Nat.pow_add, Nat.mul_div_mul_right _ _ (Nat.two_pow_pos k)]
  unfold bits
  rw [Nat.shiftRight_eq_div_pow, Nat.shiftRight_eq_div_pow, hdiv, show hi + k + 1 - (lo + k) = hi + 1 - lo by omega]

theorem bits_mul_two_pow_of_lt (h : hi < k) (hl : lo ≤ hi) : bits (m * 2 ^ k) hi lo = 0 := by
  rw [← Laws.bits_mod h hl, Nat.mul_mod_left]
  unfold bits
  rw [Nat.zero_shiftRight, Nat.zero_mod]

end

section
variable (d : BitVec 256)

/-- The fields of a claimed context above bit 368: OBJ_OFFSET, NS, STATE 1, CONTAINER and OBJ_LEN. -/
def claimedFields (d : BitVec 256) : Nat :=
  bits d.toNat 255 208 * 2 ^ 96 + bits d.toNat 31 27 * 2 ^ 91 + 2 ^ 88 + bits d.toNat 47 44 * 2 ^ 84 + bits d.toNat 207 160

theorem claimedFields_shift (k : Nat) : bits d.toNat 255 208 * 2 ^ (96 + k) + bits d.toNat 31 27 * 2 ^ (91 + k) +
    1 * 2 ^ (88 + k) + bits d.toNat 47 44 * 2 ^ (84 + k) + bits d.toNat 207 160 * 2 ^ k = claimedFields d * 2 ^ k := by
  unfold claimedFields
  simp only [Nat.pow_add _ _ k, Nat.add_mul, Nat.mul_assoc, Nat.one_mul]

theorem claimedFields_spec : claimedFields d < 2 ^ 144 ∧ bits (claimedFields d) 143 96 = bits d.toNat 255 208 ∧
    bits (claimedFields d) 95 91 = bits d.toNat 31 27 ∧ bits (claimedFields d) 90 88 = 1 := by
  have h0 : bits d.toNat 255 208 < 2 ^ 48 := Nat.mod_lt _ (Nat.two_pow_pos 48)
  have h1 : bits d.toNat 31 27 < 2 ^ 5 := Nat.mod_lt _ (Nat.two_pow_pos 5)
  have h2 : bits d.toNat 47 44 < 2 ^ 4 := Nat.mod_lt _ (Nat.two_pow_pos 4)
  have h3 : bits d.toNat 207 160 < 2 ^ 48 := Nat.mod_lt _ (Nat.two_pow_pos 48)
  unfold claimedFields
  generalize bits d.toNat 255 208 = offset at *
  generalize bits d.toNat 31 27 = ns at *
  generalize bits d.toNat 47 44 = container at *
  generalize bits d.toNat 207 160 = len at *
  unfold bits
  simp only [Nat.shiftRight_eq_div_pow]
  refine ⟨?_, ?_, ?_, ?_⟩ <;> omega

theorem newContext_eq : newContext d = BitVec.ofNat 512 (claimedFields d * 2 ^ 368) :=
  congrArg (BitVec.ofNat 512) (claimedFields_shift d 368)

theorem newContext_toNat : (newContext d).toNat = claimedFields d * 2 ^ 368 := by
  rw [newContext_eq, BitVec.toNat_ofNat]
  refine Nat.mod_eq_of_lt ((Nat.mul_lt_mul_of_pos_right (claimedFields_spec d).1 (Nat.two_pow_pos 368)).trans_eq ?_)
  rw [← Nat.pow_add]

theorem newContext_fields : ctxKey (newContext d) = descKey d ∧ ctxState (newContext d) = 1 ∧ ctxPins (newContext d) = 0 := by
  obtain ⟨-, hoffset, hns, hstate⟩ := claimedFields_spec d
  unfold ctxKey descKey ctxState ctxPins
  rw [newContext_toNat, bits_mul_two_pow (hi := 143) (lo := 96), bits_mul_two_pow (hi := 95) (lo := 91),
    bits_mul_two_pow (hi := 90) (lo := 88), hoffset, hns]
  exact ⟨rfl, hstate, bits_mul_two_pow_of_lt _ _ (by decide) (by decide)⟩

theorem pinnedContext_fields (lru : Nat) (c : BitVec 512) : ctxKey (pinnedContext lru c) = ctxKey c ∧
    ctxState (pinnedContext lru c) = ctxState c ∧ ctxPins (pinnedContext lru c) = (ctxPins c + 1) % 2 ^ 16 ∧
    ctxLru (pinnedContext lru c) = lru % 2 ^ 64 := by
  unfold ctxKey ctxState ctxLru pinnedContext ctxPins
  refine ⟨?_, ?_, ?_, ?_⟩
  · rw [bits_ctxPut_of_out _ _ (by decide) (by decide), bits_ctxPut_of_out _ _ (by decide) (by decide),
      bits_ctxPut_of_out _ _ (by decide) (by decide), bits_ctxPut_of_out _ _ (by decide) (by decide)]
  · rw [bits_ctxPut_of_out _ _ (by decide) (by decide), bits_ctxPut_of_out _ _ (by decide) (by decide)]
  · rw [bits_ctxPut_self _ _ (by decide) (by decide), bits_ctxPut_of_out _ _ (by decide) (by decide)]
  · rw [bits_ctxPut_of_out _ _ (by decide) (by decide), bits_ctxPut_self _ _ (by decide) (by decide)]

end

theorem claimedContext_fields (lru : W64) (d : BitVec 256) :
    let c := pinnedContext lru.toNat (newContext d)
    ctxKey c = descKey d ∧ ctxState c = 1 ∧ ctxPins c = 1 ∧ ctxLru c = lru.toNat := by
  obtain ⟨hkey, hstate, hpins, hlru⟩ := pinnedContext_fields lru.toNat (newContext d)
  obtain ⟨hkey', hstate', hpins'⟩ := newContext_fields d
  rw [hkey'] at hkey
  rw [hstate'] at hstate
  rw [hpins'] at hpins
  rw [Nat.mod_eq_of_lt lru.isLt] at hlru
  exact ⟨hkey, hstate, hpins, hlru⟩

/-! ### Reads that end (R276 to R279) -/

/-- The place's descriptor as a good Read gives it. -/
def placeDesc (place : Nat) (desc : BitVec 256) (s : State) : BitVec 256 :=
  s.descOf (s.ingest.clipOf (s.ingest.at' place).1 (s.ingest.at' place).2) desc

/-- Does a Read of namespace `ns` read the object of this descriptor? -/
def readsObject (ns : Nat) (d : BitVec 256) : Bool := d.getLsbD 0 && !descBad d && bits d.toNat 31 27 == ns

section
variable {ns : Fin 32} {place : Nat} {s : State} {x : IngestNs} (hup : s.ingestUp = true)
  (hon : s.ingest.offline.contains ns.val = false) (hreads : s.reads place = true) (hns : s.ingest.ns ns.val = some x)
include hup hon hreads hns

theorem exec_failedRead (fatal : Bool) :
    exec (.nvmeReadCompletion ns place none fatal) s = .next (readFailed x place fatal s) := by
  change execNvmeReadCompletion ns place none fatal s = _
  simp only [execNvmeReadCompletion, hup, hon, hreads, hns, Bool.not_true, Bool.or_self, Bool.false_eq_true, if_false]

theorem exec_timedOutRead : exec (.nvmeReadTimeout ns place) s = .next (readFailed x place false s) := by
  change execNvmeReadTimeout ns place s = _
  simp only [execNvmeReadTimeout, hup, hon, hreads, hns, Bool.not_true, Bool.or_self, Bool.false_eq_true, if_false]

theorem exec_goodRead (desc : BitVec 256) (fatal : Bool) : exec (.nvmeReadCompletion ns place (some desc) fatal) s =
    let u := if readsObject ns.val (placeDesc place desc s) then
      claimContext place (placeDesc place desc s) (s.updIngest (goodRead x place)) else s.updIngest (goodRead x place)
    .next (if fatal then takeOffline x u else u) := by
  change execNvmeReadCompletion ns place (some desc) fatal s = _
  simp only [execNvmeReadCompletion, hup, hon, hreads, hns, Bool.not_true, Bool.or_self, Bool.false_eq_true, if_false]
  rfl

/-- Where no context is to be claimed, a good Read only clears the failures. -/
theorem exec_goodRead_of_idle {desc : BitVec 256}
    (h : readsObject ns.val (placeDesc place desc s) = false ∨ ∃ y ∈ s.ingest.pins, y.1 = place) (fatal : Bool) :
    exec (.nvmeReadCompletion ns place (some desc) fatal) s =
      .next (if fatal then takeOffline x (s.updIngest (goodRead x place)) else s.updIngest (goodRead x place)) := by
  rw [exec_goodRead hup hon hreads hns]
  rcases h with hmine | hpin
  · rw [hmine]
    rfl
  · rw [claimContext_of_pinned (s := s.updIngest (goodRead x place)) hpin, ite_self]

/-- The first good Read for a clip of an object that no context holds claims the lowest free one. -/
theorem exec_goodRead_claims {desc : BitVec 256} (hmine : readsObject ns.val (placeDesc place desc s) = true)
    (hpins : ∀ y ∈ s.ingest.pins, y.1 ≠ place) (hctx : s.ingest.contextOf (placeDesc place desc s) = none)
    (hfree : firstFree s.ingest.contexts 0 < contextCount) :
    exec (.nvmeReadCompletion ns place (some desc) false) s = .next (s.updIngest fun g => { goodRead x place g with
      contexts := sset 0 (firstFree g.contexts 0) (pinnedContext g.lru.toNat (newContext (placeDesc place desc s))) g.contexts
      lru := g.lru + 1
      pins := g.pins ++ [(place, firstFree g.contexts 0)] }) := by
  rw [exec_goodRead hup hon hreads hns, hmine, if_pos rfl,
    claimContext_of_new (s := s.updIngest (goodRead x place)) hpins hctx hfree]
  rfl

end

/-- A failed Read is one whose completion gives no data, or one that times out. -/
theorem exec_of_failedRead {ns : Fin 32} {place : Nat} {s : State} {x : IngestNs} {i : Instr} (hup : s.ingestUp = true)
    (hon : s.ingest.offline.contains ns.val = false) (hreads : s.reads place = true) (hns : s.ingest.ns ns.val = some x)
    (hi : i = .nvmeReadCompletion ns place none false ∨ i = .nvmeReadTimeout ns place) :
    exec i s = .next (readFailed x place false s) := by
  rcases hi with rfl | rfl
  · exact exec_failedRead hup hon hreads hns false
  · exact exec_timedOutRead hup hon hreads hns

/-! ### A clip of a hole in the table (R277, R293) -/

/-- A drop takes the lowest free slot, and no byte of memory changes. -/
theorem dropClip_eq {reason : Nat} (h : reason ≠ 0) (place clip : Nat) (s : State) : dropClip place clip reason s =
    s.updIngest fun g => { g with
      slots := g.slots ++ [⟨g.freeSlot, place, clip, reason, 0, 0x3F800000⟩]
      failedReads := g.failedReads.erase place, retries := sset 0 place 0 g.retries } :=
  if_neg h

/-- CLIP_DECODE drops the clip of a place within reach of placement whose descriptor has VALID 0. -/
theorem exec_clipDecode_hole {place k : Nat} {desc : BitVec 256} {s : State} (r : ClipRead) (hup : s.ingestUp = true)
    (hpos : s.ingest.awaitPosition = false) (hjob : s.job.state ≠ 0) (hlocal : s.localOf place = some k)
    (hplaced : s.ingest.placed ≤ k)
    (hahead : k * s.ingest.params.c + place % s.ingest.params.c < s.ingest.placed * s.ingest.params.c + s.ingest.params.w)
    (hended : s.ingest.ended place = false) (hroom : s.ingest.slots.length < s.ingest.params.w)
    (hslots : ∀ x ∈ s.ingest.slots, x.place ≠ place) (honline : s.ingest.offline = []) (hoffload : s.offloadWaits = false)
    (hvalid : (placeDesc place desc s).getLsbD 0 = false) : exec (.clipDecode place desc r) s =
      .next (dropClip place (s.ingest.clipOf (s.ingest.at' place).1 (s.ingest.at' place).2) 1 s) := by
  have hnew : (s.ingest.slots.any fun x => x.place == place) = false :=
    List.any_eq_false.mpr fun x hx => by simpa using hslots x hx
  unfold placeDesc at hvalid
  change execClipDecode place desc r s = _
  simp only [execClipDecode, hup, hpos, hjob, hlocal, hplaced, hahead, hended, Nat.not_le.mpr hroom, hnew, honline, hoffload,
    hvalid, decide_true, decide_false, Bool.and_self, Bool.not_true, Bool.not_false, Bool.or_self, Bool.false_and,
    Bool.false_eq_true, List.contains_nil, if_false, if_true]

/-! ### Placing a micro-batch (R292, R294) -/

/-- The epochs that end raise their events, and the end of the last one may be noted. -/
theorem epochEvents_eventOnly (k : Nat) (s : State) :
    ∃ b, EventOnly (s.updIngest fun g => { g with endRaised := b }) (epochEvents k s) := by
  have hends : ∀ es : List Nat, EventOnly s (forEach es (fun e s => raise 0x0403 permuterUnit 0 [(4, e)] s) s) := fun es =>
    forEach_related eventOnly_refl eventOnly_trans es (fun e _ s => raise_eventOnly 0x0403 permuterUnit 0 [(4, e)] s) s
  unfold epochEvents
  dsimp only
  split
  · refine ⟨true, eventOnly_trans ?_ (raise_eventOnly ..)⟩
    rw [hends]
    rfl
  · exact ⟨s.ingest.endRaised, hends _⟩

theorem updIngest_congr {s : State} {f f' : Ingest → Ingest} (h : f s.ingest = f' s.ingest) :
    s.updIngest f = s.updIngest f' := congrArg (fun g => { s with ingest := g }) h

/-- A dropped clip of a placed micro-batch counts, and so does its reason (Table 11.9). -/
def countDrop (g : Ingest) (reason : Nat) : Ingest := (g.count 1 1).count (1 + reason) 1

theorem foldl_countDrop_frame (rs : List Nat) : ∀ g : Ingest, ∃ cs, rs.foldl countDrop g = { g with counters := cs } := by
  induction rs with
  | nil => exact fun g => ⟨g.counters, rfl⟩
  | cons r rs ih =>
    intro g
    obtain ⟨cs, h⟩ := ih (countDrop g r)
    refine ⟨cs, ?_⟩
    rw [List.foldl_cons, h]
    simp only [countDrop, Ingest.count]

/-- The positions that the clips of micro-batch `k` are filled from. -/
def batchPlaces (k : Nat) (s : State) : List Nat := (List.range s.ingest.params.c).map fun c => s.placeOf k c

/-- A placed micro-batch counts in PLACED, and its slots are free. -/
def freeBatch (k : Nat) (mine : List Nat) (g : Ingest) : Ingest :=
  { g with placed := k + 1, slots := g.slots.filter fun x => !mine.contains x.place }

theorem place_ne_of_mem_freeBatch {k : Nat} {s : State} {y : ReservoirSlot}
    (hy : y ∈ (freeBatch k (batchPlaces k s) s.ingest).slots) {i : Nat} (hi : i < s.ingest.params.c) :
    y.place ≠ s.placeOf k i := by
  intro hplace
  have hmine : y.place ∈ batchPlaces k s := List.mem_map.mpr ⟨i, List.mem_range.mpr hi, hplace.symm⟩
  have hkept := (List.mem_filter.mp hy).2
  simp [hmine] at hkept

/-- Placing delivers a Clause with its payload into forward-in, counts, frees the slots, and ends epochs. -/
theorem placeBatch_eq (v : Nat) (s : State) : ∃ (c : BitVec 512) (payload : List Byte) (drops : List Nat), placeBatch v s =
    epochEvents s.ingest.placed ((deliver v false c payload s).updIngest fun g => drops.foldl countDrop
      ((freeBatch s.ingest.placed ((List.range s.ingest.params.c).map fun c' =>
        (deliver v false c payload s).placeOf s.ingest.placed c') g).count 0 s.ingest.params.c)) :=
  ⟨_, _, _, rfl⟩

theorem deliver_placeOf (v : Nat) (c : BitVec 512) (payload : List Byte) (s : State) (k i : Nat) :
    (deliver v false c payload s).placeOf k i = s.placeOf k i := by
  rw [deliver_frame]
  rfl

theorem deliver_ingest (v : Nat) (c : BitVec 512) (payload : List Byte) (s : State) :
    (deliver v false c payload s).ingest = s.ingest := by rw [deliver_frame]

/-- What placing leaves, but for the events of the epochs that end. -/
theorem placeBatch_eventOnly (v : Nat) (s : State) : ∃ c payload counters b,
    EventOnly ((deliver v false c payload s).updIngest fun _ => { freeBatch s.ingest.placed (batchPlaces s.ingest.placed s)
      s.ingest with counters := counters, endRaised := b }) (placeBatch v s) := by
  obtain ⟨c, payload, drops, hplace⟩ := placeBatch_eq v s
  have hmine : ((List.range s.ingest.params.c).map fun c' => (deliver v false c payload s).placeOf s.ingest.placed c') =
      batchPlaces s.ingest.placed s := List.map_congr_left fun i _ => deliver_placeOf v c payload s _ i
  obtain ⟨counters, hcounters⟩ := foldl_countDrop_frame drops
    ((freeBatch s.ingest.placed (batchPlaces s.ingest.placed s) s.ingest).count 0 s.ingest.params.c)
  obtain ⟨b, hb⟩ := epochEvents_eventOnly s.ingest.placed ((deliver v false c payload s).updIngest fun _ =>
    { freeBatch s.ingest.placed (batchPlaces s.ingest.placed s) s.ingest with counters := counters })
  have hcount : (deliver v false c payload s).updIngest (fun g => drops.foldl countDrop
      ((freeBatch s.ingest.placed (batchPlaces s.ingest.placed s) g).count 0 s.ingest.params.c)) =
      (deliver v false c payload s).updIngest fun _ =>
        { freeBatch s.ingest.placed (batchPlaces s.ingest.placed s) s.ingest with counters := counters } :=
    updIngest_congr (by rw [deliver_ingest, hcounters]; simp only [Ingest.count])
  refine ⟨c, payload, counters, b, ?_⟩
  rw [hplace, hmine, hcount]
  exact hb

section
variable {v : Nat} {s : State} (hup : s.ingestUp = true) (hpos : s.ingest.awaitPosition = false)
  (hstage : s.stage0 = some v) (hlive : (s.stage v).live = true) (hcredit : (s.stage v).credit false = true)
  (hstopped : s.ingest.stopped = false) (hstop : s.ingest.stopAt = none) (hend : s.ingest.endRaised = false)
  (honline : s.ingest.offline = []) (hlimit : s.ingest.ended (s.placeOf s.ingest.placed 0) = false)
  (hready : ∀ c, c < s.ingest.params.c → s.clipReady s.ingest.placed c = true) (hcopy : s.copyBad s.ingest.placed = none)
  (hdie : s.deliveryDie (s.stage v) ((s.stage v).slotAddr false ((s.stage v).forwardIn.delivered % 2 ^ 32)) = none)
  (hqueue : s.badAmong [queueState v 0] = none)
include hup hpos hstage hlive hcredit hstopped hstop hend honline hlimit hready hcopy hdie hqueue

theorem exec_ingestPlace : exec .ingestPlace s = .next (placeBatch v s) := by
  have hall : (List.range s.ingest.params.c).all (s.clipReady s.ingest.placed) = true :=
    List.all_eq_true.mpr fun c hc => hready c (List.mem_range.mp hc)
  change execIngestPlace s = _
  simp only [execIngestPlace, hstage, hup, hpos, hlive, hcredit, hstopped, hstop, hend, honline, hlimit, hall, hcopy, hdie,
    hqueue, List.isEmpty_nil, Bool.not_true, Bool.and_false, Bool.or_self, Bool.false_eq_true, if_false]

end

/-- While it waits for INGEST_POSITION the ingest die places nothing. -/
theorem exec_ingestPlace_of_awaitPosition {s : State} (h : s.ingest.awaitPosition = true) : exec .ingestPlace s = .next s := by
  change execIngestPlace s = _
  unfold execIngestPlace
  split
  · rfl
  · simp only [h, Bool.or_true, Bool.true_or, if_true]

theorem exec_ingestRejoin {s : State} (hpend : s.ingest.rejoinPending = true) (hopen : s.ingest.isOpen = true) :
    exec .ingestRejoin s = .next (raiseParser 0x0404 [(4, s.ingest.placed)]
      (s.updIngest fun g => { g with rejoinPending := false, awaitPosition := true })) := by
  change execIngestRejoin s = _
  simp only [execIngestRejoin, hpend, hopen, Bool.not_true, Bool.or_self, Bool.false_eq_true, if_false]

/-! ### The statement (R276 to R279, R293, R294, R300) -/

/-- Settles O37: a good Read clears the failures and may claim a context, a failed one is tried again or lost, a hole is a
drop, a ready micro-batch is delivered, and after a rejoin placement waits. -/
theorem ingest : Obligations.Ingest := by
  unfold Obligations.Ingest
  refine ⟨?reads, ?places, fun s hpend hopen => ?rejoins⟩
  case reads =>
    intro ns place s x hup hon hreads hns g good off
    refine ⟨fun desc => ?_, fun i hi => ⟨fun hlt => ?_, fun hge => ?_⟩, ?_⟩
    · intro d mine
      refine ⟨fun hidle => ?_, fun hmine hpins hctx hfree => ?_⟩
      · exact ⟨exec_goodRead_of_idle hup hon hreads hns hidle false, _,
          exec_goodRead_of_idle hup hon hreads hns hidle true, takeOffline_ingest ..⟩
      · refine ⟨_, exec_goodRead_claims hup hon hreads hns hmine hpins hctx hfree, rfl, rfl,
          fun j hj => sget_sset_of_ne 0 _ _ hj, ?_⟩
        have hclaimed := claimedContext_fields g.lru d
        rwa [← sget_sset_self 0 (firstFree g.contexts 0) (pinnedContext g.lru.toNat (newContext d)) g.contexts] at hclaimed
    · refine ⟨_, exec_of_failedRead hup hon hreads hns hi, ?_⟩
      rw [readFailed_of_lt hlt]
      exact ⟨rfl, rfl⟩
    · refine ⟨_, exec_of_failedRead hup hon hreads hns hi, ?_⟩
      rw [readFailed_of_ge hge]
      by_cases hrow : 2 ≤ sget 0 g.failRow x.controller
      · rw [if_pos (Or.inr hrow), if_pos hrow, takeOffline_ingest]
        exact ⟨rfl, rfl⟩
      · rw [if_neg (by simpa using hrow), if_neg hrow]
        exact ⟨rfl, rfl⟩
    · exact ⟨_, exec_failedRead hup hon hreads hns true, readFailed_fatal_offline⟩
  case places =>
    intro s hup hpos g
    refine ⟨?_, ?_⟩
    · intro place desc object n k hjob hlocal hplaced hahead hended hroom hslots honline hoffload hvalid
      exact ⟨_, (exec_clipDecode_hole ⟨object, n⟩ hup hpos hjob hlocal hplaced hahead hended hroom hslots honline hoffload
        hvalid).trans (congrArg _ (dropClip_eq Nat.one_ne_zero ..)), rfl, rfl, rfl⟩
    · intro v hstage hlive hcredit hstopped hstop hend honline hlimit hready hcopy hdie hqueue
      obtain ⟨c, payload, counters, b, hevents⟩ := placeBatch_eventOnly v s
      have hstages := eventOnly_stage hevents
      refine ⟨_, exec_ingestPlace hup hpos hstage hlive hcredit hstopped hstop hend honline hlimit hready hcopy hdie hqueue,
        ?_⟩
      rw [hevents.ingest_eq, hstages v, State.updIngest_stage, deliver_stage_self]
      refine ⟨rfl, rfl, rfl, List.length_append .., ?_, fun u hu => ?_⟩
      · exact fun y hy i hi => place_ne_of_mem_freeBatch hy hi
      · rw [hstages u, State.updIngest_stage, deliver_stage_of_ne _ _ _ _ _ hu]
  case rejoins =>
    refine ⟨_, exec_ingestRejoin hpend hopen, (raiseParser_eventOnly ..).ingest_eq, exec_ingestPlace_of_awaitPosition ?_⟩
    rw [(raiseParser_eventOnly ..).ingest_eq]
    rfl

/-! ### Decoding never gives the reason CONTAINER (Table 11.5) -/

theorem policy_ne_container (p : IngestParams) (failed late : Nat) (damaged anyGood : Bool) :
    p.policy failed late damaged anyGood ≠ 8 := by
  unfold IngestParams.policy
  dsimp only
  split
  · decide
  · split
    · decide
    · split <;> decide

/-- CONTAINER is the reason of an object that does not demultiplex, and of no other. -/
theorem decodeStream_ne_container (p : IngestParams) (d : BitVec 256) (cached : Option Nat) (m : Demuxed) :
    (decodeStream p d cached m).reason ≠ 8 := by
  unfold decodeStream
  dsimp only
  split
  · exact (by decide : (6 : Nat) ≠ 8)
  · split
    · split
      · exact (by decide : (3 : Nat) ≠ 8)
      · exact (by decide : (4 : Nat) ≠ 8)
    · split
      · exact (by decide : (3 : Nat) ≠ 8)
      · exact policy_ne_container p _ _ _ _

/-! ### An object in host memory where the event of a discarded context is written (O60) -/

/-- A transport packet with stuffing behind these bytes. -/
def stuffed (bs : List Byte) : List Byte := bs ++ List.replicate (188 - bs.length) 0xFF

/-- A transport stream of a PAT, which names program 1 with its PMT on PID 32, and that PMT, with H.264 video on PID 33. -/
def hostStream : List Byte :=
  stuffed [0x47, 0x40, 0, 0x10, 0, 0, 0xB0, 0x0D, 0, 1, 0xC1, 0, 0, 0, 1, 0xE0, 0x20, 0xA2, 0xC3, 0x29, 0x41] ++
  stuffed [0x47, 0x40, 0x20, 0x10, 0, 2, 0xB0, 0x12, 0, 1, 0xC1, 0, 0, 0xE0, 0x21, 0xF0, 0, 0x1B, 0xE0, 0x21, 0xF0, 0,
    0x05, 0xCC, 0xCF, 0x0B]

/-- A valid descriptor of the object of 376 bytes at block 0 of namespace 3, its codec the stream's and no audio wanted. -/
def hostClip : BitVec 256 := BitVec.ofNat 256 (1 + 3 * 2 ^ 27 + 14 * 2 ^ 36 + 15 * 2 ^ 40 + 376 * 2 ^ 160)

/-- A running job whose namespace 3 is the host region at host address 0, where the stream stands and where the ring of
mailbox 0 has its next completion entry. The table holds a context of the stream, and a word of that context is
uncorrectable. -/
def overwritten : State :=
  { chip := { bringup := 5, service := 2 }, job := { state := 2, id := 5 }
    hostMem := (number 0 hostStream).filter fun x => x.2 != 0, badWords := [contextAddr 0]
    host := { mailboxes := [(0, { ctrl := 0x601 })] }
    ingest := { isOpen := true, params := { n := 8, c := 1, w := 4, namespaces := [⟨3, true, 0, 0, 0⟩] }
                contexts := [(0, newContext hostClip)] } }

/-- The state meets what the statement asks before a clip of place 0 is decoded. -/
theorem overwritten_decodes : let s := overwritten
    let g := s.ingest
    let clip := g.clipOf (g.at' 0).1 (g.at' 0).2
    let d := s.descOf clip hostClip
    (s.ingestUp = true ∧ g.awaitPosition = false ∧ s.job.state ≠ 0 ∧ s.localOf 0 = some 0 ∧ g.placed ≤ 0 ∧
      0 * g.params.c + 0 % g.params.c < g.placed * g.params.c + g.params.w ∧ g.ended 0 = false ∧
      g.slots.length < g.params.w) ∧
    ((∀ x ∈ g.slots, x.place ≠ 0) ∧ g.offline = [] ∧ s.offloadWaits = false ∧ d.getLsbD 0 = true ∧ descBad d = false ∧
      (g.ns (bits d.toNat 31 27)).isSome = true) ∧
    ((claimContext 0 d s).ingest.pins.find? fun x => x.1 == 0) = some (0, 0) ∧ g.failedReads.contains 0 = false ∧
    g.params.reservoir + (g.freeSlot + 1) * g.params.clipBytes ≤ 2 ^ 47 := by
  decide +kernel

/-- The object demultiplexes as it stands in that state. -/
theorem overwritten_demux : let s := overwritten
    let d := s.descOf (s.ingest.clipOf (s.ingest.at' 0).1 (s.ingest.at' 0).2) hostClip
    (demux d (s.objectOf d [])).isSome = true := by
  decide +kernel

/-- The drop reasons of the reservoir's slots after a step; none where the machine stops. -/
def slotReasonsAfter (o : Host.Outcome State Fault Refusal) : List Nat :=
  match o with
  | .next t => t.ingest.slots.map (·.reason)
  | _ => []

/-- The completion entry of EV_MEM_UNCORRECTABLE takes the place of the PAT's packet before the object is demultiplexed. -/
theorem slotReasons_overwritten : slotReasonsAfter (exec (.clipDecode 0 hostClip ⟨[], 0⟩) overwritten) = [8] := by
  decide +kernel

/-- Refutes O60: a context with an uncorrectable word is discarded with EV_MEM_UNCORRECTABLE (R36, R278), whose host copy is
written to mailbox 0's ring before the clip's object is demultiplexed. Where the object lies in host memory under that entry,
what is demultiplexed is not the object that the statement names: the clip of `overwritten` is a drop with reason CONTAINER,
though its object demultiplexes and no decode gives that reason. -/
theorem not_clipDecoding : ¬ Obligations.ClipDecoding := by
  unfold Obligations.ClipDecoding
  intro h
  obtain ⟨⟨hup, hpos, hjob, hlocal, hplaced, hahead, hended, hroom⟩, ⟨hslots, honline, hoffload, hvalid, hgood, hns⟩, hpin,
    hread, harea⟩ := overwritten_decodes
  obtain ⟨m, hm⟩ := Option.isSome_iff_exists.mp overwritten_demux
  obtain ⟨-, -, hdecoded⟩ := h 0 hostClip [] 0 0 overwritten hup hpos hjob hlocal hplaced hahead hended hroom hslots honline
    hoffload hvalid hgood hns (0, 0) hpin
  obtain ⟨t, hnext, hslot, -⟩ := hdecoded m hread hm harea
  have hreasons := slotReasons_overwritten
  rw [hnext] at hreasons
  change t.ingest.slots.map (·.reason) = [8] at hreasons
  rw [hslot] at hreasons
  split at hreasons
  · exact absurd (List.singleton_inj.mp hreasons) (by decide : (0 : Nat) ≠ 8)
  · exact decodeStream_ne_container _ _ _ m (List.singleton_inj.mp hreasons)

end Sys2Proof.IngestDie
